-- ==== Sys2Proof/Word.lean ====
section
/-! DEFINITION. The word types of the Morub and their plainest arithmetic (R6: bits are numbered from 0,
multi-byte values are little-endian). -/

namespace Sys2Proof

/-- A 64-bit register value. -/
abbrev Word := BitVec 64

/-- One byte of storage. -/
abbrev Byte := BitVec 8

/-- `n` bits of `w` from bit `lo` up, as a number. -/
def fieldNat {k : Nat} (w : BitVec k) (lo n : Nat) : Nat := (w.extractLsb' lo n).toNat

/-- One bit of `w`. -/
def bitAt {k : Nat} (w : BitVec k) (i : Nat) : Bool := w.getLsbD i

/-- `w` with the `n` bits from `lo` up replaced by the low bits of `v`. -/
def putField {k : Nat} (w : BitVec k) (lo n : Nat) (v : Nat) : BitVec k :=
  BitVec.ofNat k (w.toNat - fieldNat w lo n * 2 ^ lo + v % 2 ^ n * 2 ^ lo)

end Sys2Proof
end

