-- ==== Sys2Proof/Config.lean ====
section
/-! DEFINITION. What the part fixes (figures of the spec), and the free values: opaque constants without a
body for what the spec lists as open or leaves to something outside the device. A free value is applied to a
counter that State holds (`freeCtr`), so each use is a fresh one; no proof can see its value. -/

namespace Sys2Proof.Config

/-! ### Figures the spec fixes -/

/-- Chunk size of the chunk map in bytes (R182). -/
def chunkBytes : Nat := 512
/-- Commands one engine queue or gang lane holds (R170, R219). -/
def queueDepth : Nat := 32
/-- Muslin lines one core's quota holds: 1.5 MiB in 64-byte lines (R286, R359). -/
def muslinLines : Nat := 24576
/-- Entries of one group's commit log (R366). -/
def logEntries : Nat := 4096
/-- Words of vector instruction memory (R61). -/
def vimWords : Nat := 10922
/-- Bytes of one HBM stack (R326). -/
def stackBytes : Nat := 0xC00000000
/-- Bytes of the capacity tier (R326). -/
def capacityBytes : Nat := 0x18000000000
/-- The containment bound of R283 step 7 and R290 in bytes. -/
def containBytes : Nat := 1572864
/-- WFE timeout in cc (R166). -/
def wfeCc : Nat := 12500
/-- Quiescence watchdog in cc (R302). -/
def watchdogCc : Nat := 250000
/-- Progress guard in cc: 2 ms of 0.8 ns (R295). -/
def guardCc : Nat := 2500000
/-- Heartbeat window in cc: 50 ms (R404). -/
def heartbeatCc : Nat := 62500000
/-- Idle time before parking in cc: 1 s (R274). -/
def parkCc : Nat := 1250000000
/-- Remote response window in cc: 1 ms (R400). -/
def remoteCc : Nat := 1250000
/-- A pause in cc: 1 µs (R400). -/
def pauseCc : Nat := 1250
/-- Score halving in cc: 24 h (R379). -/
def halvingCc : Nat := 108000000000000
/-- Flash record period in cc: 10 min (R382). -/
def flashCc : Nat := 750000000000

/-! ### Free values -/

/-- A free choice between two permitted outcomes, one per use (R14, R125, R176, R189, R337, R354, R407).
Marked in log entry 5. -/
opaque freeBool : Nat → Bool
/-- A free choice that does not vary between the copies of a launch or when a region runs again (R15): by launch, checkpoint, rank,
push and element. Marked in log entry 5. -/
opaque fixedBool : Nat → Nat → Nat → Nat → Nat → Bool
/-- A free number, one per use: a choice among more than two permitted outcomes (R332). Log entry 5. -/
opaque freeNat : Nat → Nat
/-- The bytes a unit outside the spec's text fixes (SPDM messages of R403). Log entry 6. -/
opaque freeByte : Nat → Byte
/-- SHA-384 of a byte string (R402, R403 name it; its definition is outside the spec). Log entry 7. -/
opaque sha384 : List Byte → BitVec 384
/-- Whether an ECDSA P-384 signature (r, s) over a digest verifies under a public key (R402 names it).
Log entry 7. -/
opaque ecdsaOk : List Byte → BitVec 384 → List Byte → List Byte → Bool
/-- Where an Anole core starts in a firmware image, by the image's second header word and the core: the inner layout of the
body is the image's own (R423). Log entry 6. -/
opaque anoleEntry : Nat → Nat → BitVec 64
/-- The port chosen by the hash of R398 among a route's live ports. Log entry 8. -/
opaque portHash : Nat → Nat → Nat → Nat
/-- Whether a PCI Express function is enabled in a cycle (R392): its host decides, by means outside the spec. Log entry 66. -/
opaque functionEnabled : Nat → BitVec 5 → Bool
/-- Where in the capacity tier the firmware keeps the rings of parked queues (R274), in units of 1 GiB. Log entry 77. -/
opaque parkBase : Nat
/-- The bytes of a flash record from its 16th on, by its contents (R382). Log entry 6. -/
opaque recordByte : List Nat → Nat → Byte
/-- The module serial number of measurement block 4 (R403). Log entry 6. -/
opaque serial : List Byte
/-- The digest of the boot image (R403 block 1). Log entry 6. -/
opaque bootDigest : BitVec 384

end Sys2Proof.Config
end

