-- ==== Sys2Proof/Syntax.lean ====
section
/-! DEFINITION. The instruction syntax: one constructor of `Instr` per row of spec/opcode_table.json.
Fields keep the widths of the spec's bit maps (Tables 02-2, 02-5, 02-7). The last part holds the device's own
steps and the inputs from outside (spec/95_what_each_step_holds.md): they have no encoding and reach the machine
as turns of the schedule that State holds. -/

namespace Sys2Proof

/-! ### Operands -/

/-- The `rb` operand of form SR: a register, or a literal that follows the base word (R52). -/
inductive Src where
  | reg (r : BitVec 6)
  | lit32 (w : BitVec 32)
  | lit64 (w : BitVec 64)
deriving DecidableEq, Repr

/-- The fields of an E-form instruction other than `MOP` and `sub` (Table 02-5). -/
structure EArgs where
  xa : BitVec 6
  xb : BitVec 6
  xc : BitVec 6
  guard : BitVec 4
  flags : BitVec 4
  post : BitVec 6
  wait0 : BitVec 6
  wait1 : BitVec 6
  wait2 : BitVec 6
  order : BitVec 2
deriving DecidableEq, Repr

/-- The engine operations of Table 02-6 (MOP 0x38 to 0x3D). -/
inductive EOp where
  | cpy | cpyT | cpyMc | cpyQ | gath | scat | bin | kvg | kva | kvdem | kvrefInc | kvrefDec
  | cube | cubeGa | cubeGb | cubeGk | cubeSp | aclr | adrain
  | stt | stp | stg | updSgd | updAdam | vrun
deriving DecidableEq, Repr

/-- The fields of a V-kind vector word other than `vop` (Table 02-7). -/
structure VArgs where
  vd : BitVec 5
  va : BitVec 5
  vb : BitVec 5
  mask : BitVec 3
  walk : BitVec 2
  rep : BitVec 8
  asel : BitVec 4
  step : BitVec 3
  idle : BitVec 5
deriving DecidableEq, Repr

/-! ### Names of things the steps act on -/

/-- Which copy of a launch (R355, R369). -/
inductive Role where
  | primary | shadow | third
deriving DecidableEq, Repr

/-- One core of one copy of one launch: `lid` numbers launches in order of claim, `rank` is the coreRank. -/
structure CoreRef where
  lid : Nat
  role : Role
  rank : Nat
deriving DecidableEq, Repr

/-- A core that waits in WFE: of a launch, or an Anole core (R166). -/
inductive Waiter where
  | core (k : CoreRef)
  | anole (a : BitVec 4)
deriving DecidableEq, Repr

/-- A scratchpad of a launch copy: a core's own, a cluster rank's, a chip rank's (R182). -/
inductive PadId where
  | usp (rank : Nat)
  | cls (rank : Nat)
  | dsp (rank : Nat)
deriving DecidableEq, Repr

/-- The scopes of Table 08-2. -/
inductive Scope where
  | unit | cluster | die | device | domain | host
deriving DecidableEq, Repr

/-- What a WRITE_PERFORMED step moves on (R308): entry `i` of a core's port, of a copy's list of writes
performed at home, or of the released writes on their way to a host. -/
inductive PerfTarget where
  | port (k : CoreRef) (i : Nat)
  | home (lid : Nat) (role : Role) (i : Nat) (sc : Scope)
  | hostOut (i : Nat)
  /-- one write of a running command, or byte group `j` of a run of bytes -/
  | element (k : CoreRef) (cmd i j : Nat)
  /-- one more line of a commit point in progress -/
  | release (k : CoreRef) (i : Nat)
deriving DecidableEq, Repr

/-- Where an upset strikes (R357). -/
inductive SoftLoc where
  | dram (word : Nat)
  | cwn (die word : Nat)
  | pad (lid : Nat) (role : Role) (p : PadId) (word : Nat)
  | acc (k : CoreRef) (word : Nat)
  | vim (k : CoreRef) (word : Nat)
  | muslin (k : CoreRef) (line : Nat)
  | snapshot (lid : Nat)
  | control (k : CoreRef) (src : Nat)
  | accValue (k : CoreRef) (byte : Nat) (flip : Byte)
  | corrected (unit : Nat)
  /-- the result of the control core's next instruction (R358): the bits that the error flips, and its size before any wrap
  modulo 3 -/
  | result (k : CoreRef) (flip : BitVec 64) (err : Nat)
  /-- the same of lane `lane` of the vector result that lands as number `i`; `prod`: it struck the significand product -/
  | landing (k : CoreRef) (i lane : Nat) (flip : BitVec 64) (err : Nat) (prod : Bool)
  /-- a byte that a command has computed and not yet written, and a contribution to a norm register -/
  | written (k : CoreRef) (cmd i byte : Nat) (flip : Byte)
  | normAdd (k : CoreRef) (cmd i : Nat) (v : Option Nat)
  /-- a word of module flash -/
  | flash (word : Nat)
deriving DecidableEq, Repr

/-- A message of the Igsan link: the header beat of Table 11-5 and its payload (R399). -/
structure LinkMsg where
  dst : BitVec 12
  src : BitVec 12
  part : BitVec 4
  vc : BitVec 2
  op : BitVec 6
  tag : BitVec 12
  stat : BitVec 8
  len : BitVec 8
  addr : BitVec 64
  payload : List Byte
deriving DecidableEq, Repr

/-- What a host does through a memory BAR: a read, a write, or an AtomicOp of 4 or (`wide`) 8 bytes (R384, R385). -/
inductive HostOp where
  | read (n : Nat)
  | write (data : List Byte)
  | fetchAdd (wide : Bool) (v : BitVec 64)
  | swap (wide : Bool) (v : BitVec 64)
  | cas (wide : Bool) (cmp v : BitVec 64)
deriving DecidableEq, Repr

/-- An offset in SYS space through BAR 0, or in the coherent window through BAR 2 (R385). -/
inductive BarAddr where
  | sys (off : Nat)
  | window (off : Nat)
deriving DecidableEq, Repr

/-- A command that starts or reads on: its number, and whether it reads only some of its elements now (R174, R176). -/
structure StartOf where
  cmd : Nat
  partly : Bool
deriving DecidableEq, Repr

/-- The fields of a queue creation (R274): the words of the descriptor at offsets 0, 8 and 40. -/
structure QueueSpec where
  ring : BitVec 64
  cfg : BitVec 64
  cring : BitVec 64
deriving DecidableEq, Repr

/-- The instructions, steps and events of the opcode table, one constructor per row. -/
inductive Instr where
  -- SR, MOP 0x00 (R115)
  | add (d a : BitVec 6) (b : Src) (g : BitVec 4)
  | sub (d a : BitVec 6) (b : Src) (g : BitVec 4)
  | mul (d a : BitVec 6) (b : Src) (g : BitVec 4)
  | mulh (d a : BitVec 6) (b : Src) (g : BitVec 4)
  | mulhn (d a : BitVec 6) (b : Src) (g : BitVec 4)
  | div (d a : BitVec 6) (b : Src) (g : BitVec 4)
  | divn (d a : BitVec 6) (b : Src) (g : BitVec 4)
  | rem (d a : BitVec 6) (b : Src) (g : BitVec 4)
  | remn (d a : BitVec 6) (b : Src) (g : BitVec 4)
  | min (d a : BitVec 6) (b : Src) (g : BitVec 4)
  | max (d a : BitVec 6) (b : Src) (g : BitVec 4)
  | minn (d a : BitVec 6) (b : Src) (g : BitVec 4)
  | maxn (d a : BitVec 6) (b : Src) (g : BitVec 4)
  -- SR, MOP 0x01 (R115)
  | and (d a : BitVec 6) (b : Src) (g : BitVec 4)
  | or (d a : BitVec 6) (b : Src) (g : BitVec 4)
  | xor (d a : BitVec 6) (b : Src) (g : BitVec 4)
  | andn (d a : BitVec 6) (b : Src) (g : BitVec 4)
  | shl (d a : BitVec 6) (b : Src) (g : BitVec 4)
  | shr (d a : BitVec 6) (b : Src) (g : BitVec 4)
  | sra (d a : BitVec 6) (b : Src) (g : BitVec 4)
  | rotl (d a : BitVec 6) (b : Src) (g : BitVec 4)
  | mov (d a : BitVec 6) (g : BitVec 4)
  -- SR, MOP 0x02 (R117)
  | clz (d a : BitVec 6) (g : BitVec 4)
  | ctz (d a : BitVec 6) (g : BitVec 4)
  | popc (d a : BitVec 6) (g : BitVec 4)
  | sextB (d a : BitVec 6) (g : BitVec 4)
  | sextH (d a : BitVec 6) (g : BitVec 4)
  | sextW (d a : BitVec 6) (g : BitVec 4)
  | zextB (d a : BitVec 6) (g : BitVec 4)
  | zextH (d a : BitVec 6) (g : BitVec 4)
  | zextW (d a : BitVec 6) (g : BitVec 4)
  -- SR, MOP 0x03 to 0x06 (R118 to R121)
  | cmp (p : BitVec 3) (a : BitVec 6) (b : Src) (g : BitVec 4) (cc : BitVec 4)
  | pand (d a b : BitVec 3) (g : BitVec 4)
  | por (d a b : BitVec 3) (g : BitVec 4)
  | pxor (d a b : BitVec 3) (g : BitVec 4)
  | pnot (d a : BitVec 3) (g : BitVec 4)
  | lit (d : BitVec 6) (b : Src) (g : BitVec 4)
  | tptr (d a : BitVec 6) (b : Src) (g : BitVec 4)
  | tadd (d a : BitVec 6) (b : Src) (g : BitVec 4)
  | tget (d a : BitVec 6) (sel : BitVec 6) (g : BitVec 4)
  -- SI (R116, R121)
  | addSi (d a : BitVec 6) (g : BitVec 4) (i : BitVec 10)
  | subSi (d a : BitVec 6) (g : BitVec 4) (i : BitVec 10)
  | mulSi (d a : BitVec 6) (g : BitVec 4) (i : BitVec 10)
  | andSi (d a : BitVec 6) (g : BitVec 4) (i : BitVec 10)
  | orSi (d a : BitVec 6) (g : BitVec 4) (i : BitVec 10)
  | xorSi (d a : BitVec 6) (g : BitVec 4) (i : BitVec 10)
  | shlSi (d a : BitVec 6) (g : BitVec 4) (i : BitVec 10)
  | shrSi (d a : BitVec 6) (g : BitVec 4) (i : BitVec 10)
  | sraSi (d a : BitVec 6) (g : BitVec 4) (i : BitVec 10)
  | rotlSi (d a : BitVec 6) (g : BitVec 4) (i : BitVec 10)
  | minSi (d a : BitVec 6) (g : BitVec 4) (i : BitVec 10)
  | maxSi (d a : BitVec 6) (g : BitVec 4) (i : BitVec 10)
  | movi (d h : BitVec 6) (g : BitVec 4) (i : BitVec 10)
  | taddSi (d a : BitVec 6) (g : BitVec 4) (i : BitVec 10)
  -- SM (R122)
  | ld (d a : BitVec 6) (g : BitVec 4) (z : BitVec 2) (o : BitVec 8)
  | st (r a : BitVec 6) (g : BitVec 4) (z : BitVec 2) (o : BitVec 8)
  -- SB and MOP 0x2A (R130, R131)
  | br (g : BitVec 4) (disp : BitVec 22)
  | call (g : BitVec 4) (disp : BitVec 22)
  | jmpr (d a : BitVec 6) (g : BitVec 4)
  | ret (g : BitVec 4)
  -- SA (R126)
  | amoAdd (d a b : BitVec 6) (z o : BitVec 2)
  | amoAnd (d a b : BitVec 6) (z o : BitVec 2)
  | amoOr (d a b : BitVec 6) (z o : BitVec 2)
  | amoXor (d a b : BitVec 6) (z o : BitVec 2)
  | amoMin (d a b : BitVec 6) (z o : BitVec 2)
  | amoMax (d a b : BitVec 6) (z o : BitVec 2)
  | amoMinn (d a b : BitVec 6) (z o : BitVec 2)
  | amoMaxn (d a b : BitVec 6) (z o : BitVec 2)
  | amoXchg (d a b : BitVec 6) (z o : BitVec 2)
  | amoCas (d a b : BitVec 6) (z o : BitVec 2)
  | amoFadd (d a b : BitVec 6) (z o : BitVec 2)
  | amoAdd128 (d a b : BitVec 6) (o : BitVec 2)
  -- MOP 0x2D, 0x30, 0x31 (R129, R132 to R144)
  | fence (g : BitVec 4) (sc : BitVec 4)
  | tset (e : BitVec 6) (b : Src) (g : BitVec 4)
  | tpost (e : BitVec 6) (b : Src) (g : BitVec 4)
  | twait (e : BitVec 6) (b : Src) (g : BitVec 4)
  | ttest (d e : BitVec 6) (g : BitVec 4)
  | trig (t : BitVec 4) (b : Src) (g : BitVec 4)
  | binit (bar : BitVec 7) (b : Src) (g : BitVec 4)
  | barv (bar : BitVec 7) (g : BitVec 4)
  | barvRemote (bar : BitVec 7) (t : Src) (g : BitVec 4)
  | barx (a : BitVec 6) (b : Src) (g : BitVec 4)
  | bwait (bar : BitVec 7) (b : Src) (g : BitVec 4)
  | bwaitX (bar : BitVec 7) (b : Src) (g : BitVec 4)
  -- MOP 0x32 (R145 to R147)
  | abankAlloc (d : BitVec 6) (b : Src) (g : BitVec 4)
  | abankFree (a : BitVec 6) (b : Src) (g : BitVec 4)
  | tidset (t : BitVec 8) (b : Src) (g : BitVec 4)
  | tidget (t : BitVec 8) (b : Src) (g : BitVec 4)
  | nrd (d n : BitVec 6) (g : BitVec 4)
  | nclr (n : BitVec 6) (g : BitVec 4)
  | nstat (d n : BitVec 6) (g : BitVec 4)
  -- MOP 0x33 (R148 to R154)
  | vopen (d a : BitVec 6) (b : Src) (g : BitVec 4)
  | vpub (a : BitVec 6) (b : Src) (g : BitVec 4)
  | vbind (b : Src) (g : BitVec 4)
  | vretire (a : BitVec 6) (b : Src) (g : BitVec 4)
  | vquery (d a : BitVec 6) (b : Src) (g : BitVec 4)
  | trec (a : BitVec 6) (b : Src) (g : BitVec 4)
  -- MOP 0x34 (R155 to R158)
  | cwait (d a : BitVec 6) (b : Src) (g : BitVec 4)
  | drainUsp (g : BitVec 4)
  | drainCls (g : BitVec 4)
  | drainDsp (g : BitVec 4)
  | drainVirt (g : BitVec 4)
  | drainVim (g : BitVec 4)
  | hflush (a : BitVec 6) (b : Src) (g : BitVec 4)
  | isync (g : BitVec 4)
  -- MOP 0x35 to 0x37 (R159 to R168)
  | enq (d a : BitVec 6) (b : Src) (g : BitVec 4)
  | sigf (a : BitVec 6) (g : BitVec 4)
  | iter (g : BitVec 4)
  | ckpt (g : BitVec 4)
  | trap (b : Src) (g : BitVec 4)
  | sysret (g : BitVec 4)
  | wfe (g : BitVec 4)
  | exit (g : BitVec 4)
  | mfs (d : BitVec 6) (sr : BitVec 6) (g : BitVec 4)
  | mts (a : BitVec 6) (sr : BitVec 6) (g : BitVec 4)
  | nop (n : BitVec 26)
  -- E-form (R184 to R218)
  | cpy (e : EArgs)
  | cpyT (e : EArgs)
  | cpyMc (e : EArgs)
  | cpyQ (e : EArgs)
  | gath (e : EArgs)
  | scat (e : EArgs)
  | bin (e : EArgs)
  | kvg (e : EArgs)
  | kva (e : EArgs)
  | kvdem (e : EArgs)
  | kvrefInc (e : EArgs)
  | kvrefDec (e : EArgs)
  | cube (e : EArgs)
  | cubeGa (e : EArgs)
  | cubeGb (e : EArgs)
  | cubeGk (e : EArgs)
  | cubeSp (e : EArgs)
  | aclr (e : EArgs)
  | adrain (e : EArgs)
  | stt (e : EArgs)
  | stp (e : EArgs)
  | stg (e : EArgs)
  | updSgd (e : EArgs)
  | updAdam (e : EArgs)
  | vrun (e : EArgs)
  -- prefixes with the instruction they govern: one indivisible instruction (R59, R60, R219, R222)
  | gang (xa : BitVec 6) (chained : Bool) (op : EOp) (e : EArgs)
  | chain (op : EOp) (e : EArgs)
  -- vector words (R236 to R270)
  | vadd (v : VArgs)
  | vsub (v : VArgs)
  | vmul (v : VArgs)
  | vfma (v : VArgs)
  | vfms (v : VArgs)
  | vmin (v : VArgs)
  | vmax (v : VArgs)
  | vabs (v : VArgs)
  | vneg (v : VArgs)
  | vrcp (v : VArgs)
  | vrsq (v : VArgs)
  | vexp2 (v : VArgs)
  | vlog2 (v : VArgs)
  | vtanh (v : VArgs)
  | viadd (v : VArgs)
  | visub (v : VArgs)
  | vimul (v : VArgs)
  | vand (v : VArgs)
  | vor (v : VArgs)
  | vxor (v : VArgs)
  | vshl (v : VArgs)
  | vshr (v : VArgs)
  | vsra (v : VArgs)
  | vimin (v : VArgs)
  | vimax (v : VArgs)
  | vsat (v : VArgs)
  | vcmp (v : VArgs)
  | vcnt (v : VArgs)
  | vcvt (v : VArgs)
  | vqnt (v : VArgs)
  | vdqnt (v : VArgs)
  | vunpk (v : VArgs)
  | vpack (v : VArgs)
  | vld (v : VArgs)
  | vst (v : VArgs)
  | vldt (v : VArgs)
  | vgth (v : VArgs)
  | vsct (v : VArgs)
  | vldb (v : VArgs)
  | vrsum (v : VArgs)
  | vrmax (v : VArgs)
  | vrmin (v : VArgs)
  | vscan (v : VArgs)
  | vsegs (v : VArgs)
  | vpart (v : VArgs)
  | vrng (v : VArgs)
  | vdrop (v : VArgs)
  | vgmb (v : VArgs)
  | vargmx (v : VArgs)
  | vmovCK (v : VArgs)
  | vmovV (v : VArgs)
  | vmovAK (v : VArgs)
  | vmovAdd (v : VArgs)
  | vmovKV (v : VArgs)
  | vsel (v : VArgs)
  | vperm (v : VArgs)
  | vshuf (v : VArgs)
  | vbcst (v : VArgs)
  | viota (v : VArgs)
  | vsetk (kd : BitVec 4) (imm : BitVec 32) (idle : BitVec 4)
  | vlp (cn : BitVec 2) (target : BitVec 14) (idle : BitVec 5)
  -- words that no row assigns (R55, R61)
  | unassignedEncoding (w : BitVec 32)
  | unassignedVectorWord (w : BitVec 48)
  -- steps of a core and its engines
  | vectorResultLanding (k : CoreRef)
  | elasticWordCompletion (k : CoreRef) (tc : Nat)
  | engineCommandStart (k : CoreRef) (x : StartOf)
  | engineCommandCompletion (k : CoreRef) (cmd : Nat)
  | engineAccessFault (k : CoreRef) (cmd : Nat)
  | chunkWritesPerformed (k : CoreRef) (cmd : Nat) (pad : PadId) (chunk : Nat)
  | tokenWaitSatisfied (k : CoreRef) (tok : BitVec 6)
  | calicoTermFire (k : CoreRef) (term : BitVec 4)
  | barrierArrival (k : CoreRef)
  | outsideArrivalReceive (launch target : BitVec 64)
  -- class D and reliability
  | classDCompare (lid rank : Nat)
  | thirdExecutionDecision (lid : Nat)
  | bankSpareReplace (unit : BitVec 16)
  -- launch sequencing
  | checkpointCommit (lid : Nat)
  | groupResume (lid : Nat) (place : List Nat)
  | preemptionTakeEffect (lid : Nat)
  | progressGuardExpiry (lid : Nat)
  | quiescenceWatchdog (k : CoreRef)
  | wfeTimeout (w : Waiter)
  -- queues and scheduling
  | queueClaim (q : BitVec 12) (m : BitVec 7)
  | queueWriteIndexUpdate (q : BitVec 12) (m : BitVec 7) (old new : BitVec 64)
  | queueCompletionAck (q : BitVec 12) (m : BitVec 7) (v : BitVec 64)
  | queueErrorWrite (q : BitVec 12) (m : BitVec 7) (v : BitVec 64)
  | queueCreate (q : BitVec 12) (m : BitVec 7) (d : QueueSpec)
  | queueRestart (q : BitVec 12) (m : BitVec 7)
  | queueDestroy (q : BitVec 12) (m : BitVec 7)
  | queuePark (q : BitVec 12)
  | dependenceCounterWrite (c : BitVec 12) (m : BitVec 7) (v : BitVec 64)
  | packetValidation (q : BitVec 12)
  | launchPlacement (q : BitVec 12) (place : List Nat)
  | launchCompletion (lid : Nat)
  -- translation
  | pageWalkReturn (k : CoreRef) (tlb : Nat) (va : BitVec 64) (num : Nat)
  | shootdownIssue (ctx : BitVec 6) (m : BitVec 7) (cnt : BitVec 64)
  | shootdownComplete (ctx : BitVec 6)
  | contextStateWrite (ctx : BitVec 6) (m : BitVec 7) (v : BitVec 64)
  | contextResolveWrite (ctx : BitVec 6) (m : BitVec 7) (v : BitVec 64)
  | vrCreate (ctx : BitVec 6) (m : BitVec 7) (decl : BitVec 48)
  | vrDestroy (ctx : BitVec 6) (m : BitVec 7) (arg : BitVec 48)
  | vrAbandon (ctx : BitVec 6) (m : BitVec 7) (arg : BitVec 48)
  | kvPromote (part : BitVec 4) (block : BitVec 20)
  | kvFrameRelease (i : Nat)
  | kvHeaderWrite (part : BitVec 4) (m : BitVec 7) (word : BitVec 3) (v : BitVec 64)
  -- SYS space and the hosts
  | partitionDescriptorWrite (part : BitVec 4) (m : BitVec 7) (v : BitVec 64)
  | remoteMasterWrite (slot : BitVec 6) (m : BitVec 7) (v : BitVec 64)
  | breakpointWrite (ctx : BitVec 6) (i : BitVec 3) (m : BitVec 7) (v : BitVec 64)
  | faultQueueDescriptorWrite (host : BitVec 1) (m : BitVec 7) (word : BitVec 3) (v : BitVec 64)
  | faultQueueReadWrite (host : BitVec 1) (m : BitVec 7) (v : BitVec 64)
  | nodeIdWrite (m : BitVec 7) (v : BitVec 12)
  | powerLimitWrite (m : BitVec 7) (v : BitVec 12)
  | sysRegisterWrite (m : BitVec 7) (off : BitVec 32) (size : BitVec 2) (v : BitVec 64)
  | hostApertureAccess (f : BitVec 5) (off : Nat) (op : HostOp)
  | hostWindowAccess (f : BitVec 5) (at' : BarAddr) (op : HostOp)
  -- the Igsan link
  | linkRead (m : LinkMsg)
  | linkReadResponse (m : LinkMsg)
  | linkMaskedWrite (m : LinkMsg)
  | linkWriteAcknowledgement (m : LinkMsg)
  | linkAtomic (m : LinkMsg)
  | linkAtomicResponse (m : LinkMsg)
  | linkEnqueue (m : LinkMsg)
  | linkEnqueueResponse (m : LinkMsg)
  | linkBarrierArrival (m : LinkMsg)
  | linkArrivalAcknowledgement (m : LinkMsg)
  | linkNack (m : LinkMsg)
  | linkUnknownOp (m : LinkMsg)
  | linkPause (port : Nat) (vc : BitVec 2)
  | linkResume (port : Nat) (vc : BitVec 2)
  | linkPauseExpiry (port : Nat) (vc : BitVec 2)
  | remoteResponseTimeout (tag : BitVec 12)
  | linkPortDown (port : Nat)
  | linkPortTrained (port : Nat)
  -- firmware
  | fwVerify (slot : BitVec 1)
  | fwUpdate (slot : BitVec 1)
  -- the management mailbox
  | mbReadScore (host : BitVec 1) (unit : BitVec 16)
  | mbClearFence (host : BitVec 1) (unit : BitVec 16)
  | mbCopyFlashRecord (host : BitVec 1) (slot : Nat) (dpa : BitVec 64)
  | mbWriteFirmwareSlot (host : BitVec 1) (arg0 dpa len : BitVec 64)
  | mbDeviceReset (host : BitVec 1)
  | mbRaiseAntirollback (host : BitVec 1) (v : BitVec 64)
  | mbCapacitySave (host : BitVec 1) (base : BitVec 64)
  | mbCapacityRestore (host : BitVec 1) (base : BitVec 64)
  | mbUnknownCommand (host : BitVec 1) (cmd : BitVec 64)
  -- reset, bring-up, measurement
  | pcieConventionalReset (host : BitVec 1)
  | spdmGetVersion (host : BitVec 1)
  | spdmGetCapabilities (host : BitVec 1)
  | spdmNegotiateAlgorithms (host : BitVec 1)
  | spdmGetDigests (host : BitVec 1)
  | spdmGetCertificate (host : BitVec 1)
  | spdmChallenge (host : BitVec 1) (nonce : List Byte)
  | spdmGetMeasurements (host : BitVec 1) (block : Nat)
  | spdmUnsupportedRequest (host : BitVec 1) (code : Byte)
  -- write performance, the environment
  | writePerformed (t : PerfTarget)
  | softError (l : SoftLoc)
  | functionReady (bit : Nat)
  | hostPortTrained (host : BitVec 1) (up : Bool)
  | linkFlitError (port : Nat) (vc : BitVec 2)
  -- steps and the word without fields (their place in the list has no meaning)
  | vend
  | scoreHalving
  | flashRecordWrite
  | msixNotify
  | fwTrialStart
  | fwHeartbeat
  | fwHeartbeatTimeout
  | fwCommit
  | fwAbandon
  | capacitySaveComplete
  | bringUp
  | powerLoss
deriving DecidableEq, Repr

end Sys2Proof
end

