-- ==== Sys2Proof/Machine/State.lean ====
section
/-! DEFINITION. The state of the device: plain data, holding every piece of state the spec names (INVENTORY.md,
"State"), the reasons a step can stop, and the state after reset. -/

namespace Sys2Proof.Machine

/-! ### Reasons to stop -/

/-- Why a step stops. Every fault the spec describes is TAKEN (R375, R396: a next state), so only a use of
`exec` that no run makes ends here. -/
inductive Fault where
  /-- An instruction is executed while no agent of its kind is current: a control core or Anole core for scalar
  and engine-issue code, a running stream for vector words. `step` never executes so; safe. -/
  | noAgent
deriving DecidableEq, Repr

/-- Why an instruction is refused. -/
inductive Refusal where
  /-- An instruction without a meaning, by mnemonic. None is left; safe. -/
  | notModelled (mnemonic : String)
deriving DecidableEq, Repr

/-! ### Storage -/

/-- Bytes by offset in one canonical form (offsets strictly rising, no cell equal to `dflt`), what an unlisted
offset reads as, and the 8-byte words that hold an uncorrectable error (R357, R421). -/
structure Store where
  cells : List Host.Cell
  dflt : Byte
  bad : List Nat
deriving DecidableEq, Repr

/-- A storage that holds zero everywhere. -/
def Store.zero : Store := { cells := [], dflt := 0#8, bad := [] }

/-- A storage that holds ones everywhere (VIM, flash). -/
def Store.ones : Store := { cells := [], dflt := 0xFF#8, bad := [] }

/-- Pending count and status of one 512-byte chunk (R182). -/
structure Chunk where
  pend : Nat
  status : Byte
deriving DecidableEq, Repr

/-- One scratchpad grant of a launch copy: a core's USP, a rank's CLS or DSP (R40, R182). `limit` in bytes, `phys`
the physical core, cluster or C-die behind it, `chunks` the chunks with a nonzero count or status. -/
structure Pad where
  id : PadId
  limit : Nat
  phys : Nat
  mem : Store
  chunks : List (Nat × Chunk)
deriving DecidableEq, Repr

/-! ### Who acts -/

/-- The agent whose turn it is. -/
inductive Agent where
  | none
  | core (k : CoreRef)
  | anole (a : BitVec 4)
  | vec (k : CoreRef)
deriving DecidableEq, Repr

/-- One turn of the schedule: let `n` cycles pass, let an agent execute its next instruction, or perform a step
or event. -/
inductive Turn where
  | pass (n : Nat)
  | run (a : Agent)
  | event (i : Instr)
deriving DecidableEq, Repr

/-- A fault as it is raised: its code, unit (`src` of R24), faulting data address, and what its records hold. -/
structure Trap where
  code : Nat
  src : Nat
  addr : Word
  /-- Access kind of R340: 0 read, 1 write, 2 atomic, 3 fetch, 4 record. -/
  acc : Nat
  /-- Translation-event kind (Table 09-6), 0 when none. -/
  ev : Nat
  /-- DPA of the table page for event kinds 2 and 4. -/
  dpa : Nat
  /-- Trap code of TRAP. -/
  trapCode : BitVec 32
  /-- Suspect unit identifiers (Table 10-4), lowest first. -/
  units : List (BitVec 16)
  /-- For 0x10: the error lies in durable data, a fetch, a snapshot or a release (Table 10-3: kill). -/
  durable : Bool
  /-- It arose in a gang replica (R221). -/
  gang : Bool
  /-- The word of the stream that raised it (R63, R224). -/
  spc : Option Nat := none
deriving DecidableEq, Repr

/-! ### Registers -/

/-- x, p and pc of a control core or an Anole core (R22, R49). x0 and p0 are never stored to. -/
structure Regs where
  x : Vector Word 64
  p : Vector Bool 8
  pc : Word
deriving DecidableEq, Repr

/-- All registers zero. -/
def Regs.zero : Regs := { x := Vector.replicate 64 0#64, p := Vector.replicate 8 false, pc := 0#64 }

/-- The vector registers of Table 01-4. -/
structure VRegs where
  v : Vector (BitVec 2048) 32
  m : Vector (BitVec 256) 8
  a : Vector Word 16
  k : Vector (BitVec 32) 16
  c : Vector (BitVec 32) 4
deriving DecidableEq, Repr

/-- Launch-start values of the vector registers (R47). -/
def VRegs.start : VRegs :=
  { v := Vector.replicate 32 0#2048, m := (Vector.replicate 8 0#256).set 0 (BitVec.allOnes 256),
    a := Vector.replicate 16 0x7000000000000000#64, k := Vector.replicate 16 0#32, c := Vector.replicate 4 0#32 }

/-- The writable fields of `sr.tokerr` and `sr.policy` (R24). `flags` and `aen` in the order of Table 01-3. -/
structure Policy where
  trap : Bool
  sticky : Bool
  tok : BitVec 6
  flags : BitVec 7
  aen : BitVec 5
  dfen : Bool
deriving DecidableEq, Repr

/-- All clear. -/
def Policy.zero : Policy := { trap := false, sticky := false, tok := 0#6, flags := 0#7, aen := 0#5, dfen := false }

/-! ### Synchronisation -/

/-- A wait pushed on a token: by the control core, or by the command of that number (R133). -/
structure TokWait where
  cmd : Option Nat
  amount : Nat
deriving DecidableEq, Repr

/-- A token (R31): count, what remains of the count at the start of the cycle (R133), base B (signed bookkeeping, R135),
posts P, waits W, and the waits pushed and not yet satisfied, oldest first. -/
structure Token where
  count : Nat
  left : Nat
  base : Int
  posts : Nat
  waits : Nat
  queue : List TokWait
deriving DecidableEq, Repr

/-- A token at launch start. -/
def Token.zero : Token := { count := 0, left := 0, base := 0, posts := 0, waits := 0, queue := [] }

/-- A barrier (Table 01-6). -/
structure Barrier where
  exp : BitVec 16
  arr : BitVec 16
  gen : BitVec 16
  ext : BitVec 16
deriving DecidableEq, Repr

/-- An uninitialised barrier. -/
def Barrier.zero : Barrier := { exp := 0#16, arr := 0#16, gen := 0#16, ext := 0#16 }

/-- Where an arrival comes from, in the order of R34. -/
inductive ArrivalSrc where
  | own (seg : Nat)
  | calico (term : Nat)
  | other (rank : Nat) (seg : Option Nat)
  | engine (queue : Nat)
deriving DecidableEq, Repr

/-- An arrival made and not yet applied (R34, R142, R220). `after` numbers the stores that must be performed at device scope
before it (Table 08-3). -/
structure Arrival where
  bar : BitVec 7
  src : ArrivalSrc
  after : List Nat
deriving DecidableEq, Repr

/-- A norm register (R38). -/
structure Norm where
  value : BitVec 128
  overs : BitVec 16
  unders : BitVec 16
deriving DecidableEq, Repr

/-- A norm register at zero. -/
def Norm.zero : Norm := { value := 0#128, overs := 0#16, unders := 0#16 }

/-- The checksum lanes of one accumulator tile (R204): X[i,32] and X[32,j] for indices 0 to 32, the 33 row and 33
column magnitudes U in FP32, n_g; and its mode and valid bit as the cube-queue commands pushed so far leave them, in
push order (R200, R210). -/
structure Lane where
  integer : Bool
  valid : Bool
  rows : List (BitVec 32)
  cols : List (BitVec 32)
  urow : List (BitVec 32)
  ucol : List (BitVec 32)
  ng : Nat
deriving DecidableEq, Repr

/-- The lanes of a tile after ABANK.ALLOC: zero, floating, invalid (R200, R205). -/
def Lane.zero : Lane :=
  { integer := false, valid := false, rows := List.replicate 33 0#32, cols := List.replicate 33 0#32,
    urow := List.replicate 33 0#32, ucol := List.replicate 33 0#32, ng := 0 }

/-! ### Held stores -/

/-- The versioned slot a held record writes: region, slot, and the opening (the tag and the count of VOPENs of the
region) it belongs to (R344, R360). -/
structure RecordOf where
  region : Nat
  slot : Nat
  opening : Nat
deriving DecidableEq, Repr

/-- A line held in Muslin (R359): pointer of its first byte after redirection, byte mask, data, segment, record
(0: none) and the home its translation named. -/
structure HeldLine where
  ptr : Word
  mask : BitVec 64
  data : BitVec 512
  seg : Nat
  record : Nat
  slotOf : Option RecordOf
  node : Option (BitVec 12)
  dpa : Nat
deriving DecidableEq, Repr

/-- A closed segment (R361): its number, its fold, the number of its closing BARV, and the barrier generation of
the core it arrived at that the BARV counted in, once applied. -/
structure Seg where
  id : Nat
  fold : BitVec 64
  barv : Nat
  counted : Option (Nat × BitVec 7 × BitVec 16)
deriving DecidableEq, Repr

/-- A core's part of Muslin and of the signatures: held lines, closed segments oldest first, the open segment's
number and fold, BARVs and commit points since the checkpoint, the barrier generations its BWAITs returned on,
and the B-die words that are uncorrectable (R357). -/
structure Muslin where
  lines : List HeldLine
  closed : List Seg
  seg : Nat
  fold : BitVec 64
  barvs : Nat
  commits : Nat
  returned : List (BitVec 7 × BitVec 16)
  bad : List Word
deriving DecidableEq, Repr

/-- Nothing held. -/
def Muslin.zero : Muslin :=
  { lines := [], closed := [], seg := 0, fold := 0#64, barvs := 0, commits := 0, returned := [], bad := [] }

/-! ### Commands -/

/-- Where a byte of an access lies, after the checks of R124. -/
inductive Loc where
  | pad (p : PadId) (off : Nat)
  | acc (off : Nat)
  | vim (rank off : Nat)
  | virt (va : Nat) (node : Option (BitVec 12)) (dpa : Nat)
  | cwn (die off : Nat)
  | sys (off : Nat)
deriving DecidableEq, Repr

/-- A write a running command has yet to perform: the bytes of one element at a location, or a run of bytes that
are single-copy atomic one by one (R176, R305). `half` names the only nibble it writes (0 low, 1 high), a delta whose
neighbour belongs to another block (R91, R181). -/
structure PendWrite where
  loc : Loc
  data : List Byte
  half : Option Nat
  bytewise : Bool
  slotOf : Option RecordOf
  /-- its place in the order that its command keeps among its writes; 0: none (R309) -/
  seq : Nat := 0
  /-- how many bytes of its access lie below it and above it without a gap (R421) -/
  below : Nat := 0
  above : Nat := 0
deriving DecidableEq, Repr

/-- An element that a command reads (R176): by the stream of the engine and its place, or a row of KV blocks. -/
inductive ReadKey where
  | place (stream : Nat) (x : Loc)
  | row (i : Nat)
deriving DecidableEq, Repr

/-- A block that a KVG has translated (R354): its place in the list, its id, and its entry then. -/
structure KvSeen where
  pos : Nat
  id : Nat
  gen : Nat
  fill : Nat
  state : Nat
  frame : Nat
deriving DecidableEq, Repr

/-- State of a command in its queue: not started; started, with sources still to be read (R222); its work done and
its writes under way. -/
inductive CmdState where
  | queued
  | reading
  | running
deriving DecidableEq, Repr

/-- A command of an engine queue or gang lane (R170 to R174): what its push captured and what its run has yet to
do. -/
structure Cmd where
  id : Nat
  op : EOp
  xa : Word
  xb : Word
  xc : Word
  flags : BitVec 4
  /-- tokens it waits on, and the waits not yet satisfied -/
  waitsOn : List (BitVec 6)
  waits : List (BitVec 6)
  post : BitVec 6
  serial : Bool
  chained : Bool
  /-- in a gang lane, with the number of the gang command -/
  lane : Bool
  gang : Option Nat
  gangBar : BitVec 7
  /-- captured TID entries, gather descriptor and k registers (R172) -/
  tids : List (BitVec 512)
  desc : BitVec 256
  ks : Vector (BitVec 32) 16
  /-- slots fixed at push (R215, R217) -/
  slots : List RecordOf
  /-- segment its durable writes belong to (R361) and its held record number (R360) -/
  seg : Nat
  record : Nat
  pc : Word
  state : CmdState
  /-- chunks reserved and not yet released (R182) -/
  chunks : List (PadId × Nat)
  /-- under CHAIN, source chunks whose bit it has seen set (R222) -/
  seen : List (PadId × Nat)
  writes : List PendWrite
  /-- bytes it has changed, as they were, for loads of the control core that pushed it (R125) -/
  old : List (Loc × Byte) := []
  /-- bytes that this control core has stored to since the push, as they were (R125) -/
  early : List (Loc × Byte) := []
  /-- stores of the pushing control core, or read by it, that were short of device scope at the push (Table 08-3) -/
  after : List Nat := []
  /-- GATH, SCAT, BIN: the commands of the copy not completed at its push, by core and number (R190) -/
  prior : List (Nat × Nat) := []
  /-- its number among the pushes of its core since the checkpoint (R15) -/
  number : Nat := 0
  /-- pages that a stream of it has touched: TLB and first address (R336) -/
  pages : List (Nat × Nat) := []
  /-- the elements it has read so far (R176) -/
  got : List (ReadKey × List Byte) := []
  /-- in this step it reads only some of its elements, freely chosen; whether one was left for later (R176) -/
  partly : Bool := false
  short : Bool := false
  /-- SCAT and BIN: entries of the index list already processed (R191) -/
  entries : Nat := 0
  /-- UPD: its norm register when it started (R217) -/
  normAt : Norm := Norm.zero
  /-- flags it sets at completion, in the order of `sr.policy` -/
  raised : BitVec 7
  /-- a fault its run has met and not yet delivered (R175) -/
  err : Option Trap
  /-- the mode ADRAIN reads its tile in: integer (R200) -/
  tileInt : Bool
  /-- slots that the state reads of a UPD use: region, slot (R217) -/
  readSlots : List (Nat × Nat)
  /-- contributions to norm register `norm`, in order: absent for a NaN or infinity, 0 for a loss (R104) -/
  norm : Nat
  normAdds : List (Option Nat)
  /-- KV blocks that it has translated, whose frames are not reused before it completes (R353, R354) -/
  blocks : List KvSeen := []
  /-- it was started with a translation that a shoot-down has since dropped (R338) -/
  stale : List Nat
deriving DecidableEq, Repr

/-- One gang command whose replicas have not all completed (R220). -/
structure GangWait where
  id : Nat
  bar : BitVec 7
  partners : List Nat
  left : List Nat
deriving DecidableEq, Repr

/-- A write of a vector word that has not landed: its cycle and what it writes (R225). -/
inductive LandKind where
  | v (r : BitVec 5) (mask : BitVec 256) (data : BitVec 2048)
  | m (r : BitVec 3) (mask : BitVec 256) (data : BitVec 256)
  | a (r : BitVec 4) (data : Word)
  | k (r : BitVec 4) (data : BitVec 32)
  | c (r : BitVec 2) (data : BitVec 32)
  | flags (f : BitVec 7) (spc : BitVec 14)
deriving DecidableEq, Repr

/-- How class S covers a result (Table 10-1): by a residue of all of it, of its significand product only, or not at all. -/
inductive Residue where
  | whole | product | none
deriving DecidableEq, Repr

/-- A pending landing: cycle and effect, the cover of the unit that computed it, and its word. -/
structure Landing where
  cycle : Nat
  what : LandKind
  unit : Residue := .none
  /-- the word it is of -/
  spc : BitVec 14 := 0#14
deriving DecidableEq, Repr

/-- The running stream of a core (R218, R224 to R230): its VRUN, the next word, the stream cycle at which it
issues, the pending landings in issue order, the idle cycles of an elastic word in progress, and whether VEND has
issued. -/
structure Stream where
  cmd : Nat
  spc : BitVec 14
  cycle : Nat
  landings : List Landing
  elastic : Option (Nat × Nat)
  ended : Bool
  err : Option Trap
deriving DecidableEq, Repr

/-! ### Cores and launches -/

/-- Phase of a core (R162, R288). -/
inductive Phase where
  | prologue | kernel | epilogue
deriving DecidableEq, Repr

/-- Why a core does not fetch: nothing, a token wait (with the pc after the instruction and whether an underflow
trap follows it), WFE (issue time, next pc), a checkpoint (at ITER, with its continuation taken at the commit). -/
inductive Block where
  | none
  | token (e : BitVec 6) (next : Word) (trapAfter : Bool)
  | wfe (since : Nat) (next : Word)
  | ckpt
deriving DecidableEq, Repr

/-- How far the commit point in progress has come (R113, R368). `segs` names the other cores' segments it released:
core, number of the closing BARV, signature. -/
inductive CommitState where
  | idle
  /-- class D, third execution: waiting for the other copies, with the operation descriptor -/
  | waiting (op : Nat) (w1 w2 w3 : Word)
  /-- the region is closed, with the signature of the commit point; the effect is still to come -/
  | closed (sig : BitVec 64) (segs : List (Nat × Nat × BitVec 64))
  /-- the region is closing: its lines are released one by one; whether a plain line has been refused (R362) -/
  | releasing (sig : BitVec 64) (segs : List (Nat × Nat × BitVec 64)) (refused : Bool)
  /-- a request has been sent to another node under that tag -/
  | sent (sig : BitVec 64) (segs : List (Nat × Nat × BitVec 64)) (tag : BitVec 12)
  /-- the other node's answer, or the status of a failure -/
  | answered (sig : BitVec 64) (segs : List (Nat × Nat × BitVec 64)) (stat : Byte) (lo hi : Word)
deriving DecidableEq, Repr

/-- A cached translation (R335): context, first page, size, and the leaf. -/
structure TlbEntry where
  ctx : BitVec 6
  va : Nat
  size : Nat
  node : Option (BitVec 12)
  dpa : Nat
  w : Bool
  x : Bool
  rc : Bool
deriving DecidableEq, Repr

/-- A cached table entry (R335): the addresses it covers, and the table page of level `lvl` that it names. -/
structure TlbTable where
  ctx : BitVec 6
  va : Nat
  size : Nat
  lvl : Nat
  page : Nat
deriving DecidableEq, Repr

/-- A TLB with the shoot-down number it last took per context (R339). -/
structure Tlb where
  entries : List TlbEntry
  tables : List TlbTable
  num : List (BitVec 6 × Nat)
deriving DecidableEq, Repr

/-- A prefetch walk in progress (R336, R339): its TLB, by the agent it belongs to and its number there, the page it walks, the number
that it recorded, and what it has read. -/
structure Walk where
  owner : Nat
  tlb : Nat
  ctx : BitVec 6
  part : BitVec 4
  va : Nat
  num : Nat
  leaf : Option TlbEntry
  tables : List TlbTable
deriving DecidableEq, Repr

/-- An empty TLB. -/
def Tlb.zero : Tlb := { entries := [], tables := [], num := [] }

/-- A store accepted at a core's port and not yet performed at its home (R308), by its number. -/
structure PortStore where
  id : Nat
  pad : PadId
  off : Nat
  data : List Byte
  /-- its own core has read it: the number of the copy's next store then -/
  read : Option Nat
deriving DecidableEq, Repr

/-- A store performed at its home and visible up to a scope relative to its writer (R306, R308), by its number. `cmd` is the
command of the writer that made it, absent for its control core; `chain`: its place in the order its command keeps, 0 for none (R309). -/
structure HomeStore where
  id : Nat
  cmd : Option Nat := none
  chain : Nat := 0
  writer : Nat
  pad : PadId
  off : Nat
  data : List Byte
  scope : Scope
  /-- cores of which an agent has read it, each with the number of the copy's next store then (R311) -/
  readBy : List (Nat × Nat)
deriving DecidableEq, Repr

/-- A 64-byte line of another node's memory that a load in progress has asked for: absent until answered, or the
status of a failure (R400). `owner` is 0 for the control core, one more than its number for a command. -/
structure RemoteLine where
  owner : Nat
  node : BitVec 12
  dpa : Nat
  tag : BitVec 12
  data : Option (List Byte)
  stat : Byte
deriving DecidableEq, Repr

/-- Breakpoint bookkeeping of one core (R394): executions of an address since the checkpoint the group resumes
from, and executions for which the breakpoint stays silent after a resolve. -/
structure BreakCount where
  va : Word
  hits : Nat
  quiet : Nat
deriving DecidableEq, Repr

/-- The tokens, terms, barriers and arrivals of a core. -/
structure Sync where
  tokens : Vector Token 64
  calico : Vector Word 16
  /-- terms that fire in this cycle and have not yet fired (R33) -/
  due : List Nat
  /-- Calico posts of this cycle, which end it (R133) -/
  posts : List (BitVec 6)
  barriers : Vector Barrier 128
  arrivals : List Arrival
  /-- completions of token barriers noted and not yet taken (R349): barrier and generation -/
  noted : List (BitVec 7 × BitVec 16)
deriving DecidableEq, Repr

/-- Launch-start synchronisation state. -/
def Sync.zero : Sync :=
  { tokens := Vector.replicate 64 Token.zero, calico := Vector.replicate 16 0#64, due := [], posts := [],
    barriers := Vector.replicate 128 Barrier.zero, arrivals := [], noted := [] }

/-- The tensor state of a core: TIDs, norms, bank allocation map, accumulator bytes, tile lanes. -/
structure Tensors where
  tids : Vector (BitVec 512) 256
  norms : Vector Norm 64
  banks : Vector Bool 256
  acc : Store
  lanes : Vector Lane 128
deriving DecidableEq, Repr

/-- The TID entry of R37: zero with a Null base. -/
def tidNull : BitVec 512 := 0xF000000000000000#512

/-- Launch-start tensor state. -/
def Tensors.zero : Tensors :=
  { tids := Vector.replicate 256 tidNull, norms := Vector.replicate 64 Norm.zero,
    banks := Vector.replicate 256 false, acc := Store.zero, lanes := Vector.replicate 128 Lane.zero }

/-- The engines of a core: commands of every queue and lane in push order, the stream, and pending gang ends. -/
structure Engines where
  cmds : List Cmd
  stream : Option Stream
  gangs : List GangWait
  nextCmd : Nat
deriving DecidableEq, Repr

/-- Idle engines. -/
def Engines.zero : Engines := { cmds := [], stream := none, gangs := [], nextCmd := 0 }

/-- Loop position of a core (R25, R162), and its pushes since the last checkpoint (R15). -/
structure Loop where
  phase : Phase
  iter : Nat
  lap : Nat
  ckpt : Nat
  ckptPending : Bool
  pushes : Nat
deriving DecidableEq, Repr

/-- One core of a launch copy: logical coordinate and rank, physical core, and all its state. -/
structure Core where
  rank : Nat
  row : Nat
  col : Nat
  phys : Nat
  /-- quadrants of its cube that were fenced or held when it was placed (R373, R380) -/
  subs : List Nat
  regs : Regs
  vregs : VRegs
  policy : Policy
  loop : Loop
  sync : Sync
  tens : Tensors
  eng : Engines
  vim : Store
  muslin : Muslin
  port : List PortStore
  block : Block
  commit : CommitState
  exited : Bool
  /-- its token wait is satisfied, and an underflow trap follows (R137) -/
  under : Bool
  /-- flags that units have raised in a cycle (R29) -/
  raisedAt : Nat × BitVec 7
  /-- its BWAIT.X in progress has released its region: the barrier, and the outside arrivals it has applied so far (R143) -/
  applied : Option (BitVec 7 × Nat) := none
  /-- a fault of this core, of its engines included, waits for the end of the cycle (R293): it is stopped -/
  faulted : Bool := false
  /-- cycle of the last quiescent point, or none while it waits at a checkpoint (R302) -/
  watch : Nat
  remote : List RemoteLine
  breaks : List BreakCount
  /-- parity error in control state, by `src` (R357) -/
  parity : List Nat
  /-- an error that strikes the result of its next instruction: the bits it flips, and its size before any wrap modulo 3 (R358) -/
  wrong : Option (Word × Nat) := none
deriving DecidableEq, Repr

/-- What the snapshot holds of one core (R46). -/
structure CoreSnap where
  rank : Nat
  regs : Regs
  vregs : VRegs
  policy : Policy
  loop : Loop
  counts : List Nat
  calico : Vector Word 16
  barriers : Vector Barrier 128
  tids : Vector (BitVec 512) 256
  norms : Vector Norm 64
  banks : Vector Bool 256
deriving DecidableEq, Repr

/-- A snapshot: its cores, the carried ranges' bytes once per pad, and the binding at the checkpoint (R27, R46). -/
structure Snapshot where
  cores : List CoreSnap
  ranges : List (PadId × Nat × List Byte)
  binding : Option (BitVec 32)
  bad : Bool
deriving DecidableEq, Repr

/-- A commit log entry (Table 10-2), with the binding its commit point took (R27) and, beyond the table's first
word, the written list words of a KV command (R197) or the barrier of a token barrier's completion (R416). -/
structure LogEntry where
  op : Nat
  core : Nat
  seq : Nat
  res : Word
  resh : Word
  sig : BitVec 64
  binding : Option (BitVec 32)
  words : List (BitVec 32)
deriving DecidableEq, Repr

/-- One copy of a launch (R355): its cores in rank order, its scratchpads, the stores performed at their home and
not yet at device scope in location order (R305, R308), the binding it holds (R27, R343; none: unbound), and its
position in the commit log: it replays while that is below the log's length (R43, R367). -/
structure Copy where
  role : Role
  cores : List Core
  pads : List Pad
  home : List HomeStore
  /-- number of the next store (R308) -/
  stores : Nat
  binding : Option (BitVec 32)
  replay : Nat
deriving DecidableEq, Repr

/-- The loop record (Table 02-14). -/
structure LoopRec where
  pro : Word
  ker : Word
  epi : Word
  trip : Nat
  ring : Nat
  ckint : Nat
  dbytes : Nat
  cmask : BitVec 128
  usp : Nat
  cls : Nat
  dsp : Nat
  vim : Nat
  banks : Nat
  ranges : List (Word × Nat)
deriving DecidableEq, Repr

/-- The launch packet (Table 07-3). -/
structure Packet where
  lp : Word
  w1 : Word
  grants : Word
  w3 : Word
  args : List Word
deriving DecidableEq, Repr

/-- Launch and sequencer states of Table 07-6 from Placing on. -/
inductive LState where
  | running
  | checkpointing
  | aborting
  | parked
  | resuming
  | done
deriving DecidableEq, Repr

/-- What a parked launch waits for: an event resolved by the host, its context made active, or a placement only. -/
inductive ParkFor where
  | place
  | resolve (seq : Nat)
  | context
deriving DecidableEq, Repr

/-- The cause and the record fields of a launch's end (Table 07-7). -/
structure Ending where
  status : Nat
  src : Nat
  code : Nat
  row : Nat
  col : Nat
  gang : Bool
  trap : BitVec 32
deriving DecidableEq, Repr

/-- What follows an abort: resume at once, wait parked, or end. -/
inductive After where
  | resume
  | park (w : ParkFor)
  | stop (e : Ending)
deriving DecidableEq, Repr

/-- A cause of abort that waits for the end of its cycle, for a commit point in progress, or for the firmware (R291, R293, R404): a
fault of a core, another cause with what follows it, or a pre-emption. -/
inductive Deferred where
  | fault (t : Trap) (role : Role) (rank : Nat)
  | cause (code src : Nat) (after : After)
  | preempt
deriving DecidableEq, Repr

/-- A class D or class S decision in progress (R369, R371). -/
structure Third where
  rank : Nat
  /-- the decision is at a checkpoint: the signatures are the group's (R365) -/
  ckpt : Bool
  sp : BitVec 64
  ss : BitVec 64
  aborts : Nat
  since : Nat
  /-- what its third execution waits for before it starts again (R374) -/
  wait : ParkFor := .place
deriving DecidableEq, Repr

/-- A launch that has been placed and not completed its completion sequence. -/
structure Launch where
  lid : Nat
  queue : BitVec 12
  slot : Nat
  gen : BitVec 16
  ctx : BitVec 6
  part : BitVec 4
  packet : Packet
  lrec : LoopRec
  images : List (BitVec 512)
  state : LState
  copies : List Copy
  snap : Option Snapshot
  /-- binding at launch start, for a resume before the first checkpoint -/
  startBinding : Option (BitVec 32)
  /-- versions for which this launch holds a lagging reader's count (R348) -/
  lag : List (BitVec 32)
  log : List LogEntry
  /-- cause for `sr.fault` at resume: code and src -/
  cause : Option (Nat × Nat)
  /-- the word that the last fault of a stream reported (R224) -/
  spc : Option Nat := none
  fault : Word
  park : ParkFor
  preempt : Bool
  /-- the pre-emption asked for does not wait for the progress guard (R285, R381, R407) -/
  forced : Bool := false
  ending : Option Ending
  third : Option Third
  /-- a checksum redo is running: a second detection kills (R371) -/
  redo : Bool
  /-- lap number at the last committed checkpoint (R290) -/
  laps : Nat
  /-- laps completed since then, by `sr.iter`, and whether a checkpoint is due there: one decision for the group -/
  dues : List (Nat × Bool)
  aborts : Nat
  unit : Nat
  ovs : Bool
  noprog : Bool
  noprogress : Nat
  /-- the progress guard: a checkpoint has committed since the resume of cycle `guardFrom`, or its 2 ms are over (R295) -/
  guarded : Bool
  expired : Bool
  guardFrom : Nat
  start : Nat
  /-- consecutive 0x14 and 0x1C aborts without a committed checkpoint (R375) -/
  watchdogs : Nat
  torns : Nat
  /-- barriers of cores that a BARX arrival reached and no BWAIT.X has applied: issuing launch, core, barrier (R144) -/
  barx : List (Nat × Nat × BitVec 7)
  /-- B-die (C-die number) that holds the snapshot and the log (R366, R381) -/
  snapDie : Nat
  /-- causes of abort that have not yet taken effect, in the order in which they arose (R291, R293) -/
  deferred : List Deferred
deriving DecidableEq, Repr

/-! ### The device -/

/-- A packet that has left its ring: validated and waiting for placement (state Placing), R283, R287. -/
structure Placing where
  queue : BitVec 12
  slot : Nat
  packet : Packet
  lrec : LoopRec
  images : List (BitVec 512)
deriving DecidableEq, Repr

/-- Firmware-side state of one queue: next slot to dispatch, slots done and not yet passed by QD.read, deficit
(R296), and the cycle since which it has been idle (R274). -/
structure QueueAux where
  q : BitVec 12
  next : Nat
  done : List Nat
  deficit : Int
  idle : Nat
  /-- a Not Present event of its head's validation waits on this sequence number (R283) -/
  waitSeq : Option Nat
  /-- its head, when it has passed the steps before the one that waits (R283) -/
  head : Option Packet := none
  /-- parked: where its ring lay before it moved to the capacity tier (R274) -/
  ring : Option Word := none
deriving DecidableEq, Repr

/-- A shoot-down not yet complete (R338). -/
structure Shootdown where
  ctx : BitVec 6
  q : Nat
  all : Bool
  page : Nat
  pages : Nat
  waiting : List CoreRef
deriving DecidableEq, Repr

/-- One event record delayed until its fault queue has room (R395). -/
structure DelayedEvent where
  host : BitVec 1
  words : List Word
deriving DecidableEq, Repr

/-- Suspicion state of a unit (R377 to R380). -/
structure UnitState where
  id : BitVec 16
  score : Nat
  fenced : Bool
  held : Bool
  retired : Bool
  replaced : Bool
deriving DecidableEq, Repr

/-- A flash record (R382). -/
structure FlashRec where
  seq : Nat
  powered : Nat
  units : List UnitState
  hist : List (Nat × Nat)
  ecc : List (Nat × Nat)
deriving DecidableEq, Repr

/-- Reliability state of the management controller. -/
structure Reliab where
  units : List UnitState
  ring : List (Option FlashRec)
  seq : Nat
  /-- powered time since the last halving and since the last record, in cc -/
  powered : Nat
  sinceRec : Nat
  hist : List (Nat × Nat)
  ecc : List (Nat × Nat)
  spares : List (BitVec 16)
deriving DecidableEq, Repr

/-- Progress of a firmware update (R404, R418). -/
inductive FwPhase where
  | idle
  /-- dispatch stops at a packet boundary; slot of the trial -/
  | stopping (slot : BitVec 1)
  /-- trial started at that cycle, with the heartbeat count then, and whether it has changed since -/
  | trial (slot : BitVec 1) (at' : Nat) (hb : Word) (beaten : Bool)
  /-- rolled back: the previous image runs again and has not yet sent its first heartbeat -/
  | restarting
deriving DecidableEq, Repr

/-- Firmware and management state. -/
structure Firm where
  phase : FwPhase
  prev : BitVec 1
  hoSeq : Nat
  logSeq : Nat
  flash : Store
  keys : List (List Byte × Bool)
  minVer : Nat
  certs : List Byte
  /-- a capacity-tier save in progress (R407): its base and the host that asked, and whether HBM has been copied -/
  save : Option (Nat × BitVec 1)
  saveCopied : Bool
  saveSeq : Nat
  boot : Bool
deriving DecidableEq, Repr

/-- A request sent to another node and not answered (R400). -/
structure LinkReq where
  tag : BitVec 12
  op : BitVec 6
  node : BitVec 12
  since : Nat
  /-- the core, Anole core, or released line (by home address) that waits -/
  who : Agent
  lid : Nat
  rank : Nat
  addr : Word
  /-- for a released line of a record: context and slot (R346) -/
  slotOf : Option (BitVec 6 × RecordOf)
deriving DecidableEq, Repr

/-- The link's state (R397 to R400). -/
structure Link where
  /-- messages sent, each with its port (R398), and those that wait for their channel there (R400) -/
  out : List (Nat × LinkMsg)
  held : List (Nat × LinkMsg)
  reqs : List LinkReq
  nextTag : BitVec 12
  pauses : List (Nat × BitVec 2 × Nat)
  /-- `ST.node` has been written since device reset (R397) -/
  nodeSet : Bool
deriving DecidableEq, Repr

/-- A released write on its way to a host (R323): launch, DPA, byte mask and data of a line. -/
structure HostWrite where
  lid : Nat
  dpa : Nat
  mask : BitVec 64
  data : BitVec 512
  /-- an HFLUSH that covers it, or the completion record of its launch, waits for it -/
  asked : Bool := false
deriving DecidableEq, Repr

/-- An Anole core (R396). -/
structure Anole where
  regs : Regs
  halted : Bool
  block : Block
  commit : CommitState
  remote : List RemoteLine
deriving DecidableEq, Repr

/-- An Anole core at reset. -/
def Anole.zero : Anole :=
  { regs := Regs.zero, halted := false, block := .none, commit := .idle, remote := [] }

/-- What the device has sent to its hosts and has been asked by them. -/
structure HostSide where
  writes : List HostWrite
  /-- MSI-X messages sent: function, vector (R392, R395) -/
  msix : List (BitVec 5 × BitVec 11)
  /-- notify messages waiting for their record to be performed: queue -/
  notify : List (BitVec 12)
  /-- answers to host reads: function, data, data-poisoned bit (R386, R422) -/
  reads : List (BitVec 5 × List Byte × Bool)
  /-- SPDM responses on a PF's DOE mailbox (R403) -/
  doe : List (BitVec 1 × List Byte)
  delayed : List DelayedEvent
deriving DecidableEq, Repr

/-- KV work outstanding: promotions requested, frames waiting for release (R353). -/
structure KvSide where
  promote : List (BitVec 4 × Nat)
  release : List (BitVec 4 × Nat × Bool)
deriving DecidableEq, Repr

/-- A write to HBM or the capacity tier that is performed at its home and not yet at device scope (R306, R308): the bytes
before it, who wrote it, the agents that see it, those of them whose later writes must not be seen without it (R311), and its
cycle. An agent is a core by its physical number, or one of `anoleAgent`, `hostAgent`, `linkAgent`. -/
structure LagWrite where
  dpa : Nat
  old : List Byte
  writer : Nat
  seen : List Nat
  bound : List Nat
  since : Nat
deriving DecidableEq, Repr

/-- Code overwritten in device memory, by 8-byte word (R158): the old word, the agent that wrote it when it is known, the agents that a
fence of it has covered since, and those of them that have discarded what they had fetched. Agents are those of `LagWrite`. -/
structure OldCode where
  word : Nat
  old : Word
  by' : Option Nat
  /-- every agent of the device, at device scope and beyond -/
  all : Bool
  covered : List Nat
  synced : List Nat
deriving DecidableEq, Repr

/-- The device. -/
structure State where
  /-- cycles since device reset (`sr.clock`, R26) -/
  cc : Nat
  cur : Agent
  sched : List Turn
  freeCtr : Nat
  dram : Store
  cwnN : Store
  cwnS : Store
  /-- SYS space: 8-byte words that differ from their reset value, by offset (R387) -/
  sys : List (Nat × Word)
  launches : List Launch
  placing : List Placing
  queues : List QueueAux
  nextLid : Nat
  anoles : Vector Anole 16
  /-- the TLBs of each physical core, of which 0 is the control core's and 1 to 9 the streams', and of each Anole core (R335), by
  agent; none listed: empty -/
  tlbs : List (Nat × List Tlb)
  walks : List Walk
  shoots : List Shootdown
  evSeq : Nat
  rel : Reliab
  firm : Firm
  link : Link
  host : HostSide
  kv : KvSide
  /-- openings of slots made so far, and the last opening of each context, region and slot (R344) -/
  openings : Nat
  opens : List (BitVec 6 × Nat × Nat × Nat)
  oldCode : List OldCode
  lags : List LagWrite
deriving DecidableEq, Repr

/-- Nothing recorded. -/
def Reliab.zero : Reliab :=
  { units := [], ring := List.replicate 64 none, seq := 0, powered := 0, sinceRec := 0, hist := [], ecc := [],
    spares := [] }

/-- Erased flash, no key, no update (log entry 4). -/
def Firm.zero : Firm :=
  { phase := .idle, prev := 0#1, hoSeq := 0, logSeq := 0, flash := Store.ones, keys := [], minVer := 0, certs := [],
    save := none, saveCopied := false, saveSeq := 0, boot := false }

/-- The link at rest. -/
def Link.zero : Link := { out := [], held := [], reqs := [], nextTag := 0#12, pauses := [], nodeSet := false }

/-- No traffic to the hosts. -/
def HostSide.zero : HostSide := { writes := [], msix := [], notify := [], reads := [], doe := [], delayed := [] }

/-- The device right after power-on: no launch (R47), SYS words at their reset values (R389, R405, R406; log
entry 3), memories as R405 and log entry 2 give them, and nothing under way. -/
def State.reset : State :=
  { cc := 0, cur := .none, sched := [], freeCtr := 0, dram := Store.zero, cwnN := Store.zero, cwnS := Store.zero,
    sys := [], launches := [], placing := [], queues := [], nextLid := 0,
    anoles := Vector.replicate 16 Anole.zero, tlbs := [], walks := [], shoots := [], evSeq := 0, rel := Reliab.zero,
    firm := Firm.zero, link := Link.zero, host := HostSide.zero, kv := { promote := [], release := [] },
    openings := 0, opens := [], oldCode := [], lags := [] }

end Sys2Proof.Machine
end

