-- ==== Sys2Proof/Machine/Mem.lean ====
section
/-! DEFINITION. Bytes in canonical storage: reading, writing, little-endian numbers (R6), and the 8-byte words
that error correction works on (R357, R421). -/

namespace Sys2Proof.Machine

/-! ### Cells -/

/-- What offset `a` reads as. -/
def cellGet (d : Byte) (a : Nat) : List Host.Cell → Byte
  | [] => d
  | (b, v) :: t => if b = a then v else cellGet d a t

/-- Write one byte, keeping the canonical form. -/
def cellSet (d : Byte) (a : Nat) (v : Byte) : List Host.Cell → List Host.Cell
  | [] => if v = d then [] else [(a, v)]
  | (b, w) :: t =>
      if a < b then (if v = d then (b, w) :: t else (a, v) :: (b, w) :: t)
      else if a = b then (if v = d then t else (a, v) :: t)
      else (b, w) :: cellSet d a v t

/-- Every offset lies above `lo`, offsets rise strictly, and no cell equals `d`. -/
def cellsAbove (d : Byte) : Nat → List Host.Cell → Bool
  | _, [] => true
  | lo, (b, v) :: t => decide (lo ≤ b) && v != d && cellsAbove d (b + 1) t

/-- The canonical form of a storage. -/
def Store.wf (m : Store) : Bool := cellsAbove m.dflt 0 m.cells

/-- One byte of a storage. -/
def Store.get (m : Store) (a : Nat) : Byte := cellGet m.dflt a m.cells

/-- Whether the word that holds offset `a` is uncorrectable. -/
def Store.badAt (m : Store) (a : Nat) : Bool := m.bad.contains (a / 8)

/-- Write one byte. -/
def Store.set (m : Store) (a : Nat) (v : Byte) : Store := { m with cells := cellSet m.dflt a v m.cells }

/-- `n` bytes from offset `a` up. -/
def Store.bytes (m : Store) (a n : Nat) : List Byte := (List.range n).map fun i => m.get (a + i)

/-- The bytes one by one, from offset `a` up. -/
def Store.fill (m : Store) (a : Nat) : List Byte → Store
  | [] => m
  | v :: t => (m.set a v).fill (a + 1) t

/-- Whether any of `n` bytes from `a` lies in an uncorrectable word. -/
def Store.badIn (m : Store) (a n : Nat) : Bool := m.bad.any fun w => a < 8 * w + 8 && 8 * w < a + n

/-- Whether a write of `n` bytes at `a` covers an uncorrectable word only in part (R421). -/
def Store.partBad (m : Store) (a n : Nat) : Bool :=
  m.bad.any fun w => a < 8 * w + 8 && 8 * w < a + n && !(a ≤ 8 * w && 8 * w + 8 ≤ a + n)

/-- Write bytes; a word they cover whole becomes correctable (R421). -/
def Store.put (m : Store) (a : Nat) (vs : List Byte) : Store :=
  let m' := m.fill a vs
  { m' with bad := m.bad.filter fun w => !(a ≤ 8 * w && 8 * w + 8 ≤ a + vs.length) }

/-- An upset makes word `w` uncorrectable (R357). -/
def Store.upset (m : Store) (w : Nat) : Store := { m with bad := if m.bad.contains w then m.bad else m.bad ++ [w] }

/-- Zero every byte from `a` up to `a + n` (grants at launch start, R288). -/
def Store.clear (m : Store) (a n : Nat) : Store :=
  { m with cells := m.cells.filter fun c => !(a ≤ c.1 && c.1 < a + n), bad := m.bad.filter fun w => !(a ≤ 8 * w && 8 * w < a + n) }

/-- Move the cells of one memory range over those of another. -/
def Store.copyRange (m : Store) (src dst n : Nat) : Store :=
  let c := m.clear dst n
  let moved := (m.cells.filter fun x => src ≤ x.1 && x.1 < src + n).map fun x => (x.1 - src + dst, x.2)
  let bad := (m.bad.filter fun w => src ≤ 8 * w && 8 * w < src + n).map fun w => (8 * w - src + dst) / 8
  { c with cells := (c.cells.filter fun x => x.1 < dst) ++ moved ++ c.cells.filter (fun x => dst ≤ x.1), bad := c.bad ++ bad }

/-! ### Little-endian numbers (R6) -/

/-- The number that bytes spell, lowest byte first. -/
def leNat : List Byte → Nat
  | [] => 0
  | b :: t => b.toNat + 256 * leNat t

/-- The `n` low bytes of a number, lowest first. -/
def natLe : Nat → Nat → List Byte
  | 0, _ => []
  | n + 1, v => BitVec.ofNat 8 v :: natLe n (v / 256)

/-- The number in `n` bytes at `a`. -/
def Store.num (m : Store) (a n : Nat) : Nat := leNat (m.bytes a n)

/-- The 64-bit word at `a`. -/
def Store.word (m : Store) (a : Nat) : Word := BitVec.ofNat 64 (m.num a 8)

/-- Write a number of `n` bytes at `a`. -/
def Store.putNum (m : Store) (a n v : Nat) : Store := m.put a (natLe n v)

/-- The value a `w`-bit field holds as two's complement. -/
def toSigned (w v : Nat) : Int := if v < 2 ^ (w - 1) then (v : Int) else (v : Int) - (2 ^ w : Nat)

/-- Bytes of a register row (byte 0 in the low bits). -/
def rowBytes {w : Nat} (v : BitVec w) (n : Nat) : List Byte := natLe n v.toNat

/-- A register row from bytes. -/
def rowOf (w : Nat) (bs : List Byte) : BitVec w := BitVec.ofNat w (leNat bs)

/-- Round `n` up to a multiple of `m`. -/
def roundUp (n m : Nat) : Nat := (n + m - 1) / m * m

/-! ### Words by offset -/

/-- The word at `a`, where unlisted offsets read as `d a`. -/
def wordGet (d : Nat → Word) (a : Nat) : List (Nat × Word) → Word
  | [] => d a
  | (b, v) :: t => if b = a then v else wordGet d a t

/-- Write one word, keeping the list sorted and free of default values. -/
def wordSet (d : Nat → Word) (a : Nat) (v : Word) : List (Nat × Word) → List (Nat × Word)
  | [] => if v = d a then [] else [(a, v)]
  | (b, w) :: t =>
      if a < b then (if v = d a then (b, w) :: t else (a, v) :: (b, w) :: t)
      else if a = b then (if v = d a then t else (a, v) :: t)
      else (b, w) :: wordSet d a v t

/-- The canonical form of a word list. -/
def wordsAbove (d : Nat → Word) : Nat → List (Nat × Word) → Bool
  | _, [] => true
  | lo, (b, v) :: t => decide (lo ≤ b) && v != d b && wordsAbove d (b + 1) t

end Sys2Proof.Machine
end

