-- ==== Sys2Proof/Machine/Sys.lean ====
section
/-! DEFINITION. SYS space (R387): the words of Table 11-2 by offset, what they hold at reset, and readers and
writers of the fields that the rest of the model uses. What a write DOES stands in Machine/SysWrite.lean. -/

namespace Sys2Proof.Machine

/-! ### Reset contents -/

/-- Bases and entry counts of Table 11-3. -/
def accessTargets : List (Nat × Nat) :=
  [(0x01000000, 9216), (0x01200000, 1536), (0x01240000, 12), (0x01241000, 64), (0x01244000, 2), (0x01245000, 12),
   (0x01280000, 4096), (0x01300000, 4096)]

/-- Whether an offset lies in the table of some target. -/
def isAccessOff (off : Nat) : Bool := accessTargets.any fun t => t.1 ≤ off && off < t.1 + 128 * t.2

/-- The reset value of one access byte (R389): 0x1F for the Anole cores, 0x03 for the PFs on SYS pages. -/
def accessReset (off : Nat) : Nat :=
  if isAccessOff off then
    (if off % 128 = 44 then 0x1F
     else if 0x01300000 ≤ off && (off % 128 = 0 || off % 128 = 16) then 0x03 else 0)
  else 0

/-- The reset value of the SYS word at `off` (R389, R406; log entry 3 for PW.limit). -/
def sysReset (off : Nat) : Word :=
  if off = 0 then 0xB00200#64
  else if off = 32 then 2600#64
  else if 0x01000000 ≤ off then
    BitVec.ofNat 64 (leNat ((List.range 8).map fun i => BitVec.ofNat 8 (accessReset (off + i))))
  else 0#64

/-- The SYS word at an offset (its 8-byte word). -/
def State.sysW (s : State) (off : Nat) : Word := wordGet sysReset (off / 8 * 8) s.sys

/-- Set the SYS word at an offset. -/
def State.sysPut (s : State) (off : Nat) (v : Word) : State := { s with sys := wordSet sysReset (off / 8 * 8) v s.sys }

/-- `n` bits from bit `lo` of the word at `off`. -/
def State.sysF (s : State) (off lo n : Nat) : Nat := fieldNat (s.sysW off) lo n

/-- Set `n` bits from bit `lo` of the word at `off`. -/
def State.sysSetF (s : State) (off lo n v : Nat) : State := s.sysPut off (putField (s.sysW off) lo n v)

/-- One byte of SYS space. -/
def State.sysByte (s : State) (off : Nat) : Nat := s.sysF off (off % 8 * 8) 8

/-! ### Where the structures lie (Table 11-2) -/

/-- Mailbox of a host (R408). -/
def mbOff (h : BitVec 1) : Nat := 0x2000 + 0x1000 * h.toNat
/-- Context descriptor (Table 09-2). -/
def cxOff (c : BitVec 6) : Nat := 0x10000 + 64 * c.toNat
/-- Partition descriptor (R390). -/
def ptOff (p : Nat) : Nat := 0x11000 + 64 * p
/-- Partition binding block (Table 09-9). -/
def pbOff (p : Nat) : Nat := 0x12000 + 32 * p
/-- KV block-table header (Table 09-11). -/
def khOff (p : Nat) : Nat := 0x13000 + 64 * p
/-- Breakpoint register i of a context (R393). -/
def bpOff (c : BitVec 6) (i : Nat) : Nat := 0x14000 + 64 * c.toNat + 8 * i
/-- Aperture base of a function (R385). -/
def apOff (f : BitVec 5) : Nat := 0x15000 + 8 * f.toNat
/-- Fault-queue descriptor (Table 11-4). -/
def fqOff (h : BitVec 1) : Nat := 0x18000 + 64 * h.toNat
/-- Registers of an Anole core (R396). -/
def anOff (a : BitVec 4) : Nat := 0x20000 + 256 * a.toNat
/-- Launch queue descriptor (Table 07-1). -/
def qdOff (q : BitVec 12) : Nat := 0x100000 + 64 * q.toNat
/-- Notify entry (R392). -/
def ntOff (q : BitVec 12) : Nat := 0x140000 + 8 * q.toNat
/-- Dependence counter (Table 07-4). -/
def dcOff (c : BitVec 12) : Nat := 0x150000 + 8 * c.toNat
/-- Route-table entry of a node, 4 bytes (R398). -/
def rtOff (n : BitVec 12) : Nat := 0x160000 + 4 * n.toNat
/-- Remote-master slot (R388). -/
def rmOff (i : BitVec 6) : Nat := 0x170000 + 8 * i.toNat

/-! ### Fields that many rules read -/

/-- `ST.node` (R397). -/
def State.node (s : State) : BitVec 12 := BitVec.ofNat 12 (s.sysF 16 0 12)
/-- `QD.state`: 0 destroyed, 1 active, 2 parked, 3 stopped. -/
def State.qState (s : State) (q : BitVec 12) : Nat := s.sysF (qdOff q + 8) 28 2
/-- `QD.gen`. -/
def State.qGen (s : State) (q : BitVec 12) : BitVec 16 := BitVec.ofNat 16 (s.sysF (qdOff q + 8) 48 16)
/-- `QD.ctx`. -/
def State.qCtx (s : State) (q : BitVec 12) : BitVec 6 := BitVec.ofNat 6 (s.sysF (qdOff q + 8) 22 6)
/-- `QD.part`. -/
def State.qPart (s : State) (q : BitVec 12) : BitVec 4 := BitVec.ofNat 4 (s.sysF (qdOff q + 8) 18 4)
/-- `QD.prio`. -/
def State.qPrio (s : State) (q : BitVec 12) : Nat := s.sysF (qdOff q + 8) 30 2
/-- `QD.weight`. -/
def State.qWeight (s : State) (q : BitVec 12) : Nat := s.sysF (qdOff q + 8) 32 8
/-- `QD.lsize`. -/
def State.qLsize (s : State) (q : BitVec 12) : Nat := s.sysF (qdOff q + 8) 0 5
/-- `QD.ring` as a DPA. -/
def State.qRing (s : State) (q : BitVec 12) : Nat := (s.sysW (qdOff q)).toNat / 4096 * 4096
/-- `QD.cring` as a DPA. -/
def State.qCring (s : State) (q : BitVec 12) : Nat := (s.sysW (qdOff q + 40)).toNat / 32 * 32
/-- `QD.claim`, `QD.write`, `QD.read`, `QD.cack`. -/
def State.qClaim (s : State) (q : BitVec 12) : Nat := (s.sysW (qdOff q + 16)).toNat
def State.qWrite (s : State) (q : BitVec 12) : Nat := (s.sysW (qdOff q + 24)).toNat
def State.qRead (s : State) (q : BitVec 12) : Nat := (s.sysW (qdOff q + 32)).toNat
def State.qCack (s : State) (q : BitVec 12) : Nat := (s.sysW (qdOff q + 56)).toNat
/-- Set a sticky bit of `QD.err` (Table 07-1): 0 eovs, 1 eprog, 2 eidx, 3 estale, 4 eref. -/
def State.qErr (s : State) (q : BitVec 12) (bit : Nat) : State := s.sysSetF (qdOff q + 48) bit 1 1
/-- Set `QD.state`. -/
def State.qSetState (s : State) (q : BitVec 12) (v : Nat) : State := s.sysSetF (qdOff q + 8) 28 2 v
/-- `CX.state`: 0 free, 1 active, 2 stopped. -/
def State.cxState (s : State) (c : BitVec 6) : Nat := s.sysF (cxOff c) 0 2
/-- `CX.root` as a DPA. -/
def State.cxRoot (s : State) (c : BitVec 6) : Nat := s.sysF (cxOff c) 7 41 * 128
/-- `CX.vrt` as a DPA. -/
def State.cxVrt (s : State) (c : BitVec 6) : Nat := s.sysF (cxOff c + 8) 12 36 * 4096
/-- `PT.en`, `PT.host`, `PT.ctx`, `PT.dies` (R390). -/
def State.ptEn (s : State) (p : Nat) : Bool := s.sysF (ptOff p) 31 1 == 1
def State.ptHost (s : State) (p : Nat) : BitVec 1 := BitVec.ofNat 1 (s.sysF (ptOff p) 24 1)
def State.ptCtx (s : State) (p : Nat) : BitVec 6 := BitVec.ofNat 6 (s.sysF (ptOff p) 16 6)
def State.ptDies (s : State) (p : Nat) : Nat := s.sysF (ptOff p) 0 12
/-- The partition's binding in force: `PB.bound` and `PB.ver`. -/
def State.pbBinding (s : State) (p : Nat) : Option (BitVec 32) :=
  if s.sysF (pbOff p + 16) 32 1 = 1 then some (BitVec.ofNat 32 (s.sysF (pbOff p + 16) 0 32)) else none
/-- Ready bits of offset 8 of the status page (Table 11-8). -/
def State.readyBit (s : State) (i : Nat) : Bool := s.sysF 8 i 1 == 1
/-- C-die ready. -/
def State.dieReady (s : State) (c : Nat) : Bool := s.readyBit c
/-- HBM stack ready. -/
def State.hbmReady (s : State) (k : Nat) : Bool := s.readyBit (12 + k)
/-- Capacity-tier package ready. -/
def State.capReady (s : State) (k : Nat) : Bool := s.readyBit (24 + k)

/-- Whether the firmware serves the sequencers: not while an update stops dispatch or its trial has not yet sent its
first heartbeat (R404, R418). -/
def State.fwServes (s : State) : Bool :=
  match s.firm.phase with
  | .idle => true
  | .trial _ _ _ beaten => beaten
  | .stopping _ => false
  | .restarting => false

/-! ### Access rights (R389) -/

/-- The rights of an access byte, by bit. -/
inductive Right where
  | read | write | atomic | fetch | enqueue
deriving DecidableEq, Repr

/-- Bit of a right in the access byte. -/
def Right.bit : Right → Nat
  | .read => 0 | .write => 1 | .atomic => 2 | .fetch => 3 | .enqueue => 4

/-- Whether master `m` has a right on target `i` of the table at `base`. -/
def State.right (s : State) (base i m : Nat) (r : Right) : Bool := (s.sysByte (base + 128 * i + m)).testBit r.bit

/-- The access-table target of a local DPA (Table 11-3): HBM regions, capacity regions, host memories. -/
def dpaTarget (dpa : Nat) : Option (Nat × Nat) :=
  let kind := dpa / 2 ^ 44
  let low := dpa % 2 ^ 44
  if kind = 0 then some (0x01000000, low / 2 ^ 36 % 16 * 768 + low % 2 ^ 36 / 0x4000000)
  else if kind = 1 then some (0x01200000, low % 2 ^ 41 / 0x40000000)
  else if kind = 2 then some (0x01244000, 0)
  else if kind = 3 then some (0x01244000, 1)
  else none

/-- `CheckAccessTable` for a local DPA. Fetch is no right of host memory (Table 11-3): it is never granted there. -/
def State.dpaRight (s : State) (m dpa : Nat) (r : Right) : Bool :=
  match dpaTarget dpa with
  | some (base, i) => (base != 0x01244000 || r != .fetch) && s.right base i m r
  | none => false

/-- Whether a DPA lies within its memory (Table 09-1). -/
def dpaOk (dpa : Nat) : Bool :=
  let kind := dpa / 2 ^ 44
  let low := dpa % 2 ^ 44
  if kind = 0 then low / 2 ^ 40 = 0 && low / 2 ^ 36 < 12 && low % 2 ^ 36 < Config.stackBytes
  else if kind = 1 then low < Config.capacityBytes
  else kind = 2 || kind = 3

/-- Whether the HBM stack or capacity package behind a DPA is ready; host memory always is (R406). A capacity
package serves 1/16 of the tier. -/
def State.dpaReady (s : State) (dpa : Nat) : Bool :=
  let kind := dpa / 2 ^ 44
  let low := dpa % 2 ^ 44
  if kind = 0 then s.hbmReady (low / 2 ^ 36)
  else if kind = 1 then s.capReady (low / (Config.capacityBytes / 16))
  else true

end Sys2Proof.Machine
end

