-- ==== Sys2Proof/Machine/Lookup.lean ====
section
/-! DEFINITION. Finding launches, copies, cores and scratchpads in the state, the geometry of ranks (R19, R20),
and the registers of the agent whose turn it is (R22, R53). -/

namespace Sys2Proof.Machine

/-! ### Geometry -/

/-- `LK.h` of a packet. -/
def Packet.h (p : Packet) : Nat := fieldNat p.w1 8 8
/-- `LK.w`. -/
def Packet.w (p : Packet) : Nat := fieldNat p.w1 0 8
/-- Gang height, 1 when none is named (R277). -/
def Packet.gh (p : Packet) : Nat := if fieldNat p.w1 24 5 = 0 then 1 else fieldNat p.w1 24 5
/-- Gang width, 1 when none is named. -/
def Packet.gw (p : Packet) : Nat := if fieldNat p.w1 16 5 = 0 then 1 else fieldNat p.w1 16 5
/-- `LK.prot`: 0 N, 1 S, 2 D (R276). -/
def Packet.prot (p : Packet) : Nat := fieldNat p.w1 32 2
/-- `sr.policy.rep` (R276). -/
def Packet.rep (p : Packet) : Nat :=
  if p.prot = 0 then 0 else if fieldNat p.w1 34 2 = 2 then 2 else 1
/-- `LK.ntid`. -/
def Packet.ntid (p : Packet) : Nat := fieldNat p.w1 40 9
/-- `LK.sigk`. -/
def Packet.sigk (p : Packet) : Bool := bitAt p.w1 49
/-- The VIM grant in words. -/
def Packet.vim (p : Packet) : Nat := fieldNat p.grants 0 14
/-- The scratchpad grants in bytes. -/
def Packet.usp (p : Packet) : Nat := 256 * fieldNat p.grants 14 14
def Packet.cls (p : Packet) : Nat := 256 * fieldNat p.grants 28 16
def Packet.dsp (p : Packet) : Nat := 256 * fieldNat p.grants 44 20

/-- `clusterCols` of a rectangle of width `w` (R20). -/
def clusterCols (w : Nat) : Nat := (w + 1) / 2
/-- `chipCols`. -/
def chipCols (w : Nat) : Nat := (w + 7) / 8
/-- Number of cluster ranks (R24). -/
def nClus (h w : Nat) : Nat := (h + 1) / 2 * clusterCols w
/-- Number of chiplet ranks. -/
def nChip (h w : Nat) : Nat := (h + 3) / 4 * chipCols w
/-- `clusterRank` of a coordinate. -/
def clusterRank (w row col : Nat) : Nat := row / 2 * clusterCols w + col / 2
/-- `coreRank`. -/
def coreRank (w row col : Nat) : Nat := clusterRank w row col * 4 + (row % 2 * 2 + col % 2)
/-- `chipRank`. -/
def chipRank (w row col : Nat) : Nat := row / 4 * chipCols w + col / 8
/-- Row and column of a coreRank. -/
def rankRow (w r : Nat) : Nat := r / 4 / clusterCols w * 2 + r % 4 / 2
def rankCol (w r : Nat) : Nat := r / 4 % clusterCols w * 2 + r % 2
/-- Whether a coreRank names a core of the rectangle (R40). -/
def isRank (h w r : Nat) : Bool :=
  decide (0 < clusterCols w) && rankRow w r < h && rankCol w r < w
/-- The cluster rank and chiplet rank of a coreRank. -/
def rankChip (w r : Nat) : Nat := chipRank w (rankRow w r) (rankCol w r)

/-- Gang index facts (R21): the ranks of the partners of a core, in partner order. -/
def gangRanks (w gh gw row col : Nat) : List Nat :=
  let r0 := row - row % gh
  let c0 := col - col % gw
  (List.range (gh * gw)).map fun i => coreRank w (r0 + i / gw) (c0 + i % gw)

/-- The C-die of a physical core (R19). -/
def dieOf (phys : Nat) : Nat := phys / 24 / 4 * 3 + phys % 24 / 8
/-- The physical cluster of a physical core (R377). -/
def clusterOf (phys : Nat) : Nat := phys / 24 / 2 * 12 + phys % 24 / 2
/-- The mirrored core of the shadow (R285). -/
def mirror8 (phys : Nat) : Nat := (phys / 24 ^^^ 8) * 24 + phys % 24
/-- The core of a third execution. -/
def mirror4 (phys : Nat) : Nat := (phys / 24 ^^^ 4) * 24 + phys % 24

/-! ### Finding -/

/-- A launch by number. -/
def State.launch? (s : State) (lid : Nat) : Option Launch := s.launches.find? fun l => l.lid == lid
/-- A copy of a launch. -/
def Launch.copy? (l : Launch) (r : Role) : Option Copy := l.copies.find? fun c => c.role == r
/-- A core of a copy. -/
def Copy.core? (c : Copy) (rank : Nat) : Option Core := c.cores.find? fun k => k.rank == rank
/-- A scratchpad of a copy. -/
def Copy.pad? (c : Copy) (p : PadId) : Option Pad := c.pads.find? fun q => q.id == p
/-- The copy of a core reference. -/
def State.copy? (s : State) (k : CoreRef) : Option Copy := (s.launch? k.lid).bind fun l => l.copy? k.role
/-- A core by reference. -/
def State.core? (s : State) (k : CoreRef) : Option Core := (s.copy? k).bind fun c => c.core? k.rank

/-- Change one launch. -/
def State.modLaunch (s : State) (lid : Nat) (f : Launch → Launch) : State :=
  { s with launches := s.launches.map fun l => if l.lid == lid then f l else l }
/-- Change one copy. -/
def Launch.modCopy (l : Launch) (r : Role) (f : Copy → Copy) : Launch :=
  { l with copies := l.copies.map fun c => if c.role == r then f c else c }
/-- Change one core. -/
def Copy.modCore (c : Copy) (rank : Nat) (f : Core → Core) : Copy :=
  { c with cores := c.cores.map fun k => if k.rank == rank then f k else k }
/-- Change one scratchpad. -/
def Copy.modPad (c : Copy) (p : PadId) (f : Pad → Pad) : Copy :=
  { c with pads := c.pads.map fun q => if q.id == p then f q else q }
/-- Change the copy of a core reference. -/
def State.modCopy (s : State) (k : CoreRef) (f : Copy → Copy) : State := s.modLaunch k.lid fun l => l.modCopy k.role f
/-- Change a core. -/
def State.modCore (s : State) (k : CoreRef) (f : Core → Core) : State := s.modCopy k fun c => c.modCore k.rank f
/-- Change every core of a launch. -/
def Launch.mapCores (l : Launch) (f : Core → Core) : Launch :=
  { l with copies := l.copies.map fun c => { c with cores := c.cores.map f } }

/-- The other copy of a class D pair (R368). -/
def otherRole : Role → Role
  | .primary => .shadow
  | .shadow => .primary
  | .third => .third

/-- A core of the same copy. -/
def atRank (k : CoreRef) (rank : Nat) : CoreRef := { k with rank := rank }
/-- The same core of another copy. -/
def withRole (k : CoreRef) (r : Role) : CoreRef := { k with role := r }

/-- `sr.class.cls` of a launch. -/
def Launch.cls (l : Launch) : Nat := l.packet.prot
/-- The scratchpad a SELF or USP pointer names, and so on: the pads a core calls its own. -/
def Core.uspId (c : Core) : PadId := .usp c.rank
/-- Every coreRank of a launch. -/
def Launch.ranks (l : Launch) : List Nat :=
  (List.range (l.packet.h * l.packet.w)).map fun i => coreRank l.packet.w (i / l.packet.w) (i % l.packet.w)

/-- `sr.coord` (Table 01-3). -/
def Core.coord (l : Launch) (c : Core) : Word :=
  BitVec.ofNat 64 (chipRank l.packet.w c.row c.col * 2 ^ 32 + (c.row % 2 * 2 + c.col % 2) * 2 ^ 24 +
    clusterRank l.packet.w c.row c.col * 2 ^ 16 + c.row * 2 ^ 8 + c.col)

/-- `sr.rect`. -/
def Launch.rect (l : Launch) : Word :=
  let h := l.packet.h
  let w := l.packet.w
  BitVec.ofNat 64 (l.packet.gh * 2 ^ 40 + l.packet.gw * 2 ^ 32 + nChip h w * 2 ^ 24 + nClus h w * 2 ^ 16 + h * 2 ^ 8 + w)

/-- `sr.ver` of a binding (R24). -/
def bindingWord (b : Option (BitVec 32)) : Word :=
  match b with
  | some v => BitVec.ofNat 64 (2 ^ 32 + v.toNat)
  | none => 0#64

/-- `sr.launch`: also the launch identity of records. -/
def Launch.ident (l : Launch) : Word :=
  BitVec.ofNat 64 (l.slot % 2 ^ 32 * 2 ^ 32 + l.gen.toNat * 2 ^ 16 + l.queue.toNat)

/-- `sr.part`. -/
def State.partWord (s : State) (l : Launch) : Word :=
  BitVec.ofNat 64 (s.node.toNat * 2 ^ 16 + l.ctx.toNat * 2 ^ 8 + l.part.toNat)

/-! ### TLBs (R335, R338, R339) -/

/-- Agents of durable memory other than the cores, which count by physical number: an Anole core, a host function, and the Igsan
link (R307). -/
def anoleAgent (a : Nat) : Nat := 4096 + a
def hostAgent (f : Nat) : Nat := 8192 + f
def linkAgent : Nat := 12288

/-- The TLBs of an agent. -/
def State.tlbsOf (s : State) (o : Nat) : List Tlb := ((s.tlbs.find? fun p => p.1 == o).map fun p => p.2).getD (List.replicate 10 Tlb.zero)
/-- One of them. -/
def State.tlb (s : State) (o i : Nat) : Tlb := (s.tlbsOf o).getD i Tlb.zero
/-- Change the TLBs of an agent. -/
def State.setTlbs (s : State) (o : Nat) (ts : List Tlb) : State :=
  { s with tlbs := if s.tlbs.any fun p => p.1 == o then s.tlbs.map fun p => if p.1 = o then (o, ts) else p else s.tlbs ++ [(o, ts)] }
/-- Change one. -/
def State.modTlb (s : State) (o i : Nat) (f : Tlb → Tlb) : State :=
  s.setTlbs o ((s.tlbsOf o).zipIdx.map fun p => if p.2 = i then f p.1 else p.1)

/-- The shoot-down number a TLB last took for a context. -/
def Tlb.taken (t : Tlb) (ctx : BitVec 6) : Nat := ((t.num.find? fun p => p.1 == ctx).map fun p => p.2).getD 0
/-- Whether a TLB holds an entry of a context. -/
def Tlb.holds (t : Tlb) (ctx : BitVec 6) : Bool := t.entries.any (fun e => e.ctx == ctx) || t.tables.any fun e => e.ctx == ctx
/-- A TLB takes a number. -/
def Tlb.take (t : Tlb) (ctx : BitVec 6) (q : Nat) : Tlb := { t with num := t.num.filter (fun p => p.1 != ctx) ++ [(ctx, q)] }

/-- Whether a shoot-down covers addresses of a context. -/
def Shootdown.hits (d : Shootdown) (ctx : BitVec 6) (va size : Nat) : Bool :=
  ctx == d.ctx && (d.all || (d.pages != 0 && decide (d.page < va + size) && decide (va < d.page + 4096 * d.pages)))
/-- Whether it covers a cached translation. -/
def Shootdown.covers (d : Shootdown) (e : TlbEntry) : Bool := d.hits e.ctx e.va e.size

/-- Whether a shoot-down drops something of a TLB. -/
def Tlb.loses (t : Tlb) (d : Shootdown) : Bool := t.entries.any d.covers || t.tables.any fun e => d.hits e.ctx e.va e.size

/-- A TLB at an acknowledgement: covered entries dropped, the number taken. -/
def Tlb.drop (t : Tlb) (d : Shootdown) : Tlb :=
  { t.take d.ctx d.q with entries := t.entries.filter fun e => !d.covers e, tables := t.tables.filter fun e => !d.hits e.ctx e.va e.size }

/-- A completed walk's translation and table entries are cached. -/
def Tlb.fill (t : Tlb) (e : TlbEntry) (ts : List TlbTable) : Tlb :=
  { t with entries := e :: t.entries.filter fun x => !(x.ctx == e.ctx && x.va == e.va)
           tables := ts ++ t.tables.filter fun x => !(ts.any fun y => y.ctx == x.ctx && y.va == x.va && y.lvl == x.lvl) }

/-! ### Registers (R22) -/

/-- x[r], with x0 reading zero. -/
def Regs.get (r : Regs) (i : BitVec 6) : Word := if i = 0#6 then 0#64 else r.x[i.toNat]
/-- x[i] ← v; a write to x0 is discarded. -/
def Regs.set (r : Regs) (i : BitVec 6) (v : Word) : Regs := if i = 0#6 then r else { r with x := r.x.set i.toNat v }
/-- p[i], with p0 reading one. -/
def Regs.pred (r : Regs) (i : BitVec 3) : Bool := if i = 0#3 then true else r.p[i.toNat]
/-- p[i] ← v; p0 is never written. -/
def Regs.setPred (r : Regs) (i : BitVec 3) (v : Bool) : Regs := if i = 0#3 then r else { r with p := r.p.set i.toNat v }
/-- pc ← v. -/
def Regs.setPc (r : Regs) (v : Word) : Regs := { r with pc := v }
/-- The pc after an instruction of `n` bytes (R50). -/
def Regs.skip (r : Regs) (n : Nat) : Regs := { r with pc := r.pc + BitVec.ofNat 64 n }
/-- Whether a guard lets the instruction execute (R53). -/
def Regs.guard (r : Regs) (g : BitVec 4) : Bool := (r.pred (g.extractLsb' 0 3)) != g.getLsbD 3

/-- Change an Anole core. -/
def State.modAnole (s : State) (a : BitVec 4) (f : Anole → Anole) : State :=
  { s with anoles := s.anoles.set a.toNat (f s.anoles[a.toNat]) }

/-- The registers of an agent. -/
def State.regsOf? (s : State) (a : Agent) : Option Regs :=
  match a with
  | .core k => (s.core? k).map fun c => c.regs
  | .anole i => some s.anoles[i.toNat].regs
  | .vec _ => none
  | .none => none

/-- Change the registers of an agent. -/
def State.modRegsOf (s : State) (a : Agent) (f : Regs → Regs) : State :=
  match a with
  | .core k => s.modCore k fun c => { c with regs := f c.regs }
  | .anole i => s.modAnole i fun c => { c with regs := f c.regs }
  | .vec _ => s
  | .none => s

/-- The registers of the agent whose turn it is. -/
def State.regs? (s : State) : Option Regs := s.regsOf? s.cur
/-- Change them. -/
def State.modRegs (s : State) (f : Regs → Regs) : State := s.modRegsOf s.cur f

/-- The next free choice between two permitted outcomes (log entry 5). -/
def State.freeB (s : State) : Bool × State := (Config.freeBool s.freeCtr, { s with freeCtr := s.freeCtr + 1 })

end Sys2Proof.Machine
end

