-- ==== Sys2Proof/Machine/Events.lean ====
section
/-! DEFINITION. Writes to device memory, the host fault queues (R340, R383, R395), MSI-X, and suspicion scores,
holds, fences and retirement (R376 to R381). -/

namespace Sys2Proof.Machine

/-! ### Device memory by DPA -/

/-- The 8-byte words of a store that a write of `n` bytes at `a` touches. -/
def wordsOf (a n : Nat) : List Nat := if n = 0 then [] else (List.range ((a + n - 1) / 8 + 1 - a / 8)).map fun i => a / 8 + i

/-- Bytes put over a range. -/
def overlayBytes (at' : Nat) (bs : List Byte) (o : Nat) (old : List Byte) : List Byte :=
  old.zipIdx.map fun p => if at' ≤ o + p.2 && o + p.2 < at' + bs.length then bs.getD (o + p.2 - at') p.1 else p.1

/-- The agent that acts, as in `LagWrite`. -/
def State.actor (s : State) : Option Nat :=
  match s.cur with
  | .core k => (s.core? k).map fun c => c.phys
  | .vec k => (s.core? k).map fun c => c.phys
  | .anole a => some (anoleAgent a.toNat)
  | .none => none

/-- Put bytes at a DPA. Words that change are kept as possible old code (R158). -/
def State.dramSet (s : State) (dpa : Nat) (bs : List Byte) : State :=
  let m := s.dram.put dpa bs
  let old := (wordsOf dpa bs.length).filter fun w => s.dram.word (8 * w) != m.word (8 * w)
  { s with dram := m, oldCode := s.oldCode ++ old.map fun w => { word := w, old := s.dram.word (8 * w), by' := s.actor, all := false, covered := [], synced := [] } }

/-- A fence of an agent covers others: what it wrote before is committed for them (R158). -/
def State.fenceCode (s : State) (agent : Nat) (all : Bool) (cov : List Nat) : State :=
  { s with oldCode := s.oldCode.map fun e =>
      if (e.by'.map fun b => b == agent).getD true then
        { e with all := e.all || all, covered := e.covered ++ cov.filter fun a => !e.covered.contains a }
      else e }

/-- An agent discards what it has fetched: code written before, and since covered by a fence, is then new for it; `start`: its launch starts or resumes. -/
def State.syncCode (s : State) (agent : Nat) (start : Bool) : State :=
  { s with oldCode := s.oldCode.map fun e =>
      if (start || e.all || e.covered.contains agent) && !e.synced.contains agent then { e with synced := e.synced ++ [agent] } else e }

/-- Write bytes at a DPA, for every agent at once: writes below it in location order are then past for every reader. -/
def State.dramPut (s : State) (dpa : Nat) (bs : List Byte) : State :=
  let s1 := s.dramSet dpa bs
  { s1 with lags := s1.lags.map fun g => { g with old := overlayBytes dpa bs g.dpa g.old } }

/-- Write bytes at a DPA at their home (R306, R308): in HBM and the capacity tier the agents `ws`, which are one writer, see them at
once and the others later; host memory is read at the host. With `bind` what the writer does next is not seen without them. -/
def State.lagPut (s : State) (ws : List Nat) (bind : Bool) (dpa : Nat) (bs : List Byte) : State :=
  if dpa / 2 ^ 44 < 2 then
    (let s1 := s.dramSet dpa bs
     { s1 with lags := s1.lags ++ [{ dpa := dpa, old := s.dram.bytes dpa bs.length, writer := ws.headD 0, seen := ws,
                                      bound := if bind then ws else [], since := s.cc }] })
  else s.dramPut dpa bs

/-- Bytes at a DPA as they are below some writes on their way, the newest last. -/
def State.belowLags (s : State) (newer : List LagWrite) (dpa n : Nat) : List Byte :=
  newer.reverse.foldl (fun bs h => overlayBytes h.dpa h.old dpa bs) (s.dram.bytes dpa n)

/-- Some writes are performed at device scope: what they write hides the writes before them for every agent (R305). -/
def State.dropLags (s : State) (p : LagWrite → Bool) : List LagWrite → List LagWrite → List LagWrite
  | older, [] => older
  | older, g :: t =>
      if p g then s.dropLags p (older.map fun h => { h with old := overlayBytes g.dpa (s.belowLags t g.dpa g.old.length) h.dpa h.old }) t
      else s.dropLags p (older ++ [g]) t

/-- Every write that these agents have observed is performed at device scope (R311): what they write next is then never seen without
it. -/
def State.settleLag (s : State) (agents : List Nat) : State :=
  { s with lags := s.dropLags (fun g => g.bound.any fun a => agents.contains a) [] s.lags }

/-- Every write of these agents is performed at device scope, with those it may not be seen without (R128, R129). -/
def State.settleOwn (s : State) (agents : List Nat) : State :=
  { s with lags := s.dropLags (fun g => agents.contains g.writer || g.bound.any fun a => agents.contains a) [] s.lags }

/-- What these agents wrote or observed is seen by further agents, which carry it with them (R310, R311). -/
def State.bindLags (s : State) (agents to' : List Nat) : State :=
  { s with lags := s.lags.map fun g =>
      if agents.contains g.writer || g.bound.any (fun a => agents.contains a) then
        { g with seen := g.seen ++ to'.filter (fun a => !g.seen.contains a), bound := g.bound ++ to'.filter (fun a => !g.bound.contains a) }
      else g }

/-- Writes older than 2,500 cc are performed at device scope (R306). -/
def State.ageLag (s : State) : State := { s with lags := s.dropLags (fun g => decide (g.since + 2500 ≤ s.cc)) [] s.lags }

/-- The bytes at a DPA. -/
def State.dramBytes (s : State) (dpa n : Nat) : List Byte := s.dram.bytes dpa n

/-- The 64-bit word at a DPA. -/
def State.dramWord (s : State) (dpa : Nat) : Word := s.dram.word dpa

/-- Write a 64-bit word at a DPA. -/
def State.dramPutWord (s : State) (dpa : Nat) (v : Word) : State := s.dramPut dpa (natLe 8 v.toNat)

/-! ### MSI-X (R384, R392) -/

/-- Send an MSI-X message of a function: 2,048 vectors on a PF, 64 on a VF; beyond the table, or when the function is disabled,
nothing is sent. -/
def State.sendMsix (s : State) (f : BitVec 5) (vec : BitVec 11) : State :=
  if Config.functionEnabled s.cc f && (f.toNat % 16 = 0 || vec.toNat < 64) then { s with host := { s.host with msix := s.host.msix ++ [(f, vec)] } } else s

/-! ### The fault queues (R395) -/

/-- The PF of a host. -/
def pfOf (h : BitVec 1) : BitVec 5 := BitVec.ofNat 5 (16 * h.toNat)

/-- Whether a host's fault queue has room for an event, and its memory is ready (R406). -/
def State.fqRoom (s : State) (h : BitVec 1) : Bool :=
  s.sysF (fqOff h + 24) 11 1 == 1 && s.dpaReady (s.sysF (fqOff h) 5 43 * 32) &&
    decide ((s.sysW (fqOff h + 8)).toNat < (s.sysW (fqOff h + 16)).toNat + 2 ^ s.sysF (fqOff h) 0 5)

/-- Write one event record to a host's fault queue and send its vector. -/
def State.fqWrite (s : State) (h : BitVec 1) (words : List Word) : State :=
  let wr := (s.sysW (fqOff h + 8)).toNat
  let base := s.sysF (fqOff h) 5 43 * 32
  let s1 := s.dramPut (base + 32 * (wr % 2 ^ s.sysF (fqOff h) 0 5)) (words.flatMap fun w => natLe 8 w.toNat)
  let s2 := s1.sysPut (fqOff h + 8) (BitVec.ofNat 64 (wr + 1))
  s2.sendMsix (pfOf h) (BitVec.ofNat 11 (s.sysF (fqOff h + 24) 0 11))

/-- Write delayed events, oldest first, as far as their queues have room; a blocked queue keeps its order. -/
def flushGo (s : State) (blocked : List (BitVec 1)) : List DelayedEvent → State
  | [] => s
  | e :: t =>
      if blocked.contains e.host || !s.fqRoom e.host then
        (let s' := { s with host := { s.host with delayed := s.host.delayed ++ [e] } }
         flushGo s' (e.host :: blocked) t)
      else flushGo (s.fqWrite e.host e.words) blocked t

/-- Deliver what the fault queues have room for. -/
def State.flushEvents (s : State) : State :=
  flushGo { s with host := { s.host with delayed := [] } } [] s.host.delayed

/-- Post one event record to some hosts; `mk` forms its words from the sequence number (R340: from 1, modulo
2^32). -/
def State.postEvent (s : State) (hosts : List (BitVec 1)) (mk : Nat → List Word) : State :=
  let seq := (s.evSeq + 1) % 2 ^ 32
  let evs := hosts.map fun h => ({ host := h, words := mk seq } : DelayedEvent)
  State.flushEvents { s with evSeq := seq, host := { s.host with delayed := s.host.delayed ++ evs } }

/-- A translation event record (Table 09-6). -/
def frWords (kind : Nat) (ctx : BitVec 6) (acc part : Nat) (va : Word) (dpa : Nat) (ident : Word) (seq : Nat) : List Word :=
  [BitVec.ofNat 64 (kind * 2 ^ 56 + ctx.toNat * 2 ^ 48 + acc * 2 ^ 40 + part * 2 ^ 32 + seq),
   BitVec.ofNat 64 (va.toNat % 2 ^ 52), BitVec.ofNat 64 dpa, ident]

/-- A reliability event record (Table 10-6). -/
def reWords (kind code unit score unit2 hits : Nat) (ident : Word) (cc seq : Nat) : List Word :=
  [BitVec.ofNat 64 (kind * 2 ^ 56 + code * 2 ^ 48 + unit * 2 ^ 32 + seq),
   BitVec.ofNat 64 (score * 2 ^ 48 + unit2 * 2 ^ 32 + hits), ident, BitVec.ofNat 64 cc]

/-- Post a translation event for a launch's partition (R340, R395). -/
def State.postFr (s : State) (kind : Nat) (l : Launch) (acc : Nat) (va : Word) (dpa : Nat) : State :=
  s.postEvent [s.ptHost l.part.toNat]
    (frWords kind l.ctx acc l.part.toNat va dpa (if kind = 5 then 0#64 else l.ident))

/-! ### Scores (R377 to R380) -/

/-- Kind of a unit identifier. -/
def unitKind (u : BitVec 16) : Nat := u.toNat / 4096
/-- Index of a unit identifier. -/
def unitIdx (u : BitVec 16) : Nat := u.toNat % 4096
/-- A unit identifier. -/
def unitId (kind idx : Nat) : BitVec 16 := BitVec.ofNat 16 (kind * 4096 + idx)

/-- How many units a kind has (Table 10-4). -/
def unitCount (kind : Nat) : Nat :=
  match kind with
  | 1 => 384 | 2 => 1536 | 3 => 3072 | 4 => 4096 | 5 => 4096 | 6 => 4096 | 7 => 4096 | 8 => 2048 | 9 => 3072
  | 10 => 12 | _ => 0

/-- Whether an identifier names a unit (R408). -/
def unitOk (u : BitVec 16) : Bool := unitIdx u < unitCount (unitKind u)

/-- Threshold in units of 1/16 (Table 10-4). -/
def threshold (kind : Nat) : Nat := if kind = 1 then 512 else if kind = 10 then 1024 else 256

/-- The physical core that a unit of kinds 1 to 6 belongs to. -/
def unitCore (u : BitVec 16) : Nat :=
  match unitKind u with
  | 1 => unitIdx u
  | 2 => unitIdx u / 4
  | 3 => unitIdx u / 8
  | 4 => unitIdx u / 32
  | 5 => 128 + unitIdx u / 32
  | _ => 256 + unitIdx u / 32

/-- The C-die that holds a unit (R378). -/
def unitDie (u : BitVec 16) : Nat :=
  match unitKind u with
  | 7 => (let c := unitIdx u / 64; dieOf (c / 12 * 2 * 24 + c % 12 * 2))
  | 8 => (let c := 64 + unitIdx u / 64; dieOf (c / 12 * 2 * 24 + c % 12 * 2))
  | 9 => unitIdx u / 256
  | 10 => unitIdx u
  | _ => dieOf (unitCore u)

/-- A unit without a record. -/
def UnitState.fresh (u : BitVec 16) : UnitState :=
  { id := u, score := 0, fenced := false, held := false, retired := false, replaced := false }

/-- The suspicion state of a unit. -/
def Reliab.unit (r : Reliab) (u : BitVec 16) : UnitState := (r.units.find? fun x => x.id == u).getD (UnitState.fresh u)

/-- Set it, units kept in increasing identifier. -/
def unitPut (x : UnitState) : List UnitState → List UnitState
  | [] => [x]
  | y :: t => if x.id.toNat < y.id.toNat then x :: y :: t else if x.id = y.id then x :: t else y :: unitPut x t

/-- Change the state of a unit. -/
def Reliab.modUnit (r : Reliab) (u : BitVec 16) (f : UnitState → UnitState) : Reliab :=
  { r with units := unitPut (f (r.unit u)) r.units }

/-- Raise one unit's score, fencing or retiring it at its threshold. -/
def Reliab.raise1 (r : Reliab) (u : BitVec 16) (inc : Nat) : Reliab :=
  r.modUnit u fun x =>
    let sc := min 65535 (x.score + 16 * inc)
    let hit := decide (threshold (unitKind u) ≤ sc)
    { x with score := sc, fenced := x.fenced || (hit && unitKind u != 10), retired := x.retired || (hit && unitKind u == 10) }

/-- Raise a unit's score and that of its chiplet (R378). -/
def Reliab.raise (r : Reliab) (u : BitVec 16) (inc : Nat) : Reliab :=
  if unitKind u = 10 then r.raise1 u inc else (r.raise1 u inc).raise1 (unitId 10 (unitDie u)) inc

/-- Place a hold (R379). -/
def Reliab.hold (r : Reliab) (u : BitVec 16) : Reliab := r.modUnit u fun x => { x with held := true }

/-- Whether a unit is out of service for placement (R379). -/
def Reliab.out (r : Reliab) (u : BitVec 16) : Bool := (r.unit u).fenced || (r.unit u).held

/-- Whether a C-die is retired. -/
def Reliab.dieRetired (r : Reliab) (d : Nat) : Bool := (r.unit (unitId 10 d)).retired

/-- Spares in use of a cluster scratchpad or die scratchpad, named by its first bank identifier (R380). -/
def Reliab.sparesUsed (r : Reliab) (u : BitVec 16) : Nat :=
  if unitKind u = 9 then (r.spares.filter fun x => unitKind x == 9 && unitIdx x / 256 == unitIdx u / 256).length
  else (r.spares.filter fun x => unitKind x == unitKind u && unitIdx x / 64 == unitIdx u / 64).length

/-- Spare banks a scratchpad has: 2 per cluster, 8 per die (R380). -/
def spareCount (u : BitVec 16) : Nat := if unitKind u = 9 then 8 else 2

/-- Whether placement may use a physical core (R284, R380): neither it nor a lane group or bank of it is out,
fewer than two of its sub-arrays are, its cluster has spares for its fenced and held banks, and its C-die is in service. -/
def Reliab.coreUsable (r : Reliab) (phys : Nat) : Bool :=
  !r.out (unitId 1 phys) &&
  decide ((r.units.filter fun x => unitKind x.id == 2 && unitCore x.id == phys && (x.fenced || x.held)).length < 2) &&
  (r.units.all fun x =>
    !((3 ≤ unitKind x.id && unitKind x.id ≤ 6) && unitCore x.id == phys && (x.fenced || x.held))) &&
  (r.units.all fun x =>
    !((unitKind x.id == 7 || unitKind x.id == 8) && (unitKind x.id - 7) * 64 + unitIdx x.id / 64 == clusterOf phys &&
      (x.fenced || x.held) && spareCount x.id ≤ r.sparesUsed x.id)) &&
  !r.dieRetired (dieOf phys)

/-- One more detection in the mismatch histogram: lanes first, then sub-arrays; counts saturate (R382). -/
def Reliab.bump (r : Reliab) (i : Nat) : Reliab :=
  let n := ((r.hist.find? fun p => p.1 == i).map fun p => p.2).getD 0
  { r with hist := r.hist.filter (fun p => p.1 != i) ++ [(i, min 65535 (n + 1))] }

/-- The histogram entry of a sub-array. -/
def subEntry (u : BitVec 16) : Nat := 24576 + unitIdx u

/-- Count a checksum detection on the sub-arrays among its suspects. -/
def State.countSubs (s : State) (us : List (BitVec 16)) : State :=
  { s with rel := (us.filter fun u => unitKind u == 2).foldl (fun r u => r.bump (subEntry u)) s.rel }

/-- A detection (R383): raise scores, place holds, post its record of `kind`, one record of kind 20 for each unit
newly held or brought to its threshold, and one of kind 21 for each chiplet it retires. -/
def State.detect (s : State) (host : BitVec 1) (ident : Word) (kind code : Nat) (unit unit2 : BitVec 16) (hits : Nat)
    (incs : List (BitVec 16 × Nat)) (holds : List (BitVec 16)) : State :=
  let r0 := s.rel
  let r1 := incs.foldl (fun r u => r.raise u.1 u.2) r0
  let r2 := holds.foldl (fun r u => r.hold u) r1
  let s1 := State.postEvent { s with rel := r2 } [host]
    (reWords kind code unit.toNat (r2.unit unit).score unit2.toNat hits ident s.cc)
  let marked := r2.units.filter fun x =>
    unitKind x.id != 10 && (holds.contains x.id || (x.fenced && !(r0.unit x.id).fenced))
  let s2 := marked.foldl (fun t x => t.postEvent [host] (reWords 20 0 x.id.toNat x.score 0 0 ident s.cc)) s1
  let dies := r2.units.filter fun x => unitKind x.id == 10 && x.retired && !(r0.unit x.id).retired
  let s3 := dies.foldl (fun t x => t.postEvent [0#1, 1#1] (reWords 21 0 x.id.toNat x.score 0 0 0#64 s.cc)) s2
  -- a retired chiplet is never ready (R406)
  dies.foldl (fun t x => t.sysSetF 8 (unitIdx x.id) 1 0) s3

/-- The unit scored for a retried uncorrectable error in a scratchpad of a copy (Table 10-8). Banks by the offset
bits of Table 08-1. -/
def padUnit (p : Pad) (off : Nat) : BitVec 16 :=
  match p.id with
  | .usp _ => unitId (4 + p.phys / 128) (p.phys % 128 * 32 + off / 256 % 32)
  | .cls _ => unitId (7 + p.phys / 64) (p.phys % 64 * 64 + off / 256 % 64)
  | .dsp _ => unitId 9 (p.phys * 256 + off / 256 % 256)

end Sys2Proof.Machine
end

