-- ==== Sys2Proof/Machine/Ops.lean ====
section
/-! DEFINITION. Named operations on a launch: its state at launch start (R288), taking a fault as one shared
operation (R291, R374, R375, R396), the abort and the kill, and the returns beside it: SYSRET (R165) and the
state of a resume (R47, R292). -/

namespace Sys2Proof.Machine

/-! ### Raising -/

/-- A fault of a control core with nothing to record but its code. -/
def Trap.mk' (code : Nat) (addr : Word := 0#64) (src : Nat := 0) : Trap :=
  { code := code, src := src, addr := addr, acc := 0, ev := 0, dpa := 0, trapCode := 0#32, units := [],
    durable := false, gang := false }

/-! ### Launch start (R47, R288) -/

/-- x1 to x4 from the packet, sp one past the USP grant, everything else zero. -/
def startRegs (p : Packet) (pc : Word) : Regs :=
  let x0 : Vector Word 64 := Vector.replicate 64 0#64
  let x1 := x0.set 1 (p.args.getD 0 0#64)
  let x2 := x1.set 2 (p.args.getD 1 0#64)
  let x3 := x2.set 3 (p.args.getD 2 0#64)
  let x4 := x3.set 4 (p.args.getD 3 0#64)
  { x := x4.set 63 (BitVec.ofNat 64 (0x7000000000000000 + p.usp)), p := Vector.replicate 8 false, pc := pc }

/-- TID entries from the initial images (R275, R288 step 2). -/
def startTids (images : List (BitVec 512)) : Vector (BitVec 512) 256 :=
  Vector.ofFn fun i => images.getD i.val tidNull

/-- A core at launch start. -/
def startCore (p : Packet) (lr : LoopRec) (images : List (BitVec 512)) (rank phys : Nat) (subs : List Nat) (cc : Nat) : Core :=
  { rank := rank, row := rankRow p.w rank, col := rankCol p.w rank, phys := phys, subs := subs, regs := startRegs p lr.pro,
    vregs := VRegs.start, policy := Policy.zero,
    loop := { phase := .prologue, iter := 0, lap := 0, ckpt := 0, ckptPending := false, pushes := 0 }, sync := Sync.zero,
    tens := { Tensors.zero with tids := startTids images }, eng := Engines.zero, vim := Store.ones,
    muslin := Muslin.zero, port := [], block := .none, commit := .idle, exited := false,
    under := false, raisedAt := (0, 0#7), watch := cc, remote := [], breaks := [], parity := [] }

/-- A scratchpad grant at launch start: zeroed (R288 step 3), the limit rounded up to 256 bytes (R40). -/
def startPad (id : PadId) (limit phys : Nat) : Pad :=
  { id := id, limit := roundUp limit 256, phys := phys, mem := Store.zero, chunks := [] }

/-! ### Abort (R291) -/

/-- A core whose group has aborted: it is stopped, its engines, stream and stores are discarded; its barriers keep
`ext` (R47). -/
def Core.stop (c : Core) : Core :=
  { c with eng := { Engines.zero with nextCmd := c.eng.nextCmd }, muslin := Muslin.zero, port := [], block := .none,
           commit := .idle, under := false, applied := none, faulted := false, remote := [], parity := [],
           sync := { c.sync with due := [], posts := [], arrivals := [], noted := [] } }

/-- Outside arrivals that a BWAIT.X had applied which an abort ends before its result is logged are received and not yet applied
again, in every copy (log entry 73). -/
def Launch.giveBack (l : Launch) : Launch :=
  (l.copies.flatMap fun cp => cp.cores.filterMap fun c => c.applied.map fun a => (c.rank, a)).foldl (fun m x =>
    { m with copies := m.copies.map fun cp => cp.modCore x.1 fun c =>
        { c with sync := { c.sync with barriers := Vector.ofFn fun i =>
            if x.2.1.toNat = i.val then
              { c.sync.barriers[i.val] with ext := BitVec.ofNat 16 (min 65535 (c.sync.barriers[i.val].ext.toNat + x.2.2)) }
            else c.sync.barriers[i.val] } } }) l

/-- A launch whose group has aborted, third execution dropped. -/
def Launch.stopAll (l : Launch) : Launch :=
  let m := l.giveBack
  { m with copies := (m.copies.filter fun c => c.role != .third).map fun c =>
             { c with cores := c.cores.map Core.stop, home := [] },
           third := none, deferred := [], dues := [] }

/-- Cores of a launch stop: the TLBs that owed an acknowledgement take the number at once, and no answer reaches those cores (R338). -/
def State.forget (s : State) (lid : Nat) (role : Role → Bool) : State :=
  let mine (k : CoreRef) : Bool := k.lid == lid && role k.role
  let take (t : State) (d : Shootdown) : State := (d.waiting.filter mine).foldl (fun u k =>
    match u.core? k with
    | some c => u.setTlbs c.phys ((u.tlbsOf c.phys).map fun x => x.drop d)
    | none => u) t
  let s1 := s.shoots.foldl take s
  { s1 with shoots := s1.shoots.map fun d => { d with waiting := d.waiting.filter fun k => !mine k },
            link := { s1.link with reqs := s1.link.reqs.filter fun r => !((match r.who with
              | .core k => mine k
              | .vec k => mine k
              | .anole _ => false
              | .none => false)) } }

/-- Whether a commit point of the launch has released its region and not yet logged its result: an abort waits (R291). -/
def CommitState.busy (c : CommitState) : Bool :=
  match c with
  | .sent _ _ _ => true
  | .answered _ _ _ _ _ => true
  | .closed _ _ => true
  | .releasing _ _ _ => true
  | .idle => false
  | .waiting _ _ _ _ => false

/-- The same of a launch; a BWAIT.X that waits for arrivals holds no abort back (log entry 73). -/
def Launch.busy (l : Launch) : Bool := l.copies.any fun c => c.cores.any fun k => k.commit.busy && k.applied.isNone

/-- Abort a group (R291): all copies in one step, the cause recorded for `sr.fault` (R28). -/
def State.abort (s : State) (lid : Nat) (code src : Nat) (after : After) : State :=
  (s.forget lid fun _ => true).modLaunch lid fun l =>
    let l1 := l.stopAll
    match after with
    | .resume => { l1 with state := .resuming, cause := some (code, src), aborts := min 65535 (l.aborts + 1), preempt := false, forced := false }
    | .park w => { l1 with state := .parked, cause := some (code, src), aborts := min 65535 (l.aborts + 1), park := w,
                           preempt := false, forced := false }
    | .stop e => { l1 with state := .done, ending := some e }

/-- States in which a group runs, or stops because of a cause that has not yet taken effect. -/
def LState.live (x : LState) : Bool := x == .running || x == .checkpointing || x == .aborting

/-- A cause of abort other than a fault arises: it takes effect at the end of the cycle (R293), at once in a group that does not
run. -/
def State.abortSoon (s : State) (l : Launch) (code src : Nat) (after : After) : State :=
  if l.state.live then s.modLaunch l.lid fun m => { m with deferred := m.deferred ++ [.cause code src after] }
  else s.abort l.lid code src after

/-- Kill a launch with the record fields of its deciding fault (R301, R374). -/
def State.kill (s : State) (lid : Nat) (t : Trap) (row col : Nat) : State :=
  s.abort lid t.code t.src
    (.stop { status := 1, src := t.src, code := t.code, row := row, col := col, gang := t.gang, trap := t.trapCode })

/-- A pre-emption takes effect (R294): an abort with cause `src` 6 and code 0; the no-progress count rises when 2 ms have passed
since the resume without a checkpoint, and its fourth rise is reported (R295). -/
def State.preemptNow (s : State) (l : Launch) : State :=
  let stalled := !l.guarded && (l.expired || decide (l.guardFrom + Config.guardCc ≤ s.cc))
  let n := if stalled then l.noprogress + 1 else l.noprogress
  let report := stalled && n == 4
  let s1 := s.abort l.lid 0 6 (.park .place)
  let s2 := s1.modLaunch l.lid fun m => { m with noprogress := n, noprog := m.noprog || report }
  if report then (s2.qErr l.queue 1).postFr 3 l 0 0#64 0 else s2

/-- A pre-emption is asked for; `forced`: whatever the launch's progress guard. -/
def Launch.askPreempt (l : Launch) (forced : Bool) : Launch := { l with preempt := true, forced := l.forced || forced }

/-- A launch's cores that lie on a C-die. -/
def Launch.onDie (l : Launch) (d : Nat) : Bool := l.copies.any fun c => c.cores.any fun k => dieOf k.phys == d

/-- States in which a launch holds its cores. -/
def LState.holds : LState → Bool
  | .running => true
  | .checkpointing => true
  | .aborting => true
  | .resuming => true
  | .parked => false
  | .done => false

/-- A B-die that is in service, for a snapshot moved off a retired chiplet (R381 step 2). -/
def Reliab.liveDie (r : Reliab) : Nat := ((List.range 12).find? fun d => !r.dieRetired d).getD 0

/-! ### Dispositions (Table 10-3) -/

/-- The three dispositions of R374. -/
inductive Disposition where
  | retry | report | kill
deriving DecidableEq, Repr

/-- The disposition of a fault in a launch. `counts` are the consecutive 0x14 and 0x1C aborts so far (R375), `redo`
that a checksum redo is running (R371). -/
def disposition (t : Trap) (redo : Bool) (watchdogs torns : Nat) : Disposition :=
  match t.code with
  | 0x06 => .retry
  | 0x07 => .report
  | 0x10 => if t.durable then .kill else .retry
  | 0x11 => if redo then .kill else .retry
  | 0x14 => if 2 ≤ watchdogs then .kill else .retry
  | 0x18 => .report
  | 0x1C => if 2 ≤ torns then .kill else .retry
  | _ => .kill

/-- The unit a retried uncorrectable error scores when its storage names none: the core (Table 10-8). -/
def Trap.suspects (t : Trap) (c : Core) : List (BitVec 16) := if t.units.isEmpty then [unitId 1 c.phys] else t.units

/-- Scores, holds and records of a detection (R371, R372, R376, R383), and `CR.unit`. -/
def State.score (s : State) (l : Launch) (c : Core) (t : Trap) (d : Disposition) : State :=
  let us := t.suspects c
  let u := us.headD 0#16
  let host := s.ptHost l.part.toNat
  let named (x : State) : State := x.modLaunch l.lid fun m => { m with unit := u.toNat }
  match t.code with
  | 0x11 => named ((s.countSubs us).detect host l.ident 16 t.code u 0#16 0 [(u, 4)] [u])
  | 0x12 => named ((s.countSubs us).detect host l.ident 17 t.code u 0#16 0 (us.map fun x => (x, 2)) [])
  | 0x10 =>
      if d = .retry then named (s.detect host l.ident 22 t.code u 0#16 0 [(u, 4)] (if unitKind u = 10 then [] else [u]))
      else s.detect host l.ident 22 t.code (t.units.headD 0#16) 0#16 0 [] []
  | _ => s

/-- Snapshots on a retired chiplet whose B-die cannot be read are lost with their launches (R381); whether it can be read is open. -/
def State.loseSnapshots (s : State) : State :=
  let on (l : Launch) : Bool := l.snap.isSome && l.state != .done && s.rel.dieRetired l.snapDie
  let t : Trap := { Trap.mk' 0x10 with src := 5, durable := true }
  if s.launches.any on then
    (s.launches.filter on).foldl (fun u l =>
      if Config.freeBool (s.freeCtr + l.snapDie) then
        (match (l.copy? .primary).bind fun c => c.cores.head? with
         | some c => u.score l c t .kill
         | none => u).abortSoon l t.code t.src
          (.stop { status := 1, src := t.src, code := t.code, row := 0, col := 0, gang := false, trap := 0#32 })
      else u) { s with freeCtr := s.freeCtr + 12 }
  else s

/-- Launches with cores on a retired chiplet are to be pre-empted whatever their guard, and snapshots move (R381). -/
def State.sweepRetired (s : State) : State :=
  let s1 := s.loseSnapshots
  let hit (l : Launch) : Bool := l.state.live && (List.range 12).any fun d => s.rel.dieRetired d && l.onDie d
  { s1 with launches := s1.launches.map fun l =>
      let m := if hit l then l.askPreempt true else l
      if s.rel.dieRetired m.snapDie then { m with snapDie := s.rel.liveDie } else m }

/-- A context enters state stopped: every running group of it aborts with Poisoned Translation and parks (R328). -/
def State.stopContext (s : State) (ctx : BitVec 6) : State :=
  let s1 := s.sysSetF (cxOff ctx) 0 2 2
  let hit := s1.launches.filter fun l => l.ctx == ctx && (l.state == .running || l.state == .checkpointing)
  hit.foldl (fun t l => t.abortSoon l 0x07 0 (.park .context)) s1

/-- Executions of an address counted at a breakpoint (R394). -/
def Core.hitsAt (c : Core) (va : Word) : Nat := ((c.breaks.find? fun b => b.va == va).map fun b => b.hits).getD 0

/-- A fault in a launch copy other than the third execution (R374, R375). -/
def State.groupFault (s : State) (l : Launch) (c : Core) (t : Trap) : State :=
  let d := disposition t l.redo l.watchdogs l.torns
  let s1 := (s.score l c t d).modLaunch l.lid fun m => { m with spc := t.spc }
  match d with
  | .kill => (s1.kill l.lid t c.row c.col).sweepRetired
  | .report =>
      if t.code = 0x18 then
        (let hits := c.hitsAt t.addr
         let s2 := s1.postEvent [s1.ptHost l.part.toNat] (reWords 23 t.code 0 0 0 hits l.ident s1.cc)
         s2.abort l.lid t.code t.src (.park (.resolve s2.evSeq)))
      else
        (let s2 := s1.postFr t.ev l t.acc t.addr t.dpa
         let s3 := s2.abort l.lid t.code t.src (.park .context)
         s3.stopContext l.ctx)
  | .retry =>
      if t.code = 0x06 then
        (let s2 := s1.postFr 1 l t.acc t.addr 0
         s2.abort l.lid t.code t.src (.park (.resolve s2.evSeq)))
      else
        (let s2 := s1.abort l.lid t.code t.src .resume
         let s3 := s2.modLaunch l.lid fun m =>
           { m with redo := m.redo || t.code == 0x11, watchdogs := if t.code = 0x14 then m.watchdogs + 1 else m.watchdogs,
                    torns := if t.code = 0x1C then m.torns + 1 else m.torns }
         s3.sweepRetired)

/-- A fault in a third execution (R369): a kill ends the launch; a first abort makes it start again from the checkpoint, once
what the fault waits for has come (R374); a second kills the launch with that fault. -/
def State.thirdFault (s : State) (l : Launch) (c : Core) (t : Trap) : State :=
  let d := disposition t false l.watchdogs l.torns
  let n : Nat := (l.third.map fun x => x.aborts).getD 0
  let s1 := s.score l c t (if 1 ≤ n then .kill else d)
  let again (w : ParkFor) (s : State) : State := (s.forget l.lid fun r => r == .third).modLaunch l.lid fun m =>
    { m with third := m.third.map fun x => { x with aborts := x.aborts + 1, wait := w },
             copies := m.copies.filter fun k => k.role != .third }
  if d = .kill || 1 ≤ n then (s1.kill l.lid t c.row c.col).sweepRetired
  else if t.code = 0x06 then
    (let s2 := s1.postFr 1 l t.acc t.addr 0
     again (.resolve s2.evSeq) s2)
  else if t.code = 0x07 then again .context ((s1.postFr t.ev l t.acc t.addr t.dpa).stopContext l.ctx)
  else if t.code = 0x18 then
    (let s2 := s1.postEvent [s1.ptHost l.part.toNat] (reWords 23 t.code 0 0 0 (c.hitsAt t.addr) l.ident s1.cc)
     again (.resolve s2.evSeq) s2)
  else (again .place s1).sweepRetired

/-- A fault of a core of a launch: the core stops, and the cause is weighed at the end of the cycle (R293), after a commit point in
progress (R291) and, during a firmware update, when the firmware serves again (R404 step 2). -/
def State.coreFault (s : State) (k : CoreRef) (t : Trap) : State :=
  match s.launch? k.lid, s.core? k with
  | some l, some c =>
      if k.role = .third then s.thirdFault l c t
      else if l.state.live then
        (s.modLaunch k.lid fun m => { m with deferred := m.deferred ++ [.fault t k.role k.rank] }).modCore k fun c => { c with faulted := true }
      else s
  | _, _ => s

/-- Precedence of a cause (R293), the lowest first: the end of the launch from outside, a fault by disposition, rank, unit and copy,
another cause, a pre-emption. -/
def Deferred.key (l : Launch) (d : Deferred) : Nat :=
  match d with
  | .cause _ _ (.stop _) => 0
  | .fault t role rank =>
      1 + (if disposition t l.redo l.watchdogs l.torns = .kill then 0 else 1000000) + rank * 1000 + t.src * 2 + (if role = .primary then 0 else 1)
  | .cause _ _ _ => 3000000
  | .preempt => 4000000

/-- The cause that decides. -/
def Launch.decisive (l : Launch) : Option Deferred :=
  l.deferred.foldl (fun (b : Option Deferred) d => match b with
    | none => some d
    | some e => if d.key l < e.key l then some d else some e) none

/-- A launch's abort takes effect, when it need not wait any longer: at the end of a cycle, or when the commit point it waited for
is logged. -/
def State.runDeferredOf (s : State) (lid : Nat) : State :=
  match s.launch? lid with
  | none => s
  | some l =>
      match l.decisive with
      | none => s
      | some d =>
          if l.busy || !s.fwServes then s.modLaunch lid fun m => { m with state := .aborting }
          else match d with
            | .cause code src after => s.abort lid code src after
            | .preempt => s.preemptNow l
            | .fault tr role rank =>
                match s.core? { lid := lid, role := role, rank := rank } with
                | some c => s.groupFault l c tr
                | none => s.groupFault l (startCore l.packet l.lrec [] rank 0 [] s.cc) tr

/-- The same for every launch. -/
def State.runDeferred (s : State) : State := s.launches.foldl (fun t l => t.runDeferredOf l.lid) s

/-! ### Anole cores (R396) -/

/-- Read one of an Anole core's registers. -/
def State.an (s : State) (a : BitVec 4) (off : Nat) : Word := s.sysW (anOff a + off)

/-- p1 to p7 as AN.spr holds them. -/
def predWord (r : Regs) : Word :=
  BitVec.ofNat 64 ((List.range 8).foldl (fun n i => n + (if r.pred (BitVec.ofNat 3 i) && i != 0 then 2 ^ i else 0)) 0)

/-- Restore p1 to p7. -/
def predsOf (r : Regs) (w : Word) : Regs := { r with p := Vector.ofFn fun i => w.getLsbD i.val }

/-- Whether an Anole core is in its handler. -/
def State.anIn (s : State) (a : BitVec 4) : Bool := s.sysF (anOff a + 24) 8 1 == 1

/-- A fault on an Anole core: saved registers written, `in` set, execution at AN.vec; a fault in the handler halts
the core and clears its ready bit. -/
def State.anoleFault (s : State) (a : BitVec 4) (t : Trap) : State :=
  let r := s.anoles[a.toNat].regs
  if s.anIn a then
    (let s1 := s.sysSetF 8 (40 + a.toNat) 1 0
     s1.modAnole a fun c => { c with halted := true })
  else
    (let s1 := s.sysPut (anOff a + 8) r.pc
     let s2 := s1.sysPut (anOff a + 16) (predWord r)
     let s3 := s2.sysPut (anOff a + 24) (BitVec.ofNat 64 (256 + t.code))
     let s4 := s3.sysPut (anOff a + 32) t.addr
     s4.modAnole a fun c => { c with regs := r.setPc (s.an a 0), block := .none, commit := .idle, remote := [] })

/-- SYSRET's effect on an Anole core (R165): p1 to p7 and the pc come back, `in` clears. -/
def State.anoleReturn (s : State) (a : BitVec 4) : State :=
  let s1 := s.sysSetF (anOff a + 24) 8 1 0
  s1.modAnole a fun c => { c with regs := (predsOf c.regs (s.an a 16)).setPc (s.an a 8) }

/-- TAKING A FAULT, the one shared operation: what the agent whose instruction, command or stream raised it does
then. -/
def State.takeFault (s : State) (a : Agent) (t : Trap) : State :=
  match a with
  | .core k => s.coreFault k t
  | .vec k => s.coreFault k t
  | .anole i => s.anoleFault i t
  | .none => s

/-- The commit point of an agent's instruction ends with the fault that the instruction raises. -/
def State.endCommit (s : State) (a : Agent) : State :=
  match a with
  | .core k => s.modCore k fun c => { c with commit := .idle }
  | .vec _ => s
  | .anole _ => s
  | .none => s

/-! ### Resume (R47, R292) -/

/-- One value per index: carried when its mask bit is set, else the launch-start value. -/
def carry {α : Type} {n : Nat} (mask : BitVec 128) (lo : Nat) (snap start : Vector α n) : Vector α n :=
  Vector.ofFn fun i => if mask.getLsbD (lo + i.val) then snap[i.val] else start[i.val]

/-- A core at resume: the Resume column of Table 01-11. `c` is the aborted core, whose `ext` counts are kept. -/
def resumeCore (l : Launch) (sn : Option CoreSnap) (c : Core) (phys : Nat) (subs : List Nat) (cc : Nat) : Core :=
  let b := startCore l.packet l.lrec l.images c.rank phys subs cc
  let keepExt (bs : Vector Barrier 128) : Vector Barrier 128 :=
    Vector.ofFn fun i => { bs[i.val] with ext := c.sync.barriers[i.val].ext }
  let breaks := c.breaks.map fun x => { x with hits := 0 }
  match sn with
  | none => { b with sync := { b.sync with barriers := keepExt b.sync.barriers }, breaks := breaks }
  | some n =>
      let m := l.lrec.cmask
      { b with
        regs := { x := carry m 0 n.regs.x b.regs.x, p := carry m 64 n.regs.p b.regs.p, pc := l.lrec.pro }
        vregs := { b.vregs with k := carry m 72 n.vregs.k b.vregs.k, a := carry m 88 n.vregs.a b.vregs.a,
                                c := carry m 104 n.vregs.c b.vregs.c }
        policy := n.policy
        loop := { n.loop with phase := .prologue, ckptPending := false, pushes := 0 }
        sync := { b.sync with
          tokens := Vector.ofFn fun i => { Token.zero with count := n.counts.getD i.val 0, base := n.counts.getD i.val 0 }
          calico := n.calico
          barriers := keepExt n.barriers }
        tens := { b.tens with tids := n.tids, norms := n.norms, banks := n.banks }
        breaks := breaks }

/-- The scratchpads of a copy at resume: carried ranges restored, all else zero. -/
def resumePad (sn : Option Snapshot) (p : Pad) (phys : Nat) : Pad :=
  let b := startPad p.id p.limit phys
  match sn with
  | none => b
  | some n => { b with mem := n.ranges.foldl (fun m r => if r.1 = p.id then m.put r.2.1 r.2.2 else m) b.mem }

/-- `sr.fault` after a resume from a cause (R24, R28). -/
def faultWord (cause : Option (Nat × Nat)) : Word :=
  match cause with
  | some (code, src) => BitVec.ofNat 64 (src * 512 + 256 + code)
  | none => 0#64

end Sys2Proof.Machine
end

