-- ==== Sys2Proof/Machine/Act.lean ====
section
/-! DEFINITION. The shape of a meaning: an action on the state that ends with a value, stalls, or raises a fault;
and how a scalar instruction is run from it (guard, pc, fault). -/

namespace Sys2Proof.Machine

/-- Why an action ends early: a fault, or a stall (it is tried again at the agent's next turn). -/
inductive Stop where
  | trap (t : Trap)
  | hold
deriving DecidableEq, Repr

/-- An action: a state transformer that may stop; the state at the stop is kept. -/
abbrev Act := StateT State (Except (Stop × State))

/-- Raise a fault. -/
def raise {α : Type} (t : Trap) : Act α := fun s => .error (.trap t, s)
/-- Raise a control-core fault by code and faulting address. -/
def raiseC {α : Type} (code : Nat) (addr : Word := 0#64) : Act α := raise (Trap.mk' code addr)
/-- Stall. -/
def hold {α : Type} : Act α := fun s => .error (.hold, s)
/-- Raise a fault when a condition holds. -/
def raiseIf (c : Bool) (t : Trap) : Act Unit := if c then raise t else pure ()
/-- Stall while a condition holds. -/
def holdIf (c : Bool) : Act Unit := if c then hold else pure ()
/-- The next free choice. -/
def chooseB : Act Bool := fun s => .ok (Config.freeBool s.freeCtr, { s with freeCtr := s.freeCtr + 1 })
/-- The next free number. -/
def chooseN : Act Nat := fun s => .ok (Config.freeNat s.freeCtr, { s with freeCtr := s.freeCtr + 1 })
/-- A value that must exist in any state a run reaches; a stall otherwise. -/
def need {α : Type} (o : Option α) : Act α :=
  match o with
  | some a => pure a
  | none => hold

/-- What follows an instruction that completes: the next address, or another. -/
inductive Next where
  | adv
  | goto (pc : Word)
deriving DecidableEq, Repr

/-- Run an action as an instruction of `len` bytes of agent `a`: a fault is taken, a stall keeps the pc. -/
def runAct (a : Agent) (len : Nat) (act : Act Next) (s : State) : State :=
  match act s with
  | .ok (.adv, s') => s'.modRegsOf a fun r => r.skip len
  | .ok (.goto pc, s') => s'.modRegsOf a fun r => r.setPc pc
  | .error (.trap t, s') => (s'.endCommit a).takeFault a t
  | .error (.hold, s') => s'

/-- Run an action that is no instruction (a step of an engine or of the device): nothing advances, and a fault is
that agent's. -/
def runStep (a : Agent) (act : Act Unit) (s : State) : State :=
  match act s with
  | .ok ((), s') => s'
  | .error (.trap t, s') => s'.takeFault a t
  | .error (.hold, s') => s'

/-- A scalar instruction: guard, registers of the current agent, and its action (R53, R112). -/
def scalar (g : BitVec 4) (len : Nat) (s : State) (act : Regs → Act Next) : Host.Outcome State Fault Refusal :=
  match s.regs? with
  | none => .fault .noAgent
  | some r => if r.guard g then .next (runAct s.cur len (act r) s) else .next (s.modRegs fun r => r.skip len)

/-- A scalar instruction that only writes one x register from registers (R115 to R117, R120, R121). -/
def scalarX (d : BitVec 6) (g : BitVec 4) (len : Nat) (s : State) (f : Regs → Word) : Host.Outcome State Fault Refusal :=
  match s.regs? with
  | none => .fault .noAgent
  | some r => if r.guard g then .next (s.modRegs fun _ => (r.set d (f r)).skip len) else .next (s.modRegs fun r => r.skip len)

/-- A scalar instruction that only writes one predicate (R118, R119). -/
def scalarP (d : BitVec 3) (g : BitVec 4) (len : Nat) (s : State) (f : Regs → Bool) : Host.Outcome State Fault Refusal :=
  match s.regs? with
  | none => .fault .noAgent
  | some r =>
      if r.guard g then .next (s.modRegs fun _ => (r.setPred d (f r)).skip len) else .next (s.modRegs fun r => r.skip len)

/-- Length of an SR instruction in bytes (R52). -/
def srLen (b : Src) : Nat :=
  match b with
  | .reg _ => 4
  | .lit32 _ => 8
  | .lit64 _ => 12

/-- The core whose control core acts, with its launch and copy; launch-state instructions on an Anole core are
Illegal Encoding (R396). -/
def theCore : Act (CoreRef × Launch × Copy × Core) := fun s =>
  match s.cur with
  | .core k =>
      (match s.launch? k.lid, s.copy? k, s.core? k with
       | some l, some cp, some c => .ok ((k, l, cp, c), s)
       | _, _, _ => .error (.hold, s))
  | .anole _ => .error (.trap (Trap.mk' 0x01), s)
  | .vec _ => .error (.hold, s)
  | .none => .error (.hold, s)

/-- Write an x register of the current agent. -/
def setX (d : BitVec 6) (v : Word) : Act Unit := modify fun s => s.modRegs fun r => r.set d v

/-- Change a core. -/
def onCore (k : CoreRef) (f : Core → Core) : Act Unit := modify fun s => s.modCore k f

/-- Read a core again after a change. -/
def coreNow (k : CoreRef) : Act Core := do
  let s ← get
  need (s.core? k)

end Sys2Proof.Machine
end

