-- ==== Sys2Proof/Machine/Translate.lean ====
section
/-! DEFINITION. Translation of VIRT (R326 to R343): versioned-region lookup, the five-level walk with mirrors, the
64 KiB groups, TLBs, and the access-table check. -/

namespace Sys2Proof.Machine

/-! ### Who accesses, and how -/

/-- Access kinds of R334. -/
inductive Kind where
  | read | write | atomic | fetch | record
deriving DecidableEq, Repr

/-- Code of an access kind in `FR.acc`. -/
def Kind.code : Kind → Nat
  | .read => 0 | .write => 1 | .atomic => 2 | .fetch => 3 | .record => 4

/-- The right of the access table an access needs (R389); a record access is a write. -/
def Kind.right : Kind → Right
  | .read => .read | .write => .write | .atomic => .atomic | .fetch => .fetch | .record => .write

/-- The accessing unit: agent, `src` of its faults, and its TLB (R335). -/
structure Who where
  agent : Agent
  src : Nat
  tlb : Nat
deriving DecidableEq, Repr

/-- A translated location: its address after redirection, its node when remote, its DPA. -/
structure Phys where
  va : Nat
  node : Option (BitVec 12)
  dpa : Nat
deriving DecidableEq, Repr

/-- A translation fault. -/
def Who.trap (w : Who) (code : Nat) (va : Nat) (k : Kind) (ev dpa : Nat) : Trap :=
  { code := code, src := w.src, addr := BitVec.ofNat 64 va, acc := k.code, ev := ev, dpa := dpa, trapCode := 0#32,
    units := [], durable := false, gang := false }

/-! ### Versioned regions (R341 to R343) -/

/-- A live versioned region: id, slot size in bytes, slots, base address, DPA of its descriptor. -/
structure Region where
  id : Nat
  size : Nat
  slots : Nat
  base : Nat
  at' : Nat
deriving DecidableEq, Repr

/-- DPA of a region's descriptor. -/
def State.vrAt (s : State) (ctx : BitVec 6) (id : Nat) : Nat := s.cxVrt ctx + 128 * id

/-- A live region by id. -/
def State.region? (s : State) (ctx : BitVec 6) (id : Nat) : Option Region :=
  let a := s.vrAt ctx id
  let w := s.dramWord a
  if id ≠ 0 && id < 4096 && bitAt w 15 then
    some { id := id, size := fieldNat w 16 32 * 65536, slots := fieldNat w 12 3, base := (s.dramWord (a + 8)).toNat % 2 ^ 52, at' := a }
  else none

/-- The ids whose descriptors hold a nonzero byte, which every live one does. -/
def State.regionIds (s : State) (ctx : BitVec 6) : List Nat :=
  let t := s.cxVrt ctx
  ((s.dram.cells.filter fun c => t + 128 ≤ c.1 && c.1 < t + 524288).map fun c => (c.1 - t) / 128).eraseDups

/-- The live regions of a context. -/
def State.regions (s : State) (ctx : BitVec 6) : List Region := (s.regionIds ctx).filterMap (s.region? ctx)

/-- The region whose view holds an address. -/
def State.regionOfView (s : State) (ctx : BitVec 6) (va : Nat) : Option Region :=
  (s.regions ctx).find? fun g => g.base ≤ va && va < g.base + g.size

/-- Whether an address lies in a slot range of some region. -/
def State.inSlots (s : State) (ctx : BitVec 6) (va : Nat) : Bool :=
  (s.regions ctx).any fun g => g.base + g.size ≤ va && va < g.base + (g.slots + 1) * g.size

/-- Count, tag and state of slot i of a region. -/
def State.slotCount (s : State) (g : Region) (i : Nat) : Nat := fieldNat (s.dramWord (g.at' + 16 + 16 * i)) 32 32
def State.slotTag (s : State) (g : Region) (i : Nat) : BitVec 32 :=
  BitVec.ofNat 32 (fieldNat (s.dramWord (g.at' + 16 + 16 * i)) 0 32)
def State.slotState (s : State) (g : Region) (i : Nat) : Nat := fieldNat (s.dramWord (g.at' + 24 + 16 * i)) 0 3

/-- Set a slot. -/
def State.slotPut (s : State) (g : Region) (i : Nat) (count : Nat) (tag : BitVec 32) (st : Nat) : State :=
  (s.dramPutWord (g.at' + 16 + 16 * i) (BitVec.ofNat 64 (count * 2 ^ 32 + tag.toNat))).dramPutWord
    (g.at' + 24 + 16 * i) (BitVec.ofNat 64 st)

/-- The first slot that satisfies a test on (state, tag, count). -/
def State.findSlot (s : State) (g : Region) (f : Nat → BitVec 32 → Nat → Bool) : Option Nat :=
  (List.range g.slots).find? fun i => f (s.slotState g i) (s.slotTag g i) (s.slotCount g i)

/-- The slot a binding selects (R343): live or retiring, tagged with the bound version. -/
def State.boundSlot (s : State) (g : Region) (b : Option (BitVec 32)) : Option Nat :=
  match b with
  | none => none
  | some v => s.findSlot g fun st tag _ => (st == 3 || st == 4) && tag == v

/-! ### The walk (R329 to R333) -/

/-- What a walk finds: a leaf with its first page address, size and attributes, an invalid entry, or a poisoned or
malformed page (event kind, DPA of the table page). -/
inductive WalkRes where
  | leaf (e : TlbEntry)
  | invalid
  | poisoned (kind dpa : Nat)
deriving DecidableEq, Repr

/-- The mirror of an HBM address (R333). -/
def mirrorDpa (dpa : Nat) : Nat := dpa - dpa / 2 ^ 36 % 16 * 2 ^ 36 + (dpa / 2 ^ 36 % 16 + 6) % 12 * 2 ^ 36

/-- Read a table entry: the primary, else the mirror with a repair and an event of kind 5, else nothing. `host`
receives the event. -/
def State.readEntry (s : State) (ctx : BitVec 6) (part : BitVec 4) (page at' : Nat) : Option Word × State :=
  if !s.dram.badIn at' 8 then (some (s.dramWord at'), s)
  else if !s.dram.badIn (mirrorDpa at') 8 then
    (let w := s.dramWord (mirrorDpa at')
     let s1 := s.dramPutWord at' w
     (some w, s1.postEvent [s1.ptHost part.toNat] (frWords 5 ctx 0 part.toNat 0#64 page 0#64)))
  else (none, s)

/-- Table levels (Table 09-3): index of the address, and the leaf size (0: no leaf at this level). -/
def levelIdx (lvl va : Nat) : Nat :=
  match lvl with
  | 0 => va / 2 ^ 48 % 16
  | 1 => va / 2 ^ 39 % 512
  | 2 => va / 2 ^ 30 % 512
  | 3 => va / 2 ^ 21 % 512
  | _ => va / 2 ^ 12 % 512

/-- Leaf size by level. -/
def leafSize (lvl : Nat) : Nat :=
  match lvl with
  | 2 => 2 ^ 30
  | 3 => 2 ^ 21
  | 4 => 2 ^ 12
  | _ => 0

/-- `frame` of an entry, as a DPA. -/
def pteFrame (e : Word) : Nat := fieldNat e 12 36 * 4096
/-- `C` of an entry. -/
def pteC (e : Word) : Bool := bitAt e 11

/-- Whether an entry is malformed at a level (R331), an invalid one by a nonzero res0 field. -/
def pteBad (e : Word) (lvl va : Nat) : Bool :=
  let ty := fieldNat e 0 2
  let frame := pteFrame e
  let rm := bitAt e 63
  ty == 3 || fieldNat e 2 6 != 0 || fieldNat e 60 3 != 0 || (ty == 0 && !rm && fieldNat e 48 12 != 0) ||
  (ty == 1 && (lvl == 4 || rm || fieldNat e 48 12 != 0 || pteC e || decide (frame / 2 ^ 44 ≠ 0) || !dpaOk frame)) ||
  (ty == 2 && (leafSize lvl == 0 || (pteC e && lvl != 4) || (!rm && fieldNat e 48 12 != 0) ||
    (let size := if pteC e then 65536 else leafSize lvl
     let back := if pteC e then va / 4096 % 16 * 4096 else 0
     decide (frame < back) || decide ((frame - back) % size ≠ 0) || !dpaOk (frame - back) || !dpaOk (frame - back + size - 1) ||
     (rm && decide (2 ≤ frame / 2 ^ 44)))))

/-- A leaf as a translation of the page that holds `va`. -/
def leafOf (ctx : BitVec 6) (e : Word) (va size frame : Nat) : TlbEntry :=
  { ctx := ctx, va := va / size * size, size := size, node := if bitAt e 63 then some (e.extractLsb' 48 12) else none,
    dpa := frame, w := bitAt e 9, x := bitAt e 8, rc := bitAt e 10 }

/-- Whether the 16 entries of a group agree (R332): all carry C, share RM, node, REC, W and X, and run on. -/
def groupOk (es : List Word) : Bool :=
  let e0 := es.headD 0#64
  let attr (e : Word) : Nat × Nat := (fieldNat e 48 16, fieldNat e 8 4)
  (es.zipIdx.all fun p => fieldNat p.1 0 2 == 2 && attr p.1 == attr e0 && pteC p.1 && decide (pteFrame p.1 = pteFrame e0 + 4096 * p.2))

/-- The entries of an L3 group, in order, as they can be read without a repair; unreadable ones read as invalid. -/
def State.peekGroup (s : State) (page first : Nat) : List Word :=
  (List.range 16).map fun i =>
    let a := page + 8 * (first + i)
    if !s.dram.badIn a 8 then s.dramWord a else if !s.dram.badIn (mirrorDpa a) 8 then s.dramWord (mirrorDpa a) else 0#64

/-- The walk reads the entries of an L3 group, which it does for an entry that carries `C` (R332, R333). -/
def readGroup (ctx : BitVec 6) (part : BitVec 4) (page first : Nat) : Nat → State → State
  | 0, s => s
  | n + 1, s => ((readGroup ctx part page first n s).readEntry ctx part page (page + 8 * (first + n))).2

/-- The walk below a table page, `fuel` levels left (R329). -/
def walkFrom (ctx : BitVec 6) (part : BitVec 4) (va : Nat) : Nat → Nat → State → WalkRes × State
  | 0, _, s => (.invalid, s)
  | fuel + 1, page, s =>
      let lvl := 4 - fuel
      let i := levelIdx lvl va
      let (o, s1) := s.readEntry ctx part page (page + 8 * i)
      match o with
      | none => (.poisoned 2 page, s1)
      | some e =>
          if pteBad e lvl va then (.poisoned 4 page, s1)
          else if lvl = 4 then
            (let es := s1.peekGroup page (i / 16 * 16)
             let s2 := if pteC e then readGroup ctx part page (i / 16 * 16) 16 s1 else s1
             let cs := es.zipIdx.filter fun p => fieldNat p.1 0 2 == 2 && pteC p.1 && !pteBad p.1 4 (va / 65536 * 65536 + 4096 * p.2)
             if groupOk es then (.leaf (leafOf ctx e va 65536 (pteFrame (es.headD 0#64))), s2)
             else
               (let own : WalkRes := if fieldNat e 0 2 = 0 then .invalid else .leaf (leafOf ctx e va 4096 (pteFrame e))
                if cs.isEmpty then (own, s2)
                else
                  -- an inconsistent group: the entry itself, or the group as any of its C entries gives it (R332)
                  (let n := Config.freeNat s2.freeCtr % (cs.length + 1)
                   let s3 := { s2 with freeCtr := s2.freeCtr + 1 }
                   match cs[n]? with
                   | none => (own, s3)
                   | some p => (.leaf (leafOf ctx p.1 va 65536 (pteFrame p.1 - 4096 * p.2)), s3))))
          else if fieldNat e 0 2 = 0 then (.invalid, s1)
          else if fieldNat e 0 2 = 1 then walkFrom ctx part va fuel (pteFrame e) s1
          else (.leaf (leafOf ctx e va (leafSize lvl) (pteFrame e)), s1)

/-- The addresses that an entry of a table of a level covers. -/
def levelSize (lvl : Nat) : Nat :=
  match lvl with
  | 0 => 2 ^ 48
  | 1 => 2 ^ 39
  | 2 => 2 ^ 30
  | 3 => 2 ^ 21
  | _ => 2 ^ 12

/-- The table entries on the way of a walk (R335), from a table page on. -/
def State.tablesFrom (s : State) (ctx : BitVec 6) (va : Nat) : Nat → Nat → List TlbTable
  | 0, _ => []
  | fuel + 1, page =>
      let lvl := 4 - fuel
      let a := page + 8 * levelIdx lvl va
      let e := if s.dram.badIn a 8 then s.dramWord (mirrorDpa a) else s.dramWord a
      if fieldNat e 0 2 = 1 then
        { ctx := ctx, va := va / levelSize lvl * levelSize lvl, size := levelSize lvl, lvl := lvl + 1, page := pteFrame e } ::
          s.tablesFrom ctx va fuel (pteFrame e)
      else []

/-- The whole walk of a context (R329). -/
def State.walk (s : State) (ctx : BitVec 6) (part : BitVec 4) (va : Nat) : WalkRes × State :=
  walkFrom ctx part va 5 (s.cxRoot ctx) s

/-! ### Lookup and rights (R334, R337) -/

/-- A TLB's translation of an address. -/
def Tlb.find (t : Tlb) (ctx : BitVec 6) (va : Nat) : Option TlbEntry :=
  t.entries.find? fun e => e.ctx == ctx && e.va ≤ va && va < e.va + e.size

/-- The agent whose TLB an accessor uses; packet validation uses that of Anole core 0 (log entry 76). -/
def State.tlbOwner (s : State) (w : Who) : Nat :=
  match w.agent with
  | .core k => ((s.core? k).map fun c => c.phys).getD 0
  | .vec k => ((s.core? k).map fun c => c.phys).getD 0
  | .anole a => anoleAgent a.toNat
  | .none => anoleAgent 0

/-- The translations of an address that cached entries still give and that differ from `now`: the leaf, or the walk from a cached table
entry (R335, R337). -/
def State.oldLeaves (s : State) (t : Tlb) (ctx : BitVec 6) (part : BitVec 4) (va : Nat) (now : WalkRes) : List TlbEntry :=
  ((t.find ctx va).toList ++ ((t.tables.filter fun x => x.ctx == ctx && x.va ≤ va && va < x.va + x.size).filterMap fun x =>
    match (walkFrom ctx part va (5 - x.lvl) x.page s).1 with
    | .leaf e => some e
    | .invalid => none
    | .poisoned _ _ => none)).eraseDups.filter fun e => now != .leaf e

/-- One of some translations, or none of them, freely. -/
def pickLeaf : List TlbEntry → Act (Option TlbEntry)
  | [] => pure none
  | e :: t => do
      if ← chooseB then pure (some e) else pickLeaf t

/-- A translation by the TLB or a walk, which fills the TLB. Where cached entries give others, each access uses one of them or the new
one (R337). -/
def lookup (w : Who) (ctx : BitVec 6) (part : BitVec 4) (va : Nat) (k : Kind) : Act TlbEntry := do
  let s ← get
  let o := s.tlbOwner w
  let t := s.tlb o w.tlb
  let (r, s1) := s.walk ctx part va
  let old ← pickLeaf (s.oldLeaves t ctx part va r)
  match old with
  | some e => pure e
  | none =>
      match r with
      | .leaf e =>
          if t.find ctx va = some e then pure e
          else do
            set (s1.modTlb o w.tlb fun t => t.fill e (s.tablesFrom ctx va 5 (s.cxRoot ctx)))
            pure e
      | .invalid => do
          set s1
          raise (w.trap 0x06 va k 1 0)
      | .poisoned ev dpa => do
          set s1
          raise (w.trap 0x07 va k ev dpa)

/-- The access-table check of a translated access: remote frames are checked at their home (R389). -/
def rightOk (s : State) (part : BitVec 4) (node : Option (BitVec 12)) (dpa : Nat) (k : Kind) : Bool :=
  match node with
  | some _ => true
  | none => s.dpaRight (32 + part.toNat) dpa k.right

/-- `Translate` of R334 for a core of a launch. `fixed` names by region the
slots that the access uses whatever the binding: the open slot of a store-engine write, the state slot of a UPD read. -/
def translate (w : Who) (l : Launch) (cp : Copy) (va : Nat) (k : Kind) (fixed : List (Nat × Nat)) : Act Phys := do
  let s ← get
  let va' ← (match s.regionOfView l.ctx va with
    | some g =>
        (match (fixed.find? fun x => x.1 == g.id).map fun x => x.2, k with
         | some i, .read => pure (va + (i + 1) * g.size)
         | some i, .write => pure (va + (i + 1) * g.size)
         | none, .read =>
             (match s.boundSlot g cp.binding with
              | some i => pure (va + (i + 1) * g.size)
              | none => raise (w.trap 0x08 va k 0 0))
         | _, _ => raise (w.trap 0x08 va k 0 0) : Act Nat)
    | none => if s.inSlots l.ctx va && k != .read then raise (w.trap 0x08 va k 0 0) else pure va)
  let e ← lookup w l.ctx l.part va' k
  raiseIf ((k == .write || k == .atomic) && (!e.w || e.rc)) (w.trap 0x05 va k 0 0)
  raiseIf (k == .record && !e.rc) (w.trap 0x05 va k 0 0)
  raiseIf (k == .fetch && !e.x) (w.trap 0x05 va k 0 0)
  let dpa := e.dpa + (va' - e.va)
  raiseIf (!rightOk (← get) l.part e.node dpa k) (w.trap 0x05 va k 0 0)
  pure { va := va', node := e.node, dpa := dpa }

end Sys2Proof.Machine
end

