-- ==== Sys2Proof/Machine/Link.lean ====
section
/-! DEFINITION. Requests to other nodes (R397 to R400): routes, tags, and the 64-byte lines that loads wait for. -/

namespace Sys2Proof.Machine

/-- Ports named by the route-table entry of a node that are up (R398). -/
def State.livePorts (s : State) (n : BitVec 12) : Nat :=
  s.sysF (rtOff n) (rtOff n % 8 * 8) 18 &&& s.sysF 16 14 18

/-- Whether a node can be reached. -/
def State.reachable (s : State) (n : BitVec 12) : Bool := s.livePorts n != 0

/-- The port that a message to a node takes, by the hash of R398 (log entry 8). -/
def State.portFor (s : State) (n : BitVec 12) (key : Nat) : Nat :=
  let live := (List.range 18).filter fun i => (s.livePorts n).testBit i
  live.getD (Config.portHash s.node.toNat n.toNat key % max 1 live.length) 0

/-- What the hash of a message takes beside its nodes: the queue index of an enqueue, else the line address. -/
def linkKey (m : LinkMsg) : Nat := if m.op = 6#6 || m.op = 7#6 then fieldNat m.addr 0 16 else m.addr.toNat / 64

/-- Whether no new flit of a channel may start on a port: it is paused, or earlier messages of it wait (R400). -/
def State.linkBlocked (s : State) (port : Nat) (vc : BitVec 2) : Bool :=
  (s.link.pauses.any fun p => p.1 == port && p.2.1 == vc && decide (s.cc < p.2.2)) ||
    s.link.held.any fun h => h.1 == port && h.2.vc == vc

/-- Send a message on its port and channel (R398, R400); one to a node without a live port is not sent. -/
def State.transmit (s : State) (m : LinkMsg) : State :=
  if !s.reachable m.dst then s
  else
    (let p := s.portFor m.dst (linkKey m)
     if s.linkBlocked p m.vc then { s with link := { s.link with held := s.link.held ++ [(p, m)] } }
     else { s with link := { s.link with out := s.link.out ++ [(p, m)] } })

/-- The header beat of a message (Table 11-5). -/
def linkHeader (m : LinkMsg) : BitVec 128 :=
  m.dst ++ m.src ++ m.part ++ m.vc ++ m.op ++ m.tag ++ m.stat ++ m.len ++ m.addr

/-- A message in flits of 64 bytes, the lowest first (R399): the header beat and 48 bytes of payload, then 64 bytes a flit; what the
payload leaves of the last flit is zero (log entry 41). -/
def linkFlits (m : LinkMsg) : List (List Byte) :=
  let pad (bs : List Byte) (n : Nat) : List Byte := bs ++ List.replicate (n - bs.length) 0#8
  (natLe 16 (linkHeader m).toNat ++ pad (m.payload.take 48) 48) ::
    (List.range ((m.payload.length - 48 + 63) / 64)).map fun i => pad ((m.payload.drop (48 + 64 * i)).take 64) 64

/-- `LH.addr` of an access: the DPA with `RM` and node as a leaf holds them (R330). -/
def remoteAddr (n : BitVec 12) (dpa : Nat) : Word := BitVec.ofNat 64 (2 ^ 63 + n.toNat * 2 ^ 48 + dpa % 2 ^ 48)

/-- Virtual channel of an op (R400). -/
def vcOf (op : Nat) : BitVec 2 :=
  if op = 0 || op = 2 || op = 4 then 0#2 else if op = 6 || op = 8 then 2#2 else 1#2

/-- The next free request tag. -/
def State.freshTag (s : State) : BitVec 12 :=
  let used := s.link.reqs.map fun r => r.tag
  ((List.range 4096).map fun i => s.link.nextTag + BitVec.ofNat 12 i).find? (fun t => !used.contains t) |>.getD s.link.nextTag

/-- Send a request to another node and record that it waits for its answer. -/
def State.sendReq (s : State) (op : Nat) (n : BitVec 12) (part : BitVec 4) (addr : Word) (payload : List Byte)
    (who : Agent) (lid rank : Nat) (slotOf : Option (BitVec 6 × RecordOf)) : BitVec 12 × State :=
  let t := s.freshTag
  let m : LinkMsg := { dst := n, src := s.node, part := part, vc := vcOf op, op := BitVec.ofNat 6 op, tag := t, stat := 0#8,
                       len := BitVec.ofNat 8 (payload.length / 4), addr := addr, payload := payload }
  let r : LinkReq := { tag := t, op := BitVec.ofNat 6 op, node := n, since := s.cc, who := who, lid := lid, rank := rank,
                       addr := addr, slotOf := slotOf }
  (t, State.transmit { s with link := { s.link with reqs := s.link.reqs ++ [r], nextTag := t + 1#12 } } m)

/-- A remote line of a list. -/
def findLine (ls : List RemoteLine) (owner : Nat) (n : BitVec 12) (line : Nat) : Option RemoteLine :=
  ls.find? fun r => r.owner == owner && r.node == n && r.dpa == line

/-- The fault of a remote load that failed: 0x05 refused, else 0x10 (Table 11-6). -/
def remoteTrap (w : Who) (va : Nat) (k : Kind) (stat : Byte) : Trap :=
  if stat = 0x05#8 then w.trap 0x05 va k 0 0 else { w.trap 0x10 va k 0 0 with durable := true }

end Sys2Proof.Machine
end

