-- ==== Sys2Proof/Machine/Access.lean ====
section
/-! DEFINITION. Accesses of a launch to storage: the checks of R124 in order, what a read may return (R42, R125,
R176, R305 to R312), and how writes are held, accepted and performed (R308, R359). -/

namespace Sys2Proof.Machine

/-! ### Pointers (R40, R121) -/

/-- `space`, `owner` and `offset` of a tagged pointer. -/
def ptrSpace (p : Word) : Nat := fieldNat p 60 4
def ptrOwner (p : Word) : Nat := fieldNat p 48 12
def ptrOff (p : Word) : Nat := fieldNat p 0 48

/-- `TagAdd`: the offset moves modulo 2^48, space and owner stay. -/
def tagAdd (p d : Word) : Word := (p &&& 0xFFFF000000000000#64) ||| ((p + d) &&& 0x0000FFFFFFFFFFFF#64)

/-- `TagAdd` by a count of bytes. -/
def ptrPlus (p : Word) (n : Nat) : Word := tagAdd p (BitVec.ofNat 64 n)

/-- A byte count as it enters the checks: a zero-length access is checked as one byte (R171). -/
def atLeast1 (n : Nat) : Nat := max n 1

/-- The place `n` bytes at a pointer occupy for a core, or nothing (Space fault, R40). A VIRT place is not yet
translated. -/
def locOf (l : Launch) (cp : Copy) (c : Core) (p : Word) (n : Nat) : Option Loc :=
  let o := ptrOwner p
  let off := ptrOff p
  let pad (id : PadId) : Option Loc :=
    match cp.pad? id with
    | some q => if off + n ≤ q.limit then some (.pad id off) else none
    | none => none
  match ptrSpace p with
  | 0 => if fieldNat p 52 8 = 0 && fieldNat p 0 52 + n ≤ 2 ^ 52 then some (.virt (fieldNat p 0 52) none 0) else none
  | 1 => if isRank l.packet.h l.packet.w o then pad (.usp o) else none
  | 2 => if o < nClus l.packet.h l.packet.w then pad (.cls o) else none
  | 3 => if o < nChip l.packet.h l.packet.w then pad (.dsp o) else none
  | 4 => if o = 0 && off + n ≤ 0x80000 then some (.acc off) else none
  | 5 => if isRank l.packet.h l.packet.w o && off + n ≤ min (6 * l.packet.vim) 65532 then some (.vim o off) else none
  | 6 => if o < 2 && off + n ≤ 0x200000 then some (.cwn o off) else none
  | 7 => if o = 0 then pad c.uspId else none
  | 8 => if o = 0 && off + n ≤ 0x100000000 then some (.sys off) else none
  | _ => none

/-- The offset a place has for alignment. -/
def Loc.offset (x : Loc) : Nat :=
  match x with
  | .pad _ o => o
  | .acc o => o
  | .vim _ o => o
  | .virt va _ _ => va
  | .cwn _ o => o
  | .sys o => o

/-- A place `i` bytes further on. -/
def Loc.plus (x : Loc) (i : Nat) : Loc :=
  match x with
  | .pad p o => .pad p (o + i)
  | .acc o => .acc (o + i)
  | .vim r o => .vim r (o + i)
  | .virt va n d => .virt (va + i) n (d + i)
  | .cwn w o => .cwn w (o + i)
  | .sys o => .sys (o + i)

/-- Whether `n` bytes at `x` and `m` bytes at `y` share a byte. VIRT places are compared by address after
redirection. -/
def Loc.meets (x : Loc) (n : Nat) (y : Loc) (m : Nat) : Bool :=
  match x, y with
  | .pad p a, .pad q b => p == q && a < b + m && b < a + n
  | .acc a, .acc b => a < b + m && b < a + n
  | .vim r a, .vim q b => r == q && a < b + m && b < a + n
  | .virt a _ _, .virt b _ _ => a < b + m && b < a + n
  | .cwn w a, .cwn v b => w == v && a < b + m && b < a + n
  | .sys a, .sys b => a < b + m && b < a + n
  | _, _ => false

/-! ### Checks (R124, R177, R231) -/

/-- Whose space rules apply: Table 04-3, Table 05-2 (with CPY's right to write VIM), R231. -/
inductive AccUnit where
  | control | engine | copier | vector
deriving DecidableEq, Repr

/-- One accessor: its core, its unit, and the owner of the remote lines it asks for. -/
structure Acc where
  k : CoreRef
  who : Who
  unit : AccUnit
  owner : Nat
deriving DecidableEq, Repr

/-- Launch, copy and core of a reference. -/
def ctxOf (k : CoreRef) : Act (Launch × Copy × Core) := fun s =>
  match s.launch? k.lid, s.copy? k, s.core? k with
  | some l, some cp, some c => .ok ((l, cp, c), s)
  | _, _, _ => .error (.hold, s)

/-- Whether any bank that `n` bytes of accumulator memory at `off` lie in is free (R39). -/
def Core.bankFree (c : Core) (off n : Nat) : Bool :=
  (List.range 256).any fun b => decide (b * 2048 < off + n) && decide (off < b * 2048 + 2048) && !(c.tens.banks.toList.getD b false)

/-- Step 4 of R124: the code of the fault, 0 when the space allows the access. -/
def spaceRule (u : AccUnit) (k : Kind) (c : Core) (x : Loc) (n : Nat) : Nat :=
  match x with
  | .pad _ _ => 0
  | .virt _ _ _ => if u = .vector then 0x05 else 0
  | .acc off => if u = .control && k != .atomic then (if c.bankFree off n then 0x0C else 0) else 0x05
  | .vim _ _ => if u = .copier && k = .write then 0 else 0x05
  | .cwn _ _ => if u = .control || (u != .vector && k = .read) then 0 else 0x05
  | .sys _ => 0x02

/-- Steps 1 to 4 of R124 for `n` bytes at a pointer. VIM offsets are multiples of 6 (R40). -/
def checkPlace (a : Acc) (l : Launch) (cp : Copy) (c : Core) (p : Word) (n align : Nat) (k : Kind) : Except Trap Loc :=
  let t (code : Nat) : Trap := { a.who.trap code 0 k 0 0 with addr := p }
  match locOf l cp c p n with
  | none => .error (t 0x04)
  | some x =>
      match x with
      | .sys _ => .error (t 0x02)
      | _ =>
          if x.offset % align ≠ 0 || (match x with | .vim _ o => decide (o % 6 ≠ 0) | _ => false) then .error (t 0x03)
          else if spaceRule a.unit k c x n ≠ 0 then .error (t (spaceRule a.unit k c x n))
          else .ok x

/-- Raise what a check found. -/
def orRaise {α : Type} (e : Except Trap α) : Act α :=
  match e with
  | .ok a => pure a
  | .error t => raise t

/-- Steps 1 to 4 as an action. -/
def checkPtr (a : Acc) (p : Word) (n align : Nat) (k : Kind) : Act Loc := do
  let (l, cp, c) ← ctxOf a.k
  orRaise (checkPlace a l cp c p n align k)

/-- `[a, a + n)` cut at multiples of `m`; `fuel` bounds the pieces. -/
def cutAt (m : Nat) : Nat → Nat → Nat → List (Nat × Nat)
  | 0, _, _ => []
  | fuel + 1, a, n =>
      if n = 0 then []
      else (let k := min n (m - a % m); (a, k) :: cutAt m fuel (a + k) (n - k))

/-- A stream that first touches a page prefetches the translation of the next one (R336): the walk records the TLB's number and what
it reads. -/
def State.prefetch (s : State) (w : Who) (ctx : BitVec 6) (part : BitVec 4) (va : Nat) : State :=
  let o := s.tlbOwner w
  let t := s.tlb o w.tlb
  let next := match t.find ctx va with
    | some e => e.va + e.size
    | none => va / 4096 * 4096 + 4096
  if 2 ^ 52 ≤ next || (t.find ctx next).isSome || s.walks.any fun x => x.owner == o && x.tlb == w.tlb && x.ctx == ctx && x.va == next then s
  else
    { s with walks := s.walks ++ [{ owner := o, tlb := w.tlb, ctx := ctx, part := part, va := next, num := t.taken ctx,
                                    leaf := (match (s.walk ctx part next).1 with
                                      | .leaf e => some e
                                      | .invalid => none
                                      | .poisoned _ _ => none),
                                    tables := s.tablesFrom ctx next 5 (s.cxRoot ctx) }] }

/-- A command's stream touches a page. -/
def touchPage (a : Acc) (ctx : BitVec 6) (part : BitVec 4) (va : Nat) : Act Unit := do
  let (_, _, c) ← ctxOf a.k
  match c.eng.cmds.find? fun m => m.id + 1 == a.owner with
  | none => pure ()
  | some m =>
      let page := va / 4096 * 4096
      if m.pages.contains (a.who.tlb, page) then pure ()
      else do
        onCore a.k fun c => { c with eng := { c.eng with cmds := c.eng.cmds.map fun e =>
          if e.id = m.id then { e with pages := e.pages ++ [(a.who.tlb, page)] } else e } }
        modify fun s => s.prefetch a.who ctx part va

/-- Translate the pieces of a VIRT range page by page. -/
def translateAll (a : Acc) (k : Kind) (fixed : List (Nat × Nat)) : List (Nat × Nat) → Act (List (Loc × Nat))
  | [] => pure []
  | (va, n) :: t => do
      let (l, cp, _) ← ctxOf a.k
      let ph ← translate a.who l cp va k fixed
      if a.owner ≠ 0 then touchPage a l.ctx l.part ph.va
      let rest ← translateAll a k fixed t
      pure ((.virt ph.va ph.node ph.dpa, n) :: rest)

/-- Target of a byte of the coherent window (Table 11-3). -/
def cwnTarget (die off : Nat) : Nat := die * 32 + off / 65536

/-- Step 5 of R124: the pieces of a place, VIRT ones translated, and the access table for the coherent window. -/
def resolve (a : Acc) (x : Loc) (n : Nat) (k : Kind) (fixed : List (Nat × Nat)) : Act (List (Loc × Nat)) :=
  match x with
  | .virt va _ _ => translateAll a k fixed (cutAt 4096 (n / 4096 + 2) va n)
  | .cwn die off => do
      let s ← get
      let (l, _, _) ← ctxOf a.k
      raiseIf ((cutAt 65536 (n / 65536 + 2) off n).any fun q =>
        !s.right 0x01241000 (cwnTarget die q.1) (32 + l.part.toNat) k.right) (a.who.trap 0x05 off k 0 0)
      pure [(x, n)]
  | _ => pure [(x, n)]

/-- Steps 1 to 5. -/
def checkAll (a : Acc) (p : Word) (n align : Nat) (k : Kind) (fixed : List (Nat × Nat)) : Act (List (Loc × Nat)) := do
  let x ← checkPtr a p n align k
  resolve a x n k fixed

/-! ### What a scratchpad byte reads as (R305 to R312) -/

/-- Whether an agent of a core has read a store. -/
def HomeStore.readOf (h : HomeStore) (rank : Nat) : Bool := h.readBy.any fun r => r.1 == rank

/-- Whether a store performed at its home is visible to the agents of a core: within its scope (Table 08-2), or because
they have read it. -/
def HomeStore.seenBy (h : HomeStore) (w rank : Nat) : Bool :=
  h.readOf rank || (match h.scope with
  | .unit => h.writer == rank
  | .cluster => h.writer / 4 == rank / 4
  | .die => rankChip w h.writer == rankChip w rank
  | .device => true
  | .domain => true
  | .host => true)

/-- Whether a store covers a byte. -/
def HomeStore.covers (h : HomeStore) (p : PadId) (off : Nat) : Bool := h.pad == p && h.off ≤ off && off < h.off + h.data.length
def PortStore.covers (h : PortStore) (p : PadId) (off : Nat) : Bool := h.pad == p && h.off ≤ off && off < h.off + h.data.length

/-- The byte an agent of core `rank` reads: the last store in location order that it sees; `port` holds the stores
its own core has accepted, for the control core. -/
def Copy.padByte (cp : Copy) (w rank : Nat) (port : List PortStore) (p : PadId) (off : Nat) : Byte :=
  match (port.filter fun h => h.covers p off).getLast? with
  | some h => h.data.getD (off - h.off) 0#8
  | none =>
      match (cp.home.filter fun h => h.covers p off && h.seenBy w rank).getLast? with
      | some h => h.data.getD (off - h.off) 0#8
      | none => match cp.pad? p with
          | some q => q.mem.get off
          | none => 0#8

/-- Whether a store shares bytes with `n` bytes at a place. -/
def HomeStore.touches (h : HomeStore) (p : PadId) (o n : Nat) : Bool := h.pad == p && h.off < o + n && o < h.off + h.data.length

/-- A core has read `n` bytes at a place: the stores on their way that it sees there are observed (R311). -/
def Copy.markRead (cp : Copy) (w rank : Nat) (p : PadId) (o n : Nat) : Copy :=
  { cp with home := cp.home.map fun h =>
      if h.touches p o n && h.seenBy w rank && !h.readOf rank then { h with readBy := h.readBy ++ [(rank, cp.stores)] } else h }

/-! ### What becomes visible together (R305, R309, R311) -/

/-- A store with its place in location order. -/
abbrev Placed := Nat × HomeStore

/-- Whether two stores share a byte. -/
def HomeStore.overlaps (a b : HomeStore) : Bool := a.pad == b.pad && a.off < b.off + b.data.length && b.off < a.off + a.data.length

/-- Whether `f` comes before `e` in the order that one command keeps among its accesses (R309). -/
def HomeStore.chained (f e : HomeStore) : Bool := f.chain != 0 && f.writer == e.writer && f.cmd == e.cmd && decide (f.chain < e.chain)

/-- Whether no agent may see store `e` without store `f`: the core whose store `e` is had read `f` before, or one command keeps that
order; `all`: also where `f` lies below it in location order. -/
def drags (all : Bool) (e f : Placed) : Bool :=
  f.1 != e.1 && ((f.2.readBy.any fun r => r.1 == e.2.writer && decide (r.2 ≤ e.2.id)) || f.2.chained e.2 ||
    (all && f.1 < e.1 && f.2.overlaps e.2))

/-- One round of the closure: the chosen places and those they drag along. -/
def dragRound (all : Bool) (hs : List Placed) (xs : List Nat) : List Nat :=
  (hs.filter fun f => xs.contains f.1 || hs.any fun e => xs.contains e.1 && drags all e f).map fun f => f.1

/-- The closure, after at most `n` rounds. -/
def dragAll (all : Bool) (hs : List Placed) : Nat → List Nat → List Nat
  | 0, xs => xs
  | n + 1, xs => dragAll all hs n (dragRound all hs xs)

/-- The stores of a copy with their places. -/
def Copy.placed (cp : Copy) : List Placed := cp.home.zipIdx.map fun p => (p.2, p.1)

/-- The physical number of a core of a copy, as an agent of durable memory. -/
def Copy.agent (cp : Copy) (rank : Nat) : Nat := ((cp.core? rank).map fun c => c.phys).getD 0

/-- What the stores of these writers carry with them of durable memory is seen by further agents (R311). -/
def State.shareLags (s : State) (writers to' : List Nat) : State :=
  { s with lags := s.lags.map fun g =>
      if g.bound.any (fun a => writers.contains a) then
        { g with seen := g.seen ++ to'.filter (fun a => !g.seen.contains a), bound := g.bound ++ to'.filter (fun a => !g.bound.contains a) }
      else g }

/-- A core observes the store of that number, and what comes with it (R311). -/
def State.observe (s : State) (k : CoreRef) (id : Nat) : State :=
  match s.copy? k with
  | none => s
  | some cp =>
      let hs := cp.placed
      let go := dragAll false hs hs.length ((hs.filter fun h => h.2.id == id).map fun h => h.1)
      let ws := ((hs.filter fun h => go.contains h.1).map fun h => cp.agent h.2.writer).eraseDups
      let seen (h : Placed) : HomeStore :=
        if go.contains h.1 && !h.2.readOf k.rank then { h.2 with readBy := h.2.readBy ++ [(k.rank, cp.stores)] } else h.2
      (s.shareLags ws [cp.agent k.rank]).modCopy k fun c => { c with home := hs.map seen }

/-- Stores on their way to bytes that a core reads, and that it has not seen: each is observed now or not, freely (R306, R308,
R312, R313). -/
def chooseStores (k : CoreRef) : List Nat → Act Unit
  | [] => pure ()
  | id :: t => do
      let b ← chooseB
      if b then modify fun s => s.observe k id else pure ()
      chooseStores k t

/-- Its control core has read there. -/
def Core.markPort (c : Core) (next : Nat) (p : PadId) (o n : Nat) : Core :=
  { c with port := c.port.map fun h =>
      if h.pad == p && h.off < o + n && o < h.off + h.data.length && h.read.isNone then { h with read := some next } else h }

/-! ### Performing writes -/

/-- A word an accepted or performed write covers whole becomes correctable (R421): `below` and `above` bytes beside the `n` at
`a` belong to the same access. -/
def Store.mendRun (m : Store) (a n below above : Nat) : Store :=
  { m with bad := m.bad.filter fun w => !(8 * w < a + n && a < 8 * w + 8 && a ≤ 8 * w + below && 8 * w + 8 ≤ a + n + above) }

/-- The same of an access of one run. -/
def Store.mend (m : Store) (a n : Nat) : Store := m.mendRun a n 0 0

/-- Whether a write touches an uncorrectable word that its access covers only in part (R421). -/
def Store.partBadRun (m : Store) (a n below above : Nat) : Bool :=
  m.bad.any fun w => 8 * w < a + n && a < 8 * w + 8 && !(a ≤ 8 * w + below && 8 * w + 8 ≤ a + n + above)

/-- The first uncorrectable word that some bytes touch, as a byte offset; for a write, the first that its access covers only in
part. -/
def Store.badWord (m : Store) (a n : Nat) (part : Option (Nat × Nat)) : Nat :=
  match m.bad.find? (fun w => 8 * w < a + n && a < 8 * w + 8 && (match part with
    | some (lo, hi) => !(a ≤ 8 * w + lo && 8 * w + 8 ≤ a + n + hi)
    | none => true)) with
  | some w => 8 * w
  | none => a

/-- An uncorrectable word met at a place, with the unit Table 10-8 scores: that of the word (R376). `part`: by a write that covers
it only in part (R421), with how many bytes of its access lie below and above. -/
def badTrap (s : State) (a : Acc) (cp : Copy) (c : Core) (x : Loc) (n : Nat) (k : Kind) (part : Option (Nat × Nat)) : Option Trap :=
  let hit (m : Store) (o : Nat) : Bool := match part with
    | some (lo, hi) => m.partBadRun o n lo hi
    | none => m.badIn o n
  let mk (o : Nat) (us : List (BitVec 16)) (dur : Bool) : Option Trap :=
    some { a.who.trap 0x10 o k 0 0 with units := us, durable := dur }
  match x with
  | .pad p o => (match cp.pad? p with
      | some q => if hit q.mem o then mk o [padUnit q (q.mem.badWord o n part)] false else none
      | none => none)
  | .acc o => if hit c.tens.acc o then mk o [unitId 1 c.phys] false else none
  | .vim r o => (match cp.core? r with
      | some t => if hit t.vim o then mk o [unitId 1 t.phys] false else none
      | none => none)
  | .virt va node d => if part.isSome then none else if node = none && s.dram.badIn d n then mk va [] true else none
  | .cwn die o => if hit (if die = 0 then s.cwnN else s.cwnS) o then mk o [] true else none
  | .sys _ => none

/-- Add bytes at offset `o` of a held line. -/
def HeldLine.merge (h : HeldLine) (o : Nat) (bs : List Byte) : HeldLine :=
  bs.zipIdx.foldl (fun g p =>
    { g with mask := g.mask ||| BitVec.ofNat 64 (2 ^ (o + p.2)), data := putField g.data (8 * (o + p.2)) 8 p.1.toNat }) h

/-- Hold bytes that lie in one 64-byte line (R359): merged into the line of the same segment, unless that line belongs to
another opening of a slot (R344), else a new line; nothing when the quota is used up (R286). -/
def Muslin.put (m : Muslin) (seg record va : Nat) (node : Option (BitVec 12)) (dpa : Nat) (slotOf : Option RecordOf)
    (bs : List Byte) : Option Muslin :=
  let lva := va / 64 * 64
  let ptr := BitVec.ofNat 64 lva
  let same (h : HeldLine) : Bool := h.ptr == ptr && h.seg == seg && h.slotOf == slotOf
  if m.lines.any same then
    some { m with lines := m.lines.map fun h => if same h then h.merge (va % 64) bs else h }
  else if m.lines.length < Config.muslinLines then
    (let h : HeldLine := { ptr := ptr, mask := 0#64, data := 0#512, seg := seg, record := record, slotOf := slotOf,
                           node := node, dpa := dpa - va % 64 }
     some { m with lines := m.lines ++ [h.merge (va % 64) bs] })
  else none

/-- The trap of an error in the B-die (Table 10-8): the chiplet is scored. -/
def muslinTrap (a : Acc) (c : Core) (va : Nat) (k : Kind) : Trap :=
  { a.who.trap 0x10 va k 0 0 with units := [unitId 10 (dieOf c.phys)] }

/-- 8-byte words of Muslin that are uncorrectable and that bytes touch; `part`: only in part, with how many bytes of the access lie
below and above. -/
def Muslin.badIn (m : Muslin) (va n : Nat) (part : Option (Nat × Nat)) : Bool :=
  m.bad.any fun w => va < w.toNat + 8 && w.toNat < va + n && (match part with
    | some (lo, hi) => !(va ≤ w.toNat + lo && w.toNat + 8 ≤ va + n + hi)
    | none => true)

/-- Hold a durable write of a core, line by line (R42, R359): Uncorrectable Memory when it merges into a bad word,
Containment Overflow beyond the quota. `run`: how many bytes of the access lie below `va` and above its end. -/
def holdBytes (a : Acc) (seg record : Nat) (slotOf : Option RecordOf) (node : Option (BitVec 12)) (va dpa : Nat) (bs : List Byte)
    (run : Nat × Nat) : List (Nat × Nat) → Act Unit
  | [] => pure ()
  | (x, n) :: t => do
      let (_, _, c) ← ctxOf a.k
      let lo := run.1 + (x - va)
      let hi := run.2 + (va + bs.length - (x + n))
      raiseIf (c.muslin.badIn x n (some (lo, hi))) (muslinTrap a c x .write)
      match c.muslin.put seg record x node (dpa + (x - va)) slotOf ((bs.drop (x - va)).take n) with
      | none => raise (a.who.trap 0x0E x .write 0 0)
      | some m =>
          onCore a.k fun c => { c with muslin := { m with bad := m.bad.filter fun w =>
            !(x < w.toNat + 8 && w.toNat < x + n && x ≤ w.toNat + lo && w.toNat + 8 ≤ x + n + hi) } }
          holdBytes a seg record slotOf node va dpa bs run t

/-- Hold bytes at a translated place; at another node only once this one has an identifier (R397). -/
def holdWrite (a : Acc) (seg record : Nat) (slotOf : Option RecordOf) (node : Option (BitVec 12)) (va dpa : Nat) (bs : List Byte)
    (run : Nat × Nat) : Act Unit := do
  raiseIf (node.isSome && !(← get).link.nodeSet) (a.who.trap 0x05 va .write 0 0)
  holdBytes a seg record slotOf node va dpa bs run (cutAt 64 (bs.length / 64 + 2) va bs.length)

/-- Change a scratchpad of a core's copy. -/
def onPad (k : CoreRef) (p : PadId) (f : Pad → Pad) : Act Unit := modify fun s => s.modCopy k fun c => c.modPad p f

/-- Stores a core's control core has made, or its core has read, that are short of device scope (Table 08-3). -/
def Copy.outstanding (cp : Copy) (c : Core) : List Nat :=
  c.port.map (fun h => h.id) ++
    (cp.home.filter fun h => (h.writer == c.rank && h.cmd.isNone) || h.readOf c.rank).map fun h => h.id

/-- Whether stores of these numbers are performed at device scope. -/
def Copy.performed (cp : Copy) (ids : List Nat) : Bool :=
  ids.all fun i => (cp.home.all fun h => h.id != i) && cp.cores.all fun c => c.port.all fun h => h.id != i

/-- Put a store at its home, last in location order (R305, R308); `run` as in `Store.mendRun`. -/
def performPad (k : CoreRef) (h : HomeStore) (run : Nat × Nat) : Act Unit := do
  modify fun s => s.modCopy k fun c => { c with home := c.home ++ [h] }
  onPad k h.pad fun q => { q with mem := q.mem.mendRun h.off h.data.length run.1 run.2 }

/-- A write of a command of core `writer` to a scratchpad, performed at its home: visible to its own core. A run of bytes goes in
aligned groups of 8, so that no element an engine reads is ever split (R176). -/
def performEngine (k : CoreRef) (writer : Nat) (m : Cmd) (w : PendWrite) (p : PadId) (bs : List Byte) (o : Nat) : List (Nat × Nat) → Act Unit
  | [] => pure ()
  | (x, n) :: t => do
      let (_, cp, _) ← ctxOf k
      modify fun s => s.modCopy k fun c => { c with stores := c.stores + 1 }
      performPad k { id := cp.stores, cmd := some m.id, chain := w.seq, writer := writer, pad := p, off := x,
                     data := (bs.drop (x - o)).take n, scope := .unit, readBy := [] } (w.below + (x - o), w.above + (o + bs.length - (x + n)))
      performEngine k writer m w p bs o t

/-- A control-core store reaches its home. -/
def performStore (k : CoreRef) (h : PortStore) : Act Unit :=
  performPad k { id := h.id, writer := k.rank, pad := h.pad, off := h.off, data := h.data, scope := .unit,
                 readBy := h.read.toList.map fun n => (k.rank, n) } (0, 0)

/-- The held byte at an address: that of the newest segment that holds it (R359). -/
def Muslin.newest (m : Muslin) (va : Nat) : Option Byte :=
  ((m.lines.filter fun h => h.ptr.toNat == va / 64 * 64 && h.mask.getLsbD (va % 64)).foldl (fun (b : Option HeldLine) h =>
    match b with
    | none => some h
    | some g => if g.seg ≤ h.seg then some h else some g) none).map fun h => h.data.extractLsb' (8 * (va % 64)) 8

/-- The byte that a write of one nibble finds at its place: the last in location order; `d` for another node's, which was read
when the write was formed. -/
def currentByte (s : State) (cp : Copy) (c : Core) (x : Loc) (d : Byte) : Byte :=
  match x with
  | .pad p o => (match (cp.home.filter fun h => h.covers p o).getLast? with
      | some h => h.data.getD (o - h.off) 0#8
      | none => match cp.pad? p with
          | some q => q.mem.get o
          | none => 0#8)
  | .virt va node a =>
      (match c.muslin.newest va with
       | some b => b
       | none => if node.isNone then s.dram.get a else d)
  | _ => d

/-- The bytes a write puts at its place. -/
def PendWrite.bytes (w : PendWrite) (s : State) (cp : Copy) (c : Core) : List Byte :=
  match w.half with
  | none => w.data
  | some h =>
      let d := w.data.headD 0#8
      [putField (currentByte s cp c w.loc d) (4 * h) 4 (fieldNat d (4 * h) 4)]

/-- What the control core of a core reads of one byte now, nothing where it cannot tell. -/
def ctlByte (s : State) (l : Launch) (cp : Copy) (c : Core) (x : Loc) : Option Byte :=
  match x with
  | .pad p o => some (cp.padByte l.packet.w c.rank c.port p o)
  | .virt va node d => match c.muslin.newest va with
      | some b => some b
      | none => if node.isNone then some (s.dram.get d) else none
  | .acc o => some (c.tens.acc.get o)
  | .vim _ _ => none
  | .cwn _ _ => none
  | .sys _ => none

/-- Bytes of a command's write as its pushing core finds them, for loads that race with it (R125). -/
def oldBytes (s : State) (l : Launch) (cp : Copy) (c : Core) (x : Loc) (n : Nat) : List (Loc × Byte) :=
  (List.range n).filterMap fun i => (ctlByte s l cp c (x.plus i)).map fun b => (x.plus i, b)

/-- Keep such bytes in the command; earlier ones of the same places go. -/
def Cmd.keepOld (m : Cmd) (xs : List (Loc × Byte)) : Cmd :=
  { m with old := (m.old.filter fun p => !(xs.any fun q => q.1 == p.1)) ++ xs }

/-- Perform one write of a command (R174): durable bytes are held for the core `hk` that pushed it (R361), scratchpad
bytes reach their home, vector words reach VIM. -/
def performWrite (a : Acc) (hk : CoreRef) (m : Cmd) (w : PendWrite) : Act Unit := do
  let s ← get
  let (_, cp, c) ← ctxOf a.k
  let trap := badTrap s a cp c w.loc w.data.length .write (some (w.below, w.above))
  raiseIf trap.isSome (trap.getD (Trap.mk' 0x10))
  let bs := w.bytes s cp c
  match w.loc with
  | .pad p o => performEngine a.k c.rank m w p bs o (if w.bytewise then cutAt 8 (bs.length / 8 + 2) o bs.length else [(o, bs.length)])
  | .vim r o => modify fun s => s.modCopy a.k fun c => c.modCore r fun t => { t with vim := t.vim.put o bs }
  | .virt va node d => holdWrite { a with k := hk } m.seg m.record w.slotOf node va d bs (w.below, w.above)
  | .acc o => onCore a.k fun t => { t with tens := { t.tens with acc := t.tens.acc.put o bs } }
  | .cwn _ _ => pure ()
  | .sys _ => pure ()

/-! ### Races with commands (R125, R176) -/

/-- A write cut into pieces, those on a range marked: only a run of bytes that are single-copy atomic one by one is cut, into aligned
groups of 8 (R176, R305). -/
def PendWrite.cut (w : PendWrite) (x : Loc) (n : Nat) : List (Bool × PendWrite) :=
  if !(w.loc.meets w.data.length x n) then [(false, w)]
  else if !w.bytewise then [(true, w)]
  else
    (cutAt 8 (w.data.length / 8 + 2) w.loc.offset w.data.length).map fun p =>
      let i : Nat := p.1 - w.loc.offset
      ((w.loc.plus i).meets p.2 x n,
        { w with loc := w.loc.plus i, data := (w.data.drop i).take p.2, below := w.below + i, above := w.above + (w.data.length - (i + p.2)) })

/-- The accessor a command is. -/
def engineSrc (op : EOp) : Nat :=
  match op with
  | .cpy => 1 | .cpyT => 1 | .cpyMc => 1 | .cpyQ => 1 | .gath => 1 | .scat => 1 | .bin => 1 | .kvg => 1 | .kva => 1
  | .kvdem => 1 | .kvrefInc => 1 | .kvrefDec => 1
  | .cube => 2 | .cubeGa => 2 | .cubeGb => 2 | .cubeGk => 2 | .cubeSp => 2 | .aclr => 2 | .adrain => 2
  | .stt => 4 | .stp => 4 | .stg => 4 | .updSgd => 4 | .updAdam => 4 | .vrun => 3

/-- A command as accessor, with the TLB of one of its streams (R335). -/
def Cmd.acc (k : CoreRef) (m : Cmd) (tlb : Nat) : Acc :=
  { k := k, who := { agent := .core k, src := engineSrc m.op, tlb := tlb }, owner := m.id + 1,
    unit := match m.op with | .cpy => .copier | .vrun => .vector | _ => .engine }

/-- Change a command of a core. -/
def Core.modCmd (c : Core) (id : Nat) (f : Cmd → Cmd) : Core :=
  { c with eng := { c.eng with cmds := c.eng.cmds.map fun m => if m.id == id then f m else m } }

/-- A command of a core. -/
def Core.cmd? (c : Core) (id : Nat) : Option Cmd := c.eng.cmds.find? fun m => m.id == id

/-- For every piece on a range, whether it is performed now, freely. -/
def drawPieces : List (Bool × PendWrite) → Act (List (Bool × PendWrite))
  | [] => pure []
  | (false, w) :: t => do
      let r ← drawPieces t
      pure ((false, w) :: r)
  | (true, w) :: t => do
      let b ← chooseB
      let r ← drawPieces t
      pure ((b, w) :: r)

/-- The pieces to perform of those drawn: with one of an ordered command go all that come before it (R309). -/
def withEarlier (ps : List (Bool × PendWrite)) : List (Bool × PendWrite) :=
  let top := (ps.filter fun p => p.1).foldl (fun n p => max n p.2.seq) 0
  ps.map fun p => (p.1 || (p.2.seq != 0 && p.2.seq < top), p.2)

/-- The core that pushed a command of core `rank`: the issuer of a gang command, whose number carries it (R219). -/
def Cmd.issuer (m : Cmd) (rank : Nat) : Nat :=
  match m.gang with
  | some g => g % 4096
  | none => rank

/-- Perform some writes of a command now, before the others; loads of its pushing core may still return what stood there (R125). -/
def performSome (k : CoreRef) (m : Cmd) : List PendWrite → Act Unit
  | [] => pure ()
  | w :: t => do
      let hk := atRank k (m.issuer k.rank)
      let s ← get
      let (l, cp, c) ← ctxOf hk
      onCore k fun d => d.modCmd m.id fun e => e.keepOld (oldBytes s l cp c w.loc w.data.length)
      performWrite (m.acc k 2) hk m w
      performSome k m t

/-- Race a read of a range with the pending writes of one command. -/
def raceCmd (k : CoreRef) (x : Loc) (n : Nat) (m : Cmd) : Act Unit :=
  if m.writes.any fun w => w.loc.meets w.data.length x n then do
    let ps ← drawPieces (m.writes.flatMap fun w => w.cut x n)
    let qs := withEarlier ps
    onCore k fun c => c.modCmd m.id fun m => { m with writes := (qs.filter fun p => !p.1).map fun p => p.2 }
    performSome k m ((qs.filter fun p => p.1).map fun p => p.2)
  else pure ()

/-- The same over several commands of several cores. -/
def raceAll (x : Loc) (n : Nat) : List (CoreRef × Cmd) → Act Unit
  | [] => pure ()
  | (k, m) :: t => do
      raceCmd k x n m
      raceAll x n t

/-- The running commands that may write what an access reads, except its own: those of its copy for scratchpads and VIM, those its
core pushed for durable memory (held bytes are read by their core only, R42). -/
def Acc.racers (a : Acc) (cp : Copy) (c : Core) (x : Loc) : List (CoreRef × Cmd) :=
  let from' (t : Core) : List (CoreRef × Cmd) :=
    (t.eng.cmds.filter fun m => !m.writes.isEmpty && !(t.rank == c.rank && m.id + 1 == a.owner)).map fun m => (atRank a.k t.rank, m)
  match x with
  | .pad _ _ => cp.cores.flatMap from'
  | .vim _ _ => cp.cores.flatMap from'
  | .virt _ _ _ => (cp.cores.flatMap from').filter fun p => p.2.issuer p.1.rank == c.rank
  | .acc _ => []
  | .cwn _ _ => []
  | .sys _ => []

/-- Race a read with them. -/
def raceReads (a : Acc) (x : Loc) (n : Nat) : Act Unit := do
  let (_, cp, c) ← ctxOf a.k
  raceAll x n (a.racers cp c x)

/-- Bytes of a read, each now or as before, freely, in units of `e`: `pick i` says whether a unit that begins at byte `i` has the
choice (R125, R176, R305). -/
def mixUnits (e : Nat) (pick : Nat → Bool) : Nat → List (List Byte × List Byte) → Act (List Byte)
  | _, [] => pure []
  | i, (old, new) :: t => do
      let v ← (if old == new || !pick i then pure new
        else do
          let b ← chooseB
          pure (if b then old else new) : Act (List Byte))
      let r ← mixUnits e pick (i + e) t
      pure (v ++ r)

/-- A byte string in units of `e` bytes. -/
def unitsOf (e : Nat) : Nat → List Byte → List (List Byte)
  | 0, _ => []
  | k + 1, bs => if bs.isEmpty then [] else bs.take e :: unitsOf e k (bs.drop e)

/-- Two readings of the same bytes, mixed. -/
def mixReads (e : Nat) (pick : Nat → Bool) (old new : List Byte) : Act (List Byte) :=
  if old == new then pure new
  else mixUnits e pick 0 ((unitsOf e new.length old).zip (unitsOf e new.length new))

/-! ### Reading -/

/-- Held bytes over what the home holds (R42, R359). -/
def Muslin.overlay (m : Muslin) (va : Nat) (bs : List Byte) : List Byte :=
  bs.zipIdx.map fun p => (m.newest (va + p.2)).getD p.1

/-- The bytes at a local DPA as the device reads them: released writes on their way to a host come first (R315,
R323). -/
def State.dpaBytes (s : State) (d n : Nat) : List Byte :=
  if s.host.writes.isEmpty then s.dram.bytes d n
  else (List.range n).map fun i =>
    match (s.host.writes.filter fun h => h.dpa == (d + i) / 64 * 64 && h.mask.getLsbD ((d + i) % 64)).getLast? with
    | some h => h.data.extractLsb' (8 * ((d + i) % 64)) 8
    | none => s.dram.get (d + i)

/-- Whether a write on its way shares bytes with `n` at a DPA. -/
def LagWrite.touches (g : LagWrite) (d n : Nat) : Bool := g.dpa < d + n && d < g.dpa + g.old.length

/-- An agent sees a write that is performed at its home; with `bind` its own later writes are not seen without it (R311). -/
def LagWrite.show (g : LagWrite) (agent : Nat) (bind : Bool) : LagWrite :=
  { g with seen := if g.seen.contains agent then g.seen else g.seen ++ [agent],
           bound := if !bind || g.bound.contains agent then g.bound else g.bound ++ [agent] }

/-- An agent reads bytes at a DPA: each write it has not seen is seen now or not, freely, the newest first; a byte that a seen write
gives hides the older ones (R305, R306, R308, R312, R313). `bs` are the bytes, each with whether it is settled. -/
def readLags (agent d : Nat) : List LagWrite → List (Bool × Byte) → Act (List (Bool × Byte))
  | [], bs => pure bs
  | g :: t, bs => do
      if !g.touches d bs.length then readLags agent d t bs
      else do
        let over' (i : Nat) : Bool := g.dpa ≤ d + i && d + i < g.dpa + g.old.length
        let sees ← (if g.seen.contains agent then pure true else chooseB : Act Bool)
        if sees then do
          modify fun s => { s with lags := s.lags.map fun x => if x = g then x.show agent true else x }
          readLags agent d t (bs.zipIdx.map fun p => (p.1.1 || over' p.2, p.1.2))
        else readLags agent d t (bs.zipIdx.map fun p =>
          if over' p.2 && !p.1.1 then (false, g.old.getD (d + p.2 - g.dpa) p.1.2) else p.1)

/-- What an agent reads at a DPA of this node. -/
def lagBytes (agent d n : Nat) : Act (List Byte) := do
  let s ← get
  let r ← readLags agent d s.lags.reverse ((s.dpaBytes d n).map fun b => (false, b))
  pure (r.map fun p => p.2)

/-- Whether every byte of a range is held. -/
def Muslin.covers (m : Muslin) (va n : Nat) : Bool :=
  (List.range n).all fun i => m.lines.any fun h => h.ptr.toNat == (va + i) / 64 * 64 && h.mask.getLsbD ((va + i) % 64)

/-- Ask for the remote lines a range needs that have not been asked for, and wait for those not answered (R320,
R400). Answered lines are taken from the core's buffer. -/
def remoteLines (a : Acc) (node : BitVec 12) (va : Nat) (k : Kind) : List Nat → Act (List (Nat × List Byte))
  | [] => pure []
  | line :: t => do
      let s ← get
      let (l, _, c) ← ctxOf a.k
      raiseIf (!s.link.nodeSet) (a.who.trap 0x05 va k 0 0)
      match findLine c.remote a.owner node line with
      | some r =>
          raiseIf (r.data.isNone && r.stat != 0#8) (remoteTrap a.who va k r.stat)
          match r.data with
          | some d =>
              let rest ← remoteLines a node va k t
              pure ((line, d) :: rest)
          | none => hold
      | none =>
          raiseIf (!s.reachable node) (remoteTrap a.who va k 0x10#8)
          let (tag, s1) := s.sendReq 0 node l.part (remoteAddr node line) [] (.core a.k) a.k.lid a.k.rank none
          set s1
          onCore a.k fun c => { c with remote := c.remote ++
            [{ owner := a.owner, node := node, dpa := line, tag := tag, data := none, stat := 0#8 }] }
          hold

/-- Bytes of a scratchpad as an accessor sees them now. -/
def Acc.padBytes (a : Acc) (l : Launch) (cp : Copy) (c : Core) (p : PadId) (o n : Nat) : List Byte :=
  (List.range n).map fun i => cp.padByte l.packet.w c.rank (if a.unit = .control then c.port else []) p (o + i)

/-- The bytes of one resolved piece for a core of a launch, read at once. -/
def readPiece (a : Acc) (x : Loc) (n : Nat) (k : Kind) : Act (List Byte) := do
  raceReads a x n
  let s ← get
  let (l, cp, c) ← ctxOf a.k
  let trap := badTrap s a cp c x n k none
  match x with
  | .virt va (some node) d => do
      let lines := (List.range ((d + n - 1) / 64 + 1 - d / 64)).map fun i => (d / 64 + i) * 64
      let got ← (if c.muslin.covers va n then pure [] else remoteLines a node va k lines : Act (List (Nat × List Byte)))
      raiseIf (c.muslin.badIn va n none) (muslinTrap a c va k)
      let home := (List.range n).map fun i =>
        ((got.find? fun g => g.1 == (d + i) / 64 * 64).map fun g => g.2.getD ((d + i) % 64) 0#8).getD 0#8
      pure (c.muslin.overlay va home)
  | .virt va none d => do
      holdIf (!s.dpaReady d)
      raiseIf (c.muslin.badIn va n none) (muslinTrap a c va k)
      raiseIf (!c.muslin.covers va n && s.dram.badIn d n) ({ a.who.trap 0x10 va k 0 0 with durable := true })
      let home ← lagBytes c.phys d n
      pure (c.muslin.overlay va home)
  | .pad p o => do
      raiseIf trap.isSome (trap.getD (Trap.mk' 0x10))
      chooseStores a.k ((cp.home.filter fun h => h.touches p o n && !h.seenBy l.packet.w c.rank).map fun h => h.id)
      modify fun s => s.modCopy a.k fun cp => cp.markRead l.packet.w c.rank p o n
      if a.unit = .control then onCore a.k fun c => c.markPort cp.stores p o n
      let (_, cp, c) ← ctxOf a.k
      pure (a.padBytes l cp c p o n)
  | .acc o => do
      raiseIf trap.isSome (trap.getD (Trap.mk' 0x10))
      pure (c.tens.acc.bytes o n)
  | .vim r o => pure ((cp.core? r).map (fun t => t.vim.bytes o n) |>.getD [])
  | .cwn die o => do
      raiseIf trap.isSome (trap.getD (Trap.mk' 0x10))
      pure ((if die = 0 then s.cwnN else s.cwnS).bytes o n)
  | .sys _ => pure (List.replicate n 0#8)

/-- The bytes of all pieces, in order. -/
def readPieces (a : Acc) (k : Kind) : List (Loc × Nat) → Act (List Byte)
  | [] => pure []
  | (x, n) :: t => do
      let b ← readPiece a x n k
      let r ← readPieces a k t
      pure (b ++ r)

/-! ### Element by element (R125, R176, R222) -/

/-- The chunks that ranges overlap, each once. -/
def chunksOf (rs : List (PadId × Nat × Nat)) : List (PadId × Nat) :=
  (rs.flatMap fun r => (List.range ((r.2.1 + r.2.2 - 1) / 512 + 1 - r.2.1 / 512)).map fun i => (r.1, r.2.1 / 512 + i)).eraseDups

/-- A chunk of a pad. -/
def Pad.chunk (p : Pad) (i : Nat) : Chunk := ((p.chunks.find? fun x => x.1 == i).map fun x => x.2).getD { pend := 0, status := 0#8 }

/-- A chunk of a copy. -/
def Copy.chunk (cp : Copy) (x : PadId × Nat) : Chunk := ((cp.pad? x.1).map fun p => p.chunk x.2).getD { pend := 0, status := 0#8 }

/-- Whether a byte lies in one of some chunks. -/
def Loc.inChunks (x : Loc) (cs : List (PadId × Nat)) : Bool :=
  match x with
  | .pad p o => cs.contains (p, o / 512)
  | .acc _ => false
  | .vim _ _ => false
  | .virt _ _ _ => false
  | .cwn _ _ => false
  | .sys _ => false

/-- Under CHAIN, whether the chunk-map bit of every chunk of a place has been seen set, now or before (R222); what was stored there
before is then past for the command (R183). -/
def chainSeen (k : CoreRef) (m : Cmd) (x : Loc) (n : Nat) : Act Bool := do
  match x with
  | .pad p o =>
      if m.chained then do
        let (_, cp, _) ← ctxOf k
        let xs := chunksOf [(p, o, n)]
        let now := xs.filter fun x => !m.seen.contains x && (cp.chunk x).pend == 0
        onCore k fun c => c.modCmd m.id fun m => { m with seen := m.seen ++ now, early := m.early.filter fun e => !e.1.inChunks now }
        pure (xs.all fun x => m.seen.contains x || now.contains x)
      else pure true
  | _ => pure true

/-- A byte read, or one of those that stood there before, freely. -/
def pickEarly (b : Byte) : List Byte → Act Byte
  | [] => pure b
  | o :: t => do
      if ← chooseB then pure o else pickEarly b t

/-- Bytes that a command reads where its pushing core has stored since the push (R125). -/
def chooseEarly (x : Loc) (es : List (Loc × Byte)) : Nat → List Byte → Act (List Byte)
  | _, [] => pure []
  | i, b :: t => do
      let v ← pickEarly b ((es.filter fun e => e.1.meets 1 (x.plus i) 1).map fun e => e.2)
      let r ← chooseEarly x es (i + 1) t
      pure (v :: r)

/-- The command that an accessor is. -/
def Acc.cmd? (a : Acc) (c : Core) : Option Cmd := if a.owner = 0 then none else c.cmd? (a.owner - 1)

/-- A command's own writes not yet performed to what it reads are performed before (R191). -/
def ownFirst (a : Acc) (m : Cmd) (x : Loc) (n : Nat) : Act Unit :=
  if m.writes.any fun w => w.loc.meets w.data.length x n then do
    let qs := withEarlier (m.writes.map fun w => (w.loc.meets w.data.length x n, w))
    onCore a.k fun c => c.modCmd m.id fun m => { m with writes := (qs.filter fun p => !p.1).map fun p => p.2 }
    performSome a.k m ((qs.filter fun p => p.1).map fun p => p.2)
  else pure ()

/-- A command reads elements of `e` bytes at a place, each as it was or as it is after the writes it races with (R176). -/
def readEngine (a : Acc) (m : Cmd) (e : Nat) (x : Loc) (n : Nat) : Act (List Byte) := do
  ownFirst a m x n
  let (l, cp, c) ← ctxOf a.k
  let bs ← readPiece a x n .read
  let bs ← (match x with
    | .pad p o => mixReads (max e 1) (fun _ => true) (a.padBytes l cp c p o n) bs
    | _ => pure bs : Act (List Byte))
  if m.early.isEmpty then pure bs else chooseEarly x m.early 0 bs

/-- A command leaves an element for later. -/
def leaveShort (a : Acc) (m : Cmd) (n : Nat) : Act (List Byte) := do
  holdIf (!m.partly)
  onCore a.k fun c => c.modCmd m.id fun m => { m with short := true }
  pure (List.replicate n 0#8)

/-- A command reads elements one by one: what it has read stays; in a step that reads only some, each of the others is read now or
left, freely (R176). -/
def readElems (a : Acc) : List (Loc × Nat) → Act (List Byte)
  | [] => pure []
  | (x, n) :: t => do
      let (_, _, c) ← ctxOf a.k
      let m ← need (a.cmd? c)
      let b ← (match m.got.find? fun g => g.1 == .place a.who.tlb x with
        | some g => pure g.2
        | none => do
            let ok ← chainSeen a.k m x n
            let now ← (if m.partly then chooseB else pure true : Act Bool)
            if ok && now then do
              let b ← readEngine a m n x n
              onCore a.k fun c => c.modCmd m.id fun m => { m with got := m.got ++ [(.place a.who.tlb x, b)] }
              pure b
            else leaveShort a m n : Act (List Byte))
      let r ← readElems a t
      pure (b ++ r)

/-- A piece as elements of `e` bytes. -/
def elemsOf (e : Nat) (q : Loc × Nat) : List (Loc × Nat) :=
  (cutAt (max e 1) q.2 q.1.offset q.2).map fun y => (q.1.plus (y.1 - q.1.offset), y.2)

/-- A command reads pieces of elements of `e` bytes. -/
def readSources (a : Acc) (e : Nat) : List (Loc × Nat) → Act (List Byte)
  | [] => pure []
  | (x, n) :: t => do
      let (_, _, c) ← ctxOf a.k
      let m ← need (a.cmd? c)
      let b ← (if m.partly || !m.got.isEmpty then readElems a (elemsOf e (x, n))
        else do
          let ok ← chainSeen a.k m x n
          holdIf (!ok)
          readEngine a m e x n : Act (List Byte))
      let r ← readSources a e t
      pure (b ++ r)

/-- A command goes on when it has read all it has asked for. -/
def readsDone (a : Acc) : Act Unit := do
  let (_, _, c) ← ctxOf a.k
  holdIf (((a.cmd? c).map fun m => m.short).getD false)

/-- The remote lines an accessor asked for are spent. -/
def spendLines (a : Acc) : Act Unit := onCore a.k fun c => { c with remote := c.remote.filter fun r => r.owner != a.owner }

/-- A checked read of `n` bytes at a pointer (R124). -/
def readPtr (a : Acc) (p : Word) (n align : Nat) : Act (List Byte) := do
  let ps ← checkAll a p n align .read []
  let b ← readPieces a .read ps
  spendLines a
  pure b

/-! ### Control-core accesses -/

/-- The control core of a core as accessor. -/
def ctlAcc (k : CoreRef) : Acc := { k := k, who := { agent := .core k, src := 0, tlb := 0 }, unit := .control, owner := 0 }

/-- The commands of a copy that a core pushed, with their cores. -/
def Copy.pushedBy (cp : Copy) (rank : Nat) : List (Nat × Cmd) :=
  cp.cores.flatMap fun d => (d.eng.cmds.filter fun m => m.issuer d.rank == rank).map fun m => (d.rank, m)

/-- Change the commands of a copy that a core pushed. -/
def Copy.modPushed (cp : Copy) (rank : Nat) (f : Core → Cmd → Cmd) : Copy :=
  { cp with cores := cp.cores.map fun d =>
      { d with eng := { d.eng with cmds := d.eng.cmds.map fun m => if m.issuer d.rank = rank then f d m else m } } }

/-- What stood at a place is past for the loads of a core (R125). -/
def Copy.dropOld (cp : Copy) (rank : Nat) (x : Loc) (n : Nat) : Copy :=
  cp.modPushed rank fun _ m => { m with old := m.old.filter fun p => !(p.1.meets 1 x n) }

/-- What a core loads of a place where commands that it pushed have written: each byte is the one read, or the one before; once the
new one is read it stays (R125). -/
def readOld (k : CoreRef) (x : Loc) : Nat → List Byte → Act (List Byte)
  | _, [] => pure []
  | i, b :: t => do
      let (_, cp, c) ← ctxOf k
      let v ← (match ((cp.pushedBy c.rank).flatMap fun p => p.2.old).find? fun e => e.1.meets 1 (x.plus i) 1 with
        | none => pure b
        | some e => do
            if ← chooseB then pure e.2
            else do
              modify fun s => s.modCopy k fun cp => cp.dropOld c.rank (x.plus i) 1
              pure b : Act Byte)
      let r ← readOld k x (i + 1) t
      pure (v :: r)

/-- A read in which a run of bytes that commands are writing shows byte by byte (R305, R410); `mine`: commands of its own core's pushes
too. -/
def readRuns (a : Acc) (mine : Bool) (x : Loc) (n : Nat) : Act (List Byte) := do
  let (l, cp, c) ← ctxOf a.k
  let runs := ((a.racers cp c x).filter fun r => mine || r.2.issuer r.1.rank != c.rank).flatMap fun r => r.2.writes.filter fun w => w.bytewise
  let b ← readPiece a x n .read
  match x with
  | .pad p o => mixReads 1 (fun i => runs.any fun w => w.loc.meets w.data.length (x.plus i) 1) (a.padBytes l cp c p o n) b
  | _ => pure b

/-- The pieces of a load of the control core. -/
def loadPieces (k : CoreRef) : List (Loc × Nat) → Act (List Byte)
  | [] => pure []
  | (x, n) :: t => do
      let b ← readRuns (ctlAcc k) false x n
      let (_, cp, c) ← ctxOf k
      let b ← (if (cp.pushedBy c.rank).any fun p => p.2.old.any fun e => e.1.meets 1 x n then readOld k x 0 b else pure b : Act (List Byte))
      let r ← loadPieces k t
      pure (b ++ r)

/-- A control-core load (R122, R123). -/
def ctlRead (k : CoreRef) (p : Word) (n align : Nat) : Act (List Byte) := do
  let x ← checkPtr (ctlAcc k) p n align .read
  let ps ← resolve (ctlAcc k) x n .read []
  let b ← loadPieces k ps
  spendLines (ctlAcc k)
  pure b

/-- What an engine of a core reads of one byte now, nothing where it cannot tell. -/
def engByte (s : State) (l : Launch) (cp : Copy) (c : Core) (x : Loc) : Option Byte := ctlByte s l cp { c with port := [] } x

/-- Bytes of a store as a command finds them that has yet to read (R125); the oldest stay. -/
def Cmd.keepEarly (m : Cmd) (s : State) (l : Launch) (cp : Copy) (d c : Core) (x : Loc) (n : Nat) : Cmd :=
  if m.state = .running && m.op != .vrun then m
  else
    { m with early := m.early ++ (List.range n).filterMap fun i =>
        (engByte s l cp (match x with | .virt _ _ _ => c | _ => d) (x.plus i)).map fun b => (x.plus i, b) }

/-- A store of a core races with the commands that it has pushed: they may still read what stood there, and its own loads no longer
do (R125). -/
def storeRaces (k : CoreRef) (x : Loc) (n : Nat) : Act Unit := do
  let s ← get
  let (l, cp, c) ← ctxOf k
  if (cp.pushedBy c.rank).isEmpty then pure ()
  else modify fun t => t.modCopy k fun cp' =>
    (cp'.modPushed c.rank fun d m => m.keepEarly s l cp d c x n).dropOld c.rank x n

/-- Hold the bytes of a store over its pieces in the open segment; `before` of its bytes are held already. -/
def holdPieces (k : CoreRef) (before : Nat) : List (Loc × Nat) → List Byte → Act Unit
  | [], _ => pure ()
  | (x, n) :: t, bs => do
      let (_, _, c) ← ctxOf k
      storeRaces k x n
      match x with
      | .virt va node d => holdWrite (ctlAcc k) c.muslin.seg 0 none node va d (bs.take n) (before, bs.length - n)
      | .pad _ _ => pure ()
      | .acc _ => pure ()
      | .vim _ _ => pure ()
      | .cwn _ _ => pure ()
      | .sys _ => pure ()
      holdPieces k (before + n) t (bs.drop n)

/-- Tiles whose banks a store touches lose their valid bit (R205). -/
def Core.spoilTiles (c : Core) (off n : Nat) : Core :=
  let hit (i : Nat) : Bool := decide (i * 4096 < off + n) && decide (off < i * 4096 + 4096)
  let ls : Vector Lane 128 := Vector.ofFn fun i => { c.tens.lanes[i.val] with valid := c.tens.lanes[i.val].valid && !hit i.val }
  { c with tens := { c.tens with lanes := ls } }

/-- The port of a core accepts a store (R308). -/
def acceptStore (k : CoreRef) (p : PadId) (o : Nat) (bs : List Byte) : Act Unit := do
  let (_, cp, _) ← ctxOf k
  modify fun s => s.modCopy k fun c => { c with stores := c.stores + 1 }
  onCore k fun c => { c with port := c.port ++ [{ id := cp.stores, pad := p, off := o, data := bs, read := none }] }
  onPad k p fun q => { q with mem := q.mem.mend o bs.length }

/-- A control-core store to a place that has passed its checks; the coherent window is left to its commit point
(R123). -/
def ctlStore (k : CoreRef) (x : Loc) (bs : List Byte) (kind : Kind) : Act Unit := do
  let s ← get
  let (_, cp, c) ← ctxOf k
  let ps ← resolve (ctlAcc k) x bs.length kind []
  let trap := badTrap s (ctlAcc k) cp c x bs.length kind (some (0, 0))
  raiseIf trap.isSome (trap.getD (Trap.mk' 0x10))
  match x with
  | .virt _ _ _ => holdPieces k 0 ps bs
  | .pad p o => do
      storeRaces k x bs.length
      acceptStore k p o bs
  | .acc o => do
      storeRaces k x bs.length
      onCore k fun c => { c.spoilTiles o bs.length with tens := { (c.spoilTiles o bs.length).tens with acc := c.tens.acc.put o bs } }
  | .vim _ _ => pure ()
  | .cwn _ _ => pure ()
  | .sys _ => pure ()

end Sys2Proof.Machine
end

