-- ==== Sys2Proof/Machine/Commit.lean ====
section
/-! DEFINITION. Regions and commit points: signatures (R363 to R365), segments and their release (R346, R361, R362),
the commit log and its replay (R43, R366, R367), and the shape of a commit point (R113). -/

namespace Sys2Proof.Machine

/-! ### CRC64 (R363) -/

/-- One bit of the division. -/
def crc64Bit (c : BitVec 64) : BitVec 64 :=
  if c.getLsbD 63 then (c <<< 1) ^^^ 0x42F0E1EBA9EA3693#64 else c <<< 1

/-- One byte. -/
def crc64Byte (c : BitVec 64) (b : Byte) : BitVec 64 :=
  (List.range 8).foldl (fun d _ => crc64Bit d) (c ^^^ (b.setWidth 64 <<< 56))

/-- CRC64 of a byte string. -/
def crc64 (bs : List Byte) : BitVec 64 := bs.foldl crc64Byte (BitVec.allOnes 64) ^^^ BitVec.allOnes 64

/-- CRC64 of a line: pointer, mask, data with unmasked bytes zero. -/
def HeldLine.crc (h : HeldLine) : BitVec 64 := crc64 (rowBytes h.ptr 8 ++ rowBytes h.mask 8 ++ rowBytes h.data 64)

/-- The signature of a segment of a core. -/
def Core.segSig (c : Core) (id : Nat) (fold : BitVec 64) : BitVec 64 :=
  ((c.muslin.lines.filter fun h => h.seg == id).map HeldLine.crc).foldl (· + ·) fold

/-- SIGF's fold (R364). -/
def foldIn (fold v : BitVec 64) : BitVec 64 := crc64 (rowBytes fold 8 ++ rowBytes v 8)

/-! ### Segments (R361) -/

/-- The segments of other cores that a commit point of `c` releases. -/
def Copy.passedTo (cp : Copy) (c : Core) : List (Nat × Seg) :=
  cp.cores.flatMap fun d =>
    if d.rank = c.rank then []
    else (d.muslin.closed.filter fun g => match g.counted with
      | some (r, b, gen) => r == c.rank && c.muslin.returned.contains (b, gen)
      | none => false).map fun g => (d.rank, g)

/-- The signature of every segment of a core: the open one and the closed ones. -/
def Core.ownSig (c : Core) : BitVec 64 :=
  (c.muslin.closed.map fun g => c.segSig g.id g.fold).foldl (· + ·) (c.segSig c.muslin.seg c.muslin.fold)

/-- Uncorrectable words of Muslin lie in lines that are held (R357). -/
def Muslin.trimBad (m : Muslin) : Muslin :=
  { m with bad := m.bad.filter fun w => m.lines.any fun h => h.ptr.toNat ≤ w.toNat && w.toNat < h.ptr.toNat + 64 }

/-- A core after its commit point: nothing held, a new segment open. -/
def Core.opened (c : Core) : Core :=
  { c with muslin := { c.muslin with lines := [], closed := [], seg := c.muslin.seg + 1, fold := 0#64,
                                     commits := c.muslin.commits + 1, bad := [] } }

/-- A core without some closed segments. -/
def Core.without (c : Core) (ids : List Nat) : Core :=
  if ids.isEmpty then c
  else { c with muslin := Muslin.trimBad { c.muslin with lines := c.muslin.lines.filter fun h => !ids.contains h.seg,
                                                         closed := c.muslin.closed.filter fun g => !ids.contains g.id } }

/-- The words of an operation descriptor (R365). -/
structure OpDesc where
  op : Nat
  w1 : Word
  w2 : Word
  w3 : Word
deriving DecidableEq, Repr

/-- Word 0 of a log entry. -/
def logWord (op core seq : Nat) : Word := BitVec.ofNat 64 (op * 2 ^ 56 + core * 2 ^ 36 + seq % 2 ^ 32)

/-- CRC64 of an operation descriptor of a core. -/
def OpDesc.crc (o : OpDesc) (c : Core) : BitVec 64 :=
  crc64 (rowBytes (logWord o.op c.rank c.muslin.commits) 8 ++ rowBytes o.w1 8 ++ rowBytes o.w2 8 ++ rowBytes o.w3 8)

/-- The other cores' segments a commit point releases: core, BARV number, signature. -/
def Copy.passedSigs (cp : Copy) (c : Core) : List (Nat × Nat × BitVec 64) :=
  (cp.passedTo c).map fun p => (p.1, p.2.barv, ((cp.core? p.1).map fun d => d.segSig p.2.id p.2.fold).getD 0#64)

/-- The signature of a commit point (R365). -/
def Copy.commitSig (cp : Copy) (c : Core) (o : OpDesc) : BitVec 64 :=
  ((cp.passedSigs c).map fun p => p.2.2).foldl (· + ·) (c.ownSig + o.crc c)

/-- A core whose commands must complete before a commit point of `c` releases (R361). -/
def Copy.releaseWaits (cp : Copy) (c : Core) : Bool :=
  (cp.passedTo c).any fun p => cp.cores.any fun d => d.eng.cmds.any fun m => m.issuer d.rank == p.1 && m.seg == p.2.id

/-! ### Release (R362) -/

/-- Whether a slot opening still stands: a record of an abandoned opening is discarded (R344). -/
def State.opened (s : State) (ctx : BitVec 6) (r : RecordOf) : Bool := s.opens.contains (ctx, r.region, r.slot, r.opening)

/-- Whether a held line's home refuses it: a word that is uncorrectable and covered only in part (R421), or an
unreachable node (Table 11-6). -/
def State.refuses (s : State) (h : HeldLine) : Bool :=
  match h.node with
  | some n => !s.reachable n
  | none => s.dram.bad.any fun w => h.dpa ≤ 8 * w && 8 * w < h.dpa + 64 &&
      (let m := h.mask.extractLsb' (8 * w - h.dpa) 8
       m != 0#8 && m != 0xFF#8)

/-- The agents that a core of a launch is for durable memory: its own, and the same core of the other copy. -/
def State.agentsOf (s : State) (k : CoreRef) : List Nat :=
  ((s.core? k).toList ++ (s.core? (withRole k (otherRole k.role))).toList).map fun c => c.phys

/-- The agents of the cores whose segments a commit point releases. -/
def State.ownersOf (s : State) (k : CoreRef) (segs : List (Nat × Nat × BitVec 64)) : List Nat :=
  segs.flatMap fun p => s.agentsOf (atRank k p.1)

/-- The bytes of a line under its mask, in runs: whole 8-byte words, and the bytes of the others one by one. -/
def maskedRuns (mask : BitVec 64) (data : BitVec 512) : List (Nat × List Byte) :=
  (List.range 8).flatMap fun i =>
    if mask.extractLsb' (8 * i) 8 = 0xFF#8 then [(8 * i, natLe 8 (fieldNat data (64 * i) 64))]
    else ((List.range 8).filter fun j => mask.getLsbD (8 * i + j)).map fun j => (8 * i + j, [data.extractLsb' (8 * (8 * i + j)) 8])

/-- Write the masked bytes of a line at a DPA. -/
def State.putMasked (s : State) (dpa : Nat) (mask : BitVec 64) (data : BitVec 512) : State :=
  (maskedRuns mask data).foldl (fun t r => t.dramPut (dpa + r.1) r.2) s

/-- The same for some agents first (R308, R313). -/
def State.lagMasked (s : State) (ws : List Nat) (dpa : Nat) (mask : BitVec 64) (data : BitVec 512) : State :=
  (maskedRuns mask data).foldl (fun t r => t.lagPut ws false (dpa + r.1) r.2) s

/-- Perform one released line of core `own` for the core that commits: at its home, on its way to a host (R323), or sent to its node
(R320). -/
def State.performLine (s : State) (l : Launch) (rank own : Nat) (h : HeldLine) : State :=
  match h.node with
  | some n =>
      (s.sendReq 2 n l.part (remoteAddr n h.dpa) (rowBytes h.mask 8 ++ rowBytes h.data 64) .none l.lid rank
        (h.slotOf.map fun r => (l.ctx, r))).2
  | none =>
      if h.dpa / 2 ^ 44 = 2 || h.dpa / 2 ^ 44 = 3 then
        { s with host := { s.host with writes := s.host.writes ++ [{ lid := l.lid, dpa := h.dpa, mask := h.mask, data := h.data }] } }
      else s.lagMasked ([rank, own].eraseDups.flatMap fun r => s.agentsOf { lid := l.lid, role := .primary, rank := r }) h.dpa h.mask h.data

/-- A slot becomes torn when a record of its opening is released in part (R346). -/
def State.tear (s : State) (ctx : BitVec 6) (r : RecordOf) : State :=
  match s.region? ctx r.region with
  | some g => if s.opened ctx r && s.slotState g r.slot == 1 then s.slotPut g r.slot (s.slotCount g r.slot) (s.slotTag g r.slot) 2 else s
  | none => s

/-- Release one line of core `own` of a launch, for the core that commits: whether it is a plain line that was refused, and the state
after. A record of an opening that no longer stands is discarded. -/
def State.releaseLine (s : State) (l : Launch) (rank own : Nat) (h : HeldLine) (lost : Bool) : Bool × State :=
  match h.slotOf with
  | some r =>
      if !s.opened l.ctx r then (false, s)
      else if lost || s.refuses h then (false, s.tear l.ctx r)
      else (false, s.performLine l rank own h)
  | none => if lost || s.refuses h then (true, s) else (false, s.performLine l rank own h)

/-- Whether the homes of some lines are ready (R406). -/
def State.linesReady (s : State) (ls : List (Nat × HeldLine)) : Bool :=
  ls.all fun p => p.2.node.isSome || s.dpaReady p.2.dpa

/-- A closed segment of a core by its BARV. -/
def Core.segOf (c : Core) (barv : Nat) : Option Seg := c.muslin.closed.find? fun g => g.barv == barv

/-- The lines that a commit point of `c` has still to release: its own, and those of the segments of other cores it names. -/
def Copy.releaseSet (cp : Copy) (c : Core) (segs : List (Nat × Nat × BitVec 64)) : List (Nat × HeldLine) :=
  (c.muslin.lines.map fun h => (c.rank, h)) ++
  segs.flatMap fun p => match (cp.core? p.1).bind fun d => (d.segOf p.2.1).map fun g => (d, g) with
    | some (d, g) => (d.muslin.lines.filter fun h => h.seg == g.id).map fun h => (d.rank, h)
    | none => []

/-- Drop the segments a commit point of `c` has released from a copy, and open `c`'s next segment. -/
def Copy.dropReleased (cp : Copy) (c : Core) (segs : List (Nat × Nat × BitVec 64)) : Copy :=
  { cp with cores := cp.cores.map fun d =>
              if d.rank = c.rank then d.opened
              else d.without ((segs.filter fun p => p.1 == d.rank).filterMap fun p => (d.segOf p.2.1).map fun g => g.id) }

/-- Whether a line holds an uncorrectable word under its mask (R357). -/
def Core.lineBad (c : Core) (h : HeldLine) : Bool :=
  c.muslin.bad.any fun w => h.ptr.toNat ≤ w.toNat && w.toNat < h.ptr.toNat + 64 && h.mask.extractLsb' (w.toNat - h.ptr.toNat) 8 != 0#8

/-- Release one line of a commit point in progress: it leaves Muslin. A line whose B-die has been retired meanwhile may be lost
(R346), an uncorrectable one kills (Table 10-3). -/
def releaseOne (k : CoreRef) (p : Nat × HeldLine) : Act Unit := do
  let s ← get
  let (l, cp, _) ← ctxOf k
  holdIf (!s.linesReady [p])
  let d ← need (cp.core? p.1)
  let lost ← (if s.rel.dieRetired (dieOf d.phys) then chooseB else pure false : Act Bool)
  let (bad, s1) := if d.lineBad p.2 then (true, (s.releaseLine l k.rank p.1 p.2 true).2) else s.releaseLine l k.rank p.1 p.2 lost
  set s1
  modify fun s => s.modCopy k fun c => c.modCore p.1 fun d => { d with muslin := { d.muslin with lines := d.muslin.lines.erase p.2 } }
  onCore k fun c => { c with commit := match c.commit with
    | .releasing sig segs refused => .releasing sig segs (refused || bad)
    | x => x }

/-- A commit point that is releasing goes on by one line; after the last, which all agents then see, its region is closed. A plain refused line kills the launch
when all else is performed (R362). -/
def releaseSet (k : CoreRef) : Act Unit := do
  let (_, cp, c) ← ctxOf k
  match c.commit with
  | .releasing _ segs _ => do
      match cp.releaseSet c segs with
      | [] => pure ()
      | p :: t => do
          releaseOne k p
          holdIf (!t.isEmpty)
      let c' ← coreNow k
      match c'.commit with
      | .releasing sig segs refused => do
          modify fun s => (s.settleOwn (s.agentsOf k ++ s.ownersOf k segs)).modCopy k fun cp => cp.dropReleased c' segs
          onCore k fun d => { d with commit := .closed sig segs }
          raiseIf refused { Trap.mk' 0x10 with durable := true }
      | _ => pure ()
  | _ => pure ()

/-- Another line of a commit point in progress is released before its turn: the lines go in any order (R362). -/
def releaseNth (k : CoreRef) (i : Nat) : Act Unit := do
  let (l, cp, c) ← ctxOf k
  holdIf (!l.state.live)
  match c.commit with
  | .releasing _ segs _ => do
      let p ← need ((cp.releaseSet c segs)[i]?)
      releaseOne k p
  | _ => pure ()

/-! ### Causality (R311) -/

/-- No store that core `rank` has read is short of device scope: what the core writes next at device scope then follows
it for every agent. -/
def Copy.causal (cp : Copy) (rank : Nat) : Bool :=
  (cp.home.all fun h => !h.readOf rank) && cp.cores.all fun c => c.rank != rank || c.port.all fun h => h.read.isNone

/-! ### Replay (R43, R367) -/

/-- The next entries of the log for a copy: releases of other cores' segments, then the commit point's own. -/
def logHead : List LogEntry → List LogEntry × Option LogEntry
  | [] => ([], none)
  | e :: t => if e.op = 0 then ((e :: (logHead t).1), (logHead t).2) else ([], some e)

/-- Discard the segments a logged commit point released, checking signatures in class D; nothing when a segment it
names is not closed yet, or commands whose writes belong to it have not completed. -/
def discardLogged (cls : Nat) (busy : Nat → Nat → Bool) (cores : List Core) : List LogEntry → Option (Except Unit (List Core))
  | [] => some (.ok cores)
  | e :: t =>
      match cores.find? fun d => d.rank == e.core with
      | none => none
      | some d =>
          match d.segOf e.seq with
          | none => none
          | some g =>
              if busy d.rank g.id then none
              else if cls = 2 && d.segSig g.id g.fold != e.sig then some (.error ())
              else discardLogged cls busy (cores.map fun x => if x.rank == d.rank then x.without [g.id] else x) t

/-- Whether commands that a core pushed in a segment have not completed. -/
def Copy.segBusy (cp : Copy) (rank seg : Nat) : Bool :=
  cp.cores.any fun d => d.eng.cmds.any fun m => m.issuer d.rank == rank && m.seg == seg

/-- Whether the core that the log names next can no longer come to its commit point: it has left its code, or waits at a
checkpoint. -/
def Copy.pastCommit (cp : Copy) (rank : Nat) : Bool :=
  match cp.core? rank with
  | some c => c.exited || c.block == .ckpt
  | none => true

/-- A replayed commit point: the logged result; the copy waits for its turn in the order of the log (R43), and a log that names
another operation, or a core that cannot come, kills (R367, log entry 74). -/
def replayCommit (k : CoreRef) (o : OpDesc) : Act (Word × Word × List (BitVec 32)) := do
  let (l, cp, c) ← ctxOf k
  let (segs, own) := logHead (l.log.drop cp.replay)
  let e ← need own
  raiseIf (e.core != c.rank && cp.pastCommit e.core) (Trap.mk' 0x13)
  holdIf (e.core != c.rank)
  raiseIf (e.op != o.op) (Trap.mk' 0x13)
  let total := (segs.map fun x => x.sig).foldl (· + ·) (c.ownSig + o.crc c)
  let r ← need (discardLogged l.packet.prot cp.segBusy cp.cores segs)
  match r with
  | .error _ => raiseC 0x13
  | .ok cores => do
      raiseIf (l.packet.prot == 2 && total != e.sig) (Trap.mk' 0x13)
      modify fun s => s.modCopy k fun cp =>
        { cp with cores := cores.map fun d => if d.rank = c.rank then { d.opened with commit := .idle } else d,
                  replay := cp.replay + segs.length + 1, binding := e.binding }
      pure (e.res, e.resh, e.words)

/-! ### A commit point (R113) -/

/-- Log a commit point's result: the entries of the segments it released, then its own; the copy takes the binding in
force (R27), and an abort that waited takes effect (R291). -/
def logResult (k : CoreRef) (o : OpDesc) (seq : Nat) (sig : BitVec 64) (segs : List (Nat × Nat × BitVec 64))
    (r : Word × Word × List (BitVec 32)) : Act Unit := do
  modify fun s =>
    match s.launch? k.lid with
    | none => s
    | some l =>
        let b := s.pbBinding l.part.toNat
        let zero := segs.map fun p =>
          ({ op := 0, core := p.1, seq := p.2.1, res := 0#64, resh := 0#64, sig := p.2.2, binding := b, words := [] } : LogEntry)
        let own : LogEntry := { op := o.op, core := k.rank, seq := seq, res := r.1, resh := r.2.1, sig := sig, binding := b,
                                words := r.2.2 }
        let s1 := s.modLaunch k.lid fun l => { l with log := l.log ++ zero ++ [own], redo := false }
        let s2 := s1.modCopy k fun cp => { cp with replay := l.log.length + zero.length + 1, binding := b }
        s2.modCore k fun c => { c with commit := .idle }
  modify fun s => s.runDeferredOf k.lid

/-- The operation a core waits with at a commit point. -/
def CommitState.waitsWith (c : CommitState) : Option OpDesc :=
  match c with
  | .waiting op w1 w2 w3 => some { op := op, w1 := w1, w2 := w2, w3 := w3 }
  | .idle => none
  | .closed _ _ => none
  | .releasing _ _ _ => none
  | .sent _ _ _ => none
  | .answered _ _ _ _ _ => none

/-- CloseRegion: the log has room, commands of released segments have completed, no store that the cores concerned have read is
short of device scope (R311); then the release begins. -/
def closeRegion (k : CoreRef) (o : OpDesc) : Act Unit := do
  let (l, cp, c) ← ctxOf k
  holdIf (cp.releaseWaits c)
  let segs := cp.passedSigs c
  holdIf (!cp.causal c.rank || segs.any fun p => !cp.causal p.1)
  raiseIf (decide (Config.logEntries < l.log.length + segs.length + 1)) (Trap.mk' 0x0E)
  onCore k fun d => { d with commit := .releasing (cp.commitSig c o) segs false }

/-- Whether a command is a block-table command, which is its own commit point (R197). -/
def isKvCommit (o : EOp) : Bool := o == .kva || o == .kvdem || o == .kvrefInc || o == .kvrefDec

/-- Whether a command that the core pushed has not completed, its gang replicas in the partners included (R113). A
block-table command waits for the others in its own commit point. -/
def Core.pushesBusy (c : Core) : Bool :=
  (c.eng.cmds.any fun m => !m.lane && !isKvCommit m.op) || !c.eng.gangs.isEmpty

/-- The effect of a commit point whose region is closed, and its entry in the log. Writes that its core has read are performed before
the effect, and those that the cores of released segments have read (R311). -/
def performCommit (k : CoreRef) (o : OpDesc) (perform : Act (Word × Word × List (BitVec 32))) :
    Act (Word × Word × List (BitVec 32)) := do
  let r ← perform
  let c ← coreNow k
  match c.commit with
  | .closed sig segs => logResult k o (c.muslin.commits - 1) sig segs r
  | .answered sig segs _ _ _ => logResult k o (c.muslin.commits - 1) sig segs r
  | .idle => pure ()
  | .waiting _ _ _ _ => pure ()
  | .releasing _ _ _ => pure ()
  | .sent _ _ _ => pure ()
  pure r

/-- A commit point of a core: replayed from the log, or closed and performed once. In class D the compare step
closes it and the other copy takes the logged result; the release and `perform` may stall and be tried again. -/
def commitPoint (k : CoreRef) (o : OpDesc) (perform : Act (Word × Word × List (BitVec 32))) :
    Act (Word × Word × List (BitVec 32)) := do
  let (l, cp, c) ← ctxOf k
  match c.commit with
  | .closed _ _ => performCommit k o perform
  | .sent _ _ _ => performCommit k o perform
  | .answered _ _ _ _ _ => performCommit k o perform
  | .releasing _ _ _ => do
      releaseSet k
      performCommit k o perform
  | _ =>
      holdIf c.pushesBusy
      if cp.replay < l.log.length then replayCommit k o
      else if l.packet.prot = 2 || k.role = .third then do
        onCore k fun c => { c with commit := .waiting o.op o.w1 o.w2 o.w3 }
        hold
      else do
        closeRegion k o
        modify fun s => s.settleLag (s.agentsOf k ++ s.ownersOf k (cp.passedSigs c))
        releaseSet k
        performCommit k o perform

/-! ### Commit points of any agent, and requests they make of other nodes (R320, R396, R400) -/

/-- A commit point of the current agent: an Anole core performs it directly (R396). -/
def commitAny (o : OpDesc) (perform : Act (Word × Word × List (BitVec 32))) : Act (Word × Word × List (BitVec 32)) := do
  let s ← get
  match s.cur with
  | .core k => commitPoint k o perform
  | .anole a => do
      let r ← perform
      modify fun s => s.modAnole a fun c => { c with commit := .idle }
      pure r
  | .vec _ => hold
  | .none => hold

/-- How far the current agent's commit point is. -/
def State.commitOf (s : State) : Option CommitState :=
  match s.cur with
  | .core k => (s.core? k).map fun c => c.commit
  | .anole a => some s.anoles[a.toNat].commit
  | .vec _ => none
  | .none => none

/-- Set it. -/
def State.setCommit (s : State) (c : CommitState) : State :=
  match s.cur with
  | .core k => s.modCore k fun x => { x with commit := c }
  | .anole a => s.modAnole a fun x => { x with commit := c }
  | .vec _ => s
  | .none => s

/-- The partition a request names as its source: the launch's; 0 for an Anole core. -/
def State.srcPart (s : State) : BitVec 4 :=
  match s.cur with
  | .core k => ((s.launch? k.lid).map fun l => l.part).getD 0#4
  | .anole _ => 0#4
  | .vec _ => 0#4
  | .none => 0#4

/-- Launch and rank of the current agent, for a request's bookkeeping. -/
def State.curRank (s : State) : Nat × Nat :=
  match s.cur with
  | .core k => (k.lid, k.rank)
  | .anole _ => (0, 0)
  | .vec _ => (0, 0)
  | .none => (0, 0)

/-- Ask another node for the effect of a commit point and wait for its answer: status, and two result words. Status
0x10 is a node that cannot be reached or did not answer. -/
def askRemote (op : Nat) (node : BitVec 12) (addr : Word) (payload : List Byte) : Act (Byte × Word × Word) := do
  let s ← get
  let c ← need s.commitOf
  let start (sig : BitVec 64) (segs : List (Nat × Nat × BitVec 64)) : Act (Byte × Word × Word) := do
    raiseIf (!s.link.nodeSet) (Trap.mk' 0x05 addr)
    if !s.reachable node then pure (0x10#8, 0#64, 0#64)
    else do
      let (tag, s1) := s.sendReq op node s.srcPart addr payload s.cur s.curRank.1 s.curRank.2 none
      set (s1.setCommit (.sent sig segs tag))
      hold
  match c with
  | .closed sig segs => start sig segs
  | .idle => start 0#64 []
  | .sent _ _ _ => hold
  | .answered _ _ st lo hi => pure (st, lo, hi)
  | .waiting _ _ _ _ => hold
  | .releasing _ _ _ => hold

end Sys2Proof.Machine
end

