-- ==== Sys2Proof/Machine/Flags.lean ====
section
/-! DEFINITION. The sticky flags of `sr.policy` (R24, R29, R90): their bits, what an MTS and a unit's completion do
to them, and the fault a completion raises. The scalar instructions set none (R112). -/

namespace Sys2Proof.Machine

/-- Flags in the order of `sr.policy` [22:16]. -/
abbrev Flags := BitVec 7

/-- No flag. -/
def fNone : Flags := 0#7
/-- Invalid, divide-by-zero, overflow, underflow, inexact, data format, saturation. -/
def fInvalid : Flags := 1#7
def fDivZero : Flags := 2#7
def fOverflow : Flags := 4#7
def fUnderflow : Flags := 8#7
def fInexact : Flags := 16#7
def fFormat : Flags := 32#7
def fSaturation : Flags := 64#7

/-- Add flags to a policy. -/
def Policy.raise (p : Policy) (f : Flags) : Policy := { p with flags := p.flags ||| f }

/-- A unit of a core sets flags in a cycle (R29). -/
def Core.raiseFlags (c : Core) (cc : Nat) (f : Flags) : Core :=
  { c with policy := c.policy.raise f, raisedAt := (cc, (if c.raisedAt.1 = cc then c.raisedAt.2 else fNone) ||| f) }

/-- The flags that its units have set in this cycle: an MTS in it applies before them (R29). -/
def Core.raisedNow (c : Core) (cc : Nat) : Flags := if c.raisedAt.1 = cc then c.raisedAt.2 else fNone

/-- The fault a completion raises for its flags: Data Format when enabled, else Arithmetic Trap for an enabled flag
(R90); 0 for none. -/
def Policy.faultOf (p : Policy) (f : Flags) : Nat :=
  if p.dfen && (f &&& fFormat) != 0#7 then 0x16
  else if (f.extractLsb' 0 5 &&& p.aen) != 0#5 then 0x17
  else 0

end Sys2Proof.Machine
end

