-- ==== Sys2Proof/Machine/Num.lean ====
section
/-! DEFINITION. Number formats and exact arithmetic (R80 to R90): values as dyadic numbers, decoding, rounding in
every mode, conversions with their flags, and the operations of one rounding. -/

namespace Sys2Proof.Machine

/-! ### Exact values -/

/-- A value: NaN, an infinity, or (−1)^neg · m · 2^e. A zero keeps its sign. -/
inductive Val where
  | nan
  | inf (neg : Bool)
  | fin (neg : Bool) (m : Nat) (e : Int)
deriving DecidableEq, Repr

/-- Positive zero. -/
def vZero : Val := .fin false 0 0

/-- An integer as a value. -/
def ofIntV (i : Int) : Val := .fin (decide (i < 0)) i.natAbs 0

/-- 2^k times a natural number, rounded down. -/
def shiftN (m : Nat) (k : Int) : Nat := if 0 ≤ k then m * 2 ^ k.toNat else m / 2 ^ (-k).toNat

/-- Whether a value is zero. -/
def Val.isZero (v : Val) : Bool :=
  match v with
  | .fin _ m _ => m == 0
  | .nan => false
  | .inf _ => false

/-- Whether a value is NaN. -/
def Val.isNan (v : Val) : Bool :=
  match v with
  | .nan => true
  | .inf _ => false
  | .fin _ _ _ => false

/-- The sign. -/
def Val.neg (v : Val) : Bool :=
  match v with
  | .nan => false
  | .inf s => s
  | .fin s _ _ => s

/-- Scale by 2^k. -/
def Val.scale (v : Val) (k : Int) : Val :=
  match v with
  | .fin s m e => .fin s m (e + k)
  | .nan => .nan
  | .inf s => .inf s

/-- Change the sign. -/
def Val.flip (v : Val) : Val :=
  match v with
  | .fin s m e => .fin (!s) m e
  | .nan => .nan
  | .inf s => .inf (!s)

/-- Compare magnitudes m·2^e: less than. -/
def ltMag (m : Nat) (e : Int) (n : Nat) (f : Int) : Bool :=
  if e ≤ f then decide (m < n * 2 ^ (f - e).toNat) else decide (m * 2 ^ (e - f).toNat < n)

/-- Less than, for values that are not NaN; zeros are equal. -/
def Val.lt (a b : Val) : Bool :=
  match a, b with
  | .nan, _ => false
  | _, .nan => false
  | .inf s, .inf t => s && !t
  | .inf s, .fin _ _ _ => s
  | .fin _ _ _, .inf t => !t
  | .fin s m e, .fin t n f =>
      if m = 0 && n = 0 then false
      else if m = 0 then !t && n != 0
      else if n = 0 then s
      else if s != t then s
      else if s then ltMag n f m e
      else ltMag m e n f

/-- Equality as numbers: zeros are equal, NaN equals nothing. -/
def Val.same (a b : Val) : Bool := !a.isNan && !b.isNan && !a.lt b && !b.lt a

/-- The exact sum; `rd` says that the mode rounds toward −infinity (the sign of an exact zero, R87). -/
def Val.add (a b : Val) (rd : Bool := false) : Val × Flags :=
  match a, b with
  | .nan, _ => (.nan, fNone)
  | _, .nan => (.nan, fNone)
  | .inf s, .inf t => if s = t then (.inf s, fNone) else (.nan, fInvalid)
  | .inf s, .fin _ _ _ => (.inf s, fNone)
  | .fin _ _ _, .inf t => (.inf t, fNone)
  | .fin s m e, .fin t n f =>
      let k := min e f
      let x : Int := (if s then -1 else 1) * (m * 2 ^ (e - k).toNat : Nat)
      let y : Int := (if t then -1 else 1) * (n * 2 ^ (f - k).toNat : Nat)
      if x + y = 0 then (.fin (if m = 0 && n = 0 && s = t then s else rd) 0 0, fNone)
      else (.fin (decide (x + y < 0)) (x + y).natAbs k, fNone)

/-- The exact product. -/
def Val.mul (a b : Val) : Val × Flags :=
  match a, b with
  | .nan, _ => (.nan, fNone)
  | _, .nan => (.nan, fNone)
  | .inf s, .inf t => (.inf (s != t), fNone)
  | .inf s, .fin t n _ => if n = 0 then (.nan, fInvalid) else (.inf (s != t), fNone)
  | .fin s m _, .inf t => if m = 0 then (.nan, fInvalid) else (.inf (s != t), fNone)
  | .fin s m e, .fin t n f => (.fin (s != t) (m * n) (e + f), fNone)

/-- The quotient of naturals to 128 further bits, its last bit set when bits are left over, so that every rounding
of it is that of the exact quotient. -/
def quotMag (m n : Nat) : Nat := let q := m * 2 ^ 192 / n; if m * 2 ^ 192 % n = 0 then 2 * q else 2 * q + 1

/-- The quotient, exact up to a sticky last bit. -/
def Val.div (a b : Val) : Val × Flags :=
  match a, b with
  | .nan, _ => (.nan, fNone)
  | _, .nan => (.nan, fNone)
  | .inf _, .inf _ => (.nan, fInvalid)
  | .inf s, .fin t _ _ => (.inf (s != t), fNone)
  | .fin s _ _, .inf t => (.fin (s != t) 0 0, fNone)
  | .fin s m e, .fin t n f =>
      if n = 0 then (if m = 0 then (.nan, fInvalid) else (.inf (s != t), fDivZero))
      else (.fin (s != t) (quotMag m n) (e - f - 193), fNone)

/-- The square root, exact up to a sticky last bit. -/
def Val.sqrt (a : Val) : Val × Flags :=
  match a with
  | .nan => (.nan, fNone)
  | .inf s => if s then (.nan, fInvalid) else (.inf false, fNone)
  | .fin s m e =>
      if m = 0 then (.fin s 0 0, fNone)
      else if s then (.nan, fInvalid)
      else
        (let odd := e % 2 ≠ 0
         let x := (if odd then 2 * m else m) * 2 ^ 256
         let r := Nat.sqrt x
         (.fin false (if r * r = x then 2 * r else 2 * r + 1) ((if odd then e - 1 else e) / 2 - 129), fNone))

/-! ### Formats (R80) -/

/-- A floating-point format. -/
structure FFmt where
  width : Nat
  frac : Nat
  bias : Int
  /-- code of the largest finite value -/
  maxCode : Nat
  hasInf : Bool
  /-- code of the canonical NaN, 0 when the format has none -/
  nanCode : Nat
deriving DecidableEq, Repr

def fmtF32 : FFmt := { width := 32, frac := 23, bias := 127, maxCode := 0x7F7FFFFF, hasInf := true, nanCode := 0x7FC00000 }
def fmtF16 : FFmt := { width := 16, frac := 10, bias := 15, maxCode := 0x7BFF, hasInf := true, nanCode := 0x7E00 }
def fmtBF16 : FFmt := { width := 16, frac := 7, bias := 127, maxCode := 0x7F7F, hasInf := true, nanCode := 0x7FC0 }
def fmtE5M2 : FFmt := { width := 8, frac := 2, bias := 15, maxCode := 0x7B, hasInf := true, nanCode := 0x7E }
def fmtE4M3 : FFmt := { width := 8, frac := 3, bias := 7, maxCode := 0x7E, hasInf := false, nanCode := 0x7F }
def fmtE2M1 : FFmt := { width := 4, frac := 1, bias := 1, maxCode := 0x7, hasInf := false, nanCode := 0 }

/-- The exponent of the subnormal step. -/
def FFmt.step (f : FFmt) : Int := 1 - f.bias - f.frac

/-- The value of a code (R80 to R83). -/
def FFmt.decode (f : FFmt) (code : Nat) : Val :=
  let neg := code.testBit (f.width - 1)
  let c := code % 2 ^ (f.width - 1)
  if f.maxCode < c then (if f.hasInf && c = f.maxCode + 1 then .inf neg else .nan)
  else if c < 2 ^ f.frac then .fin neg c f.step
  else .fin neg (2 ^ f.frac + c % 2 ^ f.frac) (f.step + (c / 2 ^ f.frac : Nat) - 1)

/-- The rounding modes of R87, by code. -/
inductive Mode where
  | rne | rz | ru | rd | sr
deriving DecidableEq, Repr

/-- The mode of a code 0 to 4. -/
def modeOf (n : Nat) : Mode :=
  match n with
  | 0 => .rne | 1 => .rz | 2 => .ru | 3 => .rd | _ => .sr

/-- Whether a magnitude t + r/2^k, 0 ≤ r < 2^k, rounds up to t + 1; `w` are the 16 bits of the draw (R88). -/
def roundsUp (mode : Mode) (w : Nat) (neg : Bool) (t r k : Nat) : Bool :=
  match mode with
  | .rne => decide (2 ^ k < 2 * r) || (decide (2 * r = 2 ^ k) && t % 2 == 1)
  | .rz => false
  | .ru => r != 0 && !neg
  | .rd => r != 0 && neg
  | .sr => decide (2 ^ 16 ≤ r * 2 ^ 16 / 2 ^ k + w)

/-- m·2^e in units of 2^q: the rounded count, and whether anything was dropped. -/
def roundAt (mode : Mode) (w : Nat) (neg : Bool) (m : Nat) (e q : Int) : Nat × Bool :=
  if q ≤ e then (m * 2 ^ (e - q).toNat, false)
  else
    (let k := (q - e).toNat
     let t := m / 2 ^ k
     let r := m % 2 ^ k
     (if roundsUp mode w neg t r k then t + 1 else t, r != 0))

/-- The code with its sign bit. -/
def FFmt.signed (f : FFmt) (neg : Bool) (c : Nat) : Nat := if neg then c + 2 ^ (f.width - 1) else c

/-- What an overflow gives (Table 03-5). -/
def FFmt.overflow (f : FFmt) (mode : Mode) (neg : Bool) : Nat × Flags :=
  if f.hasInf then
    (let toInf := match mode with
       | .rne => true | .sr => true | .rz => false | .ru => !neg | .rd => neg
     (f.signed neg (if toInf then f.maxCode + 1 else f.maxCode), fOverflow ||| fInexact))
  else (f.signed neg f.maxCode, fOverflow ||| fSaturation ||| fInexact)

/-- Round an exact value to a format (R87 to R90): code and flags. DESIGN CHOICE (log 72): underflow follows the text of R90
wherever its three conditions hold, also in Table 03-6's −0.75 → .E2M1 RU, for which the table lists inexact alone. -/
def FFmt.round (f : FFmt) (mode : Mode) (w : Nat) (v : Val) : Nat × Flags :=
  match v with
  | .nan => if f.nanCode = 0 then (0, fInvalid) else (f.nanCode, fNone)
  | .inf neg => if f.hasInf then (f.signed neg (f.maxCode + 1), fNone) else (f.signed neg f.maxCode, fInvalid ||| fSaturation)
  | .fin neg m e =>
      if m = 0 then (f.signed neg 0, fNone)
      else
        (let top : Int := e + Nat.log2 m
         let q := max f.step (top - f.frac)
         let (t, dropped) := roundAt mode w neg m e q
         let c := (q - f.step).toNat * 2 ^ f.frac + t
         if f.maxCode < c then f.overflow mode neg
         else
           (f.signed neg c,
            (if dropped then fInexact else fNone) ||| (if dropped && c < 2 ^ f.frac then fUnderflow else fNone)))

/-- Round to an integer of a range, saturating (Table 03-5). -/
def roundInt (lo hi : Int) (mode : Mode) (w : Nat) (v : Val) : Int × Flags :=
  match v with
  | .nan => (0, fInvalid)
  | .inf neg => (if neg then lo else hi, fInvalid ||| fSaturation)
  | .fin neg m e =>
      let (t, dropped) := roundAt mode w neg m e 0
      let i : Int := if neg then -(t : Int) else t
      if i < lo then (lo, fSaturation ||| fInexact)
      else if hi < i then (hi, fSaturation ||| fInexact)
      else (i, if dropped then fInexact else fNone)

/-! ### One rounding -/

/-- One operation of a format under RNE, with the flags of the operation and of the rounding (R86, R90). -/
def FFmt.done (f : FFmt) (r : Val × Flags) : Nat × Flags :=
  let (c, g) := f.round .rne 0 r.1
  (c, g ||| r.2)

/-- Sum, difference, product and quotient of two codes, square root of one. -/
def FFmt.add (f : FFmt) (a b : Nat) : Nat × Flags := f.done ((f.decode a).add (f.decode b))
def FFmt.sub (f : FFmt) (a b : Nat) : Nat × Flags := f.done ((f.decode a).add (f.decode b).flip)
def FFmt.mul (f : FFmt) (a b : Nat) : Nat × Flags := f.done ((f.decode a).mul (f.decode b))
def FFmt.div (f : FFmt) (a b : Nat) : Nat × Flags := f.done ((f.decode a).div (f.decode b))
def FFmt.sqrt (f : FFmt) (a : Nat) : Nat × Flags := f.done (f.decode a).sqrt

/-- a·b + c with one rounding. -/
def FFmt.fma (f : FFmt) (a b c : Val) : Nat × Flags :=
  let p := a.mul b
  let r := p.1.add c
  if c.isNan then f.done (.nan, fNone) else f.done (r.1, p.2 ||| r.2)

/-! ### Element formats of tensors (Table 01-8) -/

/-- The floating-point format of a format code. -/
def floatFmt (code : Nat) : Option FFmt :=
  match code with
  | 0x08 => some fmtF32
  | 0x09 => some fmtF16
  | 0x0A => some fmtBF16
  | 0x0B => some fmtE4M3
  | 0x0C => some fmtE5M2
  | 0x0D => some fmtE2M1
  | _ => none

/-- Bits of an element. -/
def fmtBits (code : Nat) : Nat :=
  match code with
  | 0x00 => 8 | 0x01 => 16 | 0x02 => 32 | 0x03 => 64 | 0x04 => 8 | 0x05 => 16 | 0x06 => 32 | 0x07 => 64
  | 0x08 => 32 | 0x09 => 16 | 0x0A => 16 | 0x0B => 8 | 0x0C => 8 | 0x0D => 4 | 0x0E => 4 | 0x0F => 4 | _ => 1

/-- Whether a format may carry block deltas. -/
def fmtBlocks (code : Nat) : Bool :=
  code == 0x00 || code == 0x0B || code == 0x0C || code == 0x0D || code == 0x0E || code == 0x0F

/-- Whether a format is a signed integer, an unsigned one. -/
def fmtSigned (code : Nat) : Bool := code ≤ 0x03 || code == 0x0E
def fmtUnsigned (code : Nat) : Bool := (4 ≤ code && code ≤ 7) || code == 0x10

/-- The value of one element code outside I4X (R80 to R84). -/
def elemVal (fmt code : Nat) : Val :=
  match floatFmt fmt with
  | some f => f.decode code
  | none => if fmtSigned fmt || fmt = 0x0F then ofIntV (toSigned (fmtBits fmt) code) else ofIntV code

/-- Range of an integer format. DESIGN CHOICE (log 72): Table 03-5 has no row for .M1; a conversion to it is one to an
unsigned integer of range 0 to 1. -/
def intRange (fmt : Nat) : Int × Int :=
  if fmtSigned fmt || fmt = 0x0F then (-(2 ^ (fmtBits fmt - 1) : Nat), (2 ^ (fmtBits fmt - 1) : Nat) - 1)
  else (0, (2 ^ fmtBits fmt : Nat) - 1)

/-- An integer as a code of `n` bits. -/
def intCode (n : Nat) (i : Int) : Nat := (i % (2 ^ n : Nat)).toNat

/-- Convert a value to an element without block deltas (R89). -/
def convertElem (fmt : Nat) (mode : Mode) (w : Nat) (v : Val) : Nat × Flags :=
  match floatFmt fmt with
  | some f => f.round mode w v
  | none =>
      let (i, g) := roundInt (intRange fmt).1 (intRange fmt).2 mode w v
      (intCode (fmtBits fmt) i, g)

/-! ### The Newt generator (R108, R109) -/

/-- One round of the generator. -/
def newtRound (key x : Word) (i : Nat) (m : Word) : Word :=
  let x1 := x ^^^ (x >>> 29)
  let x2 := x1 * m
  let x3 := x2 ^^^ (x2 >>> 32)
  x3 + key.rotateLeft (16 * i)

/-- The draw. -/
def newt (seed : Word) (layer : BitVec 32) (c : Word) : BitVec 32 :=
  let key := seed ^^^ (layer.setWidth 64 * 0x9E3779B97F4A7C15#64)
  let x0 := c ^^^ key
  let x1 := newtRound key x0 0 0xB5A73C91E4D26F1B#64
  let x2 := newtRound key x1 1 0x8C4F2E97D13A5B65#64
  let x3 := newtRound key x2 2 0xF1D96A2C47E8B3C5#64
  let x4 := newtRound key x3 3 0x9A61D47F0B2E8C93#64
  x4.extractLsb' 32 32

/-- The 16 bits an SR rounding uses (R88). -/
def newtSr (seed : Word) (layer : BitVec 32) (c : Word) : Nat := fieldNat (newt seed layer c) 16 16

/-- Dropout (R110): the BF16 result of element x (a BF16 code) under keep probability p (an FP32 code) and draw u. -/
def dropout (p : Nat) (u : BitVec 32) (x : Nat) : Nat × Flags :=
  let pv := fmtF32.decode p
  match pv with
  | .nan => (0, fInvalid)
  | .inf neg => if neg then (0, fNone) else
      (let sc := (fmtBF16.round .rne 0 (((ofIntV 1).div pv).1)).1
       fmtBF16.mul x sc)
  | .fin neg m e =>
      let t := shiftN m (e + 32)
      let keep := !neg && m != 0 && decide (u.toNat < t)
      if keep then
        (let sc := (fmtBF16.round .rne 0 (((ofIntV 1).div pv).1)).1
         fmtBF16.mul x sc)
      else (0, fNone)

/-! ### Block quantisation (R94 to R96) -/

/-- Whether |v| · 2^k ≤ q. -/
def magLe (v : Val) (k : Int) (q : Nat) : Bool :=
  match v with
  | .fin _ m e => !ltMag q 0 m (e + k)
  | .inf _ => false
  | .nan => true

/-- The largest d with |a| · 2^(d − ebase) ≤ q, for a finite nonzero a; −1 below 0 and for an infinity. -/
def pickDelta (a : Val) (ebase : Int) (q : Nat) : Int :=
  match a with
  | .fin _ m e =>
      let hi := ebase - e - (Nat.log2 m : Int) + 17
      ((List.range 24).map fun (i : Nat) => hi - (i : Int)).find? (fun d => magLe a (d - ebase) q) |>.getD (-1)
  | .inf _ => -1
  | .nan => -1

/-- The larger magnitude of two values, NaN ignored. -/
def maxMag (a b : Val) : Val :=
  let mag (v : Val) : Val := match v with
    | .nan => vZero
    | .inf _ => .inf false
    | .fin _ m e => .fin false m e
  if (mag a).lt (mag b) then mag b else mag a

/-- Q of a block format (R94). -/
def blockQ (fmt : Nat) : Nat :=
  match fmt with
  | 0x00 => 127 | 0x0B => 448 | 0x0C => 57344 | 0x0D => 6 | 0x0E => 7 | _ => 7

/-- A quantised block: element codes, delta, flags. -/
structure QBlock where
  codes : List Nat
  delta : Nat
  flags : Flags
deriving DecidableEq, Repr

/-- Encode one scaled element (R94): I8 and I4 saturate to symmetric ranges. -/
def quantElem (fmt : Nat) (mode : Mode) (w : Nat) (v : Val) : Nat × Flags :=
  match floatFmt fmt with
  | some f => f.round mode w v
  | none =>
      let h : Int := blockQ fmt
      let (i, g) := roundInt (-h) h mode w v
      (intCode (fmtBits fmt) i, g)

/-- Flags of elements, joined. -/
def joinFlags (fs : List Flags) : Flags := fs.foldl (· ||| ·) fNone

/-- Clamp a delta into 0 to 14 (R95). -/
def clampDelta (d : Int) : Nat := if d < 0 then 0 else min 14 d.toNat

/-- Whether a value is finite. -/
def Val.isFin (v : Val) : Bool :=
  match v with
  | .fin _ _ _ => true
  | .nan => false
  | .inf _ => false

/-- Whether encoding a finite element saturated it: its rounded result lay beyond the format. DESIGN CHOICE (log 71): R95 says
"exceed the format ... under Table 03-5", and Table 03-5 speaks of the rounded result. -/
def cutOff (x : Val) (f : Flags) : Bool := x.isFin && f &&& (fOverflow ||| fSaturation) != fNone

/-- The flags R95 sets once for a block whose delta was below 0 and in which a finite element exceeds the format. -/
def clampFlags (d : Int) (exceeds : Bool) : Flags :=
  if d < 0 && exceeds then fOverflow ||| fSaturation ||| fInexact else fNone

/-- The zero block (R94 step 2): NaN elements are lost with the invalid flag. -/
def zeroBlock (xs : List Val) : QBlock :=
  { codes := xs.map fun _ => 0, delta := 15, flags := if xs.any Val.isNan then fInvalid else fNone }

/-- Positions of the two elements of greatest magnitude, ties to the lower slot (R96). -/
def twoLargest (xs : List Val) : List Nat :=
  let pick (skip : List Nat) : Nat :=
    (xs.zipIdx.foldl (fun (best : Option (Val × Nat)) p =>
      if skip.contains p.2 || p.1.isNan then best
      else match best with
        | none => some (maxMag p.1 vZero, p.2)
        | some (b, i) => if b.lt (maxMag p.1 vZero) then some (maxMag p.1 vZero, p.2) else some (b, i)) none |>.map
          fun p => p.2).getD 99
  let i := pick []
  [i, pick [i]]

/-- An element that R96 rounds to −7 to 7: its code, its flags, and whether it exceeds that range. One that rounds to −8
is written as −7 with no flag. -/
def i4xRest (x : Val) (j : Int) (g : Flags) : Nat × Flags × Bool :=
  if j = -8 then (intCode 4 (-7), fNone, false)
  else if j < -7 || 7 < j then
    (intCode 4 (if j < 0 then -7 else 7), if x.isFin then fSaturation ||| fInexact else fInvalid ||| fSaturation, x.isFin)
  else (intCode 4 j, if x.isNan then fInvalid else g, false)

/-- I4X slots (R96) of the elements from number i up, the first element standing in slot `i0`; `skip` counts slots an
outlier has taken. Answers codes, flags, and whether a finite element exceeds the format. DESIGN CHOICE (log 71): an
outlier keeps its escape where its nibbles' slots lie beyond the last element, and those nibbles are not written; an
infinity at slot 30 or 31 sets saturation and inexact, as R96 says of every such element. -/
def i4xSlots (mode : Mode) (two : List Nat) (draw : Nat → Nat) (i0 : Nat) : Nat → Nat → List Val → List Nat × Flags × Bool
  | _, _, [] => ([], fNone, false)
  | i, skip, x :: t =>
      let (j, g) := roundInt (-1000000) 1000000 mode (draw i) x
      let big := j < -7 || 7 < j
      if skip ≠ 0 then i4xSlots mode two draw i0 (i + 1) (skip - 1) t
      else if big && two.contains i && i0 + i ≤ 29 then
        (let (c, f) := fmtE4M3.round .rne 0 x
         let (cs, fs, b) := i4xSlots mode two draw i0 (i + 1) 2 t
         (8 :: c / 16 :: c % 16 :: cs, f ||| fs, cutOff x f || b))
      else
        (let (cs, fs, b) := i4xSlots mode two draw i0 (i + 1) 0 t
         let (c, f, e) :=
           if big && two.contains i then (intCode 4 (if j < 0 then -7 else 7), fSaturation ||| fInexact, x.isFin)
           else i4xRest x j g
         (c :: cs, f ||| fs, e || b))

/-- Quantise the present elements of one block (R94 to R96), the first in slot `i0`. `draw i` are the SR bits of element
number i. With `fixed` the tensor has no delta array, so the delta is 0 (R91) and no zero block exists. -/
def quantBlock (fixed : Bool) (i0 : Nat) (fmt : Nat) (ebase : Int) (mode : Mode) (draw : Nat → Nat) (xs : List Val) : QBlock :=
  let top := xs.foldl maxMag vZero
  if top.isZero && !fixed then zeroBlock xs
  else if fmt = 0x0F then
    (let two := twoLargest xs
     let a3 := (xs.zipIdx.filter fun p => !two.contains p.2).foldl (fun b p => maxMag b p.1) vZero
     let d := if a3.isZero then pickDelta top ebase 448 else pickDelta a3 ebase 7
     let dc := if fixed then 0 else clampDelta d
     let (cs, f, b) := i4xSlots mode two draw i0 0 0 (xs.map fun x => x.scale (dc - ebase))
     { codes := cs.take xs.length, delta := dc, flags := f ||| clampFlags d b })
  else
    (let d := pickDelta top ebase (blockQ fmt)
     let dc := if fixed then 0 else clampDelta d
     let es := xs.zipIdx.map fun p => quantElem fmt mode (draw p.2) (p.1.scale (dc - ebase))
     { codes := es.map fun p => p.1, delta := dc,
       flags := joinFlags (es.map fun p => p.2) ||| clampFlags d ((xs.zip es).any fun p => cutOff p.1 p.2.2) })

/-! ### I4X parsing (R85) -/

/-- Parse a block of codes: values of the elements and whether an escape had no room. -/
def i4xParse : List Nat → List Val × Bool
  | [] => ([], false)
  | [c] => if c = 8 then ([vZero], true) else ([elemVal 0x0E c], false)
  | [c, c1] =>
      let (r, b) := i4xParse [c1]
      if c = 8 then (vZero :: r, true) else (elemVal 0x0E c :: r, b)
  | c :: c1 :: c2 :: t =>
      if c ≠ 8 then
        (let (r, b) := i4xParse (c1 :: c2 :: t)
         (elemVal 0x0E c :: r, b))
      else
        (let (r, b) := i4xParse t
         (fmtE4M3.decode (c1 * 16 + c2) :: vZero :: vZero :: r, b))

/-! ### Norm registers (R38, R104) -/

/-- Add the contribution of a stored value g with scale exponent s. -/
def Norm.contribute (n : Norm) (g : Val) (s : Int) : Norm × Flags :=
  let up (x : BitVec 16) : BitVec 16 := BitVec.ofNat 16 (min 65535 (x.toNat + 1))
  match g with
  | .fin _ m e =>
      let (c, _) := roundAt .rne 0 false (m * m) (2 * e + s) 0
      if m ≠ 0 && c = 0 then ({ n with unders := up n.unders }, fNone)
      else if 2 ^ 128 ≤ n.value.toNat + c then ({ n with value := BitVec.allOnes 128, overs := up n.overs }, fNone)
      else ({ n with value := n.value + BitVec.ofNat 128 c }, fNone)
  | .nan => ({ n with value := BitVec.allOnes 128, overs := up n.overs }, fInvalid)
  | .inf _ => ({ n with value := BitVec.allOnes 128, overs := up n.overs }, fInvalid)

/-- The clip factor (R106): an FP32 code and flags; `cc` is the FP32 code of C. -/
def clipFactor (n : Norm) (s : Int) (cc : Nat) : Nat × Flags :=
  let cv := fmtF32.decode cc
  let one := 0x3F800000
  if cv.isZero then (one, fNone)
  else
    (let fo := if n.overs = 0#16 then fNone else fOverflow
     let (t, f1) := fmtF32.round .rne 0 (.fin false n.value.toNat (-s))
     let (q, f2) := fmtF32.sqrt t
     if cv.isNan then (fmtF32.nanCode, f1 ||| f2 ||| fo)
     else if cv.neg then (fmtF32.nanCode, fInvalid ||| f1 ||| f2 ||| fo)
     else if !(cv.lt (fmtF32.decode q)) then (one, f1 ||| f2 ||| fo)
     else
       (let (r, f3) := fmtF32.div cc q
        (r, f1 ||| f2 ||| f3 ||| fo)))

/-- One optimizer step of UPD.SGD (R107): new m and w. -/
def sgdStep (k : Nat → Nat) (cf g w m : Nat) : (Nat × Nat) × Flags :=
  let f := fmtF32
  let (gc, a) := f.mul g cf
  let (lw, b) := f.mul (k 2) w
  let (gd, c) := f.add gc lw
  let (mm, d) := f.mul (k 1) m
  let (mN, e) := f.add mm gd
  let (em, h) := f.mul (k 0) mN
  let (wN, i) := f.sub w em
  ((mN, wN), joinFlags [a, b, c, d, e, h, i])

/-- One optimizer step of UPD.ADAM (R107): new m, v and w. -/
def adamStep (k : Nat → Nat) (cf g w m v : Nat) : (Nat × Nat × Nat) × Flags :=
  let f := fmtF32
  let (gc, a0) := f.mul g cf
  let (x1, a1) := f.mul (k 1) m
  let (x2, a2) := f.mul (k 2) gc
  let (mN, a3) := f.add x1 x2
  let (x3, a4) := f.mul (k 3) v
  let (gg, a5) := f.mul gc gc
  let (x4, a6) := f.mul (k 4) gg
  let (vN, a7) := f.add x3 x4
  let (mh, a8) := f.mul mN (k 5)
  let (vh, a9) := f.mul vN (k 6)
  let (sq, b0) := f.sqrt vh
  let (dn, b1) := f.add sq (k 7)
  let (u1, b2) := f.div mh dn
  let (lw, b3) := f.mul (k 8) w
  let (u2, b4) := f.add u1 lw
  let (eu, b5) := f.mul (k 0) u2
  let (wN, b6) := f.sub w eu
  ((mN, vN, wN), joinFlags [a0, a1, a2, a3, a4, a5, a6, a7, a8, a9, b0, b1, b2, b3, b4, b5, b6])

end Sys2Proof.Machine
end

