-- ==== Sys2Proof/Machine/Operands.lean ====
section
/-! DEFINITION. The operand forms: the second operand of SR and SI forms (R52, R54), tile references and extent
words (R179), TID entries and tensors (R36, R37), the gather descriptor (R190), formats, orders and suffix codes. -/

namespace Sys2Proof.Machine

/-! ### Scalar second operands -/

/-- Operand `b` of an SR form: x[rb], a sign-extended 32-bit literal, or a 64-bit literal (R52). -/
def srB (r : Regs) (b : Src) : Word :=
  match b with
  | .reg i => r.get i
  | .lit32 w => w.signExtend 64
  | .lit64 w => w

/-- Operand `b` of an SI form of sign-extended kind (R54). -/
def siS (i : BitVec 10) : Word := i.signExtend 64
/-- Operand `b` of AND, OR and XOR in SI form: zero-extended (R54). -/
def siZ (i : BitVec 10) : Word := i.zeroExtend 64

/-! ### TID entries (R36, R37) -/

/-- The fields of a TID entry: `rows` and `cols` as counts, exponents signed. -/
structure Tid where
  base : Word
  nexp : Int
  ebase : Int
  spn : Nat
  tr : Bool
  fmt : Nat
  cols : Nat
  rows : Nat
  sloc : Nat
  stride : Nat
  sptr : Word
  mptr : Word
  vreg : Nat
deriving DecidableEq, Repr

/-- 64-bit word i of an entry. -/
def tidWord (t : BitVec 512) (i : Nat) : Word := t.extractLsb' (64 * i) 64

/-- The fields of Table 01-7. -/
def tidOf (t : BitVec 512) : Tid :=
  let w1 := tidWord t 1
  let w2 := tidWord t 2
  { base := tidWord t 0, nexp := toSigned 8 (fieldNat w1 56 8), ebase := toSigned 8 (fieldNat w1 48 8),
    spn := fieldNat w1 46 2, tr := bitAt w1 45, fmt := fieldNat w1 40 5, cols := fieldNat w1 20 20 + 1,
    rows := fieldNat w1 0 20 + 1, sloc := fieldNat w2 40 2, stride := fieldNat w2 0 40, sptr := tidWord t 3,
    mptr := tidWord t 4, vreg := fieldNat (tidWord t 5) 0 12 }

/-- Bytes of `n` packed elements of a format. -/
def packedBytes (fmt n : Nat) : Nat := (n * fmtBits fmt + 7) / 8

/-- The checks of TIDSET (R36, R37). -/
def tidOk (t : BitVec 512) : Bool :=
  let d := tidOf t
  fieldNat (tidWord t 2) 42 22 == 0 && fieldNat (tidWord t 5) 12 52 == 0 && tidWord t 6 == 0#64 && tidWord t 7 == 0#64 &&
    d.fmt ≤ 0x10 && d.sloc ≤ 1 && (d.sloc == 0 || fmtBlocks d.fmt) && (d.sloc == 1 || d.sptr == 0#64) &&
    (d.spn == 0 || fmtBits d.fmt == 8 || fmtBits d.fmt == 4) && (d.spn != 0 || d.mptr == 0#64) &&
    packedBytes d.fmt d.cols ≤ d.stride

/-- Whether an entry's base is Null (R37, R171). -/
def Tid.isNull (d : Tid) : Bool := ptrSpace d.base == 15

/-- Rows and columns of the tensor as read, after `tr` (R180). -/
def Tid.nRows (d : Tid) : Nat := if d.tr then d.cols else d.rows
def Tid.nCols (d : Tid) : Nat := if d.tr then d.rows else d.cols

/-! ### Tile references and extent words (R179) -/

/-- A tile reference (Table 05-3). -/
structure TileRef where
  tid : Nat
  row0 : Nat
  col0 : Nat
deriving DecidableEq, Repr

/-- Its fields. -/
def refOf (w : Word) : TileRef := { tid := fieldNat w 52 8, row0 := fieldNat w 32 20, col0 := fieldNat w 12 20 }
/-- Whether its res0 fields are zero. -/
def refOk (w : Word) : Bool := fieldNat w 60 4 == 0 && fieldNat w 0 12 == 0

/-- `nrows` and `ncols` of an extent word (Table 05-4). -/
def extRows (w : Word) : Nat := fieldNat w 21 21
def extCols (w : Word) : Nat := fieldNat w 0 21
/-- Whether both are at most 2^20. -/
def extOk (w : Word) : Bool := extRows w ≤ 2 ^ 20 && extCols w ≤ 2 ^ 20

/-! ### Gather descriptor (Table 05-7) -/

/-- The fields of a gather descriptor. -/
structure Gather where
  tid : Nat
  count : Nat
  bytes : Nat
  off : Nat
  ctr : Word
  cap : Nat
  nbins : Nat
deriving DecidableEq, Repr

/-- Its fields, from the 32 bytes. -/
def gatherOf (d : BitVec 256) : Gather :=
  { tid := fieldNat d 56 8, count := fieldNat d 40 16, bytes := fieldNat d 24 16, off := fieldNat d 0 24,
    ctr := d.extractLsb' 64 64, cap := fieldNat d 152 21, nbins := fieldNat d 128 13 }

/-- Whether a descriptor is legal for a tensor of a given stride; `bin` for BIN (R190). -/
def gatherOk (d : BitVec 256) (stride : Nat) (bin : Bool) : Bool :=
  let g := gatherOf d
  fieldNat d 173 19 == 0 && fieldNat d 141 11 == 0 && fieldNat d 192 64 == 0 && g.bytes % 4 == 0 && g.off % 4 == 0 &&
    decide (g.off + g.bytes ≤ stride) &&
    (if bin then 1 ≤ g.cap && g.cap ≤ 2 ^ 20 && 1 ≤ g.nbins && g.nbins ≤ 4096
     else g.ctr == 0#64 && g.cap == 0 && g.nbins == 0)

/-! ### Rounding-mode codes (R184) -/

/-- Whether a code of Table 05-6 is legal. -/
def modeCodeOk (n : Nat) : Bool := n ≤ 4

end Sys2Proof.Machine
end

