-- ==== Sys2Proof/Machine/Alu.lean ====
section
/-! DEFINITION. The control core's integer, logic, bit-count, compare, predicate, move and pointer instructions
(R115 to R121). None of them raises a fault or touches a flag (R112). -/

namespace Sys2Proof.Machine

/-! ### Results (Tables 04-1 and 04-2) -/

/-- DIV: truncated toward zero; all ones for a zero divisor. -/
def divS (a b : Word) : Word := if b = 0#64 then BitVec.allOnes 64 else BitVec.ofInt 64 (a.toInt.tdiv b.toInt)
/-- DIVN. -/
def divU (a b : Word) : Word := if b = 0#64 then BitVec.allOnes 64 else BitVec.ofNat 64 (a.toNat / b.toNat)
/-- REM: a − b·DIV(a, b). -/
def remS (a b : Word) : Word := if b = 0#64 then a else BitVec.ofInt 64 (a.toInt.tmod b.toInt)
/-- REMN. -/
def remU (a b : Word) : Word := if b = 0#64 then a else BitVec.ofNat 64 (a.toNat % b.toNat)
/-- MULH: the high half of the signed product. -/
def mulHighS (a b : Word) : Word := BitVec.ofInt 64 (a.toInt * b.toInt / 2 ^ 64)
/-- MULHN. -/
def mulHighU (a b : Word) : Word := BitVec.ofNat 64 (a.toNat * b.toNat / 2 ^ 64)
/-- MIN, MAX, MINN, MAXN. -/
def minS (a b : Word) : Word := if a.toInt ≤ b.toInt then a else b
def maxS (a b : Word) : Word := if a.toInt ≤ b.toInt then b else a
def minU (a b : Word) : Word := if a.toNat ≤ b.toNat then a else b
def maxU (a b : Word) : Word := if a.toNat ≤ b.toNat then b else a
/-- The shift count b[5:0]. -/
def shCount (b : Word) : Nat := b.toNat % 64
/-- Number of leading zero bits of a value below 2^n, counted in n bits. -/
def leadingZeros : Nat → Nat → Nat
  | 0, _ => 0
  | n + 1, v => if v.testBit n then 0 else leadingZeros n v + 1
/-- Number of trailing zero bits, at most n. -/
def trailingZeros : Nat → Nat → Nat
  | 0, _ => 0
  | n + 1, v => if v % 2 = 1 then 0 else trailingZeros n (v / 2) + 1
/-- Number of one bits among the low n. -/
def oneBits : Nat → Nat → Nat
  | 0, _ => 0
  | n + 1, v => oneBits n (v / 2) + v % 2

/-- CMP's condition (R118, Table 02-3): EQ, NE, LT, GE, LTN, GEN, LE, GT, LEN, GTN. -/
def cmpCond (cc : BitVec 4) (a b : Word) : Bool :=
  match cc.toNat with
  | 0 => a == b
  | 1 => a != b
  | 2 => decide (a.toInt < b.toInt)
  | 3 => decide (b.toInt ≤ a.toInt)
  | 4 => decide (a.toNat < b.toNat)
  | 5 => decide (b.toNat ≤ a.toNat)
  | 6 => decide (a.toInt ≤ b.toInt)
  | 7 => decide (b.toInt < a.toInt)
  | 8 => decide (a.toNat ≤ b.toNat)
  | _ => decide (b.toNat < a.toNat)

/-- TPTR: space and owner from one register, offset from another. -/
def tagPtr (a b : Word) : Word := BitVec.ofNat 64 (a.toNat % 2 ^ 16 * 2 ^ 48 + b.toNat % 2 ^ 48)
/-- TGET's field: 0 space, 1 owner, 2 offset. -/
def tagGet (a : Word) (sel : BitVec 6) : Word :=
  if sel = 0#6 then BitVec.ofNat 64 (ptrSpace a) else if sel = 1#6 then BitVec.ofNat 64 (ptrOwner a) else BitVec.ofNat 64 (ptrOff a)

/-- A two-operand SR instruction. -/
def sr2 (f : Word → Word → Word) (d a : BitVec 6) (b : Src) (g : BitVec 4) (s : State) : Host.Outcome State Fault Refusal :=
  scalarX d g (srLen b) s fun r => f (r.get a) (srB r b)
/-- A one-operand SR instruction. -/
def sr1 (f : Word → Word) (d a : BitVec 6) (g : BitVec 4) (s : State) : Host.Outcome State Fault Refusal :=
  scalarX d g 4 s fun r => f (r.get a)
/-- An SI instruction with its immediate as `b`. -/
def si2 (f : Word → Word → Word) (b : Word) (d a : BitVec 6) (g : BitVec 4) (s : State) : Host.Outcome State Fault Refusal :=
  scalarX d g 4 s fun r => f (r.get a) b

/-! ### SR integer and logic (R115) -/

/-- ADD (R115). -/
def execAdd (d a : BitVec 6) (b : Src) (g : BitVec 4) (s : State) : Host.Outcome State Fault Refusal := sr2 (· + ·) d a b g s
/-- SUB (R115). -/
def execSub (d a : BitVec 6) (b : Src) (g : BitVec 4) (s : State) : Host.Outcome State Fault Refusal := sr2 (· - ·) d a b g s
/-- MUL (R115). -/
def execMul (d a : BitVec 6) (b : Src) (g : BitVec 4) (s : State) : Host.Outcome State Fault Refusal := sr2 (· * ·) d a b g s
/-- MULH (R115). -/
def execMulh (d a : BitVec 6) (b : Src) (g : BitVec 4) (s : State) : Host.Outcome State Fault Refusal := sr2 mulHighS d a b g s
/-- MULHN (R115). -/
def execMulhn (d a : BitVec 6) (b : Src) (g : BitVec 4) (s : State) : Host.Outcome State Fault Refusal := sr2 mulHighU d a b g s
/-- DIV (R115). -/
def execDiv (d a : BitVec 6) (b : Src) (g : BitVec 4) (s : State) : Host.Outcome State Fault Refusal := sr2 divS d a b g s
/-- DIVN (R115). -/
def execDivn (d a : BitVec 6) (b : Src) (g : BitVec 4) (s : State) : Host.Outcome State Fault Refusal := sr2 divU d a b g s
/-- REM (R115). -/
def execRem (d a : BitVec 6) (b : Src) (g : BitVec 4) (s : State) : Host.Outcome State Fault Refusal := sr2 remS d a b g s
/-- REMN (R115). -/
def execRemn (d a : BitVec 6) (b : Src) (g : BitVec 4) (s : State) : Host.Outcome State Fault Refusal := sr2 remU d a b g s
/-- MIN (R115). -/
def execMin (d a : BitVec 6) (b : Src) (g : BitVec 4) (s : State) : Host.Outcome State Fault Refusal := sr2 minS d a b g s
/-- MAX (R115). -/
def execMax (d a : BitVec 6) (b : Src) (g : BitVec 4) (s : State) : Host.Outcome State Fault Refusal := sr2 maxS d a b g s
/-- MINN (R115). -/
def execMinn (d a : BitVec 6) (b : Src) (g : BitVec 4) (s : State) : Host.Outcome State Fault Refusal := sr2 minU d a b g s
/-- MAXN (R115). -/
def execMaxn (d a : BitVec 6) (b : Src) (g : BitVec 4) (s : State) : Host.Outcome State Fault Refusal := sr2 maxU d a b g s
/-- AND (R115). -/
def execAnd (d a : BitVec 6) (b : Src) (g : BitVec 4) (s : State) : Host.Outcome State Fault Refusal := sr2 (· &&& ·) d a b g s
/-- OR (R115). -/
def execOr (d a : BitVec 6) (b : Src) (g : BitVec 4) (s : State) : Host.Outcome State Fault Refusal := sr2 (· ||| ·) d a b g s
/-- XOR (R115). -/
def execXor (d a : BitVec 6) (b : Src) (g : BitVec 4) (s : State) : Host.Outcome State Fault Refusal := sr2 (· ^^^ ·) d a b g s
/-- ANDN (R115). -/
def execAndn (d a : BitVec 6) (b : Src) (g : BitVec 4) (s : State) : Host.Outcome State Fault Refusal := sr2 (fun a b => a &&& ~~~b) d a b g s
/-- SHL (R115). -/
def execShl (d a : BitVec 6) (b : Src) (g : BitVec 4) (s : State) : Host.Outcome State Fault Refusal := sr2 (fun a b => a <<< shCount b) d a b g s
/-- SHR (R115). -/
def execShr (d a : BitVec 6) (b : Src) (g : BitVec 4) (s : State) : Host.Outcome State Fault Refusal := sr2 (fun a b => a >>> shCount b) d a b g s
/-- SRA (R115). -/
def execSra (d a : BitVec 6) (b : Src) (g : BitVec 4) (s : State) : Host.Outcome State Fault Refusal := sr2 (fun a b => a.sshiftRight (shCount b)) d a b g s
/-- ROTL (R115). -/
def execRotl (d a : BitVec 6) (b : Src) (g : BitVec 4) (s : State) : Host.Outcome State Fault Refusal := sr2 (fun a b => a.rotateLeft (shCount b)) d a b g s
/-- MOV (R115). -/
def execMov (d a : BitVec 6) (g : BitVec 4) (s : State) : Host.Outcome State Fault Refusal := sr1 (fun a => a) d a g s

/-! ### Bit counting and extension (R117) -/

/-- CLZ (R117). -/
def execClz (d a : BitVec 6) (g : BitVec 4) (s : State) : Host.Outcome State Fault Refusal := sr1 (fun a => BitVec.ofNat 64 (leadingZeros 64 a.toNat)) d a g s
/-- CTZ (R117). -/
def execCtz (d a : BitVec 6) (g : BitVec 4) (s : State) : Host.Outcome State Fault Refusal := sr1 (fun a => BitVec.ofNat 64 (trailingZeros 64 a.toNat)) d a g s
/-- POPC (R117). -/
def execPopc (d a : BitVec 6) (g : BitVec 4) (s : State) : Host.Outcome State Fault Refusal := sr1 (fun a => BitVec.ofNat 64 (oneBits 64 a.toNat)) d a g s
/-- SEXT.B (R117). -/
def execSextB (d a : BitVec 6) (g : BitVec 4) (s : State) : Host.Outcome State Fault Refusal := sr1 (fun a => (a.setWidth 8).signExtend 64) d a g s
/-- SEXT.H (R117). -/
def execSextH (d a : BitVec 6) (g : BitVec 4) (s : State) : Host.Outcome State Fault Refusal := sr1 (fun a => (a.setWidth 16).signExtend 64) d a g s
/-- SEXT.W (R117). -/
def execSextW (d a : BitVec 6) (g : BitVec 4) (s : State) : Host.Outcome State Fault Refusal := sr1 (fun a => (a.setWidth 32).signExtend 64) d a g s
/-- ZEXT.B (R117). -/
def execZextB (d a : BitVec 6) (g : BitVec 4) (s : State) : Host.Outcome State Fault Refusal := sr1 (fun a => (a.setWidth 8).setWidth 64) d a g s
/-- ZEXT.H (R117). -/
def execZextH (d a : BitVec 6) (g : BitVec 4) (s : State) : Host.Outcome State Fault Refusal := sr1 (fun a => (a.setWidth 16).setWidth 64) d a g s
/-- ZEXT.W (R117). -/
def execZextW (d a : BitVec 6) (g : BitVec 4) (s : State) : Host.Outcome State Fault Refusal := sr1 (fun a => (a.setWidth 32).setWidth 64) d a g s

/-! ### Compare and predicates (R118, R119) -/

/-- CMP.cc (R118). -/
def execCmp (p : BitVec 3) (a : BitVec 6) (b : Src) (g cc : BitVec 4) (s : State) : Host.Outcome State Fault Refusal :=
  scalarP p g (srLen b) s fun r => cmpCond cc (r.get a) (srB r b)
/-- PAND (R119). -/
def execPand (d a b : BitVec 3) (g : BitVec 4) (s : State) : Host.Outcome State Fault Refusal := scalarP d g 4 s fun r => r.pred a && r.pred b
/-- POR (R119). -/
def execPor (d a b : BitVec 3) (g : BitVec 4) (s : State) : Host.Outcome State Fault Refusal := scalarP d g 4 s fun r => r.pred a || r.pred b
/-- PXOR (R119). -/
def execPxor (d a b : BitVec 3) (g : BitVec 4) (s : State) : Host.Outcome State Fault Refusal := scalarP d g 4 s fun r => r.pred a != r.pred b
/-- PNOT (R119). -/
def execPnot (d a : BitVec 3) (g : BitVec 4) (s : State) : Host.Outcome State Fault Refusal := scalarP d g 4 s fun r => !r.pred a

/-! ### Literals and tagged pointers (R120, R121) -/

/-- LIT (R120). -/
def execLit (d : BitVec 6) (b : Src) (g : BitVec 4) (s : State) : Host.Outcome State Fault Refusal := scalarX d g (srLen b) s fun r => srB r b
/-- TPTR (R121). -/
def execTptr (d a : BitVec 6) (b : Src) (g : BitVec 4) (s : State) : Host.Outcome State Fault Refusal := sr2 tagPtr d a b g s
/-- TADD (R121). -/
def execTadd (d a : BitVec 6) (b : Src) (g : BitVec 4) (s : State) : Host.Outcome State Fault Refusal := sr2 tagAdd d a b g s
/-- TGET (R121). -/
def execTget (d a sel : BitVec 6) (g : BitVec 4) (s : State) : Host.Outcome State Fault Refusal := sr1 (fun p => tagGet p sel) d a g s

/-! ### Immediate forms (R54, R116) -/

/-- ADD, immediate (R54, R116). -/
def execAddSi (d a : BitVec 6) (g : BitVec 4) (i : BitVec 10) (s : State) : Host.Outcome State Fault Refusal := si2 (· + ·) (siS i) d a g s
/-- SUB, immediate (R54, R116). -/
def execSubSi (d a : BitVec 6) (g : BitVec 4) (i : BitVec 10) (s : State) : Host.Outcome State Fault Refusal := si2 (· - ·) (siS i) d a g s
/-- MUL, immediate (R54, R116). -/
def execMulSi (d a : BitVec 6) (g : BitVec 4) (i : BitVec 10) (s : State) : Host.Outcome State Fault Refusal := si2 (· * ·) (siS i) d a g s
/-- AND, immediate (R54, R116). -/
def execAndSi (d a : BitVec 6) (g : BitVec 4) (i : BitVec 10) (s : State) : Host.Outcome State Fault Refusal := si2 (· &&& ·) (siZ i) d a g s
/-- OR, immediate (R54, R116). -/
def execOrSi (d a : BitVec 6) (g : BitVec 4) (i : BitVec 10) (s : State) : Host.Outcome State Fault Refusal := si2 (· ||| ·) (siZ i) d a g s
/-- XOR, immediate (R54, R116). -/
def execXorSi (d a : BitVec 6) (g : BitVec 4) (i : BitVec 10) (s : State) : Host.Outcome State Fault Refusal := si2 (· ^^^ ·) (siZ i) d a g s
/-- SHL, immediate (R54, R116). -/
def execShlSi (d a : BitVec 6) (g : BitVec 4) (i : BitVec 10) (s : State) : Host.Outcome State Fault Refusal := si2 (fun a b => a <<< shCount b) (siZ i) d a g s
/-- SHR, immediate (R54, R116). -/
def execShrSi (d a : BitVec 6) (g : BitVec 4) (i : BitVec 10) (s : State) : Host.Outcome State Fault Refusal := si2 (fun a b => a >>> shCount b) (siZ i) d a g s
/-- SRA, immediate (R54, R116). -/
def execSraSi (d a : BitVec 6) (g : BitVec 4) (i : BitVec 10) (s : State) : Host.Outcome State Fault Refusal := si2 (fun a b => a.sshiftRight (shCount b)) (siZ i) d a g s
/-- ROTL, immediate (R54, R116). -/
def execRotlSi (d a : BitVec 6) (g : BitVec 4) (i : BitVec 10) (s : State) : Host.Outcome State Fault Refusal := si2 (fun a b => a.rotateLeft (shCount b)) (siZ i) d a g s
/-- MIN, immediate (R54, R116). -/
def execMinSi (d a : BitVec 6) (g : BitVec 4) (i : BitVec 10) (s : State) : Host.Outcome State Fault Refusal := si2 minS (siS i) d a g s
/-- MAX, immediate (R54, R116). -/
def execMaxSi (d a : BitVec 6) (g : BitVec 4) (i : BitVec 10) (s : State) : Host.Outcome State Fault Refusal := si2 maxS (siS i) d a g s
/-- TADD, immediate (R54, R116, R121). -/
def execTaddSi (d a : BitVec 6) (g : BitVec 4) (i : BitVec 10) (s : State) : Host.Outcome State Fault Refusal := si2 tagAdd (siS i) d a g s
/-- MOVI (R54, R116). -/
def execMovi (d h : BitVec 6) (g : BitVec 4) (i : BitVec 10) (s : State) : Host.Outcome State Fault Refusal :=
  scalarX d g 4 s fun _ => (h ++ i).signExtend 64
/-- NOP (R168). -/
def execNop (n : BitVec 26) (s : State) : Host.Outcome State Fault Refusal := scalarX 0#6 0#4 4 s fun _ => n.setWidth 64

end Sys2Proof.Machine
end

