-- ==== Sys2Proof/Machine/Branch.lean ====
section
/-! DEFINITION. Branches (R51, R130, R131). -/

namespace Sys2Proof.Machine

/-- The target of BR and CALL: the base address plus 4·disp22 (R51). -/
def branchTarget (pc : Word) (disp : BitVec 22) : Word := pc + (disp.signExtend 64 <<< 2)

/-- What JMPR and RET do with a target: Space, Misaligned, or the jump (R131). -/
def jumpTo (t : Word) (link : Word → Act Unit) (ret : Word) : Act Next := do
  raiseIf (fieldNat t 52 12 != 0) (Trap.mk' 0x04)
  raiseIf (fieldNat t 0 2 != 0) (Trap.mk' 0x03)
  link ret
  pure (.goto t)

/-- BR (R130): only the pc changes. -/
def execBr (g : BitVec 4) (disp : BitVec 22) (s : State) : Host.Outcome State Fault Refusal :=
  scalar g 4 s fun r => pure (.goto (branchTarget r.pc disp))

/-- CALL (R130): lr receives the address after the CALL. -/
def execCall (g : BitVec 4) (disp : BitVec 22) (s : State) : Host.Outcome State Fault Refusal :=
  scalar g 4 s fun r => do
    setX 62#6 (r.pc + 4#64)
    pure (.goto (branchTarget r.pc disp))

/-- JMPR (R131). -/
def execJmpr (d a : BitVec 6) (g : BitVec 4) (s : State) : Host.Outcome State Fault Refusal :=
  scalar g 4 s fun r => jumpTo (r.get a) (setX d) (r.pc + 4#64)

/-- RET (R131): JMPR with `rd` 0 and target lr. -/
def execRet (g : BitVec 4) (s : State) : Host.Outcome State Fault Refusal :=
  scalar g 4 s fun r => jumpTo (r.get 62#6) (setX 0#6) (r.pc + 4#64)

end Sys2Proof.Machine
end

