-- ==== Sys2Proof/WellFormed.lean ====
section
/-! DEFINITION. Which instructions an encoding can name: the limits of R52 to R60, R63, R233 and R234 on the
fields that the syntax keeps. The decoder refuses a word whose fields fail one of them (R64). -/

namespace Sys2Proof

/-- An `rb` operand names a register only below 62 (R52). -/
def Src.wf : Src → Bool
  | .reg r => r.toNat < 62
  | .lit32 _ => true
  | .lit64 _ => true

/-- An `rb` operand that is a literal (LIT, R120). -/
def Src.isLit : Src → Bool
  | .reg _ => false
  | .lit32 _ => true
  | .lit64 _ => true

/-- Guard 0b1000 (never) is illegal (R53). -/
def guardOk (g : BitVec 4) : Bool := g != 8#4

/-- The shared shape of the SR forms with a source operand `rb`. -/
def srOk (b : Src) (g : BitVec 4) : Bool := b.wf && guardOk g

/-- The size and order codes of an AMO on a 32-bit or 64-bit location; `rb` is a register (R51, R56). -/
def amoOk (b : BitVec 6) (z o : BitVec 2) : Bool := b.toNat < 62 && (z == 1#2 || z == 2#2) && o != 3#2

/-- An even register pair: `r` even and not 62 (R56, R147). -/
def pairOk (r : BitVec 6) : Bool := r.toNat % 2 == 0 && r != 62#6

/-! ### E-forms -/

/-- The rounding-mode codes of Table 05-6: 0 to 4. -/
def modeOk (f : BitVec 4) : Bool := f.toNat < 5

/-- The fields shared by every E-form: guard and order (R53, R57). -/
def eBase (e : EArgs) : Bool := guardOk e.guard && e.order.toNat < 2

/-- The flags and unused operand fields of one engine operation (Table 02-6, R58 and the entries). -/
def EOp.argsOk (op : EOp) (e : EArgs) : Bool :=
  match op with
  | .cpy | .cpyT | .cpyMc | .gath | .scat | .bin | .kva | .updSgd | .updAdam => e.flags == 0#4
  | .cpyQ | .stt | .stp | .stg => modeOk e.flags
  | .kvg => e.flags.toNat < 4
  | .kvdem => e.flags == 0#4 && e.xc == 0#6
  | .kvrefInc => e.flags == 0#4 && e.xc == 0#6
  | .kvrefDec => e.flags == 1#4 && e.xc == 0#6
  | .cube | .cubeGa | .cubeGb | .cubeGk | .cubeSp => e.flags.toNat < 2
  | .aclr => e.flags == 0#4 && e.xc == 0#6
  | .adrain => e.flags.toNat < 8
  | .vrun => e.flags == 0#4 && e.xb == 0#6 && e.xc == 0#6

/-- An engine operation whose fields are all legal. -/
def EOp.ok (op : EOp) (e : EArgs) : Bool := op.argsOk e && eBase e

/-- The operations GANG governs: MOP 0x38, 0x3A, 0x3B and 0x3C (R219). -/
def EOp.gangable : EOp → Bool
  | .cpy | .cpyT | .cpyMc | .cpyQ => true
  | .gath | .scat | .bin | .kvg | .kva | .kvdem | .kvrefInc | .kvrefDec => false
  | .cube | .cubeGa | .cubeGb | .cubeGk | .cubeSp | .aclr | .adrain => true
  | .stt | .stp | .stg | .updSgd | .updAdam => true
  | .vrun => false

/-- CHAIN before KVA, KVDEM or KVREF is illegal (R222). -/
def EOp.chainable : EOp → Bool
  | .kva | .kvdem | .kvrefInc | .kvrefDec => false
  | .cpy | .cpyT | .cpyMc | .cpyQ | .gath | .scat | .bin | .kvg => true
  | .cube | .cubeGa | .cubeGb | .cubeGk | .cubeSp | .aclr | .adrain => true
  | .stt | .stp | .stg | .updSgd | .updAdam | .vrun => true

/-! ### Vector words -/

/-- What a register field of a V-kind word holds (Table 06-4): a v register, an m register, something that
does not walk, or nothing (res0). -/
inductive FieldUse where
  | vreg | mreg | other | zero
deriving DecidableEq, Repr

/-- A field that is res0 is zero. -/
def FieldUse.zeroOk (u : FieldUse) (f : BitVec 5) : Bool :=
  match u with
  | .zero => f == 0#5
  | .vreg | .mreg | .other => true

/-- A field that walks names v or m registers, and its last repetition stays in range (R234). -/
def FieldUse.walkOk (u : FieldUse) (f : BitVec 5) (rep : BitVec 8) : Bool :=
  match u with
  | .vreg => f.toNat + rep.toNat < 32
  | .mreg => f.toNat % 8 + rep.toNat < 8
  | .other | .zero => false

/-- The checks of R63 and R234 that every V-kind word shares. `mem` marks the words that may step. -/
def VArgs.shape (v : VArgs) (d a b : FieldUse) (mem : Bool) : Bool :=
  d.zeroOk v.vd && a.zeroOk v.va && b.zeroOk v.vb &&
  (v.walk.toNat < 1 || d.walkOk v.vd v.rep) &&
  (v.walk.toNat < 2 || a.walkOk v.va v.rep) &&
  (v.walk.toNat < 3 || b.walkOk v.vb v.rep) &&
  (mem || v.step == 0#3)

/-- Floating element types 0x0 to 0x2 (Table 06-3). -/
def typeF (t : BitVec 4) : Bool := t.toNat < 3
/-- Integer element types 0x4 to 0x6 and 0x8 to 0xA. -/
def typeI (t : BitVec 4) : Bool := (4 ≤ t.toNat && t.toNat ≤ 6) || (8 ≤ t.toNat && t.toNat ≤ 10)
/-- The width-only types 0x4 to 0x6. -/
def typeW (t : BitVec 4) : Bool := 4 ≤ t.toNat && t.toNat ≤ 6
/-- Element width in bytes of a type code; 0 when unassigned (Table 06-3). -/
def typeWidth (t : BitVec 4) : Nat :=
  match t.toNat with
  | 0 => 4 | 1 => 2 | 2 => 2 | 4 => 4 | 5 => 2 | 6 => 1 | 8 => 4 | 9 => 2 | 10 => 1 | _ => 0

/-- The conversion ratio of VCVT by `asel` (Table 06-10). -/
def cvtRatio (t : BitVec 4) : Nat :=
  match t.toNat with
  | 0 => 2 | 1 => 2 | 2 => 4 | 3 => 4 | 4 => 1 | 5 => 2 | 6 => 4 | 7 => 1
  | 8 => 2 | 9 => 2 | 10 => 4 | 11 => 4 | 12 => 1 | 13 => 2 | 14 => 4 | _ => 2

/-- The VCVT conversions that are always exact take mode 0 only (R248). -/
def cvtExact (t : BitVec 4) : Bool :=
  match t.toNat with
  | 8 | 9 | 10 | 11 | 13 | 14 => true
  | _ => false

/-- The ratio of a VUNPK or VPACK pair by `asel` (Table 06-11); 0 when unassigned. -/
def packRatio (t : BitVec 4) : Nat :=
  match t.toNat with
  | 0 => 4 | 1 => 4 | 2 => 2 | 3 => 2 | 4 => 2 | 5 => 2 | 6 => 2 | 7 => 8 | 8 => 4 | 9 => 2 | _ => 0

/-- `vb`[29:27] of VCVT and VQNT: the rounding mode. -/
def VArgs.cvtMode (v : VArgs) : Nat := v.vb.toNat / 4
/-- `vb`[26:25] of VCVT, VLDT and VLDB: the part, or the width code. -/
def VArgs.low2 (v : VArgs) : Nat := v.vb.toNat % 4
/-- The fields of VMOV forms other than the v-register copy: m0, no walk, no repeat (R263). -/
def VArgs.movForm (v : VArgs) : Bool := v.mask == 0#3 && v.walk == 0#2 && v.rep == 0#8

/-! ### Every instruction -/

/-- The instruction has an encoding: every check of R64 steps 3 to 5 on its fields holds. Steps and events have no
encoding and are well formed as they stand. -/
def Instr.wf (i : Instr) : Bool :=
  match i with
  | .add _ _ b g => srOk b g
  | .sub _ _ b g => srOk b g
  | .mul _ _ b g => srOk b g
  | .mulh _ _ b g => srOk b g
  | .mulhn _ _ b g => srOk b g
  | .div _ _ b g => srOk b g
  | .divn _ _ b g => srOk b g
  | .rem _ _ b g => srOk b g
  | .remn _ _ b g => srOk b g
  | .min _ _ b g => srOk b g
  | .max _ _ b g => srOk b g
  | .minn _ _ b g => srOk b g
  | .maxn _ _ b g => srOk b g
  | .and _ _ b g => srOk b g
  | .or _ _ b g => srOk b g
  | .xor _ _ b g => srOk b g
  | .andn _ _ b g => srOk b g
  | .shl _ _ b g => srOk b g
  | .shr _ _ b g => srOk b g
  | .sra _ _ b g => srOk b g
  | .rotl _ _ b g => srOk b g
  | .tptr _ _ b g => srOk b g
  | .tadd _ _ b g => srOk b g
  | .tset _ b g => srOk b g
  | .tpost _ b g => srOk b g
  | .twait _ b g => srOk b g
  | .trig _ b g => srOk b g
  | .binit _ b g => srOk b g
  | .barvRemote _ t g => srOk t g
  | .barx _ b g => srOk b g
  | .bwait _ b g => srOk b g
  | .bwaitX _ b g => srOk b g
  | .abankAlloc _ b g => srOk b g
  | .abankFree _ b g => srOk b g
  | .tidset _ b g => srOk b g
  | .tidget _ b g => srOk b g
  | .vopen _ _ b g => srOk b g
  | .vpub _ b g => srOk b g
  | .vbind b g => srOk b g
  | .vretire _ b g => srOk b g
  | .vquery _ _ b g => srOk b g
  | .trec _ b g => srOk b g
  | .cwait _ _ b g => srOk b g
  | .hflush _ b g => srOk b g
  | .enq _ _ b g => srOk b g
  | .trap b g => srOk b g
  | .mov _ _ g => guardOk g
  | .clz _ _ g => guardOk g
  | .ctz _ _ g => guardOk g
  | .popc _ _ g => guardOk g
  | .sextB _ _ g => guardOk g
  | .sextH _ _ g => guardOk g
  | .sextW _ _ g => guardOk g
  | .zextB _ _ g => guardOk g
  | .zextH _ _ g => guardOk g
  | .zextW _ _ g => guardOk g
  | .addSi _ _ g _ => guardOk g
  | .subSi _ _ g _ => guardOk g
  | .mulSi _ _ g _ => guardOk g
  | .andSi _ _ g _ => guardOk g
  | .orSi _ _ g _ => guardOk g
  | .xorSi _ _ g _ => guardOk g
  | .minSi _ _ g _ => guardOk g
  | .maxSi _ _ g _ => guardOk g
  | .movi _ _ g _ => guardOk g
  | .taddSi _ _ g _ => guardOk g
  | .ld _ _ g _ _ => guardOk g
  | .st _ _ g _ _ => guardOk g
  | .br g _ => guardOk g
  | .call g _ => guardOk g
  | .jmpr _ _ g => guardOk g
  | .ret g => guardOk g
  | .ttest _ _ g => guardOk g
  | .barv _ g => guardOk g
  | .nclr _ g => guardOk g
  | .nstat _ _ g => guardOk g
  | .drainUsp g => guardOk g
  | .drainCls g => guardOk g
  | .drainDsp g => guardOk g
  | .drainVirt g => guardOk g
  | .drainVim g => guardOk g
  | .isync g => guardOk g
  | .sigf _ g => guardOk g
  | .iter g => guardOk g
  | .ckpt g => guardOk g
  | .sysret g => guardOk g
  | .wfe g => guardOk g
  | .exit g => guardOk g
  | .shlSi _ _ g i => guardOk g && decide (i.toNat < 64)
  | .shrSi _ _ g i => guardOk g && decide (i.toNat < 64)
  | .sraSi _ _ g i => guardOk g && decide (i.toNat < 64)
  | .rotlSi _ _ g i => guardOk g && decide (i.toNat < 64)
  | .cmp p _ b g c => srOk b g && p != 0#3 && decide (c.toNat < 10)
  | .pand d _ _ g => guardOk g && d != 0#3
  | .por d _ _ g => guardOk g && d != 0#3
  | .pxor d _ _ g => guardOk g && d != 0#3
  | .pnot d _ g => guardOk g && d != 0#3
  | .lit _ b g => b.isLit && guardOk g
  | .tget _ _ sel g => guardOk g && decide (sel.toNat < 3)
  | .amoAdd _ _ b z o => amoOk b z o
  | .amoAnd _ _ b z o => amoOk b z o
  | .amoOr _ _ b z o => amoOk b z o
  | .amoXor _ _ b z o => amoOk b z o
  | .amoMin _ _ b z o => amoOk b z o
  | .amoMax _ _ b z o => amoOk b z o
  | .amoMinn _ _ b z o => amoOk b z o
  | .amoMaxn _ _ b z o => amoOk b z o
  | .amoXchg _ _ b z o => amoOk b z o
  | .amoCas _ _ b z o => amoOk b z o
  | .amoFadd _ _ b z o => decide (b.toNat < 62) && decide (z.toNat < 2) && o != 3#2
  | .amoAdd128 d a b o => decide (b.toNat < 62) && pairOk d && pairOk a && o != 3#2
  | .fence g sc => guardOk g && decide (sc.toNat < 6)
  | .nrd d _ g => guardOk g && pairOk d
  | .mfs _ sr g => guardOk g && decide (sr.toNat < 13)
  | .mts _ sr g => guardOk g && (sr == 11#6 || sr == 12#6)
  | .nop _ => true
  | .cpy e => EOp.ok .cpy e
  | .cpyT e => EOp.ok .cpyT e
  | .cpyMc e => EOp.ok .cpyMc e
  | .cpyQ e => EOp.ok .cpyQ e
  | .gath e => EOp.ok .gath e
  | .scat e => EOp.ok .scat e
  | .bin e => EOp.ok .bin e
  | .kvg e => EOp.ok .kvg e
  | .kva e => EOp.ok .kva e
  | .kvdem e => EOp.ok .kvdem e
  | .kvrefInc e => EOp.ok .kvrefInc e
  | .kvrefDec e => EOp.ok .kvrefDec e
  | .cube e => EOp.ok .cube e
  | .cubeGa e => EOp.ok .cubeGa e
  | .cubeGb e => EOp.ok .cubeGb e
  | .cubeGk e => EOp.ok .cubeGk e
  | .cubeSp e => EOp.ok .cubeSp e
  | .aclr e => EOp.ok .aclr e
  | .adrain e => EOp.ok .adrain e
  | .stt e => EOp.ok .stt e
  | .stp e => EOp.ok .stp e
  | .stg e => EOp.ok .stg e
  | .updSgd e => EOp.ok .updSgd e
  | .updAdam e => EOp.ok .updAdam e
  | .vrun e => EOp.ok .vrun e
  | .gang _ chained op e => op.ok e && op.gangable && (!chained || op.chainable)
  | .chain op e => op.ok e && op.chainable
  | .vadd v => v.shape .vreg .vreg .vreg false && typeF v.asel
  | .vsub v => v.shape .vreg .vreg .vreg false && typeF v.asel
  | .vmul v => v.shape .vreg .vreg .vreg false && typeF v.asel
  | .vfma v => v.shape .vreg .vreg .vreg false && typeF v.asel
  | .vfms v => v.shape .vreg .vreg .vreg false && typeF v.asel
  | .vmin v => v.shape .vreg .vreg .vreg false && typeF v.asel
  | .vmax v => v.shape .vreg .vreg .vreg false && typeF v.asel
  | .vabs v => v.shape .vreg .vreg .zero false && typeF v.asel
  | .vneg v => v.shape .vreg .vreg .zero false && typeF v.asel
  | .vrcp v => v.shape .vreg .vreg .zero false && typeF v.asel
  | .vrsq v => v.shape .vreg .vreg .zero false && typeF v.asel
  | .vexp2 v => v.shape .vreg .vreg .zero false && typeF v.asel
  | .vlog2 v => v.shape .vreg .vreg .zero false && typeF v.asel
  | .vtanh v => v.shape .vreg .vreg .zero false && typeF v.asel
  | .viadd v => v.shape .vreg .vreg .vreg false && typeI v.asel
  | .visub v => v.shape .vreg .vreg .vreg false && typeI v.asel
  | .vimul v => v.shape .vreg .vreg .vreg false && typeI v.asel
  | .vand v => v.shape .vreg .vreg .vreg false && typeI v.asel
  | .vor v => v.shape .vreg .vreg .vreg false && typeI v.asel
  | .vxor v => v.shape .vreg .vreg .vreg false && typeI v.asel
  | .vshl v => v.shape .vreg .vreg .vreg false && typeI v.asel
  | .vshr v => v.shape .vreg .vreg .vreg false && typeI v.asel
  | .vsra v => v.shape .vreg .vreg .vreg false && typeI v.asel
  | .vimin v => v.shape .vreg .vreg .vreg false && typeI v.asel
  | .vimax v => v.shape .vreg .vreg .vreg false && typeI v.asel
  | .vsat v => v.shape .vreg .vreg .other false && typeI v.asel && v.vb != 0#5 && decide (v.vb.toNat < 8 * typeWidth v.asel)
  | .vcmp v => v.shape .mreg .vreg .vreg false && (typeF v.asel || typeI v.asel) && decide (v.vd.toNat % 8 ≠ 0)
  | .vcnt v => v.shape .vreg .mreg .zero false && typeW v.asel && decide (v.va.toNat < 8)
  | .vcvt v => v.shape .vreg .vreg .other false && decide (v.cvtMode < 5) && decide (v.low2 < cvtRatio v.asel) &&
      (!cvtExact v.asel || v.cvtMode == 0)
  | .vqnt v => v.shape .vreg .vreg .other false && v.mask == 0#3 && decide (v.asel.toNat < 6) && decide (v.cvtMode < 5) &&
      v.low2 == 0
  | .vdqnt v => v.shape .vreg .vreg .zero false && decide (v.asel.toNat < 6)
  | .vunpk v => v.shape .vreg .vreg .other false && decide (v.asel.toNat < 8) && decide (v.vb.toNat < packRatio v.asel)
  | .vpack v => v.shape .vreg .vreg .other false && decide (v.asel.toNat < 10) && decide (v.vb.toNat < packRatio v.asel)
  | .vld v => v.shape .vreg .zero .zero true
  | .vst v => v.shape .vreg .zero .zero true
  | .vldt v => v.shape .vreg .zero .other true && decide (v.vb.toNat < 3)
  | .vgth v => v.shape .vreg .vreg .zero true
  | .vsct v => v.shape .vreg .vreg .zero true
  | .vldb v => v.shape .vreg .zero .other true && decide (v.vb.toNat < 3)
  | .vrsum v => v.shape .vreg .vreg .zero false && (typeF v.asel || v.asel == 4#4 || v.asel == 8#4)
  | .vrmax v => v.shape .vreg .vreg .zero false && (typeF v.asel || v.asel == 4#4 || v.asel == 8#4)
  | .vrmin v => v.shape .vreg .vreg .zero false && (typeF v.asel || v.asel == 4#4 || v.asel == 8#4)
  | .vscan v => v.shape .vreg .vreg .zero false && (v.asel == 0#4 || v.asel == 4#4 || v.asel == 8#4)
  | .vsegs v => v.shape .vreg .vreg .vreg false && (v.asel == 0#4 || v.asel == 4#4 || v.asel == 8#4)
  | .vpart v => v.shape .vreg .vreg .vreg false && v.asel == 0#4
  | .vrng v => v.shape .vreg .zero .zero false && (v.asel == 0#4 || v.asel == 8#4)
  | .vdrop v => v.shape .vreg .vreg .zero false
  | .vgmb v => v.shape .vreg .vreg .zero false && v.asel == 0#4
  | .vargmx v => v.shape .vreg .vreg .zero false && (v.asel == 0#4 || v.asel == 2#4)
  | .vmovCK v => v.shape .zero .other .zero false && v.movForm && decide (v.asel.toNat < 4) && decide (v.va.toNat < 16)
  | .vmovV v => v.shape .vreg .vreg .zero false && typeW v.asel
  | .vmovAK v => v.shape .other .other .other false && v.movForm && v.asel == 8#4 && decide (v.vd.toNat < 16) &&
      decide (v.va.toNat < 16) && decide (v.vb.toNat < 16)
  | .vmovAdd v => v.shape .other .other .zero false && v.movForm && v.asel == 9#4 && decide (v.vd.toNat < 16) &&
      decide (v.va.toNat < 16)
  | .vmovKV v => v.shape .other .vreg .zero false && v.movForm && v.asel == 10#4 && decide (v.vd.toNat < 16)
  | .vsel v => v.shape .vreg .vreg .vreg false && typeW v.asel
  | .vperm v => v.shape .vreg .vreg .vreg false && typeW v.asel
  | .vshuf v => v.shape .vreg .vreg .vreg false && decide (v.asel.toNat / 4 < 3)
  | .vbcst v => v.shape .vreg .zero .zero false
  | .viota v => v.shape .vreg .zero .zero false
  | .vsetk _ _ _ => true
  | .vlp _ target _ => decide (target.toNat < 10922)
  | .vend => true
  | .unassignedEncoding _ | .unassignedVectorWord _ | .vectorResultLanding _ | .elasticWordCompletion _ _
  | .engineCommandStart _ _ | .engineCommandCompletion _ _ | .engineAccessFault _ _
  | .chunkWritesPerformed _ _ _ _ | .tokenWaitSatisfied _ _ | .calicoTermFire _ _ | .barrierArrival _
  | .outsideArrivalReceive _ _ | .classDCompare _ _ | .thirdExecutionDecision _ | .bankSpareReplace _
  | .checkpointCommit _ | .groupResume _ _ | .preemptionTakeEffect _ | .progressGuardExpiry _
  | .quiescenceWatchdog _ | .wfeTimeout _ | .queueClaim _ _ | .queueWriteIndexUpdate _ _ _ _
  | .queueCompletionAck _ _ _ | .queueErrorWrite _ _ _ | .queueCreate _ _ _ | .queueRestart _ _
  | .queueDestroy _ _ | .queuePark _ | .dependenceCounterWrite _ _ _ | .packetValidation _
  | .launchPlacement _ _ | .launchCompletion _ | .pageWalkReturn _ _ _ _ | .shootdownIssue _ _ _
  | .shootdownComplete _ | .contextStateWrite _ _ _ | .contextResolveWrite _ _ _ | .vrCreate _ _ _
  | .vrDestroy _ _ _ | .vrAbandon _ _ _ | .kvPromote _ _ | .kvFrameRelease _ | .kvHeaderWrite _ _ _ _
  | .partitionDescriptorWrite _ _ _ | .remoteMasterWrite _ _ _ | .breakpointWrite _ _ _ _
  | .faultQueueDescriptorWrite _ _ _ _ | .faultQueueReadWrite _ _ _ | .nodeIdWrite _ _ | .powerLimitWrite _ _
  | .sysRegisterWrite _ _ _ _ | .hostApertureAccess _ _ _ | .hostWindowAccess _ _ _ | .linkRead _
  | .linkReadResponse _ | .linkMaskedWrite _ | .linkWriteAcknowledgement _ | .linkAtomic _
  | .linkAtomicResponse _ | .linkEnqueue _ | .linkEnqueueResponse _ | .linkBarrierArrival _
  | .linkArrivalAcknowledgement _ | .linkNack _ | .linkUnknownOp _ | .linkPause _ _ | .linkResume _ _
  | .linkPauseExpiry _ _ | .remoteResponseTimeout _ | .linkPortDown _ | .linkPortTrained _ | .fwVerify _
  | .fwUpdate _ | .mbReadScore _ _ | .mbClearFence _ _ | .mbCopyFlashRecord _ _ _
  | .mbWriteFirmwareSlot _ _ _ _ | .mbDeviceReset _ | .mbRaiseAntirollback _ _ | .mbCapacitySave _ _
  | .mbCapacityRestore _ _ | .mbUnknownCommand _ _ | .pcieConventionalReset _ | .spdmGetVersion _
  | .spdmGetCapabilities _ | .spdmNegotiateAlgorithms _ | .spdmGetDigests _ | .spdmGetCertificate _
  | .spdmChallenge _ _ | .spdmGetMeasurements _ _ | .spdmUnsupportedRequest _ _ | .writePerformed _
  | .softError _ | .functionReady _ | .hostPortTrained _ _ | .linkFlitError _ _ | .scoreHalving
  | .flashRecordWrite | .msixNotify | .fwTrialStart | .fwHeartbeat | .fwHeartbeatTimeout | .fwCommit
  | .fwAbandon | .capacitySaveComplete | .bringUp | .powerLoss => true

/-- The form of an instruction: where it is fetched, or a step or event of the device. -/
inductive Form where
  | scalar | engine | vector | event
deriving DecidableEq, Repr

/-- The form of each constructor. -/
def Instr.form (i : Instr) : Form :=
  match i with
  | .add _ _ _ _ | .sub _ _ _ _ | .mul _ _ _ _ | .mulh _ _ _ _ | .mulhn _ _ _ _ | .div _ _ _ _ | .divn _ _ _ _
  | .rem _ _ _ _ | .remn _ _ _ _ | .min _ _ _ _ | .max _ _ _ _ | .minn _ _ _ _ | .maxn _ _ _ _ | .and _ _ _ _
  | .or _ _ _ _ | .xor _ _ _ _ | .andn _ _ _ _ | .shl _ _ _ _ | .shr _ _ _ _ | .sra _ _ _ _ | .rotl _ _ _ _
  | .mov _ _ _ | .clz _ _ _ | .ctz _ _ _ | .popc _ _ _ | .sextB _ _ _ | .sextH _ _ _ | .sextW _ _ _
  | .zextB _ _ _ | .zextH _ _ _ | .zextW _ _ _ | .cmp _ _ _ _ _ | .pand _ _ _ _ | .por _ _ _ _ | .pxor _ _ _ _
  | .pnot _ _ _ | .lit _ _ _ | .tptr _ _ _ _ | .tadd _ _ _ _ | .tget _ _ _ _ | .addSi _ _ _ _ | .subSi _ _ _ _
  | .mulSi _ _ _ _ | .andSi _ _ _ _ | .orSi _ _ _ _ | .xorSi _ _ _ _ | .shlSi _ _ _ _ | .shrSi _ _ _ _
  | .sraSi _ _ _ _ | .rotlSi _ _ _ _ | .minSi _ _ _ _ | .maxSi _ _ _ _ | .movi _ _ _ _ | .taddSi _ _ _ _
  | .ld _ _ _ _ _ | .st _ _ _ _ _ | .br _ _ | .call _ _ | .jmpr _ _ _ | .ret _ | .amoAdd _ _ _ _ _
  | .amoAnd _ _ _ _ _ | .amoOr _ _ _ _ _ | .amoXor _ _ _ _ _ | .amoMin _ _ _ _ _ | .amoMax _ _ _ _ _
  | .amoMinn _ _ _ _ _ | .amoMaxn _ _ _ _ _ | .amoXchg _ _ _ _ _ | .amoCas _ _ _ _ _ | .amoFadd _ _ _ _ _
  | .amoAdd128 _ _ _ _ | .fence _ _ | .tset _ _ _ | .tpost _ _ _ | .twait _ _ _ | .ttest _ _ _ | .trig _ _ _
  | .binit _ _ _ | .barv _ _ | .barvRemote _ _ _ | .barx _ _ _ | .bwait _ _ _ | .bwaitX _ _ _
  | .abankAlloc _ _ _ | .abankFree _ _ _ | .tidset _ _ _ | .tidget _ _ _ | .nrd _ _ _ | .nclr _ _
  | .nstat _ _ _ | .vopen _ _ _ _ | .vpub _ _ _ | .vbind _ _ | .vretire _ _ _ | .vquery _ _ _ _ | .trec _ _ _
  | .cwait _ _ _ _ | .drainUsp _ | .drainCls _ | .drainDsp _ | .drainVirt _ | .drainVim _ | .hflush _ _ _
  | .isync _ | .enq _ _ _ _ | .sigf _ _ | .iter _ | .ckpt _ | .trap _ _ | .sysret _ | .wfe _ | .exit _
  | .mfs _ _ _ | .mts _ _ _ | .nop _ => .scalar
  | .cpy _ | .cpyT _ | .cpyMc _ | .cpyQ _ | .gath _ | .scat _ | .bin _ | .kvg _ | .kva _ | .kvdem _
  | .kvrefInc _ | .kvrefDec _ | .cube _ | .cubeGa _ | .cubeGb _ | .cubeGk _ | .cubeSp _ | .aclr _ | .adrain _
  | .stt _ | .stp _ | .stg _ | .updSgd _ | .updAdam _ | .vrun _ | .gang _ _ _ _ | .chain _ _ => .engine
  | .vadd _ | .vsub _ | .vmul _ | .vfma _ | .vfms _ | .vmin _ | .vmax _ | .vabs _ | .vneg _ | .vrcp _ | .vrsq _
  | .vexp2 _ | .vlog2 _ | .vtanh _ | .viadd _ | .visub _ | .vimul _ | .vand _ | .vor _ | .vxor _ | .vshl _
  | .vshr _ | .vsra _ | .vimin _ | .vimax _ | .vsat _ | .vcmp _ | .vcnt _ | .vcvt _ | .vqnt _ | .vdqnt _
  | .vunpk _ | .vpack _ | .vld _ | .vst _ | .vldt _ | .vgth _ | .vsct _ | .vldb _ | .vrsum _ | .vrmax _
  | .vrmin _ | .vscan _ | .vsegs _ | .vpart _ | .vrng _ | .vdrop _ | .vgmb _ | .vargmx _ | .vmovCK _ | .vmovV _
  | .vmovAK _ | .vmovAdd _ | .vmovKV _ | .vsel _ | .vperm _ | .vshuf _ | .vbcst _ | .viota _ | .vsetk _ _ _
  | .vlp _ _ _ | .vend => .vector
  | .unassignedEncoding _ | .unassignedVectorWord _ | .vectorResultLanding _ | .elasticWordCompletion _ _
  | .engineCommandStart _ _ | .engineCommandCompletion _ _ | .engineAccessFault _ _
  | .chunkWritesPerformed _ _ _ _ | .tokenWaitSatisfied _ _ | .calicoTermFire _ _ | .barrierArrival _
  | .outsideArrivalReceive _ _ | .classDCompare _ _ | .thirdExecutionDecision _ | .bankSpareReplace _
  | .checkpointCommit _ | .groupResume _ _ | .preemptionTakeEffect _ | .progressGuardExpiry _
  | .quiescenceWatchdog _ | .wfeTimeout _ | .queueClaim _ _ | .queueWriteIndexUpdate _ _ _ _
  | .queueCompletionAck _ _ _ | .queueErrorWrite _ _ _ | .queueCreate _ _ _ | .queueRestart _ _
  | .queueDestroy _ _ | .queuePark _ | .dependenceCounterWrite _ _ _ | .packetValidation _
  | .launchPlacement _ _ | .launchCompletion _ | .pageWalkReturn _ _ _ _ | .shootdownIssue _ _ _
  | .shootdownComplete _ | .contextStateWrite _ _ _ | .contextResolveWrite _ _ _ | .vrCreate _ _ _
  | .vrDestroy _ _ _ | .vrAbandon _ _ _ | .kvPromote _ _ | .kvFrameRelease _ | .kvHeaderWrite _ _ _ _
  | .partitionDescriptorWrite _ _ _ | .remoteMasterWrite _ _ _ | .breakpointWrite _ _ _ _
  | .faultQueueDescriptorWrite _ _ _ _ | .faultQueueReadWrite _ _ _ | .nodeIdWrite _ _ | .powerLimitWrite _ _
  | .sysRegisterWrite _ _ _ _ | .hostApertureAccess _ _ _ | .hostWindowAccess _ _ _ | .linkRead _
  | .linkReadResponse _ | .linkMaskedWrite _ | .linkWriteAcknowledgement _ | .linkAtomic _
  | .linkAtomicResponse _ | .linkEnqueue _ | .linkEnqueueResponse _ | .linkBarrierArrival _
  | .linkArrivalAcknowledgement _ | .linkNack _ | .linkUnknownOp _ | .linkPause _ _ | .linkResume _ _
  | .linkPauseExpiry _ _ | .remoteResponseTimeout _ | .linkPortDown _ | .linkPortTrained _ | .fwVerify _
  | .fwUpdate _ | .mbReadScore _ _ | .mbClearFence _ _ | .mbCopyFlashRecord _ _ _
  | .mbWriteFirmwareSlot _ _ _ _ | .mbDeviceReset _ | .mbRaiseAntirollback _ _ | .mbCapacitySave _ _
  | .mbCapacityRestore _ _ | .mbUnknownCommand _ _ | .pcieConventionalReset _ | .spdmGetVersion _
  | .spdmGetCapabilities _ | .spdmNegotiateAlgorithms _ | .spdmGetDigests _ | .spdmGetCertificate _
  | .spdmChallenge _ _ | .spdmGetMeasurements _ _ | .spdmUnsupportedRequest _ _ | .writePerformed _
  | .softError _ | .functionReady _ | .hostPortTrained _ _ | .linkFlitError _ _ | .scoreHalving
  | .flashRecordWrite | .msixNotify | .fwTrialStart | .fwHeartbeat | .fwHeartbeatTimeout | .fwCommit
  | .fwAbandon | .capacitySaveComplete | .bringUp | .powerLoss => .event

end Sys2Proof
end

