-- ==== Sys2Proof/Decode.lean ====
section
/-! DEFINITION. The decoder, total on any words and refusing by name, and the encoder (R49 to R65, Tables 02-1
to 02-8). Scalar and engine-issue code is a sequence of 32-bit words; a vector word has 48 bits. -/

namespace Sys2Proof

/-- Why a word is refused; each raises Illegal Encoding fault (0x01) where it is executed (R64). -/
inductive Reject where
  /-- A res0 field or an unused field that is not zero (R55, R63). -/
  | reserved
  /-- A field outside its range (R64 step 5). -/
  | range
  /-- An illegal prefix sequence (R59, R219, R222). -/
  | prefixes
  /-- Words of the instruction are missing. -/
  | short
deriving DecidableEq, Repr

/-! ### Fields of a base word -/

/-- The major opcode of a base word. -/
def fMop (w : BitVec 32) : BitVec 6 := w.extractLsb' 26 6
/-- `rd`, `rs`, `sub` or `post`: bits [25:20] … of a word. -/
def fRd (w : BitVec 32) : BitVec 6 := w.extractLsb' 20 6
/-- `ra`. -/
def fRa (w : BitVec 32) : BitVec 6 := w.extractLsb' 14 6
/-- `rb`. -/
def fRb (w : BitVec 32) : BitVec 6 := w.extractLsb' 8 6
/-- The guard of SR, or the size and order of SA. -/
def fGuard (w : BitVec 32) : BitVec 4 := w.extractLsb' 4 4
/-- `fn` or `aop`. -/
def fFn (w : BitVec 32) : BitVec 4 := w.extractLsb' 0 4

/-- Whether a major opcode is of form SR. -/
def isSR (mop : BitVec 6) : Bool :=
  let m := mop.toNat
  m < 16 || m == 0x2A || m == 0x2D || (0x30 ≤ m && m ≤ 0x36)

/-- Table 02-1: how many words an instruction has, from its base word alone: from its major opcode and `rb`. -/
def wordCount (mop rb : BitVec 6) : Nat :=
  if isSR mop then (if rb == 62#6 then 2 else if rb == 63#6 then 3 else 1)
  else if 0x38 ≤ mop.toNat && mop.toNat ≤ 0x3E then 2
  else 1
/-- The same of a base word. -/
def baseWords (w : BitVec 32) : Nat := wordCount (fMop w) (fRb w)

/-- The `rb` operand: a register, or the literal that follows (R52). -/
def decodeSrc (rb : BitVec 6) (w1 w2 : BitVec 32) : Src :=
  if rb == 62#6 then .lit32 w1
  else if rb == 63#6 then .lit64 (w2 ++ w1)
  else .reg rb

/-- Accept an instruction only when its fields are legal. -/
def checked (i : Instr) : Except Reject Instr := if i.wf then .ok i else .error .range

/-- A decoded instruction, given that its reserved fields are zero. -/
def resv (zero : Bool) (i : Instr) : Except Reject Instr := if zero then checked i else .error .reserved

/-! ### The scalar formats -/

/-- Form SR (Tables 02-2 and 02-3), from the fields of its base word `w`. -/
def decodeSR (mop d a r : BitVec 6) (g fn : BitVec 4) (b : Src) (w : BitVec 32) : Except Reject Instr :=
  let d0 := d == 0#6
  let a0 := a == 0#6
  let r0 := r == 0#6
  let bar : BitVec 7 := d.extractLsb' 0 1 ++ a
  let bar0 := d.extractLsb' 2 4 == 0#4
  let barf := d.extractLsb' 1 1 == 1#1
  let tid : BitVec 8 := d.extractLsb' 0 2 ++ a
  let tid0 := d.extractLsb' 2 4 == 0#4
  let p (f : BitVec 6) : BitVec 3 := f.extractLsb' 0 3
  let p0 (f : BitVec 6) : Bool := f.extractLsb' 3 3 == 0#3
  match mop.toNat, fn.toNat with
  | 0x00, 0 => checked (.add d a b g)
  | 0x00, 1 => checked (.sub d a b g)
  | 0x00, 2 => checked (.mul d a b g)
  | 0x00, 3 => checked (.mulh d a b g)
  | 0x00, 4 => checked (.mulhn d a b g)
  | 0x00, 5 => checked (.div d a b g)
  | 0x00, 6 => checked (.divn d a b g)
  | 0x00, 7 => checked (.rem d a b g)
  | 0x00, 8 => checked (.remn d a b g)
  | 0x00, 9 => checked (.min d a b g)
  | 0x00, 10 => checked (.max d a b g)
  | 0x00, 11 => checked (.minn d a b g)
  | 0x00, 12 => checked (.maxn d a b g)
  | 0x01, 0 => checked (.and d a b g)
  | 0x01, 1 => checked (.or d a b g)
  | 0x01, 2 => checked (.xor d a b g)
  | 0x01, 3 => checked (.andn d a b g)
  | 0x01, 4 => checked (.shl d a b g)
  | 0x01, 5 => checked (.shr d a b g)
  | 0x01, 6 => checked (.sra d a b g)
  | 0x01, 7 => checked (.rotl d a b g)
  | 0x01, 8 => resv r0 (.mov d a g)
  | 0x02, 0 => resv r0 (.clz d a g)
  | 0x02, 1 => resv r0 (.ctz d a g)
  | 0x02, 2 => resv r0 (.popc d a g)
  | 0x02, 3 => resv r0 (.sextB d a g)
  | 0x02, 4 => resv r0 (.sextH d a g)
  | 0x02, 5 => resv r0 (.sextW d a g)
  | 0x02, 6 => resv r0 (.zextB d a g)
  | 0x02, 7 => resv r0 (.zextH d a g)
  | 0x02, 8 => resv r0 (.zextW d a g)
  | 0x03, c => if c < 10 then resv (p0 d) (.cmp (p d) a b g fn) else .ok (.unassignedEncoding w)
  | 0x04, 0 => resv (p0 d && p0 a && p0 r) (.pand (p d) (p a) (p r) g)
  | 0x04, 1 => resv (p0 d && p0 a && p0 r) (.por (p d) (p a) (p r) g)
  | 0x04, 2 => resv (p0 d && p0 a && p0 r) (.pxor (p d) (p a) (p r) g)
  | 0x04, 3 => resv (p0 d && p0 a && r0) (.pnot (p d) (p a) g)
  | 0x05, 0 => resv a0 (.lit d b g)
  | 0x06, 0 => checked (.tptr d a b g)
  | 0x06, 1 => checked (.tadd d a b g)
  | 0x06, 2 => checked (.tget d a r g)
  | 0x2A, 0 => resv r0 (.jmpr d a g)
  | 0x2A, 1 => resv (d0 && a0 && r0) (.ret g)
  | 0x2D, c => if c < 6 then resv (d0 && a0 && r0) (.fence g fn) else .ok (.unassignedEncoding w)
  | 0x30, 0 => resv d0 (.tset a b g)
  | 0x30, 1 => resv d0 (.tpost a b g)
  | 0x30, 2 => resv d0 (.twait a b g)
  | 0x30, 3 => resv r0 (.ttest d a g)
  | 0x30, 4 => resv (d0 && a.extractLsb' 4 2 == 0#2) (.trig (a.extractLsb' 0 4) b g)
  | 0x31, 0 => resv (bar0 && !barf) (.binit bar b g)
  | 0x31, 1 => if barf then resv bar0 (.barvRemote bar b g) else resv (bar0 && r0) (.barv bar g)
  | 0x31, 2 => resv d0 (.barx a b g)
  | 0x31, 3 => if barf then resv bar0 (.bwaitX bar b g) else resv bar0 (.bwait bar b g)
  | 0x32, 0 => resv a0 (.abankAlloc d b g)
  | 0x32, 1 => resv d0 (.abankFree a b g)
  | 0x32, 2 => resv tid0 (.tidset tid b g)
  | 0x32, 3 => resv tid0 (.tidget tid b g)
  | 0x32, 4 => resv r0 (.nrd d a g)
  | 0x32, 5 => resv (d0 && r0) (.nclr a g)
  | 0x32, 6 => resv r0 (.nstat d a g)
  | 0x33, 0 => checked (.vopen d a b g)
  | 0x33, 1 => resv d0 (.vpub a b g)
  | 0x33, 2 => resv (d0 && a0) (.vbind b g)
  | 0x33, 3 => resv d0 (.vretire a b g)
  | 0x33, 4 => checked (.vquery d a b g)
  | 0x33, 5 => resv d0 (.trec a b g)
  | 0x34, 0 => checked (.cwait d a b g)
  | 0x34, 1 => resv (d0 && a0 && r0) (.drainUsp g)
  | 0x34, 2 => resv (d0 && a0 && r0) (.drainCls g)
  | 0x34, 3 => resv (d0 && a0 && r0) (.drainDsp g)
  | 0x34, 4 => resv (d0 && a0 && r0) (.drainVirt g)
  | 0x34, 5 => resv (d0 && a0 && r0) (.drainVim g)
  | 0x34, 6 => resv d0 (.hflush a b g)
  | 0x34, 7 => resv (d0 && a0 && r0) (.isync g)
  | 0x35, 0 => checked (.enq d a b g)
  | 0x35, 1 => resv (d0 && r0) (.sigf a g)
  | 0x35, 2 => resv (d0 && a0 && r0) (.iter g)
  | 0x35, 3 => resv (d0 && a0 && r0) (.ckpt g)
  | 0x35, 4 => resv (d0 && a0) (.trap b g)
  | 0x35, 5 => resv (d0 && a0 && r0) (.sysret g)
  | 0x35, 6 => resv (d0 && a0 && r0) (.wfe g)
  | 0x35, 7 => resv (d0 && a0 && r0) (.exit g)
  | 0x36, 0 => resv a0 (.mfs d r g)
  | 0x36, 1 => resv d0 (.mts a r g)
  | _, _ => .ok (.unassignedEncoding w)

/-- Form SI (R54, Table 02-3). -/
def decodeSI (mop d a : BitVec 6) (g : BitVec 4) (i : BitVec 10) (w : BitVec 32) : Except Reject Instr :=
  match mop.toNat with
  | 0x10 => checked (.addSi d a g i)
  | 0x11 => checked (.subSi d a g i)
  | 0x12 => checked (.mulSi d a g i)
  | 0x13 => checked (.andSi d a g i)
  | 0x14 => checked (.orSi d a g i)
  | 0x15 => checked (.xorSi d a g i)
  | 0x16 => checked (.shlSi d a g i)
  | 0x17 => checked (.shrSi d a g i)
  | 0x18 => checked (.sraSi d a g i)
  | 0x19 => checked (.rotlSi d a g i)
  | 0x1A => checked (.minSi d a g i)
  | 0x1B => checked (.maxSi d a g i)
  | 0x1C => checked (.movi d a g i)
  | 0x1D => checked (.taddSi d a g i)
  | _ => .ok (.unassignedEncoding w)

/-- Form SM: LD and ST. -/
def decodeSM (mop d a : BitVec 6) (g : BitVec 4) (z : BitVec 2) (o : BitVec 8) (w : BitVec 32) : Except Reject Instr :=
  match mop.toNat with
  | 0x20 => checked (.ld d a g z o)
  | 0x21 => checked (.st d a g z o)
  | _ => .ok (.unassignedEncoding w)

/-- Form SB: BR and CALL. -/
def decodeSB (mop : BitVec 6) (g : BitVec 4) (disp : BitVec 22) (w : BitVec 32) : Except Reject Instr :=
  match mop.toNat with
  | 0x28 => checked (.br g disp)
  | 0x29 => checked (.call g disp)
  | _ => .ok (.unassignedEncoding w)

/-- Form SA: the atomics (Table 02-4). -/
def decodeSA (d a b : BitVec 6) (z o : BitVec 2) (aop : BitVec 4) (w : BitVec 32) : Except Reject Instr :=
  match aop.toNat with
  | 0 => checked (.amoAdd d a b z o)
  | 1 => checked (.amoAnd d a b z o)
  | 2 => checked (.amoOr d a b z o)
  | 3 => checked (.amoXor d a b z o)
  | 4 => checked (.amoMin d a b z o)
  | 5 => checked (.amoMax d a b z o)
  | 6 => checked (.amoMinn d a b z o)
  | 7 => checked (.amoMaxn d a b z o)
  | 8 => checked (.amoXchg d a b z o)
  | 9 => checked (.amoCas d a b z o)
  | 10 => checked (.amoFadd d a b z o)
  | 11 => if z == 3#2 then checked (.amoAdd128 d a b o) else .error .range
  | _ => .ok (.unassignedEncoding w)

/-! ### The engine-issue format -/

/-- The fields of Table 02-5. -/
def decodeEArgs (w v : BitVec 32) : EArgs :=
  { xa := fRa w, xb := fRb w, guard := fGuard w, flags := fFn w, post := v.extractLsb' 26 6,
    wait0 := v.extractLsb' 20 6, wait1 := v.extractLsb' 14 6, wait2 := v.extractLsb' 8 6,
    xc := v.extractLsb' 2 6, order := v.extractLsb' 0 2 }

/-- Table 02-6, by `MOP` and `sub`. KVREF's two forms are told apart by its flags (R196). -/
def eopOf (mop sub : BitVec 6) (flags : BitVec 4) : Option EOp :=
  match mop.toNat, sub.toNat with
  | 0x38, 0 => some .cpy
  | 0x38, 1 => some .cpyT
  | 0x38, 2 => some .cpyMc
  | 0x38, 3 => some .cpyQ
  | 0x39, 0 => some .gath
  | 0x39, 1 => some .scat
  | 0x39, 2 => some .bin
  | 0x39, 3 => some .kvg
  | 0x39, 4 => some .kva
  | 0x39, 5 => some .kvdem
  | 0x39, 6 => some (if flags.getLsbD 0 then .kvrefDec else .kvrefInc)
  | 0x3A, 0 => some .cube
  | 0x3A, 1 => some .cubeGa
  | 0x3A, 2 => some .cubeGb
  | 0x3A, 3 => some .cubeGk
  | 0x3A, 4 => some .cubeSp
  | 0x3B, 0 => some .aclr
  | 0x3B, 1 => some .adrain
  | 0x3C, 0 => some .stt
  | 0x3C, 1 => some .stp
  | 0x3C, 2 => some .stg
  | 0x3C, 3 => some .updSgd
  | 0x3C, 4 => some .updAdam
  | 0x3D, 0 => some .vrun
  | _, _ => none

/-- The operation of a base word. -/
def decodeEOp (w : BitVec 32) : Option EOp := eopOf (fMop w) (fRd w) (fFn w)

/-- The instruction of an engine operation without a prefix. -/
def EOp.instr (op : EOp) (e : EArgs) : Instr :=
  match op with
  | .cpy => .cpy e
  | .cpyT => .cpyT e
  | .cpyMc => .cpyMc e
  | .cpyQ => .cpyQ e
  | .gath => .gath e
  | .scat => .scat e
  | .bin => .bin e
  | .kvg => .kvg e
  | .kva => .kva e
  | .kvdem => .kvdem e
  | .kvrefInc => .kvrefInc e
  | .kvrefDec => .kvrefDec e
  | .cube => .cube e
  | .cubeGa => .cubeGa e
  | .cubeGb => .cubeGb e
  | .cubeGk => .cubeGk e
  | .cubeSp => .cubeSp e
  | .aclr => .aclr e
  | .adrain => .adrain e
  | .stt => .stt e
  | .stp => .stp e
  | .stg => .stg e
  | .updSgd => .updSgd e
  | .updAdam => .updAdam e
  | .vrun => .vrun e

/-- A prefix word pair whose unused fields have the values R59 fixes. -/
def prefixOk (w v : BitVec 32) : Bool :=
  w.extractLsb' 0 14 == 0#14 && v == 0xFFFFFF00#32

/-- A GANG prefix (R219): only `xa` is free. -/
def isGang (w v : BitVec 32) : Bool := fMop w == 0x3E#6 && fRd w == 0#6 && prefixOk w v

/-- A CHAIN prefix (R222): `xa` is 0 too. -/
def isChain (w v : BitVec 32) : Bool := fMop w == 0x3E#6 && fRd w == 1#6 && prefixOk w v && fRa w == 0#6

/-- How many words the instruction at `ws` has, as far as the words read so far tell: the fetch reads on while
this exceeds what it has. A prefix reads on to its governed instruction only when it is legal itself. -/
def wordsNeeded (ws : List (BitVec 32)) : Nat :=
  match ws with
  | [] => 1
  | [w] => baseWords w
  | [w, v] => if isGang w v || isChain w v then 3 else baseWords w
  | [w, v, g] => if isGang w v || isChain w v then (if baseWords g == 2 && 0x38 ≤ (fMop g).toNat then 4 else 3)
                 else baseWords w
  | [w, v, g, h] => if isGang w v && isChain g h then 5 else if isGang w v || isChain w v then 4 else baseWords w
  | w :: v :: g :: h :: k :: _ =>
      if isGang w v && isChain g h then (if baseWords k == 2 && 0x38 ≤ (fMop k).toNat then 6 else 5) else baseWords w

/-- A governed instruction: MOP 0x38 to 0x3D with a legal operation (R59). -/
def decodeGoverned (w v : BitVec 32) : Option (EOp × EArgs) := (decodeEOp w).map fun op => (op, decodeEArgs w v)

/-- Form E, with the prefix rules of R59. -/
def decodeE (ws : List (BitVec 32)) : Except Reject Instr :=
  match ws with
  | w :: v :: rest =>
      if fMop w == 0x3E#6 then
        (if 2 ≤ (fRd w).toNat then .ok (.unassignedEncoding w)
         else if isGang w v then
          (match rest with
           | g :: h :: rest2 =>
               (if isChain g h then
                  (match rest2 with
                   | k :: l :: _ =>
                       (match decodeGoverned k l with
                        | some (op, e) => if op.gangable then checked (.gang (fRa w) true op e) else .error .prefixes
                        | none => .error .prefixes)
                   | _ => .error .prefixes)
                else
                  (match decodeGoverned g h with
                   | some (op, e) => if op.gangable then checked (.gang (fRa w) false op e) else .error .prefixes
                   | none => .error .prefixes))
           | _ => .error .prefixes)
         else if isChain w v then
          (match rest with
           | g :: h :: _ =>
               (match decodeGoverned g h with
                | some (op, e) => if op.chainable then checked (.chain op e) else .error .prefixes
                | none => .error .prefixes)
           | _ => .error .prefixes)
         else .error .prefixes)
      else
        (match decodeEOp w with
         | some op => checked (op.instr (decodeEArgs w v))
         | none => .ok (.unassignedEncoding w))
  | _ => .error .short

/-- The decoder of the scalar stream: an instruction from its words (R64). -/
def decode (ws : List (BitVec 32)) : Except Reject Instr :=
  match ws with
  | [] => .error .short
  | w :: rest =>
      let m := (fMop w).toNat
      if isSR (fMop w) then
        (if rest.length + 1 < baseWords w then .error .short
         else decodeSR (fMop w) (fRd w) (fRa w) (fRb w) (fGuard w) (fFn w)
                (decodeSrc (fRb w) (rest.getD 0 0#32) (rest.getD 1 0#32)) w)
      else if m < 0x20 then decodeSI (fMop w) (fRd w) (fRa w) (w.extractLsb' 10 4) (w.extractLsb' 0 10) w
      else if m < 0x28 then decodeSM (fMop w) (fRd w) (fRa w) (w.extractLsb' 10 4) (w.extractLsb' 8 2) (w.extractLsb' 0 8) w
      else if m == 0x2C then decodeSA (fRd w) (fRa w) (fRb w) (w.extractLsb' 6 2) (w.extractLsb' 4 2) (fFn w) w
      else if m == 0x28 || m == 0x29 then decodeSB (fMop w) (w.extractLsb' 22 4) (w.extractLsb' 0 22) w
      else if m == 0x37 then .ok (.nop (w.extractLsb' 0 26))
      else if 0x38 ≤ m && m ≤ 0x3E then decodeE ws
      else .ok (.unassignedEncoding w)

/-! ### Vector words -/

/-- The fields of a V-kind word (Table 02-7). -/
def decodeVArgs (w : BitVec 48) : VArgs :=
  { vd := w.extractLsb' 35 5, va := w.extractLsb' 30 5, vb := w.extractLsb' 25 5, mask := w.extractLsb' 22 3,
    walk := w.extractLsb' 20 2, rep := w.extractLsb' 12 8, asel := w.extractLsb' 8 4, step := w.extractLsb' 5 3,
    idle := w.extractLsb' 0 5 }

/-- VMOV's forms by `asel` (Table 06-12). -/
def decodeVmov (v : VArgs) : Except Reject Instr :=
  match v.asel.toNat with
  | 0 => checked (.vmovCK v)
  | 1 => checked (.vmovCK v)
  | 2 => checked (.vmovCK v)
  | 3 => checked (.vmovCK v)
  | 4 => checked (.vmovV v)
  | 5 => checked (.vmovV v)
  | 6 => checked (.vmovV v)
  | 8 => checked (.vmovAK v)
  | 9 => checked (.vmovAdd v)
  | 10 => checked (.vmovKV v)
  | _ => .error .range

/-- Vector words (R61, R63, Table 02-8) by `vop`, their V-kind fields, and the word. -/
def decodeV (vop : BitVec 8) (v : VArgs) (w : BitVec 48) : Except Reject Instr :=
  match vop.toNat with
  | 0x10 => checked (.vadd v)
  | 0x11 => checked (.vsub v)
  | 0x12 => checked (.vmul v)
  | 0x13 => checked (.vfma v)
  | 0x14 => checked (.vfms v)
  | 0x15 => checked (.vmin v)
  | 0x16 => checked (.vmax v)
  | 0x17 => checked (.vabs v)
  | 0x18 => checked (.vneg v)
  | 0x19 => checked (.vrcp v)
  | 0x1A => checked (.vrsq v)
  | 0x1B => checked (.vexp2 v)
  | 0x1C => checked (.vlog2 v)
  | 0x1D => checked (.vtanh v)
  | 0x20 => checked (.viadd v)
  | 0x21 => checked (.visub v)
  | 0x22 => checked (.vimul v)
  | 0x23 => checked (.vand v)
  | 0x24 => checked (.vor v)
  | 0x25 => checked (.vxor v)
  | 0x26 => checked (.vshl v)
  | 0x27 => checked (.vshr v)
  | 0x28 => checked (.vsra v)
  | 0x29 => checked (.vimin v)
  | 0x2A => checked (.vimax v)
  | 0x2B => checked (.vsat v)
  | 0x30 => checked (.vcmp v)
  | 0x31 => checked (.vcnt v)
  | 0x38 => checked (.vcvt v)
  | 0x39 => checked (.vqnt v)
  | 0x3A => checked (.vdqnt v)
  | 0x3B => checked (.vunpk v)
  | 0x3C => checked (.vpack v)
  | 0x40 => checked (.vld v)
  | 0x41 => checked (.vst v)
  | 0x42 => checked (.vldt v)
  | 0x43 => checked (.vgth v)
  | 0x44 => checked (.vsct v)
  | 0x45 => checked (.vldb v)
  | 0x50 => checked (.vrsum v)
  | 0x51 => checked (.vrmax v)
  | 0x52 => checked (.vrmin v)
  | 0x53 => checked (.vscan v)
  | 0x54 => checked (.vsegs v)
  | 0x58 => checked (.vpart v)
  | 0x60 => checked (.vrng v)
  | 0x61 => checked (.vdrop v)
  | 0x62 => checked (.vgmb v)
  | 0x63 => checked (.vargmx v)
  | 0x68 => decodeVmov v
  | 0x69 => checked (.vsel v)
  | 0x6A => checked (.vperm v)
  | 0x6B => checked (.vshuf v)
  | 0x6C => checked (.vbcst v)
  | 0x6D => checked (.viota v)
  | 0x70 => checked (.vsetk (w.extractLsb' 36 4) (w.extractLsb' 4 32) (w.extractLsb' 0 4))
  | 0x71 => resv (w.extractLsb' 36 2 == 0#2 && w.extractLsb' 5 17 == 0#17)
              (.vlp (w.extractLsb' 38 2) (w.extractLsb' 22 14) (w.extractLsb' 0 5))
  | 0x72 => resv (w.extractLsb' 0 40 == 0#40) .vend
  | _ => .ok (.unassignedVectorWord w)

/-- The decoder of vector words. -/
def decodeVector (w : BitVec 48) : Except Reject Instr := decodeV (w.extractLsb' 40 8) (decodeVArgs w) w

/-! ### The encoder -/

/-- The `rb` field of a source operand. -/
def Src.code : Src → BitVec 6
  | .reg r => r
  | .lit32 _ => 62#6
  | .lit64 _ => 63#6

/-- The literal words that follow, low word first (R52). -/
def Src.words : Src → List (BitVec 32)
  | .reg _ => []
  | .lit32 w => [w]
  | .lit64 w => [w.extractLsb' 0 32, w.extractLsb' 32 32]

/-- A word of form SR. -/
def mkSR (mop rd ra rb : BitVec 6) (g fn : BitVec 4) : BitVec 32 := mop ++ rd ++ ra ++ rb ++ g ++ fn
/-- A word of form SI. -/
def mkSI (mop rd ra : BitVec 6) (g : BitVec 4) (i : BitVec 10) : BitVec 32 := mop ++ rd ++ ra ++ g ++ i
/-- A word of form SM. -/
def mkSM (mop rd ra : BitVec 6) (g : BitVec 4) (z : BitVec 2) (o : BitVec 8) : BitVec 32 :=
  mop ++ rd ++ ra ++ g ++ z ++ o
/-- A word of form SB. -/
def mkSB (mop : BitVec 6) (g : BitVec 4) (disp : BitVec 22) : BitVec 32 := mop ++ g ++ disp
/-- A word of form SA. -/
def mkSA (rd ra rb : BitVec 6) (z o : BitVec 2) (aop : BitVec 4) : BitVec 32 := 0x2C#6 ++ rd ++ ra ++ rb ++ z ++ o ++ aop
/-- The words of form SR with a source operand. -/
def encSR (mop rd ra : BitVec 6) (b : Src) (g fn : BitVec 4) : List (BitVec 32) := mkSR mop rd ra b.code g fn :: b.words
/-- A p register in a 6-bit field. -/
def pField (p : BitVec 3) : BitVec 6 := 0#3 ++ p
/-- `rd` of the barrier forms: flag and barrier bit 6 (R140). -/
def barRd (flag : BitVec 1) (b : BitVec 7) : BitVec 6 := 0#4 ++ flag ++ b.extractLsb' 6 1
/-- `ra` of the barrier forms. -/
def barRa (b : BitVec 7) : BitVec 6 := b.extractLsb' 0 6
/-- `rd` of TIDSET and TIDGET (R146). -/
def tidRd (t : BitVec 8) : BitVec 6 := 0#4 ++ t.extractLsb' 6 2
/-- `ra` of TIDSET and TIDGET. -/
def tidRa (t : BitVec 8) : BitVec 6 := t.extractLsb' 0 6

/-- `MOP` and `sub` of an engine operation (Table 02-6). -/
def EOp.code : EOp → BitVec 6 × BitVec 6
  | .cpy => (0x38#6, 0#6)
  | .cpyT => (0x38#6, 1#6)
  | .cpyMc => (0x38#6, 2#6)
  | .cpyQ => (0x38#6, 3#6)
  | .gath => (0x39#6, 0#6)
  | .scat => (0x39#6, 1#6)
  | .bin => (0x39#6, 2#6)
  | .kvg => (0x39#6, 3#6)
  | .kva => (0x39#6, 4#6)
  | .kvdem => (0x39#6, 5#6)
  | .kvrefInc => (0x39#6, 6#6)
  | .kvrefDec => (0x39#6, 6#6)
  | .cube => (0x3A#6, 0#6)
  | .cubeGa => (0x3A#6, 1#6)
  | .cubeGb => (0x3A#6, 2#6)
  | .cubeGk => (0x3A#6, 3#6)
  | .cubeSp => (0x3A#6, 4#6)
  | .aclr => (0x3B#6, 0#6)
  | .adrain => (0x3B#6, 1#6)
  | .stt => (0x3C#6, 0#6)
  | .stp => (0x3C#6, 1#6)
  | .stg => (0x3C#6, 2#6)
  | .updSgd => (0x3C#6, 3#6)
  | .updAdam => (0x3C#6, 4#6)
  | .vrun => (0x3D#6, 0#6)

/-- The two words of an E-form instruction (Table 02-5). -/
def encE (mop sub : BitVec 6) (e : EArgs) : List (BitVec 32) :=
  [mkSR mop sub e.xa e.xb e.guard e.flags, e.post ++ e.wait0 ++ e.wait1 ++ e.wait2 ++ e.xc ++ e.order]

/-- The two words of an engine operation. -/
def EOp.words (op : EOp) (e : EArgs) : List (BitVec 32) := encE op.code.1 op.code.2 e

/-- The words of a prefix (R59). -/
def prefixWords (sub xa : BitVec 6) : List (BitVec 32) := [mkSR 0x3E#6 sub xa 0#6 0#4 0#4, 0xFFFFFF00#32]

/-- A V-kind word (Table 02-7). -/
def mkV (vop : BitVec 8) (v : VArgs) : BitVec 48 :=
  vop ++ v.vd ++ v.va ++ v.vb ++ v.mask ++ v.walk ++ v.rep ++ v.asel ++ v.step ++ v.idle

/-- The 32-bit words of a scalar or engine-issue instruction (none for vector words and events). -/
def encode (i : Instr) : List (BitVec 32) :=
  match i with
  | .add d a b g => encSR 0x00#6 d a b g 0#4
  | .sub d a b g => encSR 0x00#6 d a b g 1#4
  | .mul d a b g => encSR 0x00#6 d a b g 2#4
  | .mulh d a b g => encSR 0x00#6 d a b g 3#4
  | .mulhn d a b g => encSR 0x00#6 d a b g 4#4
  | .div d a b g => encSR 0x00#6 d a b g 5#4
  | .divn d a b g => encSR 0x00#6 d a b g 6#4
  | .rem d a b g => encSR 0x00#6 d a b g 7#4
  | .remn d a b g => encSR 0x00#6 d a b g 8#4
  | .min d a b g => encSR 0x00#6 d a b g 9#4
  | .max d a b g => encSR 0x00#6 d a b g 10#4
  | .minn d a b g => encSR 0x00#6 d a b g 11#4
  | .maxn d a b g => encSR 0x00#6 d a b g 12#4
  | .and d a b g => encSR 0x01#6 d a b g 0#4
  | .or d a b g => encSR 0x01#6 d a b g 1#4
  | .xor d a b g => encSR 0x01#6 d a b g 2#4
  | .andn d a b g => encSR 0x01#6 d a b g 3#4
  | .shl d a b g => encSR 0x01#6 d a b g 4#4
  | .shr d a b g => encSR 0x01#6 d a b g 5#4
  | .sra d a b g => encSR 0x01#6 d a b g 6#4
  | .rotl d a b g => encSR 0x01#6 d a b g 7#4
  | .mov d a g => [mkSR 0x01#6 d a 0#6 g 8#4]
  | .clz d a g => [mkSR 0x02#6 d a 0#6 g 0#4]
  | .ctz d a g => [mkSR 0x02#6 d a 0#6 g 1#4]
  | .popc d a g => [mkSR 0x02#6 d a 0#6 g 2#4]
  | .sextB d a g => [mkSR 0x02#6 d a 0#6 g 3#4]
  | .sextH d a g => [mkSR 0x02#6 d a 0#6 g 4#4]
  | .sextW d a g => [mkSR 0x02#6 d a 0#6 g 5#4]
  | .zextB d a g => [mkSR 0x02#6 d a 0#6 g 6#4]
  | .zextH d a g => [mkSR 0x02#6 d a 0#6 g 7#4]
  | .zextW d a g => [mkSR 0x02#6 d a 0#6 g 8#4]
  | .cmp p a b g c => encSR 0x03#6 (pField p) a b g c
  | .pand d a b g => [mkSR 0x04#6 (pField d) (pField a) (pField b) g 0#4]
  | .por d a b g => [mkSR 0x04#6 (pField d) (pField a) (pField b) g 1#4]
  | .pxor d a b g => [mkSR 0x04#6 (pField d) (pField a) (pField b) g 2#4]
  | .pnot d a g => [mkSR 0x04#6 (pField d) (pField a) 0#6 g 3#4]
  | .lit d b g => encSR 0x05#6 d 0#6 b g 0#4
  | .tptr d a b g => encSR 0x06#6 d a b g 0#4
  | .tadd d a b g => encSR 0x06#6 d a b g 1#4
  | .tget d a sel g => [mkSR 0x06#6 d a sel g 2#4]
  | .addSi d a g i => [mkSI 0x10#6 d a g i]
  | .subSi d a g i => [mkSI 0x11#6 d a g i]
  | .mulSi d a g i => [mkSI 0x12#6 d a g i]
  | .andSi d a g i => [mkSI 0x13#6 d a g i]
  | .orSi d a g i => [mkSI 0x14#6 d a g i]
  | .xorSi d a g i => [mkSI 0x15#6 d a g i]
  | .shlSi d a g i => [mkSI 0x16#6 d a g i]
  | .shrSi d a g i => [mkSI 0x17#6 d a g i]
  | .sraSi d a g i => [mkSI 0x18#6 d a g i]
  | .rotlSi d a g i => [mkSI 0x19#6 d a g i]
  | .minSi d a g i => [mkSI 0x1A#6 d a g i]
  | .maxSi d a g i => [mkSI 0x1B#6 d a g i]
  | .movi d h g i => [mkSI 0x1C#6 d h g i]
  | .taddSi d a g i => [mkSI 0x1D#6 d a g i]
  | .ld d a g z o => [mkSM 0x20#6 d a g z o]
  | .st r a g z o => [mkSM 0x21#6 r a g z o]
  | .br g disp => [mkSB 0x28#6 g disp]
  | .call g disp => [mkSB 0x29#6 g disp]
  | .jmpr d a g => [mkSR 0x2A#6 d a 0#6 g 0#4]
  | .ret g => [mkSR 0x2A#6 0#6 0#6 0#6 g 1#4]
  | .amoAdd d a b z o => [mkSA d a b z o 0#4]
  | .amoAnd d a b z o => [mkSA d a b z o 1#4]
  | .amoOr d a b z o => [mkSA d a b z o 2#4]
  | .amoXor d a b z o => [mkSA d a b z o 3#4]
  | .amoMin d a b z o => [mkSA d a b z o 4#4]
  | .amoMax d a b z o => [mkSA d a b z o 5#4]
  | .amoMinn d a b z o => [mkSA d a b z o 6#4]
  | .amoMaxn d a b z o => [mkSA d a b z o 7#4]
  | .amoXchg d a b z o => [mkSA d a b z o 8#4]
  | .amoCas d a b z o => [mkSA d a b z o 9#4]
  | .amoFadd d a b z o => [mkSA d a b z o 10#4]
  | .amoAdd128 d a b o => [mkSA d a b 3#2 o 11#4]
  | .fence g sc => [mkSR 0x2D#6 0#6 0#6 0#6 g sc]
  | .tset e b g => encSR 0x30#6 0#6 e b g 0#4
  | .tpost e b g => encSR 0x30#6 0#6 e b g 1#4
  | .twait e b g => encSR 0x30#6 0#6 e b g 2#4
  | .ttest d e g => [mkSR 0x30#6 d e 0#6 g 3#4]
  | .trig t b g => encSR 0x30#6 0#6 (0#2 ++ t) b g 4#4
  | .binit bar b g => encSR 0x31#6 (barRd 0#1 bar) (barRa bar) b g 0#4
  | .barv bar g => [mkSR 0x31#6 (barRd 0#1 bar) (barRa bar) 0#6 g 1#4]
  | .barvRemote bar t g => encSR 0x31#6 (barRd 1#1 bar) (barRa bar) t g 1#4
  | .barx a b g => encSR 0x31#6 0#6 a b g 2#4
  | .bwait bar b g => encSR 0x31#6 (barRd 0#1 bar) (barRa bar) b g 3#4
  | .bwaitX bar b g => encSR 0x31#6 (barRd 1#1 bar) (barRa bar) b g 3#4
  | .abankAlloc d b g => encSR 0x32#6 d 0#6 b g 0#4
  | .abankFree a b g => encSR 0x32#6 0#6 a b g 1#4
  | .tidset t b g => encSR 0x32#6 (tidRd t) (tidRa t) b g 2#4
  | .tidget t b g => encSR 0x32#6 (tidRd t) (tidRa t) b g 3#4
  | .nrd d n g => [mkSR 0x32#6 d n 0#6 g 4#4]
  | .nclr n g => [mkSR 0x32#6 0#6 n 0#6 g 5#4]
  | .nstat d n g => [mkSR 0x32#6 d n 0#6 g 6#4]
  | .vopen d a b g => encSR 0x33#6 d a b g 0#4
  | .vpub a b g => encSR 0x33#6 0#6 a b g 1#4
  | .vbind b g => encSR 0x33#6 0#6 0#6 b g 2#4
  | .vretire a b g => encSR 0x33#6 0#6 a b g 3#4
  | .vquery d a b g => encSR 0x33#6 d a b g 4#4
  | .trec a b g => encSR 0x33#6 0#6 a b g 5#4
  | .cwait d a b g => encSR 0x34#6 d a b g 0#4
  | .drainUsp g => [mkSR 0x34#6 0#6 0#6 0#6 g 1#4]
  | .drainCls g => [mkSR 0x34#6 0#6 0#6 0#6 g 2#4]
  | .drainDsp g => [mkSR 0x34#6 0#6 0#6 0#6 g 3#4]
  | .drainVirt g => [mkSR 0x34#6 0#6 0#6 0#6 g 4#4]
  | .drainVim g => [mkSR 0x34#6 0#6 0#6 0#6 g 5#4]
  | .hflush a b g => encSR 0x34#6 0#6 a b g 6#4
  | .isync g => [mkSR 0x34#6 0#6 0#6 0#6 g 7#4]
  | .enq d a b g => encSR 0x35#6 d a b g 0#4
  | .sigf a g => [mkSR 0x35#6 0#6 a 0#6 g 1#4]
  | .iter g => [mkSR 0x35#6 0#6 0#6 0#6 g 2#4]
  | .ckpt g => [mkSR 0x35#6 0#6 0#6 0#6 g 3#4]
  | .trap b g => encSR 0x35#6 0#6 0#6 b g 4#4
  | .sysret g => [mkSR 0x35#6 0#6 0#6 0#6 g 5#4]
  | .wfe g => [mkSR 0x35#6 0#6 0#6 0#6 g 6#4]
  | .exit g => [mkSR 0x35#6 0#6 0#6 0#6 g 7#4]
  | .mfs d sr g => [mkSR 0x36#6 d 0#6 sr g 0#4]
  | .mts a sr g => [mkSR 0x36#6 0#6 a sr g 1#4]
  | .nop n => [0x37#6 ++ n]
  | .cpy e => EOp.words .cpy e
  | .cpyT e => EOp.words .cpyT e
  | .cpyMc e => EOp.words .cpyMc e
  | .cpyQ e => EOp.words .cpyQ e
  | .gath e => EOp.words .gath e
  | .scat e => EOp.words .scat e
  | .bin e => EOp.words .bin e
  | .kvg e => EOp.words .kvg e
  | .kva e => EOp.words .kva e
  | .kvdem e => EOp.words .kvdem e
  | .kvrefInc e => EOp.words .kvrefInc e
  | .kvrefDec e => EOp.words .kvrefDec e
  | .cube e => EOp.words .cube e
  | .cubeGa e => EOp.words .cubeGa e
  | .cubeGb e => EOp.words .cubeGb e
  | .cubeGk e => EOp.words .cubeGk e
  | .cubeSp e => EOp.words .cubeSp e
  | .aclr e => EOp.words .aclr e
  | .adrain e => EOp.words .adrain e
  | .stt e => EOp.words .stt e
  | .stp e => EOp.words .stp e
  | .stg e => EOp.words .stg e
  | .updSgd e => EOp.words .updSgd e
  | .updAdam e => EOp.words .updAdam e
  | .vrun e => EOp.words .vrun e
  | .gang xa chained op e => prefixWords 0#6 xa ++ (if chained then prefixWords 1#6 0#6 else []) ++ op.words e
  | .chain op e => prefixWords 1#6 0#6 ++ op.words e
  | .vadd _ | .vsub _ | .vmul _ | .vfma _ | .vfms _ | .vmin _ | .vmax _ | .vabs _ | .vneg _ | .vrcp _ | .vrsq _
  | .vexp2 _ | .vlog2 _ | .vtanh _ | .viadd _ | .visub _ | .vimul _ | .vand _ | .vor _ | .vxor _ | .vshl _
  | .vshr _ | .vsra _ | .vimin _ | .vimax _ | .vsat _ | .vcmp _ | .vcnt _ | .vcvt _ | .vqnt _ | .vdqnt _
  | .vunpk _ | .vpack _ | .vld _ | .vst _ | .vldt _ | .vgth _ | .vsct _ | .vldb _ | .vrsum _ | .vrmax _
  | .vrmin _ | .vscan _ | .vsegs _ | .vpart _ | .vrng _ | .vdrop _ | .vgmb _ | .vargmx _ | .vmovCK _ | .vmovV _
  | .vmovAK _ | .vmovAdd _ | .vmovKV _ | .vsel _ | .vperm _ | .vshuf _ | .vbcst _ | .viota _ | .vsetk _ _ _
  | .vlp _ _ _ | .unassignedEncoding _ | .unassignedVectorWord _ | .vectorResultLanding _
  | .elasticWordCompletion _ _ | .engineCommandStart _ _ | .engineCommandCompletion _ _
  | .engineAccessFault _ _ | .chunkWritesPerformed _ _ _ _ | .tokenWaitSatisfied _ _ | .calicoTermFire _ _
  | .barrierArrival _ | .outsideArrivalReceive _ _ | .classDCompare _ _ | .thirdExecutionDecision _
  | .bankSpareReplace _ | .checkpointCommit _ | .groupResume _ _ | .preemptionTakeEffect _
  | .progressGuardExpiry _ | .quiescenceWatchdog _ | .wfeTimeout _ | .queueClaim _ _
  | .queueWriteIndexUpdate _ _ _ _ | .queueCompletionAck _ _ _ | .queueErrorWrite _ _ _ | .queueCreate _ _ _
  | .queueRestart _ _ | .queueDestroy _ _ | .queuePark _ | .dependenceCounterWrite _ _ _ | .packetValidation _
  | .launchPlacement _ _ | .launchCompletion _ | .pageWalkReturn _ _ _ _ | .shootdownIssue _ _ _
  | .shootdownComplete _ | .contextStateWrite _ _ _ | .contextResolveWrite _ _ _ | .vrCreate _ _ _
  | .vrDestroy _ _ _ | .vrAbandon _ _ _ | .kvPromote _ _ | .kvFrameRelease _ | .kvHeaderWrite _ _ _ _
  | .partitionDescriptorWrite _ _ _ | .remoteMasterWrite _ _ _ | .breakpointWrite _ _ _ _
  | .faultQueueDescriptorWrite _ _ _ _ | .faultQueueReadWrite _ _ _ | .nodeIdWrite _ _ | .powerLimitWrite _ _
  | .sysRegisterWrite _ _ _ _ | .hostApertureAccess _ _ _ | .hostWindowAccess _ _ _ | .linkRead _
  | .linkReadResponse _ | .linkMaskedWrite _ | .linkWriteAcknowledgement _ | .linkAtomic _
  | .linkAtomicResponse _ | .linkEnqueue _ | .linkEnqueueResponse _ | .linkBarrierArrival _
  | .linkArrivalAcknowledgement _ | .linkNack _ | .linkUnknownOp _ | .linkPause _ _ | .linkResume _ _
  | .linkPauseExpiry _ _ | .remoteResponseTimeout _ | .linkPortDown _ | .linkPortTrained _ | .fwVerify _
  | .fwUpdate _ | .mbReadScore _ _ | .mbClearFence _ _ | .mbCopyFlashRecord _ _ _
  | .mbWriteFirmwareSlot _ _ _ _ | .mbDeviceReset _ | .mbRaiseAntirollback _ _ | .mbCapacitySave _ _
  | .mbCapacityRestore _ _ | .mbUnknownCommand _ _ | .pcieConventionalReset _ | .spdmGetVersion _
  | .spdmGetCapabilities _ | .spdmNegotiateAlgorithms _ | .spdmGetDigests _ | .spdmGetCertificate _
  | .spdmChallenge _ _ | .spdmGetMeasurements _ _ | .spdmUnsupportedRequest _ _ | .writePerformed _
  | .softError _ | .functionReady _ | .hostPortTrained _ _ | .linkFlitError _ _ | .vend | .scoreHalving
  | .flashRecordWrite | .msixNotify | .fwTrialStart | .fwHeartbeat | .fwHeartbeatTimeout | .fwCommit
  | .fwAbandon | .capacitySaveComplete | .bringUp | .powerLoss => []

/-- The 48-bit word of a vector instruction. -/
def encodeVector (i : Instr) : Option (BitVec 48) :=
  match i with
  | .vadd v => some (mkV 0x10#8 v)
  | .vsub v => some (mkV 0x11#8 v)
  | .vmul v => some (mkV 0x12#8 v)
  | .vfma v => some (mkV 0x13#8 v)
  | .vfms v => some (mkV 0x14#8 v)
  | .vmin v => some (mkV 0x15#8 v)
  | .vmax v => some (mkV 0x16#8 v)
  | .vabs v => some (mkV 0x17#8 v)
  | .vneg v => some (mkV 0x18#8 v)
  | .vrcp v => some (mkV 0x19#8 v)
  | .vrsq v => some (mkV 0x1A#8 v)
  | .vexp2 v => some (mkV 0x1B#8 v)
  | .vlog2 v => some (mkV 0x1C#8 v)
  | .vtanh v => some (mkV 0x1D#8 v)
  | .viadd v => some (mkV 0x20#8 v)
  | .visub v => some (mkV 0x21#8 v)
  | .vimul v => some (mkV 0x22#8 v)
  | .vand v => some (mkV 0x23#8 v)
  | .vor v => some (mkV 0x24#8 v)
  | .vxor v => some (mkV 0x25#8 v)
  | .vshl v => some (mkV 0x26#8 v)
  | .vshr v => some (mkV 0x27#8 v)
  | .vsra v => some (mkV 0x28#8 v)
  | .vimin v => some (mkV 0x29#8 v)
  | .vimax v => some (mkV 0x2A#8 v)
  | .vsat v => some (mkV 0x2B#8 v)
  | .vcmp v => some (mkV 0x30#8 v)
  | .vcnt v => some (mkV 0x31#8 v)
  | .vcvt v => some (mkV 0x38#8 v)
  | .vqnt v => some (mkV 0x39#8 v)
  | .vdqnt v => some (mkV 0x3A#8 v)
  | .vunpk v => some (mkV 0x3B#8 v)
  | .vpack v => some (mkV 0x3C#8 v)
  | .vld v => some (mkV 0x40#8 v)
  | .vst v => some (mkV 0x41#8 v)
  | .vldt v => some (mkV 0x42#8 v)
  | .vgth v => some (mkV 0x43#8 v)
  | .vsct v => some (mkV 0x44#8 v)
  | .vldb v => some (mkV 0x45#8 v)
  | .vrsum v => some (mkV 0x50#8 v)
  | .vrmax v => some (mkV 0x51#8 v)
  | .vrmin v => some (mkV 0x52#8 v)
  | .vscan v => some (mkV 0x53#8 v)
  | .vsegs v => some (mkV 0x54#8 v)
  | .vpart v => some (mkV 0x58#8 v)
  | .vrng v => some (mkV 0x60#8 v)
  | .vdrop v => some (mkV 0x61#8 v)
  | .vgmb v => some (mkV 0x62#8 v)
  | .vargmx v => some (mkV 0x63#8 v)
  | .vmovCK v => some (mkV 0x68#8 v)
  | .vmovV v => some (mkV 0x68#8 v)
  | .vmovAK v => some (mkV 0x68#8 v)
  | .vmovAdd v => some (mkV 0x68#8 v)
  | .vmovKV v => some (mkV 0x68#8 v)
  | .vsel v => some (mkV 0x69#8 v)
  | .vperm v => some (mkV 0x6A#8 v)
  | .vshuf v => some (mkV 0x6B#8 v)
  | .vbcst v => some (mkV 0x6C#8 v)
  | .viota v => some (mkV 0x6D#8 v)
  | .vsetk kd imm idle => some (0x70#8 ++ kd ++ imm ++ idle)
  | .vlp cn target idle => some (0x71#8 ++ cn ++ 0#2 ++ target ++ 0#17 ++ idle)
  | .vend => some (0x72#8 ++ 0#40)
  | .add _ _ _ _ | .sub _ _ _ _ | .mul _ _ _ _ | .mulh _ _ _ _ | .mulhn _ _ _ _ | .div _ _ _ _ | .divn _ _ _ _
  | .rem _ _ _ _ | .remn _ _ _ _ | .min _ _ _ _ | .max _ _ _ _ | .minn _ _ _ _ | .maxn _ _ _ _ | .and _ _ _ _
  | .or _ _ _ _ | .xor _ _ _ _ | .andn _ _ _ _ | .shl _ _ _ _ | .shr _ _ _ _ | .sra _ _ _ _ | .rotl _ _ _ _
  | .mov _ _ _ | .clz _ _ _ | .ctz _ _ _ | .popc _ _ _ | .sextB _ _ _ | .sextH _ _ _ | .sextW _ _ _
  | .zextB _ _ _ | .zextH _ _ _ | .zextW _ _ _ | .cmp _ _ _ _ _ | .pand _ _ _ _ | .por _ _ _ _ | .pxor _ _ _ _
  | .pnot _ _ _ | .lit _ _ _ | .tptr _ _ _ _ | .tadd _ _ _ _ | .tget _ _ _ _ | .addSi _ _ _ _ | .subSi _ _ _ _
  | .mulSi _ _ _ _ | .andSi _ _ _ _ | .orSi _ _ _ _ | .xorSi _ _ _ _ | .shlSi _ _ _ _ | .shrSi _ _ _ _
  | .sraSi _ _ _ _ | .rotlSi _ _ _ _ | .minSi _ _ _ _ | .maxSi _ _ _ _ | .movi _ _ _ _ | .taddSi _ _ _ _
  | .ld _ _ _ _ _ | .st _ _ _ _ _ | .br _ _ | .call _ _ | .jmpr _ _ _ | .ret _ | .amoAdd _ _ _ _ _
  | .amoAnd _ _ _ _ _ | .amoOr _ _ _ _ _ | .amoXor _ _ _ _ _ | .amoMin _ _ _ _ _ | .amoMax _ _ _ _ _
  | .amoMinn _ _ _ _ _ | .amoMaxn _ _ _ _ _ | .amoXchg _ _ _ _ _ | .amoCas _ _ _ _ _ | .amoFadd _ _ _ _ _
  | .amoAdd128 _ _ _ _ | .fence _ _ | .tset _ _ _ | .tpost _ _ _ | .twait _ _ _ | .ttest _ _ _ | .trig _ _ _
  | .binit _ _ _ | .barv _ _ | .barvRemote _ _ _ | .barx _ _ _ | .bwait _ _ _ | .bwaitX _ _ _
  | .abankAlloc _ _ _ | .abankFree _ _ _ | .tidset _ _ _ | .tidget _ _ _ | .nrd _ _ _ | .nclr _ _
  | .nstat _ _ _ | .vopen _ _ _ _ | .vpub _ _ _ | .vbind _ _ | .vretire _ _ _ | .vquery _ _ _ _ | .trec _ _ _
  | .cwait _ _ _ _ | .drainUsp _ | .drainCls _ | .drainDsp _ | .drainVirt _ | .drainVim _ | .hflush _ _ _
  | .isync _ | .enq _ _ _ _ | .sigf _ _ | .iter _ | .ckpt _ | .trap _ _ | .sysret _ | .wfe _ | .exit _
  | .mfs _ _ _ | .mts _ _ _ | .nop _ | .cpy _ | .cpyT _ | .cpyMc _ | .cpyQ _ | .gath _ | .scat _ | .bin _
  | .kvg _ | .kva _ | .kvdem _ | .kvrefInc _ | .kvrefDec _ | .cube _ | .cubeGa _ | .cubeGb _ | .cubeGk _
  | .cubeSp _ | .aclr _ | .adrain _ | .stt _ | .stp _ | .stg _ | .updSgd _ | .updAdam _ | .vrun _
  | .gang _ _ _ _ | .chain _ _ | .unassignedEncoding _ | .unassignedVectorWord _ | .vectorResultLanding _
  | .elasticWordCompletion _ _ | .engineCommandStart _ _ | .engineCommandCompletion _ _
  | .engineAccessFault _ _ | .chunkWritesPerformed _ _ _ _ | .tokenWaitSatisfied _ _ | .calicoTermFire _ _
  | .barrierArrival _ | .outsideArrivalReceive _ _ | .classDCompare _ _ | .thirdExecutionDecision _
  | .bankSpareReplace _ | .checkpointCommit _ | .groupResume _ _ | .preemptionTakeEffect _
  | .progressGuardExpiry _ | .quiescenceWatchdog _ | .wfeTimeout _ | .queueClaim _ _
  | .queueWriteIndexUpdate _ _ _ _ | .queueCompletionAck _ _ _ | .queueErrorWrite _ _ _ | .queueCreate _ _ _
  | .queueRestart _ _ | .queueDestroy _ _ | .queuePark _ | .dependenceCounterWrite _ _ _ | .packetValidation _
  | .launchPlacement _ _ | .launchCompletion _ | .pageWalkReturn _ _ _ _ | .shootdownIssue _ _ _
  | .shootdownComplete _ | .contextStateWrite _ _ _ | .contextResolveWrite _ _ _ | .vrCreate _ _ _
  | .vrDestroy _ _ _ | .vrAbandon _ _ _ | .kvPromote _ _ | .kvFrameRelease _ | .kvHeaderWrite _ _ _ _
  | .partitionDescriptorWrite _ _ _ | .remoteMasterWrite _ _ _ | .breakpointWrite _ _ _ _
  | .faultQueueDescriptorWrite _ _ _ _ | .faultQueueReadWrite _ _ _ | .nodeIdWrite _ _ | .powerLimitWrite _ _
  | .sysRegisterWrite _ _ _ _ | .hostApertureAccess _ _ _ | .hostWindowAccess _ _ _ | .linkRead _
  | .linkReadResponse _ | .linkMaskedWrite _ | .linkWriteAcknowledgement _ | .linkAtomic _
  | .linkAtomicResponse _ | .linkEnqueue _ | .linkEnqueueResponse _ | .linkBarrierArrival _
  | .linkArrivalAcknowledgement _ | .linkNack _ | .linkUnknownOp _ | .linkPause _ _ | .linkResume _ _
  | .linkPauseExpiry _ _ | .remoteResponseTimeout _ | .linkPortDown _ | .linkPortTrained _ | .fwVerify _
  | .fwUpdate _ | .mbReadScore _ _ | .mbClearFence _ _ | .mbCopyFlashRecord _ _ _
  | .mbWriteFirmwareSlot _ _ _ _ | .mbDeviceReset _ | .mbRaiseAntirollback _ _ | .mbCapacitySave _ _
  | .mbCapacityRestore _ _ | .mbUnknownCommand _ _ | .pcieConventionalReset _ | .spdmGetVersion _
  | .spdmGetCapabilities _ | .spdmNegotiateAlgorithms _ | .spdmGetDigests _ | .spdmGetCertificate _
  | .spdmChallenge _ _ | .spdmGetMeasurements _ _ | .spdmUnsupportedRequest _ _ | .writePerformed _
  | .softError _ | .functionReady _ | .hostPortTrained _ _ | .linkFlitError _ _ | .scoreHalving
  | .flashRecordWrite | .msixNotify | .fwTrialStart | .fwHeartbeat | .fwHeartbeatTimeout | .fwCommit
  | .fwAbandon | .capacitySaveComplete | .bringUp | .powerLoss => none

/-! ### The bytes of code -/

/-- The words of an instruction whose bits are `w`, first word in the low bits. -/
def tableWords (n w : Nat) : List (BitVec 32) := (List.range n).map fun i => BitVec.ofNat 32 (w / 2 ^ (32 * i))

/-- The instruction the decoder reads from bits numbered as spec/opcode_table.json numbers them: bit 0 is the
least significant bit of the first word, later words count on from it; 48 bits are a vector word. -/
def decodeTableWord (nbits w : Nat) : Option Instr :=
  let r := if nbits == 48 then decodeVector (BitVec.ofNat 48 w) else decode (tableWords 6 (w % 2 ^ nbits))
  match r with
  | .ok i => some i
  | .error _ => none

end Sys2Proof
end

