-- ==== Sys2Proof/Machine/Versions.lean ====
section
/-! DEFINITION. Versioned regions: slot transitions (R344 to R346), the instructions VOPEN to VQUERY (R148 to R153),
bindings, lagging readers and the completion of a token barrier (R27, R347, R348), and TREC (R154). -/

namespace Sys2Proof.Machine

/-! ### Readers (R345, R348) -/

/-- Change the reader count of a slot; a retiring slot whose count reaches 0 becomes free. -/
def State.slotCountBy (s : State) (g : Region) (i : Nat) (up : Bool) : State :=
  let n := if up then s.slotCount g i + 1 else s.slotCount g i - 1
  if n = 0 && s.slotState g i = 4 then s.slotPut g i 0 0#32 0 else s.slotPut g i n (s.slotTag g i) (s.slotState g i)

/-- Change the count of every slot of a context that is tagged v: in every region its live slot, or with `any` a
retiring one too. -/
def State.countBy (s : State) (ctx : BitVec 6) (v : BitVec 32) (up any : Bool) : State :=
  (s.regions ctx).foldl (fun t g =>
    match t.findSlot g fun st tag _ => tag == v && (st == 3 || (any && st == 4)) with
    | some i => t.slotCountBy g i up
    | none => t) s

/-- Whether some region of a context has a live slot tagged v. -/
def State.hasLive (s : State) (ctx : BitVec 6) (v : BitVec 32) : Bool :=
  (s.regions ctx).any fun g => (s.findSlot g fun st tag _ => st == 3 && tag == v).isSome

/-- The binding a resume of a launch would start from (R27). -/
def Launch.heldBinding (l : Launch) : Option (BitVec 32) :=
  match l.snap with
  | some n => n.binding
  | none => l.startBinding

/-- Whether a launch still reads version v when the partition leaves it: it holds it, or would resume with it. -/
def Launch.reads (l : Launch) (v : BitVec 32) : Bool :=
  l.heldBinding == some v || l.copies.any fun c => c.role != .third && c.binding == some v

/-- Launches of a partition that have been placed and have not reached Done. -/
def State.readers (s : State) (p : Nat) : List Launch := s.launches.filter fun l => l.part.toNat == p && l.state != .done

/-- Every reader of v takes an extra count of it. -/
def State.addLag (s : State) (p : Nat) (ctx : BitVec 6) (v : BitVec 32) : State :=
  (s.readers p).foldl (fun t l =>
    if l.reads v && !l.lag.contains v then
      (t.countBy ctx v true true).modLaunch l.lid fun m => { m with lag := m.lag ++ [v] }
    else t) s

/-- The extra counts of v end: it is the partition's binding again. -/
def State.dropLag (s : State) (p : Nat) (ctx : BitVec 6) (v : BitVec 32) : State :=
  (s.readers p).foldl (fun t l =>
    if l.lag.contains v then
      (t.countBy ctx v false true).modLaunch l.lid fun m => { m with lag := m.lag.filter fun x => x != v }
    else t) s

/-- The extra counts a launch holds of versions it has left end: at a checkpoint those other than its current
binding, at its end all. -/
def State.endLag (s : State) (lid : Nat) (all : Bool) : State :=
  match s.launch? lid with
  | none => s
  | some l =>
      let cur := (l.copies.head?.map fun c => c.binding).getD none
      let gone := l.lag.filter fun v => all || some v != cur
      let s1 := gone.foldl (fun t v => t.countBy l.ctx v false true) s
      s1.modLaunch lid fun m => { m with lag := m.lag.filter fun v => !gone.contains v }

/-! ### Token barrier (R348) -/

/-- The owning launch of a partition's token barrier. -/
def State.tbOwner (s : State) (p : Nat) : Option Launch :=
  let q := BitVec.ofNat 12 (s.sysF (pbOff p + 8) 16 12)
  (s.launches.filter fun l => l.queue == q && l.state != .done).foldl (fun (best : Option Launch) l =>
    match best with
    | none => some l
    | some b => if l.slot < b.slot then some l else some b) none

/-- The partitions whose token barrier is barrier `bar` of a core. -/
def State.tokenParts (s : State) (k : CoreRef) (bar : Nat) : List Nat :=
  (List.range 16).filter fun p =>
    k.rank == 0 && s.sysF (pbOff p + 8) 7 1 == 1 && s.sysF (pbOff p + 8) 0 7 == bar && ((s.tbOwner p).map fun o => o.lid) == some k.lid

/-- Whether barrier `bar` of a core is the token barrier of a partition. -/
def State.isTokenBarrier (s : State) (k : CoreRef) (bar : Nat) : Bool := !(s.tokenParts k bar).isEmpty

/-- `TokenBarrierComplete` of a partition: a pending request takes effect; an error when no live slot has its version. -/
def State.tokenBarrierComplete (s : State) (p : Nat) (ctx : BitVec 6) : Except State State :=
  let b := pbOff p
  if s.sysF b 33 1 = 0 then .ok s
  else
    (let s1 := s.sysSetF b 33 1 0
     let want := s1.sysF b 32 1 == 1
     let v := BitVec.ofNat 32 (s1.sysF b 0 32)
     if want && !s1.hasLive ctx v then .error s1
     else
       (let s2 := match s1.pbBinding p with
          | some o => (s1.addLag p ctx o).countBy ctx o false true
          | none => s1
        let s3 := if want then (s2.countBy ctx v true false).dropLag p ctx v else s2
        .ok (s3.sysPut (b + 16) (bindingWord (if want then some v else none)))))

/-- `TokenBarrierComplete` of each of some partitions, in rising order. -/
def State.tokenPartsComplete (s : State) : List Nat → Except State State
  | [] => .ok s
  | p :: t =>
      match s.tokenBarrierComplete p (s.ptCtx p) with
      | .ok s' => s'.tokenPartsComplete t
      | .error s' => .error s'

/-! ### Operands (R148) -/

/-- The operand bits that must be zero. -/
def checkVerBits (a b : Word) : Act Unit := raiseIf (fieldNat a 12 52 != 0 || fieldNat b 33 31 != 0) (Trap.mk' 0x08)

/-- The region an instruction names, as its home finds it, or Version. -/
def regionOf (l : Launch) (a : Word) : Act Region := do
  let s ← get
  match s.region? l.ctx (fieldNat a 0 12) with
  | some g => do
      holdIf (!s.dpaReady g.at')
      raiseIf (s.dram.badIn g.at' 80) { Trap.mk' 0x10 with durable := true }
      pure g
  | none => raiseC 0x08

/-- The version an instruction names. -/
def verOf (b : Word) : BitVec 32 := b.setWidth 32

/-! ### The effects at the home -/

/-- VOPEN (R149). -/
def openSlot (ctx : BitVec 6) (g : Region) (v : BitVec 32) : Act Word := do
  let s ← get
  let tags := (List.range g.slots).filter fun i =>
    (s.slotState g i == 3 || s.slotState g i == 4) && decide (v.toNat ≤ (s.slotTag g i).toNat)
  raiseIf ((s.findSlot g fun st _ _ => st == 1 || st == 2).isSome || !tags.isEmpty) (Trap.mk' 0x08)
  match s.findSlot g fun st _ _ => st == 0 with
  | none => raiseC 0x08
  | some i => do
      let n := s.openings + 1
      let keep := s.opens.filter fun o => !(o.1 == ctx && o.2.1 == g.id && o.2.2.1 == i)
      set { s.slotPut g i 0 v 1 with openings := n, opens := keep ++ [(ctx, g.id, i, n)] }
      pure (BitVec.ofNat 64 i)

/-- Whether lines of a record of a slot are on their way to another node (R150, R320). -/
def State.slotInFlight (s : State) (ctx : BitVec 6) (g : Region) (i : Nat) : Bool :=
  s.link.reqs.any fun r => match r.slotOf with
    | some (c, x) => c == ctx && x.region == g.id && x.slot == i
    | none => false

/-- VPUB (R150, R345): once every line of the slot's records has been performed the slot is tested; a torn one is open again, and the
fault is raised. A live slot holds a count for each lagging reader of its version (R348). -/
def publishSlot (ctx : BitVec 6) (g : Region) (v : BitVec 32) : Act Unit := do
  let s ← get
  match s.findSlot g fun st tag _ => (st == 1 || st == 2) && tag == v with
  | none => raiseC 0x08
  | some i =>
      holdIf (s.slotInFlight ctx g i)
      if s.slotState g i = 2 then do
        set (s.slotPut g i (s.slotCount g i) v 1)
        raiseC 0x1C
      else set (s.slotPut g i (s.slotCount g i + (s.launches.filter fun l => l.ctx == ctx && l.lag.contains v).length) v 3)

/-- VBIND (R151): the request of the partition. -/
def requestBinding (l : Launch) (b : Word) : Act Unit := do
  let s ← get
  raiseIf (bitAt b 32 && !s.hasLive l.ctx (verOf b)) (Trap.mk' 0x08)
  set (s.sysPut (pbOff l.part.toNat) (BitVec.ofNat 64 (2 ^ 33 + fieldNat b 0 33)))

/-- VRETIRE (R152, R345). -/
def retireSlot (g : Region) (v : BitVec 32) : Act Unit := do
  let s ← get
  match s.findSlot g fun st tag _ => st == 3 && tag == v with
  | none => raiseC 0x08
  | some i =>
      if s.slotCount g i = 0 then set (s.slotPut g i 0 0#32 0)
      else set (s.slotPut g i (s.slotCount g i) v 4)

/-- VQUERY (R153). A free slot is tagged by no version. -/
def querySlot (g : Region) (v : BitVec 32) : Act Word := do
  let s ← get
  match s.findSlot g fun st tag _ => st != 0 && tag == v with
  | none => pure 0xF#64
  | some i => pure (BitVec.ofNat 64 (s.slotCount g i * 2 ^ 16 + s.slotState g i * 2 ^ 4 + i))

/-! ### Instructions -/

/-- The register number of an SR `rb` operand's value in an operation descriptor: the operand itself (R365). -/
def opOf (op : Nat) (a b : Word) : OpDesc := { op := op, w1 := a, w2 := b, w3 := 0#64 }

/-- VOPEN (R149). -/
def execVopen (d a : BitVec 6) (b : Src) (g : BitVec 4) (s : State) : Host.Outcome State Fault Refusal :=
  scalar g (srLen b) s fun r => do
    let (k, l, _, _) ← theCore
    checkVerBits (r.get a) (srB r b)
    let (x, _, _) ← commitPoint k (opOf 10 (r.get a) (srB r b)) (do
      let rg ← regionOf l (r.get a)
      let i ← openSlot l.ctx rg (verOf (srB r b))
      pure (i, 0#64, []))
    setX d x
    pure .adv

/-- VPUB (R150). -/
def execVpub (a : BitVec 6) (b : Src) (g : BitVec 4) (s : State) : Host.Outcome State Fault Refusal :=
  scalar g (srLen b) s fun r => do
    let (k, l, _, _) ← theCore
    checkVerBits (r.get a) (srB r b)
    let _ ← commitPoint k (opOf 11 (r.get a) (srB r b)) (do
      let rg ← regionOf l (r.get a)
      publishSlot l.ctx rg (verOf (srB r b))
      pure (0#64, 0#64, []))
    pure .adv

/-- VBIND (R151). -/
def execVbind (b : Src) (g : BitVec 4) (s : State) : Host.Outcome State Fault Refusal :=
  scalar g (srLen b) s fun r => do
    let (k, l, _, _) ← theCore
    raiseIf (fieldNat (srB r b) 33 31 != 0 || (!bitAt (srB r b) 32 && fieldNat (srB r b) 0 32 != 0)) (Trap.mk' 0x08)
    let _ ← commitPoint k (opOf 12 0#64 (srB r b)) (do
      requestBinding l (srB r b)
      pure (0#64, 0#64, []))
    pure .adv

/-- VRETIRE (R152). -/
def execVretire (a : BitVec 6) (b : Src) (g : BitVec 4) (s : State) : Host.Outcome State Fault Refusal :=
  scalar g (srLen b) s fun r => do
    let (k, l, _, _) ← theCore
    checkVerBits (r.get a) (srB r b)
    let _ ← commitPoint k (opOf 13 (r.get a) (srB r b)) (do
      let rg ← regionOf l (r.get a)
      retireSlot rg (verOf (srB r b))
      pure (0#64, 0#64, []))
    pure .adv

/-- VQUERY (R153). -/
def execVquery (d a : BitVec 6) (b : Src) (g : BitVec 4) (s : State) : Host.Outcome State Fault Refusal :=
  scalar g (srLen b) s fun r => do
    let (k, l, _, _) ← theCore
    checkVerBits (r.get a) (srB r b)
    let (x, _, _) ← commitPoint k (opOf 14 (r.get a) (srB r b)) (do
      let rg ← regionOf l (r.get a)
      let v ← querySlot rg (verOf (srB r b))
      pure (v, 0#64, []))
    setX d x
    pure .adv

/-- The 16 bytes of a token record (Table 04-5). -/
def recordBytes (l : Launch) (cp : Copy) (x : Word) : List Byte :=
  natLe 8 x.toNat ++ natLe 8 (l.part.toNat * 2 ^ 40 + (bindingWord cp.binding).toNat)

/-- TREC (R154): a held store by a record access; a target outside VIRT is misaligned or denied, whatever else is wrong with it. -/
def execTrec (a : BitVec 6) (b : Src) (g : BitVec 4) (s : State) : Host.Outcome State Fault Refusal :=
  scalar g (srLen b) s fun r => do
    let (k, l, cp, _) ← theCore
    raiseIf (ptrSpace (r.get a) != 0) (Trap.mk' (if fieldNat (r.get a) 0 4 = 0 then 0x05 else 0x03) (r.get a))
    let x ← checkPtr (ctlAcc k) (r.get a) 16 16 .write
    ctlStore k x (recordBytes l cp (srB r b)) .record
    pure .adv

/-! ### Commands of CX.vrop (R344) -/

/-- The span of a region: view and slots. -/
def Region.stop (g : Region) : Nat := g.base + (g.slots + 1) * g.size

/-- Whether a read of host memory is completed by the host, freely, and the state after the choice. -/
def State.hostAnswers (s : State) (dpa : Nat) : Bool × State :=
  if dpa / 2 ^ 44 = 2 || dpa / 2 ^ 44 = 3 then (Config.freeBool s.freeCtr, { s with freeCtr := s.freeCtr + 1 }) else (true, s)

/-- Create a region from the declaration at a DPA: the status and the state after. -/
def State.vrCreateAt (s : State) (ctx : BitVec 6) (dpa : Nat) : Nat × State :=
  if dpa % 32 ≠ 0 || !dpaOk dpa || !dpaOk (dpa + 31) then (0x04, s)
  else if s.dram.badIn dpa 32 then (0x10, s)
  else if !(s.hostAnswers dpa).1 then (0x10, (s.hostAnswers dpa).2)
  else
    (let s := (s.hostAnswers dpa).2
     let w0 := s.dramWord dpa
     let w1 := s.dramWord (dpa + 8)
     let g : Region := { id := fieldNat w0 0 12, size := fieldNat w0 16 32 * 65536, slots := fieldNat w0 12 3,
                         base := w1.toNat, at' := s.vrAt ctx (fieldNat w0 0 12) }
     if fieldNat w0 48 16 ≠ 0 || bitAt w0 15 || g.id = 0 || g.slots < 2 || 4 < g.slots || g.size = 0 ||
         g.base % 65536 ≠ 0 || s.dramWord (dpa + 16) ≠ 0#64 || s.dramWord (dpa + 24) ≠ 0#64 then (0x01, s)
     else if (s.region? ctx g.id).isSome || decide (2 ^ 52 < g.stop) ||
         (s.regions ctx).any (fun h => decide (h.base < g.stop) && decide (g.base < h.stop)) then (0x08, s)
     else
       (0, (s.dramPut g.at' (List.replicate 128 0#8)).dramPut g.at'
         (natLe 8 (w0.toNat + 2 ^ 15) ++ natLe 8 w1.toNat)))

/-- Destroy a region: every slot of its descriptor is free with count 0, live or not. -/
def State.vrDestroyAt (s : State) (ctx : BitVec 6) (arg : Nat) : Nat × State :=
  if 4096 ≤ arg then (0x01, s)
  else
    (let g : Region := { id := arg, size := 0, slots := 4, base := 0, at' := s.vrAt ctx arg }
     if (List.range 4).all fun i => s.slotState g i == 0 && s.slotCount g i == 0 then
       (0, s.dramPut g.at' (List.replicate 128 0#8))
     else (0x08, s))

/-- Abandon the open or torn slot of a region: its opening no longer stands. -/
def State.vrAbandonAt (s : State) (ctx : BitVec 6) (arg : Nat) : Nat × State :=
  if 4096 ≤ arg then (0x01, s)
  else match s.region? ctx arg with
    | none => (0x08, s)
    | some g =>
        match s.findSlot g fun st _ _ => st == 1 || st == 2 with
        | none => (0x08, s)
        | some i =>
            let s1 := s.slotPut g i 0 0#32 0
            (0, { s1 with opens := s1.opens.filter fun o => !(o.1 == ctx && o.2.1 == g.id && o.2.2.1 == i) })

/-- Perform a command of CX.vrop and write `CX.vrst`. -/
def State.vrCommand (s : State) (ctx : BitVec 6) (op arg : Nat) : State :=
  let (st, s1) := match op with
    | 0 => s.vrCreateAt ctx arg
    | 1 => s.vrDestroyAt ctx arg
    | _ => s.vrAbandonAt ctx arg
  s1.sysSetF (cxOff ctx + 56) 0 8 st

end Sys2Proof.Machine
end

