-- ==== Sys2Proof/Machine/Sync.lean ====
section
/-! DEFINITION. Tokens (R31, R133 to R138), Calico terms (R32, R33), barriers and arrivals (R34, R35, R220), and what
ends a WFE (R166). -/

namespace Sys2Proof.Machine

/-! ### Waking (R166) -/

/-- A core in WFE goes on. -/
def Core.wake (c : Core) : Core :=
  match c.block with
  | .wfe _ next => { c with block := .none, regs := c.regs.setPc next }
  | .none => c
  | .token _ _ _ => c
  | .ckpt => c

/-- Every core of a copy goes on (a chunk-map bit of a grant rose). -/
def Copy.wakeAll (c : Copy) : Copy := { c with cores := c.cores.map Core.wake }

/-! ### Tokens -/

/-- A token of a core. -/
def Core.tok (c : Core) (e : BitVec 6) : Token := c.sync.tokens[e.toNat]

/-- Change a token; a change of its count ends a WFE. -/
def Core.modTok (c : Core) (e : BitVec 6) (f : Token → Token) : Core :=
  let t := c.tok e
  let c' := { c with sync := { c.sync with tokens := c.sync.tokens.set e.toNat (f t) } }
  if (f t).count = t.count then c' else c'.wake

/-- The wait credit P + B − W (R138). -/
def Token.credit (t : Token) : Int := t.posts + t.base - t.waits

/-- Push a wait of `n`, by a command or the control core, or nothing when W would exceed P + B (R31). -/
def Token.pushWait (t : Token) (n : Nat) (cmd : Option Nat) : Option Token :=
  if t.credit < n then none
  else some { t with waits := t.waits + n, queue := t.queue ++ [{ cmd := cmd, amount := n }] }

/-- Push a post of `n`, or nothing when P + B − W would exceed 65,535. -/
def Token.pushPost (t : Token) (n : Nat) : Option Token :=
  if 65535 < t.credit + n then none else some { t with posts := t.posts + n }

/-- An underflow of token e (R137): `sr.tokerr` is set. -/
def Policy.underflow (p : Policy) (e : BitVec 6) : Policy :=
  { p with sticky := true, tok := if p.sticky then p.tok else e }

/-! ### Calico terms (R33) -/

/-- Sources of a term: one when the second is 63 or equals the first. -/
def termSources (w : Word) : List (BitVec 6) :=
  let a := w.extractLsb' 0 6
  let b := w.extractLsb' 6 6
  if b = 63#6 || b = a then [a] else [a, b]

/-- Threshold of a term. -/
def termThr (w : Word) : Nat := fieldNat w 12 10

/-- Whether a term can fire on the counts as they stand. -/
def Core.canFire (c : Core) (i : Nat) : Bool :=
  let w := c.sync.calico.toList.getD i 0#64
  fieldNat w 36 2 != 0 && (termSources w).all fun e => termThr w ≤ (c.tok e).count

/-- The terms that fire on the counts as they stand: in increasing number, unless a lower-numbered firing term shares a source. -/
def Core.firing (c : Core) : List Nat :=
  ((List.range 16).foldl (fun (acc : List Nat × List (BitVec 6)) i =>
    let src := termSources (c.sync.calico.toList.getD i 0#64)
    if c.canFire i && !(src.any fun e => acc.2.contains e) then (acc.1 ++ [i], acc.2 ++ src) else acc) ([], [])).1

/-- A post at a token by a unit or a term. DESIGN CHOICE (log entry 75): an engine's post that would carry the count beyond 65,535 is
lost, as R133 says of a Calico post. -/
def Core.post (c : Core) (e : BitVec 6) : Core :=
  if (c.tok e).count < 65535 then c.modTok e fun t => { t with count := t.count + 1 } else c

/-- An arrival made, to be applied in the order of R34. -/
def Core.queueArrival (c : Core) (a : Arrival) : Core :=
  { c with sync := { c.sync with arrivals := c.sync.arrivals ++ [a] } }

/-- A term due in this cycle fires: it subtracts its threshold from each source and arrives once, or posts once at the end of the
cycle (R133); a one-shot term is disabled. -/
def Core.fire (c : Core) (i : Nat) : Core :=
  let w := c.sync.calico.toList.getD i 0#64
  let c1 := (termSources w).foldl (fun d e => d.modTok e fun t =>
    { t with count := t.count - termThr w, left := t.left - termThr w }) c
  let cal := Vector.ofFn (n := 16) fun j => if j.val = i && fieldNat w 36 2 = 1 then putField c1.sync.calico[j.val] 36 2 0 else c1.sync.calico[j.val]
  let c2 := { c1 with sync := { c1.sync with calico := cal, due := c1.sync.due.filter fun j => j != i } }
  if bitAt w 35 then c2.queueArrival { bar := w.extractLsb' 28 7, src := .calico i, after := [] }
  else { c2 with sync := { c2.sync with posts := c2.sync.posts ++ [w.extractLsb' 22 6] } }

/-- Step 1 of R133: the terms due fire, in term order. -/
def Core.fireDue (c : Core) : Core := c.sync.due.foldl Core.fire c

/-- What becomes of a wait that is satisfied: its command has one wait less, and reads nothing from before it (Table 08-3); or the
control core goes on, an underflow's trap following (R136, R137). -/
def Core.satisfied (c : Core) (e : BitVec 6) (w : TokWait) : Core :=
  match w.cmd with
  | some id => c.modCmd id fun m => { m with waits := m.waits.erase e, early := [] }
  | none =>
      match c.block with
      | .token _ next trapAfter => { c with block := .none, regs := c.regs.setPc next, under := c.under || trapAfter }
      | .none => c
      | .wfe _ _ => c
      | .ckpt => c

/-- Let the oldest wait of a token be satisfied, when what remains of the count at the start of the cycle suffices. -/
def Core.satisfyOldest (c : Core) (e : BitVec 6) : Option Core :=
  let t := c.tok e
  match t.queue with
  | [] => none
  | w :: q =>
      if t.left < w.amount then none
      else some ((c.modTok e fun t => { t with count := t.count - w.amount, left := t.left - w.amount, queue := q }).satisfied e w)

/-- Step 2 of R133 for one token: its waits, oldest first, as far as they can be satisfied. -/
def Core.satisfyToken (e : BitVec 6) : Nat → Core → Core
  | 0, c => c
  | n + 1, c => match c.satisfyOldest e with
      | some d => Core.satisfyToken e n d
      | none => c

/-- Tokens on which waits are pushed. -/
def Core.waited (c : Core) : List (BitVec 6) :=
  (c.sync.tokens.toList.zipIdx.filter fun p => !p.1.queue.isEmpty).map fun p => BitVec.ofNat 6 p.2

/-- Steps 1 and 2 of R133, which come before the additions of step 3. -/
def Core.tokenCycle (c : Core) : Core :=
  let d := c.fireDue
  d.waited.foldl (fun x e => Core.satisfyToken e (x.tok e).queue.length x) d

/-- A cycle ends with its Calico posts, in term order; the next starts: the terms that fire in it are decided (R33). -/
def Core.nextCycle (c : Core) : Core :=
  let d := c.tokenCycle
  let p := d.sync.posts.foldl Core.post { d with sync := { d.sync with posts := [] } }
  { p with sync := { p.sync with tokens := p.sync.tokens.map fun t => { t with left := t.count }, due := p.firing } }

/-- Whether nothing that belongs to tokens can change before an instruction, a command or an arrival does something. -/
def Core.tokensRest (c : Core) : Bool :=
  c.sync.due.isEmpty && c.sync.posts.isEmpty && c.firing.isEmpty &&
    c.sync.tokens.all fun t => t.left == t.count && (match t.queue with
      | [] => true
      | w :: _ => decide (t.count < w.amount))

/-- At most `n` cycles of a core's tokens. -/
def Core.cycles : Nat → Core → Core
  | 0, c => c
  | n + 1, c => if c.tokensRest then c else Core.cycles n c.nextCycle

/-- A token wait that is satisfied, after the terms due. -/
def satisfyWait (k : CoreRef) (e : BitVec 6) : Act Unit := do
  let (_, _, c) ← ctxOf k
  let c' ← need (c.fireDue.satisfyOldest e)
  onCore k fun _ => c'

/-! ### Barriers -/

/-- A barrier of a core. -/
def Core.bar (c : Core) (b : BitVec 7) : Barrier := c.sync.barriers[b.toNat]
/-- Change a barrier. -/
def Core.modBar (c : Core) (b : BitVec 7) (f : Barrier → Barrier) : Core :=
  { c with sync := { c.sync with barriers := c.sync.barriers.set b.toNat (f (c.bar b)) } }

/-- Whether an arrival would complete the generation. -/
def Barrier.completes (b : Barrier) : Bool := b.arr + 1#16 == b.exp
/-- A barrier after one arrival (R34). -/
def Barrier.arrive (b : Barrier) : Barrier :=
  if b.completes then { b with arr := 0#16, gen := b.gen + 1#16 } else { b with arr := b.arr + 1#16 }
/-- Whether the generation has passed a value (R143). -/
def Barrier.passed (b : Barrier) (x : BitVec 16) : Bool := 1 ≤ (b.gen - x).toNat && (b.gen - x).toNat ≤ 32767

/-- The segment whose closing BARV an arrival is counts in a generation (R361). -/
def Copy.countSeg (cp : Copy) (owner : Nat) (bar : BitVec 7) (gen : BitVec 16) (src : ArrivalSrc) (self : Nat) : Copy :=
  let mark (rank seg : Nat) : Copy := { cp with cores := cp.cores.map fun c =>
    if c.rank = rank then
      (let cl := c.muslin.closed.map fun g => if g.id = seg then { g with counted := some (owner, bar, gen) } else g
       { c with muslin := { c.muslin with closed := cl } })
    else c }
  match src with
  | .own seg => mark self seg
  | .other rank (some seg) => mark rank seg
  | .other _ none => cp
  | .calico _ => cp
  | .engine _ => cp

/-- The core whose act an arrival is: its sender takes the fault of an arrival at an exited core (R167). -/
def ArrivalSrc.sender (a : ArrivalSrc) (k : CoreRef) : CoreRef :=
  match a with
  | .other rank _ => atRank k rank
  | .own _ => k
  | .calico _ => k
  | .engine _ => k

/-- Apply one arrival at a barrier of a core; a completed generation of the partition's token barrier is noted
(R349). -/
def applyArrival (k : CoreRef) (a : Arrival) : Act Unit := do
  let s ← get
  let (_, _, c) ← ctxOf k
  raiseIf ((c.bar a.bar).exp == 0#16 || c.exited) (Trap.mk' 0x0B)
  let g := (c.bar a.bar).gen
  let done := (c.bar a.bar).completes
  modify fun s => s.modCopy k fun cp => cp.countSeg k.rank a.bar g a.src k.rank
  onCore k fun c => c.modBar a.bar Barrier.arrive
  if done then do
    onCore k Core.wake
    if s.isTokenBarrier k a.bar.toNat then
      onCore k fun c => { c with sync := { c.sync with noted := c.sync.noted ++ [(a.bar, g)] } }

/-- Rank of an arrival in the order of R34. -/
def ArrivalSrc.key (a : ArrivalSrc) : Nat :=
  match a with
  | .own _ => 0
  | .calico i => 1 + i
  | .other rank _ => 100 + rank
  | .engine q => 100000 + q

/-- The arrival R34 applies first. -/
def pickArrival : List Arrival → Option Arrival
  | [] => none
  | a :: t =>
      match pickArrival t with
      | none => some a
      | some b => if a.src.key ≤ b.src.key then some a else some b

/-! ### Segments (R361) -/

/-- A BARV closes the open segment; its number is returned. -/
def Core.closeSeg (c : Core) : Nat × Core :=
  (c.muslin.seg,
   { c with muslin := { c.muslin with
      closed := c.muslin.closed ++ [{ id := c.muslin.seg, fold := c.muslin.fold, barv := c.muslin.barvs, counted := none }],
      seg := c.muslin.seg + 1, fold := 0#64, barvs := c.muslin.barvs + 1 } })

/-! ### The token barrier's commit point (R349, R416) -/

/-- Whether the copy replays and its core's next own entry is the completion of the token barrier `bar`; `none` when it does
not replay. -/
def nextIsBinding (l : Launch) (cp : Copy) (rank : Nat) (bar : BitVec 7) : Option Bool :=
  if cp.replay < l.log.length then
    ((l.log.drop cp.replay).find? fun e => e.op != 0 && e.core == rank).map fun e => e.op == 8 && e.words == [bar.setWidth 32]
  else none

/-- One completion of the token barrier `bar` as a commit point of its owner. -/
def bindingCommit (k : CoreRef) (bar : BitVec 7) : Act Unit := do
  let _ ← commitPoint k { op := 8, w1 := 0#64, w2 := 0#64, w3 := 0#64 } (do
    let s ← get
    match s.tokenPartsComplete (s.tokenParts k bar.toNat) with
    | .ok s' => do
        set s'
        pure (0#64, 0#64, [bar.setWidth 32])
    | .error s' => do
        set s'
        raiseC 0x08)

/-- The completions noted for the token barrier that take effect now, one per turn, in order of generation: `upto`
is the generation a BWAIT returned on. The instruction is tried again until none is left. -/
def takeNoted (k : CoreRef) (bar : BitVec 7) (upto : Option (BitVec 16)) : Act Unit := do
  let s ← get
  let (l, cp, c) ← ctxOf k
  let due (g : BitVec 7 × BitVec 16) : Bool := g.1 == bar && (match upto with
    | some x => decide ((x - g.2).toNat < 32768)
    | none => true)
  match c.sync.noted.find? due with
  | none => pure ()
  | some g =>
      if (nextIsBinding l cp c.rank bar).getD (s.isTokenBarrier k bar.toNat) then do
        bindingCommit k bar
        onCore k fun c => { c with sync := { c.sync with noted := c.sync.noted.erase g } }
        hold
      else pure ()

end Sys2Proof.Machine
end

