-- ==== Sys2Proof/Machine/TokenInstr.lean ====
section
/-! DEFINITION. Token and Calico instructions (R132 to R139). -/

namespace Sys2Proof.Machine

/-- An operand as a signed number. -/
def signedOp (r : Regs) (b : Src) : Int := (srB r b).toInt

/-- Whether a command still stands between a TSET and its token (R134): it waits on e and has not started, or posts
e. -/
def Cmd.blocksTset (m : Cmd) (e : BitVec 6) : Bool :=
  (m.state == .queued && m.waitsOn.contains e) || (m.post == e && e != 63#6)

/-- TSET (R134). -/
def execTset (e : BitVec 6) (b : Src) (g : BitVec 4) (s : State) : Host.Outcome State Fault Refusal :=
  scalar g (srLen b) s fun r => do
    let (k, _, _, c) ← theCore
    let n := signedOp r b
    raiseIf (decide (65535 < n)) (Trap.mk' 0x09)
    holdIf (c.eng.cmds.any fun m => m.blocksTset e)
    onCore k fun c => c.tokenCycle.modTok e fun _ => { Token.zero with count := n.toNat, base := n.toNat }
    if n < 0 then do
      onCore k fun c => { c with policy := c.policy.underflow e }
      raiseIf c.policy.trap (Trap.mk' 0x0A)
    pure .adv

/-- TPOST (R135): adds, or takes at most the wait credit as a wait pushed at its issue. DESIGN CHOICE (log entry 75): a count that
Calico posts have raised so far that the sum passes 65,535 stays there. -/
def execTpost (e : BitVec 6) (b : Src) (g : BitVec 4) (s : State) : Host.Outcome State Fault Refusal :=
  scalar g (srLen b) s fun r => do
    let (k, _, _, c) ← theCore
    let n := signedOp r b
    raiseIf (decide (n < -65535) || decide (65535 < n)) (Trap.mk' 0x09)
    let t := c.tok e
    if 0 ≤ n then
      match t.pushPost n.toNat with
      | none => raiseC 0x09
      | some t' => do
          onCore k fun c => c.tokenCycle.modTok e fun t => { t with count := min 65535 (t.count + n.toNat), posts := t'.posts }
          pure .adv
    else do
      let take := min (-n) (max t.credit 0)
      let under := decide (take < -n)
      onCore k fun c => { c with policy := if under then c.policy.underflow e else c.policy }
      if take = 0 then do
        raiseIf (under && c.policy.trap) (Trap.mk' 0x0A)
        pure .adv
      else do
        let next := r.pc + BitVec.ofNat 64 (srLen b)
        onCore k fun c => { (c.modTok e fun t => { t with base := t.base - take,
                                                          queue := t.queue ++ [{ cmd := none, amount := take.toNat }] }) with
                            block := .token e next (under && c.policy.trap) }
        pure (.goto r.pc)

/-- TWAIT (R136): pushes a wait and blocks the core until R133 satisfies it. -/
def execTwait (e : BitVec 6) (b : Src) (g : BitVec 4) (s : State) : Host.Outcome State Fault Refusal :=
  scalar g (srLen b) s fun r => do
    let (k, _, _, c) ← theCore
    let n := signedOp r b
    raiseIf (decide (n < 0) || decide (65535 < n)) (Trap.mk' 0x09)
    if n = 0 then pure .adv
    else
      match (c.tok e).pushWait n.toNat none with
      | none => raiseC 0x09
      | some t => do
          onCore k fun c => { c.modTok e (fun _ => t) with block := .token e (r.pc + BitVec.ofNat 64 (srLen b)) false }
          pure (.goto r.pc)

/-- TTEST (R138): the wait credit. -/
def execTtest (d e : BitVec 6) (g : BitVec 4) (s : State) : Host.Outcome State Fault Refusal :=
  scalar g 4 s fun _ => do
    let (_, _, _, c) ← theCore
    setX d (BitVec.ofInt 64 (c.tok e).credit)
    pure .adv

/-- Whether a term's layout is legal (R32, R139). -/
def termOk (w : Word) : Bool :=
  fieldNat w 38 26 == 0 && fieldNat w 36 2 != 3 && termThr w != 0 &&
    (if bitAt w 35 then fieldNat w 22 6 == 0 else fieldNat w 28 7 == 0)

/-- TRIG (R139): first evaluated in the next cycle. -/
def execTrig (t : BitVec 4) (b : Src) (g : BitVec 4) (s : State) : Host.Outcome State Fault Refusal :=
  scalar g (srLen b) s fun r => do
    let (k, _, _, _) ← theCore
    let w := srB r b
    raiseIf (!termOk w) (Trap.mk' 0x01)
    onCore k fun c => { c with sync := { c.sync with
      calico := c.sync.calico.set t.toNat w
      due := c.sync.due.filter fun i => i != t.toNat } }
    pure .adv

/-- TOKEN_WAIT_SATISFIED (R133): the oldest wait of a token. -/
def execTokenWaitSatisfied (k : CoreRef) (tok : BitVec 6) (s : State) : Host.Outcome State Fault Refusal :=
  .next (runStep (.core k) (satisfyWait k tok) s)

/-- CALICO_TERM_FIRE (R33): a term that is due in this cycle. -/
def execCalicoTermFire (k : CoreRef) (term : BitVec 4) (s : State) : Host.Outcome State Fault Refusal :=
  .next (match s.core? k with
    | none => s
    | some c => if c.sync.due.contains term.toNat then s.modCore k fun c => c.fire term.toNat else s)

end Sys2Proof.Machine
end

