-- ==== Sys2Proof/Machine/BarrierInstr.lean ====
section
/-! DEFINITION. Barrier instructions (R140 to R144) and outside arrivals (R35, R144). -/

namespace Sys2Proof.Machine

/-- BINIT (R141). -/
def execBinit (bar : BitVec 7) (b : Src) (g : BitVec 4) (s : State) : Host.Outcome State Fault Refusal :=
  scalar g (srLen b) s fun r => do
    let (k, _, _, c) ← theCore
    let n := (srB r b).toNat
    raiseIf (n == 0 || decide (65535 < n) || (c.bar bar).arr != 0#16) (Trap.mk' 0x0B)
    onCore k fun c => c.modBar bar fun x => { x with exp := BitVec.ofNat 16 n, arr := 0#16 }
    pure .adv

/-- A BARV's arrival at the core's own barrier: applied at once when every earlier access of the control core is performed at device
scope, else left to be applied then (Table 08-3). It is the token barrier's commit point when it completes a generation of it (R416);
that one waits. -/
def arriveOwn (k : CoreRef) (bar : BitVec 7) : Act Unit := do
  let s ← get
  let (l, cp, c) ← ctxOf k
  raiseIf ((c.bar bar).exp == 0#16) (Trap.mk' 0x0B)
  takeNoted k bar none
  let after := cp.outstanding c
  let later := !after.isEmpty || c.sync.arrivals.any fun a => a.bar == bar && a.src.key == 0
  if (c.bar bar).completes && (nextIsBinding l cp c.rank bar).getD (s.isTokenBarrier k bar.toNat) then do
    holdIf later
    bindingCommit k bar
  modify fun s => s.settleOwn (s.agentsOf k)
  let c1 ← coreNow k
  onCore k fun _ => c1.closeSeg.2
  if later then onCore k fun c => c.queueArrival { bar := bar, src := .own c1.closeSeg.1, after := after }
  else do
    applyArrival k { bar := bar, src := .own c1.closeSeg.1, after := [] }
    onCore k fun c => { c with sync := { c.sync with noted := c1.sync.noted } }

/-- BARV b (R142): closes the segment and arrives at the core's own barrier. -/
def execBarv (bar : BitVec 7) (g : BitVec 4) (s : State) : Host.Outcome State Fault Refusal :=
  scalar g 4 s fun _ => do
    let (k, _, _, _) ← theCore
    arriveOwn k bar
    pure .adv

/-- BARV b, xt (R142): at the barrier of another core of the group; the arrival waits for the control core's earlier accesses, the
instruction does not. -/
def execBarvRemote (bar : BitVec 7) (t : Src) (g : BitVec 4) (s : State) : Host.Outcome State Fault Refusal :=
  scalar g (srLen t) s fun r => do
    let (k, l, cp, c) ← theCore
    let rank := (srB r t).toNat
    raiseIf (!isRank l.packet.h l.packet.w rank) (Trap.mk' 0x0B)
    if rank = k.rank then do
      arriveOwn k bar
      pure .adv
    else do
      raiseIf (((cp.core? rank).map fun d => d.exited).getD false) (Trap.mk' 0x0B)
      modify fun s => s.settleOwn (s.agentsOf k)
      onCore k fun c => c.closeSeg.2
      onCore (atRank k rank) fun d => d.queueArrival { bar := bar, src := .other k.rank (some c.closeSeg.1), after := cp.outstanding c }
      pure .adv

/-- BARRIER_ARRIVAL (R34): the next arrival at a core's barriers is applied, of those that wait for no store. -/
def execBarrierArrival (k : CoreRef) (s : State) : Host.Outcome State Fault Refusal :=
  .next (match s.copy? k, s.core? k with
    | some cp, some c =>
        (match pickArrival (c.sync.arrivals.filter fun a => cp.performed a.after) with
        | none => s
        | some a =>
            runStep (.core (a.src.sender k))
              (do
                onCore k fun c => { c with sync := { c.sync with arrivals := c.sync.arrivals.erase a } }
                applyArrival k a) s)
    | _, _ => s)

/-- A core records that a BWAIT of its returned on a generation (R361). -/
def Core.returnedOn (c : Core) (bar : BitVec 7) (x : BitVec 16) : Core :=
  { c with muslin := { c.muslin with
      returned := if c.muslin.returned.contains (bar, x) then c.muslin.returned else c.muslin.returned ++ [(bar, x)] } }

/-- BWAIT (R143). -/
def execBwait (bar : BitVec 7) (b : Src) (g : BitVec 4) (s : State) : Host.Outcome State Fault Refusal :=
  scalar g (srLen b) s fun r => do
    let (k, _, _, c) ← theCore
    let x := (srB r b).setWidth 16
    raiseIf ((c.bar bar).exp == 0#16) (Trap.mk' 0x0B)
    holdIf (!(c.bar bar).passed x)
    takeNoted k bar (some x)
    onCore k fun c => c.returnedOn bar x
    pure .adv

/-- `n` arrivals in one step (R35). -/
def Barrier.arriveMany (b : Barrier) (n : Nat) : Barrier :=
  let e := b.exp.toNat
  { b with arr := BitVec.ofNat 16 ((b.arr.toNat + n) % e), gen := b.gen + BitVec.ofNat 16 ((b.arr.toNat + n) / e) }

/-- Generations that `n` arrivals complete. -/
def Barrier.gensBy (b : Barrier) (n : Nat) : Nat := (b.arr.toNat + n) / b.exp.toNat

/-- TokenBarrierComplete of a core's barrier once for each of `n` generations. -/
def completeMany (k : CoreRef) (bar : BitVec 7) : Nat → Act Unit
  | 0 => pure ()
  | n + 1 => do
      let s ← get
      match s.tokenPartsComplete (s.tokenParts k bar.toNat) with
      | .ok s' => do
          set s'
          completeMany k bar n
      | .error s' => do
          set s'
          raiseC 0x08

/-- A barrier's outside arrivals that have not been applied are these, in every copy. -/
def State.setExt (s : State) (lid rank : Nat) (bar : BitVec 7) (f : BitVec 16 → BitVec 16) : State :=
  s.modLaunch lid fun l => { l with copies := l.copies.map fun cp => cp.modCore rank fun c => c.modBar bar fun b => { b with ext := f b.ext } }

/-- The effect of BWAIT.X (R35, R143): outside arrivals are applied as they are received, until the generation has passed; then the
completions of a token barrier take effect that they have made, or that were noted meanwhile (R349). -/
def waitExt (k : CoreRef) (bar : BitVec 7) (x : BitVec 16) : Act (Word × Word × List (BitVec 32)) := do
  let s ← get
  let c ← coreNow k
  let n := (c.bar bar).ext
  let made := if s.isTokenBarrier k bar.toNat then
    (List.range ((c.bar bar).gensBy n.toNat)).map fun i => (bar, (c.bar bar).gen + BitVec.ofNat 16 i) else []
  let sum := (c.applied.map fun a => a.2).getD 0 + n.toNat
  modify fun s => s.setExt k.lid k.rank bar fun _ => 0#16
  modify fun s => s.modLaunch k.lid fun m => { m with barx := m.barx.filter fun e => !(e.2.1 == k.rank && e.2.2 == bar) }
  onCore k fun c =>
    let d := c.modBar bar fun y => y.arriveMany n.toNat
    { d with applied := some (bar, sum), sync := { d.sync with noted := d.sync.noted ++ made } }
  let c ← coreNow k
  holdIf (!(c.bar bar).passed x)
  completeMany k bar (c.sync.noted.filter fun g => g.1 == bar && decide ((x - g.2).toNat < 32768)).length
  pure (BitVec.ofNat 64 sum, 0#64, [])

/-- BWAIT.X (R35, R143): a commit point. Its region is closed first; it then waits in its effect. -/
def execBwaitX (bar : BitVec 7) (b : Src) (g : BitVec 4) (s : State) : Host.Outcome State Fault Refusal :=
  scalar g (srLen b) s fun r => do
    let (k, _, _, c) ← theCore
    let x := (srB r b).setWidth 16
    raiseIf ((c.bar bar).exp == 0#16) (Trap.mk' 0x0B)
    if c.commit = .idle && (c.bar bar).passed x then takeNoted k bar (some x)
    let (n, _, _) ← commitPoint k { op := 4, w1 := 0#64, w2 := srB r b, w3 := 0#64 } (waitExt k bar x)
    let c ← coreNow k
    let done := (c.applied.map fun a => a.2).getD 0
    onCore k fun c =>
      let d := (c.modBar bar fun y => y.arriveMany (n.toNat - done)).returnedOn bar x
      { d with applied := none, sync := { d.sync with noted := d.sync.noted.filter fun g => !(g.1 == bar && decide ((x - g.2).toNat < 32768)) } }
    pure .adv

/-! ### Outside arrivals (R144) -/

/-- A launch by its identity, placed and not Done. -/
def State.byIdent (s : State) (id : Word) : Option Launch := s.launches.find? fun l => l.ident == id && l.state != .done

/-- Receive an arrival from outside: whether it was kept. `from'` is the launch that sent it, when it is of this
device. The target's partition must grant the sender's master the enqueue right. -/
def State.receiveArrival (s : State) (id target : Word) (from' : Option Nat) : Bool × State :=
  let rank := fieldNat target 7 9
  let bar : BitVec 7 := target.extractLsb' 0 7
  match s.byIdent id with
  | none => (false, s)
  | some l =>
      if !isRank l.packet.h l.packet.w rank then (false, s)
      else
        (let add (b : BitVec 16) : BitVec 16 := if b = 0xFFFF#16 then b else b + 1#16
         let s1 := s.setExt l.lid rank bar add
         let s2 := s1.modLaunch l.lid fun m => { m with copies := m.copies.map fun cp => cp.modCore rank Core.wake }
         (true, s2.modLaunch l.lid fun m => { m with barx := match from' with
           | some i => m.barx ++ [(i, rank, bar)]
           | none => m.barx }))

/-- An Over-signal in a launch's completion record (R144, R279). -/
def State.overSignal (s : State) (lid : Nat) : State := s.modLaunch lid fun l => { l with ovs := true }

/-- The launch of the current agent. -/
def State.curLid (s : State) : Option Nat :=
  match s.cur with
  | .core k => some k.lid
  | .anole _ => none
  | .vec _ => none
  | .none => none

/-- BARX (R144): a commit point. -/
def execBarx (a : BitVec 6) (b : Src) (g : BitVec 4) (s : State) : Host.Outcome State Fault Refusal :=
  scalar g (srLen b) s fun r => do
    let id := r.get a
    let t := srB r b
    raiseIf (fieldNat t 32 32 != 0 || fieldNat t 16 4 != 0) (Trap.mk' 0x0B)
    let node : BitVec 12 := t.extractLsb' 20 12
    let _ ← commitAny { op := 3, w1 := id, w2 := t, w3 := 0#64 } (do
      let s ← get
      let excess : Act Unit := modify fun s => match s.curLid with
        | some i => s.overSignal i
        | none => s
      if node = s.node then do
        let master := match s.curLid with
          | some _ => 32 + s.srcPart.toNat
          | none => 44
        match s.byIdent id with
        | some l => raiseIf (!s.right 0x01245000 l.part.toNat master .enqueue) (Trap.mk' 0x05)
        | none => pure ()
        let (ok, s1) := s.receiveArrival id t s.curLid
        set s1
        if !ok then excess
      else do
        let (st, _, _) ← askRemote 8 node t (natLe 8 id.toNat)
        raiseIf (st == 0x05#8) (Trap.mk' 0x05)
        if st != 0#8 then excess
      pure (0#64, 0#64, []))
    pure .adv

/-- OUTSIDE_ARRIVAL_RECEIVE (R35, R144). -/
def execOutsideArrivalReceive (launch target : BitVec 64) (s : State) : Host.Outcome State Fault Refusal :=
  .next (s.receiveArrival launch target none).2

end Sys2Proof.Machine
end

