-- ==== Sys2Proof/Machine/Queues.lean ====
section
/-! DEFINITION. Launch queues (R271 to R274), dependence counters (R278, R279), the completion sequence of a launch
(R282, R301) and ENQ at a queue's home (R159, R272). -/

namespace Sys2Proof.Machine

/-! ### Descriptors -/

/-- Firmware-side state of a queue. -/
def State.aux (s : State) (q : BitVec 12) : QueueAux :=
  (s.queues.find? fun a => a.q == q).getD { q := q, next := s.qRead q, done := [], deficit := 0, idle := s.cc, waitSeq := none }

/-- Change it. -/
def State.modAux (s : State) (q : BitVec 12) (f : QueueAux → QueueAux) : State :=
  { s with queues := if s.queues.any fun a => a.q == q then s.queues.map fun a => if a.q == q then f a else a
                     else s.queues ++ [f (s.aux q)] }

/-- The indices of a queue have been updated: it has not been idle since now (R274). -/
def State.touchQueue (s : State) (q : BitVec 12) : State := s.modAux q fun a => { a with idle := s.cc }

/-- Slots of a queue. -/
def State.qSlots (s : State) (q : BitVec 12) : Nat := 2 ^ s.qLsize q

/-- DPA of a slot's packet, and of its completion record. -/
def State.slotAt (s : State) (q : BitVec 12) (n : Nat) : Nat := s.qRing q + 64 * (n % s.qSlots q)
def State.recordAt (s : State) (q : BitVec 12) (n : Nat) : Nat := s.qCring q + 32 * (n % s.qSlots q)

/-- The index rules broken: `QD.eidx` is set and the queue stops (R273). -/
def State.indexFault (s : State) (q : BitVec 12) : State :=
  let s1 := s.qErr q 2
  if s1.qState q = 1 || s1.qState q = 2 then s1.qSetState q 3 else s1

/-- An event Table 07-2 does not list for the queue's state: refused with `QD.eidx` set. -/
def State.notListed (s : State) (q : BitVec 12) : State := s.qErr q 2

/-- An Anole core in WFE goes on. -/
def Anole.wake (a : Anole) : Anole :=
  match a.block with
  | .wfe _ next => { a with block := .none, regs := a.regs.setPc next }
  | .none => a
  | .token _ _ _ => a
  | .ckpt => a

/-- Whether an Anole core is in WFE. -/
def Anole.waits (a : Anole) : Bool := match a.block with
  | .wfe _ _ => true
  | .none => false
  | .token _ _ _ => false
  | .ckpt => false

/-- A write-index update ends the WFE of the Anole cores that serve the queue; which cores these are is free (R166). -/
def State.wakeAnoles (s : State) : State :=
  (List.range 16).foldl (fun t i =>
    let a := BitVec.ofNat 4 i
    if t.anoles[a.toNat].waits then
      (let (b, t1) := t.freeB
       if b then t1.modAnole a Anole.wake else t1)
    else t) s

/-- Update the indices claim, write and cack under R273. -/
def State.indexUpdate (s : State) (q : BitVec 12) (claim write cack : Nat) : State :=
  let rd := s.qRead q
  if write ≤ claim && claim ≤ min rd cack + s.qSlots q && cack ≤ rd && s.qClaim q ≤ claim && s.qWrite q ≤ write && s.qCack q ≤ cack then
    (let s1 := s.sysPut (qdOff q + 16) (BitVec.ofNat 64 claim)
     let s2 := s1.sysPut (qdOff q + 24) (BitVec.ofNat 64 write)
     let s3 := (s2.sysPut (qdOff q + 56) (BitVec.ofNat 64 cack)).touchQueue q
     if s.qWrite q < write then s3.wakeAnoles else s3)
  else s.indexFault q

/-- Move bytes of device memory (R274, R407). -/
def State.moveBytes (s : State) (src dst n : Nat) : State :=
  { s with dram := s.dram.copyRange src dst n, lags := s.lags.filter fun g => !(g.dpa < dst + n && dst < g.dpa + g.old.length) }

/-- The place of a queue's ring in the capacity tier while it is parked: each queue has one of its own (R274, log entry 77). -/
def parkAt (q : BitVec 12) : Nat := 2 ^ 44 + Config.parkBase % 1520 * 2 ^ 30 + q.toNat * 0x400000

/-- A queue's ring moves, and `QD.ring` names its new place. -/
def State.moveRing (s : State) (q : BitVec 12) (dst : Nat) : State :=
  (s.moveBytes (s.qRing q) dst (64 * s.qSlots q)).sysPut (qdOff q) (BitVec.ofNat 64 dst)

/-- The firmware parks a queue: its ring moves to the capacity tier (R274). -/
def State.parkQueue (s : State) (q : BitVec 12) : State :=
  ((s.modAux q fun a => { a with ring := some (s.sysW (qdOff q)) }).moveRing q (parkAt q)).qSetState q 2

/-- A packet is published: the ring of a parked queue moves back, and the queue is active again (R274). -/
def State.published (s : State) (q : BitVec 12) : State :=
  if s.qState q = 2 then
    (match (s.aux q).ring with
     | some r => (s.moveRing q (r.toNat / 4096 * 4096)).modAux q fun a => { a with ring := none }
     | none => s).qSetState q 1
  else s

/-- Set `QD.claim` (R273). -/
def State.setClaim (s : State) (q : BitVec 12) (v : Nat) : State :=
  if s.qState q = 1 || s.qState q = 2 then s.indexUpdate q v (s.qWrite q) (s.qCack q) else s.notListed q

/-- Set `QD.write`: packets are published. -/
def State.setWrite (s : State) (q : BitVec 12) (v : Nat) : State :=
  if s.qState q = 1 || s.qState q = 2 then
    (let s1 := s.indexUpdate q (s.qClaim q) v (s.qCack q)
     if s.qWrite q < s1.qWrite q then s1.published q else s1)
  else s.notListed q

/-- Set `QD.cack`. -/
def State.setCack (s : State) (q : BitVec 12) (v : Nat) : State :=
  if s.qState q = 0 then s.notListed q else s.indexUpdate q (s.qClaim q) (s.qWrite q) v

/-- ENQ's three steps at the home, indivisible (R159, R272): the status, and the state after. -/
def State.enqueueAt (s : State) (handle : Word) (packet : List Byte) : Nat × State :=
  let qi := fieldNat handle 0 16
  let q := BitVec.ofNat 12 qi
  if fieldNat handle 60 4 ≠ 0 || fieldNat handle 32 16 ≠ 0 || 4096 ≤ qi then (0x0F, s)
  else if s.qState q = 0 || s.qState q = 3 || (s.qGen q).toNat ≠ fieldNat handle 16 16 then (0x0F, s)
  else if s.qClaim q ≠ s.qWrite q || min (s.qRead q) (s.qCack q) + s.qSlots q ≤ s.qClaim q then (0x80, s)
  else
    (let n := s.qClaim q
     let s1 := s.dramPut (s.slotAt q n) packet
     (0x00, (s1.indexUpdate q (n + 1) (n + 1) (s.qCack q)).published q))

/-! ### Dependence counters (R279) -/

/-- Signal a counter: whether the signal was an Over-signal, and the state after. -/
def State.signal (s : State) (c : BitVec 12) (gen : Nat) : Bool × State :=
  let o := dcOff c
  if s.sysF o 48 16 = gen && 0 < s.sysF o 0 16 then (false, s.sysSetF o 0 16 (s.sysF o 0 16 - 1))
  else (true, s.qErr (BitVec.ofNat 12 (s.sysF o 32 12)) 0)

/-! ### Completion (R301) -/

/-- What a completion record says beyond the slot's identity. -/
structure Outcome' where
  status : Nat
  ending : Ending
  ovs : Bool
  noprog : Bool
  unit : Nat
  aborts : Nat
  ckpts : Nat
  cc : Nat
deriving DecidableEq, Repr

/-- No deciding fault. -/
def Ending.zero (status : Nat) : Ending :=
  { status := status, src := 0, code := 0, row := 0, col := 0, gang := false, trap := 0#32 }

/-- The 32 bytes of Table 07-7. -/
def recordWords (q : BitVec 12) (gen : BitVec 16) (slot : Nat) (o : Outcome') : List Byte :=
  let e := o.ending
  natLe 8 (slot % 2 ^ 32 * 2 ^ 32 + gen.toNat * 2 ^ 16 + q.toNat) ++
  natLe 8 (o.status * 2 ^ 61 + e.src * 2 ^ 58 + e.code * 2 ^ 50 + o.ovs.toNat * 2 ^ 49 + o.noprog.toNat * 2 ^ 48 +
    e.gang.toNat * 2 ^ 47 + e.col * 2 ^ 40 + e.row * 2 ^ 32 + e.trap.toNat) ++
  natLe 8 (o.unit * 2 ^ 48 + o.aborts * 2 ^ 32 + o.ckpts % 2 ^ 32) ++ natLe 8 o.cc

/-- Perform at a host every released write of a launch (R301, R323). -/
def State.flushHost (s : State) (p : HostWrite → Bool) : State :=
  let go := s.host.writes.filter p
  go.foldl (fun t h => t.putMasked h.dpa h.mask h.data)
    { s with host := { s.host with writes := s.host.writes.filter fun h => !p h } }

/-- `QD.read` passes every slot at its front whose launch is complete (R282). -/
def advanceRead (q : BitVec 12) : Nat → State → State
  | 0, s => s
  | n + 1, s =>
      let rd := s.qRead q
      if (s.aux q).done.contains rd then
        advanceRead q n ((s.sysPut (qdOff q + 32) (BitVec.ofNat 64 (rd + 1))).modAux q fun a =>
          { a with done := a.done.filter fun x => x != rd })
      else s

/-- Steps 2 to 4 of the completion sequence for a slot: signal when the packet asks for it, write the record and
notify, free the slot, unless the queue has been created anew since. -/
def State.completeSlot (s : State) (q : BitVec 12) (gen : BitVec 16) (slot : Nat) (p : Packet) (o : Outcome') : State :=
  let sig := bitAt p.w3 63 && (o.status == 0 || p.sigk)
  let (over', s1) := if sig then s.signal (p.w3.extractLsb' 48 12) (fieldNat p.w3 32 16) else (false, s)
  let s2 := s1.dramPut (s1.recordAt q slot) (recordWords q gen slot { o with ovs := o.ovs || over' })
  let s3 := { s2 with host := { s2.host with notify := s2.host.notify ++ [q] } }
  let s4 := s3.modAux q fun a => { a with done := if gen = s.qGen q then a.done ++ [slot] else a.done, idle := s.cc }
  advanceRead q (s4.aux q).done.length s4

/-- Step 1 and what follows for a launch that has reached Done: its arrivals never awaited are Over-signals of their
senders (R144), its extra reader counts end (R348), its host writes are performed. -/
def State.completeLaunch (s : State) (l : Launch) : State :=
  let s1 := l.barx.foldl (fun t e => t.overSignal e.1) s
  let s2 := (s1.endLag l.lid true).flushHost fun h => h.lid == l.lid
  let e := l.ending.getD (Ending.zero 0)
  let ck := ((l.copy? .primary).bind fun c => c.cores.head?.map fun k => k.loop.ckpt).getD 0
  let s3 := { s2.forget l.lid (fun _ => true) with launches := s2.launches.filter fun m => m.lid != l.lid }
  s3.completeSlot l.queue l.gen l.slot l.packet
    { status := e.status, ending := e, ovs := l.ovs, noprog := l.noprog, unit := l.unit, aborts := l.aborts, ckpts := ck,
      cc := s.cc - l.start }

/-! ### Packets -/

/-- The packet in 64 bytes (Table 07-3). -/
def packetOf (bs : List Byte) : Packet :=
  let w (i : Nat) : Word := BitVec.ofNat 64 (leNat ((bs.drop (8 * i)).take 8))
  { lp := w 0, w1 := w 1, grants := w 2, w3 := w 3, args := [w 4, w 5, w 6, w 7] }

/-- The packet in a slot. -/
def State.packetIn (s : State) (q : BitVec 12) (n : Nat) : Packet := packetOf (s.dpaBytes (s.slotAt q n) 64)

/-! ### Creation and destruction (Table 07-2) -/

/-- Whether a configuration word (offset 8) is legal: no reserved bit, `lsize` 4 to 16, partition and weight in
range. -/
def qConfigOk (w : Word) : Bool :=
  fieldNat w 40 8 == 0 && fieldNat w 5 13 == 0 && 4 ≤ fieldNat w 0 5 && fieldNat w 0 5 ≤ 16 && fieldNat w 18 4 < 12 &&
    fieldNat w 32 8 != 0

/-- Create a queue: generation raised, indices zero, active. -/
def State.createQueue (s : State) (q : BitVec 12) (ring cfg cring : Word) : State :=
  let gen := (s.qGen q).toNat + 1
  let cfg' := putField (putField cfg 28 2 1) 48 16 gen
  let words : List (Nat × Word) := [(0, ring), (8, cfg'), (16, 0#64), (24, 0#64), (32, 0#64), (40, cring), (48, 0#64), (56, 0#64)]
  let s1 := words.foldl (fun t p => t.sysPut (qdOff q + p.1) p.2) s
  { s1 with queues := s1.queues.filter (fun a => a.q != q) ++
      [{ q := q, next := 0, done := [], deficit := 0, idle := s.cc, waitSeq := none }] }

/-- The fault that ends the launches of a destroyed queue. -/
def staleEnding : Ending := { Ending.zero 1 with src := 5, code := 0x0F }

/-- A launch that is not running in the sense of R289, killed without having been placed. -/
def State.killSlot (s : State) (q : BitVec 12) (slot : Nat) (p : Packet) : State :=
  s.completeSlot q (s.qGen q) slot p
    { status := 1, ending := staleEnding, ovs := false, noprog := false, unit := 0, aborts := 0, ckpts := 0, cc := 0 }

/-- Destroy a queue: every launch of it that is not Done is killed with Stale Queue Handle, packets still in its ring
included. -/
def State.destroyQueue (s : State) (q : BitVec 12) : State :=
  let run := s.launches.filter fun l => l.queue == q && l.state != .done
  let s1 := run.foldl (fun t l => t.abortSoon l 0x0F 5 (.stop staleEnding)) s
  let wait := s1.placing.filter fun p => p.queue == q
  let s2 := { s1 with placing := s1.placing.filter fun p => p.queue != q }
  let s3 := wait.foldl (fun t p => t.killSlot q p.slot p.packet) s2
  let first := (s3.aux q).next
  let left := (List.range (s3.qWrite q - first)).map fun i => first + i
  let s4 := left.foldl (fun t n => t.killSlot q n (t.packetIn q n)) s3
  (s4.modAux q fun a => { a with next := s3.qWrite q }).qSetState q 0

end Sys2Proof.Machine
end

