-- ==== Sys2Proof/Machine/Kv.lean ====
section
/-! DEFINITION. The KV block table of a partition (R350 to R354): header, entries, frame stacks, and the internal
steps AllocBlock, Demote, Promote, Free and Release of R353. -/

namespace Sys2Proof.Machine

/-! ### Header (Table 09-11) -/

def State.khEnts (s : State) (p : Nat) : Nat := s.sysF (khOff p) 12 36 * 4096
def State.khN (s : State) (p : Nat) : Nat := s.sysF (khOff p + 8) 32 21
/-- T, tokens per block. -/
def State.khT (s : State) (p : Nat) : Nat := s.sysF (khOff p + 8) 16 10 + 1
/-- L, bytes per row. -/
def State.khL (s : State) (p : Nat) : Nat := s.sysF (khOff p + 8) 0 11 * 64
/-- F, bytes of a frame (R192). -/
def State.khF (s : State) (p : Nat) : Nat := 2 * s.khT p * s.khL p
def State.khEn (s : State) (p : Nat) : Bool := s.sysF (khOff p + 56) 0 1 == 1
def State.khApro (s : State) (p : Nat) : Bool := s.sysF (khOff p + 56) 1 1 == 1

/-- Offset of the words that describe a frame stack: the HBM stack or the capacity-tier stack. -/
def kvStack (p : Nat) (hbm : Bool) : Nat := if hbm then khOff p + 16 else khOff p + 32
/-- DPA of a stack's array. -/
def State.kvPool (s : State) (p : Nat) (hbm : Bool) : Nat := s.sysF (kvStack p hbm) 3 45 * 8
/-- Frames on a stack, and its capacity. -/
def State.kvCnt (s : State) (p : Nat) (hbm : Bool) : Nat := s.sysF (kvStack p hbm + 8) 32 32
def State.kvCap (s : State) (p : Nat) (hbm : Bool) : Nat := s.sysF (kvStack p hbm + 8) 0 32
def State.kvSetCnt (s : State) (p : Nat) (hbm : Bool) (v : Nat) : State := s.sysSetF (kvStack p hbm + 8) 32 32 v

/-- A saturating 32-bit count. -/
def bump32 (n : Nat) : Nat := min (n + 1) (2 ^ 32 - 1)

/-! ### Entries (Table 09-12) -/

/-- A block-table entry. -/
structure KvEntry where
  gen : Nat
  refs : Nat
  fill : Nat
  state : Nat
  frame : Nat
deriving DecidableEq, Repr

/-- DPA of an entry. -/
def State.kvAt (s : State) (p id : Nat) : Nat := s.khEnts p + 16 * id

/-- Read an entry. -/
def State.kvGet (s : State) (p id : Nat) : KvEntry :=
  let w := s.dramWord (s.kvAt p id)
  { gen := fieldNat w 48 16, refs := fieldNat w 32 16, fill := fieldNat w 10 11, state := fieldNat w 0 3,
    frame := fieldNat (s.dramWord (s.kvAt p id + 8)) 12 36 * 4096 }

/-- Write an entry. -/
def State.kvPut (s : State) (p id : Nat) (e : KvEntry) : State :=
  (s.dramPutWord (s.kvAt p id) (BitVec.ofNat 64 (e.gen % 65536 * 2 ^ 48 + e.refs * 2 ^ 32 + e.fill * 2 ^ 10 + e.state))).dramPutWord
    (s.kvAt p id + 8) (BitVec.ofNat 64 e.frame)

/-- Whether an entry's words can be read. -/
def State.kvBad (s : State) (p id : Nat) : Bool := s.dram.badIn (s.kvAt p id) 16

/-- The block reference of an entry (R192). -/
def State.kvRef (s : State) (p id : Nat) : BitVec 32 := BitVec.ofNat 32 ((s.kvGet p id).gen % 4096 * 2 ^ 20 + id)

/-- The block a reference names, when it passes the checks of R192 and R350. -/
def State.kvEntry (s : State) (p : Nat) (ref : BitVec 32) : Option (Nat × KvEntry) :=
  let id := fieldNat ref 0 20
  if s.khEn p && id < s.khN p then
    (let e := s.kvGet p id
     if e.state ≠ 0 && e.gen % 4096 = fieldNat ref 20 12 then some (id, e) else none)
  else none

/-! ### Frame stacks (R351) -/

/-- Whether a popped word is a usable frame of its pool. -/
def State.kvFrameOk (s : State) (p : Nat) (hbm : Bool) (w : Word) : Bool :=
  let d := w.toNat
  decide (d / 2 ^ 44 = if hbm then 0 else 1) && d % 4096 == 0 && dpaOk d && dpaOk (d + s.khF p - 1) &&
    decide (d / 2 ^ 36 = (d + s.khF p - 1) / 2 ^ 36 ∨ hbm = false)

/-- Pop a frame, discarding unusable ones; `fuel` is the count of frames. -/
def kvPopGo (p : Nat) (hbm : Bool) : Nat → State → Option Nat × State
  | 0, s => (none, s)
  | n + 1, s =>
      let w := s.dramWord (s.kvPool p hbm + 8 * n)
      let s1 := s.kvSetCnt p hbm n
      if s.kvFrameOk p hbm w then (some w.toNat, s1)
      else kvPopGo p hbm n (s1.sysSetF (khOff p + 48) 0 32 (bump32 (s1.sysF (khOff p + 48) 0 32)))

/-- Pop from a stack; nothing when it is empty. -/
def State.kvPop (s : State) (p : Nat) (hbm : Bool) : Option Nat × State := kvPopGo p hbm (s.kvCnt p hbm) s

/-- Push a frame; a full stack discards it. -/
def State.kvPush (s : State) (p : Nat) (hbm : Bool) (f : Nat) : State :=
  let n := s.kvCnt p hbm
  if n < s.kvCap p hbm then (s.dramPutWord (s.kvPool p hbm + 8 * n) (BitVec.ofNat 64 f)).kvSetCnt p hbm (n + 1) else s

/-- Whether a command that translated a block through a frame has not completed. -/
def State.kvFrameUsed (s : State) (f : Nat) : Bool :=
  s.launches.any fun l => l.copies.any fun c => c.cores.any fun k => k.eng.cmds.any fun m => m.blocks.any fun b => b.frame == f

/-- `Release(f, stack)`: at once when no command uses the frame, else when the last has completed. -/
def State.kvRelease (s : State) (p : BitVec 4) (f : Nat) (hbm : Bool) : State :=
  if s.kvFrameUsed f then { s with kv := { s.kv with release := s.kv.release ++ [(p, f, hbm)] } }
  else s.kvPush p.toNat hbm f

/-! ### Internal steps (R353) -/

/-- `AllocBlock`: a new open block, or nothing when there is no free entry or no frame. -/
def State.kvAlloc (s : State) (p : Nat) : Option Nat × State :=
  let id := (List.range (s.khN p)).find? fun i => (s.kvGet p i).state == 0
  let (f, s1) := s.kvPop p true
  match id, f with
  | some i, some f => (some i, s1.kvPut p i { gen := (s1.kvGet p i).gen, refs := 1, fill := 0, state := 1, frame := f })
  | none, some f => (none, s1.kvPush p true f)
  | _, none => (none, s1)

/-- Copy the bytes of a frame. -/
def State.kvCopy (s : State) (p from' to' : Nat) : State := s.dramPut to' (s.dramBytes from' (s.khF p))

/-- `Demote`. -/
def State.kvDemote (s : State) (p : BitVec 4) (id : Nat) : State :=
  let q := p.toNat
  let e := s.kvGet q id
  if e.state ≠ 2 then s
  else match s.kvPop q false with
    | (none, s1) => s1.sysSetF (khOff q + 48) 32 32 (bump32 (s1.sysF (khOff q + 48) 32 32))
    | (some f, s1) =>
        let s2 := (s1.kvCopy q e.frame f).kvPut q id { e with frame := f, state := 3 }
        s2.kvRelease p e.frame true

/-- `Promote`. -/
def State.kvPromote (s : State) (p : BitVec 4) (id : Nat) : State :=
  let q := p.toNat
  let e := s.kvGet q id
  if e.state ≠ 3 then s
  else match s.kvPop q true with
    | (none, s1) => s1
    | (some f, s1) =>
        let s2 := (s1.kvCopy q e.frame f).kvPut q id { e with frame := f, state := 2 }
        s2.kvRelease p e.frame false

/-- `Free`: the generation rises. -/
def State.kvFree (s : State) (p : BitVec 4) (id : Nat) : State :=
  let q := p.toNat
  let e := s.kvGet q id
  (s.kvPut q id { gen := e.gen + 1, refs := 0, fill := 0, state := 0, frame := 0 }).kvRelease p e.frame (decide (e.frame / 2 ^ 44 = 0))

/-! ### Steps of the device -/

/-- KV_PROMOTE (R353): a requested promotion is made; at an uncorrectable or absent frame it is not made. -/
def execKvPromote (part : BitVec 4) (block : BitVec 20) (s : State) : Host.Outcome State Fault Refusal :=
  .next (
    if s.kv.promote.contains (part, block.toNat) then
      (let s1 := { s with kv := { s.kv with promote := s.kv.promote.erase (part, block.toNat) } }
       let e := s.kvGet part.toNat block.toNat
       if s.khEn part.toNat && !s.kvBad part.toNat block.toNat && !s.dram.badIn e.frame (s.khF part.toNat) then
         s1.kvPromote part block.toNat
       else s1)
    else s)

/-- KV_FRAME_RELEASE (R353): a frame that no command uses any more is pushed on its stack. -/
def execKvFrameRelease (i : Nat) (s : State) : Host.Outcome State Fault Refusal :=
  .next (match s.kv.release[i]? with
    | none => s
    | some (p, f, hbm) =>
        if s.kvFrameUsed f then s
        else State.kvPush { s with kv := { s.kv with release := s.kv.release.eraseIdx i } } p.toNat hbm f)

end Sys2Proof.Machine
end

