-- ==== Sys2Proof/Machine/Firm.lean ====
section
/-! DEFINITION. The management controller: firmware slots, verification, updates and trials (R401, R402, R404, R418,
R423, R424), the flash record (R382), the capacity-tier checkpoint (R407), device reset, bring-up and power loss
(R405, R406), and the management mailbox (R408). -/

namespace Sys2Proof.Machine

/-! ### CRC64 over sparse storage -/

/-- Multiply by x modulo the polynomial of R363. -/
def gfStep (c : BitVec 64) : BitVec 64 := crc64Bit c

/-- Product of two residues modulo the polynomial; bit i of `b` is x^i. -/
def gfMul (a b : BitVec 64) : BitVec 64 :=
  ((List.range 64).foldl (fun (acc : BitVec 64 × BitVec 64) i =>
    (if b.getLsbD i then acc.1 ^^^ acc.2 else acc.1, gfStep acc.2)) (0#64, a)).1

/-- x^n modulo the polynomial, by squaring; `fuel` bounds the bits of n. -/
def gfPow : Nat → BitVec 64 → Nat → BitVec 64
  | 0, _, _ => 1#64
  | fuel + 1, b, n =>
      if n = 0 then 1#64
      else (let r := gfPow fuel (gfMul b b) (n / 2)
            if n % 2 = 1 then gfMul b r else r)

/-- The register of the division after `n` zero bytes. -/
def crcSkip (c : BitVec 64) (n : Nat) : BitVec 64 := gfMul c (gfPow 64 2#64 (8 * n))

/-- CRC64 of `n` bytes at `a` of a storage whose unlisted bytes are zero. -/
def Store.crc (m : Store) (a n : Nat) : BitVec 64 :=
  let r := (m.cells.filter fun c => a ≤ c.1 && c.1 < a + n).foldl
    (fun (acc : BitVec 64 × Nat) c => (crc64Byte (crcSkip acc.1 (c.1 - acc.2)) c.2, c.1 + 1)) (BitVec.allOnes 64, a)
  crcSkip r.1 (a + n - r.2) ^^^ BitVec.allOnes 64

/-! ### Refused host accesses (R386) -/

/-- Count a refused access at the port's fault queue. -/
def State.refuse (s : State) (h : BitVec 1) : State :=
  s.sysSetF (fqOff h + 32) 0 32 (bump32 (s.sysF (fqOff h + 32) 0 32))

/-! ### Firmware control block (Table 11-7) -/

def fwOff : Nat := 0x1000
/-- `FW.st`, `FW.act`. -/
def State.fwSt (s : State) : Nat := s.sysF (fwOff + 16) 8 8
def State.fwSetSt (s : State) (v : Nat) : State := s.sysSetF (fwOff + 16) 8 8 v
def State.fwAct (s : State) : Nat := s.sysF (fwOff + 16) 0 8
def State.fwSetAct (s : State) (v : Nat) : State := s.sysSetF (fwOff + 16) 0 8 v
/-- `FW.sst` and `FW.ver` of a slot. -/
def State.fwSst (s : State) (i : BitVec 1) : Nat := s.sysF (fwOff + 24 + 8 * i.toNat) 0 3
def State.fwSetSst (s : State) (i : BitVec 1) (v : Nat) : State := s.sysSetF (fwOff + 24 + 8 * i.toNat) 0 3 v
def State.fwVer (s : State) (i : BitVec 1) : Nat := s.sysF (fwOff + 24 + 8 * i.toNat) 32 32
def State.fwSetVer (s : State) (i : BitVec 1) (v : Nat) : State := s.sysSetF (fwOff + 24 + 8 * i.toNat) 32 32 v

/-- Log entry s at offset 8·(s mod 8) of `FW.log` (R401, R418). -/
def State.fwLog (s : State) (event : Nat) (slot : BitVec 1) : State :=
  let n := s.firm.logSeq
  let w := BitVec.ofNat 64 (event * 2 ^ 56 + slot.toNat * 2 ^ 48 + s.fwVer slot * 2 ^ 16 + n % 65536)
  let s1 := s.sysPut (fwOff + 64 + 8 * (n % 8)) w
  { s1 with firm := { s1.firm with logSeq := n + 1 } }

/-- Where a slot lies in flash, and its size (R401). -/
def slotOff (i : BitVec 1) : Nat := 0x01000000 + 0x06000000 * i.toNat
def slotBytes : Nat := 0x06000000

/-- Whether bytes are all zero. -/
def zeros (bs : List Byte) : Bool := bs.all fun b => b == 0#8

/-- Whether a slot holds no image. -/
def State.slotEmpty (s : State) (i : BitVec 1) : Bool := (s.firm.flash.bytes (slotOff i) 8).all fun b => b == 0xFF#8

/-- Verification of the image in a slot (R402, R423): 0 valid, else the value `FW.st` reports. -/
def State.verifySlot (s : State) (i : BitVec 1) : Nat :=
  let m := s.firm.flash
  let o := slotOff i
  let w0 := m.word o
  let w1 := m.word (o + 8)
  let len := fieldNat w0 32 32
  if fieldNat w0 0 16 ≠ 2 || decide (0xB0 < fieldNat w0 16 8) || fieldNat w0 24 8 ≠ 0 || fieldNat w1 2 30 ≠ 0 ||
      !zeros (m.bytes (o + 16) 48) || !zeros (m.bytes (o + 160) 3936) || len = 0 || decide (slotBytes - 4096 < len) then 3
  else match s.firm.keys[fieldNat w1 0 2]? with
    | none => 2
    | some (key, revoked) =>
        let digest := Config.sha384 (m.bytes o 64 ++ m.bytes (o + 4096) len)
        if revoked || !Config.ecdsaOk key digest (m.bytes (o + 64) 48) (m.bytes (o + 112) 48) then 2
        else if fieldNat w1 32 32 < s.firm.minVer then 4
        else 0

/-- Show the version of the image a slot holds; an empty slot shows 0. -/
def State.showVer (s : State) (i : BitVec 1) : State :=
  s.fwSetVer i (if s.slotEmpty i then 0 else fieldNat (s.firm.flash.word (slotOff i + 8)) 32 32)

/-- Evaluate a slot after a write into it (R424). -/
def State.evalSlot (s : State) (i : BitVec 1) : State :=
  let s1 := s.showVer i
  s1.fwSetSst i (if s1.slotEmpty i then 0 else if s1.verifySlot i = 0 then 1 else 4)

/-- Change the firmware state. -/
def State.modFirm (s : State) (f : Firm → Firm) : State := { s with firm := f s.firm }

/-- The Anole cores start an image: their registers are those after reset, the pc where the image has them
start. -/
def State.startAnoles (s : State) : State :=
  let hdr := (s.firm.flash.word (slotOff (BitVec.ofNat 1 s.fwAct) + 8)).toNat
  { s with anoles := Vector.ofFn fun i => { Anole.zero with regs := Regs.zero.setPc (Config.anoleEntry hdr i.val) } }

/-- The launch queues that a hand-over carries: the active ones (R418, Table 14-6). -/
def State.handQueues (s : State) : List (BitVec 12) :=
  ((List.range 4096).map fun i => BitVec.ofNat 12 i).filter fun q => s.qState q == 1

/-- Whether the memory of the hand-over is ready (R406). -/
def State.handoverReady (s : State) : Bool := s.dpaReady (s.sysF (fwOff + 48) 12 36 * 4096)

/-- HANDOVER_WRITE (R404 step 3, Table 14-5). The place of the private launch table is a free value. -/
def State.writeHandover (s : State) : State :=
  let qs := s.handQueues
  let ltab := Config.freeNat s.freeCtr % 0xC00000 * 4096
  let ent (q : BitVec 12) : List Byte :=
    natLe 8 ((s.qGen q).toNat * 2 ^ 48 + q.toNat * 2 ^ 32 + (s.aux q).next % 2 ^ 32) ++
    natLe 8 (BitVec.ofInt 64 (s.aux q).deficit).toNat
  let act : BitVec 1 := BitVec.ofNat 1 s.fwAct
  let body := natLe 8 (s.fwVer act * 2 ^ 32 + qs.length) ++ natLe 8 (s.firm.hoSeq + 1) ++ natLe 8 ltab ++
    natLe 8 (s.launches.length % 2 ^ 32) ++ qs.flatMap ent
  let bs := natLe 8 ((32 + 16 * qs.length) * 2 ^ 32 + 2) ++ rowBytes (crc64 body) 8 ++ body
  let s1 := s.dramPut (s.sysF (fwOff + 48) 12 36 * 4096) bs
  { s1 with freeCtr := s.freeCtr + 1, firm := { s1.firm with hoSeq := s.firm.hoSeq + 1 } }

/-- Whether the hand-over at `FW.ho` passes the check that every image makes of its CRC (R418). -/
def State.handoverOk (s : State) : Bool :=
  let d := s.sysF (fwOff + 48) 12 36 * 4096
  let n := fieldNat (s.dramWord d) 32 32
  fieldNat (s.dramWord d) 0 16 == 2 && s.dramWord (d + 8) == s.dram.crc (d + 16) n

/-- The trial is rolled back (R404, R424): the previous image runs again from the hand-over. -/
def State.rollBack (s : State) (slot : BitVec 1) : State :=
  let s1 := (s.fwSetSst slot 4).fwSetSst s.firm.prev 2
  let s2 := (s1.fwSetAct s.firm.prev.toNat).fwLog 6 slot
  (s2.modFirm fun f => { f with phase := .restarting }).startAnoles

/-- `FW.cmd` 1 (R424). -/
def State.fwVerifyCmd (s : State) (slot : BitVec 1) : State :=
  if s.fwAct = slot.toNat && s.fwSst slot = 2 || s.fwSst slot = 2 || s.fwSst slot = 3 then s.fwSetSt 5
  else
    (let st := s.verifySlot slot
     let s1 := (s.showVer slot).fwSetSst slot (if st = 0 then 1 else 4)
     (s1.fwLog (if st = 0 then 1 else 2) slot).fwSetSt st)

/-- `FW.cmd` 2 (R404, R424): dispatch stops at a packet boundary. -/
def State.fwUpdateCmd (s : State) (slot : BitVec 1) : State :=
  if s.fwSst slot ≠ 1 || s.fwAct = slot.toNat || s.firm.phase ≠ .idle then s.fwSetSt 5
  else
    (let st := s.verifySlot slot
     if st ≠ 0 then ((s.fwSetSst slot 4).fwLog 2 slot).fwSetSt st
     else (s.fwSetSt 1).modFirm fun f => { f with phase := .stopping slot })

/-- `FW.cmd` 3: commit. -/
def State.fwCommitCmd (s : State) : State :=
  match s.firm.phase with
  | .trial slot _ _ true =>
      let s1 := ((s.fwSetSst slot 2).fwSetSst s.firm.prev 1).fwLog 5 slot
      (s1.modFirm fun f => { f with phase := .idle }).fwSetSt 0
  | .trial _ _ _ false => s.fwSetSt 5
  | .idle => s.fwSetSt 5
  | .stopping _ => s.fwSetSt 5
  | .restarting => s.fwSetSt 5

/-- `FW.cmd` 4: abandon. A trial that serves first stops and hands over again (R418), once the memory for it is ready. -/
def State.fwAbandonCmd (s : State) : State :=
  match s.firm.phase with
  | .trial slot _ _ true => if s.handoverReady then (s.writeHandover.rollBack slot).fwSetSt 0 else s.fwSetSt 1
  | .trial slot _ _ false => (s.rollBack slot).fwSetSt 0
  | .idle => s.fwSetSt 5
  | .stopping _ => s.fwSetSt 5
  | .restarting => s.fwSetSt 5

/-- A write of `FW.cmd` performs it; not while an earlier one is busy. Other values are no command. -/
def State.fwCommand (s : State) (cmd : Nat) (slot : BitVec 1) : State :=
  if s.fwSt = 1 then s
  else match cmd with
    | 1 => s.fwVerifyCmd slot
    | 2 => s.fwUpdateCmd slot
    | 3 => s.fwCommitCmd
    | 4 => s.fwAbandonCmd
    | _ => s.fwSetSt 5

/-- `FW.hb` has changed: a trial's first heartbeat within its window is logged, and the image serves (R404). -/
def State.heartbeat (s : State) : State :=
  match s.firm.phase with
  | .trial slot at' hb false =>
      if s.cc ≤ at' + Config.heartbeatCc then
        State.runDeferred ((s.fwLog 4 slot).modFirm fun f => { f with phase := .trial slot at' hb true })
      else s
  | .restarting => State.runDeferred (s.modFirm fun f => { f with phase := .idle })
  | .trial _ _ _ true => s
  | .idle => s
  | .stopping _ => s

/-! ### Firmware steps -/

/-- FW_VERIFY. -/
def execFwVerify (slot : BitVec 1) (s : State) : Host.Outcome State Fault Refusal :=
  .next ((s.sysPut (fwOff + 8) (slot.setWidth 64)).fwCommand 1 slot)

/-- FW_UPDATE. -/
def execFwUpdate (slot : BitVec 1) (s : State) : Host.Outcome State Fault Refusal :=
  .next ((s.sysPut (fwOff + 8) (slot.setWidth 64)).fwCommand 2 slot)

/-- FW_TRIAL_START (R404 steps 3 and 4). -/
def execFwTrialStart (s : State) : Host.Outcome State Fault Refusal :=
  .next (match s.firm.phase with
    | .stopping slot =>
        if !s.handoverReady then s else
        let prev : BitVec 1 := BitVec.ofNat 1 s.fwAct
        let s1 := s.writeHandover
        let s2 := ((s1.fwSetSst slot 3).fwSetAct slot.toNat).fwLog 3 slot
        let s3 := s2.fwSetSt 0
        (s3.modFirm fun f => { f with phase := .trial slot s.cc (s.sysW (fwOff + 40)) false, prev := prev }).startAnoles
    | .idle => s
    | .trial _ _ _ _ => s
    | .restarting => s)

/-- FW_HEARTBEAT: firmware increments `FW.hb`; before its first heartbeat an image has checked the hand-over. -/
def execFwHeartbeat (s : State) : Host.Outcome State Fault Refusal :=
  let beat := s.sysPut (fwOff + 40) (s.sysW (fwOff + 40) + 1#64)
  .next (match s.firm.phase with
    | .idle => beat
    | .trial _ _ _ true => beat
    | .trial _ _ _ false => if s.handoverOk then beat.heartbeat else s
    | .restarting => if s.handoverOk then beat.heartbeat else s
    | .stopping _ => beat)

/-- FW_HEARTBEAT_TIMEOUT. -/
def execFwHeartbeatTimeout (s : State) : Host.Outcome State Fault Refusal :=
  .next (match s.firm.phase with
    | .trial slot at' _ false => if at' + Config.heartbeatCc ≤ s.cc then s.rollBack slot else s
    | .trial _ _ _ true => s
    | .idle => s
    | .stopping _ => s
    | .restarting => s)

/-- FW_COMMIT. -/
def execFwCommit (s : State) : Host.Outcome State Fault Refusal := .next (s.fwCommand 3 0#1)

/-- FW_ABANDON. -/
def execFwAbandon (s : State) : Host.Outcome State Fault Refusal := .next (s.fwCommand 4 0#1)

/-! ### The flash record (R382) -/

/-- The record of the state as it stands. -/
def Reliab.record (r : Reliab) : FlashRec :=
  { seq := r.seq + 1, powered := r.powered, units := r.units, hist := r.hist, ecc := r.ecc }

/-- Where a record slot lies in flash. -/
def ringOff (i : Nat) : Nat := 0x0D000000 + 0x20000 * i

/-- Write the next record slot, whole: nothing in it is uncorrectable then. -/
def State.writeRecord (s : State) : State :=
  let i := (s.rel.seq + 1) % 64
  { s with rel := { s.rel with ring := s.rel.ring.set i (some s.rel.record), seq := s.rel.seq + 1, sinceRec := 0 },
           firm := { s.firm with flash := { s.firm.flash with bad := s.firm.flash.bad.filter fun w =>
             !(ringOff i ≤ 8 * w && 8 * w < ringOff i + 0x20000) } } }

/-- The valid record with the highest sequence number. -/
def State.bestRecord (s : State) : Option FlashRec :=
  (s.rel.ring.zipIdx.filterMap fun p => if s.firm.flash.badIn (ringOff p.2) 0x20000 then none else p.1).foldl
    (fun best r => match best with
      | none => some r
      | some b => if b.seq < r.seq then some r else some b) none

/-- What a record holds, as one list. -/
def FlashRec.contents (r : FlashRec) : List Nat :=
  [r.seq, r.powered] ++ (r.units.flatMap fun x =>
    [x.id.toNat, x.score, x.fenced.toNat, x.held.toNat, x.retired.toNat, x.replaced.toNat]) ++
  (r.hist.flatMap fun p => [p.1, p.2]) ++ r.ecc.flatMap fun p => [p.1, p.2]

/-- The bytes of a record slot: erased, or the sequence number, the powered time, the rest of the contents in a layout that the
spec leaves to the controller, and their CRC64 last (log entry 6). -/
def State.recordBytes (s : State) (i : Nat) : List Byte :=
  match (s.rel.ring[i]?).getD none with
  | none => List.replicate 0x20000 0xFF#8
  | some r =>
      let xs := r.contents
      let body := natLe 8 r.seq ++ natLe 8 r.powered ++ (List.range 0x1FFE8).map fun j => Config.recordByte xs j
      body ++ rowBytes (crc64 body) 8

/-- FLASH_RECORD_WRITE: after 10 minutes of powered time. -/
def execFlashRecordWrite (s : State) : Host.Outcome State Fault Refusal :=
  .next (if Config.flashCc ≤ s.rel.sinceRec then s.writeRecord else s)

/-- SCORE_HALVING (R379): after 24 hours of powered time every score halves, and a hold ends when the score then lies
below the threshold. -/
def execScoreHalving (s : State) : Host.Outcome State Fault Refusal :=
  .next (if Config.halvingCc ≤ s.rel.powered then
    (let half (x : UnitState) : UnitState :=
       { x with score := x.score / 2, held := x.held && decide (threshold (unitKind x.id) ≤ x.score / 2) }
     { s with rel := { s.rel with powered := s.rel.powered - Config.halvingCc, units := s.rel.units.map half } })
   else s)

/-! ### Reset, bring-up, power loss (R405, R406, R382) -/

/-- A reliability record that names no launch goes to both hosts (R395). -/
def State.postBoth (s : State) (kind : Nat) (u : BitVec 16) : State :=
  s.postEvent [0#1, 1#1] (reWords kind 0 u.toNat (s.rel.unit u).score 0 0 0#64 s.cc)

/-- Device memory that a reset keeps: the capacity tier, and the hosts' own memories. -/
def Store.keepFrom (m : Store) (a : Nat) : Store :=
  { m with cells := m.cells.filter fun c => a ≤ c.1, bad := m.bad.filter fun w => a ≤ 8 * w }

/-- The active slot, which a reset keeps: during a trial, the one before it (R402). -/
def State.activeSlot (s : State) : Nat :=
  match s.firm.phase with
  | .trial _ _ _ _ => s.firm.prev.toNat
  | .idle => s.fwAct
  | .stopping _ => s.fwAct
  | .restarting => s.fwAct

/-- DEVICE_RESET (R405): the flash record is written first; launches end without a record, queues are destroyed and
contexts free, HBM is zero; what has left the device, the capacity tier, flash and the suspicion state stay. -/
def State.deviceReset (s : State) : State :=
  let r := State.reset
  let ckv := s.sysF 0 1 1
  let s1 : State :=
    { r with freeCtr := s.freeCtr, sched := s.sched, dram := s.dram.keepFrom (2 ^ 44),
             rel := s.writeRecord.rel,
             firm := { r.firm with flash := s.writeRecord.firm.flash, keys := s.firm.keys, minVer := s.firm.minVer,
                                   certs := s.firm.certs, saveSeq := s.firm.saveSeq },
             link := { r.link with out := s.link.out },
             host := { r.host with writes := s.host.writes, msix := s.host.msix, reads := s.host.reads, doe := s.host.doe },
             openings := s.openings }
  (s1.sysSetF 0 1 1 ckv).fwSetAct s.activeSlot

/-- PCIE_CONVENTIONAL_RESET. -/
def execPcieConventionalReset (_host : BitVec 1) (s : State) : Host.Outcome State Fault Refusal := .next s.deviceReset

/-- POWER_LOSS: all ends but module flash (with the record ring) and the capacity tier. Spares and retirements last for
the life of the module (R377, R381). -/
def execPowerLoss (s : State) : Host.Outcome State Fault Refusal :=
  let r := State.reset
  let cap : Store := { s.dram with cells := s.dram.cells.filter fun c => c.1 / 2 ^ 44 != 0, bad := s.dram.bad.filter fun w => 8 * w / 2 ^ 44 != 0 }
  let life := (s.rel.units.filter fun x => x.retired || x.replaced).map fun x =>
    { UnitState.fresh x.id with retired := x.retired, replaced := x.replaced }
  let s1 : State :=
    { r with freeCtr := s.freeCtr, sched := s.sched, dram := cap,
             rel := { r.rel with ring := s.rel.ring, spares := s.rel.spares, units := life },
             firm := { r.firm with flash := s.firm.flash, keys := s.firm.keys, minVer := s.firm.minVer,
                                   certs := s.firm.certs, saveSeq := s.firm.saveSeq },
             link := { r.link with out := s.link.out },
             host := { r.host with msix := s.host.msix, reads := s.host.reads, doe := s.host.doe },
             openings := s.openings }
  .next ((s1.sysSetF 0 1 1 (s.sysF 0 1 1)).fwSetAct s.activeSlot)

/-- Restore the flash record, or start at zero and report (R382). A retirement, and a bank's replacement, made after the record lasts
(R377, R379). -/
def State.restoreRecord (s : State) : State :=
  match s.bestRecord with
  | some rec =>
      let life := (s.rel.units.filter fun x => x.retired || x.replaced).foldl (fun (r : Reliab) x =>
        r.modUnit x.id fun y => { y with retired := y.retired || x.retired, replaced := y.replaced || x.replaced }) { s.rel with units := rec.units }
      State.sysSetF { s with rel := { s.rel with units := life.units, hist := rec.hist, ecc := rec.ecc, powered := rec.powered,
                                                 seq := rec.seq } } 0 0 1 1
  | none =>
      let keep := s.rel.units.map fun x => { x with score := 0, fenced := false, held := false }
      let r := { s.rel with units := keep.filter fun x => x.retired || x.replaced, hist := [], ecc := [] }
      State.postBoth (State.sysSetF { s with rel := r } 0 0 1 0) 24 0#16

/-- Verify both slots and start one (R402). The slot active before is the one that `FW.act` names. -/
def State.startFirmware (s : State) : State :=
  let act : BitVec 1 := BitVec.ofNat 1 s.fwAct
  let alt : BitVec 1 := act + 1#1
  let s1 := (s.evalSlot 0#1).evalSlot 1#1
  let s2 :=
    if s1.fwSst act = 1 then s1.fwSetSst act 2
    else if s1.fwSst alt = 1 then (s1.fwSetSst alt 2).fwSetAct alt.toNat
    else s1
  s2.startAnoles

/-- BRING_UP. -/
def execBringUp (s : State) : Host.Outcome State Fault Refusal :=
  .next (if s.firm.boot then s
         else ((s.restoreRecord).startFirmware).modFirm fun f => { f with boot := true })

/-- Whether some firmware image runs. -/
def State.imageRuns (s : State) : Bool := s.fwSst 0#1 == 2 || s.fwSst 1#1 == 2 || s.fwSst 0#1 == 3 || s.fwSst 1#1 == 3

/-- HOST_PORT_TRAINED. -/
def execHostPortTrained (host : BitVec 1) (up : Bool) (s : State) : Host.Outcome State Fault Refusal :=
  .next (s.sysSetF 16 (12 + host.toNat) 1 up.toNat)

/-! ### The capacity-tier checkpoint (R407) -/

/-- DPA of the image of a stack, and of the header behind the twelve images. -/
def imageAt (base k : Nat) : Nat := 2 ^ 44 + base + Config.stackBytes * k
/-- Bytes of the checkpoint area. -/
def areaBytes : Nat := 12 * Config.stackBytes + 4096

/-- Whether the ring of a parked queue overlaps the area. -/
def State.ringIn (s : State) (base : Nat) : Bool :=
  (List.range 4096).any fun i =>
    let q := BitVec.ofNat 12 i
    s.qState q == 2 && decide (s.qRing q < imageAt base 0 + areaBytes) && decide (imageAt base 0 < s.qRing q + 64 * s.qSlots q)

/-- Whether a base is legal. -/
def State.baseOk (s : State) (base : Nat) : Bool :=
  base % 0x40000000 == 0 && decide (base + areaBytes ≤ Config.capacityBytes) && !s.ringIn base

/-- The ready stacks. -/
def State.readyStacks (s : State) : List Nat := (List.range 12).filter s.hbmReady

/-- Whether the packages that hold a checkpoint area are ready (R406). -/
def State.areaReady (s : State) (base : Nat) : Bool :=
  (List.range 10).all fun i => s.dpaReady (2 ^ 44 + base + min (2 ^ 36 * i) (areaBytes - 1))

/-- All HBM is copied to the area. -/
def State.copyHbm (s : State) (base : Nat) : State :=
  let m := s.readyStacks.foldl (fun m k => m.copyRange (2 ^ 36 * k) (imageAt base k) Config.stackBytes) s.dram
  { s with dram := m, firm := { s.firm with saveCopied := true } }

/-- Whether a launch runs. -/
def State.anyRunning (s : State) : Bool := s.launches.any fun l => l.state.live

/-- Start a save: dispatch stops and every running launch is to be pre-empted whatever its guard. -/
def State.startSave (s : State) (h : BitVec 1) (base : Nat) : State :=
  let s1 := s.modFirm fun f => { f with save := some (base, h), saveCopied := false }
  let s2 := State.sysSetF s1 0 1 1 0
  let s3 := { s2 with launches := s2.launches.map fun l => if l.state.live then l.askPreempt true else l }
  if s3.anyRunning || !s3.areaReady base then s3 else s3.copyHbm base

/-- The header of an image: sequence number, ready mask, CRC64 of each stack's image. -/
def State.saveHeader (s : State) (base : Nat) : List Byte :=
  let mask := s.readyStacks.foldl (fun n k => n + 2 ^ k) 0
  natLe 8 (s.firm.saveSeq + 1) ++ natLe 8 mask ++
  (List.range 12).flatMap (fun k => natLe 8 (if s.hbmReady k then (s.dram.crc (imageAt base k) Config.stackBytes).toNat else 0)) ++
  List.replicate (4096 - 112) 0#8

/-- Whether the area holds a valid image, with its ready mask. -/
def State.imageOk (s : State) (base : Nat) : Option Nat :=
  let h := imageAt base 12
  let mask := (s.dramWord (h + 8)).toNat
  if !s.dram.badIn h 4096 && s.dramWord h != 0#64 && decide (mask < 4096) &&
      (List.range 12).all (fun k => !(mask.testBit k) || s.dramWord (h + 16 + 8 * k) == s.dram.crc (imageAt base k) Config.stackBytes)
  then some mask else none

/-- Finish a mailbox command. -/
def State.mbDone (s : State) (h : BitVec 1) (st : Nat) : State := s.sysPut (mbOff h + 32) (BitVec.ofNat 64 st)

/-- CAPACITY_SAVE_COMPLETE: the header is written last, dispatch resumes, the mailbox shows done. -/
def execCapacitySaveComplete (s : State) : Host.Outcome State Fault Refusal :=
  .next (match s.firm.save with
    | none => s
    | some (base, h) =>
        if s.anyRunning || !s.areaReady base then s
        else
          (let s1 := if s.firm.saveCopied then s else s.copyHbm base
           let s2 := s1.dramPut (imageAt base 12) (s1.saveHeader base)
           let s3 := s2.sysSetF 0 1 1 1
           (s3.modFirm fun f => { f with save := none, saveCopied := false, saveSeq := f.saveSeq + 1 }).mbDone h 0))

/-- A host or Anole write to HBM while a save copies it: each line of the image holds the value before the write or
after it, freely (R407). `n` lines from `line` up. -/
def saveLines (base : Nat) : Nat → Nat → State → State
  | 0, _, s => s
  | n + 1, line, s =>
      let img := imageAt base (line / 2 ^ 36) + line % 2 ^ 36
      let (b, s1) := s.freeB
      let s2 := if b then { s1 with dram := s1.dram.put img (s1.dram.bytes line 64) } else s1
      saveLines base n (line + 64) s2

/-- `n` bytes of device memory have been written from outside any launch: a save that is copying may have seen the write
or not. -/
def State.saveTouch (s : State) (dpa n : Nat) : State :=
  match s.firm.save with
  | some (base, _) =>
      if s.firm.saveCopied && dpa / 2 ^ 44 = 0 && s.hbmReady (dpa / 2 ^ 36) && n != 0 then
        saveLines base ((dpa + n - 1) / 64 + 1 - dpa / 64) (dpa / 64 * 64) s
      else s
  | none => s

/-- Write bytes of device memory from outside any launch. -/
def State.outsidePut (s : State) (dpa : Nat) (bs : List Byte) : State := (s.dramPut dpa bs).saveTouch dpa bs.length

/-- The same at their home, for some agents first (R306, R308). -/
def State.outsideLag (s : State) (ws : List Nat) (bind : Bool) (dpa : Nat) (bs : List Byte) : State :=
  (s.lagPut ws bind dpa bs).saveTouch dpa bs.length

/-! ### The management mailbox (R408) -/

/-- Command 1. -/
def State.mbScore (s : State) (h : BitVec 1) (u : Word) : State :=
  let id := u.setWidth 16
  if 65536 ≤ u.toNat || !unitOk id then s.mbDone h 5
  else
    (let x := s.rel.unit id
     let v := x.score + x.fenced.toNat * 2 ^ 16 + x.held.toNat * 2 ^ 17 + x.retired.toNat * 2 ^ 18 + x.replaced.toNat * 2 ^ 19
     (s.sysPut (mbOff h + 40) (BitVec.ofNat 64 v)).mbDone h 0)

/-- Command 2. -/
def State.mbClear (s : State) (h : BitVec 1) (u : Word) : State :=
  let id := u.setWidth 16
  if 65536 ≤ u.toNat || !unitOk id || (s.rel.unit id).retired then s.mbDone h 5
  else State.mbDone { s with rel := s.rel.modUnit id fun x => { x with score := 0, fenced := false, held := false } } h 0

/-- Whether `n` bytes at a DPA lie within one memory. -/
def rangeOk (dpa n : Nat) : Bool :=
  dpaOk dpa && (n == 0 || (dpaOk (dpa + n - 1) && (dpa / 2 ^ 44 == (dpa + n - 1) / 2 ^ 44) &&
    (dpa / 2 ^ 44 != 0 || dpa / 2 ^ 36 == (dpa + n - 1) / 2 ^ 36)))

/-- Command 3. -/
def State.mbRecord (s : State) (h : BitVec 1) (slot dpa : Word) : State :=
  if 64 ≤ slot.toNat || !rangeOk dpa.toNat 0x20000 then s.mbDone h 5
  else if s.firm.flash.badIn (ringOff slot.toNat) 0x20000 then s.mbDone h 6
  else (s.outsidePut dpa.toNat (s.recordBytes slot.toNat)).mbDone h 0

/-- Command 4. -/
def State.mbWriteSlot (s : State) (h : BitVec 1) (arg0 dpa len : Word) : State :=
  let slot : BitVec 1 := arg0.extractLsb' 32 1
  let off := fieldNat arg0 0 32
  if (s.fwAct = slot.toNat && s.imageRuns) || s.fwSst slot = 3 || slotBytes < off + len.toNat || !rangeOk dpa.toNat len.toNat ||
      s.dram.badIn dpa.toNat len.toNat then
    s.mbDone h 5
  else
    ((s.modFirm fun f => { f with flash := f.flash.put (slotOff slot + off) (s.dpaBytes dpa.toNat len.toNat) }).evalSlot slot).mbDone h 0

/-- Command 6. -/
def State.mbMinimum (s : State) (h : BitVec 1) (v : Word) : State :=
  if v.toNat < s.firm.minVer then s.mbDone h 5 else (s.modFirm fun f => { f with minVer := v.toNat }).mbDone h 0

/-- Command 8. -/
def State.mbSave (s : State) (h : BitVec 1) (base : Word) : State :=
  if !s.baseOk base.toNat || s.firm.save.isSome then s.mbDone h 5
  else (s.startSave h base.toNat).sysPut (mbOff h + 32) 1#64

/-- Command 9. A header that does not check is answered with one of the statuses 2 to 5, freely. -/
def State.mbRestore (s : State) (h : BitVec 1) (base : Word) : State :=
  if !s.baseOk base.toNat || s.firm.save.isSome || s.anyRunning then s.mbDone h 5
  else match s.imageOk base.toNat with
    | none => State.mbDone { s with freeCtr := s.freeCtr + 1 } h (2 + Config.freeNat s.freeCtr % 4)
    | some mask =>
        let m := ((List.range 12).filter fun k => mask.testBit k).foldl
          (fun m k => m.copyRange (imageAt base.toNat k) (2 ^ 36 * k) Config.stackBytes) s.dram
        State.mbDone { s with dram := m } h 0

/-- Whether the memory that a mailbox command reads or writes is ready (R406). -/
def State.mbReady (s : State) (h : BitVec 1) (cmd : Nat) : Bool :=
  let a (i : Nat) : Nat := (s.sysW (mbOff h + 8 + 8 * i)).toNat
  let ready (d n : Nat) : Bool := !rangeOk d n || n == 0 || (s.dpaReady d && s.dpaReady (d + n - 1))
  match cmd with
  | 3 => ready (a 1) 0x20000
  | 4 => ready (a 1) (a 2)
  | 9 => !s.baseOk (a 0) || (s.areaReady (a 0) &&
      ((s.imageOk (a 0)).map fun mask => (List.range 12).all fun k => !(mask.testBit k) || s.hbmReady k).getD true)
  | _ => true

/-- Perform the command of a mailbox with its arguments. -/
def State.mbPerform (s : State) (h : BitVec 1) (cmd : Nat) : State :=
  let a (i : Nat) : Word := s.sysW (mbOff h + 8 + 8 * i)
  match cmd with
  | 1 => s.mbScore h (a 0)
  | 2 => s.mbClear h (a 0)
  | 3 => s.mbRecord h (a 0) (a 1)
  | 4 => s.mbWriteSlot h (a 0) (a 1) (a 2)
  | 5 => s.deviceReset
  | 6 => s.mbMinimum h (a 0)
  | 8 => s.mbSave h (a 0)
  | 9 => s.mbRestore h (a 0)
  | _ => s.mbDone h 5

/-- A write of `MB.cmd`: the command is performed, or runs until the memory it needs is ready; a write while one runs is not
performed. -/
def State.mbCommand (s : State) (h : BitVec 1) (cmd : Word) : State :=
  if s.sysW (mbOff h + 32) = 1#64 then s
  else
    (let s1 := s.sysPut (mbOff h) cmd
     if s1.mbReady h cmd.toNat then s1.mbPerform h cmd.toNat else s1.mbDone h 1)

/-- A host's PF writes the arguments and the command; without the right to the page nothing is written (R386). -/
def State.mbHost (s : State) (h : BitVec 1) (cmd a0 a1 a2 : Word) : State :=
  if !s.right 0x01300000 (mbOff h / 4096) (16 * h.toNat) .write then s.refuse h
  else
    ((((s.sysPut (mbOff h + 8) a0).sysPut (mbOff h + 16) a1).sysPut (mbOff h + 24) a2)).mbCommand h cmd

/-- MB_READ_SCORE. -/
def execMbReadScore (host : BitVec 1) (unit : BitVec 16) (s : State) : Host.Outcome State Fault Refusal :=
  .next (s.mbHost host 1#64 (unit.setWidth 64) 0#64 0#64)

/-- MB_CLEAR_FENCE. -/
def execMbClearFence (host : BitVec 1) (unit : BitVec 16) (s : State) : Host.Outcome State Fault Refusal :=
  .next (s.mbHost host 2#64 (unit.setWidth 64) 0#64 0#64)

/-- MB_COPY_FLASH_RECORD. -/
def execMbCopyFlashRecord (host : BitVec 1) (slot : Nat) (dpa : BitVec 64) (s : State) : Host.Outcome State Fault Refusal :=
  .next (s.mbHost host 3#64 (BitVec.ofNat 64 slot) dpa 0#64)

/-- MB_WRITE_FIRMWARE_SLOT. -/
def execMbWriteFirmwareSlot (host : BitVec 1) (arg0 dpa len : BitVec 64) (s : State) : Host.Outcome State Fault Refusal :=
  .next (s.mbHost host 4#64 arg0 dpa len)

/-- MB_DEVICE_RESET. -/
def execMbDeviceReset (host : BitVec 1) (s : State) : Host.Outcome State Fault Refusal :=
  .next (s.mbHost host 5#64 0#64 0#64 0#64)

/-- MB_RAISE_ANTIROLLBACK. -/
def execMbRaiseAntirollback (host : BitVec 1) (v : BitVec 64) (s : State) : Host.Outcome State Fault Refusal :=
  .next (s.mbHost host 6#64 v 0#64 0#64)

/-- MB_CAPACITY_SAVE. -/
def execMbCapacitySave (host : BitVec 1) (base : BitVec 64) (s : State) : Host.Outcome State Fault Refusal :=
  .next (s.mbHost host 8#64 base 0#64 0#64)

/-- MB_CAPACITY_RESTORE. -/
def execMbCapacityRestore (host : BitVec 1) (base : BitVec 64) (s : State) : Host.Outcome State Fault Refusal :=
  .next (s.mbHost host 9#64 base 0#64 0#64)

/-- MB_UNKNOWN_COMMAND: any other value returns status 5; a value that names a command performs it. -/
def execMbUnknownCommand (host : BitVec 1) (cmd : BitVec 64) (s : State) : Host.Outcome State Fault Refusal :=
  .next (s.mbHost host cmd 0#64 0#64 0#64)

/-! ### Functions that become ready (R406) -/

/-- What waited for a memory to be ready goes on: mailbox commands, a hand-over before an abandoned trial ends, and events. -/
def State.resumeStalled (s : State) : State :=
  let box (s : State) (h : BitVec 1) : State :=
    let cmd := s.sysW (mbOff h)
    if s.sysW (mbOff h + 32) = 1#64 && s.firm.save.isNone && s.mbReady h cmd.toNat then s.mbPerform h cmd.toNat else s
  let s1 := box (box s 0#1) 1#1
  let s2 := if s1.fwSt = 1 && s1.sysW fwOff = 4#64 && s1.handoverReady then s1.fwAbandonCmd else s1
  s2.flushEvents

/-- FUNCTION_READY (R406): bit `bit` of offset 8 becomes 1, but for a retired C-die, a function that has failed self-test,
and an Anole core without an image or halted. Whether self-test fails is open; a function that fails it is never ready. -/
def execFunctionReady (bit : Nat) (s : State) : Host.Outcome State Fault Refusal :=
  let ok := decide (bit < 56) && !(bitAt (s.sysW 24) bit) && !(decide (bit < 12) && s.rel.dieRetired bit) &&
    (if 40 ≤ bit then s.imageRuns && !(s.anoles.toList.getD (bit - 40) Anole.zero).halted else true)
  .next (if s.firm.boot && ok && !s.readyBit bit then
      (if Config.freeBool s.freeCtr then State.sysSetF { s with freeCtr := s.freeCtr + 1 } 24 bit 1 1
       else (State.sysSetF { s with freeCtr := s.freeCtr + 1 } 8 bit 1 1).resumeStalled)
    else s)

end Sys2Proof.Machine
end

