-- ==== Sys2Proof/Machine/Shootdown.lean ====
section
/-! DEFINITION. Shoot-downs (R338, R339): issue, acknowledgement at a quiescent point, completion in order, and the
return of page walks into TLBs (R335, R336, R339). -/

namespace Sys2Proof.Machine

/-! ### Shoot-downs -/

/-- `src` of the engine a TLB serves (R335). -/
def tlbSrc (i : Nat) : Nat := if i = 0 then 0 else if i < 3 then 1 else if i < 6 then 2 else 4

/-- A core acknowledges a shoot-down; started commands whose engine dropped an entry still hold it back. -/
def State.ackOne (s : State) (k : CoreRef) (d : Shootdown) : State :=
  match s.core? k with
  | none => s
  | some c =>
      let ts := s.tlbsOf c.phys
      let dropped := (ts.zipIdx.filter fun p => p.1.loses d).map fun p => tlbSrc p.2
      (s.setTlbs c.phys (ts.map fun t => t.drop d)).modCore k fun c =>
        { c with eng := { c.eng with cmds := c.eng.cmds.map fun m =>
            if m.state != .queued && dropped.contains (engineSrc m.op) then { m with stale := m.stale ++ [d.q] } else m } }

/-- SHOOTDOWN_ACKNOWLEDGE: at a quiescent point a core takes every shoot-down that waits for it, in order. -/
def State.ackShoots (s : State) (k : CoreRef) : State :=
  let mine := s.shoots.filter fun d => d.waiting.contains k
  let s1 := mine.foldl (fun t d => t.ackOne k d) s
  { s1 with shoots := s1.shoots.map fun d => { d with waiting := d.waiting.filter fun x => x != k } }

/-- The cores of running groups of a context. -/
def State.coresOf (s : State) (ctx : BitVec 6) : List CoreRef :=
  (s.launches.filter fun l => l.ctx == ctx && l.state.holds).flatMap fun l =>
    l.copies.flatMap fun cp => cp.cores.map fun c => { lid := l.lid, role := cp.role, rank := c.rank }

/-- Issue a shoot-down with the request in `CX.sdva`, `CX.sdall` and `CX.sdcnt` (R338 steps 1 and 2): TLBs without an
entry of the context, those of the Anole cores and those of cores that run no group of it take the number at once, without the entries
it covers. A core that must acknowledge it leaves WFE (R166). -/
def State.shootdown (s : State) (ctx : BitVec 6) : State :=
  let o := cxOff ctx
  let q := (s.sysF (o + 16) 0 32 + 1) % 2 ^ 32
  let cores := s.coresOf ctx
  let wait := cores.filter fun k => match s.core? k with
    | some c => (s.tlbsOf c.phys).any fun t => t.holds ctx
    | none => false
  let d : Shootdown :=
    { ctx := ctx, q := q, all := bitAt (s.sysW (o + 24)) 0, page := s.sysF (o + 24) 12 40 * 4096,
      pages := s.sysF (o + 32) 0 32, waiting := wait }
  let held := wait.filterMap fun k => (s.core? k).map fun c => c.phys
  let s1 := s.sysSetF (o + 16) 0 32 q
  let s2 := cores.foldl (fun t k => t.modCore k fun c => c.wake) s1
  { s2 with shoots := s2.shoots ++ [d],
            tlbs := s2.tlbs.map fun p => (p.1, p.2.map fun t => if held.contains p.1 && t.holds ctx then t else t.drop d) }

/-- Whether a command that was started with a dropped entry still runs. -/
def State.staleCmd (s : State) (ctx : BitVec 6) (q : Nat) : Bool :=
  s.launches.any fun l => l.ctx == ctx && l.copies.any fun cp => cp.cores.any fun c => c.eng.cmds.any fun m => m.stale.contains q

/-- SHOOTDOWN_COMPLETE: the oldest request of a context, once every TLB has taken it (R338 step 4). -/
def execShootdownComplete (ctx : BitVec 6) (s : State) : Host.Outcome State Fault Refusal :=
  .next (match s.shoots.find? fun d => d.ctx == ctx with
    | none => s
    | some d =>
        if d.waiting.isEmpty && !s.staleCmd ctx d.q then
          State.sysSetF { s with shoots := s.shoots.erase d } (cxOff ctx + 16) 32 32 d.q
        else s)

/-- A prefetch walk returns: what it found is filled, as it was read or as the tables stand now, freely where they differ; one that
recorded an earlier number than its TLB's is repeated (R339), one that met an invalid or bad entry fills nothing (R336). -/
def walkReturn (x : Walk) : Act Unit := do
  let s ← get
  let now := match (s.walk x.ctx x.part x.va).1 with
    | .leaf e => some e
    | .invalid => none
    | .poisoned _ _ => none
  let ts := s.tablesFrom x.ctx x.va 5 (s.cxRoot x.ctx)
  let n := (s.tlb x.owner x.tlb).taken x.ctx
  if x.num < n then
    set { s with walks := s.walks.map fun y => if y = x then { y with num := n, leaf := now, tables := ts } else y }
  else do
    let b ← (if x.leaf = now then pure false else chooseB : Act Bool)
    let (l, us) := if b then (x.leaf, x.tables) else (now, ts)
    modify fun s => { s with walks := s.walks.erase x }
    match l with
    | some e => modify fun s => s.modTlb x.owner x.tlb fun t => t.fill e us
    | none => pure ()

/-- PAGE_WALK_RETURN: the walk of a TLB for that page which recorded `num`. -/
def execPageWalkReturn (k : CoreRef) (tlb : Nat) (va : BitVec 64) (num : Nat) (s : State) : Host.Outcome State Fault Refusal :=
  .next (match s.core? k with
    | some c =>
        (match s.walks.find? fun x => x.owner == c.phys && x.tlb == tlb && x.va == va.toNat && x.num == num with
         | some x => runStep .none (walkReturn x) s
         | none => s)
    | none => s)

end Sys2Proof.Machine
end

