-- ==== Sys2Proof/Machine/SysWrite.lean ====
section
/-! DEFINITION. What a write of SYS space does (R387 and the rules each structure of Table 11-2 names): one function
per structure, then the steps that are such writes by a host function or an Anole core. -/

namespace Sys2Proof.Machine

/-- What comes of a write: it is performed (a write that the rules leave without effect included), or refused under
R7 (Illegal Encoding on an Anole core, dropped for a host). -/
inductive SysRes where
  | ok (s : State)
  | refused

/-- Whether all the listed bit ranges (low bit, count) of a word are zero. -/
def clearBits (w : Word) (rs : List (Nat × Nat)) : Bool := rs.all fun r => fieldNat w r.1 r.2 == 0

/-- `new` with some bit ranges as in `old` (fields written by the device). -/
def keepBits (old new : Word) (rs : List (Nat × Nat)) : Word := rs.foldl (fun w r => putField w r.1 r.2 (fieldNat old r.1 r.2)) new

/-- Store a word whose reserved ranges are zero; `ro` ranges keep their value. -/
def State.plainWord (s : State) (off : Nat) (v : Word) (res ro : List (Nat × Nat)) : SysRes :=
  if clearBits v res then .ok (s.sysPut off (keepBits (s.sysW off) v ro)) else .refused

/-- A word without a writable field. -/
def State.roWord (s : State) (v : Word) (res : List (Nat × Nat)) : SysRes := if clearBits v res then .ok s else .refused

/-! ### One structure each -/

/-- Status page (Table 11-8): `ST.node` (R397) and `PW.limit` (R409). -/
def State.wStatus (s : State) (off : Nat) (v : Word) : SysRes :=
  match off with
  | 0 => s.roWord v [(24, 40), (2, 6)]
  | 8 => s.roWord v [(56, 8)]
  | 16 =>
      if fieldNat v 32 32 ≠ 0 then .refused
      else if 3072 ≤ fieldNat v 0 12 then .ok s
      else .ok { s.sysSetF 16 0 12 (fieldNat v 0 12) with link := { s.link with nodeSet := true } }
  | 32 =>
      if fieldNat v 12 52 ≠ 0 then .refused
      else if fieldNat v 0 12 < 1800 || 2600 < fieldNat v 0 12 then .ok s
      else .ok (s.sysPut 32 v)
  | _ => .ok s

/-- Firmware control block (Table 11-7). `anole`: the writer is firmware. -/
def State.wFirm (s : State) (i : Nat) (v : Word) (anole : Bool) : SysRes :=
  match i with
  | 0 => if fieldNat v 8 56 ≠ 0 then .refused else .ok ((s.sysPut fwOff v).fwCommand v.toNat (BitVec.ofNat 1 (s.sysF (fwOff + 8) 0 1)))
  | 8 => s.plainWord (fwOff + 8) v [(1, 63)] []
  | 16 => s.roWord v [(16, 48)]
  | 40 => if anole && v != s.sysW (fwOff + 40) then .ok (s.sysPut (fwOff + 40) v).heartbeat else .ok s
  | 48 => s.plainWord (fwOff + 48) v [(0, 12), (48, 16)] []
  | _ => .ok s

/-- A management mailbox (R408). -/
def State.wMailbox (s : State) (h : BitVec 1) (i : Nat) (v : Word) : SysRes :=
  match i with
  | 0 => .ok (s.mbCommand h v)
  | 8 => s.plainWord (mbOff h + 8) v [] []
  | 16 => s.plainWord (mbOff h + 16) v [] []
  | 24 => s.plainWord (mbOff h + 24) v [] []
  | _ => .ok s

/-- Write `CX.state` and `CX.root` (R327, R328). -/
def State.wCxState (s : State) (c : BitVec 6) (v : Word) : SysRes :=
  if !clearBits v [(48, 16), (2, 5)] || fieldNat v 0 2 = 3 then .refused
  else if fieldNat v 0 2 = 2 && s.cxState c ≠ 2 then .ok ((s.sysPut (cxOff c) v).stopContext c)
  else .ok (s.sysPut (cxOff c) v)

/-- Context descriptor (Table 09-2). -/
def State.wContext (s : State) (c : BitVec 6) (i : Nat) (v : Word) : SysRes :=
  let o := cxOff c
  match i with
  | 0 => s.wCxState c v
  | 8 => s.plainWord (o + 8) v [(48, 16), (0, 12)] []
  | 24 => s.plainWord (o + 24) v [(52, 12), (1, 11)] []
  | 32 => if fieldNat v 32 32 ≠ 0 then .refused else .ok ((s.sysPut (o + 32) v).shootdown c)
  | 40 => s.plainWord (o + 40) v [(32, 32)] []
  | 48 =>
      let op := fieldNat v 61 3
      if 3 ≤ op || fieldNat v 48 13 ≠ 0 || (op ≠ 0 && fieldNat v 12 36 ≠ 0) then .refused
      else .ok ((s.sysPut (o + 48) v).vrCommand c op (fieldNat v 0 48))
  | 56 => s.roWord v [(8, 56)]
  | _ => .ok s

/-- Whether a partition has a launch beyond Queued and Waiting and short of Done. -/
def State.partBusy (s : State) (p : Nat) : Bool :=
  (s.launches.any fun l => l.part.toNat == p && l.state != .done) || s.placing.any fun x => (s.qPart x.queue).toNat == p

/-- Partition descriptor (R390). -/
def State.wPartition (s : State) (p i : Nat) (v : Word) : SysRes :=
  if i ≠ 0 then s.roWord v [(0, 64)]
  else if !clearBits v [(32, 32), (25, 6), (22, 2), (12, 4)] then .refused
  else if ((List.range 12).any fun q => q != p && s.ptEn q && (s.ptDies q &&& fieldNat v 0 12) != 0) || s.partBusy p then .ok s
  else .ok (s.sysPut (ptOff p) v)

/-- Partition binding block (Table 09-9). -/
def State.wBinding (s : State) (p i : Nat) (v : Word) : SysRes :=
  match i with
  | 0 => s.roWord v [(34, 30)]
  | 8 => s.plainWord (pbOff p + 8) v [(28, 36), (8, 8)] []
  | 16 => s.roWord v [(33, 31)]
  | _ => s.roWord v [(0, 64)]

/-- Reserved ranges of the KV header's words (Table 09-11). -/
def khRes : Nat → List (Nat × Nat)
  | 0 => [(48, 16), (0, 12)]
  | 8 => [(53, 11), (26, 6), (11, 5)]
  | 16 => [(48, 16), (0, 3)]
  | 32 => [(48, 16), (0, 3)]
  | 56 => [(2, 62)]
  | _ => []

/-- KV block-table header (R350). -/
def State.wKvHeader (s : State) (p i : Nat) (v : Word) : SysRes :=
  if !clearBits v (khRes i) then .refused
  else if i = 48 then (if s.khEn p then .refused else .ok s)
  else if s.khEn p && (i ≠ 56 || bitAt v 1 != s.khApro p) then .refused
  else if i = 8 && (fieldNat v 0 11 = 0 || 1024 < fieldNat v 0 11) then .refused
  else .ok (s.sysPut (khOff p + i) v)

/-- Breakpoint register (R393). A write before the resolve ends the suppression at that address (R394). -/
def State.wBreakpoint (s : State) (c : BitVec 6) (i : Nat) (v : Word) : SysRes :=
  if !clearBits v [(52, 11), (0, 2)] then .refused
  else
    (let old : Word := BitVec.ofNat 64 (s.sysF (bpOff c i) 0 52)
     let s1 := s.sysPut (bpOff c i) v
     .ok { s1 with launches := s1.launches.map fun l =>
       if l.ctx == c && l.state == .parked && (match l.cause with | some (0x18, _) => true | _ => false) then
         l.mapCores fun k => { k with breaks := k.breaks.filter fun b => b.va != old }
       else l })

/-- Fault-queue descriptor (Table 11-4). -/
def State.wFaultQueue (s : State) (h : BitVec 1) (i : Nat) (v : Word) : SysRes :=
  match i with
  | 0 => if fieldNat v 48 16 ≠ 0 || fieldNat v 0 5 < 4 || 16 < fieldNat v 0 5 then .refused else .ok (s.sysPut (fqOff h) v).flushEvents
  | 8 => .ok s
  | 16 => if (s.sysW (fqOff h + 8)).toNat < v.toNat then .ok s else .ok (s.sysPut (fqOff h + 16) v).flushEvents
  | 24 => if fieldNat v 12 52 ≠ 0 then .refused else .ok (s.sysPut (fqOff h + 24) v).flushEvents
  | 32 => s.roWord v [(32, 32)]
  | _ => s.roWord v [(0, 64)]

/-- Anole core registers (R396). -/
def State.wAnole (s : State) (a : BitVec 4) (i : Nat) (v : Word) : SysRes :=
  match i with
  | 0 => s.plainWord (anOff a) v [(0, 2)] []
  | 8 => s.plainWord (anOff a + 8) v [] []
  | 16 => s.plainWord (anOff a + 16) v [(0, 1), (8, 56)] []
  | 24 => s.plainWord (anOff a + 24) v [(9, 55)] []
  | 32 => s.plainWord (anOff a + 32) v [] []
  | _ => s.roWord v [(0, 64)]

/-- Create a queue that is destroyed (Table 07-2); an illegal configuration is refused. -/
def State.wQueueCreate (s : State) (q : BitVec 12) (ring cfg cring : Word) : SysRes :=
  if fieldNat ring 0 12 ≠ 0 || fieldNat cring 0 5 ≠ 0 || !qConfigOk cfg then .refused
  else if s.qState q ≠ 0 then .ok (s.notListed q)
  else .ok (s.createQueue q ring cfg cring)

/-- Restart a stopped queue. -/
def State.qRestart (s : State) (q : BitVec 12) : State := if s.qState q = 3 then s.qSetState q 1 else s.notListed q
/-- Destroy a queue that is not destroyed. -/
def State.qDestroy (s : State) (q : BitVec 12) : State := if s.qState q = 0 then s.notListed q else s.destroyQueue q

/-- Clear the error bits written as 0 (R271). -/
def State.qClearErr (s : State) (q : BitVec 12) (v : Word) : SysRes :=
  if fieldNat v 5 59 ≠ 0 then .refused else .ok (s.sysPut (qdOff q + 48) (s.sysW (qdOff q + 48) &&& v))

/-- Launch queue descriptor (Table 07-1). A new value of `QD.state` asks for the transition to it. -/
def State.wQueue (s : State) (q : BitVec 12) (i : Nat) (v : Word) : SysRes :=
  let o := qdOff q
  match i with
  | 0 => s.plainWord o v [(0, 12)] []
  | 8 =>
      let st := s.qState q
      let want := fieldNat v 28 2
      if !clearBits v [(40, 8), (5, 13)] then .refused
      else if want = st then .ok (s.sysPut (o + 8) (keepBits (s.sysW (o + 8)) v [(48, 16)]))
      else if want = 0 then .ok (s.qDestroy q)
      else if want = 1 && st = 0 then s.wQueueCreate q (s.sysW o) v (s.sysW (o + 40))
      else if want = 1 && st = 3 then .ok (s.qRestart q)
      else .ok (s.notListed q)
  | 16 => .ok (s.setClaim q v.toNat)
  | 24 => .ok (s.setWrite q v.toNat)
  | 32 => if v = s.sysW (o + 32) then .ok s else .ok (s.indexFault q)
  | 40 => s.plainWord (o + 40) v [(0, 5)] []
  | 48 => s.qClearErr q v
  | _ => .ok (s.setCack q v.toNat)

/-- Remote-master slot (R388): two valid slots never name one pair. -/
def State.wRemote (s : State) (i : BitVec 6) (v : Word) : SysRes :=
  let dup := (List.range 64).any fun j =>
    let w := s.sysW (rmOff (BitVec.ofNat 6 j))
    j != i.toNat && bitAt w 63 && fieldNat w 16 12 == fieldNat v 16 12 && fieldNat w 0 4 == fieldNat v 0 4
  if !clearBits v [(28, 35), (4, 12)] || (bitAt v 63 && dup) then .refused else .ok (s.sysPut (rmOff i) v)

/-- Access tables (R389): bytes with [7:5] zero; byte 44 keeps its value, the bytes of the reserved masters 45 to 63
stay zero. -/
def State.wAccess (s : State) (off : Nat) (v : Word) : SysRes :=
  if !isAccessOff off then .ok s
  else if (List.range 8).any fun i => fieldNat v (8 * i + 5) 3 != 0 then .refused
  else if (List.range 8).any fun i => decide (45 ≤ (off + i) % 128) && decide ((off + i) % 128 ≤ 63) && fieldNat v (8 * i) 8 != 0 then .refused
  else .ok (s.sysPut off (if off % 128 = 40 then keepBits (s.sysW off) v [(32, 8)] else v))

/-- Perform a write of the 8-byte word at `off` (a multiple of 8). -/
def State.sysWord (s : State) (off : Nat) (v : Word) (anole : Bool) : SysRes :=
  if off < 0x1000 then s.wStatus off v
  else if off < 0x2000 then s.wFirm (off - 0x1000) v anole
  else if off < 0x3000 then s.wMailbox 0#1 (off - 0x2000) v
  else if off < 0x4000 then s.wMailbox 1#1 (off - 0x3000) v
  else if off < 0x10000 then .ok s
  else if off < 0x11000 then s.wContext (BitVec.ofNat 6 ((off - 0x10000) / 64)) (off % 64) v
  else if off < 0x11300 then s.wPartition ((off - 0x11000) / 64) (off % 64) v
  else if off < 0x12000 then .ok s
  else if off < 0x12180 then s.wBinding ((off - 0x12000) / 32) (off % 32) v
  else if off < 0x13000 then .ok s
  else if off < 0x13300 then s.wKvHeader ((off - 0x13000) / 64) (off % 64) v
  else if off < 0x14000 then .ok s
  else if off < 0x15000 then s.wBreakpoint (BitVec.ofNat 6 ((off - 0x14000) / 64)) (off % 64 / 8) v
  else if off < 0x15100 then s.plainWord off v [(48, 16), (0, 36)] []
  else if off < 0x18000 then .ok s
  else if off < 0x18080 then s.wFaultQueue (BitVec.ofNat 1 ((off - 0x18000) / 64)) (off % 64) v
  else if off < 0x20000 then .ok s
  else if off < 0x21000 then s.wAnole (BitVec.ofNat 4 ((off - 0x20000) / 256)) (off % 256) v
  else if off < 0x100000 then .ok s
  else if off < 0x140000 then s.wQueue (BitVec.ofNat 12 ((off - 0x100000) / 64)) (off % 64) v
  else if off < 0x148000 then s.plainWord off v [(17, 47)] []
  else if off < 0x150000 then .ok s
  else if off < 0x158000 then s.plainWord off v [(44, 4), (16, 16)] []
  else if off < 0x160000 then .ok s
  else if off < 0x164000 then s.plainWord off v [(18, 14), (50, 14)] []
  else if off < 0x170000 then .ok s
  else if off < 0x170200 then s.wRemote (BitVec.ofNat 6 ((off - 0x170000) / 8)) v
  else if off < 0x1000000 then .ok s
  else s.wAccess off v

/-- Perform a write of `n` bytes (1, 2, 4 or 8, aligned) at `off`: the other bytes of the word keep their value. Bits
of `QD.err` outside the bytes written are kept, and `ST.node` is written only by a write of its own bytes (R397). -/
def State.sysStore (s : State) (off n : Nat) (v : Word) (anole : Bool) : SysRes :=
  match s.sysWord (off / 8 * 8) (putField (s.sysW off) (off % 8 * 8) (8 * n) v.toNat) anole with
  | .ok t => if off / 8 = 2 && 2 ≤ off % 8 then .ok { t with link := { t.link with nodeSet := s.link.nodeSet } } else .ok t
  | .refused => .refused

/-! ### Who may write (R389) -/

/-- Whether a master reaches a SYS offset: the page's byte; beyond 0x0100_0000 only the Anole cores and the PFs. -/
def State.sysRight (s : State) (m off : Nat) (r : Right) : Bool :=
  if off < 0x01000000 then s.right 0x01300000 (off / 4096) m r else m = 44 || m = 0 || m = 16

/-- The queue target of a write of `QD.claim` or `QD.write` (Table 11-3). -/
def State.claimRight (s : State) (m off : Nat) : Bool :=
  if 0x100000 ≤ off && off < 0x140000 && (off % 64 / 8 = 2 || off % 64 / 8 = 3) then
    s.right 0x01280000 ((off - 0x100000) / 64) m .enqueue
  else true

/-- A SYS write by a host function or the Anole cores as an input of the device: a host's refused access is counted
(R386), a write refused under R7 is dropped; other masters have no access. A host's earlier writes are performed first (R322). -/
def State.outsideSys (s : State) (m : BitVec 7) (off n : Nat) (v : Word) : State :=
  if m.toNat < 32 then
    (let s := s.settleLag [hostAgent m.toNat]
     if s.sysRight m.toNat off .write && s.claimRight m.toNat off then
       (match s.sysStore off n v false with
        | .ok s' => s'
        | .refused => s)
     else s.refuse (BitVec.ofNat 1 (m.toNat / 16)))
  else if m.toNat = 44 then
    (match s.sysStore off n v true with
     | .ok s' => s'
     | .refused => s)
  else s

/-! ### The steps -/

/-- QUEUE_CLAIM (R272 step 1): an atomic fetch-and-add of 1. -/
def execQueueClaim (q : BitVec 12) (m : BitVec 7) (s : State) : Host.Outcome State Fault Refusal :=
  .next (s.outsideSys m (qdOff q + 16) 8 (s.sysW (qdOff q + 16) + 1#64))

/-- QUEUE_WRITE_INDEX_UPDATE (R272 step 3): a compare-and-swap. -/
def execQueueWriteIndexUpdate (q : BitVec 12) (m : BitVec 7) (old new : BitVec 64) (s : State) : Host.Outcome State Fault Refusal :=
  .next (if s.sysW (qdOff q + 24) = old then s.outsideSys m (qdOff q + 24) 8 new else s)

/-- QUEUE_COMPLETION_ACK (R273). -/
def execQueueCompletionAck (q : BitVec 12) (m : BitVec 7) (v : BitVec 64) (s : State) : Host.Outcome State Fault Refusal :=
  .next (s.outsideSys m (qdOff q + 56) 8 v)

/-- QUEUE_ERROR_WRITE (R271). -/
def execQueueErrorWrite (q : BitVec 12) (m : BitVec 7) (v : BitVec 64) (s : State) : Host.Outcome State Fault Refusal :=
  .next (s.outsideSys m (qdOff q + 48) 8 v)

/-- QUEUE_CREATE (R274): ring and completion ring written, then the configuration with `QD.state` 1. -/
def execQueueCreate (q : BitVec 12) (m : BitVec 7) (d : QueueSpec) (s : State) : Host.Outcome State Fault Refusal :=
  .next (if s.qState q = 0 then
      ((s.outsideSys m (qdOff q) 8 d.ring).outsideSys m (qdOff q + 40) 8 d.cring).outsideSys m (qdOff q + 8) 8 (putField d.cfg 28 2 1)
    else if s.sysRight m.toNat (qdOff q) .write then s.notListed q
    else s.outsideSys m (qdOff q) 8 d.ring)

/-- The configuration word of a queue with another state, as a write of it. -/
def State.qWord (s : State) (q : BitVec 12) (st : Nat) : Word := putField (s.sysW (qdOff q + 8)) 28 2 st

/-- QUEUE_RESTART (R274): listed for a stopped queue only. -/
def execQueueRestart (q : BitVec 12) (m : BitVec 7) (s : State) : Host.Outcome State Fault Refusal :=
  .next (if s.qState q = 3 then s.outsideSys m (qdOff q + 8) 8 (s.qWord q 1)
         else if s.sysRight m.toNat (qdOff q) .write then s.notListed q
         else s.outsideSys m (qdOff q) 8 0#64)

/-- QUEUE_DESTROY (R274). -/
def execQueueDestroy (q : BitVec 12) (m : BitVec 7) (s : State) : Host.Outcome State Fault Refusal :=
  .next (if s.qState q = 0 then (if s.sysRight m.toNat (qdOff q) .write then s.notListed q else s)
         else s.outsideSys m (qdOff q + 8) 8 (s.qWord q 0))

/-- QUEUE_PARK (R274): the firmware parks an active queue that has been idle for 1 s; its ring moves to the capacity tier. -/
def execQueuePark (q : BitVec 12) (s : State) : Host.Outcome State Fault Refusal :=
  .next (if s.qState q = 1 && s.fwServes && s.qClaim q == s.qWrite q && s.qWrite q == s.qRead q &&
            !(s.launches.any fun l => l.queue == q && l.state != .done) && !(s.placing.any fun p => p.queue == q) &&
            decide ((s.aux q).idle + Config.parkCc ≤ s.cc) && s.dpaReady (s.qRing q) && s.dpaReady (parkAt q)
         then s.parkQueue q else s)

/-- DEPENDENCE_COUNTER_WRITE (R278). -/
def execDependenceCounterWrite (c : BitVec 12) (m : BitVec 7) (v : BitVec 64) (s : State) : Host.Outcome State Fault Refusal :=
  .next (s.outsideSys m (dcOff c) 8 v)

/-- SHOOTDOWN_ISSUE (R338). -/
def execShootdownIssue (ctx : BitVec 6) (m : BitVec 7) (cnt : BitVec 64) (s : State) : Host.Outcome State Fault Refusal :=
  .next (s.outsideSys m (cxOff ctx + 32) 8 cnt)

/-- CONTEXT_STATE_WRITE (R327, R328): word 0 of a context descriptor. -/
def execContextStateWrite (ctx : BitVec 6) (m : BitVec 7) (v : BitVec 64) (s : State) : Host.Outcome State Fault Refusal :=
  .next (s.outsideSys m (cxOff ctx) 8 v)

/-- CONTEXT_RESOLVE_WRITE (R340). -/
def execContextResolveWrite (ctx : BitVec 6) (m : BitVec 7) (v : BitVec 64) (s : State) : Host.Outcome State Fault Refusal :=
  .next (s.outsideSys m (cxOff ctx + 40) 8 v)

/-- VR_CREATE (R344). -/
def execVrCreate (ctx : BitVec 6) (m : BitVec 7) (decl : BitVec 48) (s : State) : Host.Outcome State Fault Refusal :=
  .next (s.outsideSys m (cxOff ctx + 48) 8 (decl.setWidth 64))

/-- VR_DESTROY (R344). -/
def execVrDestroy (ctx : BitVec 6) (m : BitVec 7) (arg : BitVec 48) (s : State) : Host.Outcome State Fault Refusal :=
  .next (s.outsideSys m (cxOff ctx + 48) 8 (arg.setWidth 64 ||| 0x2000000000000000#64))

/-- VR_ABANDON (R344). -/
def execVrAbandon (ctx : BitVec 6) (m : BitVec 7) (arg : BitVec 48) (s : State) : Host.Outcome State Fault Refusal :=
  .next (s.outsideSys m (cxOff ctx + 48) 8 (arg.setWidth 64 ||| 0x4000000000000000#64))

/-- KV_HEADER_WRITE (R350): word `word` of a partition's header. -/
def execKvHeaderWrite (part : BitVec 4) (m : BitVec 7) (word : BitVec 3) (v : BitVec 64) (s : State) : Host.Outcome State Fault Refusal :=
  .next (if part.toNat < 12 then s.outsideSys m (khOff part.toNat + 8 * word.toNat) 8 v else s)

/-- PARTITION_DESCRIPTOR_WRITE (R390). -/
def execPartitionDescriptorWrite (part : BitVec 4) (m : BitVec 7) (v : BitVec 64) (s : State) : Host.Outcome State Fault Refusal :=
  .next (if part.toNat < 12 then s.outsideSys m (ptOff part.toNat) 8 v else s)

/-- REMOTE_MASTER_WRITE (R388). -/
def execRemoteMasterWrite (slot : BitVec 6) (m : BitVec 7) (v : BitVec 64) (s : State) : Host.Outcome State Fault Refusal :=
  .next (s.outsideSys m (rmOff slot) 8 v)

/-- BREAKPOINT_WRITE (R393). -/
def execBreakpointWrite (ctx : BitVec 6) (i : BitVec 3) (m : BitVec 7) (v : BitVec 64) (s : State) : Host.Outcome State Fault Refusal :=
  .next (s.outsideSys m (bpOff ctx i.toNat) 8 v)

/-- FAULT_QUEUE_DESCRIPTOR_WRITE (R395). -/
def execFaultQueueDescriptorWrite (host : BitVec 1) (m : BitVec 7) (word : BitVec 3) (v : BitVec 64) (s : State) :
    Host.Outcome State Fault Refusal :=
  .next (s.outsideSys m (fqOff host + 8 * word.toNat) 8 v)

/-- FAULT_QUEUE_READ_WRITE (R395). -/
def execFaultQueueReadWrite (host : BitVec 1) (m : BitVec 7) (v : BitVec 64) (s : State) : Host.Outcome State Fault Refusal :=
  .next (s.outsideSys m (fqOff host + 16) 8 v)

/-- NODE_ID_WRITE (R397): a two-byte write of the low half of word 16. -/
def execNodeIdWrite (m : BitVec 7) (v : BitVec 12) (s : State) : Host.Outcome State Fault Refusal :=
  .next (s.outsideSys m 16 2 (v.setWidth 64))

/-- POWER_LIMIT_WRITE (R409). -/
def execPowerLimitWrite (m : BitVec 7) (v : BitVec 12) (s : State) : Host.Outcome State Fault Refusal :=
  .next (s.outsideSys m 32 8 (v.setWidth 64))

/-- SYS_REGISTER_WRITE (R7, R387): an aligned write of 1, 2, 4 or 8 bytes; BAR 0 reaches the first 32 MiB. -/
def execSysRegisterWrite (m : BitVec 7) (off : BitVec 32) (size : BitVec 2) (v : BitVec 64) (s : State) :
    Host.Outcome State Fault Refusal :=
  let n := 2 ^ size.toNat
  .next (if off.toNat % n ≠ 0 || (m.toNat < 32 && 0x02000000 ≤ off.toNat) then s else s.outsideSys m off.toNat n v)

end Sys2Proof.Machine
end

