-- ==== Sys2Proof/Machine/MemInstr.lean ====
section
/-! DEFINITION. LD, ST (R122 to R125), the atomics (R126 to R128, R318, R319) and FENCE (R129), on control cores and on
Anole cores (R396). -/

namespace Sys2Proof.Machine

/-! ### Anole cores (R396) -/

/-- Where an access of an Anole core goes. -/
inductive AnLoc where
  | mem (dpa : Nat)
  | cwn (die off : Nat)
  | sys (off : Nat)
deriving DecidableEq, Repr

/-- Steps 1 to 4 of R124 for an Anole core: VIRT is the DPA; scratchpads, ACC and VIM hold no grant. -/
def anCheck (p : Word) (n align : Nat) (k : Kind) : Except Trap AnLoc :=
  let t (code : Nat) : Trap := { Trap.mk' code p with acc := k.code }
  let off := ptrOff p
  let go (o : Nat) (x : AnLoc) : Except Trap AnLoc := if o % align ≠ 0 then .error (t 0x03) else .ok x
  match ptrSpace p with
  | 0 => if fieldNat p 48 12 = 0 && rangeOk off n then go off (.mem off) else .error (t 0x04)
  | 6 => if ptrOwner p < 2 && off + n ≤ 0x200000 then go off (.cwn (ptrOwner p) off) else .error (t 0x04)
  | 8 =>
      if ptrOwner p = 0 && off + n ≤ 0x100000000 then
        (if off % align ≠ 0 then .error (t 0x03) else if k = .atomic then .error (t 0x05) else .ok (.sys off))
      else .error (t 0x04)
  | _ => .error (t 0x04)

/-- Bytes of released writes to a host that are still on their way are overtaken by a later access of the device that writes them: what
the host sees of them last is that one's (R305, R323). -/
def State.overtake (s : State) (dpa n : Nat) : State :=
  if s.host.writes.isEmpty then s
  else
    (let mask (h : HostWrite) : BitVec 64 := (List.range 64).foldl (fun m i =>
       if dpa ≤ h.dpa + i && h.dpa + i < dpa + n then m &&& ~~~(1#64 <<< i) else m) h.mask
     { s with host := { s.host with writes := (s.host.writes.map fun h => { h with mask := mask h }).filter fun h => h.mask != 0#64 } })

/-- The storage of one side of the coherent window. -/
def State.cwn (s : State) (die : Nat) : Store := if die = 0 then s.cwnN else s.cwnS
/-- Write bytes of the coherent window. -/
def State.cwnPut (s : State) (die off : Nat) (bs : List Byte) : State :=
  if die = 0 then { s with cwnN := s.cwnN.put off bs } else { s with cwnS := s.cwnS.put off bs }

/-- The current Anole core as an agent of durable memory (R307). -/
def State.anAgent (s : State) : Nat :=
  match s.cur with
  | .anole a => anoleAgent a.toNat
  | .core _ => anoleAgent 0
  | .vec _ => anoleAgent 0
  | .none => anoleAgent 0

/-- A read by an Anole core. -/
def anRead (p : Word) (n align : Nat) (k : Kind) : Act (List Byte) := do
  let x ← orRaise (anCheck p n align k)
  let s ← get
  match x with
  | .mem d => do
      holdIf (!s.dpaReady d)
      raiseIf (s.dram.badIn d n) (Trap.mk' 0x10 p)
      lagBytes s.anAgent d n
  | .cwn die off => do
      raiseIf ((s.cwn die).badIn off n) (Trap.mk' 0x10 p)
      pure ((s.cwn die).bytes off n)
  | .sys off => pure (natLe n (fieldNat (s.sysW off) (off % 8 * 8) (8 * n)))

/-- A store by an Anole core: not held (R396). -/
def anWrite (p : Word) (bs : List Byte) (align : Nat) : Act Unit := do
  let n := bs.length
  let x ← orRaise (anCheck p n align .write)
  let s ← get
  match x with
  | .mem d => do
      holdIf (!s.dpaReady d)
      raiseIf (s.dram.partBad d n) (Trap.mk' 0x10 p)
      set ((s.overtake d n).outsideLag [s.anAgent] false d bs)
  | .cwn die off => do
      raiseIf ((s.cwn die).partBad off n) (Trap.mk' 0x10 p)
      set (s.cwnPut die off bs)
  | .sys off =>
      match s.sysStore off n (BitVec.ofNat 64 (leNat bs)) true with
      | .ok s' => set s'
      | .refused => raiseC 0x01 p

/-! ### Loads and stores -/

/-- The address of form SM (R122). -/
def smAddr (r : Regs) (a : BitVec 6) (z : BitVec 2) (o : BitVec 8) : Word :=
  tagAdd (r.get a) (o.signExtend 64 * BitVec.ofNat 64 (2 ^ z.toNat))

/-- A load of the current agent. -/
def loadBytes (p : Word) (n align : Nat) : Act (List Byte) := do
  let s ← get
  match s.cur with
  | .anole _ => anRead p n align .read
  | _ => do
      let (k, _, _, _) ← theCore
      ctlRead k p n align

/-- A store of the current agent of bytes computed before. `o` is the descriptor of the commit point that a store to the
coherent window is (R42, R123). -/
def storeBytes (p : Word) (bs : List Byte) (align : Nat) (o : OpDesc) : Act Unit := do
  let s ← get
  match s.cur with
  | .anole _ => anWrite p bs align
  | _ => do
      let (k, _, _, _) ← theCore
      let x ← checkPtr (ctlAcc k) p bs.length align .write
      match x with
      | .cwn die off => do
          let _ ← resolve (ctlAcc k) x bs.length .write []
          raiseIf ((s.cwn die).partBad off bs.length) { Trap.mk' 0x10 p with durable := true }
          let _ ← commitPoint k o (do
            modify fun s => s.cwnPut die off bs
            pure (0#64, 0#64, []))
          pure ()
      | _ => ctlStore k x bs .write

/-- LD (R122). -/
def execLd (d a : BitVec 6) (g : BitVec 4) (z : BitVec 2) (o : BitVec 8) (s : State) : Host.Outcome State Fault Refusal :=
  scalar g 4 s fun r => do
    let bs ← loadBytes (smAddr r a z o) (2 ^ z.toNat) (2 ^ z.toNat)
    setX d (BitVec.ofNat 64 (leNat bs))
    pure .adv

/-- ST (R122). -/
def execSt (r a : BitVec 6) (g : BitVec 4) (z : BitVec 2) (o : BitVec 8) (s : State) : Host.Outcome State Fault Refusal :=
  scalar g 4 s fun rg => do
    let v := rg.get r
    storeBytes (smAddr rg a z o) (natLe (2 ^ z.toNat) v.toNat) (2 ^ z.toNat) { op := 5, w1 := rg.get a, w2 := v, w3 := 0#64 }
    pure .adv

/-! ### Atomics -/

/-- The operations of Table 02-4. -/
inductive AmoOp where
  | add | and | or | xor | min | max | minn | maxn | xchg | cas | faddF32 | faddBf16
deriving DecidableEq, Repr

/-- Code of an operation on the link: its `aop`, and its size code. -/
def AmoOp.code : AmoOp → Nat
  | .add => 0 | .and => 1 | .or => 2 | .xor => 3 | .min => 4 | .max => 5 | .minn => 6 | .maxn => 7 | .xchg => 8 | .cas => 9
  | .faddF32 => 10 | .faddBf16 => 11

/-- The operation of a code. -/
def amoOfCode : Nat → Option AmoOp
  | 0 => some .add | 1 => some .and | 2 => some .or | 3 => some .xor | 4 => some .min | 5 => some .max | 6 => some .minn
  | 7 => some .maxn | 8 => some .xchg | 9 => some .cas | 10 => some .faddF32 | 11 => some .faddBf16 | _ => none

/-- The new value of R126 on `n` bytes: old value, operand, compare value. -/
def amoNew (op : AmoOp) (n old opnd cmp : Nat) : Nat :=
  let m := 2 ^ (8 * n)
  let sg := toSigned (8 * n)
  match op with
  | .add => (old + opnd) % m
  | .and => old &&& opnd
  | .or => old ||| opnd
  | .xor => old ^^^ opnd
  | .min => if sg old ≤ sg opnd then old else opnd
  | .max => if sg opnd ≤ sg old then old else opnd
  | .minn => if old ≤ opnd then old else opnd
  | .maxn => if opnd ≤ old then old else opnd
  | .xchg => opnd
  | .cas => if old = cmp then opnd else old
  | .faddF32 => (fmtF32.add old opnd).1
  | .faddBf16 => (fmtBF16.add (old % 65536) (opnd % 65536)).1 + 65536 * (fmtBF16.add (old / 65536) (opnd / 65536)).1

/-- One atomic: operation, width in bytes, operand and compare value of that width. -/
structure Amo where
  op : AmoOp
  n : Nat
  opnd : Nat
  cmp : Nat
deriving DecidableEq, Repr

/-- Bytes after the atomic, from the bytes before. -/
def Amo.apply (x : Amo) (old : List Byte) : List Byte := natLe x.n (amoNew x.op x.n (leNat old) x.opnd x.cmp)

/-- Host memory takes ADD, XCHG and CAS on 4 and 8 bytes only (R318). -/
def Amo.hostOk (x : Amo) : Bool := (x.op == .add || x.op == .xchg || x.op == .cas) && x.n ≤ 8

/-- The payload of a link atomic (log entry 41): operation, width, operand, compare value. -/
def Amo.payload (x : Amo) : List Byte := natLe 4 x.op.code ++ natLe 4 x.n ++ natLe 16 x.opnd ++ natLe 16 x.cmp

/-- Read it back at the home. -/
def amoOfPayload (bs : List Byte) : Option Amo :=
  (amoOfCode (leNat (bs.take 4))).map fun op =>
    let n := leNat ((bs.drop 4).take 4)
    { op := op, n := n, opnd := leNat ((bs.drop 8).take 16) % 2 ^ (8 * n), cmp := leNat ((bs.drop 24).take 16) % 2 ^ (8 * n) }

/-- Two words of an old value of up to 16 bytes. -/
def oldWords (bs : List Byte) : Word × Word := (BitVec.ofNat 64 (leNat (bs.take 8)), BitVec.ofNat 64 (leNat (bs.drop 8)))

/-- Perform an atomic on local device memory at its home: the old bytes, and the state after. The agents `ws`, which are the one that
performs it, see its write at once, the others later (R306, R308); with `bind` (.ACQ) what they write next is not seen without it. -/
def State.amoAt (s : State) (x : Amo) (d : Nat) (ws : List Nat) (bind : Bool) : List Byte × State :=
  let old := s.dpaBytes d x.n
  (old, (s.overtake d x.n).outsideLag ws bind d (x.apply old))

/-- The scope an AMO orders (R128), as a number in the order of Table 08-2. -/
def amoScope (c : Core) (node : Option (BitVec 12)) (x : Loc) : Nat :=
  match x with
  | .pad (.usp r) _ => if r = c.rank then 0 else 2
  | .pad (.cls _) _ => 1
  | .pad (.dsp _) _ => 2
  | .virt _ _ d => if node.isSome then 4 else if d / 2 ^ 44 = 2 || d / 2 ^ 44 = 3 then 5 else 3
  | .cwn _ _ => 5
  | .acc _ => 0
  | .vim _ _ => 0
  | .sys _ => 0

/-- Number of a scope. -/
def scopeNum : Scope → Nat
  | .unit => 0 | .cluster => 1 | .die => 2 | .device => 3 | .domain => 4 | .host => 5

/-- Every earlier store of a core's control core is performed at a scope; for domain scope also the stores to other nodes
that its commit points released (R129, R320). Beyond device scope a scratchpad has no further observers. -/
def State.settledAt (s : State) (k : CoreRef) (cp : Copy) (c : Core) (sc : Nat) : Bool :=
  c.port.isEmpty && (cp.home.all fun h => h.writer != c.rank || h.cmd.isSome || min sc 3 ≤ scopeNum h.scope) &&
    (sc < 4 || !(s.link.reqs.any fun r => r.op == 2#6 && r.lid == k.lid && r.rank == k.rank))

/-- The agents of durable memory within a scope of a core of a launch (Table 08-2). -/
def State.scopeAgents (s : State) (k : CoreRef) (sc : Nat) : List Nat :=
  match s.launch? k.lid, s.copy? k with
  | some l, some cp =>
      (cp.cores.filter fun c => c.rank == k.rank || (sc == 1 && c.rank / 4 == k.rank / 4) ||
        (sc == 2 && rankChip l.packet.w c.rank == rankChip l.packet.w k.rank)).flatMap fun c => s.agentsOf (atRank k c.rank)
  | _, _ => []

/-- What a core wrote to durable memory itself, and what it observed there, is performed at a scope (R128, R129). -/
def State.fenceLags (s : State) (k : CoreRef) (sc : Nat) : State :=
  if 3 ≤ sc then s.settleOwn (s.agentsOf k) else s.bindLags (s.agentsOf k) (s.scopeAgents k sc)

/-- The last byte in location order at a scratchpad address, and the number of the store that it is (R305). -/
def Copy.lastByte (cp : Copy) (p : PadId) (off : Nat) : Option Nat × Byte :=
  match (cp.home.filter fun h => h.covers p off).getLast? with
  | some h => (some h.id, h.data.getD (off - h.off) 0#8)
  | none => (none, ((cp.pad? p).map fun q => q.mem.get off).getD 0#8)

/-- The bytes that an AMO finds at a scratchpad bank. -/
def Copy.lastBytes (cp : Copy) (p : PadId) (off n : Nat) : List Byte := (List.range n).map fun i => (cp.lastByte p (off + i)).2

/-- A core of a copy observes the stores of those numbers. -/
def observeAll (k : CoreRef) (ids : List Nat) : Act Unit := modify fun s => ids.foldl (fun t i => t.observe k i) s

/-- An AMO's write at a scratchpad bank (R308): last in location order, seen by its own core; the store whose value it read is
observed. -/
def amoBank (k : CoreRef) (p : PadId) (off : Nat) (old bs : List Byte) (acq : Bool) : Act Unit := do
  let (_, cp, _) ← ctxOf k
  observeAll k (((List.range old.length).filterMap fun i => (cp.lastByte p (off + i)).1).eraseDups)
  storeRaces k (.pad p off) bs.length
  modify fun s => s.modCopy k fun c => { c with stores := c.stores + 1 }
  performPad k { id := cp.stores, writer := k.rank, pad := p, off := off, data := bs, scope := .unit,
                 readBy := if acq then [(k.rank, cp.stores + 1)] else [] } (0, 0)

/-- Whether a store of a core's own port to some bytes has not reached its home: accesses of one core to one location keep their
order (R309). -/
def Core.portTouches (c : Core) (p : PadId) (off n : Nat) : Bool :=
  c.port.any fun h => h.pad == p && h.off < off + n && off < h.off + h.data.length

/-- An AMO to a scratchpad (R123, R127): at the bank, or in class D, unless it is the core's own unit scratchpad, as a
commit point that writes both copies' locations; a replay writes the value that follows from the logged old one. -/
def amoPadAct (k : CoreRef) (x : Amo) (acq : Bool) (o : OpDesc) (p : PadId) (off : Nat) : Act (Word × Word) := do
  let s ← get
  let (l, cp, c) ← ctxOf k
  let trapOf := badTrap s (ctlAcc k) cp c (.pad p off) x.n .atomic none
  raiseIf trapOf.isSome (trapOf.getD (Trap.mk' 0x10))
  holdIf (c.portTouches p off x.n)
  if l.packet.prot = 2 && p != .usp c.rank then do
    let (lo, hi, _) ← commitPoint k o (do
      let (_, cp, _) ← ctxOf k
      let (lo, hi) := oldWords (cp.lastBytes p off x.n)
      pure (lo, hi, []))
    let before := (natLe 8 lo.toNat ++ natLe 8 hi.toNat).take x.n
    amoBank k p off before (x.apply before) acq
    pure (lo, hi)
  else do
    let old := cp.lastBytes p off x.n
    amoBank k p off old (x.apply old) acq
    pure (oldWords old)

/-- An AMO to VIRT at its home (R127, R318): the perform of its commit point. -/
def amoHome (k : CoreRef) (x : Amo) (acq : Bool) (p : Word) (node : Option (BitVec 12)) (d : Nat) : Act (Word × Word × List (BitVec 32)) := do
  let s ← get
  match node with
  | none => do
      holdIf (!s.dpaReady d)
      raiseIf (s.dram.badIn d x.n) { Trap.mk' 0x10 p with durable := true }
      let (old, s1) := s.amoAt x d (s.agentsOf k) acq
      set s1
      let (lo, hi) := oldWords old
      pure (lo, hi, [])
  | some n => do
      let (st, lo, hi) ← askRemote 4 n (remoteAddr n d) x.payload
      raiseIf (st == 0x05#8) (Trap.mk' 0x05 p)
      raiseIf (st != 0#8) { Trap.mk' 0x10 p with durable := true }
      pure (lo, hi, [])

/-- An AMO of a control core: checks, order, effect. -/
def amoCore (x : Amo) (p : Word) (ord : BitVec 2) (o : OpDesc) : Act (Word × Word) := do
  let (k, _, _, _) ← theCore
  let a := ctlAcc k
  let loc ← checkPtr a p x.n x.n .atomic
  let ps ← resolve a loc x.n .atomic []
  let (_, cp, c) ← ctxOf k
  let s ← get
  let loc' := (ps.head?.map fun q => q.1).getD loc
  let node := match loc' with | .virt _ n _ => n | _ => none
  let sc := amoScope c node loc'
  holdIf (ord == 2#2 && !s.settledAt k cp c sc)
  if ord == 2#2 then modify fun s => s.fenceLags k sc else pure ()
  let acq := ord == 1#2
  match loc' with
  | .pad q off => amoPadAct k x acq o q off
  | .virt _ n d => do
      raiseIf (n.isNone && (d / 2 ^ 44 == 2 || d / 2 ^ 44 == 3) && !x.hostOk) (Trap.mk' 0x05 p)
      let (lo, hi, _) ← commitPoint k o (amoHome k x acq p n d)
      pure (lo, hi)
  | .cwn die off => do
      raiseIf ((s.cwn die).badIn off x.n) { Trap.mk' 0x10 p with durable := true }
      let (lo, hi, _) ← commitPoint k o (do
        let s ← get
        let old := (s.cwn die).bytes off x.n
        set (s.cwnPut die off (x.apply old))
        let (lo, hi) := oldWords old
        pure (lo, hi, []))
      pure (lo, hi)
  | .acc _ => raiseC 0x05 p
  | .vim _ _ => raiseC 0x05 p
  | .sys _ => raiseC 0x02 p

/-- An AMO of an Anole core: performed directly. -/
def amoAnole (x : Amo) (p : Word) : Act (Word × Word) := do
  let loc ← orRaise (anCheck p x.n x.n .atomic)
  let s ← get
  match loc with
  | .mem d => do
      raiseIf ((d / 2 ^ 44 == 2 || d / 2 ^ 44 == 3) && !x.hostOk) (Trap.mk' 0x05 p)
      holdIf (!s.dpaReady d)
      raiseIf (s.dram.badIn d x.n) (Trap.mk' 0x10 p)
      let (old, s1) := s.amoAt x d [s.anAgent] false
      set s1
      pure (oldWords old)
  | .cwn die off => do
      raiseIf ((s.cwn die).badIn off x.n) (Trap.mk' 0x10 p)
      let old := (s.cwn die).bytes off x.n
      set (s.cwnPut die off (x.apply old))
      pure (oldWords old)
  | .sys _ => raiseC 0x05 p

/-- Run an AMO: x[rb] is the address, x[rd] the compare value of CAS; `write` puts the old value into registers. -/
def amo (x : Amo) (d a b : BitVec 6) (ord : BitVec 2) (s : State) (write : Word → Word → Act Unit) : Host.Outcome State Fault Refusal :=
  scalar 0#4 4 s fun r => do
    let p := r.get b
    let s ← get
    let (lo, hi) ← (match s.cur with
      | .anole _ => amoAnole x p
      | _ => amoCore x p ord { op := 1, w1 := p, w2 := r.get a, w3 := r.get d } : Act (Word × Word))
    write lo hi
    pure .adv

/-- Width of the size codes .W and .D. -/
def amoBytes (z : BitVec 2) : Nat := if z = 1#2 then 4 else 8

/-- The integer AMOs of one register: the old value is sign-extended from 32 bits (R126). -/
def amoInt (op : AmoOp) (d a b : BitVec 6) (z o : BitVec 2) (s : State) : Host.Outcome State Fault Refusal :=
  let n := amoBytes z
  match s.regs? with
  | none => .fault .noAgent
  | some r =>
      amo { op := op, n := n, opnd := (r.get a).toNat % 2 ^ (8 * n), cmp := (r.get d).toNat % 2 ^ (8 * n) } d a b o s
        (fun lo _ => setX d (if z = 1#2 then (lo.setWidth 32).signExtend 64 else lo))

/-- AMO.ADD. -/
def execAmoAdd (d a b : BitVec 6) (z o : BitVec 2) (s : State) : Host.Outcome State Fault Refusal := amoInt .add d a b z o s
/-- AMO.AND. -/
def execAmoAnd (d a b : BitVec 6) (z o : BitVec 2) (s : State) : Host.Outcome State Fault Refusal := amoInt .and d a b z o s
/-- AMO.OR. -/
def execAmoOr (d a b : BitVec 6) (z o : BitVec 2) (s : State) : Host.Outcome State Fault Refusal := amoInt .or d a b z o s
/-- AMO.XOR. -/
def execAmoXor (d a b : BitVec 6) (z o : BitVec 2) (s : State) : Host.Outcome State Fault Refusal := amoInt .xor d a b z o s
/-- AMO.MIN. -/
def execAmoMin (d a b : BitVec 6) (z o : BitVec 2) (s : State) : Host.Outcome State Fault Refusal := amoInt .min d a b z o s
/-- AMO.MAX. -/
def execAmoMax (d a b : BitVec 6) (z o : BitVec 2) (s : State) : Host.Outcome State Fault Refusal := amoInt .max d a b z o s
/-- AMO.MINN. -/
def execAmoMinn (d a b : BitVec 6) (z o : BitVec 2) (s : State) : Host.Outcome State Fault Refusal := amoInt .minn d a b z o s
/-- AMO.MAXN. -/
def execAmoMaxn (d a b : BitVec 6) (z o : BitVec 2) (s : State) : Host.Outcome State Fault Refusal := amoInt .maxn d a b z o s
/-- AMO.XCHG. -/
def execAmoXchg (d a b : BitVec 6) (z o : BitVec 2) (s : State) : Host.Outcome State Fault Refusal := amoInt .xchg d a b z o s
/-- AMO.CAS. -/
def execAmoCas (d a b : BitVec 6) (z o : BitVec 2) (s : State) : Host.Outcome State Fault Refusal := amoInt .cas d a b z o s

/-- AMO.FADD: .F32, or two lanes of .BF16; the old value is zero-extended, no flag is set. -/
def execAmoFadd (d a b : BitVec 6) (z o : BitVec 2) (s : State) : Host.Outcome State Fault Refusal :=
  match s.regs? with
  | none => .fault .noAgent
  | some r =>
      amo { op := if z = 1#2 then .faddF32 else .faddBf16, n := 4, opnd := (r.get a).toNat % 2 ^ 32, cmp := 0 } d a b o s
        (fun lo _ => setX d (lo.setWidth 32 |>.setWidth 64))

/-- The register after an even one; with an even register of 0 both halves are x0. -/
def pairHi (d : BitVec 6) : BitVec 6 := if d = 0#6 then 0#6 else d + 1#6

/-- AMO.ADD128: a pair of registers each way; `ra` 0 is a zero operand, `rd` 0 discards both halves (R56). -/
def execAmoAdd128 (d a b : BitVec 6) (o : BitVec 2) (s : State) : Host.Outcome State Fault Refusal :=
  match s.regs? with
  | none => .fault .noAgent
  | some r =>
      amo { op := .add, n := 16, opnd := (r.get a).toNat + 2 ^ 64 * (r.get (pairHi a)).toNat, cmp := 0 } d a b o s
        (fun lo hi => do
          setX d lo
          setX (pairHi d) hi)

/-! ### Fences -/

/-- FENCE (R129): stalls until every earlier load, store and AMO of the control core is performed at the scope. -/
def execFence (g : BitVec 4) (sc : BitVec 4) (s : State) : Host.Outcome State Fault Refusal :=
  scalar g 4 s fun _ => do
    let s ← get
    match s.cur with
    | .core k => do
        let (_, _, cp, c) ← theCore
        holdIf (!s.settledAt k cp c sc.toNat)
        set ((s.fenceLags k sc.toNat).fenceCode (cp.agent c.rank) (decide (3 ≤ sc.toNat)) (s.scopeAgents k sc.toNat))
        pure .adv
    | .anole a => do
        set (s.fenceCode (anoleAgent a.toNat) (decide (3 ≤ sc.toNat)) [anoleAgent a.toNat])
        pure .adv
    | .vec _ => hold
    | .none => hold

end Sys2Proof.Machine
end

