-- ==== Sys2Proof/Machine/BankTid.lean ====
section
/-! DEFINITION. Accumulator banks (R39, R145), TID entries (R36, R146) and norm registers (R38, R147) as the control
core reads and changes them. -/

namespace Sys2Proof.Machine

/-! ### Banks -/

/-- Whether bank i is allocated. -/
def Core.bankUsed (c : Core) (i : Nat) : Bool := c.tens.banks.toList.getD i false
/-- Number of allocated banks. -/
def Core.bankCount (c : Core) : Nat := (c.tens.banks.toList.filter fun b => b).length
/-- Set a run of banks free or allocated. -/
def Core.setBanks (c : Core) (first n : Nat) (v : Bool) : Core :=
  { c with tens := { c.tens with banks := Vector.ofFn fun i => if first ≤ i.val && i.val < first + n then v else c.tens.banks[i.val] } }

/-- The lowest-numbered run of `n` free banks. -/
def Core.freeRun (c : Core) (n : Nat) : Option Nat :=
  (List.range (257 - n)).find? fun f => (List.range n).all fun i => !c.bankUsed (f + i)

/-- Newly allocated banks: zero, their tiles floating and invalid (R145, R200, R205). -/
def Core.clearBanks (c : Core) (first n : Nat) : Core :=
  { c with tens := { c.tens with
      acc := c.tens.acc.clear (2048 * first) (2048 * n)
      lanes := Vector.ofFn fun i =>
        if first < 2 * i.val + 2 && 2 * i.val < first + n then Lane.zero else c.tens.lanes[i.val] } }

/-- ABANK.ALLOC (R145). -/
def execAbankAlloc (d : BitVec 6) (b : Src) (g : BitVec 4) (s : State) : Host.Outcome State Fault Refusal :=
  scalar g (srLen b) s fun r => do
    let (k, l, _, c) ← theCore
    let n := (srB r b).toNat
    raiseIf (n == 0 || decide (256 < n)) (Trap.mk' 0x0C)
    match (if c.bankCount + n ≤ l.lrec.banks then c.freeRun n else none) with
    | none => setX d (BitVec.allOnes 64)
    | some f => do
        onCore k fun c => (c.setBanks f n true).clearBanks f n
        setX d (BitVec.ofNat 64 f)
    pure .adv

/-- ABANK.FREE (R145). -/
def execAbankFree (a : BitVec 6) (b : Src) (g : BitVec 4) (s : State) : Host.Outcome State Fault Refusal :=
  scalar g (srLen b) s fun r => do
    let (k, _, _, c) ← theCore
    holdIf (c.eng.cmds.any fun m => engineSrc m.op == 2 && !m.lane)
    let f := (r.get a).toNat
    let n := (srB r b).toNat
    raiseIf (n != 0 && (decide (256 < f + n) || (List.range n).any fun i => !c.bankUsed (f + i))) (Trap.mk' 0x0C)
    onCore k fun c => c.setBanks f n false
    pure .adv

/-! ### TID entries -/

/-- TIDSET (R146): a load of 64 bytes, checked under R36. -/
def execTidset (t : BitVec 8) (b : Src) (g : BitVec 4) (s : State) : Host.Outcome State Fault Refusal :=
  scalar g (srLen b) s fun r => do
    let (k, _, _, _) ← theCore
    let bs ← loadBytes (srB r b) 64 64
    let w := rowOf 512 bs
    raiseIf (!tidOk w) (Trap.mk' 0x01)
    onCore k fun c => { c with tens := { c.tens with tids := c.tens.tids.set t.toNat w } }
    pure .adv

/-- TIDGET (R146): a store of 64 bytes. -/
def execTidget (t : BitVec 8) (b : Src) (g : BitVec 4) (s : State) : Host.Outcome State Fault Refusal :=
  scalar g (srLen b) s fun r => do
    let (_, _, _, c) ← theCore
    let w := c.tens.tids[t.toNat]
    storeBytes (srB r b) (rowBytes w 64) 64 { op := 5, w1 := 0#64, w2 := srB r b, w3 := 0#64 }
    pure .adv

/-! ### Norm registers -/

/-- Change a norm register. -/
def Core.modNorm (c : Core) (n : BitVec 6) (f : Norm → Norm) : Core :=
  { c with tens := { c.tens with norms := c.tens.norms.set n.toNat (f c.tens.norms[n.toNat]) } }

/-- The norm register once every command of the store queue and its gang lane has completed (R147). -/
def normOf (n : BitVec 6) : Act Norm := do
  let (_, _, _, c) ← theCore
  holdIf (c.eng.cmds.any fun m => engineSrc m.op == 4)
  pure c.tens.norms[n.toNat]

/-- NRD (R147). -/
def execNrd (d n : BitVec 6) (g : BitVec 4) (s : State) : Host.Outcome State Fault Refusal :=
  scalar g 4 s fun _ => do
    let v ← normOf n
    setX d (v.value.extractLsb' 0 64)
    setX (pairHi d) (v.value.extractLsb' 64 64)
    pure .adv

/-- NCLR (R147). -/
def execNclr (n : BitVec 6) (g : BitVec 4) (s : State) : Host.Outcome State Fault Refusal :=
  scalar g 4 s fun _ => do
    let (k, _, _, _) ← theCore
    let _ ← normOf n
    onCore k fun c => c.modNorm n fun _ => Norm.zero
    pure .adv

/-- NSTAT (R147). -/
def execNstat (d n : BitVec 6) (g : BitVec 4) (s : State) : Host.Outcome State Fault Refusal :=
  scalar g 4 s fun _ => do
    let v ← normOf n
    setX d (BitVec.ofNat 64 (v.unders.toNat * 2 ^ 16 + v.overs.toNat))
    pure .adv

end Sys2Proof.Machine
end

