-- ==== Sys2Proof/Machine/Tensor.lean ====
section
/-! DEFINITION. Tensors as engines see them (R79 to R85, R91 to R93, R97, R98, R179 to R182): the stored rows a tile
touches, reading them, decoding elements, and forming the writes of a tile. -/

namespace Sys2Proof.Machine

/-! ### Geometry -/

/-- A run of bytes of one stored row: row, first byte within it, pointer, length, alignment. -/
structure Span where
  row : Nat
  off : Nat
  ptr : Word
  n : Nat
  align : Nat
deriving DecidableEq, Repr

/-- A range of stored rows and columns, inside the tensor. -/
structure Area where
  r0 : Nat
  rN : Nat
  c0 : Nat
  cN : Nat
deriving DecidableEq, Repr

/-- Bytes that an element must be aligned to (R79). -/
def elemAlign (fmt : Nat) : Nat := max 1 (fmtBits fmt / 8)

/-- The stored area of a tile of `nr` × `nc` elements at a reference, clipped to the tensor (R180). -/
def Tid.area (t : Tid) (x : TileRef) (nr nc : Nat) : Area :=
  let (r0, rn, c0, cn) := if t.tr then (x.col0, nc, x.row0, nr) else (x.row0, nr, x.col0, nc)
  { r0 := r0, rN := min (r0 + rn) t.rows, c0 := c0, cN := min (c0 + cn) t.cols }

/-- Whether an area holds no element. -/
def Area.isEmpty (a : Area) : Bool := a.rN ≤ a.r0 || a.cN ≤ a.c0

/-- An area widened to whole blocks, which the parse of I4X needs (R85). -/
def Tid.wide (t : Tid) (a : Area) : Area :=
  if t.fmt = 0x0F && !a.isEmpty then { a with c0 := a.c0 / 32 * 32, cN := min (roundUp a.cN 32) t.cols } else a

/-- The rows of an area. -/
def Area.rows (a : Area) : List Nat := (List.range (a.rN - a.r0)).map fun i => a.r0 + i

/-- Element bytes of an area: first to last byte of each row. -/
def Tid.dataSpans (t : Tid) (a : Area) : List Span :=
  if a.isEmpty then []
  else
    (let w := fmtBits t.fmt
     let b0 := a.c0 * w / 8
     let b1 := (a.cN * w + 7) / 8
     a.rows.map fun r => { row := r, off := b0, ptr := ptrPlus t.base (r * t.stride + b0), n := b1 - b0, align := elemAlign t.fmt })

/-- Blocks of 32 in one stored row. -/
def Tid.blocks (t : Tid) : Nat := (t.cols + 31) / 32

/-- Bytes that hold the deltas of an area (R91). -/
def Tid.deltaSpans (t : Tid) (a : Area) : List Span :=
  if t.sloc = 0 || a.isEmpty then []
  else a.rows.map fun r =>
    let i0 := r * t.blocks + a.c0 / 32
    let i1 := r * t.blocks + (a.cN - 1) / 32
    { row := r, off := i0 / 2, ptr := ptrPlus t.sptr (i0 / 2), n := i1 / 2 + 1 - i0 / 2, align := 1 }

/-- Elements per group of a sparse row (R97). -/
def Tid.slots (t : Tid) : Nat := if t.spn = 1 then 4 else if t.spn = 2 then 8 else 16
/-- Groups of a sparse row. -/
def Tid.groups (t : Tid) : Nat := t.cols / t.slots

/-- Bytes that hold the masks of groups g0 up to gN of some stored rows. -/
def Tid.maskSpans (t : Tid) (rows : List Nat) (g0 gN : Nat) : List Span :=
  if gN ≤ g0 then []
  else rows.map fun r =>
    { row := r, off := g0, ptr := ptrPlus t.mptr (3 * (r * t.groups + g0)), n := 3 * (gN - g0), align := 1 }

/-- The pointers of a tensor of which nothing is touched, each checked as one byte (R171). -/
def Tid.baseSpans (t : Tid) : List Span :=
  { row := 0, off := 0, ptr := t.base, n := 0, align := elemAlign t.fmt } ::
    ((if t.sloc = 0 then [] else [{ row := 0, off := 0, ptr := t.sptr, n := 0, align := 1 }]) ++
     (if t.spn = 0 then [] else [{ row := 0, off := 0, ptr := t.mptr, n := 0, align := 1 }]))

/-- Every pointer a tile's access forms (R171 step 4). -/
def Tid.spans (t : Tid) (a : Area) : List Span :=
  if a.isEmpty then t.baseSpans else t.dataSpans a ++ t.deltaSpans a

/-- What the versioned rules look at of a tensor's access (R178, R215): its base with its `vreg`, and the ranges it touches, each a pointer,
a length and a region or 0. -/
def Tid.uses (t : Tid) (xs : List Span) : List (Word × Nat × Nat) := (t.base, 1, t.vreg) :: xs.map fun x => (x.ptr, x.n, 0)

/-! ### Reading -/

/-- Bytes read of a stored row, from an offset. -/
structure RowPart where
  row : Nat
  off : Nat
  bytes : List Byte
deriving DecidableEq, Repr

/-- What a command has read of a tensor: element bytes, delta bytes (offsets in the delta array), group masks. -/
structure View where
  tid : Tid
  data : List RowPart
  deltas : List RowPart
  masks : List RowPart
deriving DecidableEq, Repr

/-- Set a chunk; only nonzero ones are kept, in rising order. -/
def chunkPut (i : Nat) (v : Chunk) : List (Nat × Chunk) → List (Nat × Chunk)
  | [] => if v.pend = 0 && v.status = 0#8 then [] else [(i, v)]
  | (j, w) :: t =>
      if i < j then (if v.pend = 0 && v.status = 0#8 then (j, w) :: t else (i, v) :: (j, w) :: t)
      else if i = j then (if v.pend = 0 && v.status = 0#8 then t else (i, v) :: t)
      else (j, w) :: chunkPut i v t

/-- Change a chunk of a pad. -/
def Pad.setChunk (p : Pad) (i : Nat) (v : Chunk) : Pad := { p with chunks := chunkPut i v p.chunks }

/-- Read one span of elements of `e` bytes; nothing when it is empty, its pointer being checked nevertheless. -/
def readSpan (a : Acc) (slots : List (Nat × Nat)) (e : Nat) (x : Span) : Act RowPart := do
  let ps ← checkAll a x.ptr (atLeast1 x.n) x.align .read slots
  let bs ← (if x.n = 0 then pure [] else readSources a e ps : Act (List Byte))
  pure { row := x.row, off := x.off, bytes := bs }

/-- Read spans in order. -/
def readSpans (a : Acc) (slots : List (Nat × Nat)) (e : Nat) : List Span → Act (List RowPart)
  | [] => pure []
  | x :: t => do
      let p ← readSpan a slots e x
      let r ← readSpans a slots e t
      pure (p :: r)

/-- Read an area of a dense tensor. -/
def readArea (a : Acc) (slots : List (Nat × Nat)) (t : Tid) (x : Area) : Act View := do
  let w := t.wide x
  let d ← readSpans a slots (elemAlign t.fmt) (t.dataSpans w)
  let e ← readSpans a slots 1 (t.deltaSpans w)
  pure { tid := t, data := d, deltas := e, masks := [] }

/-- A byte of what was read of a row; absent bytes are outside the tensor. -/
def partByte (ps : List RowPart) (row i : Nat) : Option Byte :=
  match ps.find? fun p => p.row == row && p.off ≤ i && i < p.off + p.bytes.length with
  | some p => some (p.bytes.getD (i - p.off) 0#8)
  | none => none

/-! ### Elements -/

/-- The code of stored element (r, c); 0 outside what was read. -/
def View.code (v : View) (r c : Nat) : Nat :=
  let w := fmtBits v.tid.fmt
  if 8 ≤ w then leNat ((List.range (w / 8)).map fun i => (partByte v.data r (c * (w / 8) + i)).getD 0#8)
  else ((partByte v.data r (c * w / 8)).getD 0#8).toNat / 2 ^ (c * w % 8) % 2 ^ w

/-- The delta of block b of stored row r (R91). -/
def View.delta (v : View) (r b : Nat) : Nat :=
  if v.tid.sloc = 0 then 0
  else
    (let i := r * v.tid.blocks + b
     ((partByte v.deltas r (i / 2)).getD 0xFF#8).toNat / 2 ^ (4 * (i % 2)) % 16)

/-- Whether a stored element lies inside the tensor. -/
def Tid.inside (t : Tid) (r c : Nat) : Bool := r < t.rows && c < t.cols

/-- The values of one block from its codes (R85, R92): a zero block parses to zeros without a flag. -/
def blockVals (fmt : Nat) (ebase : Int) (delta : Nat) (codes : List Nat) : List Val × Flags :=
  if delta = 15 then (codes.map fun _ => vZero, fNone)
  else if fmt = 0x0F then
    (let n := codes.length
     let (vs, bad) := i4xParse (codes ++ List.replicate (32 - n) 0)
     ((vs.take n).map fun x => x.scale (ebase - delta), if bad then fFormat else fNone))
  else (codes.map fun c => (elemVal fmt c).scale (ebase - delta), fNone)

/-- The exact value of stored element (r, c) and the flags of its parse. -/
def View.stored (v : View) (r c : Nat) : Val × Flags :=
  let t := v.tid
  if !t.inside r c then (vZero, fNone)
  else if t.fmt = 0x0F then
    (let b := c / 32
     let codes := (List.range (min 32 (t.cols - 32 * b))).map fun i => v.code r (32 * b + i)
     let (vs, f) := blockVals t.fmt t.ebase (v.delta r b) codes
     (vs.getD (c % 32) vZero, f))
  else if fmtBlocks t.fmt then
    (let (vs, f) := blockVals t.fmt t.ebase (v.delta r (c / 32)) [v.code r c]
     (vs.getD 0 vZero, f))
  else (elemVal t.fmt (v.code r c), fNone)

/-- The exact value of element (i, j) of the tensor as read (R92, R93, R180). -/
def View.elem (v : View) (i j : Nat) : Val × Flags := if v.tid.tr then v.stored j i else v.stored i j

/-- The code of element (i, j) as read: 0 outside. -/
def View.raw (v : View) (i j : Nat) : Nat :=
  let (r, c) := if v.tid.tr then (j, i) else (i, j)
  if v.tid.inside r c then v.code r c else 0

/-- The raw integer of element (i, j) in integer mode: a zero block decodes to zero (R100). -/
def View.int (v : View) (i j : Nat) : Int :=
  let (r, c) := if v.tid.tr then (j, i) else (i, j)
  if !v.tid.inside r c then 0
  else if fmtBlocks v.tid.fmt && v.delta r (c / 32) == 15 then 0
  else if fmtSigned v.tid.fmt then toSigned (fmtBits v.tid.fmt) (v.code r c) else v.code r c

/-! ### Sparse rows (R97, R98, R203) -/

/-- The mask of group g of stored row r. -/
def View.mask (v : View) (r g : Nat) : Nat :=
  match v.masks.find? fun p => p.row == r && p.off ≤ g && g < p.off + p.bytes.length / 3 with
  | some p => leNat ((p.bytes.drop (3 * (g - p.off))).take 3)
  | none => 0

/-- Number of set bits of a mask below position n. -/
def maskCount (m n : Nat) : Nat := ((List.range n).filter fun i => m.testBit i).length

/-- The compressed column of uncompressed position p of a stored row, when its mask bit is set and has a slot. -/
def View.sparseCol (v : View) (r p : Nat) : Option Nat :=
  let g := p / 24
  if v.tid.groups ≤ g || v.tid.rows ≤ r then none
  else
    (let m := v.mask r g
     let i := maskCount m (p % 24)
     if m.testBit (p % 24) && i < v.tid.slots then some (g * v.tid.slots + i) else none)

/-- Whether a mask's population count differs from N (R98). -/
def View.maskBad (v : View) (r g : Nat) : Bool := maskCount (v.mask r g) 24 != v.tid.slots

/-! ### Writing -/

/-- Whether a written tile keeps to whole bytes and blocks (R181), in the stored orientation. -/
def Tid.writeOk (t : Tid) (x : TileRef) (nr nc : Nat) : Bool :=
  let (first, width) := if t.tr then (x.row0, nr) else (x.col0, nc)
  let q := if fmtBlocks t.fmt && t.sloc = 1 then 32 else if fmtBits t.fmt = 4 then 2 else if fmtBits t.fmt = 1 then 8 else 1
  nr = 0 || nc = 0 || (first % q == 0 && (width % q == 0 || t.cols ≤ first + width))

/-- The pieces of a span after translation, each with its first byte offset within the row. -/
def spanPieces (a : Acc) (slots : List (Nat × Nat)) (x : Span) : Act (List (Nat × Nat × Loc)) := do
  let ps ← checkAll a x.ptr (atLeast1 x.n) x.align .write slots
  pure ((ps.foldl (fun (acc : List (Nat × Nat × Loc) × Nat) p => (acc.1 ++ [(acc.2, p.2, p.1)], acc.2 + p.2)) ([], x.off)).1)

/-- The place of byte `i` of a row. -/
def placeOf (ps : List (Nat × Nat × Loc)) (i : Nat) : Option Loc :=
  (ps.find? fun p => p.1 ≤ i && i < p.1 + p.2.1).map fun p => p.2.2.plus (i - p.1)

/-- The record a write at a pointer belongs to (R178, R215). -/
def State.slotFor (s : State) (ctx : BitVec 6) (p : Word) (slots : List RecordOf) : Option RecordOf :=
  if ptrSpace p = 0 then
    (s.regionOfView ctx (fieldNat p 0 52)).bind fun g => slots.find? fun r => r.region == g.id
  else none

/-- The bytes of one stored row from its elements (column, code): whole elements, or bytes with absent bits zero. -/
def rowWrites (fmt : Nat) (es : List (Nat × Nat)) : List (Nat × List Byte) :=
  let w := fmtBits fmt
  if 8 ≤ w then es.map fun e => (e.1 * (w / 8), natLe (w / 8) e.2)
  else
    (let bytes := (es.map fun e => e.1 * w / 8).eraseDups
     bytes.map fun b =>
       (b, [BitVec.ofNat 8 ((es.filter fun e => e.1 * w / 8 == b).foldl (fun n e => n ||| e.2 * 2 ^ (e.1 * w % 8)) 0)]))

/-- For writes in rising order, how many bytes written whole lie below each without a gap. -/
def runBelow : Nat → Nat → List (Nat × List Byte × Option Nat) → List Nat
  | _, _, [] => []
  | at', n, w :: t =>
      let b := if w.1 = at' && w.2.2.isNone then n else 0
      b :: runBelow (w.1 + w.2.1.length) (if w.2.2.isNone then b + w.2.1.length else 0) t

/-- For writes in falling order, how many lie above each. -/
def runDown : Nat → Nat → List (Nat × List Byte × Option Nat) → List Nat
  | _, _, [] => []
  | at', n, w :: t =>
      let a := if w.1 + w.2.1.length = at' && w.2.2.isNone then n else 0
      a :: runDown w.1 (if w.2.2.isNone then a + w.2.1.length else 0) t

/-- For writes in rising order, how many lie above each. -/
def runAbove (ws : List (Nat × List Byte × Option Nat)) : List Nat := (runDown 0 0 ws.reverse).reverse

/-- Writes of one row: offset, bytes, and the only nibble written. -/
def pendRow (ps : List (Nat × Nat × Loc)) (slot : Nat → Option RecordOf) (ws : List (Nat × List Byte × Option Nat)) : List PendWrite :=
  ((ws.zip ((runBelow 0 0 ws).zip (runAbove ws))).filterMap fun w => (placeOf ps w.1.1).map fun x =>
    { loc := x, data := w.1.2.1, half := w.1.2.2, bytewise := false, slotOf := slot w.1.1, below := w.2.1, above := w.2.2 })

/-- One nibble of a byte on another node: the byte is read, its other nibble kept. -/
def fillNibbles (a : Acc) : List PendWrite → Act (List PendWrite)
  | [] => pure []
  | w :: t => do
      let v ← (match w.half, w.loc with
        | some h, .virt va (some n) d => do
            let b ← readPiece a (.virt va (some n) d) 1 .read
            pure { w with data := [putField (b.headD 0#8) (4 * h) 4 (fieldNat (w.data.headD 0#8) (4 * h) 4)] }
        | _, _ => pure w : Act PendWrite)
      let r ← fillNibbles a t
      pure (v :: r)

/-- The writes of the stored elements (row, column, code) that a command makes in an area of a tensor. -/
def writeRows (a : Acc) (slots : List RecordOf) (t : Tid) (es : List (Nat × Nat × Nat)) : List Span → Act (List PendWrite)
  | [] => pure []
  | x :: rest => do
      let s ← get
      let (l, _, _) ← ctxOf a.k
      let ps ← spanPieces a (slots.map fun r => (r.region, r.slot)) x
      let own := (es.filter fun e => e.1 == x.row).map fun e => e.2
      let r ← writeRows a slots t es rest
      pure (pendRow ps (fun i => s.slotFor l.ctx (ptrPlus x.ptr (i - x.off)) slots) ((rowWrites t.fmt own).map fun w => (w.1, w.2, none)) ++ r)

/-- Delta nibbles (index in the array, value) as byte writes: both nibbles of a byte, or one. -/
def nibbleWrites (ds : List (Nat × Nat)) : List (Nat × List Byte × Option Nat) :=
  ((ds.map fun d => d.1 / 2).eraseDups).map fun b =>
    let own := ds.filter fun d => d.1 / 2 == b
    (b, [own.foldl (fun v d => putField v (4 * (d.1 % 2)) 4 d.2) 0#8],
     if own.all fun d => d.1 % 2 == 0 then some 0 else if own.all fun d => d.1 % 2 == 1 then some 1 else none)

/-- The writes of deltas (row, block, value) of an area. -/
def writeDeltas (a : Acc) (slots : List RecordOf) (t : Tid) (ds : List (Nat × Nat × Nat)) : List Span → Act (List PendWrite)
  | [] => pure []
  | x :: rest => do
      let s ← get
      let (l, _, _) ← ctxOf a.k
      let ps ← spanPieces a (slots.map fun r => (r.region, r.slot)) x
      let own := (ds.filter fun d => d.1 == x.row).map fun d => (d.1 * t.blocks + d.2.1, d.2.2)
      let r ← writeDeltas a slots t ds rest
      let ws ← fillNibbles a (pendRow ps (fun i => s.slotFor l.ctx (ptrPlus x.ptr (i - x.off)) slots) (nibbleWrites own))
      pure (ws ++ r)

/-! ### Footprints (R182) -/

/-- The scratchpad range of a span, for a core that forms it. -/
def padRange (l : Launch) (cp : Copy) (c : Core) (x : Span) : List (PadId × Nat × Nat) :=
  if x.n = 0 then []
  else match locOf l cp c x.ptr x.n with
    | some (.pad p o) => [(p, o, x.n)]
    | some (.virt _ _ _) => []
    | some (.acc _) => []
    | some (.vim _ _) => []
    | some (.cwn _ _) => []
    | some (.sys _) => []
    | none => []

/-- Whether every chunk of some ranges has its chunk-map bit set. -/
def Copy.chunksSet (cp : Copy) (rs : List (PadId × Nat × Nat)) : Bool := (chunksOf rs).all fun x => (cp.chunk x).pend == 0

/-- A push reserves chunks: counts rise, statuses are cleared. -/
def Copy.reserve (cp : Copy) (xs : List (PadId × Nat)) : Copy :=
  xs.foldl (fun c x => c.modPad x.1 fun p => p.setChunk x.2 { pend := (p.chunk x.2).pend + 1, status := 0#8 }) cp

/-- One chunk of a command is complete: its count falls, and a bit that rises ends a WFE (R166). -/
def Copy.releaseChunk (cp : Copy) (x : PadId × Nat) : Copy :=
  let c1 := cp.modPad x.1 fun p => p.setChunk x.2 { pend := (p.chunk x.2).pend - 1, status := (p.chunk x.2).status }
  if (cp.chunk x).pend = 1 then c1.wakeAll else c1

end Sys2Proof.Machine
end

