-- ==== Sys2Proof/Machine/Push.lean ====
section
/-! DEFINITION. Pushing an engine command (R170 to R183, R219, R222): its checks in the order of R171, what it captures
(R172), and how it enters its queue or gang lanes. -/

namespace Sys2Proof.Machine

/-! ### What a push works with -/

/-- Operand values of a push. -/
structure Operands where
  op : EOp
  flags : BitVec 4
  xa : Word
  xb : Word
  xc : Word
deriving DecidableEq, Repr

/-- What steps 3 to 5 of R171 work on: TIDs it captures, spans it reads and writes, ranges whose versioned reads need a
binding, ranges it may not write in a versioned region, ranges a store-engine command writes (pointer, length, `vreg`), and
accumulator banks (first, count). -/
structure Plan where
  tids : List (BitVec 512)
  reads : List Span
  writes : List Span
  verReads : List (Word × Nat × Nat)
  noVer : List (Word × Nat × Nat)
  stores : List (Word × Nat × Nat)
  banks : List (Nat × Nat)
deriving DecidableEq, Repr

/-- A plan that touches nothing. -/
def Plan.none : Plan := { tids := [], reads := [], writes := [], verReads := [], noVer := [], stores := [], banks := [] }

/-- A span of plain bytes. -/
def bytesAt (p : Word) (n align : Nat) : Span := { row := 0, off := 0, ptr := p, n := n, align := align }

/-! ### Step 2: operand values -/

/-- Illegal Encoding unless a condition holds. -/
def illegal (ok : Bool) : Nat := if ok then 0 else 0x01

/-- Two tile references and an extent word whose other bits are zero. -/
def tilesOk (o : Operands) (rest : Bool) : Nat :=
  if refOk o.xa && refOk o.xb && rest then (if extOk o.xc then 0 else 0x0D) else 0x01

/-- Step 2 of R171: the fault code, 0 for none. `gang` is the size of the gang under GANG, `vim` the VIM grant. -/
def operandFault (o : Operands) (gang : Option Nat) (vim : Nat) : Nat :=
  let xc := o.xc
  match o.op with
  | .cpy => illegal (fieldNat xc 32 32 == 0)
  | .cpyT => tilesOk o (fieldNat xc 42 22 == 0)
  | .cpyQ => tilesOk o (fieldNat xc 42 22 == 0)
  | .cpyMc => illegal (fieldNat xc 48 16 == 0 &&
      (match gang with
       | none => fieldNat xc 36 12 == 0
       | some g => decide (fieldNat xc 32 16 < 2 ^ g)))
  | .gath => 0
  | .scat => 0
  | .bin => 0
  | .kvg => illegal (fieldNat xc 52 12 == 0 && fieldNat xc 20 12 == 0)
  | .kva => illegal (fieldNat xc 20 44 == 0)
  | .kvdem => illegal (fieldNat o.xb 16 48 == 0)
  | .kvrefInc => illegal (fieldNat o.xb 16 48 == 0)
  | .kvrefDec => illegal (fieldNat o.xb 16 48 == 0)
  | .cube => illegal (refOk o.xa && refOk o.xb && fieldNat xc 42 14 == 0 && fieldNat xc 21 11 == 0 && fieldNat xc 0 21 ≤ 2 ^ 20)
  | .cubeSp => illegal (refOk o.xa && refOk o.xb && fieldNat xc 42 14 == 0 && fieldNat xc 21 11 == 0 && fieldNat xc 0 21 ≤ 2 ^ 20)
  | .cubeGa => illegal (refOk o.xa && refOk o.xb && fieldNat xc 42 6 == 0 && fieldNat xc 21 11 == 0 && fieldNat xc 0 21 ≤ 2 ^ 20)
  | .cubeGb => illegal (refOk o.xa && refOk o.xb && fieldNat xc 42 6 == 0 && fieldNat xc 21 11 == 0 && fieldNat xc 0 21 ≤ 2 ^ 20)
  | .cubeGk => illegal (refOk o.xa && refOk o.xb && fieldNat xc 42 6 == 0 && fieldNat xc 21 11 == 0 && fieldNat xc 0 21 ≤ 2 ^ 20)
  | .aclr => illegal (fieldNat o.xa 8 56 == 0 && o.xb.toNat ≤ 128)
  | .adrain => illegal (fieldNat o.xa 8 56 == 0 && refOk o.xb && fieldNat xc 15 49 == 0 && fieldNat xc 10 2 == 0 && modeCodeOk (fieldNat xc 12 3))
  | .stt => tilesOk o (fieldNat xc 42 22 == 0)
  | .stp => tilesOk o (fieldNat xc 60 4 == 0 && fieldNat xc 42 10 == 0)
  | .stg => tilesOk o (fieldNat xc 48 16 == 0)
  | .updSgd => tilesOk o (fieldNat xc 48 8 == 0)
  | .updAdam => tilesOk o true
  | .vrun => if fieldNat o.xa 14 50 ≠ 0 then 0x01 else if vim ≤ o.xa.toNat then 0x1A else 0

/-- Whether a command reads the k registers at push (R172, R187, R210, R216). -/
def Operands.readsK (o : Operands) : Bool :=
  match o.op with
  | .cpyQ => fieldNat o.flags 0 3 == 4
  | .stt => fieldNat o.flags 0 3 == 4
  | .stp => fieldNat o.flags 0 3 == 4
  | .stg => fieldNat o.flags 0 3 == 4
  | .adrain => fieldNat o.xc 12 3 == 4
  | .updSgd => true
  | .updAdam => true
  | _ => false

/-! ### Steps 3 to 5: TIDs, shapes, pointers, banks -/

/-- A TID entry of a core. -/
def Core.tid (c : Core) (n : Nat) : BitVec 512 := c.tens.tids.toList.getD n tidNull

/-- Whether a format may be an A or B operand of the cube (R100). -/
def cubeFmt (f : Nat) : Bool := f == 0x00 || f == 0x04 || (0x09 ≤ f && f ≤ 0x0F)

/-- Dimensions of a CUBE: M, N, K. -/
def cubeM (xc : Word) : Nat := fieldNat xc 37 5 + 1
def cubeN (xc : Word) : Nat := fieldNat xc 32 5 + 1
def cubeK (xc : Word) : Nat := fieldNat xc 0 21

/-- Area of B in CUBE.SP: its stored rows and the compressed columns of its groups (R203). -/
def sparseArea (t : Tid) (x : TileRef) (n k : Nat) : Area :=
  { r0 := x.col0, rN := min (x.col0 + n) t.rows, c0 := x.row0 / 24 * t.slots,
    cN := if k = 0 then 0 else min (((x.row0 + k + 23) / 24) * t.slots) (t.groups * t.slots) }

/-- Every span of B in CUBE.SP. -/
def sparseSpans (t : Tid) (x : TileRef) (n k : Nat) : List Span :=
  let a := sparseArea t x n k
  if a.isEmpty then t.baseSpans
  else t.dataSpans (t.wide a) ++ t.deltaSpans (t.wide a) ++ t.maskSpans a.rows (x.row0 / 24) (min ((x.row0 + k + 23) / 24) t.groups)

/-- What the G operand of a mode covers: reference and extent (R199). -/
def gRef (op : EOp) (a b : TileRef) (m n k : Nat) : TileRef × Nat × Nat :=
  match op with
  | .cubeGa => ({ tid := 0, row0 := a.row0, col0 := a.col0 }, m, k)
  | .cubeGb => ({ tid := 0, row0 := b.row0, col0 := b.col0 }, k, n)
  | _ => ({ tid := 0, row0 := 0, col0 := a.col0 }, 1, k)

/-- Steps 3 and the spans of 4 and 5 for a CUBE form (R198 to R201). -/
def cubePlan (c : Core) (o : Operands) : Except Nat Plan :=
  let ra := refOf o.xa
  let rb := refOf o.xb
  let ea := c.tid ra.tid
  let eb := c.tid rb.tid
  let eg := c.tid (fieldNat o.xc 48 8)
  let ta := tidOf ea
  let tb := tidOf eb
  let tg := tidOf eg
  let g := o.op == .cubeGa || o.op == .cubeGb || o.op == .cubeGk
  let sp := o.op == .cubeSp
  let (m, n, k) := (cubeM o.xc, cubeN o.xc, cubeK o.xc)
  if ta.isNull || tb.isNull || (g && tg.isNull) then .error 0x04
  else if !cubeFmt ta.fmt || !cubeFmt tb.fmt || (g && !(cubeFmt tg.fmt || tg.fmt = 0x10)) || ta.spn ≠ 0 || (g && tg.spn ≠ 0) ||
      (!sp && tb.spn ≠ 0) ||
      (sp && (tb.spn = 0 || !tb.tr || 8 < fmtBits tb.fmt || fmtBits ta.fmt ≠ fmtBits tb.fmt || rb.row0 % 24 ≠ 0)) then .error 0x0D
  else
    (let bs := if sp then sparseSpans tb rb n k else tb.spans (tb.wide (tb.area rb k n))
     let (gr, gm, gn) := gRef o.op ra rb m n k
     let gs := if g then tg.spans (tg.wide (tg.area gr gm gn)) else []
     let as := ta.spans (ta.wide (ta.area ra m k))
     .ok { Plan.none with
       tids := if g then [ea, eb, eg] else [ea, eb]
       reads := as ++ bs ++ gs
       verReads := ta.uses as ++ tb.uses bs ++ (if g then tg.uses gs else [])
       banks := [(fieldNat o.xc 56 8, 2)] })

/-- Whether a destination may receive quantised blocks (R187). -/
def quantOk (t : Tid) : Bool := fmtBlocks t.fmt && t.sloc = 1 && t.spn = 0

/-- A tile copy or store: source and destinations (reference, rows, columns). `ok` is the pair rule of the command. -/
def tilePlan (c : Core) (src : TileRef) (nr nc : Nat) (dsts : List (TileRef × Nat × Nat)) (ok : Tid → Tid → Bool) (store : Bool) :
    Except Nat Plan :=
  let es := c.tid src.tid
  let ts := tidOf es
  let ds := dsts.map fun d => (c.tid d.1.tid, tidOf (c.tid d.1.tid), d)
  if ts.isNull || ds.any fun d => d.2.1.isNull then .error 0x04
  else if ds.any fun d => !ok ts d.2.1 || !d.2.1.writeOk d.2.2.1 d.2.2.2.1 d.2.2.2.2 then .error 0x0D
  else
    (let rs := ts.spans (ts.wide (ts.area src nr nc))
     let ws := ds.map fun d => (d.2.1, d.2.1.spans (d.2.1.area d.2.2.1 d.2.2.2.1 d.2.2.2.2))
     let us := ws.flatMap fun w => w.1.uses w.2
     .ok { Plan.none with
       tids := (ds.map fun d => d.1) ++ [es]
       reads := rs
       writes := ws.flatMap fun w => w.2
       verReads := ts.uses rs
       noVer := if store then [] else us
       stores := if store then us else [] })

/-- A UPD (R216): w, g, m and, for ADAM, v. -/
def updPlan (c : Core) (o : Operands) : Except Nat Plan :=
  let rw := refOf o.xa
  let rg := refOf o.xb
  let (nr, nc) := (extRows o.xc, extCols o.xc)
  let es := [c.tid rw.tid, c.tid (fieldNat o.xc 56 8)] ++ (if o.op = .updAdam then [c.tid (fieldNat o.xc 48 8)] else [])
  let eg := c.tid rg.tid
  let ts := es.map tidOf
  let tg := tidOf eg
  let stateFmt (t : Tid) : Bool := t.fmt = 0x08 || t.fmt = 0x09 || t.fmt = 0x0A
  if tg.isNull || ts.any Tid.isNull then .error 0x04
  else if !(ts.all stateFmt) then .error 0x0D
  else
    (let sp := ts.flatMap fun t => t.spans (t.area rw nr nc)
     .ok { Plan.none with
       tids := es ++ [eg]
       reads := sp ++ tg.spans (tg.wide (tg.area rg nr nc))
       writes := sp
       verReads := (tg.base, 1, 0) :: (tg.spans (tg.wide (tg.area rg nr nc))).map fun x => (x.ptr, x.n, 0)
       stores := ts.map fun t => (t.base, 1, t.vreg) })

/-- Steps 3 to 5 for a command of a core: its plan, or the code of step 3's fault. `desc` is the gather descriptor of
GATH, SCAT and BIN, `kvL` the row length L and `kvT` the block tokens of the partition. -/
def planOf (p : Packet) (c : Core) (o : Operands) (desc : BitVec 256) (kvL kvT : Nat) : Except Nat Plan :=
  let ra := refOf o.xa
  let rb := refOf o.xb
  let (nr, nc) := (extRows o.xc, extCols o.xc)
  let move (bin gath : Bool) : Except Nat Plan :=
    let g := gatherOf desc
    let e := c.tid g.tid
    let t := tidOf e
    if t.isNull then .error 0x04
    else if !gatherOk desc t.stride bin then .error 0x01
    else
      (let side := bytesAt o.xa (g.count * g.bytes) 1
       let base := bytesAt t.base 0 1
       let list := bytesAt o.xb (4 * g.count) 4
       .ok { Plan.none with
         tids := [e]
         reads := (if gath then [base] else [side]) ++ [list]
         writes := (if gath then [side] else [base]) ++ (if bin then [list, bytesAt g.ctr (4 * g.nbins) 4] else [])
         verReads := if gath then t.uses [] else []
         noVer := (if gath then [] else t.uses []) ++ (if bin then [(g.ctr, 4 * g.nbins, 0)] else []) })
  match o.op with
  | .cpy =>
      let n := fieldNat o.xc 0 32
      .ok { Plan.none with reads := [bytesAt o.xb n 1], writes := [bytesAt o.xa n 1], verReads := [(o.xb, n, 0)], noVer := [(o.xa, n, 0)] }
  | .cpyMc =>
      let n := fieldNat o.xc 0 32
      .ok { Plan.none with reads := [bytesAt o.xb n 1], writes := [bytesAt o.xa n 1], verReads := [(o.xb, n, 0)] }
  | .cpyT => tilePlan c rb nr nc [(ra, nc, nr)]
      (fun s d => s.fmt == d.fmt && s.spn == 0 && d.spn == 0 && (!fmtBlocks s.fmt || (s.sloc == 0 && d.sloc == 0))) false
  | .cpyQ => tilePlan c rb nr nc [(ra, nr, nc)] (fun s d => s.spn == 0 && quantOk d) false
  | .gath => move false true
  | .scat => move false false
  | .bin => move true false
  | .kvg =>
      let n := fieldNat o.xc 0 20
      let f := fieldNat o.xc 32 20
      let b := bytesAt (ptrPlus o.xb (4 * (f / kvT))) (if n = 0 then 0 else 4 * ((f + n - 1) / kvT + 1 - f / kvT)) 4
      .ok { Plan.none with reads := [b], writes := [bytesAt o.xa (n * kvL) 1], verReads := [(b.ptr, b.n, 0)] }
  | .kva =>
      let b := bytesAt (ptrPlus o.xb (4 * (fieldNat o.xc 0 20 / kvT))) 4 4
      .ok { Plan.none with reads := [bytesAt o.xa (2 * kvL) 1, b], writes := [b], verReads := [(b.ptr, 4, 0)], noVer := [(b.ptr, 4, 0)] }
  | .kvdem => .ok { Plan.none with reads := [bytesAt o.xa (4 * fieldNat o.xb 0 16) 4], verReads := [(o.xa, 4 * fieldNat o.xb 0 16, 0)] }
  | .kvrefInc => .ok { Plan.none with reads := [bytesAt o.xa (4 * fieldNat o.xb 0 16) 4], verReads := [(o.xa, 4 * fieldNat o.xb 0 16, 0)] }
  | .kvrefDec => .ok { Plan.none with reads := [bytesAt o.xa (4 * fieldNat o.xb 0 16) 4], verReads := [(o.xa, 4 * fieldNat o.xb 0 16, 0)] }
  | .cube => cubePlan c o
  | .cubeGa => cubePlan c o
  | .cubeGb => cubePlan c o
  | .cubeGk => cubePlan c o
  | .cubeSp => cubePlan c o
  | .aclr => .ok { Plan.none with banks := [(o.xa.toNat, 2 * o.xb.toNat)] }
  | .adrain =>
      let (m, n) := (fieldNat o.xc 5 5 + 1, fieldNat o.xc 0 5 + 1)
      let (h, w) := if bitAt o.flags 2 then (n, m) else (m, n)
      let e := c.tid rb.tid
      let t := tidOf e
      let chk := bitAt o.flags 0 || p.prot = 1
      let lane := (c.tens.lanes.toList.getD (fieldNat o.xa 0 8 / 2) Lane.zero)
      if t.isNull then .error 0x04
      else if (if bitAt o.flags 1 then !quantOk t else fmtBlocks t.fmt) || !t.writeOk rb h w || (chk && !lane.valid) then .error 0x0D
      else .ok { Plan.none with
        tids := [e], writes := t.spans (t.area rb h w), noVer := t.uses (t.spans (t.area rb h w)), banks := [(o.xa.toNat, 2)] }
  | .stt => tilePlan c rb nr nc [(ra, nr, nc)] (fun _ _ => true) true
  | .stg => tilePlan c rb nr nc [(ra, nr, nc)] (fun _ _ => true) true
  | .stp => tilePlan c rb nr nc [(ra, nr, nc), ({ tid := fieldNat o.xc 52 8, row0 := ra.col0, col0 := ra.row0 }, nc, nr)] (fun _ _ => true) true
  | .updSgd => updPlan c o
  | .updAdam => updPlan c o
  | .vrun => .ok Plan.none

/-! ### Step 4 -/

/-- The accessor of a push's pointer checks: the engine's space rules, faults of the control core. -/
def pushAcc (k : CoreRef) (op : EOp) : Acc :=
  { k := k, who := { agent := .core k, src := 0, tlb := 0 }, owner := 0, unit := if op = .cpy then .copier else .engine }

/-- Steps 1 to 4 of R124 for one pointer of a command: a zero length counts as one byte (R171). -/
def spanTrap (a : Acc) (l : Launch) (cp : Copy) (c : Core) (k : Kind) (x : Span) : Option Trap :=
  match checkPlace a l cp c x.ptr (atLeast1 x.n) x.align k with
  | .error t => some t
  | .ok _ => none

/-- Whether a pointer lies in a scratchpad space. -/
def inPad (p : Word) : Bool := ptrSpace p == 1 || ptrSpace p == 2 || ptrSpace p == 3 || ptrSpace p == 7

/-- The pointers of a command that must lie in scratchpad (R190, R193, R194); R190 says no such thing of `GD.ctr`. -/
def padOnly (o : Operands) : List Word :=
  match o.op with
  | .gath => [o.xa, o.xb]
  | .scat => [o.xa, o.xb]
  | .bin => [o.xa, o.xb]
  | .kvg => [o.xa]
  | .kva => [o.xa]
  | _ => []

/-- The own faults of step 4: scratchpad-only pointers, CPY.MC outside SELF or beyond a target's grant, a CPY of vector
words (R186, R188), and in class D BIN's counters (R191). -/
def ownSpaceTrap (l : Launch) (cp : Copy) (c : Core) (o : Operands) (desc : BitVec 256) (targets : List Nat) : Option Trap :=
  let t (code : Nat) (p : Word) : Option Trap := some (Trap.mk' code p)
  match (padOnly o).find? fun p => !inPad p with
  | some p => t 0x05 p
  | none =>
      let n := fieldNat o.xc 0 32
      match o.op with
      | .cpyMc =>
          if ptrSpace o.xa ≠ 7 then t 0x05 o.xa
          else if targets.any fun r => match cp.pad? (.usp r) with
            | some q => decide (q.limit < ptrOff o.xa + atLeast1 n)
            | none => true then t 0x04 o.xa
          else none
      | .cpy => if ptrSpace o.xa = 5 && n % 6 ≠ 0 then t 0x03 o.xa else none
      | .bin =>
          if l.packet.prot = 2 && !(ptrSpace (gatherOf desc).ctr = 7 || (ptrSpace (gatherOf desc).ctr = 1 && ptrOwner (gatherOf desc).ctr = c.rank)) then
            t 0x05 (gatherOf desc).ctr
          else none
      | _ => none

/-- The first fault of step 4 over the reads and writes of a plan. -/
def pointerTrap (a : Acc) (l : Launch) (cp : Copy) (c : Core) (p : Plan) : Option Trap :=
  match p.writes.findSome? (spanTrap a l cp c .write) with
  | some t => some t
  | none => p.reads.findSome? (spanTrap a l cp c .read)

/-! ### Versioned regions (R178, R215 to R217) -/

/-- The regions a use names: by `vreg`, else those whose range it touches. -/
def State.regionsNamed (s : State) (ctx : BitVec 6) (x : Word × Nat × Nat) : List Region :=
  if x.2.2 ≠ 0 then (s.region? ctx x.2.2).toList
  else if ptrSpace x.1 = 0 then
    (s.regions ctx).filter fun g => fieldNat x.1 0 52 < g.base + g.size && g.base < fieldNat x.1 0 52 + atLeast1 x.2.1
  else []

/-- Whether a use is versioned. -/
def State.versioned (s : State) (ctx : BitVec 6) (x : Word × Nat × Nat) : Bool := x.2.2 != 0 || !(s.regionsNamed ctx x).isEmpty

/-- Whether a use touches a slot range of some region. -/
def State.usesSlots (s : State) (ctx : BitVec 6) (x : Word × Nat × Nat) : Bool :=
  ptrSpace x.1 == 0 && (s.regions ctx).any fun g =>
    g.base + g.size < fieldNat x.1 0 52 + atLeast1 x.2.1 && fieldNat x.1 0 52 < g.base + (g.slots + 1) * g.size

/-- The open slot of a region as a record's slot: a torn slot is not open. -/
def State.openOf (s : State) (ctx : BitVec 6) (g : Region) : Option RecordOf :=
  (s.findSlot g fun st _ _ => st == 1).map fun i =>
    { region := g.id, slot := i, opening := ((s.opens.find? fun o => o.1 == ctx && o.2.1 == g.id && o.2.2.1 == i).map fun o => o.2.2.2).getD 0 }

/-- The newest live slot tagged below the open slot (R217). -/
def State.newestBelow (s : State) (g : Region) (v : BitVec 32) : Option Nat :=
  (List.range g.slots).foldl (fun (best : Option Nat) i =>
    if s.slotState g i = 3 && (s.slotTag g i).toNat < v.toNat then
      (match best with
       | none => some i
       | some j => if (s.slotTag g j).toNat < (s.slotTag g i).toNat then some i else some j)
    else best) none

/-- The slots fixed at push for one region: its open slot, and for a UPD the state slot it reads; nothing when there is none. -/
def State.slotOfRegion (s : State) (ctx : BitVec 6) (upd : Bool) (g : Region) : Option (RecordOf × List (Nat × Nat)) :=
  match s.openOf ctx g with
  | none => none
  | some w => if !upd then some (w, []) else (s.newestBelow g (s.slotTag g w.slot)).map fun i => (w, [(g.id, i)])

/-- The same for several regions. -/
def State.slotsOfRegions (s : State) (ctx : BitVec 6) (upd : Bool) : List Region → Option (List RecordOf × List (Nat × Nat))
  | [] => some ([], [])
  | g :: t =>
      match s.slotOfRegion ctx upd g, s.slotsOfRegions ctx upd t with
      | some (w, r), some (ws, rs) => some (if ws.contains w then ws else w :: ws, r ++ rs)
      | _, _ => none

/-- The slots fixed at push: open slots written, and state slots read (R215 to R217); nothing when a Version fault is
raised. -/
def State.slotsOf (s : State) (ctx : BitVec 6) (upd : Bool) (us : List (Word × Nat × Nat)) : Option (List RecordOf × List (Nat × Nat)) :=
  if us.any fun x => (upd && x.2.2 == 0) || (x.2.2 != 0 && (s.regionsNamed ctx x).isEmpty) then none
  else s.slotsOfRegions ctx upd ((us.flatMap (s.regionsNamed ctx)).eraseDups)

/-- Version faults of a push. -/
def State.versionFault (s : State) (ctx : BitVec 6) (binding : Option (BitVec 32)) (o : Operands) (p : Plan) (gVreg : Nat) : Bool :=
  (binding.isNone && p.verReads.any (s.versioned ctx)) ||
  (p.noVer.any fun x => s.versioned ctx x || s.usesSlots ctx x) ||
  ((o.op == .updSgd || o.op == .updAdam) && gVreg != 0)

/-! ### Step 6 -/

/-- The tokens a command waits on. -/
def waitsOf (e : EArgs) : List (BitVec 6) := [e.wait0, e.wait1, e.wait2].filter fun t => t != 63#6

/-- Push the waits and the post of a command, or nothing at a Token Order fault (R31). -/
def pushTokens (id : Nat) (ts : Vector Token 64) (post : BitVec 6) : List (BitVec 6) → Option (Vector Token 64)
  | [] => if post = 63#6 then some ts else (ts[post.toNat].pushPost 1).map fun t => ts.set post.toNat t
  | w :: rest =>
      match ts[w.toNat].pushWait 1 (some id) with
      | none => none
      | some t => pushTokens id (ts.set w.toNat t) post rest

/-! ### Entering -/

/-- The command as it enters a core's queue or lane. -/
def mkCmd (o : Operands) (c : Core) (p : Plan) (desc : BitVec 256) (chained : Bool) (lane : Bool) (gang : Option Nat) (gbar : BitVec 7)
    (mine : Option EArgs) (slots : List RecordOf × List (Nat × Nat)) (seg number : Nat) (after : List Nat) (pc : Word)
    (chunks : List (PadId × Nat)) : Cmd :=
  let ws := (mine.map waitsOf).getD []
  { id := c.eng.nextCmd, op := o.op, xa := o.xa, xb := o.xb, xc := o.xc, flags := o.flags, waitsOn := ws, waits := ws,
    post := (mine.map fun e => e.post).getD 63#6, serial := (mine.map fun e => e.order == 1#2).getD false, chained := chained,
    lane := lane, gang := gang, gangBar := gbar, tids := p.tids, desc := desc, ks := c.vregs.k, slots := slots.1, seg := seg,
    record := if slots.1.isEmpty then 0 else match gang with
      | some g => 2 * g + 2
      | none => 2 * c.eng.nextCmd + 1, pc := pc, state := .queued, chunks := chunks, seen := [], writes := [],
    after := after, number := number, raised := 0#7, err := none,
    tileInt := (c.tens.lanes.toList.getD (fieldNat o.xa 0 8 / 2) Lane.zero).integer, readSlots := slots.2, norm := 0, normAdds := [],
    stale := [] }

/-- The commands of a copy that have not completed (R190). -/
def Copy.pushedNow (cp : Copy) (o : Operands) : List (Nat × Nat) :=
  if o.op == .gath || o.op == .scat || o.op == .bin then cp.cores.flatMap fun d => d.eng.cmds.map fun m => (d.rank, m.id) else []

/-- What a push leaves of the mode and valid bit of the tiles a cube-queue command names (R200, R205, R209). -/
def Core.markTiles (c : Core) (p : Packet) (o : Operands) (tids : List (BitVec 512)) : Core :=
  let on (first n : Nat) (f : Lane → Lane) : Core :=
    { c with tens := { c.tens with lanes := Vector.ofFn fun i =>
        if first ≤ i.val && i.val < first + n then f c.tens.lanes[i.val] else c.tens.lanes[i.val] } }
  let whole (x : BitVec 512) : Bool := (tidOf x).fmt == 0x00 || (tidOf x).fmt == 0x04 || (tidOf x).fmt == 0x0E || (tidOf x).fmt == 0x10
  let cube : Core :=
    on (fieldNat o.xc 56 8 / 2) 1 fun y =>
      { y with integer := tids.all whole, valid := y.valid && (bitAt o.flags 0 || p.prot == 1) }
  match o.op with
  | .aclr => on (o.xa.toNat / 2) o.xb.toNat fun y => { y with integer := false, valid := true }
  | .cube => cube
  | .cubeGa => cube
  | .cubeGb => cube
  | .cubeGk => cube
  | .cubeSp => cube
  | _ => c

/-- Targets of CPY.MC by rank (R186), or nothing when one is outside the rectangle. -/
def mcTargets (l : Launch) (c : Core) (xc : Word) (gang : Option (List Nat)) : Option (List Nat) :=
  let bits := (List.range 16).filter fun i => bitAt xc (32 + i)
  match gang with
  | some ps => some (bits.filterMap fun i => ps[i]?)
  | none =>
      let rs := bits.map fun i => c.rank / 4 * 4 + i
      if rs.all fun r => isRank l.packet.h l.packet.w r then some rs else none

/-- The chunks a command reserves (Table 05-5). -/
def chunksFor (l : Launch) (cp : Copy) (c : Core) (o : Operands) (p : Plan) (targets : List Nat) : List (PadId × Nat) :=
  match o.op with
  | .cpyMc =>
      let n := fieldNat o.xc 0 32
      if n = 0 then [] else chunksOf (targets.map fun r => (.usp r, ptrOff o.xa, n))
  | .scat => []
  | .bin => []
  | .kva => []
  | .updSgd => []
  | .updAdam => []
  | .vrun => []
  | _ => chunksOf (p.writes.flatMap (padRange l cp c))

/-- The pieces of KV geometry a plan needs: L, and T of at least one. -/
def State.kvGeom (s : State) (part : BitVec 4) : Nat × Nat := (if s.khEn part.toNat then s.khL part.toNat else 0, s.khT part.toNat)

/-- Checks of steps 3 to 5 at one core. -/
def checkPlan (k : CoreRef) (o : Operands) (desc : BitVec 256) (targets : List Nat) :
    Act (Except Trap (Plan × List RecordOf × List (Nat × Nat))) := do
  let s ← get
  let (l, cp, c) ← ctxOf k
  let (kl, kt) := s.kvGeom l.part
  match planOf l.packet c o desc kl kt with
  | .error code => pure (.error (Trap.mk' code))
  | .ok p =>
      match pointerTrap (pushAcc k o.op) l cp c p with
      | some t => pure (.error t)
      | none =>
          match ownSpaceTrap l cp c o desc targets with
          | some t => pure (.error t)
          | none =>
              let upd := o.op == .updSgd || o.op == .updAdam
              let gVreg := if upd then (p.tids.getLast?.map fun t => (tidOf t).vreg).getD 0 else 0
              if s.versionFault l.ctx cp.binding o p gVreg then pure (.error (Trap.mk' 0x08))
              else
                match s.slotsOf l.ctx upd p.stores with
                | none => pure (.error (Trap.mk' 0x08))
                | some sl =>
                    if p.banks.any fun b => b.2 != 0 && (b.1 % 2 != 0 || decide (256 < b.1 + b.2) || (List.range b.2).any fun i => !c.bankUsed (b.1 + i)) then
                      pure (.error (Trap.mk' 0x0C))
                    else pure (.ok (p, sl.1, sl.2))

/-- The gather descriptor of GATH, SCAT and BIN, read at push from SELF or the core's own unit scratchpad (R190). -/
def descOf (k : CoreRef) (o : Operands) : Act (BitVec 256) := do
  if o.op = .gath || o.op = .scat || o.op = .bin then do
    let x ← checkPtr (ctlAcc k) o.xc 32 32 .read
    match x with
    | .pad (.usp r) _ => raiseIf (r != k.rank) (Trap.mk' 0x05 o.xc)
    | _ => raise (Trap.mk' 0x05 o.xc)
    let bs ← ctlRead k o.xc 32 32
    pure (rowOf 256 bs)
  else pure 0#256

/-- Commands in a core's queue of an engine, or in its gang lane. -/
def Core.depth (c : Core) (src : Nat) (lane : Bool) : Nat := (c.eng.cmds.filter fun m => engineSrc m.op == src && m.lane == lane).length

/-- Append a command to a core. -/
def Core.enter (c : Core) (p : Packet) (o : Operands) (m : Cmd) : Core :=
  let c1 := c.markTiles p o m.tids
  { c1 with eng := { c1.eng with cmds := c1.eng.cmds ++ [m], nextCmd := c1.eng.nextCmd + 1 } }

/-- One push more since the checkpoint (R15). -/
def Core.countPush (c : Core) : Core := { c with loop := { c.loop with pushes := c.loop.pushes + 1 } }

/-- Whether a gang lane of an engine is full in one of some partners (R219). -/
def Copy.lanesFull (cp : Copy) (src : Nat) (partners : List Nat) : Bool :=
  partners.any fun r => ((cp.core? r).map fun d => decide (32 ≤ d.depth src true)).getD false

/-- A plain push, and CPY.MC under GANG: one command in the issuer's queue. -/
def pushOwn (k : CoreRef) (o : Operands) (e : EArgs) (chained : Bool) (gang : Option (Nat × BitVec 7 × List Nat)) (pc : Word) : Act Unit := do
  let (l, _, c) ← ctxOf k
  raiseIf (operandFault o (gang.map fun g => g.2.2.length) l.packet.vim != 0)
    (Trap.mk' (operandFault o (gang.map fun g => g.2.2.length) l.packet.vim))
  let desc ← descOf k o
  let targets ← (match (if o.op = .cpyMc then mcTargets l c o.xc (gang.map fun g => g.2.2) else some []) with
    | some t => pure t
    | none => raiseC 0x04 o.xa : Act (List Nat))
  let res ← checkPlan k o desc targets
  let (p, ws, rs) ← orRaise res
  let ts ← (match pushTokens c.eng.nextCmd c.sync.tokens e.post (waitsOf e) with
    | some t => pure t
    | none => raiseC 0x09 : Act (Vector Token 64))
  let (l, cp, c) ← ctxOf k
  holdIf (decide (32 ≤ c.depth (engineSrc o.op) false) || cp.lanesFull (engineSrc o.op) ((gang.map fun g => g.2.2).getD []))
  let chunks := chunksFor l cp c o p targets
  holdIf (chunks.any fun x => 63 ≤ (cp.chunk x).pend)
  let gid := gang.map fun g => g.1
  let m := { mkCmd o c p desc chained false gid ((gang.map fun g => g.2.1).getD 0#7) (some e) (ws, rs) c.muslin.seg
    c.loop.pushes (cp.outstanding c) pc chunks with prior := cp.pushedNow o }
  modify fun s => (s.bindLags (s.agentsOf k) (s.agentsOf k)).modCopy k fun cp => cp.reserve chunks
  onCore k fun c => { c with sync := { c.sync with tokens := ts } }
  onCore k fun c => (c.enter l.packet o m).countPush
  match gang with
  | some g => onCore k fun c => { c with eng := { c.eng with gangs := c.eng.gangs ++ [{ id := g.1, bar := g.2.1, partners := g.2.2, left := [k.rank] }] } }
  | none => pure ()

/-! ### Gang replicas (R219) -/

/-- What one replica's entry would reserve, or its fault. -/
structure Replica where
  rank : Nat
  res : Except Trap (Plan × List RecordOf × List (Nat × Nat))
  chunks : List (PadId × Nat)

/-- Check every replica. -/
def checkReplicas (k : CoreRef) (o : Operands) : List Nat → Act (List Replica)
  | [] => pure []
  | r :: t => do
      let (l, cp, c) ← ctxOf (atRank k r)
      let res ← checkPlan (atRank k r) o 0#256 []
      let chunks := match res with
        | .ok p => chunksFor l cp c o p.1 []
        | .error _ => []
      let rest ← checkReplicas k o t
      pure ({ rank := r, res := res, chunks := chunks } :: rest)

/-- The first replica that fails its checks, with its fault. -/
def failedReplica : List Replica → Option (Nat × Trap)
  | [] => none
  | x :: t => match x.res with
      | .error tr => some (x.rank, tr)
      | .ok _ => failedReplica t

/-- Enter every replica in its lane: the issuer's carries the waits, the post and the order. `after`: what the issuer's control core has
made or read and is short of device scope (Table 08-3). -/
def enterReplicas (k : CoreRef) (o : Operands) (e : EArgs) (chained : Bool) (gid : Nat) (bar : BitVec 7) (seg number : Nat) (after : List Nat)
    (pc : Word) : List Replica → Act Unit
  | [] => pure ()
  | x :: t => do
      let j := atRank k x.rank
      let (l, _, c) ← ctxOf j
      match x.res with
      | .error _ => pure ()
      | .ok (p, ws, rs) => do
          let m := mkCmd o c p 0#256 chained true (some gid) bar (if x.rank = k.rank then some e else none) (ws, rs) seg number after pc x.chunks
          modify fun s => s.modCopy k fun cp => cp.reserve x.chunks
          onCore j fun c => c.enter l.packet o m
      enterReplicas k o e chained gid bar seg number after pc t

/-- The pointers of a governed command that come from operand registers: those of CPY (R219). -/
def gangPointers (k : CoreRef) (o : Operands) : Act Unit := do
  let (l, cp, c) ← ctxOf k
  if o.op = .cpy then do
    let p : Plan := (match planOf l.packet c o 0#256 0 1 with
      | .ok p => p
      | .error _ => Plan.none)
    match pointerTrap (pushAcc k o.op) l cp c p with
    | some t => raise t
    | none =>
        match ownSpaceTrap l cp c o 0#256 [] with
        | some t => raise t
        | none => raiseIf ((← get).versionFault l.ctx cp.binding o p 0) (Trap.mk' 0x08)

/-- A push under GANG of any command but CPY.MC. -/
def pushGang (k : CoreRef) (o : Operands) (e : EArgs) (chained : Bool) (bar : BitVec 7) (partners : List Nat) (pc : Word) : Act Unit := do
  let (l, cp, c) ← ctxOf k
  raiseIf (operandFault o (some partners.length) l.packet.vim != 0) (Trap.mk' (operandFault o (some partners.length) l.packet.vim))
  gangPointers k o
  let ts ← (match pushTokens c.eng.nextCmd c.sync.tokens e.post (waitsOf e) with
    | some t => pure t
    | none => raiseC 0x09 : Act (Vector Token 64))
  let src := engineSrc o.op
  holdIf (decide (32 ≤ c.depth src false) || cp.lanesFull src partners)
  let reps ← checkReplicas k o partners
  match failedReplica reps with
  | some (r, tr) => do
      modify fun s => s.takeFault (.core (atRank k r)) { tr with src := src, gang := true }
      hold
  | none => pure ()
  let all := reps.flatMap fun x => x.chunks
  holdIf (all.any fun y => decide (63 < (cp.chunk y).pend + all.count y))
  let gid := c.eng.nextCmd * 4096 + k.rank
  onCore k fun c => { c with sync := { c.sync with tokens := ts } }
  modify fun s => s.bindLags (s.agentsOf k) (partners.flatMap fun r => s.agentsOf (atRank k r))
  enterReplicas k o e chained gid bar c.muslin.seg c.loop.pushes (cp.outstanding c) pc reps
  onCore k fun c => { c.countPush with eng := { c.eng with gangs := c.eng.gangs ++ [{ id := gid, bar := bar, partners := partners, left := partners }] } }

/-! ### The instruction -/

/-- The operand values of an E-form (R57, R172). -/
def operandsOf (op : EOp) (e : EArgs) (r : Regs) : Operands :=
  { op := op, flags := e.flags, xa := r.get e.xa, xb := r.get e.xb, xc := r.get e.xc }

/-- A push, with GANG's barrier register when governed by it, as an instruction of `len` bytes. -/
def push (op : EOp) (e : EArgs) (gang : Option (BitVec 6)) (chained : Bool) (len : Nat) (s : State) : Host.Outcome State Fault Refusal :=
  scalar e.guard len s fun r => do
    let (k, l, _, c) ← theCore
    let o := operandsOf op e r
    holdIf (o.readsK && c.eng.cmds.any fun m => m.op == .vrun)
    match gang with
    | none => pushOwn k o e chained none r.pc
    | some g => do
        let b := r.get g
        raiseIf (fieldNat b 7 57 != 0) (Trap.mk' 0x01)
        let partners := gangRanks l.packet.w l.packet.gh l.packet.gw c.row c.col
        if op = .cpyMc then pushOwn k o e chained (some (c.eng.nextCmd * 4096 + k.rank, b.setWidth 7, partners)) r.pc
        else pushGang k o e chained (b.setWidth 7) partners r.pc
    pure .adv

/-- CPY (R184, R185). -/
def execCpy (e : EArgs) (s : State) : Host.Outcome State Fault Refusal := push .cpy e none false 8 s
/-- CPY.T (R185). -/
def execCpyT (e : EArgs) (s : State) : Host.Outcome State Fault Refusal := push .cpyT e none false 8 s
/-- CPY.MC (R186). -/
def execCpyMc (e : EArgs) (s : State) : Host.Outcome State Fault Refusal := push .cpyMc e none false 8 s
/-- CPY.Q (R187). -/
def execCpyQ (e : EArgs) (s : State) : Host.Outcome State Fault Refusal := push .cpyQ e none false 8 s
/-- GATH (R190, R191). -/
def execGath (e : EArgs) (s : State) : Host.Outcome State Fault Refusal := push .gath e none false 8 s
/-- SCAT (R190, R191). -/
def execScat (e : EArgs) (s : State) : Host.Outcome State Fault Refusal := push .scat e none false 8 s
/-- BIN (R190, R191). -/
def execBin (e : EArgs) (s : State) : Host.Outcome State Fault Refusal := push .bin e none false 8 s
/-- KVG (R193). -/
def execKvg (e : EArgs) (s : State) : Host.Outcome State Fault Refusal := push .kvg e none false 8 s
/-- CUBE (R198). -/
def execCube (e : EArgs) (s : State) : Host.Outcome State Fault Refusal := push .cube e none false 8 s
/-- CUBE.GA (R198). -/
def execCubeGa (e : EArgs) (s : State) : Host.Outcome State Fault Refusal := push .cubeGa e none false 8 s
/-- CUBE.GB (R198). -/
def execCubeGb (e : EArgs) (s : State) : Host.Outcome State Fault Refusal := push .cubeGb e none false 8 s
/-- CUBE.GK (R198). -/
def execCubeGk (e : EArgs) (s : State) : Host.Outcome State Fault Refusal := push .cubeGk e none false 8 s
/-- CUBE.SP (R203). -/
def execCubeSp (e : EArgs) (s : State) : Host.Outcome State Fault Refusal := push .cubeSp e none false 8 s
/-- ACLR (R209). -/
def execAclr (e : EArgs) (s : State) : Host.Outcome State Fault Refusal := push .aclr e none false 8 s
/-- ADRAIN (R210). -/
def execAdrain (e : EArgs) (s : State) : Host.Outcome State Fault Refusal := push .adrain e none false 8 s
/-- STT (R212). -/
def execStt (e : EArgs) (s : State) : Host.Outcome State Fault Refusal := push .stt e none false 8 s
/-- STP (R213). -/
def execStp (e : EArgs) (s : State) : Host.Outcome State Fault Refusal := push .stp e none false 8 s
/-- STG (R214). -/
def execStg (e : EArgs) (s : State) : Host.Outcome State Fault Refusal := push .stg e none false 8 s
/-- UPD.SGD (R216). -/
def execUpdSgd (e : EArgs) (s : State) : Host.Outcome State Fault Refusal := push .updSgd e none false 8 s
/-- UPD.ADAM (R216). -/
def execUpdAdam (e : EArgs) (s : State) : Host.Outcome State Fault Refusal := push .updAdam e none false 8 s
/-- VRUN (R218). -/
def execVrun (e : EArgs) (s : State) : Host.Outcome State Fault Refusal := push .vrun e none false 8 s
/-- GANG with the instruction it governs, and a CHAIN between them when named (R219, R222). -/
def execGang (xa : BitVec 6) (chained : Bool) (op : EOp) (e : EArgs) (s : State) : Host.Outcome State Fault Refusal :=
  push op e (some xa) chained (if chained then 24 else 16) s
/-- CHAIN with the instruction it governs (R222). -/
def execChain (op : EOp) (e : EArgs) (s : State) : Host.Outcome State Fault Refusal := push op e none true 16 s

end Sys2Proof.Machine
end

