-- ==== Sys2Proof/Machine/CopyRun.lean ====
section
/-! DEFINITION. What the copy queue's commands do when they run (R185 to R193): reads, computation and the writes they
leave to be performed. -/

namespace Sys2Proof.Machine

/-- What a command's run leaves to its writes and its completion. -/
structure Work where
  writes : List PendWrite
  raised : Flags
  norm : Nat
  normAdds : List (Option Nat)
deriving DecidableEq, Repr

/-- Writes and flags only. -/
def Work.of (ws : List PendWrite) (f : Flags) : Work := { writes := ws, raised := f, norm := 0, normAdds := [] }

/-- A captured TID entry of a command. -/
def Cmd.tid (m : Cmd) (i : Nat) : Tid := tidOf (m.tids.getD i tidNull)

/-! ### Forming writes -/

/-- Bytes at a pointer, single-copy atomic one by one; `seq`: their place in the command's order (R309). -/
def byteWrites (a : Acc) (p : Word) (bs : List Byte) (seq : Nat) : Act (List PendWrite) :=
  if bs.isEmpty then pure []
  else do
    let ps ← spanPieces a [] (bytesAt p bs.length 1)
    pure (ps.map fun x => { loc := x.2.2, data := (bs.drop x.1).take x.2.1, half := none, bytewise := true, slotOf := none, seq := seq,
                            below := x.1, above := bs.length - (x.1 + x.2.1) })

/-- The accessor of a command that has read what it asked for goes on. -/
def sourcesRead (k : CoreRef) (m : Cmd) : Act Unit := readsDone (m.acc k 1)

/-- The elements a tile write encodes: stored row, stored column and code; row, block and delta; flags. -/
structure Enc where
  elems : List (Nat × Nat × Nat)
  deltas : List (Nat × Nat × Nat)
  flags : Flags
deriving DecidableEq, Repr

/-- Draws of SR by stored element (R88, R187). -/
def srDraw (mode : Mode) (ks : Vector (BitVec 32) 16) (t : Tid) (r c : Nat) : Nat :=
  if mode = .sr then newtSr (ks[11] ++ ks[10]) ks[12] (BitVec.ofNat 64 (r * t.cols + c)) else 0

/-- Encode a tile of `nr` × `nc` values at a reference of a tensor: converted (R89), quantised in blocks (R94 to R96), or
the same bits. `val i j` and `same i j` are those of element (i, j) of the tile. -/
def encodeTile (t : Tid) (x : TileRef) (nr nc : Nat) (mode : Mode) (ks : Vector (BitVec 32) 16) (val : Nat → Nat → Val × Flags)
    (same : Option (Nat → Nat → Nat)) : Enc :=
  let a := t.area x nr nc
  let at' (r c : Nat) : Nat × Nat := if t.tr then (c - x.row0, r - x.col0) else (r - x.row0, c - x.col0)
  let cols := (List.range (a.cN - a.c0)).map fun i => a.c0 + i
  match same with
  | some f => { elems := a.rows.flatMap fun r => cols.map fun c => (r, c, f (at' r c).1 (at' r c).2), deltas := [], flags := fNone }
  | none =>
      if fmtBlocks t.fmt then
        (let blocks := (List.range ((a.cN + 31) / 32 - a.c0 / 32)).map fun i => a.c0 / 32 + i
         let one (r b : Nat) : List (Nat × Nat × Nat) × (Nat × Nat × Nat) × Flags :=
           let lo := max a.c0 (32 * b)
           let vs := (List.range (min a.cN (32 * b + 32) - lo)).map fun i => val (at' r (lo + i)).1 (at' r (lo + i)).2
           let q := quantBlock (t.sloc != 1) (lo % 32) t.fmt t.ebase mode (fun i => srDraw mode ks t r (lo + i)) (vs.map fun v => v.1)
           (q.codes.zipIdx.map fun p => (r, lo + p.2, p.1), (r, b, q.delta), q.flags ||| joinFlags (vs.map fun v => v.2))
         let es := a.rows.flatMap fun r => blocks.map fun b => one r b
         { elems := es.flatMap fun e => e.1, deltas := if t.sloc = 1 then es.map fun e => e.2.1 else [],
           flags := joinFlags (es.map fun e => e.2.2) })
      else
        (let es := a.rows.flatMap fun r => cols.map fun c =>
           let v := val (at' r c).1 (at' r c).2
           let e := convertElem t.fmt mode (srDraw mode ks t r c) v.1
           ((r, c, e.1), v.2 ||| e.2)
         { elems := es.map fun e => e.1, deltas := [], flags := joinFlags (es.map fun e => e.2) })

/-- The writes of an encoded tile. -/
def tileWrites (a : Acc) (slots : List RecordOf) (t : Tid) (x : TileRef) (nr nc : Nat) (e : Enc) : Act (List PendWrite) := do
  let ar := t.area x nr nc
  let w1 ← writeRows a slots t e.elems (t.dataSpans ar)
  let w2 ← (if e.deltas.isEmpty then pure [] else writeDeltas a slots t e.deltas (t.deltaSpans ar) : Act (List PendWrite))
  pure (w1 ++ w2)

/-! ### Overlap (R189)

Each choice is fixed for the command, so that the copies of a launch and a second run agree (R15). -/

/-- A choice of a command: for its core, by number. -/
def Cmd.pick (m : Cmd) (l : Launch) (cp : Copy) (rank i : Nat) : Bool :=
  let by' := m.issuer rank
  Config.fixedBool l.lid (((cp.core? by').map fun c => c.loop.ckpt).getD 0) by' m.number (i + 2 ^ 40 * rank)

/-- R189 for a copy whose destination lies `d` bytes beyond its source: each byte is the source's before the command, or
what the command writes there. -/
def mixBytes (pick : Nat → Bool) (d : Nat) : List Byte → List Byte → List Byte
  | done, [] => done
  | done, b :: t =>
      mixBytes pick d (done ++ [if done.length < d || pick done.length then b else done.getD (done.length - d) b]) t

/-- Bytes of a copy whose two sides may overlap. -/
def overlapped (x y : Loc) (pick : Nat → Bool) (bs : List Byte) : List Byte :=
  let n := bs.length
  if n = 0 || !(x.meets n y n) || x.offset = y.offset then bs
  else if y.offset < x.offset then mixBytes pick (x.offset - y.offset) [] bs
  else (mixBytes pick (y.offset - x.offset) [] bs.reverse).reverse

/-! ### CPY and CPY.MC -/

/-- CPY (R185). -/
def runCpy (k : CoreRef) (m : Cmd) : Act Work := do
  let n := fieldNat m.xc 0 32
  if n = 0 then pure (Work.of [] fNone)
  else do
    let src ← readSpan (m.acc k 1) [] 1 (bytesAt m.xb n 1)
    sourcesRead k m
    let (l, cp, c) ← ctxOf k
    let bs := match locOf l cp c m.xa n, locOf l cp c m.xb n with
      | some x, some y => overlapped x y (m.pick l cp k.rank) src.bytes
      | _, _ => src.bytes
    let ws ← byteWrites (m.acc k 2) m.xa bs 0
    pure (Work.of ws fNone)

/-- What CPY.MC writes at one target: where the source overlaps the target it writes over, that target's bytes may come to any target
instead of those before (R189). -/
def mcBytes (targets : List PadId) (off : Nat) (y : Option Loc) (pick : Nat → Bool) (bs : List Byte) (at' : PadId) : List Byte :=
  let n := bs.length
  match y with
  | some (.pad q o) =>
      if !targets.contains q then bs
      else
        (let own := overlapped (.pad q off) (.pad q o) pick bs
         if at' = q then own
         else bs.zipIdx.map fun p =>
           if off ≤ o + p.2 && o + p.2 < off + n && !pick (p.2 + 2 ^ 32 * (1 + (match at' with
             | .usp r => r
             | .cls r => r
             | .dsp r => r))) then own.getD (o + p.2 - off) p.1 else p.1)
  | _ => bs

/-- CPY.MC (R186): one read, the same bytes at the same offset of every target. -/
def runCpyMc (k : CoreRef) (m : Cmd) : Act Work := do
  let n := fieldNat m.xc 0 32
  let (l, _, c) ← ctxOf k
  let gang := m.gang.map fun _ => gangRanks l.packet.w l.packet.gh l.packet.gw c.row c.col
  let targets := (mcTargets l c m.xc gang).getD []
  if n = 0 || targets.isEmpty then pure (Work.of [] fNone)
  else do
    let src ← readSpan (m.acc k 1) [] 1 (bytesAt m.xb n 1)
    sourcesRead k m
    let (l, cp, c) ← ctxOf k
    let ids : List PadId := targets.map PadId.usp
    pure (Work.of (ids.map fun q =>
      { loc := .pad q (ptrOff m.xa), data := mcBytes ids (ptrOff m.xa) (locOf l cp c m.xb n) (m.pick l cp k.rank) src.bytes q,
        half := none, bytewise := true, slotOf := none }) fNone)

/-! ### CPY.T and CPY.Q -/

/-- The place of the first byte of a stored row of a tensor, and of its delta array, before translation. -/
def Tid.rowLoc (t : Tid) (l : Launch) (cp : Copy) (c : Core) (r : Nat) : Option Loc := locOf l cp c (ptrPlus t.base (r * t.stride)) 1
def Tid.deltaLoc (t : Tid) (l : Launch) (cp : Copy) (c : Core) : Option Loc := locOf l cp c t.sptr 1

/-- A byte of memory after some elements and deltas of a tensor have been written. -/
def patchByte (t : Tid) (row : Nat → Option Loc) (delta : Option Loc) (e : Enc) (x : Loc) (b : Byte) : Byte :=
  let w := fmtBits t.fmt
  let b1 := e.elems.foldl (fun b p => match row p.1 with
    | some y =>
        if 8 ≤ w then (List.range (w / 8)).foldl (fun b i =>
          if y.plus (p.2.1 * (w / 8) + i) = x then BitVec.ofNat 8 (p.2.2 / 2 ^ (8 * i)) else b) b
        else if y.plus (p.2.1 * w / 8) = x then putField b (p.2.1 * w % 8) w p.2.2 else b
    | none => b) b
  match delta with
  | some y => e.deltas.foldl (fun b p =>
      let i := p.1 * t.blocks + p.2.1
      if y.plus (i / 2) = x then putField b (4 * (i % 2)) 4 p.2.2 else b) b1
  | none => b1

/-- What was read of a tensor, as it reads after bytes have changed. -/
def View.patch (v : View) (row : Nat → Option Loc) (delta : Option Loc) (f : Loc → Byte → Byte) : View :=
  let part (y : Option Loc) (p : RowPart) : RowPart := match y with
    | some z => { p with bytes := p.bytes.zipIdx.map fun b => f (z.plus (p.off + b.2)) b.1 }
    | none => p
  { v with data := v.data.map fun p => part (row p.row) p, deltas := v.deltas.map fun p => part delta p }

/-- Number of a stored element of a destination tile of `nc` columns, in the order of the tile. -/
def tileIdx (t : Tid) (x : TileRef) (nc r c : Nat) : Nat :=
  if t.tr then (c - x.row0) * nc + (r - x.col0) else (r - x.row0) * nc + (c - x.col0)

/-- Whether element `p` of a copy may find element `q` written (R189): it is taken late, and `q` early or before it. -/
def after (pick : Nat → Bool) (p q : Nat) : Bool := !pick (p + 1) && (pick (q + 1) || (if pick 0 then decide (q < p) else decide (p < q)))

/-- A copy of a tile, each element from the source as it was or as the command has written it: rounds of encoding, in each of which the
late elements read what the elements before them wrote in the last. -/
def mixTile (enc : (Nat → View) → Enc) (late : Enc → Nat → View) : Nat → Enc → Enc
  | 0, e => e
  | n + 1, e => mixTile enc late n (enc (late e))

/-- A tile copy: `enc` encodes the destination from a view of the source for each element. -/
def copyTile (k : CoreRef) (m : Cmd) (td ts : Tid) (rd : TileRef) (nr nc : Nat) (v : View) (enc : (Nat → View) → Enc) : Act Work := do
  let (l, cp, c) ← ctxOf k
  let pick := m.pick l cp k.rank
  let area := td.area rd nr nc
  let dst := (td.dataSpans area ++ td.deltaSpans area).filterMap fun x => (locOf l cp c x.ptr x.n).map fun y => (y, x.n)
  let hit (r : Option Loc) (p : RowPart) : Bool := match r with
    | some y => dst.any fun d => d.1.meets d.2 (y.plus p.off) p.bytes.length
    | none => false
  let e0 := enc fun _ => v
  let e := if (v.data.any fun p => hit (ts.rowLoc l cp c p.row) p) || v.deltas.any (hit (ts.deltaLoc l cp c)) then
      mixTile enc (fun e p =>
        if pick (p + 1) then v
        else
          (let own := { e with
             elems := e.elems.filter fun q => after pick p (tileIdx td rd nc q.1 q.2.1)
             deltas := e.deltas.filter fun q => after pick p (tileIdx td rd nc q.1 (max (32 * q.2.1) area.c0)) }
           v.patch (ts.rowLoc l cp c) (ts.deltaLoc l cp c) (patchByte td (td.rowLoc l cp c) (td.deltaLoc l cp c) own))) (nr * nc) e0
    else e0
  let ws ← tileWrites (m.acc k 2) [] td rd nr nc e
  pure (Work.of ws e.flags)

/-- CPY.T (R185): codes move unchanged. -/
def runCpyT (k : CoreRef) (m : Cmd) : Act Work := do
  let (nr, nc) := (extRows m.xc, extCols m.xc)
  let (rd, rs) := (refOf m.xa, refOf m.xb)
  let (td, ts) := (m.tid 0, m.tid 1)
  let v ← readArea (m.acc k 1) [] ts (ts.area rs nr nc)
  sourcesRead k m
  copyTile k m td ts rd nc nr v fun view =>
    encodeTile td rd nc nr .rne m.ks (fun _ _ => (vZero, fNone)) (some fun j i => (view (j * nr + i)).raw (rs.row0 + i) (rs.col0 + j))

/-- CPY.Q (R187). -/
def runCpyQ (k : CoreRef) (m : Cmd) : Act Work := do
  let (nr, nc) := (extRows m.xc, extCols m.xc)
  let (rd, rs) := (refOf m.xa, refOf m.xb)
  let (td, ts) := (m.tid 0, m.tid 1)
  let v ← readArea (m.acc k 1) [] ts (ts.area rs nr nc)
  sourcesRead k m
  copyTile k m td ts rd nr nc v fun view =>
    encodeTile td rd nr nc (modeOf (fieldNat m.flags 0 3)) m.ks (fun i j => (view (i * nc + j)).elem (rs.row0 + i) (rs.col0 + j)) none

/-! ### GATH, SCAT, BIN (R191) -/

/-- The index that names no row. -/
def noRow : BitVec 32 := 0xFFFFFFFF#32

/-- Pointer of row q of a gathered tensor. -/
def rowPtr (t : Tid) (g : Gather) (q : Nat) : Word := ptrPlus t.base (q * t.stride + g.off)

/-- Bytes at a pointer that a command reads one by one. -/
def readBytes (k : CoreRef) (m : Cmd) (p : Word) (n e : Nat) : Act (List Byte) :=
  if n = 0 then pure []
  else do
    let r ← readSpan (m.acc k 1) [] e (bytesAt p n e)
    pure r.bytes

/-- The command as it stands. -/
def cmdNow (k : CoreRef) (id : Nat) : Act Cmd := do
  let c ← coreNow k
  need (c.cmd? id)

/-- An entry's writes and flags are added to the command. -/
def addWork (k : CoreRef) (id : Nat) (ws : List PendWrite) (f : Flags) : Act Unit :=
  onCore k fun c => c.modCmd id fun m => { m with writes := m.writes ++ ws, raised := m.raised ||| f }

/-- The entries of an index list in increasing j, from the first not yet processed; in a step that makes only some reads it may stop
before any of them. `ordered`: all that earlier entries write is performed first (R309). -/
def eachEntry (k : CoreRef) (id : Nat) (ordered : Bool) (step : Nat → Act Unit) : Nat → Nat → Act Unit
  | 0, _ => pure ()
  | n + 1, j => do
      let m ← cmdNow k id
      if j < m.entries then eachEntry k id ordered step n (j + 1)
      else do
        let now ← (if m.partly then chooseB else pure true : Act Bool)
        holdIf (!now)
        if ordered && !m.writes.isEmpty then do
          onCore k fun c => c.modCmd id fun m => { m with writes := [] }
          performSome k m m.writes
        step j
        onCore k fun c => c.modCmd id fun m => { m with entries := j + 1, got := [] }
        eachEntry k id ordered step n (j + 1)

/-- What is left to the writes and the completion of a command that works entry by entry. -/
def entriesDone (k : CoreRef) (id : Nat) : Act Work := do
  let m ← cmdNow k id
  pure (Work.of m.writes m.raised)

/-- Entry j of the index list. -/
def readIndex (k : CoreRef) (m : Cmd) (j : Nat) : Act (BitVec 32) := do
  let bs ← readBytes k m (ptrPlus m.xb (4 * j)) 4 4
  pure (BitVec.ofNat 32 (leNat bs))

/-- One entry of GATH: a row of the tensor, or zeros, to the contiguous side. -/
def gathEntry (k : CoreRef) (m : Cmd) (g : Gather) (j : Nat) : Act Unit := do
  let t := m.tid 0
  let i ← readIndex k m j
  sourcesRead k m
  let dst := ptrPlus m.xa (j * g.bytes)
  if i = noRow then pure ()
  else if t.rows ≤ i.toNat then do
    let ws ← byteWrites (m.acc k 2) dst (List.replicate g.bytes 0#8) 0
    addWork k m.id ws fFormat
  else do
    let bs ← readBytes k m (rowPtr t g i.toNat) g.bytes 1
    sourcesRead k m
    let ws ← byteWrites (m.acc k 2) dst bs 0
    addWork k m.id ws fNone

/-- GATH. -/
def runGath (k : CoreRef) (m : Cmd) : Act Work := do
  let g := gatherOf m.desc
  eachEntry k m.id false (gathEntry k m g) g.count 0
  entriesDone k m.id

/-- Row j of the contiguous side goes to row q of the tensor. -/
def sideRow (k : CoreRef) (m : Cmd) (g : Gather) (q j : Nat) : Act Unit := do
  let bs ← readBytes k m (ptrPlus m.xa (j * g.bytes)) g.bytes 1
  sourcesRead k m
  let ws ← byteWrites (m.acc k 2) (rowPtr (m.tid 0) g q) bs (j + 1)
  addWork k m.id ws fNone

/-- One entry of SCAT. -/
def scatEntry (k : CoreRef) (m : Cmd) (g : Gather) (j : Nat) : Act Unit := do
  let i ← readIndex k m j
  sourcesRead k m
  if i = noRow then pure ()
  else if (m.tid 0).rows ≤ i.toNat then addWork k m.id [] fFormat
  else sideRow k m g i.toNat j

/-- SCAT: the row of the largest j stands. -/
def runScat (k : CoreRef) (m : Cmd) : Act Work := do
  let g := gatherOf m.desc
  eachEntry k m.id true (scatEntry k m g) g.count 0
  entriesDone k m.id

/-- A bin's counter before it rises by one: at its bank in one step (its atomic ALU), or a word of another space. -/
def binCounter (k : CoreRef) (m : Cmd) (g : Gather) (j e : Nat) : Act Nat := do
  let p := ptrPlus g.ctr (4 * e)
  let up (n : Nat) : List Byte := natLe 4 (min (n + 1) (2 ^ 32 - 1))
  let s ← get
  let hk := atRank k (m.issuer k.rank)
  let (l, cp, c) ← ctxOf k
  let (_, _, hc) ← ctxOf hk
  match locOf l cp c p 4 with
  | some (.pad q off) => do
      let trap := badTrap s (m.acc k 2) cp c (.pad q off) 4 .atomic none
      raiseIf trap.isSome (trap.getD (Trap.mk' 0x10))
      let old := cp.lastBytes q off 4
      observeAll k (((List.range 4).filterMap fun i => (cp.lastByte q (off + i)).1).eraseDups)
      onCore k fun d => d.modCmd m.id fun x => x.keepOld (oldBytes s l cp hc (.pad q off) 4)
      modify fun s => s.modCopy k fun c => { c with stores := c.stores + 1 }
      performPad k { id := cp.stores, cmd := some m.id, chain := j + 1, writer := k.rank, pad := q, off := off, data := up (leNat old),
                     scope := .unit, readBy := [] } (0, 0)
      pure (leNat old)
  | _ => do
      let bs ← readBytes k m p 4 4
      sourcesRead k m
      let ws ← byteWrites (m.acc k 2) p (up (leNat bs)) (j + 1)
      performSome k m ws
      pure (leNat bs)

/-- The same once per entry: the value is kept until the entry is done. -/
def binCounterOnce (k : CoreRef) (m : Cmd) (g : Gather) (j e : Nat) : Act Nat := do
  let m ← cmdNow k m.id
  match m.got.find? fun x => x.1 == .row j with
  | some x => pure (leNat x.2)
  | none => do
      let n ← binCounter k m g j e
      onCore k fun c => c.modCmd m.id fun m => { m with got := m.got ++ [(.row j, natLe 4 n)] }
      pure n

/-- One entry of BIN: its list entry is read, its counter rises, and both writes follow. A row at or beyond the tensor's last is not
written (log entry 36). -/
def binEntry (k : CoreRef) (m : Cmd) (g : Gather) (j : Nat) : Act Unit := do
  let list (v : BitVec 32) (f : Flags) : Act Unit := do
    let ws ← byteWrites (m.acc k 2) (ptrPlus m.xb (4 * j)) (natLe 4 v.toNat) (j + 1)
    addWork k m.id (ws.map fun w => { w with bytewise := false }) f
  let i ← readIndex k m j
  sourcesRead k m
  if i = noRow then pure ()
  else if g.nbins ≤ i.toNat then list noRow fFormat
  else do
    let n ← binCounterOnce k m g j i.toNat
    if n < g.cap then do
      let q := i.toNat * g.cap + n
      if q < (m.tid 0).rows then sideRow k m g q j
      list (BitVec.ofNat 32 q) fNone
    else list noRow fSaturation

/-- BIN. -/
def runBin (k : CoreRef) (m : Cmd) : Act Work := do
  let g := gatherOf m.desc
  eachEntry k m.id true (binEntry k m g) g.count 0
  entriesDone k m.id

/-! ### KVG (R192, R193) -/

/-- Request the promotion of a block in the capacity tier. -/
def State.requestPromotion (s : State) (part : BitVec 4) (id : Nat) : State :=
  if s.kv.promote.contains (part, id) then s else { s with kv := { s.kv with promote := s.kv.promote ++ [(part, id)] } }

/-- The block of list position `b` of a KVG, translated when it is first needed (R193, R354); a reference that fails R192 is Access
Denied. -/
def kvgBlock (k : CoreRef) (m : Cmd) (part : BitVec 4) (b : Nat) (ref : BitVec 32) : Act KvSeen := do
  let m ← cmdNow k m.id
  match m.blocks.find? fun x => x.pos == b with
  | some x => pure x
  | none => do
      let s ← get
      match s.kvEntry part.toNat ref with
      | none => raise ((m.acc k 1).who.trap 0x05 0 .read 0 0)
      | some (id, e) => do
          raiseIf (s.kvBad part.toNat id) { (m.acc k 1).who.trap 0x10 0 .read 0 0 with durable := true }
          if (bitAt m.flags 1 || s.khApro part.toNat) && e.state == 3 then set (s.requestPromotion part id)
          let x : KvSeen := { pos := b, id := id, gen := e.gen, fill := e.fill, state := e.state, frame := e.frame }
          onCore k fun c => c.modCmd m.id fun m => { m with blocks := m.blocks ++ [x] }
          pure x

/-- The row `r` of a translated block: zeros at or beyond the fill of an open block. A row appended since the translation is read as
either (R354). -/
def kvgRow (k : CoreRef) (m : Cmd) (part : BitVec 4) (x : KvSeen) (r : Nat) : Act (List Byte) := do
  let s ← get
  let (len, t) := (s.khL part.toNat, s.khT part.toNat)
  let a := x.frame + ((if bitAt m.flags 0 then t else 0) + r) * len
  let row : Act (List Byte) := do
    holdIf (!s.dpaReady a)
    raiseIf (s.dram.badIn a len) { (m.acc k 1).who.trap 0x10 0 .read 0 0 with durable := true }
    pure (s.dram.bytes a len)
  if x.state != 1 || r < x.fill then row
  else do
    let e := s.kvGet part.toNat x.id
    let now := e.frame == x.frame && e.gen == x.gen && e.state != 0 && decide (r < e.fill)
    if ← (if now then chooseB else pure false : Act Bool) then row else pure (List.replicate len 0#8)

/-- The rows of tokens `i`, `i + 1`, …: each once, kept when it is read; `refs` are the list entries from position `b0` on. -/
def kvgRows (k : CoreRef) (m : Cmd) (part : BitVec 4) (b0 : Nat) (refs : Nat → BitVec 32) : Nat → Nat → Act (List Byte)
  | 0, _ => pure []
  | n + 1, i => do
      let m ← cmdNow k m.id
      let s ← get
      let (len, t) := (s.khL part.toNat, s.khT part.toNat)
      let bs ← (match m.got.find? fun g => g.1 == .row i with
        | some g => pure g.2
        | none => do
            if ← (if m.partly then chooseB else pure true : Act Bool) then do
              let x ← kvgBlock k m part (i / t) (refs (i / t - b0))
              let bs ← kvgRow k m part x (i % t)
              onCore k fun c => c.modCmd m.id fun m => { m with got := m.got ++ [(.row i, bs)] }
              pure bs
            else leaveShort (m.acc k 1) m len : Act (List Byte))
      let r ← kvgRows k m part b0 refs n (i + 1)
      pure (bs ++ r)

/-- KVG. -/
def runKvg (k : CoreRef) (m : Cmd) : Act Work := do
  let n := fieldNat m.xc 0 20
  let f := fieldNat m.xc 32 20
  if n = 0 then pure (Work.of [] fNone)
  else do
    let (l, _, _) ← ctxOf k
    let s ← get
    let t := s.khT l.part.toNat
    let b0 := f / t
    let cnt := (f + n - 1) / t + 1 - b0
    let list ← readSpan (m.acc k 1) [] 4 (bytesAt (ptrPlus m.xb (4 * b0)) (4 * cnt) 4)
    sourcesRead k m
    let bytes ← kvgRows k m l.part b0 (fun i => BitVec.ofNat 32 (leNat ((list.bytes.drop (4 * i)).take 4))) n f
    sourcesRead k m
    let ws ← byteWrites (m.acc k 2) m.xa bytes 0
    pure (Work.of ws fNone)

end Sys2Proof.Machine
end

