-- ==== Sys2Proof/Machine/CubeRun.lean ====
section
/-! DEFINITION. What the cube queue's commands do when they run (R99 to R103, R198 to R210, R370 to R373): step groups,
checksum lanes, checks, clears and drains. -/

namespace Sys2Proof.Machine

/-! ### Accumulator words (R200) -/

/-- Byte offset of D[i,j] of the tile at a bank. -/
def tileOff (bank i j : Nat) : Nat := bank * 2048 + (i * 32 + j) * 4

/-- D[i,j] of a tile as bits. -/
def Core.accWord (c : Core) (bank i j : Nat) : Nat := c.tens.acc.num (tileOff bank i j) 4

/-- Write accumulator bytes for a command: loads that race with it may still return the bytes before (R125). -/
def Core.putAcc (c : Core) (id off : Nat) (bs : List Byte) : Core :=
  let old := bs.zipIdx.map fun p => (Loc.acc (off + p.2), c.tens.acc.get (off + p.2))
  let c1 := { c with tens := { c.tens with acc := c.tens.acc.put off bs } }
  c1.modCmd id fun m => { m with old := (m.old.filter fun p => !(p.1.meets 1 (.acc off) bs.length)) ++ old }

/-- The accumulator as a command finds it: words that its pushing core has stored to since the push may still read as before (R125). -/
def earlyAcc : List (Loc × Byte) → Core → Act Core
  | [], c => pure c
  | (.acc o, b) :: t, c => do
      if ← chooseB then earlyAcc t { c with tens := { c.tens with acc := c.tens.acc.put o [b] } } else earlyAcc t c
  | _ :: t, c => earlyAcc t c

/-- Write one word of a tile. -/
def Core.putWord (c : Core) (id bank i j v : Nat) : Core := c.putAcc id (tileOff bank i j) (natLe 4 v)

/-- The lanes of the tile at a bank. -/
def Core.lane (c : Core) (bank : Nat) : Lane := c.tens.lanes.toList.getD (bank / 2) Lane.zero

/-- Change them. -/
def Core.modLane (c : Core) (bank : Nat) (f : Lane → Lane) : Core :=
  { c with tens := { c.tens with lanes := Vector.ofFn fun i => if i.val = bank / 2 then f c.tens.lanes[i.val] else c.tens.lanes[i.val] } }

/-- X[i,j] of a tile: D inside, lane values in row and column 32 (R204). -/
def Core.xWord (c : Core) (bank i j : Nat) : Nat :=
  if i < 32 && j < 32 then c.accWord bank i j
  else if j = 32 then ((c.lane bank).rows.getD i 0#32).toNat
  else ((c.lane bank).cols.getD j 0#32).toNat

/-- Set a value of a list of 33. -/
def setAt (l : List (BitVec 32)) (i v : Nat) : List (BitVec 32) := l.zipIdx.map fun p => if p.2 = i then BitVec.ofNat 32 v else p.1

/-- Set X[i,j]. -/
def Core.putX (c : Core) (id bank i j v : Nat) : Core :=
  if i < 32 && j < 32 then c.putWord id bank i j v
  else c.modLane bank fun y =>
    { y with rows := if j = 32 then setAt y.rows i v else y.rows, cols := if i = 32 then setAt y.cols j v else y.cols }

/-! ### Operands and products -/

/-- An operand or a product: its value, whether an input of it was NaN, and whether it is a product that is exactly
zero because its position lies outside a mask (R99). -/
structure Elt where
  val : Val
  nan : Bool
  out : Bool
deriving DecidableEq, Repr

/-- A value as an operand. -/
def Elt.of (v : Val) : Elt := { val := v, nan := v.isNan, out := false }

/-- One. -/
def Elt.one : Elt := Elt.of (ofIntV 1)

/-- A product. -/
def Elt.mul (a b : Elt) : Elt :=
  if a.out || b.out then { val := vZero, nan := false, out := true }
  else { val := (a.val.mul b.val).1, nan := a.nan || b.nan, out := false }

/-- An exact sum. -/
def Elt.add (a b : Elt) : Elt :=
  if a.out then b else if b.out then a else { val := (a.val.add b.val).1, nan := a.nan || b.nan, out := false }

/-- The exact sum of a list. -/
def eltSum : List Elt → Elt
  | [] => Elt.of vZero
  | [a] => a
  | a :: t => a.add (eltSum t)

/-- Exponent of a nonzero magnitude m·2^e: floor of its logarithm. -/
def topExp (m : Nat) (e : Int) : Int := e + Nat.log2 m

/-- The grid stage (R102): the sum of a group's products, and the invalid flag. -/
def gridStage (ps : List Elt) : Val × Flags :=
  let nanIn := ps.any fun p => p.nan
  let pos := ps.any fun p => p.val == .inf false
  let neg := ps.any fun p => p.val == .inf true
  if (ps.any fun p => p.val.isNan) || (pos && neg) then (.nan, if nanIn then fNone else fInvalid)
  else if pos then (.inf false, fNone)
  else if neg then (.inf true, fNone)
  else if ps.all fun p => p.val.isZero then (.fin (ps.all fun p => p.val.neg) 0 0, fNone)
  else
    (let top := ps.foldl (fun (b : Option Int) p => match p.val with
       | .fin _ m e => if m = 0 then b else match b with
           | none => some (topExp m e)
           | some x => some (max x (topExp m e))
       | .nan => b
       | .inf _ => b) none
     let g := top.getD 0 - 47
     let s : Int := (ps.map fun p => match p.val with
       | .fin n m e => (if n then -1 else 1) * (shiftN m (e - g) : Int)
       | .nan => 0
       | .inf _ => 0).foldl (· + ·) 0
     (.fin (decide (s < 0)) s.natAbs g, fNone))

/-- The accumulate stage (R102): D and its flags, of which the cube sets invalid and overflow. -/
def accumulate (d : Nat) (s : Val × Flags) : Nat × Flags :=
  let r := (fmtF32.decode d).add s.1
  let (c, f) := fmtF32.round .rne 0 r.1
  (c, (f ||| r.2 ||| s.2) &&& (fInvalid ||| fOverflow))

/-- One position of a floating pass: every step group in increasing k. -/
def floatPos (prod : Nat → Elt) : Nat → List (List Nat) → Nat × Flags
  | d, [] => (d, fNone)
  | d, ks :: t =>
      let (d1, f1) := accumulate d (gridStage (ks.map prod))
      let (d2, f2) := floatPos prod d1 t
      (d2, f1 ||| f2)

/-- |p|. -/
def magOf (v : Val) : Val :=
  match v with
  | .nan => .nan
  | .inf _ => .inf false
  | .fin _ m e => .fin false m e

/-- A magnitude U after every step group: one RU rounding per group (R205). `terms k` are the products of its row or column. -/
def growU (terms : Nat → List Val) : Nat → List (List Nat) → Nat
  | u, [] => u
  | u, ks :: t =>
      let sum := (ks.flatMap terms).foldl (fun a v => (a.add (magOf v)).1) vZero
      growU terms ((fmtF32.round .ru 0 ((fmtF32.decode u).add sum).1).1) t

/-- An integer pass of one position: the sum modulo 2^32 (R103). -/
def intPos (prod : Nat → Int) (d : Nat) (ks : List Nat) : Nat :=
  intCode 32 ((d : Int) + (ks.map prod).foldl (· + ·) 0)

/-! ### A CUBE -/

/-- K positions of a step group (R101, R99). -/
def groupSize (fs : List Nat) (spn : Nat) (slots : Nat) : Nat :=
  let ws := (fs.filter fun f => f != 0x10).map fmtBits
  if spn ≠ 0 then (if ws.contains 8 then 24 * 16 / slots else 24 * 32 / slots)
  else if ws.contains 16 then 8 else if ws.contains 8 then 16 else 32

/-- The K positions cut into step groups. DEDUCED (log 29): the missing positions of a partial last group add nothing, and
their zeros take no part in the sign of a sum of zeros. -/
def stepGroups (n k : Nat) : List (List Nat) :=
  (List.range ((k + n - 1) / n)).map fun g => (List.range (min n (k - g * n))).map fun i => g * n + i

/-- The B operand of CUBE.SP at (k, j): its value, or none outside the mask (R97 to R99, R203). -/
def sparseElt (v : View) (x : TileRef) (k j : Nat) : Elt × Flags :=
  let r := x.col0 + j
  let p := x.row0 + k
  let g := p / 24
  if v.tid.groups ≤ g || v.tid.rows ≤ r then ({ val := vZero, nan := false, out := true }, fNone)
  else if !(v.mask r g).testBit (p % 24) then ({ val := vZero, nan := false, out := true }, fNone)
  else match v.sparseCol r p with
    | none => (Elt.of vZero, fNone)
    | some c => (Elt.of (v.stored r c).1, (v.stored r c).2)

/-- The raw integer of B in CUBE.SP. -/
def sparseInt (v : View) (x : TileRef) (k j : Nat) : Int :=
  match v.sparseCol (x.col0 + j) (x.row0 + k) with
  | none => 0
  | some c => v.int c (x.col0 + j)

/-- A view of B in CUBE.SP: compressed elements, deltas and masks. -/
def readSparse (a : Acc) (t : Tid) (x : TileRef) (n k : Nat) : Act View := do
  let ar := sparseArea t x n k
  if ar.isEmpty then pure { tid := t, data := [], deltas := [], masks := [] }
  else do
    let d ← readSpans a [] (elemAlign t.fmt) (t.dataSpans (t.wide ar))
    let e ← readSpans a [] 1 (t.deltaSpans (t.wide ar))
    let m ← readSpans a [] 1 (t.maskSpans ar.rows (x.row0 / 24) (min ((x.row0 + k + 23) / 24) t.groups))
    pure { tid := t, data := d, deltas := e, masks := m }

/-- The data format flag of masks whose population differs from N (R98). -/
def maskFlags (v : View) (x : TileRef) (n k : Nat) : Flags :=
  let ar := sparseArea v.tid x n k
  if !ar.isEmpty && ar.rows.any fun r => (List.range (min ((x.row0 + k + 23) / 24) v.tid.groups - x.row0 / 24)).any fun i =>
    v.maskBad r (x.row0 / 24 + i) then fFormat else fNone

/-- Whether a format takes part in integer mode (R100). -/
def intFmt (f : Nat) : Bool := f == 0x00 || f == 0x04 || f == 0x0E || f == 0x10

/-- Whether a command acts with checksums (R206). -/
def withChecks (m : Cmd) (l : Launch) : Bool := bitAt m.flags 0 || l.packet.prot == 1

/-- The rows or columns of a pass: those of the tile or, with checksums, all 33 (R205). -/
def lanesOf (n : Nat) (ck : Bool) : List Nat := List.range (if ck then 33 else n)

/-- Whether a pass changes X[i,j]: elements of D outside M × N stay (R202). -/
def passWrites (m n i j : Nat) : Bool := (i < m && j < n) || i == 32 || j == 32

/-- Operand planes of a floating pass: A' and B' with their mode's G, the sums in row and column 32, and Gk (R205). -/
structure Planes where
  a : List (List Elt)
  b : List (List Elt)
  gk : List Elt

/-- One product of a pass. -/
def Planes.prod (p : Planes) (i j k : Nat) : Elt :=
  (((p.a.getD i []).getD k (Elt.of vZero)).mul ((p.b.getD j []).getD k (Elt.of vZero))).mul (p.gk.getD k Elt.one)

/-- 33 lines of K elements: those of the tile, zeros, and the sum. -/
def planeOf (n k : Nat) (f : Nat → Nat → Elt) : List (List Elt) :=
  let rows := (List.range n).map fun i => (List.range k).map fun x => f i x
  rows ++ List.replicate (32 - n) (List.replicate k (Elt.of vZero)) ++
    [(List.range k).map fun x => eltSum (rows.map fun r => r.getD x (Elt.of vZero))]

/-- What a pass changes of a tile: X words and, with checksums, U by row and column, and how many groups it applied. -/
structure Pass where
  words : List (Nat × Nat × Nat)
  urow : List (Nat × Nat)
  ucol : List (Nat × Nat)
  groups : Nat
  flags : Flags

/-- A floating pass. -/
def floatPass (c : Core) (bank m n : Nat) (ck : Bool) (gs : List (List Nat)) (p : Planes) : Pass :=
  let rows := lanesOf m ck
  let cols := lanesOf n ck
  let y := c.lane bank
  let ws := rows.flatMap fun i => cols.map fun j =>
    let r := floatPos (p.prod i j) (c.xWord bank i j) gs
    ((i, j, r.1), r.2)
  { words := (ws.map fun w => w.1).filter fun w => passWrites m n w.1 w.2.1, groups := gs.length,
    flags := joinFlags (ws.map fun w => w.2),
    urow := if ck then rows.map fun i => (i, growU (fun k => cols.map fun j => (p.prod i j k).val) ((y.urow.getD i 0#32).toNat) gs) else [],
    ucol := if ck then cols.map fun j => (j, growU (fun k => rows.map fun i => (p.prod i j k).val) ((y.ucol.getD j 0#32).toNat) gs) else [] }

/-- An integer pass. `pa i k`, `pb j k` and `gk k` are the planes, lanes included. -/
def intPass (c : Core) (bank m n : Nat) (ck : Bool) (gs : List (List Nat)) (pa pb : Nat → Nat → Int) (gk : Nat → Int) : Pass :=
  let rows := lanesOf m ck
  let cols := lanesOf n ck
  let y := c.lane bank
  let prod (i j k : Nat) : Int := pa i k * pb j k * gk k
  { words := (rows.flatMap fun i => cols.map fun j => (i, j, intPos (prod i j) (c.xWord bank i j) gs.flatten)).filter
      fun w => passWrites m n w.1 w.2.1,
    groups := gs.length, flags := fNone,
    urow := if ck then rows.map fun i => (i, growU (fun k => cols.map fun j => ofIntV (prod i j k)) ((y.urow.getD i 0#32).toNat) gs) else [],
    ucol := if ck then cols.map fun j => (j, growU (fun k => rows.map fun i => ofIntV (prod i j k)) ((y.ucol.getD j 0#32).toNat) gs) else [] }

/-- Apply a pass to a tile of a core. -/
def Core.applyPass (c : Core) (id bank : Nat) (p : Pass) : Core :=
  let c1 := p.words.foldl (fun d w => d.putX id bank w.1 w.2.1 w.2.2) c
  c1.modLane bank fun y =>
    { y with urow := p.urow.foldl (fun l u => setAt l u.1 u.2) y.urow, ucol := p.ucol.foldl (fun l u => setAt l u.1 u.2) y.ucol,
             ng := min (y.ng + p.groups) (2 ^ 32 - 1) }

/-- An accumulator word that holds an uncorrectable error, for words of a tile. -/
def accTrap (k : CoreRef) (bank m n : Nat) : Act Unit := do
  let (_, _, c) ← ctxOf k
  raiseIf ((List.range m).any fun i => c.tens.acc.badIn (tileOff bank i 0) (4 * n))
    { Trap.mk' 0x10 0#64 2 with units := [unitId 1 c.phys] }

/-- CUBE and its modes (R198 to R205). -/
def runCube (k : CoreRef) (m : Cmd) : Act Work := do
  let (l, _, _) ← ctxOf k
  let (rows, cols, kext) := (cubeM m.xc, cubeN m.xc, cubeK m.xc)
  let bank := fieldNat m.xc 56 8
  let (ra, rb) := (refOf m.xa, refOf m.xb)
  let (ta, tb, tg) := (m.tid 0, m.tid 1, m.tid 2)
  let sp := m.op == .cubeSp
  let hasG := m.op == .cubeGa || m.op == .cubeGb || m.op == .cubeGk
  let ck := withChecks m l
  let va ← readArea (m.acc k 3) [] ta (ta.area ra rows kext)
  let vb ← (if sp then readSparse (m.acc k 4) tb rb cols kext else readArea (m.acc k 4) [] tb (tb.area rb kext cols) : Act View)
  let (gr, gm, gn) := gRef m.op ra rb rows cols kext
  let vg ← (if hasG then readArea (m.acc k 5) [] tg (tg.area gr gm gn)
    else pure { tid := tg, data := [], deltas := [], masks := [] } : Act View)
  sourcesRead k m
  let fs := [ta.fmt, tb.fmt] ++ (if hasG then [tg.fmt] else [])
  let gs := stepGroups (groupSize fs (if sp then tb.spn else 0) tb.slots) kext
  if gs.isEmpty then pure (Work.of [] fNone)
  else do
    accTrap k bank rows cols
    let (_, _, c) ← ctxOf k
    let c ← earlyAcc m.early c
    let (p, f) : Pass × Flags :=
      if fs.all intFmt then
        (let a (i x : Nat) : Int := va.int (ra.row0 + i) (ra.col0 + x) * (if m.op = .cubeGa then vg.int (ra.row0 + i) (ra.col0 + x) else 1)
         let b (j x : Nat) : Int :=
           if sp then sparseInt vb rb x j
           else vb.int (rb.row0 + x) (rb.col0 + j) * (if m.op = .cubeGb then vg.int (rb.row0 + x) (rb.col0 + j) else 1)
         let pa (i x : Nat) : Int :=
           if i = 32 then ((List.range rows).map fun r => a r x).foldl (· + ·) 0 else if i < rows then a i x else 0
         let pb (j x : Nat) : Int :=
           if j = 32 then ((List.range cols).map fun r => b r x).foldl (· + ·) 0 else if j < cols then b j x else 0
         let gk (x : Nat) : Int := if m.op = .cubeGk then vg.int 0 (ra.col0 + x) else 1
         (intPass c bank rows cols ck gs pa pb gk, if sp then maskFlags vb rb cols kext else fNone))
      else
        (let a (i x : Nat) : Val × Flags := va.elem (ra.row0 + i) (ra.col0 + x)
         let b (j x : Nat) : Elt × Flags :=
           if sp then sparseElt vb rb x j
           else (Elt.of (vb.elem (rb.row0 + x) (rb.col0 + j)).1, (vb.elem (rb.row0 + x) (rb.col0 + j)).2)
         let g (i j : Nat) : Val × Flags := vg.elem i j
         let ea (i x : Nat) : Elt := (Elt.of (a i x).1).mul (if m.op = .cubeGa then Elt.of (g (ra.row0 + i) (ra.col0 + x)).1 else Elt.one)
         let eb (j x : Nat) : Elt := (b j x).1.mul (if m.op = .cubeGb then Elt.of (g (rb.row0 + x) (rb.col0 + j)).1 else Elt.one)
         let ks := List.range kext
         let planes : Planes :=
           { a := planeOf rows kext ea, b := planeOf cols kext eb,
             gk := ks.map fun x => if m.op = .cubeGk then Elt.of (g 0 (ra.col0 + x)).1 else Elt.one }
         let fa := joinFlags ((List.range rows).flatMap fun i => ks.map fun x => (a i x).2)
         let fb := joinFlags ((List.range cols).flatMap fun j => ks.map fun x => (b j x).2)
         let fg := if !hasG then fNone else joinFlags ((List.range gm).flatMap fun i => (List.range gn).map fun j => (g (gr.row0 + i) (gr.col0 + j)).2)
         let ps := floatPass c bank rows cols ck gs planes
         (ps, ps.flags ||| fa ||| fb ||| fg ||| (if sp then maskFlags vb rb cols kext else fNone)))
    onCore k fun c => c.applyPass m.id bank p
    pure (Work.of [] f)

/-! ### ACLR (R209) -/

/-- ACLR: words, lanes and counts at zero; the mode and valid bit are set at the push, in push order. -/
def runAclr (k : CoreRef) (m : Cmd) : Act Work := do
  let first := m.xa.toNat / 2
  let n := m.xb.toNat
  onCore k fun c =>
    let c1 := if n = 0 then c else c.putAcc m.id (first * 4096) (List.replicate (4096 * n) 0#8)
    { c1 with tens := { c1.tens with lanes := Vector.ofFn fun i =>
        if first ≤ i.val && i.val < first + n then
          { Lane.zero with integer := c1.tens.lanes[i.val].integer, valid := c1.tens.lanes[i.val].valid }
        else c1.tens.lanes[i.val] } }
  pure (Work.of [] fNone)

/-! ### Checks (R207, R208) -/

/-- Whether one check passes: the words of its line, its checksum, its magnitude. -/
def checkPasses (int : Bool) (xs : List Nat) (chk u ng : Nat) : Bool :=
  if int then (xs.foldl (· + ·) 0) % 2 ^ 32 == chk % 2 ^ 32
  else
    (let vs := xs.map fmtF32.decode
     let c := fmtF32.decode chk
     let uv := fmtF32.decode u
     let special (v : Val) : Bool := match v with
       | .fin _ _ _ => false
       | .nan => true
       | .inf _ => true
     if vs.any special || special c || special uv then true
     else
       (let sum := vs.foldl (fun a v => (a.add v).1) vZero
        let delta := magOf (sum.add c.flip).1
        let tau := (((ofIntV (ng + 1)).scale (-22)).mul uv).1.add ((ofIntV ng).scale (-140))
        !(tau.1.lt delta)))

/-- The outcome of CheckTile: nothing wrong, one place with the value an integer tile corrects to, or a pattern of
failing rows and columns. -/
inductive CheckOut where
  | pass
  | located (i j : Nat) (fix : Option Nat)
  | unlocatable (rows cols : List Nat)
deriving DecidableEq, Repr

/-- The value of X[i,j] that makes row i pass, modulo 2^32. -/
def Core.rowNeeds (c : Core) (bank i j : Nat) : Nat :=
  let s := ((List.range 32).map fun q => if q = j then 0 else c.xWord bank i q).foldl (· + ·) 0
  if j = 32 then s % 2 ^ 32 else intCode 32 ((c.xWord bank i 32 : Int) - s)

/-- The value of X[i,j] that makes column j pass. -/
def Core.colNeeds (c : Core) (bank i j : Nat) : Nat :=
  let s := ((List.range 32).map fun q => if q = i then 0 else c.xWord bank q j).foldl (· + ·) 0
  if i = 32 then s % 2 ^ 32 else intCode 32 ((c.xWord bank 32 j : Int) - s)

/-- CheckTile. -/
def Core.checkTile (c : Core) (bank : Nat) (int : Bool) : CheckOut :=
  let y := c.lane bank
  let rs := (List.range 33).filter fun i =>
    !checkPasses int ((List.range 32).map fun j => c.xWord bank i j) (c.xWord bank i 32) ((y.urow.getD i 0#32).toNat) y.ng
  let cs := (List.range 33).filter fun j =>
    !checkPasses int ((List.range 32).map fun i => c.xWord bank i j) (c.xWord bank 32 j) ((y.ucol.getD j 0#32).toNat) y.ng
  match rs, cs with
  | [], [] => .pass
  | [i], [j] =>
      if !int then .located i j none
      else if c.rowNeeds bank i j = c.colNeeds bank i j then .located i j (some (c.rowNeeds bank i j))
      else .unlocatable rs cs
  | _, _ => .unlocatable rs cs

/-- The physical sub-array that computes a quadrant's work (R373, R380). -/
def Core.subArray (c : Core) (q : Nat) : BitVec 16 :=
  let p := if c.subs.contains q then ((List.range 4).find? fun x => !c.subs.contains x).getD q else q
  unitId 2 (c.phys * 4 + p)

/-- Quadrant coordinate of an index. -/
def quad (i : Nat) : Nat := min i 31 / 16

/-- The suspects of an unlocatable pattern (R372), lowest first. -/
def Core.suspects (c : Core) (rows cols : List Nat) : List (BitVec 16) :=
  let qi := if rows.isEmpty then [0, 1] else rows.map quad
  let qj := if cols.isEmpty then [0, 1] else cols.map quad
  let us := (qi.flatMap fun a => qj.map fun b => c.subArray (2 * a + b)).eraseDups
  ((List.range 4).map fun x => unitId 2 (c.phys * 4 + x)).filter fun u => us.contains u

/-- A repair in place (R210, R370): the word is corrected; score, hold and event of kind 16. -/
def repairTile (k : CoreRef) (id bank i j fix : Nat) (u : BitVec 16) : Act Unit := do
  let (l, _, _) ← ctxOf k
  onCore k fun c => c.putX id bank i j fix
  modify fun s =>
    let s1 := (s.countSubs [u]).detect (s.ptHost l.part.toNat) l.ident 16 0x11 u 0#16 0 [(u, 4)] [u]
    (s1.modLaunch l.lid fun x => { x with unit := u.toNat }).sweepRetired

/-- The check of ADRAIN (R210). -/
def checkDrain (k : CoreRef) (m : Cmd) (bank : Nat) : Act Unit := do
  let (l, _, c) ← ctxOf k
  match c.checkTile bank m.tileInt with
  | .pass => pure ()
  | .located i j fix =>
      let u := c.subArray (2 * quad i + quad j)
      match fix with
      | some v =>
          if l.packet.rep = 2 then repairTile k m.id bank i j v u
          else raise { Trap.mk' 0x11 0#64 2 with units := [u] }
      | none => raise { Trap.mk' 0x11 0#64 2 with units := [u] }
  | .unlocatable rs cs => raise { Trap.mk' 0x12 0#64 2 with units := c.suspects rs cs }

/-- ADRAIN (R210). -/
def runAdrain (k : CoreRef) (m : Cmd) : Act Work := do
  let (l, _, _) ← ctxOf k
  let bank := fieldNat m.xa 0 8
  let (rows, cols) := (fieldNat m.xc 5 5 + 1, fieldNat m.xc 0 5 + 1)
  let tr := bitAt m.flags 2
  let x := refOf m.xb
  let t := m.tid 0
  accTrap k bank (if withChecks m l then 32 else rows) (if withChecks m l then 32 else cols)
  if withChecks m l then checkDrain k m bank
  let (_, _, c) ← ctxOf k
  let c ← earlyAcc m.early c
  let d (i j : Nat) : Val :=
    let w := c.accWord bank i j
    if m.tileInt then ofIntV (toSigned 32 w) else fmtF32.decode w
  let (nr, nc) := if tr then (cols, rows) else (rows, cols)
  let e := encodeTile t x nr nc (modeOf (fieldNat m.xc 12 3)) m.ks (fun r q => (if tr then d q r else d r q, fNone)) none
  let ws ← tileWrites (m.acc k 3) [] t x nr nc e
  pure (Work.of ws e.flags)

end Sys2Proof.Machine
end

