-- ==== Sys2Proof/Machine/StoreRun.lean ====
section
/-! DEFINITION. What the store queue's commands do when they run (R104 to R107, R211 to R217). -/

namespace Sys2Proof.Machine

/-! ### STT, STP and STG -/

/-- One destination of a store: the encoded tile and its writes. `tr` writes the source transposed. DEDUCED (log 32): two
tensors of one format of which neither has a delta array keep their bits (R211). -/
def storeTo (k : CoreRef) (m : Cmd) (tlb : Nat) (t : Tid) (x : TileRef) (nr nc : Nat) (tr : Bool) (v : View) (rs : TileRef) :
    Act (Enc × List PendWrite) := do
  let src (i j : Nat) : Nat × Nat := if tr then (rs.row0 + j, rs.col0 + i) else (rs.row0 + i, rs.col0 + j)
  let same := v.tid.fmt == t.fmt && v.tid.sloc == 0 && t.sloc == 0
  let e := encodeTile t x nr nc (modeOf (fieldNat m.flags 0 3)) m.ks (fun i j => v.elem (src i j).1 (src i j).2)
    (if same then some fun i j => v.raw (src i j).1 (src i j).2 else none)
  let ws ← tileWrites (m.acc k tlb) m.slots t x nr nc e
  pure (e, ws)

/-- The source tile of a store. -/
def storeSource (k : CoreRef) (m : Cmd) (i : Nat) : Act View := do
  let t := m.tid i
  readArea (m.acc k 6) [] t (t.area (refOf m.xb) (extRows m.xc) (extCols m.xc))

/-- STT (R212). -/
def runStt (k : CoreRef) (m : Cmd) : Act Work := do
  let v ← storeSource k m 1
  sourcesRead k m
  let (e, ws) ← storeTo k m 7 (m.tid 0) (refOf m.xa) (extRows m.xc) (extCols m.xc) false v (refOf m.xb)
  pure (Work.of ws e.flags)

/-- STP (R213). -/
def runStp (k : CoreRef) (m : Cmd) : Act Work := do
  let v ← storeSource k m 2
  sourcesRead k m
  let x := refOf m.xa
  let (e1, w1) ← storeTo k m 7 (m.tid 0) x (extRows m.xc) (extCols m.xc) false v (refOf m.xb)
  let (e2, w2) ← storeTo k m 8 (m.tid 1) { tid := 0, row0 := x.col0, col0 := x.row0 } (extCols m.xc) (extRows m.xc) true v (refOf m.xb)
  pure (Work.of (w1 ++ w2) (e1.flags ||| e2.flags))

/-- The values that the elements of an encoded tile hold in their tensor. -/
def encValues (t : Tid) (e : Enc) : List Val :=
  if fmtBlocks t.fmt then
    (let keys := (e.elems.map fun p => (p.1, p.2.1 / 32)).eraseDups
     keys.flatMap fun key =>
       let cs := (e.elems.filter fun p => p.1 == key.1 && p.2.1 / 32 == key.2).map fun p => p.2.2
       let d := if t.sloc = 1 then ((e.deltas.find? fun q => q.1 == key.1 && q.2.1 == key.2).map fun q => q.2.2).getD 15 else 0
       (blockVals t.fmt t.ebase d cs).1)
  else e.elems.map fun p => elemVal t.fmt p.2.2

/-- The contribution of a stored value to a norm register (R104), absent for none: the outer `none` is a zero, which
adds nothing; `some none` a NaN or infinity; `some (some 0)` a loss. -/
def contribution (s : Int) (g : Val) : Option (Option Nat) :=
  match g with
  | .nan => some none
  | .inf _ => some none
  | .fin _ m e => if m = 0 then none else some (some (roundAt .rne 0 false (m * m) (2 * e + s) 0).1)

/-- STG (R214). -/
def runStg (k : CoreRef) (m : Cmd) : Act Work := do
  let v ← storeSource k m 1
  sourcesRead k m
  let t := m.tid 0
  let (e, ws) ← storeTo k m 7 t (refOf m.xa) (extRows m.xc) (extCols m.xc) false v (refOf m.xb)
  pure { Work.of ws e.flags with norm := fieldNat m.xc 42 6, normAdds := (encValues t e).filterMap (contribution t.nexp) }

/-- A norm register after contributions, and their flags (R38, R104). -/
def Norm.addAll (n : Norm) : List (Option Nat) → Norm × Flags
  | [] => (n, fNone)
  | x :: t =>
      let up (b : BitVec 16) : BitVec 16 := BitVec.ofNat 16 (min 65535 (b.toNat + 1))
      let (n1, f1) : Norm × Flags := match x with
        | none => ({ n with value := BitVec.allOnes 128, overs := up n.overs }, fInvalid)
        | some c =>
            if c = 0 then ({ n with unders := up n.unders }, fNone)
            else if 2 ^ 128 ≤ n.value.toNat + c then ({ n with value := BitVec.allOnes 128, overs := up n.overs }, fNone)
            else ({ n with value := n.value + BitVec.ofNat 128 c }, fNone)
      let (n2, f2) := n1.addAll t
      (n2, f1 ||| f2)

/-! ### UPD (R216, R217) -/

/-- A state element as an FP32 code, converted exactly. -/
def toF32 (v : Val) : Nat := (fmtF32.round .rne 0 v).1

/-- New values of one element: w, m and, for ADAM, v; and the flags. -/
def updElem (op : EOp) (ks : Vector (BitVec 32) 16) (cf : Nat) (g w m v : Val) : List Nat × Flags :=
  let k (i : Nat) : Nat := (ks.toList.getD i 0#32).toNat
  let (gc, f0) := fmtF32.round .rne 0 g
  match op with
  | .updAdam =>
      let r := adamStep k cf gc (toF32 w) (toF32 m) (toF32 v)
      ([r.1.2.2, r.1.1, r.1.2.1], f0 ||| r.2)
  | _ =>
      let r := sgdStep k cf gc (toF32 w) (toF32 m)
      ([r.1.2, r.1.1], f0 ||| r.2)

/-- The writes of one state tensor: its new values, converted under RNE. -/
def updStore (k : CoreRef) (m : Cmd) (t : Tid) (x : TileRef) (nr nc : Nat) (val : Nat → Nat → Nat) : Act (Flags × List PendWrite) := do
  let e := encodeTile t x nr nc .rne m.ks (fun i j => (fmtF32.decode (val i j), fNone)) none
  let ws ← tileWrites (m.acc k 9) m.slots t x nr nc e
  pure (e.flags, ws)

/-- UPD.SGD and UPD.ADAM. -/
def runUpd (k : CoreRef) (m : Cmd) : Act Work := do
  let adam := m.op == .updAdam
  let (rw, rg) := (refOf m.xa, refOf m.xb)
  let (tw, tm) := (m.tid 0, m.tid 1)
  let tv := if adam then m.tid 2 else m.tid 1
  let tg := m.tid (if adam then 3 else 2)
  let nr := min (extRows m.xc) (tw.nRows - rw.row0)
  let nc := min (extCols m.xc) (tw.nCols - rw.col0)
  let (cf, f0) := clipFactor m.normAt tg.nexp ((m.ks.toList.getD (if adam then 9 else 3) 0#32).toNat)
  let vg ← readArea (m.acc k 6) [] tg (tg.area rg nr nc)
  let vw ← readArea (m.acc k 9) m.readSlots tw (tw.area rw nr nc)
  let vm ← readArea (m.acc k 9) m.readSlots tm (tm.area rw nr nc)
  let vv ← (if adam then readArea (m.acc k 9) m.readSlots tv (tv.area rw nr nc) else pure vm : Act View)
  sourcesRead k m
  let at' (v : View) (i j : Nat) : Val := (v.elem (rw.row0 + i) (rw.col0 + j)).1
  let one (i j : Nat) : List Nat × Flags :=
    let g := vg.elem (rg.row0 + i) (rg.col0 + j)
    let r := updElem m.op m.ks cf g.1 (at' vw i j) (at' vm i j) (at' vv i j)
    (r.1, r.2 ||| g.2)
  let fs := joinFlags ((List.range nr).flatMap fun i => (List.range nc).map fun j => (one i j).2)
  let (fw, ww) ← updStore k m tw rw nr nc fun i j => (one i j).1.getD 0 0
  let (fm, wm) ← updStore k m tm rw nr nc fun i j => (one i j).1.getD 1 0
  let (fv, wv) ← (if adam then updStore k m tv rw nr nc fun i j => (one i j).1.getD 2 0 else pure (fNone, []) : Act (Flags × List PendWrite))
  pure (Work.of (ww ++ wm ++ wv) (f0 ||| fs ||| fw ||| fm ||| fv))

end Sys2Proof.Machine
end

