-- ==== Sys2Proof/Machine/Perform.lean ====
section
/-! DEFINITION. How stores become performed at wider scopes (R305, R308, R311): what the promotion of one store takes
with it, and WRITE_PERFORMED. -/

namespace Sys2Proof.Machine

/-! ### Promotion -/

/-- The wider of two scopes. -/
def Scope.widest (a b : Scope) : Scope := if scopeNum a ≤ scopeNum b then b else a

/-- A store performed at device scope: every agent of the device sees it. -/
def Copy.commitStore (cp : Copy) (h : HomeStore) : Copy := cp.modPad h.pad fun q => { q with mem := q.mem.put h.off h.data }

/-- Places of the stores of a copy that satisfy a test. -/
def Copy.places (cp : Copy) (f : HomeStore → Bool) : List Nat := (cp.home.zipIdx.filter fun p => f p.1).map fun p => p.2

/-- The places of some stores of a copy, and of what they drag along at a scope. -/
def Copy.closure (cp : Copy) (sc : Scope) (xs : List Nat) : List Nat := dragAll (decide (3 ≤ scopeNum sc)) cp.placed cp.placed.length xs

/-- Perform the stores of a copy at some places at a scope. -/
def Copy.promote (cp : Copy) (sc : Scope) (go : List Nat) : Copy :=
  if 3 ≤ scopeNum sc then
    (let c1 := { cp with home := (cp.placed.filter fun h => !go.contains h.1).map fun h => h.2 }
     (cp.placed.filter fun h => go.contains h.1).foldl (fun c h => c.commitStore h.2) c1)
  else { cp with home := cp.placed.map fun h => if go.contains h.1 then { h.2 with scope := Scope.widest h.2.scope sc } else h.2 }

/-- The cores that see a store performed at a scope. -/
def Copy.viewers (cp : Copy) (w : Nat) (h : HomeStore) : List Nat := (cp.cores.filter fun c => h.seenBy w c.rank).map fun c => c.phys

/-- What becomes visible of durable memory with the store of a core: the writes that it has observed there (R311). -/
def State.carryLags (s : State) (cp : Copy) (w : Nat) (sc : Scope) (h : HomeStore) : State :=
  if 3 ≤ scopeNum sc then s.settleLag [cp.agent h.writer]
  else s.shareLags [cp.agent h.writer] (cp.viewers w { h with scope := Scope.widest h.scope sc })

/-- Perform stores of a launch copy at a scope, with all that no agent may see them without (R305, R309, R311). -/
def State.promote (s : State) (k : CoreRef) (sc : Scope) (f : HomeStore → Bool) : State :=
  match s.launch? k.lid, s.copy? k with
  | some l, some cp =>
      let go := cp.closure sc (cp.places f)
      (cp.placed.filter fun h => go.contains h.1).foldl (fun t h => t.carryLags cp l.packet.w sc h.2)
        (s.modCopy k fun c => c.promote sc go)
  | _, _ => s

/-! ### WRITE_PERFORMED (R308) -/

/-- An accepted store reaches its home, unless an earlier one to a byte of it has not. -/
def State.portHome (s : State) (k : CoreRef) (i : Nat) : State :=
  match s.core? k with
  | none => s
  | some c =>
      match c.port[i]? with
      | none => s
      | some h =>
          if (c.port.take i).any fun g => g.pad == h.pad && g.off < h.off + h.data.length && h.off < g.off + g.data.length then s
          else runStep (.core k) (performStore k h) (s.modCore k fun c => { c with port := c.port.eraseIdx i })

/-- A released write that is asked for reaches its host, after those below it to the same line (R323). -/
def State.hostHome (s : State) (i : Nat) : State :=
  match s.host.writes[i]? with
  | none => s
  | some h =>
      if !h.asked || (s.host.writes.take i).any fun g => g.dpa == h.dpa then s
      else State.putMasked { s with host := { s.host with writes := s.host.writes.eraseIdx i } } h.dpa h.mask h.data

/-- The write of a command that is performed, marked: number `i`, or of a run of bytes the aligned group `j` (R176, R305). -/
def pickWrite (ws : List PendWrite) (i j : Nat) : List (Bool × PendWrite) :=
  ws.zipIdx.flatMap fun p =>
    if p.2 ≠ i then [(false, p.1)]
    else (p.1.cut p.1.loc p.1.data.length).zipIdx.map fun q => (!p.1.bytewise || q.2 == j, q.1.2)

/-- A fault becomes a value; a stall stays one. -/
def attempt {α : Type} (a : Act α) : Act (Except Trap α) := fun s =>
  match a s with
  | .ok (x, s') => .ok (.ok x, s')
  | .error (.trap t, s') => .ok (.error t, s')
  | .error (.hold, s') => .error (.hold, s')

/-- A fault of a command: its engine and whether a replica met it (R175, R221). -/
def Cmd.blame (m : Cmd) (t : Trap) : Trap := { t with src := engineSrc m.op, gang := m.lane }

/-- A fault that a command meets is the command's. -/
def blamed (m : Cmd) (a : Act Unit) : Act Unit := do
  let r ← attempt a
  match r with
  | .error t => raise (m.blame t)
  | .ok () => pure ()

/-- One write of a running command is performed before the others, with those that its order puts before it (R176, R309). -/
def performElement (k : CoreRef) (id i j : Nat) : Act Unit := do
  let (l, _, c) ← ctxOf k
  let m ← need (c.cmd? id)
  holdIf (!l.state.live || c.faulted || m.state != .running || m.err.isSome)
  let qs := withEarlier (pickWrite m.writes i j)
  onCore k fun c => c.modCmd id fun m => { m with writes := (qs.filter fun p => !p.1).map fun p => p.2 }
  blamed m (performSome k m ((qs.filter fun p => p.1).map fun p => p.2))

/-- WRITE_PERFORMED (R306, R308): one store is performed at its home, at a wider scope, or at a host. -/
def execWritePerformed (t : PerfTarget) (s : State) : Host.Outcome State Fault Refusal :=
  .next (match t with
    | .port k i => s.portHome k i
    | .home lid role i sc =>
        let k : CoreRef := { lid := lid, role := role, rank := 0 }
        match (s.copy? k).bind fun c => c.home[i]? with
        | none => s
        | some h => if scopeNum sc ≤ scopeNum h.scope then s else s.promote k sc fun g => g == h
    | .hostOut i => s.hostHome i
    | .element k cmd i j => runStep (.core k) (performElement k cmd i j) s
    | .release k i => runStep (.core k) (releaseNth k i) s)

end Sys2Proof.Machine
end

