-- ==== Sys2Proof/Machine/EngineStep.lean ====
section
/-! DEFINITION. The steps of a core's engines (R173 to R176, R182, R183, R190, R218, R220, R299): when a command starts and
what it does then, the performance of its writes chunk by chunk, its completion, and the fault its run has met. -/

namespace Sys2Proof.Machine

/-! ### When a command may start -/

/-- States of a launch in which its engines run. -/
def engineLive (l : Launch) : Bool := l.state == .running || l.state == .checkpointing

/-- Whether two commands share a queue or a lane. -/
def Cmd.sameQueue (m e : Cmd) : Bool := engineSrc m.op == engineSrc e.op && m.lane == e.lane

/-- Whether a command copies vector words (R188). -/
def Cmd.toVim (m : Cmd) : Bool := m.op == .cpy && ptrSpace m.xa == 5

/-- The scratchpad bytes a command writes, from its captured operands (Table 05-5). -/
def Cmd.dests (m : Cmd) (l : Launch) (cp : Copy) (c : Core) (kvL : Nat) : List (PadId × Nat × Nat) :=
  let of (xs : List Span) : List (PadId × Nat × Nat) := xs.flatMap (padRange l cp c)
  let tile (i : Nat) (x : TileRef) (nr nc : Nat) : List (PadId × Nat × Nat) :=
    of ((m.tid i).dataSpans ((m.tid i).area x nr nc) ++ (m.tid i).deltaSpans ((m.tid i).area x nr nc))
  let (ra, nr, nc) := (refOf m.xa, extRows m.xc, extCols m.xc)
  let g := gatherOf m.desc
  match m.op with
  | .cpy => of [bytesAt m.xa (fieldNat m.xc 0 32) 1]
  | .cpyMc =>
      let gang := m.gang.map fun _ => gangRanks l.packet.w l.packet.gh l.packet.gw c.row c.col
      ((mcTargets l c m.xc gang).getD []).map fun r => (.usp r, ptrOff m.xa, fieldNat m.xc 0 32)
  | .cpyT => tile 0 ra nc nr
  | .cpyQ => tile 0 ra nr nc
  | .stt => tile 0 ra nr nc
  | .stg => tile 0 ra nr nc
  | .stp => tile 0 ra nr nc ++ tile 1 { tid := 0, row0 := ra.col0, col0 := ra.row0 } nc nr
  | .adrain =>
      let (h, w) := (fieldNat m.xc 5 5 + 1, fieldNat m.xc 0 5 + 1)
      if bitAt m.flags 2 then tile 0 (refOf m.xb) w h else tile 0 (refOf m.xb) h w
  | .gath => of [bytesAt m.xa (g.count * g.bytes) 1]
  | .kvg => of [bytesAt m.xa (fieldNat m.xc 0 20 * kvL) 1]
  | .bin => of [bytesAt m.xb (4 * g.count) 4, bytesAt g.ctr (4 * g.nbins) 4]
  | _ => []

/-- Whether a command may write some bytes of scratchpad: rows scattered and vector stores are known only as they run. -/
def Cmd.mayWrite (m : Cmd) (l : Launch) (cp : Copy) (c : Core) (kvL : Nat) (r : PadId × Nat × Nat) : Bool :=
  m.op == .scat || m.op == .bin || m.op == .vrun ||
    (m.dests l cp c kvL).any fun x => x.1 == r.1 && x.2.1 < r.2.1 + r.2.2 && r.2.1 < x.2.1 + x.2.2

/-- Whether a command pushed earlier, by any core, that writes the index list of `m` has not completed (R190). -/
def listBusy (s : State) (l : Launch) (cp : Copy) (c : Core) (m : Cmd) : Bool :=
  let kl := (s.kvGeom l.part).1
  (padRange l cp c (bytesAt m.xb (4 * (gatherOf m.desc).count) 4)).any fun r =>
    cp.cores.any fun d => d.eng.cmds.any fun e => m.prior.contains (d.rank, e.id) && e.mayWrite l cp d kl r

/-- The conditions of R173 and R299; what its core's stores before the push must show is performed (Table 08-3). -/
def startOk (s : State) (l : Launch) (cp : Copy) (c : Core) (m : Cmd) : Bool :=
  let es := c.eng.cmds.takeWhile fun e => e.id != m.id
  engineLive l && !c.faulted && m.waits.isEmpty && cp.performed m.after && m.err.isNone && m.state != .running && !isKvCommit m.op &&
  (es.all fun e => !(m.sameQueue e) || (e.state != .queued && !m.serial)) &&
  (m.op != .vrun || es.all fun e => e.op != .vrun && !e.toVim) &&
  (!m.toVim || es.all fun e => e.op != .vrun) &&
  !((m.op == .gath || m.op == .scat || m.op == .bin) && listBusy s l cp c m)

/-! ### What it does -/

/-- VRUN: the stream starts at its word (R218). -/
def runVrun (k : CoreRef) (m : Cmd) : Act Work := do
  let st : Stream := { cmd := m.id, spc := m.xa.setWidth 14, cycle := 0, landings := [], elastic := none, ended := false, err := none }
  onCore k fun c => { c with eng := { c.eng with stream := some st } }
  pure (Work.of [] fNone)

/-- The work of a command. -/
def runCommand (k : CoreRef) (m : Cmd) : Act Work :=
  match m.op with
  | .cpy => runCpy k m
  | .cpyT => runCpyT k m
  | .cpyMc => runCpyMc k m
  | .cpyQ => runCpyQ k m
  | .gath => runGath k m
  | .scat => runScat k m
  | .bin => runBin k m
  | .kvg => runKvg k m
  | .cube => runCube k m
  | .cubeGa => runCube k m
  | .cubeGb => runCube k m
  | .cubeGk => runCube k m
  | .cubeSp => runCube k m
  | .aclr => runAclr k m
  | .adrain => runAdrain k m
  | .stt => runStt k m
  | .stp => runStp k m
  | .stg => runStg k m
  | .updSgd => runUpd k m
  | .updAdam => runUpd k m
  | .vrun => runVrun k m
  | .kva => hold
  | .kvdem => hold
  | .kvrefInc => hold
  | .kvrefDec => hold

/-- The norm register that a UPD names (R216). -/
def Cmd.normReg (m : Cmd) : Nat := fieldNat m.xc 42 6

/-- A command starts, or goes on reading its sources. `partly`: in this step it may leave some of its elements for later (R176). -/
def startCommand (k : CoreRef) (id : Nat) (partly : Bool) : Act Unit := do
  let s ← get
  let (l, cp, c) ← ctxOf k
  let m ← need (c.cmd? id)
  holdIf (!startOk s l cp c m)
  let now := if m.state = .queued then c.tens.norms.toList.getD m.normReg Norm.zero else m.normAt
  let m1 : Cmd := { m with state := .reading, partly := partly, short := false, normAt := now }
  onCore k fun c => c.modCmd id fun _ => m1
  let r ← attempt (runCommand k m1)
  spendLines (m.acc k 1)
  match r with
  | .ok w => onCore k fun c => c.modCmd id fun m =>
      { m with state := .running, writes := m.writes ++ w.writes, raised := w.raised, norm := w.norm, normAdds := w.normAdds }
  | .error t => onCore k fun c => c.modCmd id fun m => { m with state := .running, err := some (m.blame t) }

/-- ENGINE_COMMAND_START. -/
def execEngineCommandStart (k : CoreRef) (x : StartOf) (s : State) : Host.Outcome State Fault Refusal :=
  .next (runStep (.core k) (startCommand k x.cmd x.partly) s)

/-! ### Writes and chunks (R174, R182, R183) -/

/-- A write cut at the bounds of a chunk: the parts that lie in it, and the others. Only runs of single bytes are cut. -/
def PendWrite.inChunk (w : PendWrite) (x : PadId × Nat) : List PendWrite × List PendWrite :=
  match w.loc with
  | .pad p o =>
      if p ≠ x.1 then ([], [w])
      else
        (let n := w.data.length
         let lo := max o (512 * x.2)
         let hi := min (o + n) (512 * x.2 + 512)
         if hi ≤ lo then ([], [w])
         else if !w.bytewise then ([w], [])
         else
           (let part (a b : Nat) : List PendWrite := if b ≤ a then [] else
              [{ w with loc := .pad p a, data := (w.data.drop (a - o)).take (b - a), below := w.below + (a - o), above := w.above + (o + n - b) }]
            (part lo hi, part o lo ++ part hi (o + n))))
  | .acc _ => ([], [w])
  | .vim _ _ => ([], [w])
  | .virt _ _ _ => ([], [w])
  | .cwn _ _ => ([], [w])
  | .sys _ => ([], [w])

/-- What a command has written is performed at device scope, with all that no agent may see it without: in a chunk whose bit may be
seen (R183), or all of it before its post (R310). -/
def showWrites (k : CoreRef) (id : Nat) (x : Option (PadId × Nat)) : Act Unit :=
  modify fun s => s.promote k .device fun h => h.writer == k.rank && h.cmd == some id && (match x with
    | none => true
    | some x => h.pad == x.1 && h.off < 512 * x.2 + 512 && 512 * x.2 < h.off + h.data.length)

/-- Release chunks of a command. -/
def releaseAll (k : CoreRef) (id : Nat) : List (PadId × Nat) → Act Unit
  | [] => pure ()
  | x :: t => do
      showWrites k id (some x)
      modify fun s => s.modCopy k fun cp => cp.releaseChunk x
      onCore k fun c => c.modCmd id fun m => { m with old := m.old.filter fun e => !e.1.inChunks [x] }
      releaseAll k id t

/-- The writes of a command in one chunk are performed, and its count there falls. -/
def chunkPerformed (k : CoreRef) (id : Nat) (x : PadId × Nat) : Act Unit := do
  let (l, _, c) ← ctxOf k
  let m ← need (c.cmd? id)
  holdIf (!engineLive l || c.faulted || m.state != .running || m.err.isSome || !m.chunks.contains x || m.op == .vrun)
  let parts := m.writes.map fun w => w.inChunk x
  onCore k fun c => c.modCmd id fun m => { m with writes := parts.flatMap fun p => p.2, chunks := m.chunks.erase x }
  blamed m (performSome k m (parts.flatMap fun p => p.1))
  releaseAll k id [x]

/-- CHUNK_WRITES_PERFORMED. -/
def execChunkWritesPerformed (k : CoreRef) (cmd : Nat) (pad : PadId) (chunk : Nat) (s : State) : Host.Outcome State Fault Refusal :=
  .next (runStep (.core k) (chunkPerformed k cmd (pad, chunk)) s)

/-! ### Completion (R174, R220) -/

/-- A stream that has nothing left to do (R218). -/
def Stream.done (st : Stream) : Bool := st.ended && st.landings.isEmpty && st.elastic.isNone && st.err.isNone

/-- Whether a command's run is over. -/
def Core.runOver (c : Core) (m : Cmd) : Bool :=
  m.state == .running && m.err.isNone &&
    (m.op != .vrun || (match c.eng.stream with
      | some st => st.cmd == m.id && st.done
      | none => false))

/-- One replica of a gang command has completed; the last makes an arrival at every partner's barrier (R220). -/
def gangDone (k : CoreRef) (m : Cmd) : Act Unit :=
  match m.gang with
  | none => pure ()
  | some g => do
      let ik := atRank k (g % 4096)
      let (_, _, c) ← ctxOf ik
      match c.eng.gangs.find? fun x => x.id == g with
      | none => pure ()
      | some x =>
          let left := x.left.erase k.rank
          if left.isEmpty then do
            onCore ik fun c => { c with eng := { c.eng with gangs := c.eng.gangs.filter fun y => y.id != g } }
            modify fun s => x.partners.foldl (fun t r =>
              t.modCore (atRank k r) fun d => d.queueArrival { bar := x.bar, src := .other ik.rank none, after := [] }) s
          else onCore ik fun c => { c with eng := { c.eng with gangs := c.eng.gangs.map fun y => if y.id = g then { y with left := left } else y } }

/-- Completion of a command. -/
def completeCommand (k : CoreRef) (id : Nat) : Act Unit := do
  let s ← get
  let (l, _, c) ← ctxOf k
  let m ← need (c.cmd? id)
  holdIf (!engineLive l || c.faulted || !c.runOver m)
  onCore k fun c => c.modCmd id fun m => { m with writes := [] }
  blamed m (performSome k m m.writes)
  releaseAll k id m.chunks
  showWrites k id none
  let (_, _, c) ← ctxOf k
  let n := (c.tens.norms.toList.getD m.norm Norm.zero).addAll m.normAdds
  let f := m.raised ||| n.2
  let ns : Vector Norm 64 := if m.normAdds.isEmpty then c.tens.norms
    else Vector.ofFn fun i => if i.val = m.norm then n.1 else c.tens.norms[i.val]
  onCore k fun c => { c.raiseFlags s.cc f with
    tens := { c.tens with norms := ns }
    eng := { c.eng with cmds := c.eng.cmds.filter fun e => e.id != id, stream := if m.op = .vrun then none else c.eng.stream } }
  raiseIf (c.policy.faultOf f != 0) (m.blame (Trap.mk' (c.policy.faultOf f)))
  if m.post ≠ 63#6 then onCore k fun c => c.tokenCycle.post m.post
  gangDone k m

/-- ENGINE_COMMAND_COMPLETION. -/
def execEngineCommandCompletion (k : CoreRef) (cmd : Nat) (s : State) : Host.Outcome State Fault Refusal :=
  .next (runStep (.core k) (completeCommand k cmd) s)

/-! ### Faults of a run (R175) -/

/-- The fault a command's run, or its stream, has met. -/
def Core.runFault (c : Core) (m : Cmd) : Option Trap :=
  match m.err with
  | some t => some t
  | none => if m.op = .vrun then (match c.eng.stream with
      | some st => if st.cmd = m.id then st.err else none
      | none => none) else none

/-- ENGINE_ACCESS_FAULT: the fault is taken. -/
def execEngineAccessFault (k : CoreRef) (cmd : Nat) (s : State) : Host.Outcome State Fault Refusal :=
  .next (match s.launch? k.lid, s.core? k with
    | some l, some c =>
        (match (c.cmd? cmd).bind c.runFault with
         | some t => if engineLive l && !c.faulted then s.takeFault (.core k) t else s
         | none => s)
    | _, _ => s)

end Sys2Proof.Machine
end

