-- ==== Sys2Proof/Machine/KvCmd.lean ====
section
/-! DEFINITION. The block-table commands (R194 to R197): the control core pushes them, waits for their tokens, and
performs them as a commit point. -/

namespace Sys2Proof.Machine

/-! ### Effects at the home -/

/-- The references of a list that pass R192, or Access Denied. -/
def kvChecked (m : Cmd) (p : Nat) : List (BitVec 32) → Act (List Nat)
  | [] => pure []
  | ref :: t => do
      let s ← get
      match s.kvEntry p ref with
      | none => raise (m.blame (Trap.mk' 0x05))
      | some (id, _) => do
          raiseIf (s.kvBad p id) (m.blame { Trap.mk' 0x10 with durable := true })
          let r ← kvChecked m p t
          pure (id :: r)

/-- AllocBlock, or KV Block Exhausted. -/
def kvNew (m : Cmd) (p : Nat) : Act Nat := do
  let s ← get
  let (o, s1) := if s.khEn p then s.kvAlloc p else (none, s)
  set s1
  match o with
  | some id => pure id
  | none => raise (m.blame (Trap.mk' 0x1B))

/-- Write a token's K and V rows in a block, and raise its fill. -/
def kvWriteRows (p id r : Nat) (src : List Byte) : Act Unit :=
  modify fun s =>
    let (l, t, e) := (s.khL p, s.khT p, s.kvGet p id)
    let s1 := (s.dramPut (e.frame + r * l) (src.take l)).dramPut (e.frame + (t + r) * l) (src.drop l)
    s1.kvPut p id { e with fill := r + 1, state := if r + 1 = t then 2 else e.state }

/-- The durable rows a copy-on-write reads can be read. -/
def kvReadable (m : Cmd) (frame n : Nat) : Act Unit := do
  let s ← get
  holdIf (!s.dpaReady frame)
  raiseIf (s.dram.badIn frame n) (m.blame { Trap.mk' 0x10 with durable := true })

/-- KVA's effect (R194): the new list word, when one is written; `slot` checks its place before anything changes (R197). -/
def kvaEffect (m : Cmd) (p r : Nat) (ref : BitVec 32) (src : List Byte) (slot : Act Unit) : Act (List (BitVec 32)) := do
  if r = 0 then do
    slot
    let id ← kvNew m p
    kvWriteRows p id 0 src
    let s ← get
    pure [s.kvRef p id]
  else do
    let ids ← kvChecked m p [ref]
    let id ← need ids.head?
    let s ← get
    let e := s.kvGet p id
    let (l, t) := (s.khL p, s.khT p)
    if 1 < e.refs then do
      raiseIf (decide (e.fill < r)) (m.blame (Trap.mk' 0x05))
      kvReadable m e.frame (r * l)
      kvReadable m (e.frame + t * l) (r * l)
      slot
      let n ← kvNew m p
      modify fun s =>
        let f := (s.kvGet p n).frame
        let s1 := (s.dramPut f (s.dramBytes e.frame (r * l))).dramPut (f + t * l) (s.dramBytes (e.frame + t * l) (r * l))
        s1.kvPut p id { s1.kvGet p id with refs := e.refs - 1 }
      kvWriteRows p n r src
      let s ← get
      pure [s.kvRef p n]
    else do
      raiseIf (decide (e.fill ≠ r)) (m.blame (Trap.mk' 0x05))
      kvWriteRows p id r src
      pure []

/-- KVDEM's effect (R195). -/
def kvdemEffect (m : Cmd) (part : BitVec 4) (refs : List (BitVec 32)) : Act Unit := do
  let ids ← kvChecked m part.toNat refs
  let s ← get
  raiseIf (ids.any fun i => (s.kvGet part.toNat i).state == 2 && s.dram.badIn (s.kvGet part.toNat i).frame (s.khF part.toNat))
    (m.blame { Trap.mk' 0x10 with durable := true })
  modify fun s => ids.foldl (fun t i => t.kvDemote part i) s

/-- One entry of KVREF. -/
def State.kvRefBy (s : State) (part : BitVec 4) (inc : Bool) (id : Nat) : State :=
  let e := s.kvGet part.toNat id
  if inc then s.kvPut part.toNat id { e with refs := e.refs + 1 }
  else if e.refs ≤ 1 then s.kvFree part id
  else s.kvPut part.toNat id { e with refs := e.refs - 1 }

/-- KVREF's effect (R196): all entries are checked, duplicates counted, before any changes. -/
def kvrefEffect (m : Cmd) (part : BitVec 4) (inc : Bool) (refs : List (BitVec 32)) : Act Unit := do
  let ids ← kvChecked m part.toNat refs
  let s ← get
  let n (i : Nat) : Nat := (ids.filter fun j => j == i).length
  raiseIf (ids.any fun i => if inc then decide (65535 < (s.kvGet part.toNat i).refs + n i) else decide ((s.kvGet part.toNat i).refs < n i))
    (m.blame (Trap.mk' 0x05))
  modify fun s => ids.foldl (fun t i => t.kvRefBy part inc i) s

/-! ### The commands -/

/-- Pointer of the list word a KVA may write, b = n div T. -/
def kvaSlot (m : Cmd) (t : Nat) : Word := ptrPlus m.xb (4 * (fieldNat m.xc 0 20 / t))

/-- `n` words of a byte string. -/
def words32 : Nat → List Byte → List (BitVec 32)
  | 0, _ => []
  | n + 1, bs => BitVec.ofNat 32 (leNat (bs.take 4)) :: words32 n (bs.drop 4)

/-- List words a command reads. -/
def kvList (k : CoreRef) (m : Cmd) (p : Word) (n : Nat) : Act (List (BitVec 32)) := do
  if n = 0 then pure []
  else do
    let r ← readSpan (m.acc k 1) [] 4 (bytesAt p (4 * n) 4)
    pure (words32 n r.bytes)

/-- The line that writes a list word in durable memory. -/
def kvLine (va : Nat) (node : Option (BitVec 12)) (d : Nat) (w : BitVec 32) : HeldLine :=
  HeldLine.merge { ptr := BitVec.ofNat 64 (va / 64 * 64), mask := 0#64, data := 0#512, seg := 0, record := 0, slotOf := none,
                   node := node, dpa := d - va % 64 } (va % 64) (natLe 4 w.toNat)

/-- The place of a list word that a KVA writes can be written: its checks, its translation and its home (R197, R397, R406). -/
def kvSlotReady (k : CoreRef) (m : Cmd) (p : Word) : Act Unit := do
  let ps ← checkAll (m.acc k 2) p 4 4 .write []
  match ps with
  | (.virt va node d, _) :: _ => do
      let s ← get
      raiseIf (node.isSome && !s.link.nodeSet) (m.blame (Trap.mk' 0x05 p))
      holdIf (node.isNone && !s.dpaReady d)
      raiseIf (s.refuses (kvLine va node d 0#32)) (m.blame { Trap.mk' 0x10 with durable := true })
  | _ => pure ()

/-- The effect of a block-table command, once for every copy: results for the log and the written list words. -/
def kvEffect (k : CoreRef) (m : Cmd) : Act (Word × Word × List (BitVec 32)) := do
  let s ← get
  let (l, _, _) ← ctxOf k
  let p := l.part.toNat
  match m.op with
  | .kva => do
      let n := fieldNat m.xc 0 20
      let t := s.khT p
      let src ← readSpan (m.acc k 1) [] 1 (bytesAt m.xa (2 * s.khL p) 1)
      let list ← kvList k m (kvaSlot m t) (if n % t = 0 then 0 else 1)
      let ws ← kvaEffect m p (n % t) (list.headD 0#32) src.bytes (kvSlotReady k m (kvaSlot m t))
      pure ((ws.headD 0#32).setWidth 64, 0#64, ws)
  | .kvdem => do
      let refs ← kvList k m m.xa (fieldNat m.xb 0 16)
      kvdemEffect m l.part refs
      pure (0#64, 0#64, [])
  | .kvrefInc => do
      let refs ← kvList k m m.xa (fieldNat m.xb 0 16)
      kvrefEffect m l.part true refs
      pure (0#64, 0#64, [])
  | .kvrefDec => do
      let refs ← kvList k m m.xa (fieldNat m.xb 0 16)
      kvrefEffect m l.part false refs
      pure (0#64, 0#64, [])
  | _ => pure (0#64, 0#64, [])

/-- A written list word in durable memory, performed once by the copy that performs the effect. -/
def kvDurable (k : CoreRef) (m : Cmd) (w : BitVec 32) (p : Word) : Act Unit := do
  let (l, _, c) ← ctxOf k
  let ps ← checkAll (m.acc k 2) p 4 4 .write []
  match ps with
  | (.virt va node d, _) :: _ => modify fun s => s.performLine l c.rank c.rank (kvLine va node d w)
  | _ => pure ()

/-- A written list word in scratchpad: written in every copy. -/
def kvLocal (k : CoreRef) (m : Cmd) (w : BitVec 32) (p : Word) : Act Unit := do
  let ps ← checkAll (m.acc k 2) p 4 4 .write []
  match ps with
  | (.pad q o, _) :: _ =>
      performWrite (m.acc k 2) k m { loc := .pad q o, data := natLe 4 w.toNat, half := none, bytewise := false, slotOf := none }
  | _ => pure ()

/-- `CL.op` of a block-table command. -/
def kvOpCode (o : EOp) : Nat :=
  match o with
  | .kva => 15 | .kvdem => 16 | _ => 17

/-- A block-table command as an instruction: the push, the wait for its tokens, the commit point, its completion. -/
def kvInstr (op : EOp) (e : EArgs) (s : State) : Host.Outcome State Fault Refusal :=
  scalar e.guard 8 s fun r => do
    let (k, l, _, c) ← theCore
    match c.eng.cmds.find? fun m => isKvCommit m.op with
    | none => do
        pushOwn k (operandsOf op e r) e false none r.pc
        hold
    | some m => do
        holdIf (!m.waits.isEmpty)
        let t := (← get).khT l.part.toNat
        let (_, _, ws) ← commitPoint k { op := kvOpCode m.op, w1 := m.xa, w2 := m.xb, w3 := 0#64 } (do
          let x ← kvEffect k m
          match x.2.2 with
          | w :: _ => kvDurable k m w (kvaSlot m t)
          | [] => pure ()
          pure x)
        match ws with
        | w :: _ => kvLocal k m w (kvaSlot m t)
        | [] => pure ()
        onCore k fun c => { c with eng := { c.eng with cmds := c.eng.cmds.filter fun x => x.id != m.id } }
        if m.post ≠ 63#6 then onCore k fun c => c.tokenCycle.post m.post
        pure .adv

/-- KVA (R194). -/
def execKva (e : EArgs) (s : State) : Host.Outcome State Fault Refusal := kvInstr .kva e s
/-- KVDEM (R195). -/
def execKvdem (e : EArgs) (s : State) : Host.Outcome State Fault Refusal := kvInstr .kvdem e s
/-- KVREF.INC (R196). -/
def execKvrefInc (e : EArgs) (s : State) : Host.Outcome State Fault Refusal := kvInstr .kvrefInc e s
/-- KVREF.DEC (R196). -/
def execKvrefDec (e : EArgs) (s : State) : Host.Outcome State Fault Refusal := kvInstr .kvrefDec e s

end Sys2Proof.Machine
end

