-- ==== Sys2Proof/Machine/QueueInstr.lean ====
section
/-! DEFINITION. CWAIT, the drains, HFLUSH and ISYNC (R155 to R158), ENQ (R159) and SIGF (R160). -/

namespace Sys2Proof.Machine

/-! ### CWAIT (R155) -/

/-- The control core where only scratchpads are allowed. -/
def padAcc (k : CoreRef) : Acc := { ctlAcc k with unit := .vector }

/-- CWAIT (R155): the status of the lowest-addressed chunk that carries one. A length of 0 is not checked. -/
def execCwait (d a : BitVec 6) (b : Src) (g : BitVec 4) (s : State) : Host.Outcome State Fault Refusal :=
  scalar g (srLen b) s fun r => do
    let (k, _, _, _) ← theCore
    let n := (srB r b).toNat
    if n = 0 then do
      setX d 0#64
      pure .adv
    else do
      let x ← checkPtr (padAcc k) (r.get a) n 1 .read
      match x with
      | .pad p off => do
          let (_, cp, _) ← ctxOf k
          let cs := (chunksOf [(p, off, n)]).map cp.chunk
          holdIf (cs.any fun c => c.pend != 0)
          setX d (((cs.find? fun c => c.status != 0#8).map fun c => c.status.setWidth 64).getD 0#64)
          pure .adv
      | _ => raiseC 0x05 (r.get a)

/-! ### Drains (R156) -/

/-- The spaces a drain names. -/
inductive DrainOf where
  | usp | cls | dsp | virt | vim
deriving DecidableEq, Repr

/-- Whether a pointer lies in the named space; SELF is the core's unit scratchpad. -/
def DrainOf.names (d : DrainOf) (p : Word) : Bool :=
  match d with
  | .usp => ptrSpace p == 1 || ptrSpace p == 7
  | .cls => ptrSpace p == 2
  | .dsp => ptrSpace p == 3
  | .virt => ptrSpace p == 0
  | .vim => ptrSpace p == 5

/-- The pointers a copy or store command writes through. -/
def Cmd.outPointers (m : Cmd) : List Word :=
  let both (n : Nat) : List Word := (m.tids.take n).flatMap fun t =>
    (tidOf t).base :: (if (tidOf t).sloc = 0 then [] else [(tidOf t).sptr])
  match m.op with
  | .cpy => [m.xa]
  | .cpyMc => [m.xa]
  | .cpyT => both 1
  | .cpyQ => both 1
  | .gath => [m.xa]
  | .scat => both 1
  | .bin => both 1 ++ [m.xb, (gatherOf m.desc).ctr]
  | .kvg => [m.xa]
  | .stt => both 1
  | .stg => both 1
  | .stp => both 2
  | .updSgd => both 2
  | .updAdam => both 3
  | _ => []

/-- Whether a command that core `rank` pushed is one a drain waits for: of the copy or store queue, writing the named
space. -/
def Cmd.drained (m : Cmd) (d : DrainOf) : Bool :=
  (engineSrc m.op == 1 || engineSrc m.op == 4) && m.outPointers.any d.names

/-- A drain stalls until no such command is left, gang replicas in the partners included; a completed command has
performed its writes. -/
def drain (d : DrainOf) (g : BitVec 4) (s : State) : Host.Outcome State Fault Refusal :=
  scalar g 4 s fun _ => do
    let (_, _, cp, c) ← theCore
    holdIf (cp.cores.any fun e => e.eng.cmds.any fun m => m.issuer e.rank == c.rank && m.drained d)
    pure .adv

/-- DRAIN.USP. -/
def execDrainUsp (g : BitVec 4) (s : State) : Host.Outcome State Fault Refusal := drain .usp g s
/-- DRAIN.CLS. -/
def execDrainCls (g : BitVec 4) (s : State) : Host.Outcome State Fault Refusal := drain .cls g s
/-- DRAIN.DSP. -/
def execDrainDsp (g : BitVec 4) (s : State) : Host.Outcome State Fault Refusal := drain .dsp g s
/-- DRAIN.VIRT. -/
def execDrainVirt (g : BitVec 4) (s : State) : Host.Outcome State Fault Refusal := drain .virt g s
/-- DRAIN.VIM. -/
def execDrainVim (g : BitVec 4) (s : State) : Host.Outcome State Fault Refusal := drain .vim g s

/-! ### HFLUSH (R157) -/

/-- The DPAs of the local host-memory bytes of a range, a page at a time; bytes that are no host memory, or that have no
translation, are unaffected. DESIGN CHOICE (log entry 80): an address in the view of a versioned region is walked as it stands, so
that it names no host memory. -/
def hostRanges (s : State) (l : Launch) (va n : Nat) : List (Nat × Nat) :=
  (cutAt 4096 (n / 4096 + 2) va n).filterMap fun p =>
    match (s.walk l.ctx l.part p.1).1 with
    | .leaf e =>
        let d := e.dpa + (p.1 - e.va)
        if e.node.isNone && (d / 2 ^ 44 == 2 || d / 2 ^ 44 == 3) then some (d, p.2) else none
    | .invalid => none
    | .poisoned _ _ => none

/-- Whether a released write to a host lies in some ranges. -/
def HostWrite.inRanges (h : HostWrite) (rs : List (Nat × Nat)) : Bool :=
  rs.any fun r => decide (h.dpa < r.1 + r.2) && decide (r.1 < h.dpa + 64)

/-- An HFLUSH asks for the released host writes of some ranges, and stalls until they are performed (R157, R323). -/
def flushWait (rs : List (Nat × Nat)) : Act Unit := do
  modify fun s => { s with host := { s.host with writes := s.host.writes.map fun h => { h with asked := h.asked || h.inRanges rs } } }
  holdIf ((← get).host.writes.any fun h => h.inRanges rs)

/-- HFLUSH (R157): a commit point; then it stalls until the released host writes in the range are performed. A length of 0 makes it a
commit point only. -/
def execHflush (a : BitVec 6) (b : Src) (g : BitVec 4) (s : State) : Host.Outcome State Fault Refusal :=
  scalar g (srLen b) s fun r => do
    let n := (srB r b).toNat
    let p := r.get a
    let _ ← commitAny { op := 6, w1 := p, w2 := srB r b, w3 := 0#64 } (do
      let s ← get
      if n = 0 || ptrSpace p != 0 || s.host.writes.isEmpty then pure ()
      else match s.cur with
        | .core _ => do
            let (_, l, _, _) ← theCore
            flushWait (hostRanges s l (fieldNat p 0 52) (min n (2 ^ 52 - fieldNat p 0 52)))
        | _ => flushWait [(fieldNat p 0 48, n)]
      pure (0#64, 0#64, []))
    pure .adv

/-! ### ISYNC (R158) -/

/-- ISYNC: the next instructions are fetched from memory as it stands. -/
def execIsync (g : BitVec 4) (s : State) : Host.Outcome State Fault Refusal :=
  scalar g 4 s fun _ => do
    modify fun s => match s.actor with
      | some a => s.syncCode a false
      | none => s
    pure .adv

/-! ### ENQ (R159) -/

/-- The node and home handle of a queue handle: the home finds the queue by index and generation. -/
def handleNode (h : Word) : BitVec 12 := h.extractLsb' 48 12

/-- The packet of an ENQ: its bytes, and the scratchpad place they came from. -/
def enqPacket (p : Word) : Act (List Byte × Option (PadId × Nat)) := do
  let s ← get
  match s.cur with
  | .anole _ => do
      let _ ← orRaise (anCheck p 64 64 .read)
      raiseIf (ptrSpace p != 0) (Trap.mk' 0x05 p)
      let bs ← anRead p 64 64 .read
      pure (bs, none)
  | _ => do
      let (k, _, _, _) ← theCore
      let x ← checkPtr (padAcc k) p 64 64 .read
      match x with
      | .pad q off => do
          let bs ← ctlRead k p 64 64
          pure (bs, some (q, off))
      | _ => raiseC 0x05 p

/-- The effect of ENQ at the queue's home: its status (Table of R159). An unreachable node answers as a stale queue. -/
def enqHome (h : Word) (packet : List Byte) : Act (Word × Word × List (BitVec 32)) := do
  let s ← get
  let node := handleNode h
  if node = s.node then do
    let master := match s.curLid with
      | some _ => 32 + s.srcPart.toNat
      | none => 44
    raiseIf (decide (fieldNat h 0 16 < 4096) && !s.right 0x01280000 (fieldNat h 0 12) master .enqueue) (Trap.mk' 0x05)
    let q := BitVec.ofNat 12 (fieldNat h 0 12)
    holdIf (s.qState q != 0 && !s.dpaReady (s.qRing q))
    let (st, s1) := s.enqueueAt h packet
    set s1
    pure (BitVec.ofNat 64 st, 0#64, [])
  else do
    let (st, _, _) ← askRemote 6 node h packet
    raiseIf (st == 0x05#8) (Trap.mk' 0x05)
    pure (if st = 0x10#8 then 0x0F#64 else st.setWidth 64, 0#64, [])

/-- ENQ (R159): a commit point. The status goes to x[rd] and to the packet's source chunk. -/
def execEnq (d a : BitVec 6) (b : Src) (g : BitVec 4) (s : State) : Host.Outcome State Fault Refusal :=
  scalar g (srLen b) s fun r => do
    let h := r.get a
    let (bs, place) ← enqPacket (srB r b)
    let (st, _, _) ← commitAny { op := 2, w1 := h, w2 := srB r b, w3 := crc64 bs } (enqHome h bs)
    let s ← get
    match s.cur, place with
    | .core k, some (q, off) => modify fun s => s.modCopy k fun cp => cp.modPad q fun x => x.setChunk (off / 512) { x.chunk (off / 512) with status := st.setWidth 8 }
    | _, _ => pure ()
    setX d st
    pure .adv

/-! ### SIGF (R160, R364) -/

/-- SIGF: folds x[ra] into the open segment's fold; no effect in class N. -/
def execSigf (a : BitVec 6) (g : BitVec 4) (s : State) : Host.Outcome State Fault Refusal :=
  scalar g 4 s fun r => do
    let (k, l, _, _) ← theCore
    if l.cls ≠ 0 then
      onCore k fun c => { c with muslin := { c.muslin with fold := foldIn c.muslin.fold (r.get a) } }
    pure .adv

end Sys2Proof.Machine
end

