-- ==== Sys2Proof/Machine/SysInstr.lean ====
section
/-! DEFINITION. Special registers (R23, R24, R161), iterations and checkpoints as a core sees them (R162, R163, R290),
TRAP, SYSRET, WFE, EXIT (R164 to R167), and words that no row assigns (R55). -/

namespace Sys2Proof.Machine

/-! ### Special registers -/

/-- `sr.tokerr` (Table 01-3). -/
def Policy.tokerr (p : Policy) : Word := BitVec.ofNat 64 (p.trap.toNat * 2 ^ 9 + p.sticky.toNat * 2 ^ 8 + p.tok.toNat)

/-- `sr.policy` of a launch (Table 01-3). -/
def Policy.policy (p : Policy) (rep : Nat) : Word :=
  BitVec.ofNat 64 (p.flags.toNat * 2 ^ 16 + p.aen.toNat * 2 ^ 9 + p.dfen.toNat * 2 ^ 8 + rep)

/-- What MFS reads of every register but `sr.clock`. -/
def specialReg (s : State) (l : Launch) (cp : Copy) (c : Core) (n : Nat) : Word :=
  match n with
  | 0 => c.coord l
  | 1 => l.rect
  | 2 => BitVec.ofNat 64 c.loop.iter
  | 3 => BitVec.ofNat 64 c.loop.lap
  | 4 => BitVec.ofNat 64 c.loop.ckpt
  | 5 => BitVec.ofNat 64 l.cls
  | 7 => bindingWord cp.binding
  | 8 => s.partWord l
  | 9 => l.ident
  | 10 => l.fault
  | 11 => c.policy.tokerr
  | 12 => c.policy.policy l.packet.rep
  | _ => 0#64

/-- MFS (R161, R26): of `sr.clock` a commit point; an Anole core reads the counter, and zero elsewhere (R396). -/
def execMfs (d sr : BitVec 6) (g : BitVec 4) (s : State) : Host.Outcome State Fault Refusal :=
  scalar g 4 s fun _ => do
    raiseIf (decide (13 ≤ sr.toNat)) (Trap.mk' 0x01)
    let s ← get
    match s.cur with
    | .anole _ => setX d (if sr = 6#6 then BitVec.ofNat 64 s.cc else 0#64)
    | _ => do
        let (k, l, cp, c) ← theCore
        if sr = 6#6 then do
          let (v, _, _) ← commitPoint k { op := 7, w1 := 0#64, w2 := 0#64, w3 := 0#64 } (do
            let s ← get
            pure (BitVec.ofNat 64 s.cc, 0#64, []))
          setX d v
        else setX d (specialReg s l cp c sr.toNat)
    pure .adv

/-- A write of `sr.tokerr`: reserved bits zero, `tok` as it stands (R7, R23). -/
def Policy.setTokerr (p : Policy) (v : Word) : Option Policy :=
  if fieldNat v 10 54 ≠ 0 || fieldNat v 6 2 ≠ 0 || v.setWidth 6 ≠ p.tok then none
  else some { p with trap := bitAt v 9, sticky := bitAt v 8 }

/-- A write of `sr.policy`: reserved bits zero, `rep` as it stands. -/
def Policy.setPolicy (p : Policy) (rep : Nat) (v : Word) : Option Policy :=
  if fieldNat v 23 41 ≠ 0 || fieldNat v 14 2 ≠ 0 || fieldNat v 2 6 ≠ 0 || fieldNat v 0 2 ≠ rep then none
  else some { p with flags := v.extractLsb' 16 7, aen := v.extractLsb' 9 5, dfen := bitAt v 8 }

/-- MTS (R161, R23): only `sr.tokerr` and `sr.policy` are writable. -/
def execMts (a sr : BitVec 6) (g : BitVec 4) (s : State) : Host.Outcome State Fault Refusal :=
  scalar g 4 s fun r => do
    let (k, l, _, c) ← theCore
    let new := match sr.toNat with
      | 11 => c.policy.setTokerr (r.get a)
      | 12 => c.policy.setPolicy l.packet.rep (r.get a)
      | _ => none
    match new with
    | none => raiseC 0x01
    | some p => do
        onCore k fun c => { c with policy := p.raise (c.raisedNow s.cc) }
        pure .adv

/-! ### ITER and CKPT -/

/-- The effective checkpoint interval in laps (R290). -/
def LoopRec.neff (lr : LoopRec) : Nat :=
  if lr.dbytes = 0 then lr.ckint else min lr.ckint (Config.containBytes / (lr.dbytes * lr.ring))

/-- Whether a CKPT is pending in the group (R163). -/
def Launch.ckptAsked (l : Launch) : Bool := l.copies.any fun cp => cp.role != .third && cp.cores.any fun c => c.loop.ckptPending

/-- `CheckpointDue` at the ITER that makes `sr.iter` `i` (R290): the sequencer decides once for the group. -/
def Launch.due (l : Launch) (i : Nat) : Bool :=
  match l.dues.find? fun d => d.1 == i with
  | some d => d.2
  | none => decide (l.lrec.neff ≤ i / l.lrec.ring - l.laps) || l.ckptAsked

/-- Keep the decision. -/
def Launch.decide (l : Launch) (i : Nat) : Launch :=
  if l.dues.any fun d => d.1 == i then l else { l with dues := l.dues ++ [(i, l.due i)] }

/-- Where a core goes on after its ITER (R162). -/
def Core.enterPhase (c : Core) (lr : LoopRec) : Core :=
  let last := c.loop.iter == lr.trip
  { c with loop := { c.loop with phase := if last then .epilogue else .kernel },
           regs := c.regs.setPc (if last then lr.epi else lr.ker) }

/-- A quiescent point: pending shoot-downs are acknowledged and the watchdog restarts (R162, R163, R302, R338). -/
def quiesce (k : CoreRef) : Act Unit := do
  modify fun s => s.ackShoots k
  let s ← get
  onCore k fun c => { c with watch := s.cc }

/-- Whether every core of every copy but a third execution stalls at the checkpoint (Table 07-6). -/
def Launch.allStalled (l : Launch) : Bool := l.copies.all fun cp => cp.role == .third || cp.cores.all fun c => c.block == .ckpt

/-- ITER (R162). At a checkpoint the core waits for CHECKPOINT_COMMIT, which takes it on. -/
def execIter (g : BitVec 4) (s : State) : Host.Outcome State Fault Refusal :=
  scalar g 4 s fun r => do
    let (k, l, _, c) ← theCore
    raiseIf (c.loop.phase == .epilogue) (Trap.mk' 0x01)
    let kernel := c.loop.phase == .kernel
    let i := c.loop.iter + 1
    if kernel then onCore k fun c => { c with loop := { c.loop with iter := i, lap := i / l.lrec.ring } }
    quiesce k
    if kernel && i % l.lrec.ring == 0 && l.due i then do
      modify fun s => s.modLaunch k.lid fun l => l.decide i
      onCore k fun c => { c with block := .ckpt }
      modify fun s => s.modLaunch k.lid fun l => if l.allStalled then { l with state := .checkpointing } else l
      pure (.goto r.pc)
    else do
      if kernel && i % l.lrec.ring == 0 then modify fun s => s.modLaunch k.lid fun l => l.decide i
      onCore k fun c => c.enterPhase l.lrec
      let c ← coreNow k
      pure (.goto c.regs.pc)

/-- CKPT (R163). -/
def execCkpt (g : BitVec 4) (s : State) : Host.Outcome State Fault Refusal :=
  scalar g 4 s fun _ => do
    let (k, _, _, c) ← theCore
    quiesce k
    if c.loop.phase != .epilogue then onCore k fun c => { c with loop := { c.loop with ckptPending := true } }
    pure .adv

/-! ### TRAP, SYSRET, WFE, EXIT -/

/-- TRAP (R164). -/
def execTrap (b : Src) (g : BitVec 4) (s : State) : Host.Outcome State Fault Refusal :=
  scalar g (srLen b) s fun r => raise { Trap.mk' 0x19 with trapCode := (srB r b).setWidth 32 }

/-- SYSRET (R165): Privileged on a launch's control core. -/
def execSysret (g : BitVec 4) (s : State) : Host.Outcome State Fault Refusal :=
  scalar g 4 s fun _ => do
    let s ← get
    match s.cur with
    | .anole a => do
        set (s.anoleReturn a)
        pure (.goto (s.an a 8))
    | _ => raiseC 0x02

/-- WFE (R166): the core waits. -/
def execWfe (g : BitVec 4) (s : State) : Host.Outcome State Fault Refusal :=
  scalar g 4 s fun r => do
    let s ← get
    let b : Block := .wfe s.cc (r.pc + 4#64)
    match s.cur with
    | .anole a => modify fun s => s.modAnole a fun c => { c with block := b }
    | _ => do
        let (k, _, _, _) ← theCore
        onCore k fun c => { c with block := b }
    pure (.goto r.pc)

/-- EXIT (R167): when every pushed command has completed and no bank is allocated, a commit point that ends the core's
part. -/
def execExit (g : BitVec 4) (s : State) : Host.Outcome State Fault Refusal :=
  scalar g 4 s fun _ => do
    let (k, _, _, c) ← theCore
    holdIf c.pushesBusy
    raiseIf (c.tens.banks.toList.any id) (Trap.mk' 0x0C)
    let _ ← commitPoint k { op := 9, w1 := 0#64, w2 := 0#64, w3 := 0#64 } (pure (0#64, 0#64, []))
    onCore k fun c => { c with exited := true }
    pure .adv

/-! ### Unassigned encodings (R55) -/

/-- A word that no row assigns, or whose fields break its form's rules: Illegal Encoding, whatever its guard. -/
def execUnassignedEncoding (_w : BitVec 32) (s : State) : Host.Outcome State Fault Refusal :=
  match s.cur with
  | .core k => .next (s.takeFault (.core k) (Trap.mk' 0x01))
  | .anole a => .next (s.takeFault (.anole a) (Trap.mk' 0x01))
  | .vec _ => .fault .noAgent
  | .none => .fault .noAgent

end Sys2Proof.Machine
end

