-- ==== Sys2Proof/Machine/VecBase.lean ====
section
/-! DEFINITION. The vector stream (R62, R224 to R230): registers as rows of elements, writes and their landing, and the
shape of a fixed-latency word and of an elastic one. -/

namespace Sys2Proof.Machine

/-! ### Rows and masks (R228) -/

/-- Element e of a row in elements of `w` bytes. -/
def elt (w : Nat) (r : BitVec 2048) (e : Nat) : Nat := fieldNat r (8 * w * e) (8 * w)

/-- Elements per row. -/
def nElts (w : Nat) : Nat := 256 / w

/-- A number from digits of `n` bits, lowest first. -/
def digits (n : Nat) : List Nat → Nat
  | [] => 0
  | c :: t => c % 2 ^ n + 2 ^ n * digits n t

/-- A row from its elements of `w` bytes. -/
def rowOfElts (w : Nat) (cs : List Nat) : BitVec 2048 := BitVec.ofNat 2048 (digits (8 * w) cs)

/-- Whether element e of width `w` is enabled. -/
def enabled (w : Nat) (m : BitVec 256) (e : Nat) : Bool := m.getLsbD (w * e)

/-- The byte mask of the elements a test picks. -/
def maskOf (w : Nat) (f : Nat → Bool) : BitVec 256 :=
  BitVec.ofNat 256 (digits w ((List.range (nElts w)).map fun e => if f e then 2 ^ w - 1 else 0))

/-- The bytes of a row that a byte mask picks from `new`, the others from `old`. -/
def mergeRow (old new : BitVec 2048) (m : BitVec 256) : BitVec 2048 :=
  if m = BitVec.allOnes 256 then new
  else rowOfElts 1 ((List.range 256).map fun i => if m.getLsbD i then elt 1 new i else elt 1 old i)

/-! ### Registers -/

/-- A v register. -/
def VRegs.row (r : VRegs) (i : BitVec 5) : BitVec 2048 := r.v[i.toNat]
/-- A mask register; m0 is all ones. -/
def VRegs.mask (r : VRegs) (i : BitVec 3) : BitVec 256 := if i = 0#3 then BitVec.allOnes 256 else r.m[i.toNat]
/-- An address, constant and counter register. -/
def VRegs.addr (r : VRegs) (i : BitVec 4) : Word := r.a[i.toNat]
def VRegs.const (r : VRegs) (i : BitVec 4) : BitVec 32 := r.k[i.toNat]
def VRegs.ctr (r : VRegs) (i : BitVec 2) : BitVec 32 := r.c[i.toNat]

/-- What a landing does to the registers; m0 is never written. -/
def VRegs.land (r : VRegs) (w : LandKind) : VRegs :=
  match w with
  | .v i m d => { r with v := r.v.set i.toNat (mergeRow (r.row i) d m) }
  | .m i b d => if i = 0#3 then r else { r with m := r.m.set i.toNat ((r.mask i &&& ~~~b) ||| (d &&& b)) }
  | .a i d => { r with a := r.a.set i.toNat d }
  | .k i d => { r with k := r.k.set i.toNat d }
  | .c i d => { r with c := r.c.set i.toNat d }
  | .flags _ _ => r

/-- A write of whole elements of `w` bytes: those a test picks. -/
def vWrite (i : BitVec 5) (w : Nat) (f : Nat → Bool) (cs : List Nat) : LandKind := .v i (maskOf w f) (rowOfElts w cs)

/-- A write of the first 32-bit lanes of a register. -/
def laneWrite (i : BitVec 5) (cs : List Nat) : LandKind := vWrite i 4 (fun e => decide (e < cs.length)) cs

/-! ### Walking fields (R62) -/

/-- The fields of a word in repetition j. -/
def atRepV (v : VArgs) (j : Nat) : VArgs :=
  let up (on : Bool) (r : BitVec 5) : BitVec 5 := if on then r + BitVec.ofNat 5 j else r
  { v with vd := up (v.walk != 0#2) v.vd, va := up (2 ≤ v.walk.toNat) v.va, vb := up (v.walk == 3#2) v.vb }

/-- Repetitions of a word. -/
def repsV (v : VArgs) : Nat := v.rep.toNat + 1

/-! ### Landings (R225, R226) -/

/-- Insert a landing after those of the same or an earlier cycle. -/
def landSort (x : Landing) : List Landing → List Landing
  | [] => [x]
  | y :: t => if x.cycle < y.cycle then x :: y :: t else y :: landSort x t

/-- Landings in the order they are applied: by cycle, then by issue. -/
def inLandOrder (ls : List Landing) : List Landing := ls.foldl (fun acc x => landSort x acc) []

/-- The cycle of the last landing. -/
def lastLanding (ls : List Landing) : Nat := ls.foldl (fun n x => max n x.cycle) 0

/-- Launch, copy, core and stream of the running stream. -/
def vecNow (k : CoreRef) : Act (Launch × Copy × Core × Stream) := do
  let (l, cp, c) ← ctxOf k
  let st ← need c.eng.stream
  pure (l, cp, c, st)

/-- Change the stream. -/
def onStream (k : CoreRef) (f : Stream → Stream) : Act Unit :=
  onCore k fun c => { c with eng := { c.eng with stream := c.eng.stream.map f } }

/-- A fault of the vector engine. -/
def vecTrap (code : Nat) (addr : Word := 0#64) : Trap := Trap.mk' code addr 3

/-- Apply landings in order; flags are set at theirs and may raise the enabled fault (R230). -/
def applyLandings (k : CoreRef) : List Landing → Act Unit
  | [] => pure ()
  | x :: t => do
      let s ← get
      match x.what with
      | .flags f spc => do
          let c ← coreNow k
          onCore k fun c => c.raiseFlags s.cc f
          raiseIf (c.policy.faultOf f != 0) { vecTrap (c.policy.faultOf f) with spc := some spc.toNat }
      | w => onCore k fun c => { c with vregs := c.vregs.land w }
      applyLandings k t

/-- Apply every landing of a cycle up to `t`. -/
def landTo (k : CoreRef) (t : Nat) : Act Unit := do
  let (_, _, _, st) ← vecNow k
  let due := inLandOrder (st.landings.filter fun x => decide (x.cycle ≤ t))
  onStream k fun st => { st with landings := st.landings.filter fun x => decide (t < x.cycle) }
  applyLandings k due

/-- Apply every landing, whatever its cycle. -/
def landAll (k : CoreRef) : Act Unit := do
  let (_, _, _, st) ← vecNow k
  landTo k (lastLanding st.landings)

/-- Add landings in issue order. -/
def pushLandings (k : CoreRef) (ls : List Landing) : Act Unit := onStream k fun st => { st with landings := st.landings ++ ls }

/-! ### Running a word -/

/-- A stream meets a fault: it stops, and ENGINE_ACCESS_FAULT delivers it with the SPC of its word (R224, R230). -/
def State.streamErr (s : State) (k : CoreRef) (t : Trap) : State :=
  s.modCore k fun c => { c with eng := { c.eng with stream := c.eng.stream.map fun st =>
    { st with err := some { t with src := 3, spc := some (t.spc.getD st.spc.toNat) } } } }

/-- After a stall of a word nothing of it remains but the chunks it has seen (R222). -/
def State.keepSeen (s : State) (k : CoreRef) (new : State) : State :=
  match new.core? k with
  | none => s
  | some d => s.modCore k fun c => { c with eng := { c.eng with cmds := c.eng.cmds.map fun m =>
      { m with seen := ((d.cmd? m.id).map fun x => x.seen).getD m.seen } } }

/-- Run an action as a vector word of the current stream: a fault stops the stream, a stalled word is tried again. -/
def vecWord (s : State) (act : CoreRef → Act Unit) : Host.Outcome State Fault Refusal :=
  match s.cur with
  | .vec k =>
      .next (match act k s with
        | .ok (_, s') => s'
        | .error (.trap t, s') => s'.streamErr k t
        | .error (.hold, s') => s.keepSeen k s')
  | .core _ => .fault .noAgent
  | .anole _ => .fault .noAgent
  | .none => .fault .noAgent

/-- The repetitions of a word in order, joining their flags. -/
def repeatWord (body : Nat → Act Flags) : List Nat → Act Flags
  | [] => pure fNone
  | j :: t => do
      let f ← body j
      let g ← repeatWord body t
      pure (f ||| g)

/-- The issue of a word is over: the next word and its cycle (R62); its flags land with its last repetition. -/
def endWord (k : CoreRef) (cycle flagsAt : Nat) (f : Flags) : Act Unit :=
  onStream k fun st =>
    { st with spc := st.spc + 1#14, cycle := cycle,
              landings := st.landings ++ (if f = fNone then [] else [{ cycle := flagsAt, what := .flags f st.spc }]) }

/-- A fixed-latency word: each repetition reads the registers at its issue cycle and its results land `lat` later (R225,
R226). `f` gives the writes and flags of repetition j from the registers and the walked fields; `u` is their cover (Table 10-1). -/
def fixedWordOf (u : Residue) (v : VArgs) (lat : Nat) (s : State) (f : VRegs → VArgs → Nat → List LandKind × Flags) :
    Host.Outcome State Fault Refusal :=
  vecWord s fun k => do
    let (_, _, _, st) ← vecNow k
    let t := st.cycle
    let g ← repeatWord (fun j => do
      landTo k (t + j)
      let c ← coreNow k
      let (ls, g) := f c.vregs (atRepV v j) j
      pushLandings k (ls.map fun w => { cycle := t + j + lat, what := w, unit := u, spc := st.spc })
      pure g) (List.range (repsV v))
    endWord k (t + repsV v + v.idle.toNat) (t + repsV v - 1 + lat) g

/-- A fixed-latency word whose results no residue covers. -/
def fixedWord (v : VArgs) (lat : Nat) (s : State) (f : VRegs → VArgs → Nat → List LandKind × Flags) : Host.Outcome State Fault Refusal :=
  fixedWordOf .none v lat s f

/-- An elastic word waits for its completion cycle, at least the landing of its last earlier result (R227); its flags
are set then. -/
def endElastic (k : CoreRef) (v : VArgs) (t last : Nat) (f : Flags) : Act Unit := do
  let m := max (t + repsV v - 1) last
  endWord k t m f
  onStream k fun st => { st with elastic := some (m, v.idle.toNat) }

/-- An elastic word: every earlier result lands first; each repetition reads the registers and writes its results in
order. -/
def elasticWord (v : VArgs) (s : State) (body : CoreRef → VArgs → Nat → Act Flags) : Host.Outcome State Fault Refusal :=
  vecWord s fun k => do
    let (_, _, _, st) ← vecNow k
    landAll k
    let g ← repeatWord (fun j => body k (atRepV v j) j) (List.range (repsV v))
    endElastic k v st.cycle (lastLanding st.landings) g

/-- The flags and writes of an element-wise word on elements of `w` bytes: the element function gets the codes of va, vb
and vd and the element's number. Disabled elements keep their old values (R229). -/
def eltWise (w : Nat) (f : Nat → Nat → Nat → Nat → Nat × Flags) (r : VRegs) (v : VArgs) : List LandKind × Flags :=
  let m := r.mask v.mask
  let (a, b, d) := (r.row v.va, r.row v.vb, r.row v.vd)
  let on := enabled w m
  let rs := (List.range (nElts w)).map fun e => if on e then f (elt w a e) (elt w b e) (elt w d e) e else (0, fNone)
  ([vWrite v.vd w on (rs.map fun p => p.1)], joinFlags (rs.map fun p => p.2))

/-- Draws of R235: seed, layer and counter base from the k registers. -/
def VRegs.draw (r : VRegs) (i : Nat) : BitVec 32 :=
  newt (r.const 11#4 ++ r.const 10#4) (r.const 12#4) ((r.const 14#4 ++ r.const 13#4 : BitVec 64) + BitVec.ofNat 64 i)

/-! ### Operand codes (Table 06-3) -/

/-- Width in bytes of a type code. -/
def typeBytes (t : BitVec 4) : Nat :=
  match t.toNat with
  | 0 => 4 | 4 => 4 | 8 => 4
  | 6 => 1 | 10 => 1
  | _ => 2

/-- The floating format of a type code. -/
def typeFmt (t : BitVec 4) : FFmt :=
  match t.toNat with
  | 0 => fmtF32 | 1 => fmtF16 | _ => fmtBF16

/-- Whether a type code is floating; whether it is a signed integer. -/
def typeFloat (t : BitVec 4) : Bool := t.toNat < 3
def typeSigned (t : BitVec 4) : Bool := 4 ≤ t.toNat && t.toNat ≤ 6

/-- The key that orders the non-NaN codes of a format, −0 below +0. -/
def orderKey (f : FFmt) (c : Nat) : Int :=
  if c.testBit (f.width - 1) then -((c % 2 ^ (f.width - 1) : Nat) : Int) - 1 else (c : Int)

end Sys2Proof.Machine
end

