-- ==== Sys2Proof/Machine/VecFloat.lean ====
section
/-! DEFINITION. Floating-point and transcendental vector words (R236 to R242) with the reference procedures of R238. -/

namespace Sys2Proof.Machine

/-! ### Arithmetic (R236) -/

/-- An element operation of the word's floating type. -/
def floatWord (v : VArgs) (lat : Nat) (s : State) (op : FFmt → Nat → Nat → Nat → Nat × Flags) (u : Residue := .none) :
    Host.Outcome State Fault Refusal :=
  fixedWordOf u v lat s fun r v _ => eltWise (typeBytes v.asel) (fun a b d _ => op (typeFmt v.asel) a b d) r v

/-- The smaller or larger of two codes, −0 below +0; a NaN gives the canonical NaN. No flag. -/
def pickF (f : FFmt) (least : Bool) (a b : Nat) : Nat × Flags :=
  if (f.decode a).isNan || (f.decode b).isNan then (f.nanCode, fNone)
  else if (if least then decide (orderKey f a ≤ orderKey f b) else decide (orderKey f b ≤ orderKey f a)) then (a, fNone)
  else (b, fNone)

/-- A code with another sign bit; a NaN gives the canonical NaN. No flag. -/
def signF (f : FFmt) (g : Bool → Bool) (a : Nat) : Nat × Flags :=
  if (f.decode a).isNan then (f.nanCode, fNone)
  else (f.signed (g (a.testBit (f.width - 1))) (a % 2 ^ (f.width - 1)), fNone)

/-- VADD. -/
def execVadd (v : VArgs) (s : State) : Host.Outcome State Fault Refusal := floatWord v 4 s fun f a b _ => f.add a b
/-- VSUB. -/
def execVsub (v : VArgs) (s : State) : Host.Outcome State Fault Refusal := floatWord v 4 s fun f a b _ => f.sub a b
/-- VMUL. -/
def execVmul (v : VArgs) (s : State) : Host.Outcome State Fault Refusal := floatWord v 4 s (fun f a b _ => f.mul a b) .product
/-- VFMA: a·b + d, one rounding. -/
def execVfma (v : VArgs) (s : State) : Host.Outcome State Fault Refusal :=
  floatWord v 4 s (fun f a b d => f.fma (f.decode a) (f.decode b) (f.decode d)) .product
/-- VFMS: d − a·b, one rounding. -/
def execVfms (v : VArgs) (s : State) : Host.Outcome State Fault Refusal :=
  floatWord v 4 s (fun f a b d => f.fma (f.decode a).flip (f.decode b) (f.decode d)) .product
/-- VMIN. -/
def execVmin (v : VArgs) (s : State) : Host.Outcome State Fault Refusal := floatWord v 4 s fun f a b _ => pickF f true a b
/-- VMAX. -/
def execVmax (v : VArgs) (s : State) : Host.Outcome State Fault Refusal := floatWord v 4 s fun f a b _ => pickF f false a b
/-- VABS. -/
def execVabs (v : VArgs) (s : State) : Host.Outcome State Fault Refusal := floatWord v 4 s fun f a _ _ => signF f (fun _ => false) a
/-- VNEG. -/
def execVneg (v : VArgs) (s : State) : Host.Outcome State Fault Refusal := floatWord v 4 s fun f a _ _ => signF f (fun b => !b) a

/-! ### Reciprocals (R237) -/

/-- 1/√x, exact up to a sticky last bit. -/
def Val.rsqrt (a : Val) : Val × Flags :=
  match a with
  | .nan => (.nan, fNone)
  | .inf s => if s then (.nan, fInvalid) else (vZero, fNone)
  | .fin s m e =>
      if m = 0 then (.inf s, fDivZero)
      else if s then (.nan, fInvalid)
      else
        (let odd := e % 2 ≠ 0
         let x := if odd then 2 * m else m
         let h : Int := (if odd then e - 1 else e) / 2
         let r := Nat.sqrt (2 ^ 400 / x)
         (.fin false (if r * r * x = 2 ^ 400 then 2 * r else 2 * r + 1) (-h - 201), fNone))

/-- VRCP: 1/x, rounded once to the element format. -/
def execVrcp (v : VArgs) (s : State) : Host.Outcome State Fault Refusal :=
  floatWord v 8 s fun f a _ _ => f.done ((ofIntV 1).div (f.decode a))
/-- VRSQ: 1/√x, rounded once to the element format. -/
def execVrsq (v : VArgs) (s : State) : Host.Outcome State Fault Refusal := floatWord v 8 s fun f a _ _ => f.done (f.decode a).rsqrt

/-! ### The reference procedures (R238) -/

/-- RoundNE32 as a value, without flags. -/
def ne32 (v : Val) : Val := fmtF32.decode (fmtF32.round .rne 0 v).1

/-- An FP32 constant. -/
def f32v (c : Nat) : Val := fmtF32.decode c

/-- Exact sum and product without flags. -/
def vAdd (a b : Val) : Val := (a.add b).1
def vMul (a b : Val) : Val := (a.mul b).1

/-- One Horner step: RoundNE32(p·z + c). -/
def horner (z p c : Val) : Val := ne32 (vAdd (vMul p z) c)

/-- Table 06-6. -/
def tabT (i : Nat) : Val :=
  f32v ([0x3F800000, 0x3F8B95C2, 0x3F9837F0, 0x3FA5FED7, 0x3FB504F3, 0x3FC5672A, 0x3FD744FD, 0x3FEAC0C7].getD i 0x3F800000)

/-- Floor of a finite value. -/
def Val.floor (v : Val) : Int :=
  match v with
  | .fin s m e =>
      if 0 ≤ e then (if s then -((m * 2 ^ e.toNat : Nat) : Int) else (m * 2 ^ e.toNat : Nat))
      else
        (let k := 2 ^ (-e).toNat
         if s then -(((m + k - 1) / k : Nat) : Int) else (m / k : Nat))
  | .nan => 0
  | .inf _ => 0

/-- `Exp2Core` (R238). -/
def exp2Core (x : Val) : Nat × Int × Val :=
  let t := x.scale 3
  let n := t.floor
  let fr := (vAdd t (ofIntV (-n))).scale (-3)
  let i := (n % 8).toNat
  let e := (n - i) / 8
  let p := horner fr (horner fr (horner fr (f32v 0x3C1D955B) (f32v 0x3D635847)) (f32v 0x3E75FDF0)) (f32v 0x3F317218)
  (i, e, ne32 (vMul p fr))

/-- `Log2Ref` (R238) before its final rounding, for a finite x > 0. -/
def log2Sum (x : Val) : Val :=
  match x with
  | .fin _ m0 e0 =>
      let e1 : Int := e0 + (Nat.log2 m0 : Nat)
      let m1 : Val := .fin false m0 (e0 - e1)
      let big := !(m1.lt (f32v 0x3FB504F3))
      let m := if big then m1.scale (-1) else m1
      let e := if big then e1 + 1 else e1
      let s := ne32 (((vAdd m (ofIntV (-1))).div (ne32 (vAdd m (ofIntV 1)))).1)
      let z := ne32 (vMul s s)
      let p := horner z (horner z (horner z (f32v 0x3ED30BB1) (f32v 0x3F13BB63)) (f32v 0x3F76384F)) (f32v 0x4038AA3B)
      vAdd (ofIntV e) (ne32 (vMul s p))
  | .nan => .nan
  | .inf _ => .nan

/-- `Log2Ref`. -/
def log2Ref (x : Val) : Val := ne32 (log2Sum x)

/-- The overflow and underflow flags of a rounding to FP32, and the result. -/
def finish32 (v : Val) (inexact : Bool) : Val × Flags :=
  let (c, f) := fmtF32.round .rne 0 v
  (fmtF32.decode c, (f &&& (fOverflow ||| fUnderflow)) ||| (if inexact then fInexact else fNone))

/-- Whether a finite value is an integer. -/
def Val.isInt (v : Val) : Bool := v.same (ofIntV v.floor)

/-- VEXP2 in FP32 (R239, R242). DESIGN CHOICE (log entry 72): a subnormal result whose last step drops no bit is inexact without
underflow. -/
def exp2V (x : Val) : Val × Flags :=
  match x with
  | .nan => (.nan, fNone)
  | .inf s => if s then (vZero, fNone) else (.inf false, fNone)
  | .fin s m e =>
      if !((Val.fin s m e).lt (ofIntV 128)) then (.inf false, fOverflow ||| fInexact)
      else if (Val.fin s m e).lt (ofIntV (-150)) then (vZero, fUnderflow ||| fInexact)
      else
        (let (i, k, q) := exp2Core (.fin s m e)
         let y := ne32 (vAdd (tabT i) (vMul (tabT i) q))
         let n := (Val.fin s m e).floor
         let (r, f) := finish32 (y.scale k) (!((Val.fin s m e).isInt && -149 ≤ n && n ≤ 127))
         (r, f))

/-- VLOG2 in FP32 (R240, R242). -/
def log2V (x : Val) : Val × Flags :=
  match x with
  | .nan => (.nan, fNone)
  | .inf s => if s then (.nan, fInvalid) else (.inf false, fNone)
  | .fin s m e =>
      if m = 0 then (.inf true, fDivZero)
      else if s then (.nan, fInvalid)
      else finish32 (log2Sum (.fin s m e)) (m != 2 ^ Nat.log2 m)

/-- VTANH in FP32 (R241, R242). DESIGN CHOICE (log entry 72): a result below 2^-12 in size, subnormal ones included, is x itself and
inexact without underflow. -/
def tanhV (x : Val) : Val × Flags :=
  match x with
  | .nan => (.nan, fNone)
  | .inf s => (.fin s 1 0, fNone)
  | .fin s m e =>
      let a : Val := .fin false m e
      if !(a.lt (ofIntV 9)) then (.fin s 1 0, fInexact)
      else if a.lt (.fin false 1 (-12)) then (.fin s m e, if m = 0 then fNone else fInexact)
      else
        (let z := ne32 (vMul a (f32v 0x4038AA3B))
         let (i, k, q) := exp2Core z
         let em := ne32 (vAdd (vMul ((tabT i).scale k) (vAdd (ofIntV 1) q)) (ofIntV (-1)))
         let (y, f) := finish32 ((em.div (ne32 (vAdd em (ofIntV 2)))).1) true
         (if s then y.flip else y, f))

/-- A transcendental word: computed in FP32, then rounded to the element format (R242). -/
def transWord (v : VArgs) (s : State) (g : Val → Val × Flags) : Host.Outcome State Fault Refusal :=
  floatWord v 8 s fun f a _ _ => f.done (g (f.decode a))

/-- VEXP2 (R239). -/
def execVexp2 (v : VArgs) (s : State) : Host.Outcome State Fault Refusal := transWord v s exp2V
/-- VLOG2 (R240). -/
def execVlog2 (v : VArgs) (s : State) : Host.Outcome State Fault Refusal := transWord v s log2V
/-- VTANH (R241). -/
def execVtanh (v : VArgs) (s : State) : Host.Outcome State Fault Refusal := transWord v s tanhV

end Sys2Proof.Machine
end

