-- ==== Sys2Proof/Machine/VecInt.lean ====
section
/-! DEFINITION. Integer and logic words, compare and count, conversion, quantisation and packing (R243 to R251). -/

namespace Sys2Proof.Machine

/-! ### Integer and logic words (R243, R244) -/

/-- An element operation on integers of the word's type. -/
def intWord (v : VArgs) (s : State) (op : Nat → Nat → Nat → Nat) : Host.Outcome State Fault Refusal :=
  fixedWordOf .whole v 2 s fun r v _ => eltWise (typeBytes v.asel) (fun a b _ _ => (op (8 * typeBytes v.asel) a b, fNone)) r v

/-- The shift amount: b mod the width. -/
def shiftRight (arith : Bool) (n a b : Nat) : Nat := if arith then intCode n (toSigned n a / (2 ^ (b % n) : Nat)) else a / 2 ^ (b % n)

/-- Whether a is smaller than b under the type's signedness. -/
def ltType (t : BitVec 4) (a b : Nat) : Bool :=
  if typeSigned t then decide (toSigned (8 * typeBytes t) a < toSigned (8 * typeBytes t) b) else decide (a < b)

/-- VIADD. -/
def execViadd (v : VArgs) (s : State) : Host.Outcome State Fault Refusal := intWord v s fun n a b => (a + b) % 2 ^ n
/-- VISUB. -/
def execVisub (v : VArgs) (s : State) : Host.Outcome State Fault Refusal := intWord v s fun n a b => (a + 2 ^ n - b) % 2 ^ n
/-- VIMUL. -/
def execVimul (v : VArgs) (s : State) : Host.Outcome State Fault Refusal := intWord v s fun n a b => a * b % 2 ^ n
/-- VAND. -/
def execVand (v : VArgs) (s : State) : Host.Outcome State Fault Refusal := intWord v s fun _ a b => a &&& b
/-- VOR. -/
def execVor (v : VArgs) (s : State) : Host.Outcome State Fault Refusal := intWord v s fun _ a b => a ||| b
/-- VXOR. -/
def execVxor (v : VArgs) (s : State) : Host.Outcome State Fault Refusal := intWord v s fun _ a b => a ^^^ b
/-- VSHL. -/
def execVshl (v : VArgs) (s : State) : Host.Outcome State Fault Refusal := intWord v s fun n a b => a * 2 ^ (b % n) % 2 ^ n
/-- VSHR. -/
def execVshr (v : VArgs) (s : State) : Host.Outcome State Fault Refusal := intWord v s fun n a b => shiftRight false n a b
/-- VSRA. -/
def execVsra (v : VArgs) (s : State) : Host.Outcome State Fault Refusal := intWord v s fun n a b => shiftRight true n a b
/-- VIMIN. -/
def execVimin (v : VArgs) (s : State) : Host.Outcome State Fault Refusal := intWord v s fun _ a b => if ltType v.asel b a then b else a
/-- VIMAX. -/
def execVimax (v : VArgs) (s : State) : Host.Outcome State Fault Refusal := intWord v s fun _ a b => if ltType v.asel a b then b else a

/-- Clamp a code of `n` bits into the b-bit range of the signedness; whether it was clamped. -/
def clampCode (signed : Bool) (n b a : Nat) : Nat × Bool :=
  if signed then
    (let i := toSigned n a
     let h : Int := (2 ^ (b - 1) : Nat)
     let j := if i < -h then -h else if h - 1 < i then h - 1 else i
     (intCode n j, i != j))
  else (min a (2 ^ b - 1), decide (2 ^ b - 1 < a))

/-- VSAT: a clamp sets the saturation flag. DESIGN CHOICE (log entry 72): only that flag, as R244 says, not inexact beside it (R90). -/
def execVsat (v : VArgs) (s : State) : Host.Outcome State Fault Refusal :=
  fixedWordOf .whole v 2 s fun r w _ => eltWise (typeBytes v.asel) (fun a _ _ _ =>
    let (c, sat) := clampCode (typeSigned v.asel) (8 * typeBytes v.asel) v.vb.toNat a
    (c, if sat then fSaturation else fNone)) r w

/-! ### Compare and count (R245, R246) -/

/-- Whether a condition (0 EQ, 1 NE, 2 LT, 3 LE) holds. -/
def vCond (cond : Nat) (t : BitVec 4) (a b : Nat) : Bool :=
  let (lt, eq) :=
    if typeFloat t then
      (let x := (typeFmt t).decode a
       let y := (typeFmt t).decode b
       (x.lt y, x.same y))
    else (ltType t a b, a == b)
  match cond with
  | 0 => eq
  | 1 => !eq
  | 2 => lt
  | _ => lt || eq

/-- VCMP: sets the mask bits of the enabled elements. -/
def execVcmp (v : VArgs) (s : State) : Host.Outcome State Fault Refusal :=
  fixedWord v 2 s fun r w _ =>
    let n := typeBytes v.asel
    let on := enabled n (r.mask w.mask)
    let hit := fun e => on e && vCond (w.vd.extractLsb' 3 2).toNat v.asel (elt n (r.row w.va) e) (elt n (r.row w.vb) e)
    ([.m (w.vd.extractLsb' 0 3) (maskOf n on) (maskOf n hit)], fNone)

/-- VCNT: elements that both masks enable. -/
def execVcnt (v : VArgs) (s : State) : Host.Outcome State Fault Refusal :=
  fixedWord v 6 s fun r w _ =>
    let n := typeBytes v.asel
    let both := r.mask w.mask &&& r.mask (w.va.extractLsb' 0 3)
    ([laneWrite w.vd [((List.range (nElts n)).filter fun e => enabled n both e).length]], fNone)

/-! ### Conversions of a ratio (R247) -/

/-- Convert elements of `bs` bits to `bd` bits with part q: the element function gets the source code and the number
of the element among those produced. A disabled destination element takes no part. -/
def convRow (bs bd q : Nat) (m : BitVec 256) (d : BitVec 5) (src : BitVec 2048) (f : Nat → Nat → Nat × Flags) :
    List LandKind × Flags :=
  let n := 2048 / max bs bd
  let si (e : Nat) : Nat := if bs < bd then q * n + e else e
  let di (e : Nat) : Nat := if bd < bs then q * n + e else e
  let on (e : Nat) : Bool := m.getLsbD (bd * di e / 8)
  let rs := (List.range n).map fun e => if on e then f (fieldNat src (bs * si e) bs) e else (0, fNone)
  let lo := bd * di 0 / 8
  let keep (i : Nat) : Bool := decide (lo ≤ i) && decide (i < lo + n * bd / 8) && m.getLsbD (if 8 ≤ bd then i / (bd / 8) * (bd / 8) else i)
  ([.v d (maskOf 1 keep) (BitVec.ofNat 2048 (digits bd (rs.map fun p => p.1)) <<< (8 * lo))], joinFlags (rs.map fun p => p.2))

/-- Source and destination formats of VCVT (Table 06-10), by Table 01-8's codes. -/
def cvtFmts (asel : BitVec 4) : Nat × Nat :=
  match asel.toNat with
  | 0 => (0x08, 0x0A) | 1 => (0x08, 0x09) | 2 => (0x08, 0x0B) | 3 => (0x08, 0x0C)
  | 4 => (0x08, 0x02) | 5 => (0x08, 0x01) | 6 => (0x08, 0x00) | 7 => (0x08, 0x08)
  | 8 => (0x0A, 0x08) | 9 => (0x09, 0x08) | 10 => (0x0B, 0x08) | 11 => (0x0C, 0x08)
  | 12 => (0x02, 0x08) | 13 => (0x01, 0x08) | 14 => (0x00, 0x08) | _ => (0x0A, 0x0B)

/-- An FP32 code rounded to an integral value (conversion 7). -/
def toIntegral (mode : Mode) (w : Nat) (c : Nat) : Nat × Flags :=
  match fmtF32.decode c with
  | .nan => (fmtF32.nanCode, fNone)
  | .inf s => (fmtF32.signed s (fmtF32.maxCode + 1), fNone)
  | .fin s m e =>
      let (t, dropped) := roundAt mode w s m e 0
      ((fmtF32.round .rne 0 (.fin s t 0)).1, if dropped then fInexact else fNone)

/-- The 16 bits of the SR draw of a word's element number i (R88, R235). -/
def VRegs.sr (r : VRegs) (i : Nat) : Nat := fieldNat (r.draw i) 16 16

/-- VCVT (R248). -/
def execVcvt (v : VArgs) (s : State) : Host.Outcome State Fault Refusal :=
  fixedWord v 3 s fun r w j =>
    let (sf, df) := cvtFmts v.asel
    let mode := modeOf (v.vb.extractLsb' 2 3).toNat
    let n := 2048 / max (fmtBits sf) (fmtBits df)
    convRow (fmtBits sf) (fmtBits df) (v.vb.extractLsb' 0 2).toNat (r.mask w.mask) w.vd (r.row w.va) fun c e =>
      if v.asel = 7#4 then toIntegral mode (r.sr (j * n + e)) c
      else convertElem df mode (r.sr (j * n + e)) (elemVal sf c)

/-! ### Quantisation (R249, R250) -/

/-- The block format of a code of VQNT. -/
def qntFmt (asel : BitVec 4) : Nat :=
  match asel.toNat with
  | 0 => 0x00 | 1 => 0x0B | 2 => 0x0C | 3 => 0x0D | 4 => 0x0E | _ => 0x0F

/-- e_base: the signed low byte of k15. -/
def VRegs.ebase (r : VRegs) : Int := toSigned 8 (fieldNat (r.const 15#4) 0 8)

/-- VQNT: two blocks of 32. -/
def execVqnt (v : VArgs) (s : State) : Host.Outcome State Fault Refusal :=
  fixedWord v 3 s fun r w j =>
    let fmt := qntFmt v.asel
    let bits := fmtBits fmt
    let mode := modeOf (v.vb.extractLsb' 2 3).toNat
    let xs := (List.range 64).map fun e => fmtF32.decode (elt 4 (r.row w.va) e)
    let q0 := quantBlock false 0 fmt r.ebase mode (fun e => r.sr (64 * j + e)) (xs.take 32)
    let q1 := quantBlock false 0 fmt r.ebase mode (fun e => r.sr (64 * j + 32 + e)) (xs.drop 32)
    let data := BitVec.ofNat 2048 (digits bits (q0.codes ++ q1.codes)) ||| (BitVec.ofNat 2048 (q0.delta + 16 * q1.delta) <<< 2040)
    ([.v w.vd (maskOf 1 fun i => decide (i < 8 * bits) || i == 255) data], q0.flags ||| q1.flags)

/-- Slots of an I4X block that hold an escape without room for its element (R85). -/
def i4xNoRoom : Nat → Nat → List Nat → List Nat
  | _, _, [] => []
  | i, 0, c :: t => if c = 8 then (if 2 ≤ t.length then i4xNoRoom (i + 1) 2 t else i :: i4xNoRoom (i + 1) 0 t) else i4xNoRoom (i + 1) 0 t
  | i, k + 1, _ :: t => i4xNoRoom (i + 1) k t

/-- The values of one block, and the slots whose parsing sets the data format flag. -/
def dequantBlock (fmt : Nat) (ebase : Int) (delta : Nat) (codes : List Nat) : List Val × List Nat :=
  ((blockVals fmt ebase delta codes).1, if fmt = 0x0F && delta ≠ 15 then i4xNoRoom 0 0 codes else [])

/-- VDQNT: the inverse. -/
def execVdqnt (v : VArgs) (s : State) : Host.Outcome State Fault Refusal :=
  fixedWord v 3 s fun r w _ =>
    let fmt := qntFmt v.asel
    let bits := fmtBits fmt
    let row := r.row w.va
    let block (b : Nat) : List Val × List Nat :=
      dequantBlock fmt r.ebase (fieldNat row (2040 + 4 * b) 4) ((List.range 32).map fun e => fieldNat row (bits * (32 * b + e)) bits)
    let vals := (block 0).1 ++ (block 1).1
    let bad := (block 0).2 ++ (block 1).2.map fun i => i + 32
    eltWise 4 (fun _ _ _ e =>
      let (c, f) := fmtF32.round .rne 0 (vals.getD e vZero)
      (c, f ||| (if bad.contains e then fFormat else fNone))) r w

/-! ### Unpack and pack (R251, Table 06-11) -/

/-- Bits of the narrow and of the wide element of a pair, and its signedness. -/
def packPair (asel : BitVec 4) : Nat × Nat × Bool :=
  match asel.toNat with
  | 0 => (8, 32, true) | 1 => (8, 32, false) | 2 => (16, 32, true) | 3 => (16, 32, false)
  | 4 => (8, 16, true) | 5 => (8, 16, false) | 6 => (4, 8, true) | 7 => (1, 8, false)
  | 8 => (8, 32, true) | _ => (16, 32, true)

/-- VUNPK: sign- or zero-extends. -/
def execVunpk (v : VArgs) (s : State) : Host.Outcome State Fault Refusal :=
  fixedWord v 3 s fun r w _ =>
    let (bn, bw, sg) := packPair v.asel
    convRow bn bw (v.vb.extractLsb' 0 3).toNat (r.mask w.mask) w.vd (r.row w.va) fun c _ =>
      (if sg then intCode bw (toSigned bn c) else c, fNone)

/-- VPACK: saturates, tests for nonzero, or wraps. DESIGN CHOICE (log entry 72): a clamp sets only saturation, as R251 says, not inexact
beside it (R90). -/
def execVpack (v : VArgs) (s : State) : Host.Outcome State Fault Refusal :=
  fixedWord v 3 s fun r w _ =>
    let (bn, bw, sg) := packPair v.asel
    convRow bw bn (v.vb.extractLsb' 0 3).toNat (r.mask w.mask) w.vd (r.row w.va) fun c _ =>
      if v.asel = 7#4 then (if c = 0 then 0 else 1, fNone)
      else if 8 ≤ v.asel.toNat then (c % 2 ^ bn, fNone)
      else
        (let (x, sat) := clampCode sg bw bn c
         (x % 2 ^ bn, if sat then fSaturation else fNone))

end Sys2Proof.Machine
end

