-- ==== Sys2Proof/Machine/VecMisc.lean ====
section
/-! DEFINITION. Reductions, scans, partition lists, random numbers, lane movement (R256 to R267). -/

namespace Sys2Proof.Machine

/-! ### Exact sums (R256, R257) -/

/-- A running sum: a NaN seen, infinities seen (positive, negative), the exact sum of the finite terms. -/
structure SumAcc where
  nan : Bool
  pinf : Bool
  ninf : Bool
  sum : Option Val
deriving DecidableEq, Repr

/-- The empty sum. -/
def SumAcc.zero : SumAcc := { nan := false, pinf := false, ninf := false, sum := none }

/-- Add a term. -/
def SumAcc.term (a : SumAcc) (v : Val) : SumAcc :=
  match v with
  | .nan => { a with nan := true }
  | .inf s => if s then { a with ninf := true } else { a with pinf := true }
  | .fin s m e => { a with sum := some (match a.sum with
      | none => .fin s m e
      | some x => vAdd x (.fin s m e)) }

/-- The result: an FP32 code, with invalid for both infinities and the overflow and inexact of the one rounding. -/
def SumAcc.result (a : SumAcc) : Nat × Flags :=
  if a.nan then (fmtF32.nanCode, fNone)
  else if a.pinf && a.ninf then (fmtF32.nanCode, fInvalid)
  else if a.pinf then (fmtF32.maxCode + 1, fNone)
  else if a.ninf then (fmtF32.signed true (fmtF32.maxCode + 1), fNone)
  else
    (let (c, f) := fmtF32.round .rne 0 (a.sum.getD vZero)
     (c, f &&& (fOverflow ||| fInexact)))

/-- The codes of the enabled elements of va in order. -/
def sources (r : VRegs) (w : VArgs) : List Nat :=
  let n := typeBytes w.asel
  ((List.range (nElts n)).filter fun e => enabled n (r.mask w.mask) e).map fun e => elt n (r.row w.va) e

/-- VRSUM. -/
def execVrsum (v : VArgs) (s : State) : Host.Outcome State Fault Refusal :=
  fixedWord v 6 s fun r w _ =>
    let xs := sources r w
    let (c, f) :=
      if typeFloat w.asel then (xs.foldl (fun a x => a.term ((typeFmt w.asel).decode x)) SumAcc.zero).result
      else (xs.foldl (· + ·) 0 % 2 ^ 32, fNone)
    ([laneWrite w.vd [c]], f)

/-- The extreme of the sources: the largest or the smallest, as 32 bits (R256). -/
def extreme (largest : Bool) (t : BitVec 4) (xs : List Nat) : Nat :=
  if typeFloat t then
    (let f := typeFmt t
     if xs.any fun x => (f.decode x).isNan then fmtF32.nanCode
     else
       match xs with
       | [] => fmtF32.signed largest (fmtF32.maxCode + 1)
       | x :: rest =>
           (fmtF32.round .rne 0 (f.decode (rest.foldl (fun b c =>
             if (if largest then decide (orderKey f b < orderKey f c) else decide (orderKey f c < orderKey f b)) then c else b) x))).1)
  else
    match xs with
    | [] =>
        if typeSigned t then (if largest then 0x80000000 else 0x7FFFFFFF)
        else (if largest then 0 else 0xFFFFFFFF)
    | x :: rest => rest.foldl (fun b c => if (if largest then ltType t b c else ltType t c b) then c else b) x

/-- VRMAX. -/
def execVrmax (v : VArgs) (s : State) : Host.Outcome State Fault Refusal :=
  fixedWord v 6 s fun r w _ => ([laneWrite w.vd [extreme true w.asel (sources r w)]], fNone)
/-- VRMIN. -/
def execVrmin (v : VArgs) (s : State) : Host.Outcome State Fault Refusal :=
  fixedWord v 6 s fun r w _ => ([laneWrite w.vd [extreme false w.asel (sources r w)]], fNone)

/-- Prefix sums over lanes `e` on: results by lane and the joined flags; `heads` restart the sum (R257). -/
def scanLanes (float : Bool) (on : Nat → Bool) (head : Nat → Bool) (src : Nat → Nat) : Nat → Nat → SumAcc → Nat → List Nat × Flags
  | 0, _, _, _ => ([], fNone)
  | n + 1, e, acc, i =>
      let acc0 := if head e then SumAcc.zero else acc
      let i0 := if head e then 0 else i
      if on e then
        (let acc1 := if float then acc0.term (fmtF32.decode (src e)) else acc0
         let i1 := (i0 + src e) % 2 ^ 32
         let (c, f) := if float then acc1.result else (i1, fNone)
         let (cs, g) := scanLanes float on head src n (e + 1) acc1 i1
         (c :: cs, f ||| g))
      else
        (let (cs, g) := scanLanes float on head src n (e + 1) acc0 i0
         (0 :: cs, g))

/-- VSCAN and VSEGS with the heads of a test. -/
def scanWord (r : VRegs) (w : VArgs) (head : Nat → Bool) : List LandKind × Flags :=
  let on := enabled 4 (r.mask w.mask)
  let (cs, f) := scanLanes (w.asel == 0#4) on head (fun e => elt 4 (r.row w.va) e) 64 0 SumAcc.zero 0
  ([vWrite w.vd 4 on cs], f)

/-- VSCAN. -/
def execVscan (v : VArgs) (s : State) : Host.Outcome State Fault Refusal :=
  fixedWord v 8 s fun r w _ => scanWord r w fun _ => false
/-- VSEGS: a head is an element of vb with a nonzero pattern, enabled or not. -/
def execVsegs (v : VArgs) (s : State) : Host.Outcome State Fault Refusal :=
  fixedWord v 8 s fun r w _ => scanWord r w fun e => elt 4 (r.row w.vb) e != 0

/-! ### Partition lists (R258) -/

/-- The lanes of outcome o among the enabled ones. -/
def partLanes (r : VRegs) (w : VArgs) (o : Nat) : List Nat :=
  (List.range 64).filter fun l => enabled 4 (r.mask w.mask) l && elt 4 (r.row w.va) l == o

/-- VPART: elastic; the lists, then the counts. -/
def execVpart (v : VArgs) (s : State) : Host.Outcome State Fault Refusal :=
  elasticWord v s fun k w _ => do
    let c ← coreNow k
    let r := c.vregs
    let lists := (List.range 4).map (partLanes r w)
    onCore k fun c => { c with vregs := (c.vregs.land (laneWrite w.vd lists.flatten)).land (laneWrite w.vb (lists.map List.length)) }
    pure (if (List.range 64).any fun l => enabled 4 (r.mask w.mask) l && decide (4 ≤ elt 4 (r.row w.va) l) then fFormat else fNone)

/-! ### Random numbers and sampling (R259 to R262) -/

/-- VRNG. -/
def execVrng (v : VArgs) (s : State) : Host.Outcome State Fault Refusal :=
  fixedWord v 6 s fun r w j =>
    eltWise 4 (fun _ _ _ e =>
      let u := (r.draw (64 * j + e)).toNat
      (if v.asel = 8#4 then u else (fmtF32.round .rne 0 (.fin false (u / 256) (-24))).1, fNone)) r w

/-- VDROP (R110). -/
def execVdrop (v : VArgs) (s : State) : Host.Outcome State Fault Refusal :=
  fixedWord v 6 s fun r w j =>
    eltWise 2 (fun a _ _ e => dropout (r.const v.asel).toNat (r.draw (128 * j + e)) a) r w

/-- The Gumbel noise of a draw (R261). -/
def gumbel (u : BitVec 32) : Val :=
  let ln2 := f32v 0x3F317218
  let w := ne32 (vMul (log2Ref (.fin false (2 * (u.toNat / 512) + 1) (-24))).flip ln2)
  ne32 (vMul (log2Ref w).flip ln2)

/-- VGMB. -/
def execVgmb (v : VArgs) (s : State) : Host.Outcome State Fault Refusal :=
  fixedWord v 8 s fun r w j =>
    eltWise 4 (fun a _ _ e => fmtF32.done ((fmtF32.decode a).add (gumbel (r.draw (64 * j + e))))) r w

/-- The first of the largest non-NaN elements: index and code. -/
def argMax (f : FFmt) (xs : List (Nat × Nat)) : Option (Nat × Nat) :=
  xs.foldl (fun b p =>
    if (f.decode p.2).isNan then b
    else match b with
      | none => some p
      | some q => if orderKey f q.2 < orderKey f p.2 then some p else some q) none

/-- VARGMX. -/
def execVargmx (v : VArgs) (s : State) : Host.Outcome State Fault Refusal :=
  fixedWord v 6 s fun r w _ =>
    let n := typeBytes w.asel
    let f := typeFmt w.asel
    let xs := ((List.range (nElts n)).filter fun e => enabled n (r.mask w.mask) e).map fun e => (e, elt n (r.row w.va) e)
    ([laneWrite w.vd (match argMax f xs with
      | none => [0xFFFFFFFF, fmtF32.nanCode]
      | some (i, c) => [i, (fmtF32.round .rne 0 (f.decode c)).1])], fNone)

/-! ### Lane movement (R263 to R267) -/

/-- VMOV c, k. -/
def execVmovCK (v : VArgs) (s : State) : Host.Outcome State Fault Refusal :=
  fixedWord v 2 s fun r w _ => ([.c (w.asel.extractLsb' 0 2) (r.const (w.va.extractLsb' 0 4))], fNone)
/-- VMOV between v registers, masked at the width. -/
def execVmovV (v : VArgs) (s : State) : Host.Outcome State Fault Refusal :=
  fixedWord v 2 s fun r w _ => eltWise (typeBytes w.asel) (fun a _ _ _ => (a, fNone)) r w
/-- VMOV a, k, k. -/
def execVmovAK (v : VArgs) (s : State) : Host.Outcome State Fault Refusal :=
  fixedWord v 2 s fun r w _ =>
    ([.a (w.vd.extractLsb' 0 4) (r.const (w.vb.extractLsb' 0 4) ++ r.const (w.va.extractLsb' 0 4))], fNone)
/-- VMOV.ADD a, k. -/
def execVmovAdd (v : VArgs) (s : State) : Host.Outcome State Fault Refusal :=
  fixedWord v 2 s fun r w _ =>
    ([.a (w.vd.extractLsb' 0 4) (tagAdd (r.addr (w.vd.extractLsb' 0 4)) ((r.const (w.va.extractLsb' 0 4)).signExtend 64))], fNone)
/-- VMOV k, v. -/
def execVmovKV (v : VArgs) (s : State) : Host.Outcome State Fault Refusal :=
  fixedWord v 2 s fun r w _ => ([.k (w.vd.extractLsb' 0 4) (BitVec.ofNat 32 (elt 4 (r.row w.va) 0))], fNone)

/-- VSEL: every element is written. -/
def execVsel (v : VArgs) (s : State) : Host.Outcome State Fault Refusal :=
  fixedWord v 2 s fun r w _ =>
    let n := typeBytes w.asel
    ([vWrite w.vd n (fun _ => true) ((List.range (nElts n)).map fun e =>
      if enabled n (r.mask w.mask) e then elt n (r.row w.va) e else elt n (r.row w.vb) e)], fNone)

/-- VPERM. -/
def execVperm (v : VArgs) (s : State) : Host.Outcome State Fault Refusal :=
  fixedWord v 2 s fun r w _ =>
    let n := typeBytes w.asel
    eltWise n (fun _ b _ _ => (elt n (r.row w.va) (b % nElts n), fNone)) r w

/-- The source of destination element e of a VSHUF pattern over n elements: from va, or from vb; and which element. -/
def shufSource (pat n e : Nat) : Bool × Nat :=
  let h := n / 2
  match pat with
  | 0 => (e % 2 == 0, e / 2)
  | 1 => (e % 2 == 0, h + e / 2)
  | 2 => (decide (e < h), 2 * (e % h))
  | _ => (decide (e < h), 2 * (e % h) + 1)

/-- VSHUF. -/
def execVshuf (v : VArgs) (s : State) : Host.Outcome State Fault Refusal :=
  fixedWord v 2 s fun r w _ =>
    let n := 4 / 2 ^ (w.asel.toNat / 4)
    eltWise n (fun _ _ _ e =>
      let (fa, i) := shufSource (w.asel.toNat % 4) (nElts n) e
      (elt n (r.row (if fa then w.va else w.vb)) i, fNone)) r w

/-- VBCST. -/
def execVbcst (v : VArgs) (s : State) : Host.Outcome State Fault Refusal :=
  fixedWord v 2 s fun r w _ => eltWise 4 (fun _ _ _ _ => ((r.const w.asel).toNat, fNone)) r w
/-- VIOTA. -/
def execViota (v : VArgs) (s : State) : Host.Outcome State Fault Refusal :=
  fixedWordOf .whole v 2 s fun r w j => eltWise 4 (fun _ _ _ e => (((r.const w.asel).toNat + 64 * j + e) % 2 ^ 32, fNone)) r w

end Sys2Proof.Machine
end

