-- ==== Sys2Proof/Machine/VecMem.lean ====
section
/-! DEFINITION. Vector memory words (R231, R252 to R255): which bytes a repetition touches, their checks, loads with
their landings, stores as ordered writes of the VRUN command, and the choice between fixed and elastic timing (R227). -/

namespace Sys2Proof.Machine

/-! ### What a repetition touches -/

/-- One repetition: base pointer and its alignment, element width, and per enabled element its number and pointer, in
order of element. -/
structure VecPlan where
  base : Word
  align : Nat
  w : Nat
  els : List (Nat × Word)
deriving DecidableEq, Repr

/-- Advance of a step code (Table 02-9). -/
def stepBytes (c : BitVec 3) : Word :=
  match c.toNat with
  | 0 => 0#64 | 1 => 256#64 | 2 => -256#64 | 3 => 512#64 | 4 => 2048#64 | 5 => 64#64 | 6 => 32#64 | _ => 16#64

/-- Width of a width code (R233). -/
def widthOf (vb : BitVec 5) : Nat := 4 / 2 ^ (vb.extractLsb' 0 2).toNat

/-- Enabled elements of width `w` of a register. -/
def enabledOf (r : VRegs) (v : VArgs) (w : Nat) : List Nat := (List.range (nElts w)).filter fun e => enabled w (r.mask v.mask) e

/-- VLD and VST: the 256 bytes at the address (R252). -/
def planRow (r : VRegs) (v : VArgs) : VecPlan :=
  let p := r.addr v.asel
  { base := p, align := 16, w := 1, els := (enabledOf r v 1).map fun e => (e, ptrPlus p e) }

/-- VLDT: element col·16 + row at a + 256·row + w·col (R253). -/
def planT (r : VRegs) (v : VArgs) : VecPlan :=
  let p := r.addr v.asel
  let w := widthOf v.vb
  { base := p, align := 16, w := w, els := (enabledOf r v w).map fun e => (e, ptrPlus p (256 * (e % 16) + w * (e / 16))) }

/-- VLDB: one element for all (R254). -/
def planB (r : VRegs) (v : VArgs) : VecPlan :=
  let p := r.addr v.asel
  let w := widthOf v.vb
  { base := p, align := w, w := w, els := ((enabledOf r v w).take 1).map fun e => (e, p) }

/-- VGTH and VSCT: a lane at a + 4·index (R255). -/
def planG (r : VRegs) (v : VArgs) : VecPlan :=
  let p := r.addr v.asel
  { base := p, align := 4, w := 4, els := (enabledOf r v 4).map fun l => (l, ptrPlus p (4 * elt 4 (r.row v.va) l)) }

/-- Whether a pointer names the core's own unit scratchpad (R231). -/
def ownPtr (p : Word) (rank : Nat) : Bool := (ptrSpace p == 7 && ptrOwner p == 0) || (ptrSpace p == 1 && ptrOwner p == rank)

/-- A repetition is elastic: an enabled byte lies outside the own unit scratchpad. -/
def VecPlan.outside (q : VecPlan) (rank : Nat) : Bool := !q.els.isEmpty && !ownPtr q.base rank

/-! ### Checks -/

/-- Steps 1 to 4 of R124 for one element, or a run of them, at `p`; alignment is that of the base. -/
def vecPlace (a : Acc) (l : Launch) (cp : Copy) (c : Core) (q : VecPlan) (p : Word) (n : Nat) (k : Kind) : Except Trap Loc :=
  let t (code : Nat) : Trap := { a.who.trap code 0 k 0 0 with addr := p }
  match locOf l cp c p n with
  | none => .error (t 0x04)
  | some (.sys _) => .error (t 0x02)
  | some x =>
      if ptrOff q.base % q.align ≠ 0 || (ptrSpace q.base = 5 && ptrOff q.base % 6 ≠ 0) then .error (t 0x03)
      else if spaceRule .vector k c x n ≠ 0 then .error (t (spaceRule .vector k c x n))
      else .ok x

/-- Put a write among others by the place it begins at. -/
def insertWrite (w : PendWrite) : List PendWrite → List PendWrite
  | [] => [w]
  | v :: t => if w.loc.offset < v.loc.offset then w :: v :: t else v :: insertWrite w t

/-- The writes of one access in rising order, with what lies beside each (R421). -/
def besideAll (ws : List PendWrite) : List PendWrite :=
  let vs := ws.foldr insertWrite []
  let o := vs.map fun w => (w.loc.offset, w.data, w.half)
  ((vs.zip ((runBelow 0 0 o).zip (runAbove o))).map fun x => { x.1 with below := x.2.1, above := x.2.2 })

/-- Step 6 of R124 for one element of `w` bytes: of a store, whose writes are `ws`, only for a word that these cover in part (R421). -/
def vecData (s : State) (a : Acc) (cp : Copy) (c : Core) (x : Loc) (w : Nat) (k : Kind) (ws : List PendWrite) : Option Trap :=
  match badTrap s a cp c x w k none with
  | none => none
  | some t =>
      if k = .read then some t
      else match ws.find? fun v => v.loc.meets v.data.length x w with
        | some v => badTrap s a cp c v.loc v.data.length k (some (v.below, v.above))
        | none => none

/-- The checks of every element, in order of element (R231); the place of each. -/
def vecPlaces (s : State) (a : Acc) (l : Launch) (cp : Copy) (c : Core) (q : VecPlan) (k : Kind) (ws : List PendWrite) :
    List (Nat × Word) → Except Trap (List (Nat × Loc))
  | [] => .ok []
  | (e, p) :: t =>
      match vecPlace a l cp c q p q.w k with
      | .error x => .error x
      | .ok x =>
          match vecData s a cp c x q.w k ws with
          | some y => .error y
          | none => match vecPlaces s a l cp c q k ws t with
              | .error y => .error y
              | .ok r => .ok ((e, x) :: r)

/-- Places that follow one another in a scratchpad, joined: first place, elements. -/
def runsOf (w : Nat) : List (Nat × Loc) → List (Loc × List Nat)
  | [] => []
  | (e, x) :: t =>
      match runsOf w t with
      | (y, es) :: rest => if x.plus w = y then (x, e :: es) :: rest else (x, [e]) :: (y, es) :: rest
      | [] => [(x, [e])]

/-! ### Loads and stores -/

/-- The accessor of the stream's command. -/
def vecAcc (k : CoreRef) (cmd : Nat) : Acc :=
  { k := k, who := { agent := .core k, src := 3, tlb := 2 }, unit := .vector, owner := cmd + 1 }

/-- Read runs of elements: number and code of each. What the stream has stored there before is performed first (R231), and each byte
that another command is writing is as it was or as it will be (R176, R305). -/
def readRow (a : Acc) (w : Nat) : List (Loc × List Nat) → Act (List (Nat × Nat))
  | [] => pure []
  | (x, es) :: t => do
      let (_, _, c) ← ctxOf a.k
      let m ← need (a.cmd? c)
      let n := w * es.length
      let ok ← chainSeen a.k m x n
      holdIf (!ok)
      ownFirst a m x n
      let bs ← readRuns a true x n
      let (_, _, c) ← ctxOf a.k
      let m ← need (a.cmd? c)
      let bs ← (if m.early.isEmpty then pure bs else chooseEarly x m.early 0 bs : Act (List Byte))
      let r ← readRow a w t
      pure ((es.zipIdx.map fun p => (p.1, leNat ((bs.drop (w * p.2)).take w))) ++ r)

/-- The codes of the planned elements, after their checks. -/
def vecRead (k : CoreRef) (id : Nat) (q : VecPlan) (byRow : Bool) : Act (List (Nat × Nat)) := do
  let s ← get
  let (l, cp, c) ← ctxOf k
  let xs ← orRaise (vecPlaces s (vecAcc k id) l cp c q .read [] q.els)
  let inRows := if byRow then (List.range 16).flatMap fun i => xs.filter fun x => x.1 % 16 == i else xs
  readRow (vecAcc k id) q.w (runsOf q.w inRows)

/-- Bytes as writes: whole 4-byte lanes, single bytes of lanes enabled only in part. -/
def laneWrites (src : BitVec 2048) (xs : List (Nat × Loc)) : List PendWrite :=
  let one (e : Nat) (x : Loc) (n : Nat) : PendWrite :=
    { loc := x, data := (List.range n).map (fun i => BitVec.ofNat 8 (elt 1 src (e + i))), half := none, bytewise := false, slotOf := none }
  (List.range 64).flatMap fun l =>
    let own := xs.filter fun x => x.1 / 4 == l
    match own with
    | x :: _ => if own.length = 4 then [one x.1 x.2 4] else own.map fun y => one y.1 y.2 1
    | [] => []

/-- Writes of a scatter: the highest lane of those that name one place (R255). -/
def scatterWrites (src : BitVec 2048) (xs : List (Nat × Loc)) : List PendWrite :=
  (xs.filter fun x => !xs.any fun y => decide (x.1 < y.1) && y.2 == x.2).map fun x =>
    { loc := x.2, data := natLe 4 (elt 4 src x.1), half := none, bytewise := false, slotOf := none }

/-- The place of a word's store in the order of its stream (R309): the words in turn, and in one word a repetition after those it
overlaps. `t`: the cycle of the word, `j` the repetition. -/
def storeSeq (m : Cmd) (ws : List PendWrite) (t j : Nat) : Nat :=
  if ws.any fun w => m.writes.any fun v => v.loc.meets v.data.length w.loc w.data.length then t + j + 1 else t + 1

/-- The planned elements are stored: the writes join those of the stream's command. -/
def vecStore (k : CoreRef) (id t j : Nat) (q : VecPlan) (ws : List (Nat × Loc) → List PendWrite) : Act Unit := do
  let s ← get
  let (l, cp, c) ← ctxOf k
  let m ← need (c.cmd? id)
  let all := besideAll (ws (q.els.filterMap fun e => (locOf l cp c e.2 q.w).map fun x => (e.1, x)))
  let _ ← orRaise (vecPlaces s (vecAcc k id) l cp c q .write all q.els)
  let n := storeSeq m all t j
  onCore k fun c => c.modCmd id fun m => { m with writes := m.writes ++ all.map fun w => { w with seq := n } }

/-! ### The shape of a memory word -/

/-- Issue repetitions from j on of a memory word that started at cycle t: until one is elastic each waits for its
cycle, and its results and its address step land later; from then on everything takes effect at once (R225, R227). -/
def memReps (k : CoreRef) (v : VArgs) (lat t : Nat) (plan : VRegs → VArgs → VecPlan)
    (run : Nat → VRegs → VArgs → VecPlan → Act (List LandKind)) : Bool → List Nat → Act Bool
  | el, [] => pure el
  | el, j :: rest => do
      if !el then landTo k (t + j)
      let c ← coreNow k
      let w := atRepV v j
      let el1 := el || (plan c.vregs w).outside k.rank
      if el1 && !el then landAll k
      let c ← coreNow k
      let r := c.vregs
      let ls ← run j r w (plan r w)
      let step : LandKind := .a v.asel (tagAdd (r.addr v.asel) (stepBytes v.step))
      let steps := if v.step = 0#3 then [] else [step]
      if el1 then
        applyLandings k ((ls ++ steps).map fun x => { cycle := t + j, what := x, unit := .none })
      else
        pushLandings k ((ls.map fun x => { cycle := t + j + lat, what := x }) ++
          steps.map fun x => { cycle := t + j + 1, what := x, unit := .whole, spc := ((c.eng.stream.map fun st => st.spc).getD 0#14) })
      memReps k v lat t plan run el1 rest

/-- A memory word. `elastic`: it is elastic in every case (VGTH, VSCT). -/
def memWord (v : VArgs) (lat : Nat) (elastic : Bool) (s : State) (plan : VRegs → VArgs → VecPlan)
    (run : CoreRef → Nat → Nat → Nat → VRegs → VArgs → VecPlan → Act (List LandKind)) : Host.Outcome State Fault Refusal :=
  vecWord s fun k => do
    let (_, _, _, st) ← vecNow k
    let t := st.cycle
    let lastBefore := lastLanding st.landings
    if elastic then landAll k
    let el ← memReps k v lat t plan (run k st.cmd t) elastic (List.range (repsV v))
    if el then endElastic k v t (max lastBefore (t + repsV v - 1)) fNone
    else endWord k (t + repsV v + v.idle.toNat) t fNone

/-- The write of loaded elements of width `w`. -/
def loadLanding (d : BitVec 5) (w : Nat) (xs : List (Nat × Nat)) : LandKind :=
  let got (e : Nat) : Option Nat := (xs.find? fun x => x.1 == e).map fun x => x.2
  vWrite d w (fun e => (got e).isSome) ((List.range (nElts w)).map fun e => (got e).getD 0)

/-! ### The words -/

/-- VLD (R252). -/
def execVld (v : VArgs) (s : State) : Host.Outcome State Fault Refusal :=
  memWord v 12 false s planRow fun k id _ _ _ w q => do
    let xs ← vecRead k id q false
    pure [loadLanding w.vd 1 xs]

/-- VST (R252): the source is read at issue. -/
def execVst (v : VArgs) (s : State) : Host.Outcome State Fault Refusal :=
  memWord v 12 false s planRow fun k id t j r w q => do
    vecStore k id t j q (laneWrites (r.row w.vd))
    pure []

/-- VLDT (R253). -/
def execVldt (v : VArgs) (s : State) : Host.Outcome State Fault Refusal :=
  memWord v 16 false s planT fun k id _ _ _ w q => do
    let xs ← vecRead k id q true
    pure [loadLanding w.vd q.w xs]

/-- VLDB (R254). -/
def execVldb (v : VArgs) (s : State) : Host.Outcome State Fault Refusal :=
  memWord v 12 false s planB fun k id _ _ r w q => do
    let xs ← vecRead k id q false
    let c := (xs.headD (0, 0)).2
    pure (if xs.isEmpty then [] else [loadLanding w.vd q.w ((enabledOf r w q.w).map fun e => (e, c))])

/-- VGTH (R255). -/
def execVgth (v : VArgs) (s : State) : Host.Outcome State Fault Refusal :=
  memWord v 0 true s planG fun k id _ _ _ w q => do
    let xs ← vecRead k id q false
    pure [loadLanding w.vd 4 xs]

/-- VSCT (R255). -/
def execVsct (v : VArgs) (s : State) : Host.Outcome State Fault Refusal :=
  memWord v 0 true s planG fun k id t j r w q => do
    vecStore k id t j q (scatterWrites (r.row w.vd))
    pure []

end Sys2Proof.Machine
end

