-- ==== Sys2Proof/Machine/VecStream.lean ====
section
/-! DEFINITION. Stream control (R268 to R270), unassigned vector words (R63), the landing of results and the completion of
elastic words (R225 to R227, R230). -/

namespace Sys2Proof.Machine

/-- VSETK (R268). -/
def execVsetk (kd : BitVec 4) (imm : BitVec 32) (idle : BitVec 4) (s : State) : Host.Outcome State Fault Refusal :=
  vecWord s fun k => do
    let (_, _, _, st) ← vecNow k
    landTo k st.cycle
    pushLandings k [{ cycle := st.cycle + 2, what := .k kd imm }]
    endWord k (st.cycle + 1 + idle.toNat) st.cycle fNone

/-- VLP (R269): the counter is read at issue. -/
def execVlp (cn : BitVec 2) (target : BitVec 14) (idle : BitVec 5) (s : State) : Host.Outcome State Fault Refusal :=
  vecWord s fun k => do
    let (_, _, _, st) ← vecNow k
    landTo k st.cycle
    let c ← coreNow k
    let n := c.vregs.ctr cn
    endWord k (st.cycle + 1 + idle.toNat) st.cycle fNone
    if n ≠ 0#32 then do
      pushLandings k [{ cycle := st.cycle + 1, what := .c cn (n - 1#32) }]
      onStream k fun x => { x with spc := target }

/-- VEND (R270): fetching stops. -/
def execVend (s : State) : Host.Outcome State Fault Refusal :=
  vecWord s fun k => onStream k fun st => { st with ended := true }

/-- A word that R63 refuses: Illegal Encoding at its fetch. -/
def execUnassignedVectorWord (_w : BitVec 48) (s : State) : Host.Outcome State Fault Refusal :=
  vecWord s fun _ => raise (vecTrap 0x01)

/-- Run an action on the stream of a core in a launch whose engines run; a fault stops the stream. -/
def streamStep (k : CoreRef) (act : Stream → Act Unit) (s : State) : State :=
  match s.launch? k.lid, (s.core? k).bind fun c => c.eng.stream with
  | some l, some st =>
      if !engineLive l || st.err.isSome then s
      else
        (match act st s with
         | .ok (_, s') => s'
         | .error (.trap t, s') => s'.streamErr k t
         | .error (.hold, s') => s.keepSeen k s')
  | _, _ => s

/-- The earliest pending landing cycle. -/
def firstLanding : List Landing → Option Nat
  | [] => none
  | x :: t => some (t.foldl (fun n y => min n y.cycle) x.cycle)

/-- VECTOR_RESULT_LANDING (R225, R226): the results of the earliest cycle that the stream has reached land. -/
def execVectorResultLanding (k : CoreRef) (s : State) : Host.Outcome State Fault Refusal :=
  .next (streamStep k (fun st =>
    match firstLanding st.landings with
    | none => pure ()
    | some t => if st.elastic.isNone && (st.ended || t ≤ st.cycle) then landTo k t else pure ()) s)

/-- ELASTIC_WORD_COMPLETION (R227): the word completes in cycle `tc`, at the earliest the one it may; its flags are set
and the next word issues after its idle cycles. -/
def execElasticWordCompletion (k : CoreRef) (tc : Nat) (s : State) : Host.Outcome State Fault Refusal :=
  .next (streamStep k (fun st =>
    match st.elastic with
    | none => pure ()
    | some (least, idle) =>
        if tc < least then pure ()
        else do
          onStream k fun x => { x with elastic := none, cycle := tc + 1 + idle }
          landTo k tc) s)

end Sys2Proof.Machine
end

