-- ==== Sys2Proof/Machine/Place.lean ====
section
/-! DEFINITION. Placement (R284 to R287, R380, R411): what is free, which choices are permitted, and the building of a
launch copy at launch start, at resume and for a third execution. -/

namespace Sys2Proof.Machine

/-! ### Geometry of a placement -/

/-- Number of cores, cluster ranks and chiplet ranks a packet needs. -/
def Packet.cores (p : Packet) : Nat := p.h * p.w
def Packet.clus (p : Packet) : Nat := nClus p.h p.w
def Packet.chips (p : Packet) : Nat := nChip p.h p.w

/-- The coreRanks of a rectangle in rising order. -/
def Packet.rankList (p : Packet) : List Nat := (List.range (4 * p.clus)).filter (isRank p.h p.w)

/-- The C-die of a physical cluster. -/
def clusterDie (c : Nat) : Nat := dieOf (c / 12 * 2 * 24 + c % 12 * 2)
/-- Voltage domain of a C-die. -/
def domainOf (d : Nat) : Nat := d / 3

/-- Bytes of a cluster scratchpad and of a die scratchpad (R40). -/
def clusBytes : Nat := 0x800000
def dieBytes : Nat := 0x8000000

/-- A placement: the physical core of each coreRank in rising order, the physical cluster of each cluster rank, the C-die
of each chiplet rank. -/
structure Place where
  cores : List Nat
  clus : List Nat
  dies : List Nat
deriving DecidableEq, Repr

/-- The copies that a placement event names, as one list: the cores of the primary, its clusters and C-dies, and in class D the
shadow's clusters and C-dies. The shadow's cores are the primary's mirrors (R285). -/
def placeOf' (p : Packet) (xs : List Nat) : List Place :=
  let a : Place := { cores := xs.take p.cores, clus := (xs.drop p.cores).take p.clus, dies := (xs.drop (p.cores + p.clus)).take p.chips }
  let rest := xs.drop (p.cores + p.clus + p.chips)
  if p.prot = 2 then [a, { cores := a.cores.map mirror8, clus := rest.take p.clus, dies := (rest.drop p.clus).take p.chips }] else [a]

/-! ### What is in use -/

/-- Whether a launch holds cores and grants: until its completion sequence frees them. -/
def LState.occupies (x : LState) : Bool := x != .parked

/-- The launches that hold resources, without some of them. -/
def State.holders (s : State) (but : List Nat) : List Launch := s.launches.filter fun l => l.state.occupies && !but.contains l.lid

/-- Whether a physical core is held. -/
def coreHeld (ls : List Launch) (phys : Nat) : Bool := ls.any fun l => l.copies.any fun c => c.cores.any fun k => k.phys == phys

/-- Bytes granted on a physical cluster, or on a C-die. -/
def grantedOn (ls : List Launch) (clus : Bool) (phys : Nat) : Nat :=
  (ls.flatMap fun l => l.copies.flatMap fun c => (c.pads.filter fun p => p.phys == phys && (match p.id with
    | .cls _ => clus
    | .dsp _ => !clus
    | .usp _ => false)).map fun p => p.limit).foldl (· + ·) 0

/-- Whether a C-die serves a partition (R390, R406). -/
def State.dieServes (s : State) (part d : Nat) : Bool :=
  (s.ptDies part).testBit d && s.dieReady d && !s.rel.dieRetired d

/-- Whether placement may use a physical core, a physical cluster, a C-die of a partition, whoever holds it: its bad banks have
spares (R380), and a die scratchpad is granted to the partition (R389). -/
def State.coreOk (s : State) (part phys : Nat) : Bool := decide (phys < 384) && s.dieServes part (dieOf phys) && s.rel.coreUsable phys
def State.clusOk (s : State) (part c : Nat) : Bool :=
  decide (c < 96) && s.dieServes part (clusterDie c) &&
    s.rel.units.all fun x => !((unitKind x.id == 7 || unitKind x.id == 8) && (unitKind x.id - 7) * 64 + unitIdx x.id / 64 == c &&
      (x.fenced || x.held) && spareCount x.id ≤ s.rel.sparesUsed x.id)
def State.dieOk (s : State) (part : Nat) (p : Packet) (d : Nat) : Bool :=
  decide (d < 12) && s.dieServes part d &&
    (p.dsp == 0 || (s.right 0x01240000 d (32 + part) .read && s.right 0x01240000 d (32 + part) .write)) &&
    s.rel.units.all fun x => !(unitKind x.id == 9 && unitIdx x.id / 256 == d && (x.fenced || x.held) && spareCount x.id ≤ s.rel.sparesUsed x.id)

/-! ### Permitted placements (R284, R285) -/

/-- How many grants of `g` bytes fit into what is left of `cap`; a grant of nothing always fits. -/
def fits (cap used g : Nat) : Nat := if g = 0 then 100000 else (cap - used) / g

/-- Whether choices of storage, with repetition, fit. -/
def storageOk (ok : Nat → Bool) (room : Nat → Nat) (xs : List Nat) : Bool :=
  xs.all fun x => ok x && decide ((xs.filter fun y => y == x).length ≤ room x)

/-- How many copies a packet places: one, or in class D a pair. -/
def Packet.copies (p : Packet) : Nat := if p.prot = 2 then 2 else 1

/-- Whether copies may be placed so beside what other launches hold. -/
def State.placeOk (s : State) (part : Nat) (p : Packet) (but : List Nat) (sides : List Place) : Bool :=
  let ls := s.holders but
  let cs := sides.flatMap fun y => y.cores
  decide (sides.length = p.copies) &&
  (sides.all fun x => decide (x.cores.length = p.cores) && decide (x.clus.length = p.clus) && decide (x.dies.length = p.chips)) &&
  (cs.all fun c => s.coreOk part c && !coreHeld ls c) && decide (cs.eraseDups.length = cs.length) &&
  storageOk (s.clusOk part) (fun c => fits clusBytes (grantedOn ls true c) p.cls) (sides.flatMap fun y => y.clus) &&
  storageOk (s.dieOk part p) (fun d => fits dieBytes (grantedOn ls false d) p.dsp) (sides.flatMap fun y => y.dies)

/-- Free cores that may be a primary's (or only) core: in class D the lower of a free mirrored pair. -/
def State.freeCores (s : State) (part : Nat) (p : Packet) (but : List Nat) : List Nat :=
  let ls := s.holders but
  let free (c : Nat) : Bool := s.coreOk part c && !coreHeld ls c
  (List.range 384).filter fun c => free c && (p.prot != 2 || (decide (c < mirror8 c) && free (mirror8 c)))

/-- Storage choices in rising order, each as often as it has room for. -/
def roomsOf (n need : Nat) (ok : Nat → Bool) (room : Nat → Nat) : List Nat :=
  (List.range n).flatMap fun c => if ok c then List.replicate (min need (room c)) c else []

/-- The cluster and die choices of the lowest numbers. -/
def State.storage (s : State) (part : Nat) (p : Packet) (but : List Nat) : List Nat × List Nat :=
  let ls := s.holders but
  (roomsOf 96 (p.copies * p.clus) (s.clusOk part) (fun c => fits clusBytes (grantedOn ls true c) p.cls),
   roomsOf 12 (p.copies * p.chips) (s.dieOk part p) (fun d => fits dieBytes (grantedOn ls false d) p.dsp))

/-- Whether some placement is permitted. -/
def State.placeable (s : State) (part : Nat) (p : Packet) (but : List Nat) : Bool :=
  decide (p.cores ≤ (s.freeCores part p but).length) &&
  decide (p.copies * p.clus ≤ (s.storage part p but).1.length) && decide (p.copies * p.chips ≤ (s.storage part p but).2.length)

/-- Whether one could exist on an idle partition (R287). -/
def State.everPlaceable (s : State) (part : Nat) (p : Packet) : Bool := s.placeable part p (s.launches.map fun l => l.lid)

/-- The placement of the lowest numbers, as an event names it, when one is permitted. -/
def State.firstPlace (s : State) (part : Nat) (p : Packet) (but : List Nat) : Option (List Nat) :=
  if s.placeable part p but then
    (let (cl, ds) := s.storage part p but
     some ((s.freeCores part p but).take p.cores ++ cl.take p.clus ++ ds.take p.chips ++
       (if p.prot = 2 then (cl.drop p.clus).take p.clus ++ (ds.drop p.chips).take p.chips else [])))
  else none

/-! ### The redo placement (R411) -/

/-- The lowest cores for some ranks in order, where rank `bad` must leave cluster `away`. -/
def redoCores (bad away : Nat) : List Nat → List Nat → Option (List Nat)
  | [], _ => some []
  | r :: rs, free =>
      let outside (c : Nat) : Bool := clusterOf c != away
      let pick := free.find? fun c =>
        if r = bad then outside c
        else !(rs.contains bad) || ((free.filter fun d => d != c).any outside)
      match pick with
      | none => none
      | some c => (redoCores bad away rs (free.filter fun d => d != c)).map fun t => c :: t

/-- The cores that the copy which holds the suspect takes for its redo, when the suspect's core can leave its cluster: the whole group
in class S, that copy in class D (R371). -/
def State.redoCoresOf (s : State) (l : Launch) (cp : Copy) : Option (List Nat) :=
  match cp.cores.find? fun c => c.phys == unitCore (BitVec.ofNat 16 l.unit) with
  | none => none
  | some c =>
      let others := (l.copies.filter fun x => x.role != cp.role).flatMap fun x => x.cores.map fun k => k.phys
      let alone : Packet := { l.packet with w1 := putField l.packet.w1 32 2 0 }
      redoCores c.rank (clusterOf c.phys) l.packet.rankList
        ((s.freeCores l.part.toNat alone [l.lid]).filter fun x => !others.contains x)

/-! ### Building copies -/

/-- The quadrants of a core's cube that are fenced or held (R380). -/
def Reliab.subsOut (r : Reliab) (phys : Nat) : List Nat :=
  (List.range 4).filter fun q => r.out (unitId 2 (phys * 4 + q))

/-- The scratchpads of a copy at launch start (R288). -/
def startPads (p : Packet) (x : Place) : List Pad :=
  ((p.rankList.zip x.cores).map fun c => startPad (.usp c.1) p.usp c.2) ++
  (x.clus.zipIdx.map fun c => startPad (.cls c.2) p.cls c.1) ++ (x.dies.zipIdx.map fun d => startPad (.dsp d.2) p.dsp d.1)

/-- A copy at launch start. -/
def startCopy (s : State) (role : Role) (p : Packet) (lr : LoopRec) (images : List (BitVec 512)) (b : Option (BitVec 32)) (x : Place) : Copy :=
  { role := role, cores := (p.rankList.zip x.cores).map fun c => startCore p lr images c.1 c.2 (s.rel.subsOut c.2) s.cc,
    pads := startPads p x, home := [], stores := 0, binding := b, replay := 0 }

/-- A copy at resume on the given cores and storage, in the order of its own lists (R47, R292). -/
def resumeCopy (s : State) (l : Launch) (cp : Copy) (role : Role) (x : Place) : Copy :=
  let snap (c : Core) : Option CoreSnap := l.snap.bind fun n => n.cores.find? fun k => k.rank == c.rank
  let physOf (q : Pad) : Nat := match q.id with
    | .usp r => ((cp.cores.zip x.cores).find? fun c => c.1.rank == r).map (fun c => c.2) |>.getD q.phys
    | .cls i => x.clus.getD i q.phys
    | .dsp i => x.dies.getD i q.phys
  { role := role,
    cores := (cp.cores.zip x.cores).map fun c => resumeCore l (snap c.1) c.1 c.2 (s.rel.subsOut c.2) s.cc,
    pads := cp.pads.map fun q => resumePad l.snap q (physOf q), home := [], stores := 0, binding := l.heldBinding, replay := 0 }

/-- The placement a copy has. -/
def Copy.place (cp : Copy) : Place :=
  { cores := cp.cores.map fun c => c.phys,
    clus := cp.pads.filterMap fun q => (match q.id with
      | .cls _ => some q.phys
      | .usp _ => none
      | .dsp _ => none),
    dies := cp.pads.filterMap fun q => (match q.id with
      | .dsp _ => some q.phys
      | .usp _ => none
      | .cls _ => none) }

/-! ### A third execution (R285, R369) -/

/-- The cores of a third execution for the primary's cores: the mirror in domain d XOR 1, or where one is out of service a
healthy core of the partition there. -/
def thirdCores (s : State) (part : Nat) (own : List Nat) : List Nat → List Nat → Option (List Nat)
  | [], _ => some []
  | c :: cs, used =>
      let want := mirror4 c
      let okay (x : Nat) : Bool := s.coreOk part x && !used.contains x && !own.contains x
      let pick := if okay want then some want
        else (List.range 384).find? fun x => okay x && domainOf (dieOf x) == domainOf (dieOf want) && !(cs.any fun y => mirror4 y == x)
      match pick with
      | none => none
      | some x => (thirdCores s part own cs (used ++ [x])).map fun t => x :: t

/-- Whether a launch can be pre-empted at once for a third execution (R285, R294): no checkpoint of it is being written, no commit point
or decision of it is in progress, no fault of it is to be weighed, and the firmware serves. -/
def State.yields (s : State) (m : Launch) : Bool :=
  (m.state == .running || m.state == .resuming) && !m.busy && m.third.isNone && m.deferred.isEmpty && s.fwServes

/-- Cores that a launch starts or resumes on fetch their code anew (R158). -/
def State.syncCores (s : State) (cs : List Nat) : State := cs.foldl (fun t c => t.syncCode c true) s

/-- The snapshot that a launch would start from is uncorrectable: the launch ends (Table 10-3). -/
def State.badSnapshot (s : State) (l : Launch) : State :=
  let t : Trap := { Trap.mk' 0x10 with src := 5, durable := true }
  match (l.copy? .primary).bind fun c => c.cores.head? with
  | some c => s.groupFault l c t
  | none => s.kill l.lid t 0 0

/-- Place the third execution of a launch and start it from the last checkpoint, once what an abort of it waits for has come (R369,
R374): launches on its cores are pre-empted whatever their guard, as soon as they can be; without cores or storage the launch is
killed with Signature Mismatch, and with an uncorrectable snapshot as Table 10-3 has it. -/
def State.placeThird (s : State) (l : Launch) : State :=
  let part := l.part.toNat
  match l.copy? .primary with
  | none => s
  | some cp =>
      let own := l.copies.flatMap fun c => c.cores.map fun k => k.phys
      if (l.snap.map fun n => n.bad).getD false then s.badSnapshot l
      else match thirdCores s part own (cp.cores.map fun c => c.phys) [] with
      | none => s.kill l.lid (Trap.mk' 0x13) 0 0
      | some cs =>
          let hit := s.launches.filter fun m => m.lid != l.lid && m.state.occupies && m.copies.any fun c => c.cores.any fun k => cs.contains k.phys
          if !hit.all s.yields then hit.foldl (fun t m => t.modLaunch m.lid fun x => x.askPreempt true) s
          else
            (let s1 := hit.foldl (fun t m => t.preemptNow m) s
             let p1 : Packet := { l.packet with w1 := putField l.packet.w1 32 2 0 }
             let (cl, ds) := s1.storage part p1 []
             if cl.length < l.packet.clus || ds.length < l.packet.chips then s1.kill l.lid (Trap.mk' 0x13) 0 0
             else
               (let x : Place := { cores := cs, clus := cl.take l.packet.clus, dies := ds.take l.packet.chips }
                let third := resumeCopy s1 l cp .third x
                (s1.modLaunch l.lid fun m => { m with copies := m.copies ++ [third] }).syncCores cs))

end Sys2Proof.Machine
end

