-- ==== Sys2Proof/Machine/SchedEvents.lean ====
section
/-! DEFINITION. What the sequencer and the scheduler do: validation (R283), placement, priorities, fair share and
pre-emption (R284 to R287, R294 to R298), checkpoints (R289, R290), resume (R292), completion (R301) and the timers of
R166, R295 and R302. -/

namespace Sys2Proof.Machine

/-! ### Validation (R36, R45, R76, R283) -/

/-- The loop record in its 128 bytes (Table 02-14). -/
def loopRecOf (bs : List Byte) : LoopRec :=
  let w (i : Nat) : Word := BitVec.ofNat 64 (leNat ((bs.drop (8 * i)).take 8))
  let len (i : Nat) : Nat := fieldNat (w (13 + i / 2)) (32 * (i % 2)) 32
  { pro := w 0, ker := w 1, epi := w 2, trip := fieldNat (w 3) 32 32, ring := fieldNat (w 3) 24 8, ckint := fieldNat (w 3) 8 16,
    dbytes := fieldNat (w 4) 0 32, cmask := w 6 ++ w 5, usp := fieldNat (w 7) 14 14, cls := fieldNat (w 7) 28 16,
    dsp := fieldNat (w 7) 44 20, vim := fieldNat (w 7) 0 14, banks := fieldNat (w 8) 0 9,
    ranges := ((List.range 4).map fun i => (w (9 + i), len i)).filter fun r => r.1 != 0#64 || r.2 != 0 }

/-- A carried range under R45 and R76. -/
def carriedOk (r : Word × Nat) : Bool :=
  r.1 != 0#64 && r.2 != 0 && ([1, 2, 3, 7].contains (ptrSpace r.1)) && ptrOff r.1 % 256 == 0 && r.2 % 256 == 0

/-- A loop-record image under R76. -/
def loopRecOk (bs : List Byte) : Bool :=
  let w (i : Nat) : Word := BitVec.ofNat 64 (leNat ((bs.drop (8 * i)).take 8))
  let r := loopRecOf bs
  let code (p : Word) : Bool := ptrSpace p == 0 && fieldNat p 0 2 == 0
  fieldNat (w 3) 0 8 == 0 && fieldNat (w 4) 32 32 == 0 && fieldNat (w 8) 9 55 == 0 && w 15 == 0#64 &&
  !r.cmask.getLsbD 0 && !r.cmask.getLsbD 64 && fieldNat r.cmask 108 20 == 0 &&
  r.ring != 0 && r.ring ≤ 64 && r.ckint != 0 && r.usp ≤ 8192 && r.cls ≤ 32768 && r.dsp ≤ 524288 && r.vim ≤ Config.vimWords &&
  r.banks ≤ 256 && code r.pro && code r.ker && code r.epi && r.ranges.all carriedOk &&
  (r.ranges.map fun x => x.2).foldl (· + ·) 0 ≤ 480 * 1024

/-- Step 2 of Table 07-5. -/
def Packet.fieldsOk (p : Packet) : Bool :=
  fieldNat p.w1 50 14 == 0 && fieldNat p.w1 36 4 == 0 && fieldNat p.w1 29 3 == 0 && fieldNat p.w1 21 3 == 0 &&
  fieldNat p.w3 60 3 == 0 && fieldNat p.w3 28 3 == 0 && (bitAt p.w3 63 || fieldNat p.w3 32 28 == 0) &&
  (bitAt p.w3 31 || fieldNat p.w3 0 28 == 0) && p.prot != 3 && fieldNat p.w1 34 2 != 3 &&
  !(p.prot == 0 && fieldNat p.w1 34 2 != 0) && 1 ≤ p.h && p.h ≤ 16 && 1 ≤ p.w && p.w ≤ 24 && !(p.prot == 2 && 8 < p.h) && p.ntid ≤ 256

/-- Step 3: both gang extents absent, or both dividing the rectangle. -/
def Packet.gangOk (p : Packet) : Bool :=
  let (gh, gw) := (fieldNat p.w1 24 5, fieldNat p.w1 16 5)
  (gh == 0 && gw == 0) || (gh != 0 && gw != 0 && p.h % gh == 0 && p.w % gw == 0)

/-- A carried range lies in its grant (R45). -/
def Packet.carries (p : Packet) (r : Word × Nat) : Bool :=
  decide (ptrOff r.1 + r.2 ≤ (match ptrSpace r.1 with
    | 2 => p.cls
    | 3 => p.dsp
    | _ => p.usp))

/-- Step 6, and R45. -/
def Packet.grantsOk (p : Packet) (r : LoopRec) : Bool :=
  let g (lo n : Nat) : Nat := fieldNat p.grants lo n
  let ok (need got most : Nat) : Bool := decide (need ≤ got) && decide (got ≤ most)
  ok r.usp (g 14 14) 8192 && ok r.cls (g 28 16) 32768 && ok r.dsp (g 44 20) 524288 && ok r.vim (g 0 14) Config.vimWords &&
    r.ranges.all p.carries

/-- How validation's read of a page ends. -/
inductive PageRead where
  | bytes (bs : List Byte)
  | wait
  | bad (code : Nat) (va dpa ev : Nat)
deriving DecidableEq, Repr

/-- Bytes of another node's memory that Anole core 0 reads over the link for a queue (R320): what has been answered, or how the read ends. -/
def State.readRemote (s : State) (q : BitVec 12) (part : BitVec 4) (node : BitVec 12) (va dpa n : Nat) : PageRead × State :=
  let lines := (List.range ((dpa + n - 1) / 64 + 1 - dpa / 64)).map fun i => (dpa / 64 + i) * 64
  let have' (t : State) (line : Nat) : Option RemoteLine := findLine t.anoles[0].remote q.toNat node line
  if !s.link.nodeSet then (.bad 0x05 va 0 0, s)
  else if lines.any fun x => (have' s x).isNone then
    (if !s.reachable node then (.bad 0x10 va 0 0, s)
     else (.wait, lines.foldl (fun t x =>
       if (have' t x).isSome then t
       else
         (let (tag, u) := t.sendReq 0 node part (remoteAddr node x) [] (.anole 0#4) 0 0 none
          u.modAnole 0#4 fun c => { c with remote := c.remote ++
            [{ owner := q.toNat, node := node, dpa := x, tag := tag, data := none, stat := 0#8 }] })) s))
  else
    (let got := lines.filterMap fun x => have' s x
     let clear : State := s.modAnole 0#4 fun c => { c with remote := c.remote.filter fun r => r.owner != q.toNat }
     match got.find? fun r => r.data.isNone && r.stat != 0#8 with
     | some r => (.bad (if r.stat = 0x05#8 then 0x05 else 0x10) va 0 0, clear)
     | none =>
         if got.any fun r => r.data.isNone then (.wait, s)
         else (.bytes (((got.flatMap fun r => r.data.getD []).drop (dpa % 64)).take n), clear))

/-- The firmware reads `n` bytes of one page through a context (R283 step 4): the view of the partition's binding, the
translation, the partition's right. A view that the binding leaves unbound is walked as it stands (log entry 76). -/
def State.readPage (s : State) (q : BitVec 12) (ctx : BitVec 6) (part : BitVec 4) (va n : Nat) : PageRead × State :=
  let va' : Nat := ((s.regionOfView ctx va).bind fun g => (s.boundSlot g (s.pbBinding part.toNat)).map fun i => va + (i + 1) * g.size).getD va
  match lookup { agent := .none, src := 5, tlb := 0 } ctx part va' .read s with
  | .error (.trap t, s1) => (.bad t.code va t.dpa t.ev, s1)
  | .error (.hold, s1) => (.wait, s1)
  | .ok (e, s1) =>
      let dpa := e.dpa + (va' - e.va)
      match e.node with
      | some node => s1.readRemote q part node va dpa n
      | none =>
          if !s1.dpaRight (32 + part.toNat) dpa .read then (.bad 0x05 va 0 0, s1)
          else if !s1.dpaReady dpa then (.wait, s1)
          else if s1.dram.badIn dpa n then (.bad 0x10 va 0 0, s1)
          else (.bytes (s1.dpaBytes dpa n), s1)

/-- Read a range page by page. -/
def readPages (q : BitVec 12) (ctx : BitVec 6) (part : BitVec 4) : List (Nat × Nat) → State → PageRead × State
  | [], s => (.bytes [], s)
  | (va, n) :: t, s =>
      match s.readPage q ctx part va n with
      | (.bytes bs, s1) =>
          (match readPages q ctx part t s1 with
           | (.bytes r, s2) => (.bytes (bs ++ r), s2)
           | (.wait, s2) => (.wait, s2)
           | (.bad c v d e, s2) => (.bad c v d e, s2))
      | (.wait, s1) => (.wait, s1)
      | (.bad c v d e, s1) => (.bad c v d e, s1)

/-- What validation decides: a rejection's code, nothing yet (a page that the host must bring in, or a memory that is not
ready), a bad table page, or the record and the images. -/
inductive Verdict where
  | reject (code : Nat)
  | wait
  | page (va : Nat)
  | table (ev va dpa : Nat)
  | good (r : LoopRec) (images : List (BitVec 512))
deriving DecidableEq, Repr

/-- Steps 4 to 8 of Table 07-5 for a packet of a queue. -/
def State.validateRecord (s : State) (q : BitVec 12) (p : Packet) : Verdict × State :=
  if ptrSpace p.lp ≠ 0 || fieldNat p.lp 52 8 ≠ 0 then (.reject 0x04, s)
  else if fieldNat p.lp 0 6 ≠ 0 then (.reject 0x03, s)
  else
    (let va := fieldNat p.lp 0 52
     let n := 128 + 64 * p.ntid
     if 2 ^ 52 < va + n then (.reject 0x04, s)
     else match readPages q (s.qCtx q) (s.qPart q) (cutAt 4096 (n / 4096 + 2) va n) s with
       | (.wait, s1) => (.wait, s1)
       | (.bad c v d e, s1) => (if c = 0x06 then .page v else if c = 0x07 then .table e v d else .reject c, s1)
       | (.bytes bs, s1) =>
           let r := loopRecOf bs
           let images := (List.range p.ntid).map fun i => rowOf 512 ((bs.drop (128 + 64 * i)).take 64)
           if !loopRecOk bs || !p.grantsOk r then (.reject 0x01, s1)
           else if Config.containBytes < r.dbytes * r.ring then (.reject 0x0E, s1)
           else if !images.all tidOk then (.reject 0x01, s1)
           else (.good r images, s1))

/-- Steps 2 to 8. -/
def State.validate (s : State) (q : BitVec 12) (p : Packet) : Verdict × State :=
  if !p.fieldsOk then (.reject 0x01, s)
  else if !p.gangOk then (.reject 0x0B, s)
  else s.validateRecord q p

/-! ### Heads of queues -/

/-- The undispatched head of a queue: its slot and packet, and whether it is validated and waits for placement. -/
def State.headOf (s : State) (q : BitVec 12) : Option (Nat × Packet × Bool) :=
  match s.placing.find? fun e => e.queue == q with
  | some e => some (e.slot, e.packet, true)
  | none =>
      if (s.aux q).next < s.qWrite q then some ((s.aux q).next, (s.aux q).head.getD (s.packetIn q (s.aux q).next), false) else none

/-- A queue without an undispatched packet has a deficit of 0 (R296). -/
def State.restDeficit (s : State) (q : BitVec 12) : State :=
  if (s.headOf q).isNone then s.modAux q fun a => { a with deficit := 0 } else s

/-- Whether a queue may dispatch (R273, R328, R390, R404, R407). -/
def State.mayDispatch (s : State) (q : BitVec 12) : Bool :=
  s.fwServes && s.firm.save.isNone && s.qState q == 1 && s.cxState (s.qCtx q) == 1 && s.ptEn (s.qPart q).toNat &&
    s.ptCtx (s.qPart q).toNat == s.qCtx q

/-- A packet's dependence counter: generation and count (R280). -/
def State.counterOf (s : State) (p : Packet) : Nat × Nat :=
  let o := dcOff (p.w3.extractLsb' 16 12)
  (s.sysF o 48 16, s.sysF o 0 16)

/-- Whether `CX.resolve` has reached an event (R340). -/
def State.resolved (s : State) (ctx : BitVec 6) (seq : Nat) : Bool :=
  decide ((s.sysF (cxOff ctx + 40) 0 32 + 2 ^ 32 - seq % 2 ^ 32) % 2 ^ 32 < 2 ^ 31)

/-- Reject the head packet of a queue (R283). -/
def State.rejectHead (s : State) (q : BitVec 12) (slot : Nat) (p : Packet) (code : Nat) : State :=
  let s1 := (s.qErr q 4).modAux q fun a => { a with next := slot + 1, waitSeq := none, head := none }
  State.restDeficit (s1.completeSlot q (s1.qGen q) slot p
    { status := 3, ending := { Ending.zero 3 with src := 5, code := code }, ovs := false, noprog := false, unit := 0, aborts := 0,
      ckpts := 0, cc := 0 }) q

/-- A packet that could not be read. -/
def Packet.blank : Packet := { lp := 0#64, w1 := 0#64, grants := 0#64, w3 := 0#64, args := [] }

/-- Post the translation event of a page that validation has met (R333, R340): it names the packet. -/
def State.postPacketFr (s : State) (q : BitVec 12) (slot kind va dpa : Nat) : State :=
  let ident : Word := BitVec.ofNat 64 (slot % 2 ^ 32 * 2 ^ 32 + (s.qGen q).toNat * 2 ^ 16 + q.toNat)
  let part := (s.qPart q).toNat
  s.postEvent [s.ptHost part] (frWords kind (s.qCtx q) 0 part (BitVec.ofNat 64 va) dpa ident)

/-- What validation's decision leads to. A packet that waits is read no more: its step 4 is repeated. -/
def State.takeVerdict (q : BitVec 12) (slot : Nat) (p : Packet) : Verdict × State → State
  | (.reject code, s) => s.rejectHead q slot p code
  | (.wait, s) => s.modAux q fun a => { a with head := some p }
  | (.page va, s) =>
      let s1 := s.postPacketFr q slot 1 va 0
      s1.modAux q fun a => { a with waitSeq := some s1.evSeq, head := some p }
  | (.table ev va dpa, s) => ((s.postPacketFr q slot ev va dpa).stopContext (s.qCtx q)).rejectHead q slot p 0x07
  | (.good r images, s) =>
      let s1 := s.modAux q fun a => { a with next := slot + 1, waitSeq := none, head := none }
      { s1 with placing := s1.placing ++ [{ queue := q, slot := slot, packet := p, lrec := r, images := images }] }

/-- PACKET_VALIDATION (R280, R283). -/
def execPacketValidation (q : BitVec 12) (s : State) : Host.Outcome State Fault Refusal :=
  .next (if !s.mayDispatch q then s else
    match s.headOf q with
    | none => s
    | some (_, _, true) => s
    | some (slot, p, false) =>
        let at' := s.slotAt q slot
        if !s.dpaReady at' || !s.dpaReady (s.recordAt q slot) ||
            (match (s.aux q).waitSeq with | some n => !s.resolved (s.qCtx q) n | none => false) then s
        else if (s.aux q).head.isSome then State.takeVerdict q slot p (s.validateRecord q p)
        else if s.dram.badIn at' 64 then s.rejectHead q slot Packet.blank 0x10
        else if bitAt p.w3 31 && (s.counterOf p).1 ≠ fieldNat p.w3 0 16 then (s.qErr q 3).rejectHead q slot p 0x0F
        else if bitAt p.w3 31 && (s.counterOf p).2 ≠ 0 then s
        else State.takeVerdict q slot p (s.validate q p))

/-! ### Effective levels (R297) -/

/-- The waiting heads: queue and packet. -/
def State.waitingHeads (s : State) : List (BitVec 12 × Packet) :=
  s.queues.filterMap fun a =>
    if s.qState a.q ≠ 1 then none
    else match s.headOf a.q with
      | some (_, p, false) => if bitAt p.w3 31 && (s.counterOf p).1 == fieldNat p.w3 0 16 && (s.counterOf p).2 != 0 then some (a.q, p) else none
      | some (_, _, true) => none
      | none => none

/-- The effective level of a packet of a queue, through chains of at most `fuel` counters. -/
def effLevel (s : State) (ws : List (BitVec 12 × Packet)) : Nat → BitVec 12 → Packet → Nat
  | 0, q, _ => s.qPrio q
  | fuel + 1, q, p =>
      let waits := if bitAt p.w3 63 then
        ws.filter fun w => fieldNat w.2.w3 16 12 == fieldNat p.w3 48 12 && fieldNat w.2.w3 0 16 == fieldNat p.w3 32 16 else []
      waits.foldl (fun n w => min n (effLevel s ws fuel w.1 w.2)) (s.qPrio q)

/-- The effective level of a launch or packet. -/
def State.level (s : State) (q : BitVec 12) (p : Packet) : Nat := effLevel s s.waitingHeads s.waitingHeads.length q p

/-! ### Deficit round-robin (R296) -/

/-- Whether a queue's head is in state Placing and may be placed now; a launch of the queue that was pre-empted goes first
(R294). -/
def State.headReady (s : State) (q : BitVec 12) : Bool :=
  s.mayDispatch q && (s.placing.any fun e => e.queue == q) &&
    !s.launches.any fun l => l.queue == q && l.state == .parked && l.park == .place
/-- And whether a placement exists for it. -/
def State.canPlace (s : State) (q : BitVec 12) : Bool :=
  s.headReady q && (s.placing.any fun e => e.queue == q && s.placeable (s.qPart q).toNat e.packet [])

/-- The queues of a partition with an undispatched packet, with their level, in the order of the ring. -/
def State.ring (s : State) (part : BitVec 4) (lvl : Nat) : List QueueAux :=
  s.queues.filter fun a => s.qState a.q == 1 && s.qPart a.q == part && (match s.headOf a.q with
    | some (_, p, _) => s.level a.q p == lvl
    | none => false)

/-- Serve a ring: move fronts to the back, raising their deficits, until a front's deficit is positive and its head can be
placed. The ring then, its front the queue served. -/
def serve (s : State) : Nat → List QueueAux → Option (List QueueAux)
  | 0, _ => none
  | _ + 1, [] => none
  | n + 1, a :: t =>
      if 0 < a.deficit && s.canPlace a.q then some (a :: t)
      else
        (let w : Int := (s.qWeight a.q : Int) * (2 ^ 20 : Nat)
         serve s n (t ++ [{ a with deficit := min (a.deficit + w) (4 * w) }]))

/-- Turns that suffice for every queue's deficit to become positive. -/
def serveTurns (s : State) (r : List QueueAux) : Nat :=
  r.length * (2 + r.foldl (fun n a => max n ((-a.deficit).toNat / (max 1 (s.qWeight a.q) * 2 ^ 20) + 1)) 0)

/-- Whether what a launch waits for before it goes on has come (R328, R340). -/
def State.waitOver (s : State) (ctx : BitVec 6) : ParkFor → Bool
  | .place => true
  | .resolve seq => s.resolved ctx seq
  | .context => s.cxState ctx == 1
/-- The same of a parked launch. -/
def State.parkOver (s : State) (l : Launch) : Bool := s.waitOver l.ctx l.park

/-- Whether a head of the partition of a level better than `lvl` can be placed, and whether a parked launch of one can be
placed again (R294, R296). -/
def State.headBefore (s : State) (part : BitVec 4) (lvl : Nat) : Bool :=
  s.queues.any fun a => s.qPart a.q == part && s.canPlace a.q && (match s.headOf a.q with
    | some (_, x, _) => decide (s.level a.q x < lvl)
    | none => false)
def State.parkedBefore (s : State) (part : BitVec 4) (lvl : Nat) : Bool :=
  s.launches.any fun l => l.state == .parked && l.part == part && s.cxState l.ctx == 1 && s.parkOver l &&
    decide (s.level l.queue l.packet < lvl) && s.placeable part.toNat l.packet []

/-- The ring after serving it, when queue `q` is the one served. -/
def State.served (s : State) (q : BitVec 12) (p : Packet) : Option (List QueueAux) :=
  let part := s.qPart q
  let lvl := s.level q p
  if s.headBefore part lvl || s.parkedBefore part lvl then none
  else
    match serve s (serveTurns s (s.ring part lvl)) (s.ring part lvl) with
    | some (a :: t) => if a.q == q then some (a :: t) else none
    | some [] => none
    | none => none

/-! ### Pre-emption (R294, R295, R298) -/

/-- Whether a launch's progress guard is met in a cycle. -/
def Launch.guardMet (l : Launch) (cc : Nat) : Bool := l.guarded || l.expired || l.guardFrom + Config.guardCc ≤ cc

/-- Insert a launch in the order in which launches are taken: greatest level first, then most recently started. -/
def victimInsert (s : State) (x : Launch) : List Launch → List Launch
  | [] => [x]
  | y :: t =>
      let (lx, ly) := (s.level x.queue x.packet, s.level y.queue y.packet)
      if ly < lx || (lx = ly && y.start < x.start) then x :: y :: t else y :: victimInsert s x t

/-- The shortest run of launches whose going makes a placement exist. -/
def victimsFor (s : State) (part : Nat) (p : Packet) : List Nat → List Launch → List Nat
  | _, [] => []
  | got, l :: t => if s.placeable part p (got ++ [l.lid]) then got ++ [l.lid] else victimsFor s part p (got ++ [l.lid]) t

/-- A head that cannot be placed asks for the pre-emption of launches of its partition and of greater level: of those whose guard is
met, and of the others once theirs is (R298). -/
def State.requestPreempt (s : State) (q : BitVec 12) (p : Packet) : State :=
  let lvl := s.level q p
  let able := s.launches.filter fun l => (l.state == .running || l.state == .checkpointing) && l.part == s.qPart q &&
    decide (lvl < s.level l.queue l.packet)
  let order (xs : List Launch) : List Launch := xs.foldl (fun acc l => victimInsert s l acc) []
  let go := victimsFor s (s.qPart q).toNat p [] (order (able.filter fun l => l.guardMet s.cc) ++ order (able.filter fun l => !l.guardMet s.cc))
  { s with launches := s.launches.map fun l => if go.contains l.lid && l.guardMet s.cc then l.askPreempt false else l }

/-- PREEMPTION_TAKE_EFFECT (R294): the request becomes a cause of abort in this cycle (R293). -/
def execPreemptionTakeEffect (lid : Nat) (s : State) : Host.Outcome State Fault Refusal :=
  .next (match s.launch? lid with
    | none => s
    | some l =>
        if l.preempt && l.state == .running && (l.guardMet s.cc || l.forced) && l.third.isNone && s.fwServes && !l.busy &&
            !l.deferred.contains .preempt then
          s.modLaunch lid fun m => { m with deferred := m.deferred ++ [.preempt] }
        else s)

/-- PROGRESS_GUARD_EXPIRY (R295): 2 ms have passed since the resume without a checkpoint. -/
def execProgressGuardExpiry (lid : Nat) (s : State) : Host.Outcome State Fault Refusal :=
  .next (match s.launch? lid with
    | none => s
    | some l =>
        if !l.guarded && (l.state == .running || l.state == .checkpointing) && l.guardFrom + Config.guardCc ≤ s.cc then
          s.modLaunch lid fun m => { m with expired := true }
        else s)

/-! ### Placement (R284 to R288) -/

/-- The launch a placed packet becomes: placed and started (R288). -/
def newLaunch (s : State) (e : Placing) (sides : List Place) : Launch :=
  let part := s.qPart e.queue
  let b := s.pbBinding part.toNat
  { lid := s.nextLid, queue := e.queue, slot := e.slot, gen := s.qGen e.queue, ctx := s.qCtx e.queue, part := part,
    packet := e.packet, lrec := e.lrec, images := e.images, state := .running,
    copies := (sides.zip [Role.primary, .shadow]).map fun x => startCopy s x.2 e.packet e.lrec e.images b x.1,
    snap := none, startBinding := b, lag := [], log := [], cause := none, fault := 0#64, park := .place, preempt := false,
    ending := none, third := none, redo := false, laps := 0, dues := [], aborts := 0, unit := 0, ovs := false, noprog := false,
    noprogress := 0, guarded := false, expired := false, guardFrom := s.cc, start := s.cc, watchdogs := 0, torns := 0, barx := [],
    snapDie := dieOf ((sides.flatMap fun x => x.cores).headD 0), deferred := [] }

/-- Place the head of a queue. -/
def State.placeHead (s : State) (e : Placing) (sides : List Place) (ring : List QueueAux) : State :=
  let left := s.placing.filter fun y => y.queue != e.queue
  let none' := (s.aux e.queue).next = s.qWrite e.queue
  let ring' := ring.map fun a => if a.q == e.queue && none' then { a with deficit := 0 } else a
  State.syncCores { s with placing := left, launches := s.launches ++ [newLaunch s e sides], nextLid := s.nextLid + 1,
                           queues := (s.queues.filter fun a => !ring.any fun r => r.q == a.q) ++ ring' }
    (sides.flatMap fun x => x.cores)

/-- A packet that no placement can ever serve (R287). -/
def State.unplaceable (s : State) (e : Placing) : State :=
  let s1 := { s with placing := s.placing.filter fun y => y.queue != e.queue }
  State.restDeficit (s1.completeSlot e.queue (s1.qGen e.queue) e.slot e.packet
    { status := 2, ending := Ending.zero 2, ovs := false, noprog := false, unit := 0, aborts := 0, ckpts := 0, cc := 0 }) e.queue

/-- LAUNCH_PLACEMENT: the head of a queue is placed as named, when the queue is served and the choice permitted; without
room it asks for pre-emption; when none can exist it completes as unplaceable. -/
def execLaunchPlacement (q : BitVec 12) (place : List Nat) (s : State) : Host.Outcome State Fault Refusal :=
  .next (if !s.headReady q then s else
    match s.placing.find? fun e => e.queue == q with
    | none => s
    | some e =>
        let part := (s.qPart q).toNat
        if !s.everPlaceable part e.packet then s.unplaceable e
        else if !s.placeable part e.packet [] then s.requestPreempt q e.packet
        else
          match s.served q e.packet with
          | none => s
          | some ring =>
              let x := placeOf' e.packet place
              if s.placeOk part e.packet [] x then s.placeHead e x ring else s)

/-! ### Checkpoint (R46, R289, R361) -/

/-- The scratchpad a carried range lies in for a core (R45). -/
def carriedPad (l : Launch) (c : Core) (p : Word) : PadId :=
  match ptrSpace p with
  | 2 => .cls (clusterRank l.packet.w c.row c.col)
  | 3 => .dsp (chipRank l.packet.w c.row c.col)
  | _ => .usp c.rank

/-- The carried bytes of a copy, once per place. -/
def Copy.carried (cp : Copy) (l : Launch) : List (PadId × Nat × Nat) :=
  (cp.cores.flatMap fun c => l.lrec.ranges.map fun r => (carriedPad l c r.1, ptrOff r.1, r.2)).eraseDups

/-- What a snapshot holds of a core. -/
def Core.snapOf (c : Core) : CoreSnap :=
  { rank := c.rank, regs := c.regs, vregs := c.vregs, policy := c.policy, loop := c.loop,
    counts := c.sync.tokens.toList.map fun t => t.count, calico := c.sync.calico, barriers := c.sync.barriers, tids := c.tens.tids,
    norms := c.tens.norms, banks := c.tens.banks }

/-- Whether a copy has drained and settled: nothing pushed is left, every store is at its home, every arrival is applied, no term
fires or can fire (R46, R349). A core that completes the token barrier first is at that commit point. -/
def Copy.drained (cp : Copy) : Bool :=
  cp.cores.all fun c => c.eng.cmds.isEmpty && c.eng.gangs.isEmpty && c.eng.stream.isNone && c.port.isEmpty && c.sync.arrivals.isEmpty &&
    c.sync.due.isEmpty && c.sync.posts.isEmpty && c.firing.isEmpty && (c.commit == .idle || !c.sync.noted.isEmpty)

/-- Everything a copy's cores have written is performed at device scope. -/
def Copy.settle (cp : Copy) : Copy := cp.promote .device (List.range cp.home.length)

/-- The signature of a checkpoint (R365). -/
def Copy.ckptSig (cp : Copy) : BitVec 64 := (cp.cores.map Core.ownSig).foldl (· + ·) 0#64

/-- The core whose signature differs between two copies, lowest first. -/
def differing (a b : Copy) : Nat :=
  (((a.cores.zip b.cores).find? fun p => p.1.ownSig != p.2.ownSig).map fun p => p.1.rank).getD 0

/-- A core after the commit of a checkpoint, on its way into the next lap. -/
def Core.afterCheckpoint (c : Core) (lr : LoopRec) (cc : Nat) : Core :=
  let m := { c.muslin with lines := [], closed := [], seg := c.muslin.seg + 1, fold := 0#64, barvs := 0, commits := 0, returned := [], bad := [] }
  let d := { c with muslin := m, block := .none, breaks := [], watch := cc,
                    loop := { c.loop with ckpt := c.loop.ckpt + 1, ckptPending := false, pushes := 0 } }
  d.enterPhase lr

/-- Release one line of a checkpoint: the first rank whose plain line is refused, and the state after. A line of a retired B-die may be
lost (R346), an uncorrectable one is (R357). -/
def State.releaseCkpt (l : Launch) (cp : Copy) : Option Nat × State → Nat × HeldLine → Option Nat × State
  | (bad, s), (rank, h) =>
      let c := cp.core? rank
      let (may, s1) := if (c.map fun d => s.rel.dieRetired (dieOf d.phys)).getD false then s.freeB else (false, s)
      let torn := (c.map fun d => d.lineBad h).getD false
      let (no, s2) := s1.releaseLine l rank rank h (may || torn)
      (if no || torn then some (bad.getD rank) else bad, s2)

/-- The commit of a checkpoint: held stores are released, the snapshot is taken, the log empties. A plain line that is refused ends the
launch when all else is performed (R362). -/
def State.commitCheckpoint (s : State) (l : Launch) (cp : Copy) : State :=
  let lines := cp.cores.flatMap fun c => c.muslin.lines.map fun h => (c.rank, h)
  let all := l.copies.flatMap fun c => c.cores.map fun k => k.phys
  let (bad, s0) := lines.foldl (State.releaseCkpt l cp) (none, s.settleLag all)
  let s1 := s0.settleOwn all
  match bad with
  | some rank => s1.takeFault (.core { lid := l.lid, role := .primary, rank := rank }) { Trap.mk' 0x10 with src := 5, durable := true }
  | none =>
    (let b := s1.pbBinding l.part.toNat
     let up (c : Core) : Core := { c with loop := { c.loop with ckpt := c.loop.ckpt + 1, ckptPending := false, pushes := 0 } }
     let snap : Snapshot :=
       { cores := cp.cores.map fun c => (up c).snapOf,
         ranges := (cp.carried l).map fun r => (r.1, r.2.1, ((cp.pad? r.1).map fun p => p.mem.bytes r.2.1 r.2.2).getD []),
         binding := b, bad := false }
     let lap := ((cp.cores.head?).map fun c => c.loop.lap).getD 0
     let s2 := s1.modLaunch l.lid fun m =>
       { m with state := .running, snap := some snap, log := [], dues := [], redo := false, laps := lap, watchdogs := 0, torns := 0,
                noprogress := 0, guarded := true,
                copies := m.copies.map fun c =>
                  { c with binding := b, replay := 0, cores := c.cores.map fun k => k.afterCheckpoint l.lrec s.cc } }
     s2.endLag l.lid false)

/-- Take the completions noted at some barriers of a core. -/
def takeBars (k : CoreRef) : List (BitVec 7) → Act Unit
  | [] => pure ()
  | b :: t => do
      takeNoted k b none
      takeBars k t

/-- The completions noted for a token barrier that this checkpoint takes first (R349). -/
def State.takeNotedAll (s : State) (l : Launch) : List Role → Bool × State
  | [] => (true, s)
  | r :: t =>
      let k : CoreRef := { lid := l.lid, role := r, rank := 0 }
      let bars := ((s.core? k).map fun c => (c.sync.noted.map fun g => g.1).eraseDups).getD []
      match takeBars k bars s with
      | .ok (_, s1) => s1.takeNotedAll l t
      | .error (.trap x, s1) => (false, s1.takeFault (.core k) x)
      | .error (.hold, s1) => (false, (s1.takeNotedAll l t).2)

/-- The bank of an uncorrectable word that the snapshot of a copy would read (R376). -/
def Copy.badCarried (cp : Copy) (l : Launch) : Option (BitVec 16) :=
  (cp.carried l).findSome? fun r => (cp.pad? r.1).bind fun p =>
    if p.mem.badIn r.2.1 r.2.2 then some (padUnit p (p.mem.badWord r.2.1 r.2.2 none)) else none

/-- CHECKPOINT_COMMIT (R289). In class D the two copies are compared first (R365, R369). -/
def execCheckpointCommit (lid : Nat) (s : State) : Host.Outcome State Fault Refusal :=
  .next (match s.launch? lid with
    | none => s
    | some l =>
        if l.state != .checkpointing || l.third.isSome || !l.deferred.isEmpty || !(l.copies.all fun c => c.drained) then s
        else
          match s.takeNotedAll l (l.copies.map fun c => c.role) with
          | (false, s1) => s1
          | (true, s1) =>
              let s2 := s1.modLaunch lid fun m => { m with copies := m.copies.map Copy.settle }
              match s2.launch? lid with
              | none => s2
              | some m =>
                  match m.copy? .primary with
                  | none => s2
                  | some a =>
                      if !s2.linesReady (a.cores.flatMap fun c => c.muslin.lines.map fun h => (c.rank, h)) then s1
                      else match a.badCarried m, m.copy? .shadow with
                        | some u, _ => s2.takeFault (.core { lid := lid, role := .primary, rank := 0 }) { Trap.mk' 0x10 with src := 5, units := [u] }
                        | none, none => s2.commitCheckpoint m a
                        | none, some b =>
                            if a.ckptSig = b.ckptSig then s2.commitCheckpoint m a
                            else
                              (let d : Third := { rank := differing a b, ckpt := true, sp := a.ckptSig, ss := b.ckptSig, aborts := 0, since := s.cc }
                               let s3 := s2.modLaunch lid fun m => { m with third := some d }
                               match s3.launch? lid with
                               | some m3 => s3.placeThird m3
                               | none => s3))

/-! ### Resume (R292) -/

/-- Start a group again from its last checkpoint on a placement of its copies. -/
def State.resumeOn (s : State) (l : Launch) (sides : List Place) : State :=
  (s.modLaunch l.lid fun m =>
    { m with state := .running, copies := (m.copies.zip sides).map fun c => resumeCopy s l c.1 c.1.role c.2,
             fault := faultWord l.cause, guarded := false, expired := false, guardFrom := s.cc, dues := [], preempt := false,
             forced := false }).syncCores (sides.flatMap fun x => x.cores)

/-- The redo placement of R371 and R411: of the copy that holds the suspect, the others staying where they are. -/
def State.redoPlace (s : State) (l : Launch) : Option (List Place) :=
  match l.copies.find? fun cp => (s.redoCoresOf l cp).isSome with
  | none => none
  | some cp => (s.redoCoresOf l cp).map fun cs => l.copies.map fun x => if x.role = cp.role then { x.place with cores := cs } else x.place

/-- The placement a resume uses: after Checksum Located the redo placement, or where there is none the group's own; else the one named,
or the group's own. -/
def State.resumePlace (s : State) (l : Launch) (place : List Nat) : Option (List Place) :=
  let own := l.copies.map Copy.place
  let named := placeOf' l.packet place
  let ok (x : List Place) : Bool := s.placeOk l.part.toNat l.packet [l.lid] x
  let keep : Bool := l.state == .resuming && ok own
  let redo : Bool := l.state == .resuming && (l.cause.map fun c => c.1) == some 0x11
  match (if redo then s.redoPlace l else none) with
  | some x => if ok x then some x else if keep then some own else if ok named then some named else none
  | none => if redo && keep then some own else if ok named then some named else if keep then some own else none

/-- GROUP_RESUME: a stopped or parked group goes on from its last checkpoint; a third execution that is not placed, or waits for what
aborted it, is placed (R369). -/
def execGroupResume (lid : Nat) (place : List Nat) (s : State) : Host.Outcome State Fault Refusal :=
  .next (match s.launch? lid with
    | none => s
    | some l =>
        if !s.fwServes then s
        else if (l.state == .running || l.state == .checkpointing) && l.third.isSome && (l.copy? .third).isNone then
          (if l.deferred.isEmpty && (l.third.map fun t => s.waitOver l.ctx t.wait).getD true then s.placeThird l else s)
        else if l.state != .resuming && l.state != .parked then s
        else if s.firm.save.isSome || s.cxState l.ctx != 1 || !s.parkOver l then s
        else if l.state == .parked && s.headBefore l.part (s.level l.queue l.packet) then s
        else if (l.snap.map fun n => n.bad).getD false then s.badSnapshot l
        else match s.resumePlace l place with
          | some x => s.resumeOn l x
          | none =>
              if !s.everPlaceable l.part.toNat l.packet then s.abort lid 0 5 (.stop (Ending.zero 2))
              else if l.state == .parked && !s.placeable l.part.toNat l.packet [] then s.requestPreempt l.queue l.packet
              else s)

/-! ### Completion (R301) -/

/-- Whether every core of a launch has executed EXIT. -/
def Launch.allExited (l : Launch) : Bool := l.copies.all fun cp => cp.cores.all fun c => c.exited && c.commit == .idle

/-- LAUNCH_COMPLETION: once the memory of its record is ready (R406). -/
def execLaunchCompletion (lid : Nat) (s : State) : Host.Outcome State Fault Refusal :=
  .next (match s.launch? lid with
    | none => s
    | some l =>
        if !s.fwServes || !s.dpaReady (s.recordAt l.queue l.slot) then s
        else if l.state == .done then s.completeLaunch l
        else if l.state == .running && l.allExited && l.third.isNone && l.deferred.isEmpty then s.completeLaunch l
        else s)

/-! ### Timers -/

/-- QUIESCENCE_WATCHDOG (R302): a core's timer has reached its limit. It stands while the core waits at a checkpoint, and
for the pair while a third execution decides (R369). -/
def execQuiescenceWatchdog (k : CoreRef) (s : State) : Host.Outcome State Fault Refusal :=
  .next (match s.launch? k.lid, s.core? k with
    | some l, some c =>
        if (l.state == .running || l.state == .checkpointing) && !c.faulted && c.block != .ckpt && !c.exited && (l.third.isNone || k.role == .third) &&
            c.watch + Config.watchdogCc ≤ s.cc then
          s.takeFault (.core k) (Trap.mk' 0x14 0#64 5)
        else s
    | _, _ => s)

/-- WFE_TIMEOUT (R166). -/
def execWfeTimeout (w : Waiter) (s : State) : Host.Outcome State Fault Refusal :=
  let over' (b : Block) : Bool := match b with
    | .wfe since _ => decide (since + Config.wfeCc ≤ s.cc)
    | .none => false
    | .token _ _ _ => false
    | .ckpt => false
  .next (match w with
    | .core k => (match s.core? k with
        | some c => if over' c.block then s.modCore k Core.wake else s
        | none => s)
    | .anole a => if over' s.anoles[a.toNat].block then s.modAnole a Anole.wake else s)

end Sys2Proof.Machine
end

