-- ==== Sys2Proof/Machine/RelEvents.lean ====
section
/-! DEFINITION. Class D comparison and the third execution (R368, R369), spare banks (R380), and upsets (R357, R358,
R399). -/

namespace Sys2Proof.Machine

/-! ### CLASS_D_COMPARE (R368) -/

/-- The signature of a core that waits at a commit point beyond the log, once the commands of the segments it releases have
completed. -/
def Copy.waitSig (cp : Copy) (logged rank : Nat) : Option (OpDesc × BitVec 64) :=
  match cp.core? rank with
  | none => none
  | some c => if cp.replay ≠ logged || cp.releaseWaits c then none else c.commit.waitsWith.map fun o => (o, cp.commitSig c o)

/-- Both copies wait at a commit point of a core: what the primary waits with, and their signatures. -/
def Launch.pairSigs (l : Launch) (rank : Nat) : Option (OpDesc × BitVec 64 × BitVec 64) :=
  match (l.copy? .primary).bind fun c => c.waitSig l.log.length rank, (l.copy? .shadow).bind fun c => c.waitSig l.log.length rank with
  | some a, some b => some (a.1, a.2, b.2)
  | _, _ => none

/-- The primary's commit point closes: the release of its segments begins, and its effect may be performed then. The shadow's are
discarded when it takes the logged result. -/
def closePair (k : CoreRef) (o : OpDesc) : Act Unit := do
  let (_, cp, c) ← ctxOf k
  closeRegion k o
  modify fun s => s.settleLag (s.agentsOf k ++ s.ownersOf k (cp.passedSigs c))

/-- CLASS_D_COMPARE. -/
def execClassDCompare (lid rank : Nat) (s : State) : Host.Outcome State Fault Refusal :=
  .next (match s.launch? lid with
    | none => s
    | some l =>
        if l.packet.prot != 2 || l.third.isSome || !l.deferred.isEmpty || !(l.state == .running || l.state == .checkpointing) then s
        else match l.pairSigs rank with
          | none => s
          | some (o, sp, ss) =>
              let k : CoreRef := { lid := lid, role := .primary, rank := rank }
              if sp = ss then runStep (.core k) (closePair k o) s
              else
                (let d : Third := { rank := rank, ckpt := false, sp := sp, ss := ss, aborts := 0, since := s.cc }
                 let s1 := s.modLaunch lid fun m => { m with third := some d }
                 match s1.launch? lid with
                 | some m => s1.placeThird m
                 | none => s1))

/-! ### THIRD_EXECUTION_DECISION (R369) -/

/-- The third execution's signature where it has reached the point to decide. -/
def Launch.thirdSig (l : Launch) (t : Third) : Option (BitVec 64) :=
  match l.copy? .third with
  | none => none
  | some c =>
      if t.ckpt then (if c.replay = l.log.length && c.drained && c.cores.all (fun k => k.block == .ckpt) then some c.ckptSig else none)
      else (c.waitSig l.log.length t.rank).map fun x => x.2

/-- The unit of a copy's core. -/
def Launch.unitOf (l : Launch) (r : Role) (rank : Nat) : BitVec 16 :=
  unitId 1 ((((l.copy? r).bind fun c => c.core? rank).map fun c => c.phys).getD 0)

/-- The third execution's group replaces the copy that lost; the watchdogs of the pair go on where they stood (R369). -/
def Launch.replaceBy (l : Launch) (loser : Role) (t : Third) (cc : Nat) : Launch :=
  let late (c : Copy) : Copy := { c with cores := c.cores.map fun k => { k with watch := k.watch + (cc - t.since) } }
  match l.copy? .third with
  | some c =>
      { l with third := none,
               copies := (l.copies.filter fun x => x.role != .third).map fun x => if x.role = loser then { c with role := loser } else late x }
  | none => l

/-- What named the third execution's cores names those of the copy it has become. -/
def State.renameThird (s : State) (lid : Nat) (role : Role) : State :=
  let ref (k : CoreRef) : CoreRef := if k.lid = lid && k.role == .third then { k with role := role } else k
  { s with shoots := s.shoots.map fun d => { d with waiting := d.waiting.map ref },
           link := { s.link with reqs := s.link.reqs.map fun r => { r with who := match r.who with
             | .core k => .core (ref k)
             | .vec k => .vec (ref k)
             | .anole a => .anole a
             | .none => .none } } }

/-- The decision for a loser: score, hold, records, replacement. -/
def State.decideThird (s : State) (l : Launch) (t : Third) (loser : Role) : State :=
  let u := l.unitOf loser t.rank
  let w := l.unitOf (otherRole loser) t.rank
  let s1 := s.detect (s.ptHost l.part.toNat) l.ident 18 0x13 u w 0 [(u, 8)] [u]
  (((s1.forget l.lid fun r => r == loser).modLaunch l.lid fun m => { m.replaceBy loser t s.cc with unit := u.toNat }).renameThird l.lid loser).sweepRetired

/-- THIRD_EXECUTION_DECISION. -/
def execThirdExecutionDecision (lid : Nat) (s : State) : Host.Outcome State Fault Refusal :=
  .next (match s.launch? lid with
    | none => s
    | some l =>
        match l.third with
        | none => s
        | some t =>
            match l.thirdSig t with
            | none => s
            | some st =>
                if st = t.sp then s.decideThird l t .shadow
                else if st = t.ss then s.decideThird l t .primary
                else
                  (let us := [Role.primary, .shadow, .third].map fun r => l.unitOf r t.rank
                   let low := us.foldl (fun a b => if b.toNat < a.toNat then b else a) (us.headD 0#16)
                   let s1 := s.detect (s.ptHost l.part.toNat) l.ident 19 0x13 low 0#16 0 (us.map fun u => (u, 2)) []
                   let s2 := s1.modLaunch lid fun m => { m with unit := low.toNat }
                   let at' := (((l.copy? .primary).bind fun c => c.core? t.rank).map fun c => (c.row, c.col)).getD (0, 0)
                   (s2.kill lid (Trap.mk' 0x13) at'.1 at'.2).sweepRetired))

/-! ### BANK_SPARE_REPLACE (R380) -/

/-- Whether a cluster or die scratchpad holds a grant. -/
def State.padGranted (s : State) (u : BitVec 16) : Bool :=
  if unitKind u = 9 then grantedOn (s.holders []) false (unitIdx u / 256) != 0
  else grantedOn (s.holders []) true ((unitKind u - 7) * 64 + unitIdx u / 64) != 0

/-- A chiplet retires, with its record of kind 21 (R381, R383). -/
def State.retireDie (s : State) (d : Nat) : State :=
  let u := unitId 10 d
  let s1 := { s with rel := s.rel.modUnit u fun x => { x with retired := true } }
  let s2 := s1.postEvent [0#1, 1#1] (reWords 21 0 u.toNat (s1.rel.unit u).score 0 0 0#64 s1.cc)
  (s2.sysSetF 8 d 1 0).sweepRetired

/-- BANK_SPARE_REPLACE: a fenced or held bank gives way to a spare once its scratchpad holds no grant; a fenced one of a die scratchpad
without a spare retires its chiplet. -/
def execBankSpareReplace (u : BitVec 16) (s : State) : Host.Outcome State Fault Refusal :=
  .next (
    let x := s.rel.unit u
    if !(7 ≤ unitKind u && unitKind u ≤ 9) || !unitOk u || !(x.fenced || x.held) then s
    else if s.rel.sparesUsed u < spareCount u then
      (if s.padGranted u then s
       else { s with rel := { (s.rel.modUnit u fun x => { x with score := 0, fenced := false, held := false, replaced := true }) with
                              spares := s.rel.spares ++ [u] } })
    else if unitKind u = 9 && x.fenced && !s.rel.dieRetired (unitIdx u / 256) then s.retireDie (unitIdx u / 256)
    else s)

/-! ### SOFT_ERROR (R357, R358) -/

/-- One more corrected error of a bank or stack in the flash record's counts. -/
def Reliab.corrected (r : Reliab) (i : Nat) : Reliab :=
  let n := ((r.ecc.find? fun p => p.1 == i).map fun p => p.2).getD 0
  { r with ecc := r.ecc.filter (fun p => p.1 != i) ++ [(i, n + 1)] }

/-- A vector result with some bits flipped in a 32-bit lane. -/
def LandKind.flip (w : LandKind) (lane : Nat) (f : BitVec 64) : LandKind :=
  match w with
  | .v r x d => .v r x (d ^^^ (((f.setWidth 32).setWidth 2048) <<< (32 * (lane % 64))))
  | .m r x d => .m r x (d ^^^ (((f.setWidth 4).setWidth 256) <<< (4 * (lane % 64))))
  | .a r d => .a r (d ^^^ f)
  | .k r d => .k r (d ^^^ f.setWidth 32)
  | .c r d => .c r (d ^^^ f.setWidth 32)
  | .flags g s => .flags g s

/-- Whether the residue check of a unit sees an error (R356, R358): `prod`, it struck the significand product. -/
def Residue.sees (u : Residue) (err : Nat) (prod : Bool) : Bool :=
  err % 3 != 0 && (match u with
    | .whole => true
    | .product => prod
    | .none => false)

/-- A vector result comes out wrong. In class S the residue check finds it where it covers the unit: the result is not written, and its
word has the fault (R358). -/
def State.landError (s : State) (k : CoreRef) (i lane : Nat) (flip : BitVec 64) (err : Nat) (prod : Bool) : State :=
  match s.launch? k.lid, s.core? k with
  | some l, some c =>
      (match c.eng.stream.bind fun st => st.landings[i]? with
       | none => s
       | some x =>
           if !engineLive l then s
           else if l.packet.prot = 1 && x.unit.sees err prod then
             (let s1 := { s with rel := s.rel.bump (c.phys * 64 + lane % 64) }
              let s2 := s1.modCore k fun c => { c with eng := { c.eng with stream := c.eng.stream.map fun st =>
                { st with landings := st.landings.eraseIdx i } } }
              s2.streamErr k { vecTrap 0x11 with units := [unitId 3 (c.phys * 8 + lane % 64 / 8)], spc := some x.spc.toNat })
           else s.modCore k fun c => { c with eng := { c.eng with stream := c.eng.stream.map fun st =>
             { st with landings := st.landings.modify i fun y => { y with what := y.what.flip lane flip } } } })
  | _, _ => s

/-- Whether a command converts or computes with units that no residue covers (Table 10-1). -/
def Cmd.uncovered (m : Cmd) : Bool := engineSrc m.op == 4 || m.op == .adrain

/-- A byte that such a command has computed comes out wrong. -/
def Cmd.spoil (m : Cmd) (i byte : Nat) (flip : Byte) : Cmd :=
  if m.uncovered then { m with writes := m.writes.modify i fun w => { w with data := w.data.modify byte fun b => b ^^^ flip } } else m

/-- SOFT_ERROR. -/
def execSoftError (x : SoftLoc) (s : State) : Host.Outcome State Fault Refusal :=
  .next (match x with
    | .dram w => { s with dram := s.dram.upset w }
    | .cwn die w => if die = 0 then { s with cwnN := s.cwnN.upset w } else { s with cwnS := s.cwnS.upset w }
    | .pad lid role p w => s.modCopy { lid := lid, role := role, rank := 0 } fun c => c.modPad p fun q => { q with mem := q.mem.upset w }
    | .acc k w => s.modCore k fun c => { c with tens := { c.tens with acc := c.tens.acc.upset w } }
    | .vim k w => s.modCore k fun c => { c with vim := c.vim.upset w }
    | .muslin k i => s.modCore k fun c => match c.muslin.lines[i / 8]? with
        | some h => { c with muslin := { c.muslin with bad := c.muslin.bad ++ [h.ptr + BitVec.ofNat 64 (8 * (i % 8))] } }
        | none => c
    | .snapshot lid => s.modLaunch lid fun l => { l with snap := l.snap.map fun n => { n with bad := true } }
    | .control k src => s.modCore k fun c => { c with parity := c.parity ++ [src] }
    | .accValue k b flip => s.modCore k fun c =>
        { c with tens := { c.tens with acc := c.tens.acc.set (b % 0x80000) (c.tens.acc.get (b % 0x80000) ^^^ flip) } }
    | .corrected i => { s with rel := s.rel.corrected i }
    | .result k flip err => s.modCore k fun c => { c with wrong := some (flip, err) }
    | .landing k i lane flip err prod => s.landError k i lane flip err prod
    | .written k cmd i byte flip => s.modCore k fun c => c.modCmd cmd fun m => m.spoil i byte flip
    | .normAdd k cmd i v => s.modCore k fun c => c.modCmd cmd fun m => { m with normAdds := m.normAdds.modify i fun _ => v }
    | .flash w => s.modFirm fun f => { f with flash := f.flash.upset w })

/-- LINK_FLIT_ERROR (R399): the link layer discards the flit and sends it again in order; nothing else changes. -/
def execLinkFlitError (_port : Nat) (_vc : BitVec 2) (s : State) : Host.Outcome State Fault Refusal := .next s

end Sys2Proof.Machine
end

