-- ==== Sys2Proof/Machine/HostEvents.lean ====
section
/-! DEFINITION. Host accesses through BAR 4 and BAR 2 (R384 to R386, R422) and the notify messages of launch queues
(R392). -/

namespace Sys2Proof.Machine

/-- Bytes that a host operation touches. -/
def hostBytes : HostOp → Nat
  | .read n => n
  | .write bs => bs.length
  | .fetchAdd wide _ => if wide then 8 else 4
  | .swap wide _ => if wide then 8 else 4
  | .cas wide _ _ => if wide then 8 else 4

/-- The right it needs (R389). -/
def hostRight : HostOp → Right
  | .read _ => .read
  | .write _ => .write
  | .fetchAdd _ _ => .atomic
  | .swap _ _ => .atomic
  | .cas _ _ _ => .atomic

/-- The AtomicOp it is, if it is one (R318, R384). -/
def hostAmo : HostOp → Option Amo
  | .read _ => none
  | .write _ => none
  | .fetchAdd wide v => (let n := if wide then 8 else 4
                         some { op := .add, n := n, opnd := v.toNat % 2 ^ (8 * n), cmp := 0 })
  | .swap wide v => (let n := if wide then 8 else 4
                     some { op := .xchg, n := n, opnd := v.toNat % 2 ^ (8 * n), cmp := 0 })
  | .cas wide c v => (let n := if wide then 8 else 4
                      some { op := .cas, n := n, opnd := v.toNat % 2 ^ (8 * n), cmp := c.toNat % 2 ^ (8 * n) })

/-- An AtomicOp is naturally aligned (PCI Express; log entry 30): others are no request. -/
def hostAligned (op : HostOp) (off : Nat) : Bool := (hostAmo op).isNone || off % hostBytes op == 0

/-- The host of a function. -/
def hostOf (f : BitVec 5) : BitVec 1 := BitVec.ofNat 1 (f.toNat / 16)

/-- Give a host the answer to a read: data, data-poisoned bit. -/
def State.answerHost (s : State) (f : BitVec 5) (bs : List Byte) (ep : Bool) : State :=
  { s with host := { s.host with reads := s.host.reads ++ [(f, bs, ep)] } }

/-- All-ones data for what an operation reads; a write gets no answer. -/
def State.answerOnes (s : State) (f : BitVec 5) (op : HostOp) (ep : Bool) : State :=
  match op with
  | .write _ => s
  | _ => s.answerHost f (List.replicate (hostBytes op) 0xFF#8) ep

/-- A refused access (R386). -/
def State.refuseHost (s : State) (f : BitVec 5) (op : HostOp) : State := (s.answerOnes f op false).refuse (hostOf f)

/-- An access that meets an uncorrectable word (R422): a poisoned read or a dropped write, and a kind-22 event. -/
def State.hostBad (s : State) (f : BitVec 5) (op : HostOp) : State :=
  (s.answerOnes f op true).postEvent [hostOf f] (reWords 22 0x10 0 0 0 0 0#64 s.cc)

/-- Whether an operation on `n` bytes meets an uncorrectable word: a write only when it covers one in part. -/
def Store.stops (m : Store) (op : HostOp) (a : Nat) : Bool :=
  match op with
  | .write bs => m.partBad a bs.length
  | _ => m.badIn a (hostBytes op)

/-- Whether a host function holds a right on every 64 MiB region that bytes of device memory lie in. -/
def State.hostMay (s : State) (f : BitVec 5) (d n : Nat) (r : Right) : Bool :=
  (List.range (n / 0x4000000 + 2)).all fun i =>
    let a := if i = 0 then d else (d / 0x4000000 + i) * 0x4000000
    dpaOk (min a (d + n - 1)) && s.dpaRight f.toNat (min a (d + n - 1)) r

/-- The write of a host function, or the write of its AtomicOp, to device memory: after its earlier ones, as PCI Express posted writes
are (R322, R385). -/
def State.hostReady (s : State) (f : BitVec 5) : State := s.settleLag [hostAgent f.toNat]

/-- HOST_APERTURE_ACCESS: an access through BAR 4 of function `f`, performed at its home without being held (R385). -/
def execHostApertureAccess (f : BitVec 5) (off : Nat) (op : HostOp) (s : State) : Host.Outcome State Fault Refusal :=
  let n := hostBytes op
  let d := s.sysF (apOff f) 36 12 * 2 ^ 36 + off
  let me := hostAgent f.toNat
  .next (if n = 0 || 2 ^ 36 < off + n || !hostAligned op off then s
    else if !(dpaOk (d + n - 1) && s.hostMay f d n (hostRight op)) then s.refuseHost f op
    else if !s.dpaReady d || !s.dpaReady (d + n - 1) then s
    else if s.dram.stops op d then s.hostBad f op
    else match op with
      | .read m =>
          State.answerHost { s with lags := s.lags.map fun g => if g.touches d m then g.show me true else g } f (s.dpaBytes d m) false
      | .write bs => ((s.hostReady f).overtake d n).outsideLag [me] true d bs
      | _ =>
          match hostAmo op with
          | some x => (let (old, s2) := (s.hostReady f).amoAt x d [me] true
                       s2.answerHost f old false)
          | none => s)

/-- An access through BAR 2, the coherent window of the port's I/O chiplet (R385). -/
def hostWindow (f : BitVec 5) (off : Nat) (op : HostOp) (s : State) : State :=
  let n := hostBytes op
  let die := f.toNat / 16
  let may := (List.range (n / 65536 + 2)).all fun i =>
    s.right 0x01241000 (cwnTarget die (min (off + 65536 * i) (off + n - 1))) f.toNat (hostRight op)
  if n = 0 || 0x200000 < off + n || !hostAligned op off then s
  else if !may then s.refuseHost f op
  else if (s.cwn die).stops op off then s.hostBad f op
  else match op with
    | .read m => s.answerHost f ((s.cwn die).bytes off m) false
    | .write bs => (s.hostReady f).cwnPut die off bs
    | _ =>
        match hostAmo op with
        | some x =>
            (let old := (s.cwn die).bytes off n
             ((s.hostReady f).cwnPut die off (x.apply old)).answerHost f old false)
        | none => s

/-- An access through BAR 0, SYS space (R7, R385, R386): aligned and of 1, 2, 4 or 8 bytes. -/
def hostSys (f : BitVec 5) (off : Nat) (op : HostOp) (s : State) : State :=
  let n := hostBytes op
  let m : BitVec 7 := f.setWidth 7
  let old := natLe n (fieldNat (s.sysW off) (off % 8 * 8) (8 * n))
  if !([1, 2, 4, 8].contains n) || off % n ≠ 0 || 0x02000000 < off + n then s
  else match op with
    | .read _ => if s.sysRight f.toNat off .read then s.answerHost f old false else s.refuseHost f op
    | .write bs => s.outsideSys m off n (BitVec.ofNat 64 (leNat bs))
    | _ =>
        if !(s.sysRight f.toNat off .read && s.sysRight f.toNat off .write && s.claimRight f.toNat off) then s.refuseHost f op
        else match hostAmo op with
          | some x => (s.outsideSys m off n (BitVec.ofNat 64 (leNat (x.apply old)))).answerHost f old false
          | none => s

/-- HOST_WINDOW_ACCESS: an access of function `f` through BAR 2 or BAR 0. -/
def execHostWindowAccess (f : BitVec 5) (x : BarAddr) (op : HostOp) (s : State) : Host.Outcome State Fault Refusal :=
  .next (match x with
    | .sys off => hostSys f off op s
    | .window off => hostWindow f off op s)

/-- MSIX_NOTIFY (R392): the message of the oldest completion record that has been performed, when the queue's notify
entry is enabled. -/
def execMsixNotify (s : State) : Host.Outcome State Fault Refusal :=
  .next (match s.host.notify with
    | [] => s
    | q :: t =>
        (let s1 : State := { s with host := { s.host with notify := t } }
         if s.sysF (ntOff q) 16 1 = 1 then
           s1.sendMsix (BitVec.ofNat 5 (s.sysF (ntOff q) 11 5)) (BitVec.ofNat 11 (s.sysF (ntOff q) 0 11))
         else s1))

end Sys2Proof.Machine
end

