-- ==== Sys2Proof/Machine/LinkEvents.lean ====
section
/-! DEFINITION. Messages of the Igsan link as they arrive (R397 to R400, Tables 11-5 and 11-6): requests of other nodes at
their home here, and the answers to this device's requests. -/

namespace Sys2Proof.Machine

/-! ### Requests at their home -/

/-- Whether a message has reached the node it names. -/
def State.forMe (s : State) (m : LinkMsg) : Bool := s.link.nodeSet && m.dst == s.node

/-- The master of a remote access: the valid remote-master slot that names its node and partition (R388). -/
def State.remoteMaster (s : State) (m : LinkMsg) : Option Nat :=
  ((List.range 64).find? fun i =>
    let w := s.sysW (rmOff (BitVec.ofNat 6 i))
    bitAt w 63 && fieldNat w 16 12 == m.src.toNat && fieldNat w 0 4 == m.part.toNat).map fun i => 64 + i

/-- Answer a request on channel 1, its tag echoed. -/
def State.respond (s : State) (m : LinkMsg) (op : Nat) (stat : Byte) (payload : List Byte) : State :=
  s.transmit
    { dst := m.src, src := m.dst, part := m.part, vc := 1#2, op := BitVec.ofNat 6 op, tag := m.tag, stat := stat,
      len := BitVec.ofNat 8 (payload.length / 4), addr := m.addr, payload := payload }

/-- A refused request: a NACK with status 0x05 (R400). -/
def State.nack (s : State) (m : LinkMsg) : State := s.respond m 10 0x05#8 []

/-- The DPA that `LH.addr` names. -/
def linkDpa (m : LinkMsg) : Nat := fieldNat m.addr 0 48

/-- Check a request to memory and serve it: not at all when it is not for this node, refused without a node identifier,
a named master or its right, stalled while the memory is not ready (R406). -/
def State.serveMem (s : State) (m : LinkMsg) (n : Nat) (r : Right) (act : Nat → State → State) : State :=
  if !s.link.nodeSet then s.nack m
  else if m.dst ≠ s.node then s
  else match s.remoteMaster m with
    | none => s.nack m
    | some mm =>
        let d := linkDpa m
        if !dpaOk d || !dpaOk (d + n - 1) || d % n ≠ 0 || !s.dpaRight mm d r then s.nack m
        else if !s.dpaReady d then s
        else act d s

/-- LINK_READ: one 64-byte line. -/
def execLinkRead (m : LinkMsg) (s : State) : Host.Outcome State Fault Refusal :=
  .next (s.serveMem m 64 .read fun d t =>
    if t.dram.badIn d 64 then t.respond m 1 0x10#8 []
    else State.respond { t with lags := t.lags.map fun g => if g.touches d 64 then g.show linkAgent false else g } m 1 0#8 (t.dpaBytes d 64))

/-- LINK_MASKED_WRITE: a byte mask and 64 bytes; a line that covers an uncorrectable word in part is refused (R362). -/
def execLinkMaskedWrite (m : LinkMsg) (s : State) : Host.Outcome State Fault Refusal :=
  .next (s.serveMem m 64 .write fun d t =>
    let mask : BitVec 64 := BitVec.ofNat 64 (leNat (m.payload.take 8))
    let data : BitVec 512 := BitVec.ofNat 512 (leNat ((m.payload.drop 8).take 64))
    let h : HeldLine := { ptr := 0#64, mask := mask, data := data, seg := 0, record := 0, slotOf := none, node := none, dpa := d }
    if t.refuses h then t.respond m 3 0x10#8 []
    else (((t.overtake d 64).lagMasked [linkAgent] d mask data).saveTouch d 64).respond m 3 0#8 [])

/-- LINK_ATOMIC: performed once at its home (R318, R320). -/
def execLinkAtomic (m : LinkMsg) (s : State) : Host.Outcome State Fault Refusal :=
  .next (match amoOfPayload m.payload with
    | none => if s.forMe m then s.nack m else s
    | some x =>
        if !(x.n == 4 || x.n == 8 || x.n == 16) then (if s.forMe m then s.nack m else s)
        else s.serveMem m x.n .atomic fun d t =>
          if (d / 2 ^ 44 == 2 || d / 2 ^ 44 == 3) && !x.hostOk then t.nack m
          else if t.dram.badIn d x.n then t.respond m 5 0x10#8 []
          else (let (old, u) := t.amoAt x d [linkAgent] false
                u.respond m 5 0#8 (natLe 16 (leNat old))))

/-- LINK_ENQUEUE (R321): the status of R159 in `LH.stat`. -/
def execLinkEnqueue (m : LinkMsg) (s : State) : Host.Outcome State Fault Refusal :=
  .next (if !s.link.nodeSet then s.nack m
    else if m.dst ≠ s.node then s
    else match s.remoteMaster m with
      | none => s.nack m
      | some mm =>
          let qi := fieldNat m.addr 0 16
          let q := BitVec.ofNat 12 qi
          if qi < 4096 && !s.right 0x01280000 qi mm .enqueue then s.nack m
          else if qi < 4096 && !s.dpaReady (s.slotAt q (s.qClaim q)) then s
          else (let (st, s1) := s.enqueueAt m.addr (m.payload.take 64)
                s1.respond m 7 (BitVec.ofNat 8 st) []))

/-- LINK_BARRIER_ARRIVAL (R144): discarded, with status 0x0F, when the launch is unknown. -/
def execLinkBarrierArrival (m : LinkMsg) (s : State) : Host.Outcome State Fault Refusal :=
  let id : Word := BitVec.ofNat 64 (leNat (m.payload.take 8))
  .next (if !s.link.nodeSet then s.nack m
    else if m.dst ≠ s.node then s
    else match s.remoteMaster m with
      | none => s.nack m
      | some mm =>
          let part := (s.byIdent id).map fun l => l.part.toNat
          if (part.map fun p => !s.right 0x01245000 p mm .enqueue).getD false then s.nack m
          else (let (ok, s1) := s.receiveArrival id m.addr none
                s1.respond m 9 (if ok then 0#8 else 0x0F#8) []))

/-! ### Answers to this device's requests -/

/-- The op that answers a request, a NACK aside. -/
def answerOp (op : BitVec 6) : BitVec 6 := op + 1#6

/-- Drop a request that is answered. -/
def State.dropReq (s : State) (r : LinkReq) : State :=
  { s with link := { s.link with reqs := s.link.reqs.filter fun x => x.tag != r.tag } }

/-- A load's line: its bytes, or the status of its failure. -/
def RemoteLine.fill (ls : List RemoteLine) (tag : BitVec 12) (stat : Byte) (payload : List Byte) : List RemoteLine :=
  ls.map fun x => if x.tag == tag then { x with data := if stat = 0#8 then some payload else none, stat := stat } else x

/-- A commit point's request is answered. -/
def CommitState.answer (c : CommitState) (tag : BitVec 12) (stat : Byte) (lo hi : Word) : CommitState :=
  match c with
  | .sent sig segs t => if t = tag then .answered sig segs stat lo hi else c
  | .idle => c
  | .waiting _ _ _ _ => c
  | .closed _ _ => c
  | .releasing _ _ _ => c
  | .answered _ _ _ _ _ => c

/-- A released store that its home refused: as a line refused at its home (R362): the record's slot is torn, or the launch
ends; a refused right is an Access Denied fault (R400). -/
def State.storeFailed (s : State) (r : LinkReq) (stat : Byte) : State :=
  match r.slotOf with
  | some (ctx, rec) => s.tear ctx rec
  | none =>
      match s.launch? r.lid with
      | none => s
      | some l =>
          if l.state == .done then s
          else s.coreFault { lid := r.lid, role := .primary, rank := r.rank }
            (if stat = 0x05#8 then Trap.mk' 0x05 r.addr else { Trap.mk' 0x10 r.addr with durable := true })

/-- A request ends with a status and a payload: its waiting load, commit point or store learns it. -/
def State.settleReq (s : State) (r : LinkReq) (stat : Byte) (payload : List Byte) : State :=
  let s1 := s.dropReq r
  if r.op = 2#6 then (if stat = 0#8 then s1 else s1.storeFailed r stat)
  else
    (let lo : Word := BitVec.ofNat 64 (leNat (payload.take 8))
     let hi : Word := BitVec.ofNat 64 (leNat ((payload.drop 8).take 8))
     match r.who with
     | .core k =>
         if r.op = 0#6 then s1.modCore k fun c => { c with remote := RemoteLine.fill c.remote r.tag stat payload }
         else s1.modCore k fun c => { c with commit := c.commit.answer r.tag stat lo hi }
     | .anole a =>
         if r.op = 0#6 then s1.modAnole a fun c => { c with remote := RemoteLine.fill c.remote r.tag stat payload }
         else s1.modAnole a fun c => { c with commit := c.commit.answer r.tag stat lo hi }
     | .vec _ => s1
     | .none => s1)

/-- A response or NACK: matched with its request by tag and node; one that matches none is dropped. -/
def State.takeAnswer (s : State) (m : LinkMsg) (isNack : Bool) : State :=
  if !s.forMe m then s
  else match s.link.reqs.find? fun r => r.tag == m.tag && r.node == m.src && (isNack || answerOp r.op == m.op) with
    | none => s
    | some r => s.settleReq r (if isNack && m.stat == 0#8 then 0x05#8 else m.stat) m.payload

/-- LINK_READ_RESPONSE. -/
def execLinkReadResponse (m : LinkMsg) (s : State) : Host.Outcome State Fault Refusal :=
  .next (s.takeAnswer { m with op := 1#6 } false)
/-- LINK_WRITE_ACKNOWLEDGEMENT. -/
def execLinkWriteAcknowledgement (m : LinkMsg) (s : State) : Host.Outcome State Fault Refusal :=
  .next (s.takeAnswer { m with op := 3#6 } false)
/-- LINK_ATOMIC_RESPONSE. -/
def execLinkAtomicResponse (m : LinkMsg) (s : State) : Host.Outcome State Fault Refusal :=
  .next (s.takeAnswer { m with op := 5#6 } false)
/-- LINK_ENQUEUE_RESPONSE. -/
def execLinkEnqueueResponse (m : LinkMsg) (s : State) : Host.Outcome State Fault Refusal :=
  .next (s.takeAnswer { m with op := 7#6 } false)
/-- LINK_ARRIVAL_ACKNOWLEDGEMENT. -/
def execLinkArrivalAcknowledgement (m : LinkMsg) (s : State) : Host.Outcome State Fault Refusal :=
  .next (s.takeAnswer { m with op := 9#6 } false)
/-- LINK_NACK (R400). -/
def execLinkNack (m : LinkMsg) (s : State) : Host.Outcome State Fault Refusal :=
  .next (s.takeAnswer { m with op := 10#6 } true)

/-- LINK_UNKNOWN_OP: dropped at the receiver (Table 11-5). -/
def execLinkUnknownOp (_m : LinkMsg) (s : State) : Host.Outcome State Fault Refusal := .next s

/-- REMOTE_RESPONSE_TIMEOUT: no response within 1 ms (Table 11-6). -/
def execRemoteResponseTimeout (tag : BitVec 12) (s : State) : Host.Outcome State Fault Refusal :=
  .next (match s.link.reqs.find? fun r => r.tag == tag with
    | none => s
    | some r => if r.since + Config.remoteCc ≤ s.cc then s.settleReq r 0x10#8 [] else s)

/-! ### Channels and ports -/

/-- A channel of a port is free again: its pause is forgotten, and what waited for it is sent in order. -/
def State.unpause (s : State) (port : Nat) (vc : BitVec 2) : State :=
  let mine (h : Nat × LinkMsg) : Bool := h.1 == port && h.2.vc == vc
  { s with link := { s.link with pauses := s.link.pauses.filter fun p => !(p.1 == port && p.2.1 == vc),
                                 out := s.link.out ++ s.link.held.filter mine, held := s.link.held.filter fun h => !mine h } }

/-- LINK_PAUSE: the sender starts no new flit of the channel for 1 µs, unless renewed (R400). -/
def execLinkPause (port : Nat) (vc : BitVec 2) (s : State) : Host.Outcome State Fault Refusal :=
  .next (if 18 ≤ port then s
    else { s with link := { s.link with
      pauses := (s.link.pauses.filter fun p => !(p.1 == port && p.2.1 == vc)) ++ [(port, vc, s.cc + Config.pauseCc)] } })

/-- LINK_RESUME. -/
def execLinkResume (port : Nat) (vc : BitVec 2) (s : State) : Host.Outcome State Fault Refusal := .next (s.unpause port vc)

/-- LINK_PAUSE_EXPIRY. -/
def execLinkPauseExpiry (port : Nat) (vc : BitVec 2) (s : State) : Host.Outcome State Fault Refusal :=
  .next (if s.link.pauses.any fun p => p.1 == port && p.2.1 == vc && p.2.2 ≤ s.cc then s.unpause port vc else s)

/-- LINK_PORT_DOWN (R398): the port's `ST.port` bit clears, and it is in no mask until it trains again. -/
def execLinkPortDown (port : Nat) (s : State) : Host.Outcome State Fault Refusal :=
  .next (if port < 18 then s.sysSetF 16 (14 + port) 1 0 else s)

/-- LINK_PORT_TRAINED (R398). -/
def execLinkPortTrained (port : Nat) (s : State) : Host.Outcome State Fault Refusal :=
  .next (if port < 18 then s.sysSetF 16 (14 + port) 1 1 else s)

end Sys2Proof.Machine
end

