-- ==== Sys2Proof/Machine/SpdmEvents.lean ====
section
/-! DEFINITION. The SPDM 1.3 responder on each PF's DOE mailbox (R403, R419). What a response says is the spec's; the
bytes around it are those of the SPDM standard or free (log entry 6). -/

namespace Sys2Proof.Machine

/-- Put a response on a host's DOE mailbox: version 1.3, code, two parameters, body. -/
def State.spdm (s : State) (h : BitVec 1) (code p1 p2 : Nat) (body : List Byte) : State :=
  { s with host := { s.host with doe := s.host.doe ++
      [(h, [0x13#8, BitVec.ofNat 8 code, BitVec.ofNat 8 p1, BitVec.ofNat 8 p2] ++ body)] } }

/-- Free bytes: a nonce, a signature, capability flags. -/
def freeBytes (n ctr : Nat) : List Byte := (List.range n).map fun i => Config.freeByte (ctr * 2 ^ 20 + i)

/-- Use one number of the free values. -/
def State.tick1 (s : State) : State := { s with freeCtr := s.freeCtr + 1 }

/-- Bytes of a digest, as its 384 bits stand from the most significant byte on. -/
def digestBytes (d : BitVec 384) : List Byte := (natLe 48 d.toNat).reverse

/-- SPDM_GET_VERSION: version 1.3 alone. -/
def execSpdmGetVersion (host : BitVec 1) (s : State) : Host.Outcome State Fault Refusal :=
  .next (s.spdm host 0x04 0 0 [0x00#8, 0x01#8, 0x00#8, 0x13#8])

/-- SPDM_GET_CAPABILITIES. -/
def execSpdmGetCapabilities (host : BitVec 1) (s : State) : Host.Outcome State Fault Refusal :=
  .next ((s.spdm host 0x61 0 0 (freeBytes 16 s.freeCtr)).tick1)

/-- SPDM_NEGOTIATE_ALGORITHMS: ECDSA P-384 and SHA-384 only. -/
def execSpdmNegotiateAlgorithms (host : BitVec 1) (s : State) : Host.Outcome State Fault Refusal :=
  .next ((s.spdm host 0x63 0 0 (natLe 4 0x80 ++ natLe 4 0x02 ++ freeBytes 20 s.freeCtr)).tick1)

/-- SPDM_GET_DIGESTS: SHA-384 of the identity certificate chain. -/
def execSpdmGetDigests (host : BitVec 1) (s : State) : Host.Outcome State Fault Refusal :=
  .next (s.spdm host 0x01 0 1 (digestBytes (Config.sha384 s.firm.certs)))

/-- SPDM_GET_CERTIFICATE: the identity certificate chain (R401). -/
def execSpdmGetCertificate (host : BitVec 1) (s : State) : Host.Outcome State Fault Refusal :=
  .next (s.spdm host 0x02 0 0 (natLe 4 s.firm.certs.length ++ s.firm.certs))

/-- SPDM_CHALLENGE: the chain's digest, a nonce, and a signature over them and the requester's nonce. -/
def execSpdmChallenge (host : BitVec 1) (nonce : List Byte) (s : State) : Host.Outcome State Fault Refusal :=
  .next ((s.spdm host 0x03 0 1 (digestBytes (Config.sha384 s.firm.certs) ++ freeBytes 32 s.freeCtr ++
    freeBytes 96 (s.freeCtr + leNat (nonce.take 32)))).tick1)

/-- The digest of the image a slot holds, as its signature covers it (R402). -/
def State.imageDigest (s : State) (i : BitVec 1) : BitVec 384 :=
  let o := slotOff i
  Config.sha384 (s.firm.flash.bytes o 64 ++ s.firm.flash.bytes (o + 4096) (fieldNat (s.firm.flash.word o) 32 32))

/-- Content of a measurement block (R403, R419). -/
def State.measurement (s : State) (block : Nat) : Option (List Byte) :=
  match block with
  | 1 => some (digestBytes Config.bootDigest)
  | 2 => some (if s.imageRuns then digestBytes (s.imageDigest (BitVec.ofNat 1 s.fwAct)) else [])
  | 3 => some (natLe 1 s.fwAct ++ natLe 1 (s.fwSst 0#1) ++ natLe 1 (s.fwSst 1#1) ++ [0#8] ++
               natLe 4 (s.fwVer 0#1) ++ natLe 4 (s.fwVer 1#1))
  | 4 => some (natLe 1 (s.sysF 0 16 8) ++ Config.serial)
  | _ => none

/-- One block of a measurements response: its number, its length, its content. -/
def blockBytes (i : Nat) (bs : List Byte) : List Byte := natLe 1 i ++ natLe 2 bs.length ++ bs

/-- SPDM_GET_MEASUREMENTS: one block, or all of them (0xFF), or their number (0). -/
def execSpdmGetMeasurements (host : BitVec 1) (block : Nat) (s : State) : Host.Outcome State Fault Refusal :=
  let all := ([1, 2, 3, 4].filterMap fun i => (s.measurement i).map fun b => blockBytes i b).flatten
  let ask : Option (List Byte) :=
    if block = 0 then some [] else if block = 0xFF then some all else (s.measurement block).map (blockBytes block)
  .next (match ask with
    | some bs => (s.spdm host 0x60 4 0 (bs ++ freeBytes 32 s.freeCtr ++ freeBytes 96 (s.freeCtr + 2 ^ 64))).tick1
    | none => s.spdm host 0x7F 0x01 0 [])

/-- SPDM_UNSUPPORTED_REQUEST: ERROR with UnsupportedRequest and the request's code. -/
def execSpdmUnsupportedRequest (host : BitVec 1) (code : Byte) (s : State) : Host.Outcome State Fault Refusal :=
  .next (s.spdm host 0x7F 0x07 code.toNat [])

end Sys2Proof.Machine
end

