-- ==== Sys2Proof/Machine/Fetch.lean ====
section
/-! DEFINITION. Fetching: which agents can run, the words at a program counter (R13, R49, R158, R396), breakpoints (R393,
R394), and the next word of a vector stream (R61, R63, R224). -/

namespace Sys2Proof.Machine

/-! ### Which agents can run -/

/-- Whether a core's control core can execute its next instruction: its launch runs, or it has a commit point in progress
that an abort waits for (R291); it is not stalled on a token, an event or a checkpoint, and has not exited. -/
def coreRunnable (s : State) (k : CoreRef) : Bool :=
  match s.launch? k.lid, s.core? k with
  | some l, some c => (engineLive l || (l.state == .aborting && c.commit.busy)) && !c.faulted && c.block == .none && !c.exited
  | _, _ => false

/-- Whether a stream can issue its next word. -/
def streamRunnable (s : State) (k : CoreRef) : Bool :=
  match s.launch? k.lid, s.core? k with
  | some l, some c =>
      (match c.eng.stream with
       | some st => engineLive l && !c.faulted && !st.ended && st.elastic.isNone && st.err.isNone &&
           ((c.cmd? st.cmd).map fun m => m.state == .running && m.err.isNone).getD false
       | none => false)
  | _, _ => false

/-- Whether an Anole core can execute: ready, an image runs, not halted, not in WFE. -/
def anoleRunnable (s : State) (a : BitVec 4) : Bool :=
  s.readyBit (40 + a.toNat) && s.imageRuns && !s.anoles[a.toNat].halted && s.anoles[a.toNat].block == .none

/-- Whether an agent can take a turn. -/
def runnable (s : State) (a : Agent) : Bool :=
  match a with
  | .core k => coreRunnable s k
  | .vec k => streamRunnable s k
  | .anole i => anoleRunnable s i
  | .none => false

/-! ### Scalar words -/

/-- The fetch unit of a core as an accessor: its remote lines are its own. -/
def fetchAcc (k : CoreRef) : Acc :=
  { k := k, who := { agent := .core k, src := 0, tlb := 0 }, unit := .control, owner := 2 ^ 20 }

/-- The aligned 8 bytes of code at a DPA of this device, as an agent fetches them: words overwritten may still be seen as they were,
unless a fence has covered the agent since and it has discarded what it had fetched (R158). -/
def codeDouble (agent d : Nat) : Act Word := do
  let s ← get
  holdIf (!s.dpaReady d)
  let olds := s.oldCode.filter fun e => e.word == d / 8 && !e.synced.contains agent
  let now := s.dramWord (d / 8 * 8)
  if olds.isEmpty then pure now
  else do
    let n ← chooseN
    pure ((olds.map fun e => e.old).getD (n % (olds.length + 1)) now)

/-- The 4-byte word at a DPA, from the 8 bytes fetched last when it lies in them; these 8 bytes as well. -/
def codeWord (agent d : Nat) (last : Option (Nat × Word)) : Act (BitVec 32 × Option (Nat × Word)) := do
  let w ← (match last with
    | some (x, w) => if x = d / 8 then pure w else codeDouble agent d
    | none => codeDouble agent d : Act Word)
  pure (w.extractLsb' (d % 8 * 8) 32, some (d / 8, w))

/-- One word of code of a launch (R49). -/
def coreWord (k : CoreRef) (va : Nat) (last : Option (Nat × Word)) : Act (BitVec 32 × Option (Nat × Word)) := do
  let a := fetchAcc k
  raiseIf (decide (2 ^ 52 ≤ va)) (a.who.trap 0x04 va .fetch 0 0)
  let (l, cp, c) ← ctxOf k
  let ph ← translate a.who l cp va .fetch []
  match ph.node with
  | some n => do
      let got ← remoteLines a n va .fetch [ph.dpa / 64 * 64]
      let line := (got.head?.map fun g => g.2).getD []
      pure (BitVec.ofNat 32 (leNat ((line.drop (ph.dpa % 64)).take 4)), none)
  | none => do
      raiseIf ((← get).dram.badIn ph.dpa 4) { a.who.trap 0x10 va .fetch 0 0 with durable := true }
      codeWord c.phys ph.dpa last

/-- One word of code of an Anole core: VIRT is the DPA (R396). -/
def anoleWord (i : BitVec 4) (va : Nat) (last : Option (Nat × Word)) : Act (BitVec 32 × Option (Nat × Word)) := do
  raiseIf (decide (2 ^ 48 ≤ va) || !dpaOk va) (Trap.mk' 0x04)
  let s ← get
  raiseIf (s.dram.badIn va 4) (Trap.mk' 0x10)
  codeWord (anoleAgent i.toNat) va last

/-- The words of the instruction at an address: read on as far as the words read so far ask for (R49, R59). -/
def fetchWords (word : Nat → Option (Nat × Word) → Act (BitVec 32 × Option (Nat × Word))) (pc : Nat) :
    Nat → Option (Nat × Word) → List (BitVec 32) → Act (List (BitVec 32))
  | 0, _, ws => pure ws
  | n + 1, last, ws => do
      if wordsNeeded ws ≤ ws.length then pure ws
      else do
        let (w, last) ← word (pc + 4 * ws.length) last
        fetchWords word pc n last (ws ++ [w])

/-- What the words decode to; a refused encoding is Illegal Encoding where it is executed (R64). -/
def instrOf (ws : List (BitVec 32)) : Instr :=
  match decode ws with
  | .ok i => i
  | .error _ => .unassignedEncoding (ws.headD 0#32)

/-! ### Breakpoints (R393, R394) -/

/-- Executions of an address that a core has counted, and for how many the breakpoint there is silent. -/
def Core.breakAt (c : Core) (va : Word) : BreakCount := (c.breaks.find? fun b => b.va == va).getD { va := va, hits := 0, quiet := 0 }

/-- Change the count of an address. -/
def Core.setBreak (c : Core) (b : BreakCount) : Core :=
  { c with breaks := c.breaks.filter (fun x => x.va != b.va) ++ [b] }

/-- Whether a breakpoint register of a context names an address. -/
def State.breakSet (s : State) (ctx : BitVec 6) (va : Word) : Bool :=
  (List.range 8).any fun i => let w := s.sysW (bpOff ctx i); bitAt w 63 && fieldNat w 0 52 == va.toNat

/-- A breakpoint fires: the execution is counted, and the address is silent for so many executions in every copy once the
group resumes. -/
def fireBreak (k : CoreRef) (l : Launch) (va : Word) (n : Nat) : Act Unit := do
  modify fun s => l.copies.foldl (fun t cp => t.modCore { k with role := cp.role } fun c =>
    c.setBreak { va := va, hits := if cp.role = k.role then n else (c.breakAt va).hits, quiet := n }) s
  raiseC 0x18 va

/-- Breakpoint and parity checks of a core before its instruction (R357, R393). -/
def beforeFetch (k : CoreRef) : Act Unit := do
  let s ← get
  let (l, _, c) ← ctxOf k
  onCore k fun c => { c with under := false }
  raiseIf c.under (Trap.mk' 0x0A)
  match c.parity with
  | src :: rest => do
      onCore k fun c => { c with parity := rest }
      raise (Trap.mk' 0x10 0#64 src)
  | [] =>
      let b := c.breakAt c.regs.pc
      if s.breakSet l.ctx c.regs.pc && decide (b.quiet < b.hits + 1) then fireBreak k l c.regs.pc (b.hits + 1)
      else pure ()

/-! ### The next instruction of an agent -/

/-- What a turn's fetch comes to: an instruction, or a state in which the fetch has faulted or waits. -/
inductive Fetched where
  | instr (i : Instr) (s : State)
  | over' (s : State)

/-- Run a fetch of agent `a`. -/
def fetchBy (a : Agent) (act : Act (List (BitVec 32))) (s : State) : Fetched :=
  match act s with
  | .ok (ws, s') => .instr (instrOf ws) s'
  | .error (.trap t, s') => .over' (s'.takeFault a t)
  | .error (.hold, s') => .over' s'

/-- The fetch of a core: six words suffice (R59). -/
def coreFetch (k : CoreRef) : Act (List (BitVec 32)) := do
  beforeFetch k
  let c ← coreNow k
  let ws ← fetchWords (coreWord k) c.regs.pc.toNat 6 none []
  spendLines (fetchAcc k)
  pure ws

/-- The fetch of an Anole core. -/
def anoleFetch (i : BitVec 4) : Act (List (BitVec 32)) := do
  let s ← get
  fetchWords (anoleWord i) s.anoles[i.toNat].regs.pc.toNat 6 none []

/-- The next word of a stream (R61, R63, R224). -/
def vecFetch (k : CoreRef) (s : State) : Fetched :=
  match s.launch? k.lid, s.core? k with
  | some l, some c =>
      (match c.eng.stream with
       | none => .over' s
       | some st =>
           if l.packet.vim ≤ st.spc.toNat then .over' (s.streamErr k (vecTrap 0x1A))
           else if c.vim.badIn (6 * st.spc.toNat) 6 then .over' (s.streamErr k { vecTrap 0x10 with units := [unitId 1 c.phys] })
           else
             (let w : BitVec 48 := BitVec.ofNat 48 (leNat (c.vim.bytes (6 * st.spc.toNat) 6))
              match decodeVector w with
              | .ok i => .instr i s
              | .error _ => .instr (.unassignedVectorWord w) s))
  | _, _ => .over' s

/-- The fetch of the current agent. -/
def State.fetch (s : State) : Fetched :=
  match s.cur with
  | .core k => fetchBy (.core k) (coreFetch k) s
  | .anole a => fetchBy (.anole a) (anoleFetch a) s
  | .vec k => vecFetch k s
  | .none => .over' s

/-- Whether an instruction jumps: it never stalls, and may end where it began. -/
def jumps : Instr → Bool
  | .br _ _ => true
  | .call _ _ => true
  | .jmpr _ _ _ => true
  | .ret _ => true
  | _ => false

/-- Guard and result register of an integer or address instruction of a control core (Table 10-1). -/
def arithDest : Instr → Option (BitVec 4 × BitVec 6)
  | .add d _ _ g => some (g, d)
  | .sub d _ _ g => some (g, d)
  | .mul d _ _ g => some (g, d)
  | .mulh d _ _ g => some (g, d)
  | .mulhn d _ _ g => some (g, d)
  | .div d _ _ g => some (g, d)
  | .divn d _ _ g => some (g, d)
  | .rem d _ _ g => some (g, d)
  | .remn d _ _ g => some (g, d)
  | .min d _ _ g => some (g, d)
  | .max d _ _ g => some (g, d)
  | .minn d _ _ g => some (g, d)
  | .maxn d _ _ g => some (g, d)
  | .and d _ _ g => some (g, d)
  | .or d _ _ g => some (g, d)
  | .xor d _ _ g => some (g, d)
  | .andn d _ _ g => some (g, d)
  | .shl d _ _ g => some (g, d)
  | .shr d _ _ g => some (g, d)
  | .sra d _ _ g => some (g, d)
  | .rotl d _ _ g => some (g, d)
  | .tptr d _ _ g => some (g, d)
  | .tadd d _ _ g => some (g, d)
  | .mov d _ g => some (g, d)
  | .clz d _ g => some (g, d)
  | .ctz d _ g => some (g, d)
  | .popc d _ g => some (g, d)
  | .sextB d _ g => some (g, d)
  | .sextH d _ g => some (g, d)
  | .sextW d _ g => some (g, d)
  | .zextB d _ g => some (g, d)
  | .zextH d _ g => some (g, d)
  | .zextW d _ g => some (g, d)
  | .addSi d _ g _ => some (g, d)
  | .subSi d _ g _ => some (g, d)
  | .mulSi d _ g _ => some (g, d)
  | .andSi d _ g _ => some (g, d)
  | .orSi d _ g _ => some (g, d)
  | .xorSi d _ g _ => some (g, d)
  | .shlSi d _ g _ => some (g, d)
  | .shrSi d _ g _ => some (g, d)
  | .sraSi d _ g _ => some (g, d)
  | .rotlSi d _ g _ => some (g, d)
  | .minSi d _ g _ => some (g, d)
  | .maxSi d _ g _ => some (g, d)
  | .taddSi d _ g _ => some (g, d)
  | .movi d _ g _ => some (g, d)
  | .lit d _ g => some (g, d)
  | .tget d _ _ g => some (g, d)
  | _ => none

/-- An error that strikes the result of a control core's instruction (R356, R358). In class S the residue check finds it unless its size
is a multiple of 3: the fault is taken and the result not written. `s` is the state before the instruction, `u` the one after it. -/
def State.struck (s : State) (i : Instr) (u : State) : State :=
  match s.cur with
  | .core k =>
      (match s.launch? k.lid, s.core? k, arithDest i with
       | some l, some c, some (g, d) =>
           (match c.wrong with
            | some (flip, err) =>
                if !c.regs.guard g then u
                else if l.packet.prot = 1 && err % 3 ≠ 0 then
                  (s.modCore k fun c => { c with wrong := none }).takeFault (.core k) { Trap.mk' 0x11 with units := [unitId 1 c.phys] }
                else u.modCore k fun c => { c with wrong := none, regs := c.regs.set d (c.regs.get d ^^^ flip) }
            | none => u)
       | _, _, _ => u)
  | .anole _ => u
  | .vec _ => u
  | .none => u

/-- Count an execution of a core's instruction that has not stalled (R394). -/
def State.executed (s : State) (i : Instr) (t : State) : State :=
  match s.cur with
  | .core k =>
      (match s.core? k, t.core? k, (t.launch? k.lid).map engineLive with
       | some c, some d, some true =>
           if jumps i || d.regs.pc != c.regs.pc || d.block != .none || d.exited then
             (let b := d.breakAt c.regs.pc
              t.modCore k fun e => e.setBreak { b with hits := b.hits + 1 })
           else t
       | _, _, _ => t)
  | .anole _ => t
  | .vec _ => t
  | .none => t

end Sys2Proof.Machine
end

