-- ==== Sys2Proof/Machine/Dispatch.lean ====
section
/-! DEFINITION. `exec`: one arm per instruction, step or event, each one call of its meaning. -/

namespace Sys2Proof.Machine

def exec (i : Instr) (s : State) : Host.Outcome State Fault Refusal :=
  match i with
  | .add d a b g => Sys2Proof.Machine.execAdd d a b g s
  | .sub d a b g => Sys2Proof.Machine.execSub d a b g s
  | .mul d a b g => Sys2Proof.Machine.execMul d a b g s
  | .mulh d a b g => Sys2Proof.Machine.execMulh d a b g s
  | .mulhn d a b g => Sys2Proof.Machine.execMulhn d a b g s
  | .div d a b g => Sys2Proof.Machine.execDiv d a b g s
  | .divn d a b g => Sys2Proof.Machine.execDivn d a b g s
  | .rem d a b g => Sys2Proof.Machine.execRem d a b g s
  | .remn d a b g => Sys2Proof.Machine.execRemn d a b g s
  | .min d a b g => Sys2Proof.Machine.execMin d a b g s
  | .max d a b g => Sys2Proof.Machine.execMax d a b g s
  | .minn d a b g => Sys2Proof.Machine.execMinn d a b g s
  | .maxn d a b g => Sys2Proof.Machine.execMaxn d a b g s
  | .and d a b g => Sys2Proof.Machine.execAnd d a b g s
  | .or d a b g => Sys2Proof.Machine.execOr d a b g s
  | .xor d a b g => Sys2Proof.Machine.execXor d a b g s
  | .andn d a b g => Sys2Proof.Machine.execAndn d a b g s
  | .shl d a b g => Sys2Proof.Machine.execShl d a b g s
  | .shr d a b g => Sys2Proof.Machine.execShr d a b g s
  | .sra d a b g => Sys2Proof.Machine.execSra d a b g s
  | .rotl d a b g => Sys2Proof.Machine.execRotl d a b g s
  | .mov d a g => Sys2Proof.Machine.execMov d a g s
  | .clz d a g => Sys2Proof.Machine.execClz d a g s
  | .ctz d a g => Sys2Proof.Machine.execCtz d a g s
  | .popc d a g => Sys2Proof.Machine.execPopc d a g s
  | .sextB d a g => Sys2Proof.Machine.execSextB d a g s
  | .sextH d a g => Sys2Proof.Machine.execSextH d a g s
  | .sextW d a g => Sys2Proof.Machine.execSextW d a g s
  | .zextB d a g => Sys2Proof.Machine.execZextB d a g s
  | .zextH d a g => Sys2Proof.Machine.execZextH d a g s
  | .zextW d a g => Sys2Proof.Machine.execZextW d a g s
  | .cmp p a b g cc => Sys2Proof.Machine.execCmp p a b g cc s
  | .pand d a b g => Sys2Proof.Machine.execPand d a b g s
  | .por d a b g => Sys2Proof.Machine.execPor d a b g s
  | .pxor d a b g => Sys2Proof.Machine.execPxor d a b g s
  | .pnot d a g => Sys2Proof.Machine.execPnot d a g s
  | .lit d b g => Sys2Proof.Machine.execLit d b g s
  | .tptr d a b g => Sys2Proof.Machine.execTptr d a b g s
  | .tadd d a b g => Sys2Proof.Machine.execTadd d a b g s
  | .tget d a sel g => Sys2Proof.Machine.execTget d a sel g s
  | .addSi d a g imm => Sys2Proof.Machine.execAddSi d a g imm s
  | .subSi d a g imm => Sys2Proof.Machine.execSubSi d a g imm s
  | .mulSi d a g imm => Sys2Proof.Machine.execMulSi d a g imm s
  | .andSi d a g imm => Sys2Proof.Machine.execAndSi d a g imm s
  | .orSi d a g imm => Sys2Proof.Machine.execOrSi d a g imm s
  | .xorSi d a g imm => Sys2Proof.Machine.execXorSi d a g imm s
  | .shlSi d a g imm => Sys2Proof.Machine.execShlSi d a g imm s
  | .shrSi d a g imm => Sys2Proof.Machine.execShrSi d a g imm s
  | .sraSi d a g imm => Sys2Proof.Machine.execSraSi d a g imm s
  | .rotlSi d a g imm => Sys2Proof.Machine.execRotlSi d a g imm s
  | .minSi d a g imm => Sys2Proof.Machine.execMinSi d a g imm s
  | .maxSi d a g imm => Sys2Proof.Machine.execMaxSi d a g imm s
  | .movi d h g imm => Sys2Proof.Machine.execMovi d h g imm s
  | .taddSi d a g imm => Sys2Proof.Machine.execTaddSi d a g imm s
  | .ld d a g z o => Sys2Proof.Machine.execLd d a g z o s
  | .st r a g z o => Sys2Proof.Machine.execSt r a g z o s
  | .br g disp => Sys2Proof.Machine.execBr g disp s
  | .call g disp => Sys2Proof.Machine.execCall g disp s
  | .jmpr d a g => Sys2Proof.Machine.execJmpr d a g s
  | .ret g => Sys2Proof.Machine.execRet g s
  | .amoAdd d a b z o => Sys2Proof.Machine.execAmoAdd d a b z o s
  | .amoAnd d a b z o => Sys2Proof.Machine.execAmoAnd d a b z o s
  | .amoOr d a b z o => Sys2Proof.Machine.execAmoOr d a b z o s
  | .amoXor d a b z o => Sys2Proof.Machine.execAmoXor d a b z o s
  | .amoMin d a b z o => Sys2Proof.Machine.execAmoMin d a b z o s
  | .amoMax d a b z o => Sys2Proof.Machine.execAmoMax d a b z o s
  | .amoMinn d a b z o => Sys2Proof.Machine.execAmoMinn d a b z o s
  | .amoMaxn d a b z o => Sys2Proof.Machine.execAmoMaxn d a b z o s
  | .amoXchg d a b z o => Sys2Proof.Machine.execAmoXchg d a b z o s
  | .amoCas d a b z o => Sys2Proof.Machine.execAmoCas d a b z o s
  | .amoFadd d a b z o => Sys2Proof.Machine.execAmoFadd d a b z o s
  | .amoAdd128 d a b o => Sys2Proof.Machine.execAmoAdd128 d a b o s
  | .fence g sc => Sys2Proof.Machine.execFence g sc s
  | .tset e b g => Sys2Proof.Machine.execTset e b g s
  | .tpost e b g => Sys2Proof.Machine.execTpost e b g s
  | .twait e b g => Sys2Proof.Machine.execTwait e b g s
  | .ttest d e g => Sys2Proof.Machine.execTtest d e g s
  | .trig t b g => Sys2Proof.Machine.execTrig t b g s
  | .binit bar b g => Sys2Proof.Machine.execBinit bar b g s
  | .barv bar g => Sys2Proof.Machine.execBarv bar g s
  | .barvRemote bar t g => Sys2Proof.Machine.execBarvRemote bar t g s
  | .barx a b g => Sys2Proof.Machine.execBarx a b g s
  | .bwait bar b g => Sys2Proof.Machine.execBwait bar b g s
  | .bwaitX bar b g => Sys2Proof.Machine.execBwaitX bar b g s
  | .abankAlloc d b g => Sys2Proof.Machine.execAbankAlloc d b g s
  | .abankFree a b g => Sys2Proof.Machine.execAbankFree a b g s
  | .tidset t b g => Sys2Proof.Machine.execTidset t b g s
  | .tidget t b g => Sys2Proof.Machine.execTidget t b g s
  | .nrd d n g => Sys2Proof.Machine.execNrd d n g s
  | .nclr n g => Sys2Proof.Machine.execNclr n g s
  | .nstat d n g => Sys2Proof.Machine.execNstat d n g s
  | .vopen d a b g => Sys2Proof.Machine.execVopen d a b g s
  | .vpub a b g => Sys2Proof.Machine.execVpub a b g s
  | .vbind b g => Sys2Proof.Machine.execVbind b g s
  | .vretire a b g => Sys2Proof.Machine.execVretire a b g s
  | .vquery d a b g => Sys2Proof.Machine.execVquery d a b g s
  | .trec a b g => Sys2Proof.Machine.execTrec a b g s
  | .cwait d a b g => Sys2Proof.Machine.execCwait d a b g s
  | .drainUsp g => Sys2Proof.Machine.execDrainUsp g s
  | .drainCls g => Sys2Proof.Machine.execDrainCls g s
  | .drainDsp g => Sys2Proof.Machine.execDrainDsp g s
  | .drainVirt g => Sys2Proof.Machine.execDrainVirt g s
  | .drainVim g => Sys2Proof.Machine.execDrainVim g s
  | .hflush a b g => Sys2Proof.Machine.execHflush a b g s
  | .isync g => Sys2Proof.Machine.execIsync g s
  | .enq d a b g => Sys2Proof.Machine.execEnq d a b g s
  | .sigf a g => Sys2Proof.Machine.execSigf a g s
  | .iter g => Sys2Proof.Machine.execIter g s
  | .ckpt g => Sys2Proof.Machine.execCkpt g s
  | .trap b g => Sys2Proof.Machine.execTrap b g s
  | .sysret g => Sys2Proof.Machine.execSysret g s
  | .wfe g => Sys2Proof.Machine.execWfe g s
  | .exit g => Sys2Proof.Machine.execExit g s
  | .mfs d sr g => Sys2Proof.Machine.execMfs d sr g s
  | .mts a sr g => Sys2Proof.Machine.execMts a sr g s
  | .nop n => Sys2Proof.Machine.execNop n s
  | .cpy e => Sys2Proof.Machine.execCpy e s
  | .cpyT e => Sys2Proof.Machine.execCpyT e s
  | .cpyMc e => Sys2Proof.Machine.execCpyMc e s
  | .cpyQ e => Sys2Proof.Machine.execCpyQ e s
  | .gath e => Sys2Proof.Machine.execGath e s
  | .scat e => Sys2Proof.Machine.execScat e s
  | .bin e => Sys2Proof.Machine.execBin e s
  | .kvg e => Sys2Proof.Machine.execKvg e s
  | .kva e => Sys2Proof.Machine.execKva e s
  | .kvdem e => Sys2Proof.Machine.execKvdem e s
  | .kvrefInc e => Sys2Proof.Machine.execKvrefInc e s
  | .kvrefDec e => Sys2Proof.Machine.execKvrefDec e s
  | .cube e => Sys2Proof.Machine.execCube e s
  | .cubeGa e => Sys2Proof.Machine.execCubeGa e s
  | .cubeGb e => Sys2Proof.Machine.execCubeGb e s
  | .cubeGk e => Sys2Proof.Machine.execCubeGk e s
  | .cubeSp e => Sys2Proof.Machine.execCubeSp e s
  | .aclr e => Sys2Proof.Machine.execAclr e s
  | .adrain e => Sys2Proof.Machine.execAdrain e s
  | .stt e => Sys2Proof.Machine.execStt e s
  | .stp e => Sys2Proof.Machine.execStp e s
  | .stg e => Sys2Proof.Machine.execStg e s
  | .updSgd e => Sys2Proof.Machine.execUpdSgd e s
  | .updAdam e => Sys2Proof.Machine.execUpdAdam e s
  | .vrun e => Sys2Proof.Machine.execVrun e s
  | .gang xa chained op e => Sys2Proof.Machine.execGang xa chained op e s
  | .chain op e => Sys2Proof.Machine.execChain op e s
  | .vadd v => Sys2Proof.Machine.execVadd v s
  | .vsub v => Sys2Proof.Machine.execVsub v s
  | .vmul v => Sys2Proof.Machine.execVmul v s
  | .vfma v => Sys2Proof.Machine.execVfma v s
  | .vfms v => Sys2Proof.Machine.execVfms v s
  | .vmin v => Sys2Proof.Machine.execVmin v s
  | .vmax v => Sys2Proof.Machine.execVmax v s
  | .vabs v => Sys2Proof.Machine.execVabs v s
  | .vneg v => Sys2Proof.Machine.execVneg v s
  | .vrcp v => Sys2Proof.Machine.execVrcp v s
  | .vrsq v => Sys2Proof.Machine.execVrsq v s
  | .vexp2 v => Sys2Proof.Machine.execVexp2 v s
  | .vlog2 v => Sys2Proof.Machine.execVlog2 v s
  | .vtanh v => Sys2Proof.Machine.execVtanh v s
  | .viadd v => Sys2Proof.Machine.execViadd v s
  | .visub v => Sys2Proof.Machine.execVisub v s
  | .vimul v => Sys2Proof.Machine.execVimul v s
  | .vand v => Sys2Proof.Machine.execVand v s
  | .vor v => Sys2Proof.Machine.execVor v s
  | .vxor v => Sys2Proof.Machine.execVxor v s
  | .vshl v => Sys2Proof.Machine.execVshl v s
  | .vshr v => Sys2Proof.Machine.execVshr v s
  | .vsra v => Sys2Proof.Machine.execVsra v s
  | .vimin v => Sys2Proof.Machine.execVimin v s
  | .vimax v => Sys2Proof.Machine.execVimax v s
  | .vsat v => Sys2Proof.Machine.execVsat v s
  | .vcmp v => Sys2Proof.Machine.execVcmp v s
  | .vcnt v => Sys2Proof.Machine.execVcnt v s
  | .vcvt v => Sys2Proof.Machine.execVcvt v s
  | .vqnt v => Sys2Proof.Machine.execVqnt v s
  | .vdqnt v => Sys2Proof.Machine.execVdqnt v s
  | .vunpk v => Sys2Proof.Machine.execVunpk v s
  | .vpack v => Sys2Proof.Machine.execVpack v s
  | .vld v => Sys2Proof.Machine.execVld v s
  | .vst v => Sys2Proof.Machine.execVst v s
  | .vldt v => Sys2Proof.Machine.execVldt v s
  | .vgth v => Sys2Proof.Machine.execVgth v s
  | .vsct v => Sys2Proof.Machine.execVsct v s
  | .vldb v => Sys2Proof.Machine.execVldb v s
  | .vrsum v => Sys2Proof.Machine.execVrsum v s
  | .vrmax v => Sys2Proof.Machine.execVrmax v s
  | .vrmin v => Sys2Proof.Machine.execVrmin v s
  | .vscan v => Sys2Proof.Machine.execVscan v s
  | .vsegs v => Sys2Proof.Machine.execVsegs v s
  | .vpart v => Sys2Proof.Machine.execVpart v s
  | .vrng v => Sys2Proof.Machine.execVrng v s
  | .vdrop v => Sys2Proof.Machine.execVdrop v s
  | .vgmb v => Sys2Proof.Machine.execVgmb v s
  | .vargmx v => Sys2Proof.Machine.execVargmx v s
  | .vmovCK v => Sys2Proof.Machine.execVmovCK v s
  | .vmovV v => Sys2Proof.Machine.execVmovV v s
  | .vmovAK v => Sys2Proof.Machine.execVmovAK v s
  | .vmovAdd v => Sys2Proof.Machine.execVmovAdd v s
  | .vmovKV v => Sys2Proof.Machine.execVmovKV v s
  | .vsel v => Sys2Proof.Machine.execVsel v s
  | .vperm v => Sys2Proof.Machine.execVperm v s
  | .vshuf v => Sys2Proof.Machine.execVshuf v s
  | .vbcst v => Sys2Proof.Machine.execVbcst v s
  | .viota v => Sys2Proof.Machine.execViota v s
  | .vsetk kd imm idle => Sys2Proof.Machine.execVsetk kd imm idle s
  | .vlp cn target idle => Sys2Proof.Machine.execVlp cn target idle s
  | .unassignedEncoding w => Sys2Proof.Machine.execUnassignedEncoding w s
  | .unassignedVectorWord w => Sys2Proof.Machine.execUnassignedVectorWord w s
  | .vectorResultLanding k => Sys2Proof.Machine.execVectorResultLanding k s
  | .elasticWordCompletion k tc => Sys2Proof.Machine.execElasticWordCompletion k tc s
  | .engineCommandStart k x => Sys2Proof.Machine.execEngineCommandStart k x s
  | .engineCommandCompletion k cmd => Sys2Proof.Machine.execEngineCommandCompletion k cmd s
  | .engineAccessFault k cmd => Sys2Proof.Machine.execEngineAccessFault k cmd s
  | .chunkWritesPerformed k cmd pad chunk => Sys2Proof.Machine.execChunkWritesPerformed k cmd pad chunk s
  | .tokenWaitSatisfied k tok => Sys2Proof.Machine.execTokenWaitSatisfied k tok s
  | .calicoTermFire k term => Sys2Proof.Machine.execCalicoTermFire k term s
  | .barrierArrival k => Sys2Proof.Machine.execBarrierArrival k s
  | .outsideArrivalReceive launch target => Sys2Proof.Machine.execOutsideArrivalReceive launch target s
  | .classDCompare lid rank => Sys2Proof.Machine.execClassDCompare lid rank s
  | .thirdExecutionDecision lid => Sys2Proof.Machine.execThirdExecutionDecision lid s
  | .bankSpareReplace unit => Sys2Proof.Machine.execBankSpareReplace unit s
  | .checkpointCommit lid => Sys2Proof.Machine.execCheckpointCommit lid s
  | .groupResume lid place => Sys2Proof.Machine.execGroupResume lid place s
  | .preemptionTakeEffect lid => Sys2Proof.Machine.execPreemptionTakeEffect lid s
  | .progressGuardExpiry lid => Sys2Proof.Machine.execProgressGuardExpiry lid s
  | .quiescenceWatchdog k => Sys2Proof.Machine.execQuiescenceWatchdog k s
  | .wfeTimeout w => Sys2Proof.Machine.execWfeTimeout w s
  | .queueClaim q m => Sys2Proof.Machine.execQueueClaim q m s
  | .queueWriteIndexUpdate q m old new => Sys2Proof.Machine.execQueueWriteIndexUpdate q m old new s
  | .queueCompletionAck q m v => Sys2Proof.Machine.execQueueCompletionAck q m v s
  | .queueErrorWrite q m v => Sys2Proof.Machine.execQueueErrorWrite q m v s
  | .queueCreate q m d => Sys2Proof.Machine.execQueueCreate q m d s
  | .queueRestart q m => Sys2Proof.Machine.execQueueRestart q m s
  | .queueDestroy q m => Sys2Proof.Machine.execQueueDestroy q m s
  | .queuePark q => Sys2Proof.Machine.execQueuePark q s
  | .dependenceCounterWrite c m v => Sys2Proof.Machine.execDependenceCounterWrite c m v s
  | .packetValidation q => Sys2Proof.Machine.execPacketValidation q s
  | .launchPlacement q place => Sys2Proof.Machine.execLaunchPlacement q place s
  | .launchCompletion lid => Sys2Proof.Machine.execLaunchCompletion lid s
  | .pageWalkReturn k tlb va num => Sys2Proof.Machine.execPageWalkReturn k tlb va num s
  | .shootdownIssue ctx m cnt => Sys2Proof.Machine.execShootdownIssue ctx m cnt s
  | .shootdownComplete ctx => Sys2Proof.Machine.execShootdownComplete ctx s
  | .contextStateWrite ctx m v => Sys2Proof.Machine.execContextStateWrite ctx m v s
  | .contextResolveWrite ctx m v => Sys2Proof.Machine.execContextResolveWrite ctx m v s
  | .vrCreate ctx m decl => Sys2Proof.Machine.execVrCreate ctx m decl s
  | .vrDestroy ctx m arg => Sys2Proof.Machine.execVrDestroy ctx m arg s
  | .vrAbandon ctx m arg => Sys2Proof.Machine.execVrAbandon ctx m arg s
  | .kvPromote part block => Sys2Proof.Machine.execKvPromote part block s
  | .kvFrameRelease imm => Sys2Proof.Machine.execKvFrameRelease imm s
  | .kvHeaderWrite part m word v => Sys2Proof.Machine.execKvHeaderWrite part m word v s
  | .partitionDescriptorWrite part m v => Sys2Proof.Machine.execPartitionDescriptorWrite part m v s
  | .remoteMasterWrite slot m v => Sys2Proof.Machine.execRemoteMasterWrite slot m v s
  | .breakpointWrite ctx imm m v => Sys2Proof.Machine.execBreakpointWrite ctx imm m v s
  | .faultQueueDescriptorWrite host m word v => Sys2Proof.Machine.execFaultQueueDescriptorWrite host m word v s
  | .faultQueueReadWrite host m v => Sys2Proof.Machine.execFaultQueueReadWrite host m v s
  | .nodeIdWrite m v => Sys2Proof.Machine.execNodeIdWrite m v s
  | .powerLimitWrite m v => Sys2Proof.Machine.execPowerLimitWrite m v s
  | .sysRegisterWrite m off size v => Sys2Proof.Machine.execSysRegisterWrite m off size v s
  | .hostApertureAccess f off op => Sys2Proof.Machine.execHostApertureAccess f off op s
  | .hostWindowAccess f x op => Sys2Proof.Machine.execHostWindowAccess f x op s
  | .linkRead m => Sys2Proof.Machine.execLinkRead m s
  | .linkReadResponse m => Sys2Proof.Machine.execLinkReadResponse m s
  | .linkMaskedWrite m => Sys2Proof.Machine.execLinkMaskedWrite m s
  | .linkWriteAcknowledgement m => Sys2Proof.Machine.execLinkWriteAcknowledgement m s
  | .linkAtomic m => Sys2Proof.Machine.execLinkAtomic m s
  | .linkAtomicResponse m => Sys2Proof.Machine.execLinkAtomicResponse m s
  | .linkEnqueue m => Sys2Proof.Machine.execLinkEnqueue m s
  | .linkEnqueueResponse m => Sys2Proof.Machine.execLinkEnqueueResponse m s
  | .linkBarrierArrival m => Sys2Proof.Machine.execLinkBarrierArrival m s
  | .linkArrivalAcknowledgement m => Sys2Proof.Machine.execLinkArrivalAcknowledgement m s
  | .linkNack m => Sys2Proof.Machine.execLinkNack m s
  | .linkUnknownOp m => Sys2Proof.Machine.execLinkUnknownOp m s
  | .linkPause port vc => Sys2Proof.Machine.execLinkPause port vc s
  | .linkResume port vc => Sys2Proof.Machine.execLinkResume port vc s
  | .linkPauseExpiry port vc => Sys2Proof.Machine.execLinkPauseExpiry port vc s
  | .remoteResponseTimeout tag => Sys2Proof.Machine.execRemoteResponseTimeout tag s
  | .linkPortDown port => Sys2Proof.Machine.execLinkPortDown port s
  | .linkPortTrained port => Sys2Proof.Machine.execLinkPortTrained port s
  | .fwVerify slot => Sys2Proof.Machine.execFwVerify slot s
  | .fwUpdate slot => Sys2Proof.Machine.execFwUpdate slot s
  | .mbReadScore host unit => Sys2Proof.Machine.execMbReadScore host unit s
  | .mbClearFence host unit => Sys2Proof.Machine.execMbClearFence host unit s
  | .mbCopyFlashRecord host slot dpa => Sys2Proof.Machine.execMbCopyFlashRecord host slot dpa s
  | .mbWriteFirmwareSlot host arg0 dpa len => Sys2Proof.Machine.execMbWriteFirmwareSlot host arg0 dpa len s
  | .mbDeviceReset host => Sys2Proof.Machine.execMbDeviceReset host s
  | .mbRaiseAntirollback host v => Sys2Proof.Machine.execMbRaiseAntirollback host v s
  | .mbCapacitySave host base => Sys2Proof.Machine.execMbCapacitySave host base s
  | .mbCapacityRestore host base => Sys2Proof.Machine.execMbCapacityRestore host base s
  | .mbUnknownCommand host cmd => Sys2Proof.Machine.execMbUnknownCommand host cmd s
  | .pcieConventionalReset host => Sys2Proof.Machine.execPcieConventionalReset host s
  | .spdmGetVersion host => Sys2Proof.Machine.execSpdmGetVersion host s
  | .spdmGetCapabilities host => Sys2Proof.Machine.execSpdmGetCapabilities host s
  | .spdmNegotiateAlgorithms host => Sys2Proof.Machine.execSpdmNegotiateAlgorithms host s
  | .spdmGetDigests host => Sys2Proof.Machine.execSpdmGetDigests host s
  | .spdmGetCertificate host => Sys2Proof.Machine.execSpdmGetCertificate host s
  | .spdmChallenge host nonce => Sys2Proof.Machine.execSpdmChallenge host nonce s
  | .spdmGetMeasurements host block => Sys2Proof.Machine.execSpdmGetMeasurements host block s
  | .spdmUnsupportedRequest host code => Sys2Proof.Machine.execSpdmUnsupportedRequest host code s
  | .writePerformed t => Sys2Proof.Machine.execWritePerformed t s
  | .softError l => Sys2Proof.Machine.execSoftError l s
  | .functionReady bit => Sys2Proof.Machine.execFunctionReady bit s
  | .hostPortTrained host up => Sys2Proof.Machine.execHostPortTrained host up s
  | .linkFlitError port vc => Sys2Proof.Machine.execLinkFlitError port vc s
  | .vend => Sys2Proof.Machine.execVend s
  | .scoreHalving => Sys2Proof.Machine.execScoreHalving s
  | .flashRecordWrite => Sys2Proof.Machine.execFlashRecordWrite s
  | .msixNotify => Sys2Proof.Machine.execMsixNotify s
  | .fwTrialStart => Sys2Proof.Machine.execFwTrialStart s
  | .fwHeartbeat => Sys2Proof.Machine.execFwHeartbeat s
  | .fwHeartbeatTimeout => Sys2Proof.Machine.execFwHeartbeatTimeout s
  | .fwCommit => Sys2Proof.Machine.execFwCommit s
  | .fwAbandon => Sys2Proof.Machine.execFwAbandon s
  | .capacitySaveComplete => Sys2Proof.Machine.execCapacitySaveComplete s
  | .bringUp => Sys2Proof.Machine.execBringUp s
  | .powerLoss => Sys2Proof.Machine.execPowerLoss s

end Sys2Proof.Machine
end

