-- ==== Sys2Proof/Machine/Turns.lean ====
section
/-! DEFINITION. Turns: the passage of time, an agent's turn, and what the device does of its own accord when the schedule
names nothing (log entry 1). -/

namespace Sys2Proof.Machine

/-! ### Time -/

/-- What running launches charge a queue in one cycle (R296). -/
def State.chargeOf (s : State) (q : BitVec 12) : Nat :=
  ((s.launches.filter fun l => l.queue == q && engineLive l).map fun l =>
    (if l.packet.prot = 2 then 2 else 1) * l.packet.h * l.packet.w).foldl (· + ·) 0

/-- A queue's deficit after `n` cycles: 0 while it has no undispatched packet. -/
def State.chargeQueue (s : State) (n : Nat) (a : QueueAux) : QueueAux :=
  { a with deficit := if (s.headOf a.q).isNone then 0 else a.deficit - ((s.chargeOf a.q * n : Nat) : Int) }

/-- The tokens of a launch's cores over `n` cycles (R33, R133). -/
def Launch.cycles (n : Nat) (l : Launch) : Launch :=
  if engineLive l then { l with copies := l.copies.map fun cp => { cp with cores := cp.cores.map (Core.cycles n) } } else l

/-- The cycle ends: its tokens are settled, and the causes of abort that arose in it decide (R133, R293). -/
def State.endCycle (s : State) (n : Nat) : State := State.runDeferred { s with launches := s.launches.map (Launch.cycles n) }

/-- `n` cycles pass. -/
def State.pass (s : State) (n : Nat) : State :=
  if n = 0 then s
  else
    (let s := s.endCycle n
     State.ageLag { s with cc := s.cc + n, queues := s.queues.map (s.chargeQueue n),
                           rel := { s.rel with powered := s.rel.powered + n, sinceRec := s.rel.sinceRec + n } })

/-! ### What may happen next of its own accord -/

/-- A step the device may take of its own accord: the meaning of the step, with what it names. -/
abbrev OwnStep := State → Host.Outcome State Fault Refusal

/-- Steps of one command. -/
def cmdSteps (k : CoreRef) (c : Core) (m : Cmd) : List OwnStep :=
  if (c.runFault m).isSome then [execEngineAccessFault k m.id]
  else match m.state with
    | .queued => [execEngineCommandStart k { cmd := m.id, partly := false }]
    | .reading => [execEngineCommandStart k { cmd := m.id, partly := false }]
    | .running =>
        (if m.op = .vrun then [] else m.chunks.map fun x => execChunkWritesPerformed k m.id x.1 x.2) ++ [execEngineCommandCompletion k m.id]

/-- Whether an agent waits for an event (R166). -/
def Block.waits (b : Block) : Bool :=
  match b with
  | .wfe _ _ => true
  | .none => false
  | .token _ _ _ => false
  | .ckpt => false

/-- Steps of one core and its engines. -/
def coreSteps (s : State) (k : CoreRef) (c : Core) : List OwnStep :=
  (match c.eng.stream with
   | some st =>
       (match st.elastic with
        | some (least, _) => [execElasticWordCompletion k least]
        | none => if st.ended && !st.landings.isEmpty then [execVectorResultLanding k] else [])
   | none => []) ++
  c.eng.cmds.flatMap (cmdSteps k c) ++
  ((List.range 64).filter fun e => !(c.sync.tokens.toList.getD e Token.zero).queue.isEmpty).map (fun e => execTokenWaitSatisfied k (BitVec.ofNat 6 e)) ++
  (c.sync.due.map fun i => execCalicoTermFire k (BitVec.ofNat 4 i)) ++
  ((s.walks.filter fun x => x.owner == c.phys).map fun x => execPageWalkReturn k x.tlb (BitVec.ofNat 64 x.va) x.num) ++
  (if c.sync.arrivals.isEmpty then [] else [execBarrierArrival k]) ++
  (if c.port.isEmpty then [] else [execWritePerformed (.port k 0)]) ++
  (if c.block.waits then [execWfeTimeout (.core k)] else []) ++
  (if c.watch + Config.watchdogCc ≤ s.cc then [execQuiescenceWatchdog k] else [])

/-- The cores a placement names: those of the first permitted one. -/
def State.someCores (s : State) (part : Nat) (p : Packet) (but : List Nat) : List Nat :=
  (s.firstPlace part p but).getD []

/-- Steps of one launch. -/
def launchSteps (s : State) (l : Launch) : List OwnStep :=
  (if l.state == .done || l.allExited then [execLaunchCompletion l.lid] else []) ++
  (if l.preempt then [execPreemptionTakeEffect l.lid] else []) ++
  (if !l.guarded && !l.expired && l.guardFrom + Config.guardCc ≤ s.cc then [execProgressGuardExpiry l.lid] else []) ++
  (if l.state == .checkpointing then [execCheckpointCommit l.lid] else []) ++
  (if l.state == .resuming || l.state == .parked then [execGroupResume l.lid (s.someCores l.part.toNat l.packet [l.lid])] else []) ++
  (if l.third.isSome then [execThirdExecutionDecision l.lid, execGroupResume l.lid []] else []) ++
  (l.copies.flatMap fun cp =>
    (if cp.home.isEmpty then [] else [execWritePerformed (.home l.lid cp.role 0 .device)]) ++
    cp.cores.flatMap fun c =>
      let k : CoreRef := { lid := l.lid, role := cp.role, rank := c.rank }
      (match c.commit with
       | .waiting _ _ _ _ => [execClassDCompare l.lid c.rank]
       | .idle => []
       | .closed _ _ => []
       | .releasing _ _ _ => []
       | .sent _ _ _ => []
       | .answered _ _ _ _ _ => []) ++ coreSteps s k c)

/-- Everything the device may do of its own accord, in one list. -/
def State.ownSteps (s : State) : List OwnStep :=
  s.launches.flatMap (launchSteps s) ++
  (s.queues.flatMap fun a => match s.headOf a.q with
    | some (_, p, true) => [execLaunchPlacement a.q (s.someCores (s.qPart a.q).toNat p [])]
    | some (_, _, false) => [execPacketValidation a.q]
    | none => []) ++
  ((s.rel.units.filter fun u => (u.fenced || u.held) && 7 ≤ unitKind u.id && unitKind u.id ≤ 9).map fun u => execBankSpareReplace u.id) ++
  (((List.range 16).filter fun i => (s.anoles.toList.getD i Anole.zero).block.waits).map fun i => execWfeTimeout (.anole (BitVec.ofNat 4 i))) ++
  ((s.queues.filter fun a => decide (a.idle + Config.parkCc ≤ s.cc)).map fun a => execQueuePark a.q) ++
  (s.shoots.map fun x => execShootdownComplete x.ctx) ++
  (if s.host.notify.isEmpty then [] else [execMsixNotify]) ++
  ((List.range s.host.writes.length).map fun i => execWritePerformed (.hostOut i)) ++
  ((s.link.reqs.filter fun r => decide (r.since + Config.remoteCc ≤ s.cc)).map fun r => execRemoteResponseTimeout r.tag) ++
  ((s.link.pauses.filter fun p => decide (p.2.2 ≤ s.cc)).map fun p => execLinkPauseExpiry p.1 p.2.1) ++
  (s.kv.promote.map fun p => execKvPromote p.1 (BitVec.ofNat 20 p.2)) ++
  ((List.range s.kv.release.length).map fun i => execKvFrameRelease i) ++
  (match s.firm.phase with
   | .stopping _ => [execFwTrialStart]
   | .trial _ at' _ false => if at' + Config.heartbeatCc ≤ s.cc then [execFwHeartbeatTimeout] else []
   | .trial _ _ _ true => []
   | .idle => []
   | .restarting => []) ++
  (if s.firm.save.isSome then [execCapacitySaveComplete] else []) ++
  (if Config.halvingCc ≤ s.rel.powered then [execScoreHalving] else []) ++
  (if Config.flashCc ≤ s.rel.sinceRec then [execFlashRecordWrite] else []) ++
  (if s.firm.boot then ((List.range 56).filter fun b => !s.readyBit b).map execFunctionReady else [execBringUp])

/-- A step taken for its effect; only a step that answers another state counts. -/
def tryStep (s : State) (i : OwnStep) : Option State :=
  match i s with
  | .next s' => if s' = s then none else some s'
  | .fault _ => none
  | .refused _ => none

/-- The first of some steps that changes the state. -/
def firstStep (s : State) : List OwnStep → State
  | [] => s
  | i :: t => match tryStep s i with
      | some s' => s'
      | none => firstStep s t

/-- One cycle passes, in which the device does one thing of its own accord, if there is one to do; with the time another
comes first. -/
def State.idleCycle (s : State) : State :=
  let xs := s.ownSteps
  let n := s.cc % max 1 xs.length
  (firstStep s (xs.drop n ++ xs.take n)).pass 1

/-! ### Whose turn it is -/

/-- Every agent, cores and their streams by launch, copy and rank, then the Anole cores. -/
def State.agents (s : State) : List Agent :=
  (s.launches.flatMap fun l => l.copies.flatMap fun cp => cp.cores.flatMap fun c =>
    let k : CoreRef := { lid := l.lid, role := cp.role, rank := c.rank }
    [Agent.core k, Agent.vec k]) ++
  (List.range 16).map fun i => Agent.anole (BitVec.ofNat 4 i)

/-- The agents after one, in cyclic order, itself last. -/
def afterAgent (a : Agent) (xs : List Agent) : List Agent :=
  let pre := xs.takeWhile fun x => x != a
  xs.drop (pre.length + 1) ++ pre ++ xs.filter fun x => x == a

/-- The next agent that can run, in turn. -/
def State.nextAgent (s : State) : Option Agent := (afterAgent s.cur s.agents).find? (runnable s)

/-- A turn of the current agent: fetch, and execute what was fetched. -/
def State.turn (s : State) : Host.Outcome State Fault Refusal :=
  match s.fetch with
  | .over' t => .next t
  | .instr i t =>
      match exec i t with
      | .next u => .next (t.struck i (t.executed i u))
      | .fault r => .fault r
      | .refused r => .refused r

/-- A turn of an agent, when it can run. -/
def State.turnOf (s : State) (a : Agent) : Host.Outcome State Fault Refusal :=
  if runnable s a then State.turn { s with cur := a } else .next s

/-- Whether an event of the schedule is a step or an input: instructions come from memory only. -/
def isStep (i : Instr) : Bool :=
  match i with
  | .unassignedEncoding _ => false
  | .unassignedVectorWord _ => false
  | _ => (encode i).isEmpty && (encodeVector i).isNone

/-- One entry of the schedule. -/
def State.take (s : State) (t : Turn) : Host.Outcome State Fault Refusal :=
  match t with
  | .pass n => .next (s.pass n)
  | .event i => if isStep i then exec i s else .next s
  | .run a => s.turnOf a

/-- With no schedule: the next agent's turn, then a cycle passes. -/
def State.ownTurn (s : State) : Host.Outcome State Fault Refusal :=
  match s.nextAgent with
  | none => .next s.idleCycle
  | some a =>
      match s.turnOf a with
      | .next t => .next t.idleCycle
      | .fault r => .fault r
      | .refused r => .refused r

end Sys2Proof.Machine
end

