-- ==== Sys2Proof/Machine/Step.lean ====
section
/-! DEFINITION. `step`: the next entry of the schedule, or the device's own turn; and where the next instruction is placed
from outside. -/

namespace Sys2Proof.Machine

/-- One step: the oldest entry of the schedule is taken; with no schedule the next agent takes its turn and a cycle
passes. -/
def step (s : State) : Host.Outcome State Fault Refusal :=
  match s.sched with
  | [] => s.ownTurn
  | t :: ts => State.take { s with sched := ts } t

/-- Where `withFetchWord` puts code: virtual address and DPA. -/
def fetchPc : Nat := 0x200000

/-- The packet of the launch that `withFetchWord` starts: one core, class N, the whole instruction memory. -/
def fetchPacket : Packet := { lp := 0#64, w1 := 0x0101#64, grants := 10922#64, w3 := 0#64, args := [] }

/-- Its loop record. -/
def fetchLoop : LoopRec :=
  { pro := BitVec.ofNat 64 fetchPc, ker := BitVec.ofNat 64 fetchPc, epi := BitVec.ofNat 64 fetchPc, trip := 1, ring := 0, ckint := 1,
    dbytes := 0, cmask := 0#128, usp := 0, cls := 0, dsp := 0, vim := 10922, banks := 0, ranges := [] }

/-- The running VRUN of a stream that `withFetchWord` starts. -/
def fetchVrun : Cmd :=
  { id := 0, op := .vrun, xa := 0#64, xb := 0#64, xc := 0#64, flags := 0#4, waitsOn := [], waits := [], post := 63#6, serial := false,
    chained := false, lane := false, gang := none, gangBar := 0#7, tids := [], desc := 0#256, ks := Vector.replicate 16 0#32,
    slots := [], seg := 0, record := 0, pc := 0#64, state := .running, chunks := [], seen := [], writes := [],
    raised := 0#7, err := none, tileInt := false, readSlots := [], norm := 0, normAdds := [], stale := [] }

/-- Its stream. -/
def fetchStream : Stream := { cmd := 0, spc := 0#14, cycle := 0, landings := [], elastic := none, ended := false, err := none }

/-- The launch of one core that fetches the placed instruction, with what its fetch needs: page tables for the first GiB,
the fetch right and a ready HBM stack. -/
def State.withLaunch (s : State) : State :=
  let ctx := s.qCtx 0#12
  let m1 := s.dram.put 0x100000 (natLe 8 0x101001)
  let m2 := m1.put 0x101000 (natLe 8 0x102001)
  let m3 := m2.put 0x102000 (natLe 8 0x302)
  let s1 : State := { s with dram := m3 }
  let s2 := s1.sysPut (cxOff ctx) 0x100001#64
  let s3 := s2.sysSetF (0x01000000 + 32 + (s.qPart 0#12).toNat) ((32 + (s.qPart 0#12).toNat) % 8 * 8) 8 0x0F
  let s4 := s3.sysSetF 8 12 1 1
  let e : Placing := { queue := 0#12, slot := 0, packet := fetchPacket, lrec := fetchLoop, images := [] }
  { s4 with launches := s4.launches ++ [newLaunch s4 e [{ cores := [0], clus := [0], dies := [0] }]], nextLid := s4.nextLid + 1 }

/-- `s` with an instruction where the next step fetches it (R49, R61): the code of a new launch's core, or, for a 48-bit
word, the first word of its stream. Its turn is next. -/
def State.withFetchWord (s : State) (nbits w : Nat) : State :=
  let k : CoreRef := { lid := s.nextLid, role := .primary, rank := 0 }
  let t := s.withLaunch
  if nbits = 48 then
    (let u := t.modCore k fun c =>
       { c with vim := c.vim.put 0 (natLe 6 w), eng := { cmds := [fetchVrun], stream := some fetchStream, gangs := [], nextCmd := 1 } }
     { u with sched := [.run (.vec k)] })
  else { t with dram := t.dram.put fetchPc (natLe 24 (w % 2 ^ nbits)), sched := [.run (.core k)] }

end Sys2Proof.Machine
end

