-- ==== Sys2Proof/Safety.lean ====
section
/-! DEFINITION. The terms in which claims about the machine are made: whose turn it is, what the spec's tables say an instruction
computes, which storage is canonical, and what a step may do. Nothing here is used by the machine. -/

namespace Sys2Proof.Machine

/-! ### Who acts -/

/-- It is the turn of the control core of core `c` of copy `cp` of launch `l`, which reference `k` names. -/
structure State.CoreTurn (s : State) (k : CoreRef) (l : Launch) (cp : Copy) (c : Core) : Prop where
  cur : s.cur = .core k
  launch : s.launch? k.lid = some l
  copy : s.copy? k = some cp
  core : s.core? k = some c

/-- It is the turn of the stream `st` of that core. -/
structure State.StreamTurn (s : State) (k : CoreRef) (l : Launch) (cp : Copy) (c : Core) (st : Stream) : Prop where
  cur : s.cur = .vec k
  launch : s.launch? k.lid = some l
  copy : s.copy? k = some cp
  core : s.core? k = some c
  stream : c.eng.stream = some st

/-- The turn of an agent that executes scalar code, with its registers; the guard of its instruction holds (R53). -/
def State.executes (s : State) (r : Regs) (g : BitVec 4) : Prop := s.regs? = some r ∧ r.guard g = true

/-! ### Length and guard of an instruction (R50 to R53) -/

/-- Bytes an instruction of the scalar stream occupies. -/
def byteLen (i : Instr) : Nat := 4 * (encode i).length

/-- The guard field of the instructions that have one. -/
def guardOf (i : Instr) : Option (BitVec 4) :=
  match i with
  | .add _ _ _ g | .sub _ _ _ g | .mul _ _ _ g | .mulh _ _ _ g | .mulhn _ _ _ g | .div _ _ _ g | .divn _ _ _ g | .rem _ _ _ g
  | .remn _ _ _ g | .min _ _ _ g | .max _ _ _ g | .minn _ _ _ g | .maxn _ _ _ g | .and _ _ _ g | .or _ _ _ g | .xor _ _ _ g
  | .andn _ _ _ g | .shl _ _ _ g | .shr _ _ _ g | .sra _ _ _ g | .rotl _ _ _ g | .mov _ _ g | .clz _ _ g | .ctz _ _ g | .popc _ _ g
  | .sextB _ _ g | .sextH _ _ g | .sextW _ _ g | .zextB _ _ g | .zextH _ _ g | .zextW _ _ g | .cmp _ _ _ g _ | .pand _ _ _ g
  | .por _ _ _ g | .pxor _ _ _ g | .pnot _ _ g | .lit _ _ g | .tptr _ _ _ g | .tadd _ _ _ g | .tget _ _ _ g | .addSi _ _ g _
  | .subSi _ _ g _ | .mulSi _ _ g _ | .andSi _ _ g _ | .orSi _ _ g _ | .xorSi _ _ g _ | .shlSi _ _ g _ | .shrSi _ _ g _
  | .sraSi _ _ g _ | .rotlSi _ _ g _ | .minSi _ _ g _ | .maxSi _ _ g _ | .movi _ _ g _ | .taddSi _ _ g _ | .ld _ _ g _ _
  | .st _ _ g _ _ | .br g _ | .call g _ | .jmpr _ _ g | .ret g | .fence g _ | .tset _ _ g | .tpost _ _ g | .twait _ _ g
  | .ttest _ _ g | .trig _ _ g | .binit _ _ g | .barv _ g | .barvRemote _ _ g | .barx _ _ g | .bwait _ _ g | .bwaitX _ _ g
  | .abankAlloc _ _ g | .abankFree _ _ g | .tidset _ _ g | .tidget _ _ g | .nrd _ _ g | .nclr _ g | .nstat _ _ g | .vopen _ _ _ g
  | .vpub _ _ g | .vbind _ g | .vretire _ _ g | .vquery _ _ _ g | .trec _ _ g | .cwait _ _ _ g | .drainUsp g | .drainCls g
  | .drainDsp g | .drainVirt g | .drainVim g | .hflush _ _ g | .isync g | .enq _ _ _ g | .sigf _ g | .iter g | .ckpt g | .trap _ g
  | .sysret g | .wfe g | .exit g | .mfs _ _ g | .mts _ _ g => some g
  | .cpy e | .cpyT e | .cpyMc e | .cpyQ e | .gath e | .scat e | .bin e | .kvg e | .kva e | .kvdem e | .kvrefInc e | .kvrefDec e
  | .cube e | .cubeGa e | .cubeGb e | .cubeGk e | .cubeSp e | .aclr e | .adrain e | .stt e | .stp e | .stg e | .updSgd e
  | .updAdam e | .vrun e | .gang _ _ _ e | .chain _ e => some e.guard
  | _ => none

/-! ### What Tables 04-1 and 04-2 compute -/

/-- A result modulo 2^64. -/
def ofU (n : Nat) : Word := BitVec.ofNat 64 n
/-- A signed result modulo 2^64. -/
def ofS (n : Int) : Word := BitVec.ofInt 64 n
/-- A shift count, b[5:0]. -/
def shiftBy (b : Word) : Nat := b.toNat % 64
/-- TagAdd of R121: the offset modulo 2^48, the upper 16 bits as they are. -/
def tagSum (p d : Word) : Word := ofU (p.toNat / 2 ^ 48 * 2 ^ 48 + (p.toNat + d.toNat) % 2 ^ 48)
/-- a shifted left, right, right arithmetically, and rotated left. -/
def shiftL (a b : Word) : Word := ofU (a.toNat * 2 ^ shiftBy b)
def shiftR (a b : Word) : Word := ofU (a.toNat / 2 ^ shiftBy b)
def shiftA (a b : Word) : Word := ofS (a.toInt / 2 ^ shiftBy b)
def rotL (a b : Word) : Word := ofU (a.toNat * 2 ^ shiftBy b % 2 ^ 64 + a.toNat / 2 ^ (64 - shiftBy b))
/-- Smaller and larger, as Signed and as Unsigned. -/
def lesser (a b : Word) : Word := if a.toInt < b.toInt then a else b
def larger (a b : Word) : Word := if a.toInt < b.toInt then b else a
def lesserN (a b : Word) : Word := if a.toNat < b.toNat then a else b
def largerN (a b : Word) : Word := if a.toNat < b.toNat then b else a

/-- Two-operand SR instructions: destination, first source, second source, guard, and what Table 04-1 or R121 writes. -/
def aluTwo (i : Instr) : Option (BitVec 6 × BitVec 6 × Src × BitVec 4 × (Word → Word → Word)) :=
  match i with
  | .add d a b g => some (d, a, b, g, fun x y => ofU (x.toNat + y.toNat))
  | .sub d a b g => some (d, a, b, g, fun x y => ofS (x.toInt - y.toInt))
  | .mul d a b g => some (d, a, b, g, fun x y => ofU (x.toNat * y.toNat))
  | .mulh d a b g => some (d, a, b, g, fun x y => ofS (x.toInt * y.toInt / 2 ^ 64))
  | .mulhn d a b g => some (d, a, b, g, fun x y => ofU (x.toNat * y.toNat / 2 ^ 64))
  | .div d a b g => some (d, a, b, g, fun x y => if y = 0#64 then ofS (-1) else ofS (x.toInt.tdiv y.toInt))
  | .divn d a b g => some (d, a, b, g, fun x y => if y = 0#64 then ofU (2 ^ 64 - 1) else ofU (x.toNat / y.toNat))
  | .rem d a b g => some (d, a, b, g, fun x y => if y = 0#64 then x else ofS (x.toInt - y.toInt * x.toInt.tdiv y.toInt))
  | .remn d a b g => some (d, a, b, g, fun x y => if y = 0#64 then x else ofU (x.toNat % y.toNat))
  | .min d a b g => some (d, a, b, g, lesser)
  | .max d a b g => some (d, a, b, g, larger)
  | .minn d a b g => some (d, a, b, g, lesserN)
  | .maxn d a b g => some (d, a, b, g, largerN)
  | .and d a b g => some (d, a, b, g, fun x y => ofU (x.toNat &&& y.toNat))
  | .or d a b g => some (d, a, b, g, fun x y => ofU (x.toNat ||| y.toNat))
  | .xor d a b g => some (d, a, b, g, fun x y => ofU (x.toNat ^^^ y.toNat))
  | .andn d a b g => some (d, a, b, g, fun x y => ofU (x.toNat &&& (2 ^ 64 - 1 - y.toNat)))
  | .shl d a b g => some (d, a, b, g, shiftL)
  | .shr d a b g => some (d, a, b, g, shiftR)
  | .sra d a b g => some (d, a, b, g, shiftA)
  | .rotl d a b g => some (d, a, b, g, rotL)
  | .tptr d a b g => some (d, a, b, g, fun x y => ofU (x.toNat % 2 ^ 16 * 2 ^ 48 + y.toNat % 2 ^ 48))
  | .tadd d a b g => some (d, a, b, g, tagSum)
  | _ => none

/-- A value read as signed from its low `n` bits. -/
def lowSigned (n : Nat) (a : Word) : Word := if a.toNat % 2 ^ n < 2 ^ (n - 1) then ofU (a.toNat % 2 ^ n) else ofS (a.toNat % 2 ^ n - 2 ^ n)

/-- How many of the bits of `a` from bit `lo` up to bit `hi` are ones. -/
def onesIn (a : Word) (lo hi : Nat) : Nat := ((List.range hi).filter fun i => decide (lo ≤ i) && a.getLsbD i).length

/-- One-operand SR instructions of Tables 04-1 and 04-2 and TGET: destination, source, guard, and what is written. Leading zeros
are the bits above the last one, trailing zeros those below the first. -/
def aluOne (i : Instr) : Option (BitVec 6 × BitVec 6 × BitVec 4 × (Word → Word)) :=
  match i with
  | .mov d a g => some (d, a, g, fun x => x)
  | .clz d a g => some (d, a, g, fun x => ofU ((List.range 64).filter fun i => onesIn x i 64 == 0).length)
  | .ctz d a g => some (d, a, g, fun x => ofU ((List.range 64).filter fun i => onesIn x 0 (i + 1) == 0).length)
  | .popc d a g => some (d, a, g, fun x => ofU (onesIn x 0 64))
  | .sextB d a g => some (d, a, g, lowSigned 8)
  | .sextH d a g => some (d, a, g, lowSigned 16)
  | .sextW d a g => some (d, a, g, lowSigned 32)
  | .zextB d a g => some (d, a, g, fun x => ofU (x.toNat % 2 ^ 8))
  | .zextH d a g => some (d, a, g, fun x => ofU (x.toNat % 2 ^ 16))
  | .zextW d a g => some (d, a, g, fun x => ofU (x.toNat % 2 ^ 32))
  | .tget d a sel g => some (d, a, g, fun x =>
      if sel = 0#6 then ofU (x.toNat / 2 ^ 60) else if sel = 1#6 then ofU (x.toNat / 2 ^ 48 % 2 ^ 12) else ofU (x.toNat % 2 ^ 48))
  | _ => none

/-- The SI forms of R54 and R116: destination, first source, guard, `b`, and the operation. -/
def aluImm (i : Instr) : Option (BitVec 6 × BitVec 6 × BitVec 4 × Word × (Word → Word → Word)) :=
  let sext (n : BitVec 10) : Word := if n.toNat < 512 then ofU n.toNat else ofS (n.toNat - 1024)
  match i with
  | .addSi d a g n => some (d, a, g, sext n, fun x y => ofU (x.toNat + y.toNat))
  | .subSi d a g n => some (d, a, g, sext n, fun x y => ofS (x.toInt - y.toInt))
  | .mulSi d a g n => some (d, a, g, sext n, fun x y => ofU (x.toNat * y.toNat))
  | .minSi d a g n => some (d, a, g, sext n, lesser)
  | .maxSi d a g n => some (d, a, g, sext n, larger)
  | .taddSi d a g n => some (d, a, g, sext n, tagSum)
  | .andSi d a g n => some (d, a, g, ofU n.toNat, fun x y => ofU (x.toNat &&& y.toNat))
  | .orSi d a g n => some (d, a, g, ofU n.toNat, fun x y => ofU (x.toNat ||| y.toNat))
  | .xorSi d a g n => some (d, a, g, ofU n.toNat, fun x y => ofU (x.toNat ^^^ y.toNat))
  | .shlSi d a g n => some (d, a, g, ofU n.toNat, shiftL)
  | .shrSi d a g n => some (d, a, g, ofU n.toNat, shiftR)
  | .sraSi d a g n => some (d, a, g, ofU n.toNat, shiftA)
  | .rotlSi d a g n => some (d, a, g, ofU n.toNat, rotL)
  | _ => none

/-- CMP's condition by `fn` (Table 02-3). -/
def condHolds (cc : Nat) (a b : Word) : Prop :=
  match cc with
  | 0 => a = b
  | 1 => a ≠ b
  | 2 => a.toInt < b.toInt
  | 3 => b.toInt ≤ a.toInt
  | 4 => a.toNat < b.toNat
  | 5 => b.toNat ≤ a.toNat
  | 6 => a.toInt ≤ b.toInt
  | 7 => b.toInt < a.toInt
  | 8 => a.toNat ≤ b.toNat
  | _ => b.toNat < a.toNat

/-- The destination register of the instructions that write nothing but a register. -/
def destOf (i : Instr) : Option (BitVec 6) :=
  match i with
  | .movi d _ _ _ => some d
  | .lit d _ _ => some d
  | _ => ((aluTwo i).map fun x => x.1).or (((aluOne i).map fun x => x.1).or ((aluImm i).map fun x => x.1))

/-- The destination predicate of CMP and of the predicate operations. -/
def predOf (i : Instr) : Option (BitVec 3) :=
  match i with
  | .cmp p _ _ _ _ => some p
  | .pand d _ _ _ | .por d _ _ _ | .pxor d _ _ _ | .pnot d _ _ => some d
  | _ => none

/-! ### Memory operands -/

/-- The address of LD and ST: `TagAdd` of the register and the offset times the size (R122). -/
def memAddr (r : Regs) (a : BitVec 6) (z : BitVec 2) (o : BitVec 8) : Word := tagSum (r.get a) (ofS (o.toInt * 2 ^ z.toNat))

/-- A pointer of an Anole core to `n` bytes of device memory that an access of that size may reach: its offset is the DPA, the bytes
lie in one memory, are aligned to `align`, and their stack or package is ready (R124, R396, R406). -/
structure AnolePlace (s : State) (p : Word) (n align off : Nat) : Prop where
  virt : p.toNat / 2 ^ 48 = 0
  offset : off = p.toNat % 2 ^ 48
  range : rangeOk off n = true
  aligned : off % align = 0
  ready : s.dpaReady off = true

/-- A pointer of a core to `n` bytes of its own unit scratchpad (space SELF), within the grant and aligned (R40, R124). -/
structure OwnPlace (cp : Copy) (c : Core) (q : Pad) (p : Word) (n align off : Nat) : Prop where
  self : p.toNat / 2 ^ 48 = 0x7000
  offset : off = p.toNat % 2 ^ 48
  pad : cp.pad? (.usp c.rank) = some q
  grant : off + n ≤ q.limit
  aligned : off % align = 0

/-- No command of a copy has writes under way or has changed bytes that a load may still find as they were (R125), and no store of it is
short of its home. -/
def Copy.atRest (cp : Copy) : Prop :=
  cp.home = [] ∧ ∀ d ∈ cp.cores, d.port = [] ∧ ∀ m ∈ d.eng.cmds, m.writes = [] ∧ m.old = []

/-- No command that a core pushed is uncompleted, in its own queues or in a partner's. -/
def Copy.nothingPushed (cp : Copy) (rank : Nat) : Prop := ∀ d ∈ cp.cores, ∀ m ∈ d.eng.cmds, m.issuer d.rank ≠ rank

/-- What an atomic of Table 02-4 leaves and returns: destination, operand and address registers, order, width in bytes, the new value from
the old one, the operand and the compare value, and the register value from the old one (R126). -/
structure AmoForm where
  rd : BitVec 6
  ra : BitVec 6
  rb : BitVec 6
  ord : BitVec 2
  n : Nat
  new : Nat → Nat → Nat → Nat
  ret : Nat → Word

/-- An integer atomic of one register: 4 or 8 bytes; a 32-bit old value is sign-extended. -/
def amoForm (d a b : BitVec 6) (z o : BitVec 2) (f : Nat → Nat → Nat → Nat → Nat) : Option AmoForm :=
  if z = 1#2 then some { rd := d, ra := a, rb := b, ord := o, n := 4, new := f 32, ret := fun v => lowSigned 32 (ofU v) }
  else some { rd := d, ra := a, rb := b, ord := o, n := 8, new := f 64, ret := ofU }

/-- The value of `n` bits read as signed. -/
def signedOf (n v : Nat) : Int := if v < 2 ^ (n - 1) then v else (v : Int) - 2 ^ n

/-- The atomics of one destination register. -/
def amoOf (i : Instr) : Option AmoForm :=
  match i with
  | .amoAdd d a b z o => amoForm d a b z o fun n old x _ => (old + x) % 2 ^ n
  | .amoAnd d a b z o => amoForm d a b z o fun _ old x _ => old &&& x
  | .amoOr d a b z o => amoForm d a b z o fun _ old x _ => old ||| x
  | .amoXor d a b z o => amoForm d a b z o fun _ old x _ => old ^^^ x
  | .amoMin d a b z o => amoForm d a b z o fun n old x _ => if signedOf n x < signedOf n old then x else old
  | .amoMax d a b z o => amoForm d a b z o fun n old x _ => if signedOf n old < signedOf n x then x else old
  | .amoMinn d a b z o => amoForm d a b z o fun _ old x _ => min old x
  | .amoMaxn d a b z o => amoForm d a b z o fun _ old x _ => max old x
  | .amoXchg d a b z o => amoForm d a b z o fun _ _ x _ => x
  | .amoCas d a b z o => amoForm d a b z o fun _ old x c => if old = c then x else old
  | .amoFadd d a b z o =>
      some { rd := d, ra := a, rb := b, ord := o, n := 4, ret := ofU, new := fun old x _ =>
        if z = 1#2 then (fmtF32.add old x).1
        else (fmtBF16.add (old % 2 ^ 16) (x % 2 ^ 16)).1 + 2 ^ 16 * (fmtBF16.add (old / 2 ^ 16) (x / 2 ^ 16)).1 }
  | _ => none

/-! ### What stays -/

/-- Every location of memory, of every kind, and every SYS word is as it was: device memory, the coherent window, scratchpads,
accumulators, VIM, and what is held back from them. -/
def sameMemory (s t : State) : Prop :=
  t.dram = s.dram ∧ t.cwnN = s.cwnN ∧ t.cwnS = s.cwnS ∧ t.sys = s.sys ∧ t.lags = s.lags ∧
  (∀ k : CoreRef, (t.copy? k).map (fun cp => (cp.pads, cp.home, cp.binding)) = (s.copy? k).map fun cp => (cp.pads, cp.home, cp.binding)) ∧
  (∀ k : CoreRef, (t.core? k).map (fun c => (c.vim, c.tens.acc, c.port, c.muslin)) = (s.core? k).map fun c => (c.vim, c.tens.acc, c.port, c.muslin))

/-- The bytes `bs` are stored in device memory from `off` up, and every other byte reads as before. -/
def storedAt (s t : State) (off : Nat) (bs : List Byte) : Prop :=
  t.dram = s.dram.put off bs ∧ ∀ x, x < off ∨ off + bs.length ≤ x → t.dram.get x = s.dram.get x

/-- Everything but device memory and the registers of Anole core `a` is as it was. -/
def anoleFrame (s t : State) (a : BitVec 4) : Prop :=
  (∀ b, b ≠ .anole a → t.regsOf? b = s.regsOf? b) ∧ t.launches = s.launches ∧ t.sys = s.sys ∧ t.cwnN = s.cwnN ∧ t.cwnS = s.cwnS ∧
  t.host = s.host ∧ t.link = s.link ∧ t.queues = s.queues ∧ t.firm = s.firm ∧ t.cc = s.cc ∧ t.cur = s.cur ∧ t.sched = s.sched

/-- Every place outside the cores holds what it held: device memory, the coherent window, SYS, scratchpads with the stores on their way
to them, what launches and copies hold besides their cores, the Anole cores, the link, the hosts and the queues. -/
def outsideCores (s t : State) : Prop :=
  (∀ (j : CoreRef) p, (t.copy? j).bind (fun x => x.pad? p) = (s.copy? j).bind fun x => x.pad? p) ∧
  (∀ j : CoreRef, (t.copy? j).map (fun x => (x.home, x.binding, x.replay)) = (s.copy? j).map fun x => (x.home, x.binding, x.replay)) ∧
  (∀ n, (t.launch? n).map (fun x => (x.state, x.log, x.snap)) = (s.launch? n).map fun x => (x.state, x.log, x.snap)) ∧
  t.dram = s.dram ∧ t.cwnN = s.cwnN ∧ t.cwnS = s.cwnS ∧ t.sys = s.sys ∧ t.anoles = s.anoles ∧ t.host = s.host ∧ t.link = s.link ∧
  t.queues = s.queues ∧ t.cc = s.cc ∧ t.cur = s.cur ∧ t.sched = s.sched

/-- Core `k` becomes `c`; no other core and nothing outside the cores changes. -/
def onlyCore (s t : State) (k : CoreRef) (c : Core) : Prop :=
  t.core? k = some c ∧ (∀ j, j ≠ k → t.core? j = s.core? j) ∧ outsideCores s t

/-- A command, apart from the bytes that a load of its pushing core may still find, or that it may still read, as they were (R125). -/
def Cmd.bare (m : Cmd) : Cmd := { m with old := [], early := [] }

/-- A core with its commands so. -/
def Core.bare (c : Core) : Core := { c with eng := { c.eng with cmds := c.eng.cmds.map Cmd.bare } }

/-- Core `k` becomes `c` by a store that its port accepts: the commands that it pushed may still read what stood there (R125); nothing
else of any core, and nothing outside the cores, changes. -/
def storeAccepted (s t : State) (k : CoreRef) (c : Core) : Prop :=
  (t.core? k).map Core.bare = some c.bare ∧ (∀ j, j ≠ k → (t.core? j).map Core.bare = (s.core? j).map Core.bare) ∧ outsideCores s t

/-- Only the registers of agent `a` may differ. -/
def onlyRegs (s t : State) (a : Agent) : Prop :=
  (∀ b, b ≠ a → t.regsOf? b = s.regsOf? b) ∧
  (∀ k : CoreRef, ((t.core? k).map fun c => { c with regs := Regs.zero }) = (s.core? k).map fun c => { c with regs := Regs.zero }) ∧
  sameMemory s t ∧ t.cc = s.cc ∧ t.cur = s.cur ∧ t.sched = s.sched ∧ t.link = s.link ∧ t.host = s.host ∧ t.queues = s.queues

/-! ### Parts of a core -/

/-- The core with token `e` as given. -/
def Core.putTok (c : Core) (e : BitVec 6) (x : Token) : Core :=
  { c with sync := { c.sync with tokens := c.sync.tokens.set e.toNat x } }

/-- The core with its pc moved past `n` bytes. -/
def Core.past (c : Core) (n : Nat) : Core := { c with regs := c.regs.skip n }

/-- The core with barrier `b` as given. -/
def Core.putBar (c : Core) (b : BitVec 7) (x : Barrier) : Core :=
  { c with sync := { c.sync with barriers := c.sync.barriers.set b.toNat x } }

/-- A barrier after one arrival (R34): the one that makes the expected number starts the next generation. -/
def Barrier.counted (b : Barrier) : Barrier :=
  if (b.arr.toNat + 1) % 2 ^ 16 = b.exp.toNat then { b with arr := 0#16, gen := b.gen + 1#16 } else { b with arr := b.arr + 1#16 }

/-- The core with its open segment closed (R361). -/
def Core.segClosed (c : Core) : Core :=
  { c with muslin := { c.muslin with
      closed := c.muslin.closed ++ [{ id := c.muslin.seg, fold := c.muslin.fold, barv := c.muslin.barvs, counted := none }],
      seg := c.muslin.seg + 1, fold := 0#64, barvs := c.muslin.barvs + 1 } }

/-- Accumulator banks `f` to `f + n - 1` exist and are all allocated, or all free. -/
def Core.banksAre (c : Core) (f n : Nat) (v : Bool) : Prop := f + n ≤ 256 ∧ ∀ i, f ≤ i → i < f + n → c.tens.banks[i]? = some v

/-- `f` is the first bank of the lowest-numbered run of `n` free banks (R145). -/
def Core.lowestFree (c : Core) (f n : Nat) : Prop := c.banksAre f n false ∧ ∀ x, x < f → ¬ c.banksAre x n false

/-- Instruction `i` raises a fault of the current agent in state `u`, which is what it had done by then. -/
def traps (i : Instr) (s u : State) (x : Trap) : Prop := exec i s = .next ((u.endCommit s.cur).takeFault s.cur x)

/-- SYS space is in its canonical form. -/
def State.sysOk (s : State) : Prop := wordsAbove sysReset 0 s.sys = true

/-! ### Commit points -/

/-- A core of a class N or S launch at a commit point with nothing to wait for and nothing to release (R113): its pushed commands have
completed, its stores are performed, no line is held and no segment is closed, the log has room, and it does not replay. -/
structure State.AtCommit (s : State) (k : CoreRef) (l : Launch) (cp : Copy) (c : Core) : Prop extends s.CoreTurn k l cp c where
  role : k.role ≠ .third
  prot : l.packet.prot ≠ 2
  idle : c.commit = .idle
  pushed : c.pushesBusy = false
  live : l.log.length ≤ cp.replay
  room : l.log.length < 4096
  home : cp.home = []
  port : ∀ d ∈ cp.cores, d.rank = c.rank → d.port = []
  lines : c.muslin.lines = []
  closed : ∀ d ∈ cp.cores, d.muslin.closed = []
  calm : l.deferred = []

/-- The core after its commit point: its segment is released and the next one open. -/
def Core.committed (c : Core) : Core :=
  { c with commit := .idle
           muslin := { c.muslin with lines := [], closed := [], seg := c.muslin.seg + 1, fold := 0#64,
                                     commits := c.muslin.commits + 1, bad := [] } }

/-- The commit point of core `k` has been made once: the core becomes `c`, the log gains one entry with its operation and result, and the
copy takes the partition's binding in force (R27, R43, R366). `pads`: what its instruction does to the scratchpads; nothing, but for ENQ. -/
structure Logged (s t : State) (k : CoreRef) (l : Launch) (c : Core) (op : Nat) (res : Word) (pads : List Pad → List Pad := fun x => x) : Prop where
  core : t.core? k = some c
  log : ∃ e m, t.launch? k.lid = some m ∧ m.log = l.log ++ [e] ∧ m.state = l.state ∧ m.packet = l.packet ∧ m.snap = l.snap ∧
    e.op = op ∧ e.core = k.rank ∧ e.res = res ∧ e.binding = t.pbBinding l.part.toNat
  copy : ∃ x y, s.copy? k = some x ∧ t.copy? k = some y ∧ y.replay = l.log.length + 1 ∧ y.binding = t.pbBinding l.part.toNat ∧
    y.pads = pads x.pads ∧ y.home = x.home
  rest : t.cwnN = s.cwnN ∧ t.cwnS = s.cwnS ∧ t.anoles = s.anoles ∧ t.link = s.link ∧ t.cc = s.cc ∧ t.cur = s.cur ∧ t.sched = s.sched

/-- Every core but `k` is as it was. -/
def otherCores (s t : State) (k : CoreRef) : Prop := ∀ j, j ≠ k → t.core? j = s.core? j

/-! ### ENQ (R159, R272) -/

/-- The status of an ENQ by a handle of this node: 0x0F for a stale handle, 0x80 for a full ring, else 0. -/
def State.enqStatus (s : State) (h : Word) : Nat :=
  let n := h.toNat
  let q := BitVec.ofNat 12 (n % 2 ^ 16)
  if n / 2 ^ 60 ≠ 0 ∨ n / 2 ^ 32 % 2 ^ 16 ≠ 0 ∨ 4096 ≤ n % 2 ^ 16 ∨ s.qState q = 0 ∨ s.qState q = 3 ∨ (s.qGen q).toNat ≠ n / 2 ^ 16 % 2 ^ 16 then 0x0F
  else if s.qClaim q ≠ s.qWrite q ∨ min (s.qRead q) (s.qCack q) + 2 ^ s.qLsize q ≤ s.qClaim q then 0x80
  else 0

/-- A queue that can answer the handle: its ring's memory is ready, and where it takes the packet its indices are as R273 keeps them. -/
structure State.EnqReady (s : State) (h : Word) (q : BitVec 12) : Prop where
  node : h.toNat / 2 ^ 48 % 2 ^ 12 = s.node.toNat
  queue : q = BitVec.ofNat 12 (h.toNat % 2 ^ 16)
  ready : s.qState q ≠ 0 → s.dpaReady (s.qRing q) = true
  room : s.enqStatus h = 0 → s.sysOk ∧ s.qCack q ≤ s.qRead q ∧ s.qClaim q + 1 < 2 ^ 64

/-- A queue has taken a packet: the slot that was claimed holds it, `claim` and `write` are one further, the queue is active, and no other SYS
word has changed; the ring of a parked queue has moved back (R274). -/
structure Accepted (s t : State) (q : BitVec 12) (bs : List Byte) : Prop where
  indices : t.qClaim q = s.qClaim q + 1 ∧ t.qWrite q = s.qWrite q + 1 ∧ t.qRead q = s.qRead q ∧ t.qCack q = s.qCack q ∧ t.qState q = 1
  slot : s.qState q = 1 → t.dram = s.dram.put (s.slotAt q (s.qClaim q)) bs
  sys : ∀ off, off < qdOff q ∨ qdOff q + 64 ≤ off → t.sysW off = s.sysW off

/-! ### Durable memory -/

/-- A pointer of a core to `n` bytes of VIRT within one line of 64, outside versioned regions, whose page translates to local memory with
the rights that the access needs, by a walk that repairs nothing and by all that the TLB caches (R124, R334, R337, R359). -/
structure VirtPlace (s : State) (l : Launch) (c : Core) (p : Word) (n align : Nat) (kd : Kind) (va dpa : Nat) : Prop where
  space : va = p.toNat
  inside : va + n ≤ 2 ^ 52
  many : 1 ≤ n
  line : va % 64 + n ≤ 64
  aligned : va % align = 0
  plain : s.regionOfView l.ctx va = none ∧ s.inSlots l.ctx va = false
  leaf : ∃ e, s.walk l.ctx l.part va = (.leaf e, s) ∧ s.oldLeaves (s.tlb c.phys 0) l.ctx l.part va (.leaf e) = [] ∧
    e.node = none ∧ dpa = e.dpa + (va - e.va) ∧ (kd = .write → e.w = true ∧ e.rc = false) ∧ (kd = .record → e.rc = true)
  right : s.dpaRight (32 + l.part.toNat) dpa kd.right = true
  ready : s.dpaReady dpa = true

/-! ### Pushes -/

/-- The engine commands pushed by one instruction of their own, or under CHAIN: command, fields, chained, length in bytes. -/
def pushOf (i : Instr) : Option (EOp × EArgs × Bool × Nat) :=
  match i with
  | .cpy e => some (.cpy, e, false, 8) | .cpyT e => some (.cpyT, e, false, 8) | .cpyMc e => some (.cpyMc, e, false, 8)
  | .cpyQ e => some (.cpyQ, e, false, 8) | .gath e => some (.gath, e, false, 8) | .scat e => some (.scat, e, false, 8)
  | .bin e => some (.bin, e, false, 8) | .kvg e => some (.kvg, e, false, 8) | .cube e => some (.cube, e, false, 8)
  | .cubeGa e => some (.cubeGa, e, false, 8) | .cubeGb e => some (.cubeGb, e, false, 8) | .cubeGk e => some (.cubeGk, e, false, 8)
  | .cubeSp e => some (.cubeSp, e, false, 8) | .aclr e => some (.aclr, e, false, 8) | .adrain e => some (.adrain, e, false, 8)
  | .stt e => some (.stt, e, false, 8) | .stp e => some (.stp, e, false, 8) | .stg e => some (.stg, e, false, 8)
  | .updSgd e => some (.updSgd, e, false, 8) | .updAdam e => some (.updAdam, e, false, 8) | .vrun e => some (.vrun, e, false, 8)
  | .chain op e => some (op, e, true, 16)
  | _ => none

/-- The block-table instructions. -/
def kvOf (i : Instr) : Option (EOp × EArgs) :=
  match i with
  | .kva e => some (.kva, e) | .kvdem e => some (.kvdem, e) | .kvrefInc e => some (.kvrefInc, e) | .kvrefDec e => some (.kvrefDec, e)
  | _ => none

/-- The checks of R171 pass for a command of a core with operands `o`: its plan `p`, the tokens `ts` it leaves, the chunks it reserves. -/
structure State.PushOk (s : State) (k : CoreRef) (l : Launch) (cp : Copy) (c : Core) (o : Operands) (e : EArgs) (p : Plan)
    (ts : Vector Token 64) (chunks : List (PadId × Nat)) : Prop where
  operands : operandFault o none l.packet.vim = 0
  kregs : o.readsK = true → ∀ m ∈ c.eng.cmds, m.op ≠ .vrun
  plan : ∃ desc targets ws rs, descOf k o s = .ok (desc, s) ∧ (o.op = .cpyMc → mcTargets l c o.xc none = some targets) ∧
    (o.op ≠ .cpyMc → targets = []) ∧ checkPlan k o desc targets s = .ok (.ok (p, ws, rs), s) ∧ chunks = chunksFor l cp c o p targets
  tokens : pushTokens c.eng.nextCmd c.sync.tokens e.post (waitsOf e) = some ts
  room : c.depth (engineSrc o.op) false < 32
  counts : ∀ x ∈ chunks, (cp.chunk x).pend < 63

/-- A command as its push leaves it in a queue (R170 to R173): the operands, the tokens it waits on and posts, the order, what it captured,
and the earlier stores of its core that it waits for (Table 08-3); it has not started. -/
structure Cmd.asPushed (m : Cmd) (cp : Copy) (c : Core) (o : Operands) (e : EArgs) (chained : Bool) (p : Plan) (chunks : List (PadId × Nat)) : Prop where
  values : m.op = o.op ∧ m.xa = o.xa ∧ m.xb = o.xb ∧ m.xc = o.xc ∧ m.flags = o.flags
  tokens : m.waits = [e.wait0, e.wait1, e.wait2].filter (fun w => w != 63#6) ∧ m.post = e.post
  order : m.serial = (e.order == 1#2) ∧ m.chained = chained
  captured : m.tids = p.tids ∧ m.ks = c.vregs.k ∧ m.seg = c.muslin.seg ∧ m.chunks = chunks
  after : m.after = cp.outstanding c ∧ m.prior = cp.pushedNow o ∧ m.number = c.loop.pushes
  start : m.state = .queued ∧ m.writes = [] ∧ m.got = [] ∧ m.err = none ∧ m.raised = 0#7

/-- One command more in the queues of core `k`, with its tokens; its registers as `r`. -/
structure Pushed (s t : State) (k : CoreRef) (c : Core) (m : Cmd) (ts : Vector Token 64) (r : Regs) : Prop where
  core : ∃ d, t.core? k = some d ∧ d.eng.cmds = c.eng.cmds ++ [m] ∧ d.sync.tokens = ts ∧ d.regs = r ∧ d.sync.barriers = c.sync.barriers ∧
    d.vregs = c.vregs ∧ d.policy = c.policy ∧ d.muslin = c.muslin ∧ d.loop = { c.loop with pushes := c.loop.pushes + 1 }
  others : otherCores s t k
  rest : t.dram = s.dram ∧ t.cwnN = s.cwnN ∧ t.cwnS = s.cwnS ∧ t.sys = s.sys ∧ t.anoles = s.anoles ∧ t.host = s.host ∧ t.link = s.link ∧
    t.queues = s.queues ∧ t.cc = s.cc ∧ t.cur = s.cur ∧ t.sched = s.sched

/-! ### Block-table commands (R194 to R197) -/

/-- A core at the commit point of the block-table command `m`, its only one: the tokens have come, it posts none, and nothing is on its way to
what it reads. -/
structure State.AtKv (s : State) (k : CoreRef) (l : Launch) (cp : Copy) (c : Core) (m : Cmd) (g : BitVec 4) : Prop extends s.AtCommit k l cp c where
  guard : s.executes c.regs g
  only : c.eng.cmds = [m]
  tokens : m.waits = [] ∧ m.post = 63#6
  plain : m.chained = false ∧ m.partly = false ∧ m.got = [] ∧ m.early = []
  quiet : cp.atRest ∧ c.remote = []

/-- The list of the command, in the core's own scratchpad, names the blocks `ids` of the partition's table, each with its present
generation. -/
structure State.KvList (s : State) (l : Launch) (cp : Copy) (c : Core) (m : Cmd) (n : Nat) (ids : List Nat) : Prop where
  count : n = m.xb.toNat % 2 ^ 16 ∧ 1 ≤ n
  place : ∃ q off, OwnPlace cp c q m.xa (4 * n) 4 off ∧ q.mem.badIn off (4 * n) = false ∧
    (words32 n (q.mem.bytes off (4 * n))).map (fun x => (s.kvEntry l.part.toNat x).map fun y => y.1) = ids.map some
  whole : ∀ j ∈ ids, s.kvBad l.part.toNat j = false

/-- A block-table command has been performed, with its log entry: its core goes on, the command has left its queue, and the table is that
of `u`. -/
def kvDone (s t u : State) (k : CoreRef) (l : Launch) (c : Core) (op : Nat) : Prop :=
  (∃ d, Logged s t k l d op 0#64 ∧ d.eng.cmds = [] ∧ d.regs = c.regs.skip 8) ∧ otherCores s t k ∧ t.dram = u.dram ∧ t.sys = u.sys

/-! ### Vector words -/

/-- Element `e` of a row in elements of `w` bytes, lowest first (R228). -/
def lane (w : Nat) (r : BitVec 2048) (e : Nat) : Nat := r.toNat / 2 ^ (8 * w * e) % 2 ^ (8 * w)

/-- What the words of a stream work on: its registers, the results that have not landed, the flags of the word so far, and those that have
landed. -/
structure Issue where
  regs : VRegs
  wait : List Landing
  flags : Flags
  raised : Flags
deriving DecidableEq, Repr

/-- A core at the start of a word of its stream. -/
def Core.issue (c : Core) (st : Stream) : Issue := { regs := c.vregs, wait := st.landings, flags := 0#7, raised := 0#7 }

/-- The results due by cycle `t` land, by cycle and then by issue (R225, R226, R230). -/
def Issue.land (x : Issue) (t : Nat) : Issue :=
  let due := inLandOrder (x.wait.filter fun y => decide (y.cycle ≤ t))
  { x with regs := due.foldl (fun r y => r.land y.what) x.regs,
           raised := due.foldl (fun p y => match y.what with
             | .flags f _ => p ||| f
             | _ => p) x.raised,
           wait := x.wait.filter fun y => decide (t < y.cycle) }

/-- Repetition `j` of a word that issues from cycle `t` on: what has landed by its cycle is read, its results land `lat` later (R225).
`u`, `w`: how class S covers them, and the word they are of. -/
def Issue.rep (f : VRegs → VArgs → Nat → List LandKind × Flags) (u : Residue) (w : BitVec 14) (lat t : Nat) (v : VArgs) (x : Issue) (j : Nat) : Issue :=
  let y := x.land (t + j)
  let o := f y.regs (atRepV v j) j
  { y with wait := y.wait ++ o.1.map (fun d => { cycle := t + j + lat, what := d, unit := u, spc := w }), flags := y.flags ||| o.2 }

/-- A core after words of its stream, which is now `st`: the registers and flags as they have landed (R29, R90). -/
def Core.issued (c : Core) (x : Issue) (r : Nat × BitVec 7) (st : Stream) : Core :=
  { c with vregs := x.regs, policy := c.policy.raise x.raised, raisedAt := r, eng := { c.eng with stream := some st } }

/-- Nothing but that has changed; the flags that landed are those its units have set in this cycle. -/
def issuedOnly (s t : State) (k : CoreRef) (c : Core) (x : Issue) (st : Stream) : Prop :=
  ∃ r, onlyCore s t k (c.issued x r st) ∧ (c.issued x r st).raisedNow s.cc = c.raisedNow s.cc ||| x.raised

/-- The fixed-latency words and their latencies in cycles (Table 06-1). -/
def fixedOf (i : Instr) : Option (VArgs × Nat) :=
  match i with
  | .vadd v | .vsub v | .vmul v | .vfma v | .vfms v | .vmin v | .vmax v | .vabs v | .vneg v => some (v, 4)
  | .vrcp v | .vrsq v | .vexp2 v | .vlog2 v | .vtanh v | .vscan v | .vsegs v | .vgmb v => some (v, 8)
  | .viadd v | .visub v | .vimul v | .vand v | .vor v | .vxor v | .vshl v | .vshr v | .vsra v | .vimin v | .vimax v | .vsat v | .vcmp v
  | .vmovCK v | .vmovV v | .vmovAK v | .vmovAdd v | .vmovKV v | .vsel v | .vperm v | .vshuf v | .vbcst v | .viota v => some (v, 2)
  | .vcvt v | .vqnt v | .vdqnt v | .vunpk v | .vpack v => some (v, 3)
  | .vcnt v | .vrsum v | .vrmax v | .vrmin v | .vrng v | .vdrop v | .vargmx v => some (v, 6)
  | _ => none

/-- What the results of a word with fields `w` may write. -/
def writesTo (i : Instr) (w : VArgs) (x : LandKind) : Prop :=
  match i with
  | .vcmp _ => ∃ b d, x = .m (w.vd.extractLsb' 0 3) b d
  | .vmovCK _ => ∃ d, x = .c (w.asel.extractLsb' 0 2) d
  | .vmovAK _ | .vmovAdd _ => ∃ d, x = .a (w.vd.extractLsb' 0 4) d
  | .vmovKV _ => ∃ d, x = .k (w.vd.extractLsb' 0 4) d
  | _ => ∃ b d, x = .v w.vd b d

/-- An operation on the elements of va, vb and vd. -/
def laneOp (w : Nat) (op : Nat → Nat → Nat → Nat × Flags) (r : VRegs) (v : VArgs) (e : Nat) : Nat × Flags :=
  op (lane w (r.row v.va) e) (lane w (r.row v.vb) e) (lane w (r.row v.vd) e)

/-- A signed number as a code of `n` bits. -/
def codeOf (n : Nat) (x : Int) : Nat := (x % 2 ^ n).toNat

/-- The words that work element by element (R236, R237, R243, R244, R263 to R267): latency, element width, and what an enabled element
becomes, with its flags, from the registers. -/
def elementOf (i : Instr) : Option (VArgs × Nat × Nat × (VRegs → VArgs → Nat → Nat × Flags)) :=
  let flt (v : VArgs) (lat : Nat) (op : FFmt → Nat → Nat → Nat → Nat × Flags) := some (v, lat, typeBytes v.asel, laneOp (typeBytes v.asel) (op (typeFmt v.asel)))
  let int (v : VArgs) (op : Nat → Nat → Nat → Nat) :=
    some (v, 2, typeBytes v.asel, laneOp (typeBytes v.asel) fun a b _ => (op (8 * typeBytes v.asel) a b, 0#7))
  let less (v : VArgs) (n a b : Nat) : Bool := if 4 ≤ v.asel.toNat ∧ v.asel.toNat ≤ 6 then decide (signedOf n a < signedOf n b) else decide (a < b)
  match i with
  | .vadd v => flt v 4 fun f a b _ => f.add a b
  | .vsub v => flt v 4 fun f a b _ => f.sub a b
  | .vmul v => flt v 4 fun f a b _ => f.mul a b
  | .vfma v => flt v 4 fun f a b d => f.fma (f.decode a) (f.decode b) (f.decode d)
  | .vfms v => flt v 4 fun f a b d => f.fma (f.decode a).flip (f.decode b) (f.decode d)
  | .vrcp v => flt v 8 fun f a _ _ => f.done ((ofIntV 1).div (f.decode a))
  | .viadd v => int v fun n a b => (a + b) % 2 ^ n
  | .visub v => int v fun n a b => (a + (2 ^ n - b)) % 2 ^ n
  | .vimul v => int v fun n a b => a * b % 2 ^ n
  | .vand v => int v fun _ a b => a &&& b
  | .vor v => int v fun _ a b => a ||| b
  | .vxor v => int v fun _ a b => a ^^^ b
  | .vshl v => int v fun n a b => a * 2 ^ (b % n) % 2 ^ n
  | .vshr v => int v fun n a b => a / 2 ^ (b % n)
  | .vsra v => int v fun n a b => codeOf n (signedOf n a / 2 ^ (b % n))
  | .vimin v => int v fun n a b => if less v n b a then b else a
  | .vimax v => int v fun n a b => if less v n a b then b else a
  | .vmovV v => int v fun _ a _ => a
  | .vperm v => some (v, 2, typeBytes v.asel, fun r w e =>
      (lane (typeBytes v.asel) (r.row w.va) (lane (typeBytes v.asel) (r.row w.vb) e % (256 / typeBytes v.asel)), 0#7))
  | .vbcst v => some (v, 2, 4, fun r w _ => ((r.const w.asel).toNat, 0#7))
  | .viota v => some (v, 2, 4, fun r w e => ((r.const w.asel).toNat + e, 0#7))
  | _ => none

/-- Lanes of register `d` become what `f` gives, where it gives anything; every other lane and register stays. -/
structure WritesLanes (r r' : VRegs) (d : BitVec 5) (w : Nat) (f : Nat → Option Nat) : Prop where
  lanes : ∀ e, e < 256 / w → lane w (r'.row d) e = (f e).getD (lane w (r.row d) e)
  rows : ∀ i, i ≠ d → r'.row i = r.row i
  rest : r'.m = r.m ∧ r'.a = r.a ∧ r'.k = r.k ∧ r'.c = r.c

/-- A word of one repetition in a stream with no result pending is issued: its results `ls` and its flags land `lat` cycles later; the next
word issues after its idle cycles. Nothing else changes. -/
def wordIssued (s t : State) (k : CoreRef) (c : Core) (st : Stream) (idle lat : Nat) (ls : List LandKind) (g : Flags) : Prop :=
  ∃ zs : List Landing, zs.map (fun z => (z.cycle, z.what)) = ls.map (fun x => (st.cycle + lat, x)) ++ (if g = 0#7 then [] else [(st.cycle + lat, .flags g st.spc)]) ∧
    onlyCore s t k { c with eng := { c.eng with stream := some { st with spc := st.spc + 1#14, cycle := st.cycle + 1 + idle, landings := zs } } }

/-- A stream of a core whose memory words find everything at rest: its command is running, is not chained, has no store pending and
reads nothing that its core has stored to since its push, no result is pending, and no other agent's write is on its way. -/
structure State.StreamAtRest (s : State) (k : CoreRef) (l : Launch) (cp : Copy) (c : Core) (st : Stream) (m : Cmd) : Prop extends
    s.StreamTurn k l cp c st where
  command : c.cmd? st.cmd = some m
  chained : m.chained = false
  early : m.early = []
  landed : st.landings = []
  quiet : cp.atRest

/-- Where vector stores of the core's own scratchpad go: the bytes of a list of writes, in order, over a memory. -/
def padWritten (rank : Nat) (m : Store) (ws : List PendWrite) : Store :=
  ws.foldl (fun x w => match w.loc with
    | .pad (.usp r) o => if r = rank then x.put o w.data else x
    | _ => x) m

/-! ### Writes of SYS space -/

/-- The events that are one write of a whole SYS word: the master, the offset (Table 11-2) and the value. -/
def sysWriteOf (i : Instr) : Option (BitVec 7 × Nat × Word) :=
  match i with
  | .contextStateWrite c m v => some (m, 0x10000 + 64 * c.toNat, v)
  | .shootdownIssue c m v => some (m, 0x10000 + 64 * c.toNat + 32, v)
  | .contextResolveWrite c m v => some (m, 0x10000 + 64 * c.toNat + 40, v)
  | .vrCreate c m a => some (m, 0x10000 + 64 * c.toNat + 48, ofU a.toNat)
  | .vrDestroy c m a => some (m, 0x10000 + 64 * c.toNat + 48, ofU (2 ^ 61 + a.toNat))
  | .vrAbandon c m a => some (m, 0x10000 + 64 * c.toNat + 48, ofU (2 ^ 62 + a.toNat))
  | .breakpointWrite c i m v => some (m, 0x14000 + 64 * c.toNat + 8 * i.toNat, v)
  | .faultQueueDescriptorWrite h m w v => some (m, 0x18000 + 64 * h.toNat + 8 * w.toNat, v)
  | .faultQueueReadWrite h m v => some (m, 0x18000 + 64 * h.toNat + 16, v)
  | .powerLimitWrite m v => some (m, 32, ofU v.toNat)
  | .queueErrorWrite q m v => some (m, 0x100000 + 64 * q.toNat + 48, v)
  | .queueCompletionAck q m v => some (m, 0x100000 + 64 * q.toNat + 56, v)
  | .dependenceCounterWrite c m v => some (m, 0x150000 + 8 * c.toNat, v)
  | .remoteMasterWrite i m v => some (m, 0x170000 + 8 * i.toNat, v)
  | _ => none

/-- A host's earlier writes of device memory are performed before its next input (R322). -/
def State.before (s : State) (m : BitVec 7) : State := if m.toNat < 32 then s.settleLag [hostAgent m.toNat] else s

/-- A master that may write the SYS word: the Anole cores, or a host function with the right on its page and, for the claim and write
indices of a queue, on the queue (R389). -/
def State.maySys (s : State) (m : BitVec 7) (off : Nat) : Prop :=
  m = 44#7 ∨ (m.toNat < 32 ∧ s.sysRight m.toNat off .write = true ∧ s.claimRight m.toNat off = true)

/-- Nothing but SYS space has changed, of what an instruction could see: memories, launches, Anole cores, link and hosts. -/
def sysOnly (s t : State) : Prop :=
  t.dram = s.dram ∧ t.cwnN = s.cwnN ∧ t.cwnS = s.cwnS ∧ t.launches = s.launches ∧ t.anoles = s.anoles ∧ t.link = s.link ∧ t.host = s.host ∧
  t.queues = s.queues ∧ t.rel = s.rel ∧ t.cc = s.cc ∧ t.cur = s.cur ∧ t.sched = s.sched

/-! ### Hosts and other devices -/

/-- What a host's operation leaves of the bytes it touches (R384, R385). -/
def hostLeaves (op : HostOp) (old : List Byte) : List Byte :=
  let n := old.length
  match op with
  | .read _ => old
  | .write bs => bs
  | .fetchAdd _ v => natLe n ((leNat old + v.toNat) % 2 ^ (8 * n))
  | .swap _ v => natLe n (v.toNat % 2 ^ (8 * n))
  | .cas _ c v => if leNat old = c.toNat % 2 ^ (8 * n) then natLe n (v.toNat % 2 ^ (8 * n)) else old

/-- The answers a host has had, and one more for an operation that reads. -/
def hostAnswered (s t : State) (f : BitVec 5) (op : HostOp) (bs : List Byte) (poisoned : Bool) : Prop :=
  t.host.reads = match op with
    | .write _ => s.host.reads
    | _ => s.host.reads ++ [(f, bs, poisoned)]

/-- An answer to the sender of a message can leave at once: a port towards its node is up, and no channel is paused (R398, R400). -/
def State.answers (s : State) (m : LinkMsg) : Prop := s.reachable m.src = true ∧ s.link.pauses = [] ∧ s.link.held = []

/-- A request from another node is answered once, with its tag, on a port towards its node (R398, Table 11-5). -/
def linkAnswered (s t : State) (m : LinkMsg) (op : Nat) (stat : Byte) (payload : List Byte) : Prop :=
  ∃ p, ∃ r : LinkMsg, t.link.out = s.link.out ++ [(p, r)] ∧ (t.livePorts m.src).testBit p = true ∧ r.dst = m.src ∧ r.src = m.dst ∧ r.tag = m.tag ∧ r.vc = 1#2 ∧ r.op.toNat = op ∧ r.stat = stat ∧
    r.payload = payload

/-- A request to the memory of this device that its home serves and can answer: `n` bytes at `d`, by a master with the right, at a memory that
is ready and no released host write on its way. -/
structure State.LinkServes (s : State) (m : LinkMsg) (mm d n : Nat) (r : Right) : Prop where
  node : s.link.nodeSet = true ∧ m.dst = s.node
  master : s.remoteMaster m = some mm
  place : d = m.addr.toNat % 2 ^ 48 ∧ dpaOk d = true ∧ dpaOk (d + n - 1) = true ∧ d % n = 0
  right : s.dpaRight mm d r = true
  ready : s.dpaReady d = true
  calm : s.host.writes = [] ∧ s.firm.save = none
  answers : s.answers m

/-! ### The management controller -/

/-- The mailbox commands: host, command and arguments (R408). -/
def mbOf (i : Instr) : Option (BitVec 1 × Word × Word × Word × Word) :=
  match i with
  | .mbReadScore h u => some (h, 1#64, ofU u.toNat, 0#64, 0#64)
  | .mbClearFence h u => some (h, 2#64, ofU u.toNat, 0#64, 0#64)
  | .mbCopyFlashRecord h n d => some (h, 3#64, ofU n, d, 0#64)
  | .mbWriteFirmwareSlot h a d n => some (h, 4#64, a, d, n)
  | .mbDeviceReset h => some (h, 5#64, 0#64, 0#64, 0#64)
  | .mbRaiseAntirollback h v => some (h, 6#64, v, 0#64, 0#64)
  | .mbCapacitySave h b => some (h, 8#64, b, 0#64, 0#64)
  | .mbCapacityRestore h b => some (h, 9#64, b, 0#64, 0#64)
  | .mbUnknownCommand h c => some (h, c, 0#64, 0#64, 0#64)
  | _ => none

/-- A host may use its mailbox: its PF has the right to the page (R389). -/
def State.mbMay (s : State) (h : BitVec 1) : Prop := s.right 0x01300000 (2 + h.toNat) (16 * h.toNat) .write = true

/-- It may, and no command of it runs. -/
def State.mbFree (s : State) (h : BitVec 1) : Prop := s.sysOk ∧ s.mbMay h ∧ s.sysW (0x2020 + 0x1000 * h.toNat) ≠ 1#64

/-- `MB.st` and `MB.res` of a host. -/
def State.mbSt (s : State) (h : BitVec 1) : Nat := (s.sysW (0x2020 + 0x1000 * h.toNat)).toNat
def State.mbRes (s : State) (h : BitVec 1) : Nat := (s.sysW (0x2028 + 0x1000 * h.toNat)).toNat

/-- A command ends with a status; memory, launches and flash are as they were. -/
def mbEnds (s t : State) (h : BitVec 1) (st : Nat) : Prop :=
  t.mbSt h = st ∧ t.dram = s.dram ∧ t.launches = s.launches ∧ t.firm.flash = s.firm.flash

/-- What a device reset keeps and loses (R382, R405): no launch, queue or context lives on, HBM reads zero, and what has left the device, the
capacity tier, the hosts' memories, flash, scores and the active slot stay, with the flash record written. -/
structure WasReset (s t : State) : Prop where
  work : t.launches = [] ∧ t.placing = [] ∧ (∀ q, t.qState q = 0) ∧ ∀ c, t.cxState c = 0
  kept : t.firm.flash.cells = s.firm.flash.cells ∧ t.firm.minVer = s.firm.minVer ∧ t.rel.units = s.rel.units ∧ t.host.writes = s.host.writes
  memory : ∀ x, t.dram.get x = if x < 2 ^ 44 then 0#8 else s.dram.get x
  slot : t.fwAct = s.activeSlot
  record : t.rel.ring = s.rel.ring.set ((s.rel.seq + 1) % 64) (some s.rel.record) ∧ t.rel.seq = s.rel.seq + 1
  off : t.firm.boot = false

/-- One SPDM response on the DOE mailbox of a host's PF: its code and what follows the four bytes at its head (R403). -/
def doeAnswered (s t : State) (h : BitVec 1) (code : Byte) (body : List Byte) : Prop :=
  (∃ b, t.host.doe = s.host.doe ++ [(h, b)] ∧ b.take 2 = [0x13#8, code] ∧ b.drop 4 = body) ∧ t.dram = s.dram ∧ t.launches = s.launches ∧ t.sys = s.sys

/-! ### Canonical storage -/

/-- Every storage of the machine is in its canonical form. -/
def Memory.wf (s : State) : Bool :=
  s.dram.wf && s.cwnN.wf && s.cwnS.wf && s.firm.flash.wf && wordsAbove sysReset 0 s.sys &&
  s.launches.all fun l => l.copies.all fun cp => (cp.pads.all fun p => p.mem.wf) && cp.cores.all fun c => c.vim.wf && c.tens.acc.wf

/-- A step that goes on: it answers a next state, neither a fault nor a refusal. -/
def State.goesOn (s : State) : Prop := ∃ t, step s = .next t

end Sys2Proof.Machine
end

