-- ==== Sys2Proof/Certificates/Slice0/Obligations.lean ====
section
/-! DEFINITION. The statements for the provers, one Prop each, from the numbered rules of the spec. -/

open Sys2Proof Sys2Proof.Machine

/-! ### Encoding -/

/-- Tables 02-1 to 02-8: a few words of each form, written out bit by bit, decode to the instructions they stand for. -/
def Obligations.WordsDecode : Prop :=
  -- ADD x3, x4, x5: MOP 0x00 [31:26], rd [25:20], ra [19:14], rb [13:8], guard [7:4], fn [3:0]
  decode [0b000000_000011_000100_000101_0000_0000#32] = .ok (.add 3#6 4#6 (.reg 5#6) 0#4) ∧
  -- (p2) ROTL x1, x2, 0x11: rb 62 and one literal word
  decode [0b000001_000001_000010_111110_0010_0111#32, 0x11#32] = .ok (.rotl 1#6 2#6 (.lit32 0x11#32) 2#4) ∧
  -- MOVI x5, -300: MOP 0x1C, the 16 bits 0xFED4 in ra and imm10
  decode [0b011100_000101_111111_0000_1011010100#32] = .ok (.movi 5#6 0x3F#6 0#4 0x2D4#10) ∧
  -- LD.D x7, [x8 - 8]: MOP 0x20, size 3, offset -1
  decode [0b100000_000111_001000_0000_11_11111111#32] = .ok (.ld 7#6 8#6 0#4 3#2 0xFF#8) ∧
  -- BR -2 words: MOP 0x28, guard, disp22
  decode [0b101000_0000_1111111111111111111110#32] = .ok (.br 0#4 0x3FFFFE#22) ∧
  -- AMO.ADD.D.R x1, x2, [x3]: MOP 0x2C, size 2, order 1, aop 0
  decode [0b101100_000001_000010_000011_10_01_0000#32] = .ok (.amoAdd 1#6 2#6 3#6 2#2 1#2) ∧
  -- BWAIT b65, x4: barrier bit 6 in rd [20], bits 5:0 in ra
  decode [0b110001_000001_000001_000100_0000_0011#32] = .ok (.bwait 65#7 (.reg 4#6) 0#4) ∧
  -- NOP
  decode [0b110111_00000000000000000000000000#32] = .ok (.nop 0#26) ∧
  -- CPY xa 1, xb 2, xc 3, no token named, parallel: two words (Table 02-5)
  decode [0b111000_000000_000001_000010_0000_0000#32, 0b111111_111111_111111_111111_000011_00#32] =
    .ok (.cpy { xa := 1#6, xb := 2#6, guard := 0#4, flags := 0#4, post := 63#6, wait0 := 63#6, wait1 := 63#6, wait2 := 63#6, xc := 3#6, order := 0#2 }) ∧
  -- VIADD v1, v2, v3 on 32-bit elements (Table 02-7)
  decodeVector 0b00100000_00001_00010_00011_000_00_00000000_0100_000_00000#48 =
    .ok (.viadd { vd := 1#5, va := 2#5, vb := 3#5, mask := 0#3, walk := 0#2, rep := 0#8, asel := 4#4, step := 0#3, idle := 0#5 }) ∧
  -- VEND
  decodeVector 0x720000000000#48 = .ok .vend ∧
  -- a major opcode that no row assigns, and a guard of never (R53)
  decode [0b101011_00000000000000000000000000#32] = .ok (.unassignedEncoding 0xAC000000#32) ∧
  decode [0b000000_000011_000100_000101_1000_0000#32] = .error .range

/-- R49 to R63: decoding what the encoder writes gives the instruction back, for every well-formed instruction, with every operand
at every value its encoding admits, whatever follows it in the stream; the words of steps and events are none. -/
def Obligations.EncodeDecodeAgree : Prop :=
  ∀ i : Instr,
    (i.form = .scalar ∨ i.form = .engine → i.wf = true → ∀ rest, decode (encode i ++ rest) = .ok i) ∧
    (i.form = .vector → i.wf = true → ∃ w, encodeVector i = some w ∧ decodeVector w = .ok i) ∧
    (i.form = .event → encode i = [] ∧ encodeVector i = none)

/-- R53, R55, R58 to R60, R63, R64: what a decoder accepts is well formed: a word whose reserved fields, guard or ranges break a
rule never reaches execution as its instruction. -/
def Obligations.DecodedIsWellFormed : Prop :=
  (∀ ws i, decode ws = .ok i → i.wf = true ∧ guardOf i ≠ some 8#4) ∧ ∀ w i, decodeVector w = .ok i → i.wf = true

/-! ### Registers -/

/-- R115 and R121 (TPTR, TADD): every two-operand register instruction writes what Table 04-1 gives to x[rd], and nothing but that
register and the pc changes: a write to x0 is discarded (R22), the literal forms read the literal (R52).
R115 (MOV), R117 and R121 (TGET): the one-operand register instructions, by Table 04-2.
R54 and R116: the immediate forms compute what their register namesakes do, with `b` sign-extended for ADD, SUB, MUL, MIN, MAX and
TADD, zero-extended for the others; MOVI writes its 16 bits sign-extended, LIT its literal (R120), and NOP nothing (R168). -/
def Obligations.ScalarResults : Prop :=
  (∀ i d a b g f r s, aluTwo i = some (d, a, b, g, f) → s.executes r g →
    exec i s = .next (s.modRegs fun _ => (r.set d (f (r.get a) (srB r b))).skip (srLen b))) ∧
  (∀ i d a g f r s, aluOne i = some (d, a, g, f) → i.wf = true → s.executes r g →
    exec i s = .next (s.modRegs fun _ => (r.set d (f (r.get a))).skip 4)) ∧
  ((∀ i d a g b f r s, aluImm i = some (d, a, g, b, f) → s.executes r g →
    exec i s = .next (s.modRegs fun _ => (r.set d (f (r.get a) b)).skip 4)) ∧
  (∀ d h g n r s, s.executes r g →
    exec (.movi d h g n) s = .next (s.modRegs fun _ => (r.set d (ofS (if h.toNat < 32 then h.toNat * 1024 + n.toNat else h.toNat * 1024 + n.toNat - 65536))).skip 4)) ∧
  (∀ d b g r s, s.executes r g → exec (.lit d b g) s = .next (s.modRegs fun _ => (r.set d (srB r b)).skip (srLen b))) ∧
  ∀ n r s, s.regs? = some r → exec (.nop n) s = .next (s.modRegs fun _ => r.skip 4))

/-- R118 and R119: CMP and the predicate operations write one predicate, from the condition or from two predicates; p0 reads 1. A word with the
destination p0, or with a res0 bit of the destination or of PNOT's `rb` set, decodes to no instruction (Illegal Encoding, by the step);
CMP's conditions 10 to 15 are unassigned. -/
def Obligations.PredicateResults : Prop :=
  (∀ p a b g cc r s t, s.executes r g → cc.toNat < 10 → (t = true ↔ condHolds cc.toNat (r.get a) (srB r b)) →
    exec (.cmp p a b g cc) s = .next (s.modRegs fun _ => (r.setPred p t).skip (srLen b))) ∧
  (∀ d a b g r s, s.executes r g →
    exec (.pand d a b g) s = .next (s.modRegs fun _ => (r.setPred d (r.pred a && r.pred b)).skip 4) ∧
    exec (.por d a b g) s = .next (s.modRegs fun _ => (r.setPred d (r.pred a || r.pred b)).skip 4) ∧
    exec (.pxor d a b g) s = .next (s.modRegs fun _ => (r.setPred d (xor (r.pred a) (r.pred b))).skip 4) ∧
    exec (.pnot d a g) s = .next (s.modRegs fun _ => (r.setPred d (!r.pred a)).skip 4)) ∧
  (∀ r : Regs, r.pred 0#3 = true) ∧
  (∀ (p : BitVec 3) (a b : BitVec 6) (g f : BitVec 4), p ≠ 0#3 → g ≠ 8#4 → b.toNat < 62 → f.toNat < 10 →
    decode [(0x03#6 ++ (0#3 ++ p) ++ a ++ b ++ g ++ f : BitVec 32)] = .ok (.cmp p a (.reg b) g f)) ∧
  (∀ (d a b : BitVec 6) (g f : BitVec 4) rest i, d.toNat / 8 ≠ 0 ∨ d.toNat % 8 = 0 →
    (f.toNat < 10 → decode ((0x03#6 ++ d ++ a ++ b ++ g ++ f : BitVec 32) :: rest) ≠ .ok i) ∧
    (f.toNat < 4 → decode ((0x04#6 ++ d ++ a ++ b ++ g ++ f : BitVec 32) :: rest) ≠ .ok i)) ∧
  (∀ (a b : BitVec 6) (d : BitVec 6) (g f : BitVec 4) w, w = (0x03#6 ++ d ++ a ++ b ++ g ++ f : BitVec 32) → b.toNat < 62 → 10 ≤ f.toNat →
    decode [w] = .ok (.unassignedEncoding w)) ∧
  (∀ (d a b : BitVec 3) (g : BitVec 4), d ≠ 0#3 → g ≠ 8#4 →
    decode [(0x04#6 ++ (0#3 ++ d) ++ (0#3 ++ a) ++ (0#3 ++ b) ++ g ++ 0#4 : BitVec 32)] = .ok (.pand d a b g) ∧
    decode [(0x04#6 ++ (0#3 ++ d) ++ (0#3 ++ a) ++ (0#3 ++ b) ++ g ++ 1#4 : BitVec 32)] = .ok (.por d a b g) ∧
    decode [(0x04#6 ++ (0#3 ++ d) ++ (0#3 ++ a) ++ (0#3 ++ b) ++ g ++ 2#4 : BitVec 32)] = .ok (.pxor d a b g) ∧
    decode [(0x04#6 ++ (0#3 ++ d) ++ (0#3 ++ a) ++ 0#6 ++ g ++ 3#4 : BitVec 32)] = .ok (.pnot d a g)) ∧
  ∀ (d a b : BitVec 6) (g : BitVec 4) rest i, b ≠ 0#6 → decode ((0x04#6 ++ d ++ a ++ b ++ g ++ 3#4 : BitVec 32) :: rest) ≠ .ok i

/-- R22: x0 reads zero and discards what is written to it; every other register reads what was written, and a write changes no
other register, no predicate and not the pc. -/
def Obligations.RegisterFile : Prop :=
  ∀ (r : Regs) (d j : BitVec 6) (v : Word),
    r.get 0#6 = 0#64 ∧ r.set 0#6 v = r ∧ (d ≠ 0#6 → (r.set d v).get d = v) ∧ (j ≠ d → (r.set d v).get j = r.get j) ∧
    (r.set d v).p = r.p ∧ (r.set d v).pc = r.pc

/-- R53: an instruction executes when the predicate its guard selects, inverted as bit 3 says, is 1: p0 always does, and no instruction that decodes
has the guard of never, whose words are Illegal Encoding (0x01). One that is predicated off has no effect: no fault, no memory access, no
token or barrier action, nothing pushed; the pc alone moves past it and its literal words. -/
def Obligations.PredicatedOff : Prop :=
  (∀ i g r s, guardOf i = some g → s.regs? = some r → r.guard g = false →
    exec i s = .next (s.modRegs fun r => r.skip (byteLen i))) ∧
  (∀ (r : Regs) (g : BitVec 4), r.guard g = xor (r.pred (g.extractLsb' 0 3)) (g.getLsbD 3) ∧ r.guard 0#4 = true) ∧
  (∀ ws i, decode ws = .ok i → guardOf i ≠ some 8#4) ∧
  ∀ s w, (∃ k, s.cur = .core k) ∨ (∃ a, s.cur = .anole a) → exec (.unassignedEncoding w) s = .next (s.takeFault s.cur (Trap.mk' 0x01))

/-- R22, R53, R112, R115 to R121: the instructions that write one x register or one predicate leave every other register of their agent, every
other agent, every control and exception register, every byte of memory of every kind and the schedule as they are. -/
def Obligations.RegisterFrame : Prop :=
  ∀ i s t, exec i s = .next t →
    (∀ d, destOf i = some d → onlyRegs s t s.cur ∧ ∀ r, s.regs? = some r → ∃ q, t.regs? = some q ∧ q.p = r.p ∧ ∀ j, j ≠ d → q.get j = r.get j) ∧
    (∀ d, predOf i = some d → onlyRegs s t s.cur ∧ ∀ r, s.regs? = some r → ∃ q, t.regs? = some q ∧ q.x = r.x ∧ ∀ j, j ≠ d → q.pred j = r.pred j)

/-! ### Branches -/

/-- R51, R53, R130, R131: BR and CALL go to the base address plus 4·disp22, CALL leaving the address after it in lr; JMPR and RET go to
the register's value when it is an aligned VIRT address, JMPR leaving the address after it in x[rd] (nothing for rd = 0) after it has
read the target. Nothing else changes. A JMPR or RET whose target is no VIRT address takes Space (0x04), one whose
target is not aligned to 4 bytes Misaligned (0x03); no data address has faulted, and nothing is written. Their res0 fields are checked. -/
def Obligations.BranchTargets : Prop :=
  (∀ s r g, s.executes r g →
     (∀ disp, exec (.br g disp) s = .next (s.modRegs fun x => x.setPc (r.pc + ofS (4 * disp.toInt)))) ∧
     (∀ disp, exec (.call g disp) s =
       .next (s.modRegs fun x => (x.set 62#6 (r.pc + 4#64)).setPc (r.pc + ofS (4 * disp.toInt)))) ∧
     (∀ d a, (r.get a).toNat < 2 ^ 52 → (r.get a).toNat % 4 = 0 →
       exec (.jmpr d a g) s = .next (s.modRegs fun x => (x.set d (r.pc + 4#64)).setPc (r.get a))) ∧
     ((r.get 62#6).toNat < 2 ^ 52 → (r.get 62#6).toNat % 4 = 0 → exec (.ret g) s = .next (s.modRegs fun x => x.setPc (r.get 62#6)))) ∧
  (∀ s r g d a, s.executes r g →
     (2 ^ 52 ≤ (r.get a).toNat → traps (.jmpr d a g) s s (Trap.mk' 0x04)) ∧
     ((r.get a).toNat < 2 ^ 52 → (r.get a).toNat % 4 ≠ 0 → traps (.jmpr d a g) s s (Trap.mk' 0x03)) ∧
     (2 ^ 52 ≤ (r.get 62#6).toNat → traps (.ret g) s s (Trap.mk' 0x04)) ∧
     ((r.get 62#6).toNat < 2 ^ 52 → (r.get 62#6).toNat % 4 ≠ 0 → traps (.ret g) s s (Trap.mk' 0x03))) ∧
  ∀ (d a b : BitVec 6) (g : BitVec 4), g ≠ 8#4 →
    decode [(0x2A#6 ++ d ++ a ++ 0#6 ++ g ++ 0#4 : BitVec 32)] = .ok (.jmpr d a g) ∧
    decode [(0x2A#6 ++ 0#6 ++ 0#6 ++ 0#6 ++ g ++ 1#4 : BitVec 32)] = .ok (.ret g) ∧
    (b ≠ 0#6 → ∀ rest i, decode ((0x2A#6 ++ d ++ a ++ b ++ g ++ 0#4 : BitVec 32) :: rest) ≠ .ok i) ∧
    (d ≠ 0#6 ∨ a ≠ 0#6 ∨ b ≠ 0#6 → ∀ rest i, decode ((0x2A#6 ++ d ++ a ++ b ++ g ++ 1#4 : BitVec 32) :: rest) ≠ .ok i)

/-! ### Steps and turns -/

/-- R49, R50: when it is the turn of a control core that can run, and its fetch delivers words that decode to `i`, the step executes
`i` in the state the fetch left, counts the execution for the breakpoints (R394), and an error that strikes its result (R358) is detected
or not; words that decode to nothing are Illegal
Encoding (R55). -/
def Obligations.StepRunsCoreInstr : Prop :=
  ∀ (s t u : State) (k : CoreRef) (ts : List Turn) (ws : List (BitVec 32)) (i : Instr),
    s.sched = .run (.core k) :: ts → coreRunnable { s with sched := ts } k = true →
    coreFetch k { s with sched := ts, cur := .core k } = .ok (ws, t) →
    (decode ws = .ok i ∨ ((∃ e, decode ws = .error e) ∧ i = .unassignedEncoding (ws.headD 0#32))) → exec i t = .next u →
    step s = .next (t.struck i (t.executed i u))

/-- R49, R396: an Anole core executes the well-formed instruction whose words lie at its pc in device memory, in the state as it is:
its fetch changes nothing.
R61, R224: a stream that can issue executes the vector word that lies in instruction memory at six times its word number; one
that R63 refuses is Illegal Encoding. -/
def Obligations.StepRunsOtherWords : Prop :=
  (∀ (s : State) (a : BitVec 4) (ts : List Turn) (i : Instr) (r : Regs),
    s.sched = .run (.anole a) :: ts → anoleRunnable { s with sched := ts } a = true → s.anoles[a.toNat].regs = r →
    (i.form = .scalar ∨ i.form = .engine) → i.wf = true → r.pc.toNat % 4 = 0 →
    (∀ n, n < (encode i).length → r.pc.toNat + 4 * n < 2 ^ 48 ∧ dpaOk (r.pc.toNat + 4 * n) = true ∧
      s.dpaReady (r.pc.toNat + 4 * n) = true ∧ s.dram.badIn (r.pc.toNat + 4 * n) 4 = false ∧
      s.dram.bytes (r.pc.toNat + 4 * n) 4 = natLe 4 ((encode i).getD n 0#32).toNat) →
    s.oldCode = [] →
    step s = exec i { s with sched := ts, cur := .anole a }) ∧
  (∀ (s : State) (k : CoreRef) (ts : List Turn) (l : Launch) (cp : Copy) (c : Core) (st : Stream) (w : BitVec 48) (i : Instr),
    s.sched = .run (.vec k) :: ts → State.StreamTurn { s with sched := ts, cur := .vec k } k l cp c st →
    streamRunnable { s with sched := ts } k = true → st.spc.toNat < l.packet.vim → c.vim.badIn (6 * st.spc.toNat) 6 = false →
    c.vim.bytes (6 * st.spc.toNat) 6 = natLe 6 w.toNat →
    (decodeVector w = .ok i ∨ ((∃ e, decodeVector w = .error e) ∧ i = .unassignedVectorWord w)) →
    step s = exec i { s with sched := ts, cur := .vec k })

/-- Log entry 1 (the model's own): the schedule is taken entry by entry. An entry of time passes its cycles: the tokens of each core go
through them (R133), and where no abort is due nothing else that an instruction could see changes; a step or event is executed in the state as it is; an agent that cannot run loses its turn. -/
def Obligations.ScheduleEntries : Prop :=
  (∀ (s : State) n ts, s.sched = .pass n :: ts → (∀ l ∈ s.launches, l.deferred = []) →
    ∃ t, step s = .next t ∧ t.cc = s.cc + n ∧ t.sched = ts ∧ t.dram = s.dram ∧ t.sys = s.sys ∧ t.launches = s.launches.map (Launch.cycles n) ∧
      t.anoles = s.anoles ∧ t.cur = s.cur) ∧
  (∀ (s : State) i ts, s.sched = .event i :: ts → isStep i = true → step s = exec i { s with sched := ts }) ∧
  (∀ (s : State) a ts, s.sched = .run a :: ts → runnable { s with sched := ts } a = false → step s = .next { s with sched := ts })

/-- Every step goes on, from every state: a fault that the spec describes is taken, never met as a stop of the machine. -/
def Obligations.StepAlwaysGoesOn : Prop := ∀ s : State, s.goesOn

/-- Every step keeps every storage in its canonical form, from every state that has it, reached or not: device memory, the coherent window, flash, SYS
space, scratchpads, instruction memories and accumulators (log entry 9, the model's own). -/
def Obligations.StorageStaysCanonical : Prop := ∀ s t : State, Memory.wf s = true → step s = .next t → Memory.wf t = true

/-- R47, R389, R405, R406: the device after power-on: no launch, every queue destroyed, every context free, memory zero, nothing
ready but what has reported itself, and the access bytes: byte 44 is 0x1F everywhere, the PF bytes are 0x03 on every SYS page, all
others are zero. The memory contents of the capacity tier and of the coherent window are log entry 2's. -/
def Obligations.ResetState : Prop :=
  State.reset.cc = 0 ∧ State.reset.launches = [] ∧ State.reset.queues = [] ∧ Memory.wf State.reset = true ∧
  (∀ q, State.reset.qState q = 0) ∧ (∀ c, State.reset.cxState c = 0) ∧ (∀ a, State.reset.dram.get a = 0#8) ∧
  (∀ b, State.reset.readyBit b = false) ∧ State.reset.sysF 32 0 12 = 2600 ∧ State.reset.sysF 0 16 8 = 0xB0 ∧
  (∀ base n i m, (base, n) ∈ accessTargets → i < n → m < 128 →
    State.reset.sysByte (base + 128 * i + m) = if m = 44 then 0x1F else if base = 0x01300000 ∧ (m = 0 ∨ m = 16) then 0x03 else 0)

/-! ### Memory -/

/-- R122, R124, R396: a load of an Anole core from device memory reads its bytes, little-endian and zero-extended, into x[rd]; no byte
of memory changes. Every write to them that is not yet performed at device scope is one that the core has seen.
R122, R124, R396: a store of an Anole core to device memory writes the low bytes of the register at once, lowest first; every
other byte and everything else is as before. No released host write lies in reach, and no capacity save runs. -/
def Obligations.AnoleLoadsAndStores : Prop :=
  (∀ s a r g d b z o n off, s.cur = .anole a → s.executes r g → n = 2 ^ z.toNat → AnolePlace s (memAddr r b z o) n n off →
    s.dram.badIn off n = false → (∀ w ∈ s.lags, w.touches off n = true → w.seen.contains (anoleAgent a.toNat) = true) →
    ∃ ls, exec (.ld d b g z o) s = .next (State.modRegs { s with lags := ls } fun x => (x.set d (ofU (leNat (s.dpaBytes off n)))).skip 4)) ∧
  (∀ s a r g d b z o n off, s.cur = .anole a → s.executes r g → n = 2 ^ z.toNat → AnolePlace s (memAddr r b z o) n n off →
    s.dram.partBad off n = false → s.host.writes = [] → s.firm.save = none →
    ∃ t, exec (.st d b g z o) s = .next t ∧ storedAt s t off (natLe n (r.get d).toNat) ∧ t.regs? = some (r.skip 4) ∧ anoleFrame s t a)

/-- R122, R123, R125, R308: a control core's load from its own unit scratchpad returns the bytes as they stand, and its store is accepted
at the port with the copy's next number: the scratchpad's home is unchanged until the store is performed, and the core's own loads see it;
commands that the core has pushed may still read what stood there. -/
def Obligations.OwnScratchpad : Prop :=
  ∀ s k l cp c g b z o n off q, s.CoreTurn k l cp c → s.executes c.regs g → n = 2 ^ z.toNat →
    OwnPlace cp c q (memAddr c.regs b z o) n n off → q.mem.badIn off n = false → cp.atRest → c.remote = [] →
    (∀ d, ∃ t, exec (.ld d b g z o) s = .next t ∧
      onlyCore s t k { c with regs := (c.regs.set d (ofU (leNat (q.mem.bytes off n)))).skip 4 }) ∧
    (∀ d c', c' = { c with regs := c.regs.skip 4, port := [⟨cp.stores, .usp c.rank, off, natLe n (c.regs.get d).toNat, none⟩] } →
      ∃ t, exec (.st d b g z o) s = .next t ∧ storeAccepted s t k c' ∧ (cp.nothingPushed c.rank → onlyCore s t k c'))

/-- R124: the checks of a load or store in their order, as an Anole core meets them: a space it has no grant in or an address outside
the memories is Space (0x04), an unaligned one Misaligned (0x03), and a word that cannot be corrected Uncorrectable Memory (0x10); the
fault names the address, nothing is written and no register but those of the fault changes. -/
def Obligations.AnoleAccessFaults : Prop :=
  ∀ s a r g d b z o n off p, s.cur = .anole a → s.executes r g → n = 2 ^ z.toNat → p = memAddr r b z o → off = p.toNat % 2 ^ 48 →
    (p.toNat / 2 ^ 60 ∈ [1, 2, 3, 4, 5, 7, 9, 10, 11, 12, 13, 14, 15] ∨
        (p.toNat / 2 ^ 60 = 0 ∧ (p.toNat / 2 ^ 48 ≠ 0 ∨ rangeOk off n = false)) →
      exec (.ld d b g z o) s = .next (s.takeFault (.anole a) { Trap.mk' 0x04 p with acc := 0 }) ∧
      exec (.st d b g z o) s = .next (s.takeFault (.anole a) { Trap.mk' 0x04 p with acc := 1 })) ∧
    (p.toNat / 2 ^ 48 = 0 → rangeOk off n = true → off % n ≠ 0 →
      exec (.ld d b g z o) s = .next (s.takeFault (.anole a) { Trap.mk' 0x03 p with acc := 0 }) ∧
      exec (.st d b g z o) s = .next (s.takeFault (.anole a) { Trap.mk' 0x03 p with acc := 1 })) ∧
    (AnolePlace s p n n off → s.dram.badIn off n = true →
      exec (.ld d b g z o) s = .next (s.takeFault (.anole a) (Trap.mk' 0x10 p)))

/-- R126, R127, R396: an atomic of an Anole core on HBM or the capacity tier returns the old value in x[rd] and leaves Table 02-4's new value, in
one step; every other byte and register is as before. AMO.ADD128 adds a pair of registers to 16 bytes and returns the old value in a pair;
register number 0 names no pair. An atomic of a control core on its own unit scratchpad is performed at the bank, last in location order:
its own core sees it, the others when it is performed at their scope (R308); an acquiring one counts as read (R128). -/
def Obligations.AtomicResults : Prop :=
  (∀ i (m : AmoForm) s a r off, amoOf i = some m → s.cur = .anole a → s.regs? = some r → AnolePlace s (r.get m.rb) m.n m.n off →
     off / 2 ^ 44 < 2 → s.dram.badIn off m.n = false → s.host.writes = [] → s.firm.save = none →
     ∃ t, exec i s = .next t ∧
       storedAt s t off (natLe m.n (m.new (leNat (s.dram.bytes off m.n)) ((r.get m.ra).toNat % 2 ^ (8 * m.n)) ((r.get m.rd).toNat % 2 ^ (8 * m.n)))) ∧
       t.regs? = some ((r.set m.rd (m.ret (leNat (s.dram.bytes off m.n)))).skip 4) ∧ anoleFrame s t a) ∧
  (∀ d ra rb o s a r off old x, s.cur = .anole a → s.regs? = some r → AnolePlace s (r.get rb) 16 16 off →
     off / 2 ^ 44 < 2 → s.dram.badIn off 16 = false → s.host.writes = [] → s.firm.save = none → old = leNat (s.dram.bytes off 16) →
     x = (if ra = 0#6 then 0 else (r.get ra).toNat + 2 ^ 64 * (r.get (ra + 1#6)).toNat) →
     ∃ t, exec (.amoAdd128 d ra rb o) s = .next t ∧ storedAt s t off (natLe 16 ((old + x) % 2 ^ 128)) ∧
       t.regs? = some ((if d = 0#6 then r else (r.set d (ofU old)).set (d + 1#6) (ofU (old / 2 ^ 64))).skip 4) ∧ anoleFrame s t a) ∧
  (∀ i (m : AmoForm) s k l cp c q off new, amoOf i = some m → s.CoreTurn k l cp c →
     OwnPlace cp c q (c.regs.get m.rb) m.n m.n off → q.mem.badIn off m.n = false → cp.atRest →
     new = m.new (leNat (q.mem.bytes off m.n)) ((c.regs.get m.ra).toNat % 2 ^ (8 * m.n)) ((c.regs.get m.rd).toNat % 2 ^ (8 * m.n)) →
     ∃ t, exec i s = .next t ∧
       (t.core? k).map Core.bare = some { c with regs := (c.regs.set m.rd (m.ret (leNat (q.mem.bytes off m.n)))).skip 4 }.bare ∧
       (∀ j, j ≠ k → (t.core? j).map Core.bare = (s.core? j).map Core.bare) ∧
       (t.copy? k).map (fun x => x.home) = some [{ id := cp.stores, writer := k.rank, pad := .usp c.rank, off := off, data := natLe m.n new, scope := .unit, readBy := if m.ord = 1#2 then [(k.rank, cp.stores + 1)] else [] }] ∧
       (∀ p, (t.copy? k).bind (fun x => x.pad? p) = cp.pad? p) ∧ t.dram = s.dram ∧ t.cwnN = s.cwnN ∧ t.cwnS = s.cwnS ∧ t.sys = s.sys ∧ t.anoles = s.anoles)

/-- R129, R320: FENCE completes when every earlier store of its core is performed at the scope, for domain scope also the released stores
that other nodes have not answered; it changes nothing but the pc, and no write of its core to durable memory is then short of device scope.
Until then it stays where it is. On an Anole core nothing is on its way. -/
def Obligations.FenceWaits : Prop :=
  ∀ s g sc, sc.toNat < 6 →
    (∀ k l cp c settled, s.CoreTurn k l cp c → s.executes c.regs g →
      settled = (c.port = [] ∧ (∀ h ∈ cp.home, h.writer = c.rank → h.cmd = none → min sc.toNat 3 ≤ scopeNum h.scope) ∧
        (4 ≤ sc.toNat → ∀ r ∈ s.link.reqs, ¬ (r.op = 2#6 ∧ r.lid = k.lid ∧ r.rank = k.rank))) →
      (settled → ∃ t, exec (.fence g sc) s = .next t ∧ onlyCore s t k (c.past 4) ∧ (3 ≤ sc.toNat → ∀ w ∈ t.lags, w.writer ∉ s.agentsOf k)) ∧
      (¬ settled → exec (.fence g sc) s = .next s)) ∧
    (∀ a r, s.cur = .anole a → s.executes r g → ∃ t, exec (.fence g sc) s = .next t ∧ t.regs? = some (r.skip 4) ∧ anoleFrame s t a ∧ t.dram = s.dram)

/-! ### Tokens and terms -/

/-- R31, R134: TSET sets a token's count and its base, and starts its posts and waits anew, once no earlier command waits on it unstarted
or posts it; a negative operand sets it to 0 and underflows: `sr.tokerr` keeps the first token that did, and traps when it says so. The terms due in the cycle and the waits that
the counts at its start satisfy come first (R133). -/
def Obligations.TokenSet : Prop :=
  ∀ s k l cp c g e b n, s.CoreTurn k l cp c → s.executes c.regs g → c.block = .none → n = (srB c.regs b).toInt →
    (65535 < n → traps (.tset e b g) s s (Trap.mk' 0x09)) ∧
    ((∃ m ∈ c.eng.cmds, (m.post = e ∧ e ≠ 63#6) ∨ (m.state = .queued ∧ e ∈ m.waitsOn)) → n ≤ 65535 → exec (.tset e b g) s = .next s) ∧
    ((∀ m ∈ c.eng.cmds, (m.post = e → e = 63#6) ∧ (m.state = .queued → e ∉ m.waitsOn)) →
      (0 ≤ n → n ≤ 65535 → ∃ t, exec (.tset e b g) s = .next t ∧
        onlyCore s t k ((c.tokenCycle.putTok e { Token.zero with count := n.toNat, base := n }).past (srLen b))) ∧
      (n < 0 → c.policy.trap = false → ∃ t, exec (.tset e b g) s = .next t ∧
        onlyCore s t k { (c.tokenCycle.putTok e Token.zero).past (srLen b) with
          policy := { c.policy with sticky := true, tok := if c.policy.sticky then c.policy.tok else e } }) ∧
      (n < 0 → c.policy.trap = true → ∃ u, traps (.tset e b g) s u (Trap.mk' 0x0A) ∧
        onlyCore s u k { c.tokenCycle.putTok e Token.zero with
          policy := { c.policy with sticky := true, tok := if c.policy.sticky then c.policy.tok else e } }))

/-- R31, R135, R138: TPOST of `n` adds to the count and to the posts; of `-n` it takes `n` by a wait that blocks the core, as far as the
wait credit P + B - W reaches, and records an underflow when it falls short (R137); an operand beyond 65,535 either way, or a post that
carries the credit beyond 65,535, is a Token Order fault (0x09). A post comes after the terms and waits of its cycle (R133). TTEST reads the
credit.
TWAIT of 0 goes on; a wait within the credit is pushed and blocks the core, with the pc to go on at; one beyond it, a negative one or one
above 65,535 is a Token Order fault (R136). -/
def Obligations.TokenPostsAndWaits : Prop :=
  (∀ s k l cp c g e b n (x : Token) w, s.CoreTurn k l cp c → s.executes c.regs g → c.block = .none → n = (srB c.regs b).toInt →
     x = c.sync.tokens[e.toNat] → w = x.posts + x.base - x.waits →
     (n < -65535 ∨ 65535 < n ∨ (0 ≤ n ∧ 65535 < w + n) → traps (.tpost e b g) s s (Trap.mk' 0x09)) ∧
     (∀ y, y = c.tokenCycle.sync.tokens[e.toNat] → 0 ≤ n → n ≤ 65535 → w + n ≤ 65535 → ∃ t v, exec (.tpost e b g) s = .next t ∧
       onlyCore s t k ((c.tokenCycle.putTok e { y with count := v, posts := x.posts + n.toNat }).past (srLen b)) ∧
       (y.count + n.toNat ≤ 65535 → v = y.count + n.toNat)) ∧
     (-65535 ≤ n → n < 0 → -n ≤ w → ∃ t, exec (.tpost e b g) s = .next t ∧
       onlyCore s t k { c.putTok e { x with base := x.base + n, queue := x.queue ++ [{ cmd := none, amount := n.natAbs }] } with
         block := .token e (c.regs.pc + ofU (srLen b)) false }) ∧
     (∀ p, p = { c.policy with sticky := true, tok := if c.policy.sticky then c.policy.tok else e } → -65535 ≤ n → n < 0 → w < -n →
       (0 < w → ∃ t, exec (.tpost e b g) s = .next t ∧
         onlyCore s t k { c.putTok e { x with base := x.base - w, queue := x.queue ++ [{ cmd := none, amount := w.natAbs }] } with
           policy := p, block := .token e (c.regs.pc + ofU (srLen b)) c.policy.trap }) ∧
       (w ≤ 0 → c.policy.trap = false → ∃ t, exec (.tpost e b g) s = .next t ∧ onlyCore s t k { c.past (srLen b) with policy := p }) ∧
       (w ≤ 0 → c.policy.trap = true → ∃ u, traps (.tpost e b g) s u (Trap.mk' 0x0A) ∧ onlyCore s u k { c with policy := p })) ∧
     (∀ d, ∃ t, exec (.ttest d e g) s = .next t ∧ onlyCore s t k { c with regs := (c.regs.set d (ofS w)).skip 4 })) ∧
  (∀ s k l cp c g e b n (x : Token) w, s.CoreTurn k l cp c → s.executes c.regs g → c.block = .none → n = (srB c.regs b).toInt →
     x = c.sync.tokens[e.toNat] → w = x.posts + x.base - x.waits →
     (n = 0 → ∃ t, exec (.twait e b g) s = .next t ∧ onlyCore s t k (c.past (srLen b))) ∧
     (0 < n → n ≤ 65535 → n ≤ w → ∃ t, exec (.twait e b g) s = .next t ∧
       onlyCore s t k { c.putTok e { x with waits := x.waits + n.toNat, queue := x.queue ++ [{ cmd := none, amount := n.toNat }] } with
         block := .token e (c.regs.pc + ofU (srLen b)) false }) ∧
     (n < 0 ∨ 65535 < n ∨ (0 < n ∧ w < n) → traps (.twait e b g) s s (Trap.mk' 0x09)))

/-- R133, R136: the oldest wait of a token is satisfied, after the terms due have fired, when what is left of the count at the start of the
cycle covers it; the core that made it goes on at its next pc, and a command's wait is struck off. Without that, nothing happens. -/
def Obligations.TokenWaitSatisfied : Prop :=
  ∀ s k l cp c e d (x : Token) (w : TokWait) q, s.launch? k.lid = some l → s.copy? k = some cp → s.core? k = some c →
    d = c.fireDue → x = d.sync.tokens[e.toNat] → x.queue = w :: q →
    (x.left < w.amount → exec (.tokenWaitSatisfied k e) s = .next s) ∧
    (w.amount ≤ x.left → ∀ y : Token, y = { x with count := x.count - w.amount, left := x.left - w.amount, queue := q } →
      (∀ nx under, w.cmd = none → d.block = .token e nx under → ∃ t, exec (.tokenWaitSatisfied k e) s = .next t ∧
        onlyCore s t k { d.putTok e y with block := .none, regs := d.regs.setPc nx, under := d.under || under }) ∧
      (∀ n, w.cmd = some n → (∀ a b, d.block ≠ .wfe a b) → ∃ t, exec (.tokenWaitSatisfied k e) s = .next t ∧
        onlyCore s t k { d.putTok e y with
          eng := { d.eng with cmds := d.eng.cmds.map fun m => if m.id = n then { m with waits := m.waits.erase e, early := [] } else m } }))

/-- R32, R33, R133, R139: TRIG writes a term with legal fields, which is first evaluated a cycle later: it fires in no cycle already decided.
The terms that fire in a cycle are those whose sources hold their thresholds at its start and that share no source with a firing term of a
lower number. One that fires takes its threshold from each source, and posts once at the end of the cycle or arrives once; a one-shot term is
disabled. -/
def Obligations.CalicoTerms : Prop :=
  (∀ s k l cp c g (i : BitVec 4) b w, s.CoreTurn k l cp c → s.executes c.regs g → w = srB c.regs b →
    (w.toNat / 2 ^ 38 = 0 → w.toNat / 2 ^ 36 % 4 ≠ 3 → w.toNat / 2 ^ 12 % 2 ^ 10 ≠ 0 →
        (w.toNat / 2 ^ 35 % 2 = 1 → w.toNat / 2 ^ 22 % 2 ^ 6 = 0) → (w.toNat / 2 ^ 35 % 2 = 0 → w.toNat / 2 ^ 28 % 2 ^ 7 = 0) →
      ∃ t, exec (.trig i b g) s = .next t ∧ onlyCore s t k { c with regs := c.regs.skip (srLen b), sync := { c.sync with
        calico := c.sync.calico.set i.toNat w, due := c.sync.due.filter fun j => j != i.toNat } }) ∧
    (w.toNat / 2 ^ 38 ≠ 0 ∨ w.toNat / 2 ^ 36 % 4 = 3 ∨ w.toNat / 2 ^ 12 % 2 ^ 10 = 0 ∨
        (w.toNat / 2 ^ 35 % 2 = 1 ∧ w.toNat / 2 ^ 22 % 2 ^ 6 ≠ 0) ∨ (w.toNat / 2 ^ 35 % 2 = 0 ∧ w.toNat / 2 ^ 28 % 2 ^ 7 ≠ 0) →
      traps (.trig i b g) s s (Trap.mk' 0x01))) ∧
  (∀ (c : Core) (i : BitVec 4), i.toNat ∈ c.firing ↔ (c.sync.calico[i.toNat].toNat / 2 ^ 36 % 4 ≠ 0 ∧
      (∀ e ∈ termSources c.sync.calico[i.toNat], c.sync.calico[i.toNat].toNat / 2 ^ 12 % 2 ^ 10 ≤ c.sync.tokens[e.toNat].count) ∧
      ∀ j : BitVec 4, j.toNat < i.toNat → j.toNat ∈ c.firing → ∀ e ∈ termSources c.sync.calico[i.toNat], e ∉ termSources c.sync.calico[j.toNat])) ∧
  (∀ c : Core, c.nextCycle.sync.due = c.nextCycle.firing ∧ ∀ e : BitVec 6, c.nextCycle.sync.tokens[e.toNat].left = c.nextCycle.sync.tokens[e.toNat].count) ∧
  (∀ (c : Core) (e : BitVec 6), c.sync.due = [] → (∀ i : Fin 64, c.sync.tokens[i.val].queue = []) → c.sync.posts = [e] →
    c.nextCycle.sync.tokens[e.toNat].count = if c.sync.tokens[e.toNat].count < 65535 then c.sync.tokens[e.toNat].count + 1 else c.sync.tokens[e.toNat].count) ∧
  (∀ s k c (i : BitVec 4), s.core? k = some c → i.toNat ∉ c.sync.due → exec (.calicoTermFire k i) s = .next s) ∧
  (∀ s k c (i : BitVec 4) w, s.core? k = some c → w = c.sync.calico[i.toNat] → i.toNat ∈ c.sync.due →
    ∃ t c', exec (.calicoTermFire k i) s = .next t ∧ onlyCore s t k c' ∧ c'.sync.barriers = c.sync.barriers ∧
      (∀ e : BitVec 6, c'.sync.tokens[e.toNat].count = c.sync.tokens[e.toNat].count - if e ∈ termSources w then w.toNat / 2 ^ 12 % 2 ^ 10 else 0) ∧
      (∀ j, j ≠ i → c'.sync.calico[j.toNat] = c.sync.calico[j.toNat]) ∧
      c'.sync.calico[i.toNat] = (if w.toNat / 2 ^ 36 % 4 = 1 then putField w 36 2 0 else w) ∧ c'.sync.due = (c.sync.due.filter fun j => j != i.toNat) ∧
      (w.toNat / 2 ^ 35 % 2 = 1 → c'.sync.arrivals = c.sync.arrivals ++ [{ bar := w.extractLsb' 28 7, src := .calico i.toNat, after := [] }] ∧
        c'.sync.posts = c.sync.posts) ∧
      (w.toNat / 2 ^ 35 % 2 = 0 → c'.sync.arrivals = c.sync.arrivals ∧ c'.sync.posts = c.sync.posts ++ [w.extractLsb' 22 6]))

/-! ### Barriers -/

/-- R34, R141, R142: BINIT sets a barrier's expected number when none has arrived; BARV counts one arrival at the core's own barrier, the
last one starting the next generation, or sends it to the barrier of another core of the group: at once when all that its core has stored or
read is performed at device scope, else as an arrival that waits for those stores (Table 08-3). Either closes the open segment (R361).
The barrier is not the partition's token barrier, whose completion is a commit point (R416).
R143: BWAIT goes on when the barrier's generation has passed the operand by 1 to 32,767 generations, recording the generation for the
segments it releases (R361); until then it waits; an uninitialised barrier is a Barrier Misuse fault (0x0B). -/
def Obligations.BarrierInstructions : Prop :=
  (∀ s k l cp c g bar (x : Barrier), s.CoreTurn k l cp c → s.executes c.regs g → x = c.sync.barriers[bar.toNat] →
    (∀ b n, n = (srB c.regs b).toNat →
      (1 ≤ n → n ≤ 65535 → x.arr = 0#16 → ∃ t, exec (.binit bar b g) s = .next t ∧
        onlyCore s t k ((c.putBar bar { x with exp := BitVec.ofNat 16 n }).past (srLen b))) ∧
      (n = 0 ∨ 65535 < n ∨ x.arr ≠ 0#16 → traps (.binit bar b g) s s (Trap.mk' 0x0B))) ∧
    (x.exp = 0#16 → traps (.barv bar g) s s (Trap.mk' 0x0B)) ∧
    (∀ later, later = (cp.outstanding c ≠ [] ∨ ∃ y ∈ c.sync.arrivals, y.bar = bar ∧ y.src.key = 0) → x.exp ≠ 0#16 → c.sync.noted = [] →
      l.log.length ≤ cp.replay → s.isTokenBarrier k bar.toNat = false →
      (later → ∃ t, exec (.barv bar g) s = .next t ∧ onlyCore s t k { c.segClosed.past 4 with sync := { c.sync with
        arrivals := c.sync.arrivals ++ [{ bar := bar, src := .own c.muslin.seg, after := cp.outstanding c }] } }) ∧
      (¬ later → c.exited = false → c.block = .none → ∃ t c', exec (.barv bar g) s = .next t ∧ onlyCore s t k c' ∧
        c'.regs = c.regs.skip 4 ∧ c'.sync.barriers = c.sync.barriers.set bar.toNat x.counted ∧ c'.sync.tokens = c.sync.tokens ∧
        c'.muslin.seg = c.muslin.seg + 1 ∧ c'.muslin.fold = 0#64 ∧ c'.muslin.lines = c.muslin.lines ∧
        c'.muslin.closed.length = c.muslin.closed.length + 1)) ∧
    (∀ b n d, n = (srB c.regs b).toNat → n ≠ k.rank → isRank l.packet.h l.packet.w n = true → cp.core? n = some d →
      (d.exited = true → traps (.barvRemote bar b g) s s (Trap.mk' 0x0B)) ∧ (d.exited = false → ∃ t, exec (.barvRemote bar b g) s = .next t ∧ t.core? k = some (c.segClosed.past (srLen b)) ∧
        t.core? (atRank k n) = some { d with sync := { d.sync with arrivals := d.sync.arrivals ++ [{ bar := bar, src := .other k.rank (some c.muslin.seg), after := cp.outstanding c }] } } ∧
        (∀ j, j ≠ k → j ≠ atRank k n → t.core? j = s.core? j) ∧ outsideCores s t)) ∧
    (∀ b, isRank l.packet.h l.packet.w (srB c.regs b).toNat = false → traps (.barvRemote bar b g) s s (Trap.mk' 0x0B))) ∧
  (∀ s k l cp c g bar b (x : Barrier) n, s.CoreTurn k l cp c → s.executes c.regs g → x = c.sync.barriers[bar.toNat] →
    n = (x.gen.toNat + 2 ^ 16 - (srB c.regs b).toNat % 2 ^ 16) % 2 ^ 16 →
    (x.exp = 0#16 → traps (.bwait bar b g) s s (Trap.mk' 0x0B)) ∧
    (x.exp ≠ 0#16 → n = 0 ∨ 32767 < n → exec (.bwait bar b g) s = .next s) ∧
    (x.exp ≠ 0#16 → 1 ≤ n → n ≤ 32767 → c.sync.noted = [] → ∃ t ys, exec (.bwait bar b g) s = .next t ∧
      onlyCore s t k { c.past (srLen b) with muslin := { c.muslin with returned := ys } } ∧
      ∀ y, y ∈ ys ↔ y ∈ c.muslin.returned ∨ y = (bar, (srB c.regs b).setWidth 16)))

/-- R34: of the arrivals that wait at a core's barriers the first in the order own, Calico term by number, other core by rank, engine by
queue is applied, as one arrival of its barrier, of those whose stores are performed at device scope (Table 08-3).
An arrival from outside at a barrier of a placed launch raises its `ext` count alone, in every copy, up to 65,535; one that names no such launch or core
changes nothing (R35, R144). -/
def Obligations.ArrivalOrder : Prop :=
  (∀ s k l cp c ys zs (a : Arrival) (x : Barrier), s.launch? k.lid = some l → s.copy? k = some cp → s.core? k = some c →
     c.sync.arrivals = ys ++ a :: zs → cp.performed a.after = true → (∀ y ∈ ys, cp.performed y.after = true → a.src.key < y.src.key) →
     (∀ z ∈ zs, cp.performed z.after = true → a.src.key ≤ z.src.key) → a ∉ ys → x = c.sync.barriers[a.bar.toNat] → x.exp ≠ 0#16 → c.exited = false →
     ∃ t c', exec (.barrierArrival k) s = .next t ∧ t.core? k = some c' ∧ c'.sync.arrivals = ys ++ zs ∧
       c'.sync.barriers = c.sync.barriers.set a.bar.toNat x.counted ∧ c'.sync.tokens = c.sync.tokens ∧ outsideCores s t ∧
       (∀ j, j.lid ≠ k.lid ∨ j.role ≠ k.role → t.core? j = s.core? j)) ∧
  (∀ s k (cp : Copy) (c : Core), s.copy? k = some cp → s.core? k = some c → (∀ a ∈ c.sync.arrivals, cp.performed a.after = false) → exec (.barrierArrival k) s = .next s) ∧
  (∀ s id tg l, s.byIdent id = some l → s.launch? l.lid = some l → isRank l.packet.h l.packet.w (tg.toNat / 2 ^ 7 % 2 ^ 9) = true →
    ∃ t, exec (.outsideArrivalReceive id tg) s = .next t ∧ t.dram = s.dram ∧ t.sys = s.sys ∧
      (∀ j, j.lid ≠ l.lid ∨ j.rank ≠ tg.toNat / 2 ^ 7 % 2 ^ 9 → t.core? j = s.core? j) ∧
      ∀ role c, s.core? ⟨l.lid, role, tg.toNat / 2 ^ 7 % 2 ^ 9⟩ = some c → ∃ c', t.core? ⟨l.lid, role, tg.toNat / 2 ^ 7 % 2 ^ 9⟩ = some c' ∧
      c'.sync.tokens = c.sync.tokens ∧ (∀ b : BitVec 7, c'.sync.barriers[b.toNat] = if b = tg.extractLsb' 0 7 then
        { c.sync.barriers[b.toNat] with ext := BitVec.ofNat 16 (min 65535 (c.sync.barriers[b.toNat].ext.toNat + 1)) } else c.sync.barriers[b.toNat])) ∧
  ∀ s id tg, (s.byIdent id = none ∨ ∃ l, s.byIdent id = some l ∧ isRank l.packet.h l.packet.w (tg.toNat / 2 ^ 7 % 2 ^ 9) = false) →
    exec (.outsideArrivalReceive id tg) s = .next s

/-! ### Accumulator banks, tensor entries, norm registers -/

/-- R39, R145: ABANK.ALLOC takes the lowest-numbered run of free banks, within the launch's quota, and clears it; with none it returns all
ones; a count of 0 or above 256 is an Accumulator Bank fault (0x0C). ABANK.FREE frees a run of allocated banks, or faults so. -/
def Obligations.BankAllocation : Prop :=
  ∀ s k l cp c g n, s.CoreTurn k l cp c → s.executes c.regs g →
    (∀ d b, n = (srB c.regs b).toNat →
      (n = 0 ∨ 256 < n → traps (.abankAlloc d b g) s s (Trap.mk' 0x0C)) ∧
      (∀ f, 1 ≤ n → n ≤ 256 → c.lowestFree f n → (c.tens.banks.toList.filter fun x => x).length + n ≤ l.lrec.banks → c.tens.acc.dflt = 0#8 →
        ∃ t c', exec (.abankAlloc d b g) s = .next t ∧ onlyCore s t k c' ∧ c'.regs = (c.regs.set d (ofU f)).skip (srLen b) ∧
          c'.banksAre f n true ∧ (∀ i, i < f ∨ f + n ≤ i → c'.tens.banks[i]? = c.tens.banks[i]?) ∧
          (∀ o, 2048 * f ≤ o → o < 2048 * (f + n) → c'.tens.acc.get o = 0#8) ∧
          (∀ o, o < 2048 * f ∨ 2048 * (f + n) ≤ o → c'.tens.acc.get o = c.tens.acc.get o)) ∧
      (1 ≤ n → n ≤ 256 → (∀ f, ¬ c.banksAre f n false) ∨ l.lrec.banks < (c.tens.banks.toList.filter fun x => x).length + n →
        ∃ t, exec (.abankAlloc d b g) s = .next t ∧ onlyCore s t k { c with regs := (c.regs.set d (ofU (2 ^ 64 - 1))).skip (srLen b) })) ∧
    (∀ a b f, n = (srB c.regs b).toNat → f = (c.regs.get a).toNat → c.eng.cmds = [] →
      (c.banksAre f n true → 1 ≤ n → ∃ t c', exec (.abankFree a b g) s = .next t ∧ onlyCore s t k c' ∧ c'.regs = c.regs.skip (srLen b) ∧
        c'.banksAre f n false ∧ (∀ i, i < f ∨ f + n ≤ i → c'.tens.banks[i]? = c.tens.banks[i]?)) ∧
      (¬ c.banksAre f n true → 1 ≤ n → traps (.abankFree a b g) s s (Trap.mk' 0x0C)))

/-- R36, R146: TIDSET loads a tensor entry from 64 bytes, whose reserved fields and limits are checked: Illegal Encoding (0x01). TIDGET
stores one. Here the bytes lie in the core's own scratchpad.
NRD reads a norm register into a pair (register number 0 names none), NSTAT its counts, NCLR clears it; each waits for the store queue to
be empty (R38, R147). -/
def Obligations.TensorAndNormEntries : Prop :=
  (∀ s k l cp c g (i : BitVec 8) b off q, s.CoreTurn k l cp c → s.executes c.regs g → OwnPlace cp c q (srB c.regs b) 64 64 off →
     q.mem.badIn off 64 = false → cp.atRest → c.remote = [] →
     (tidOk (BitVec.ofNat 512 (leNat (q.mem.bytes off 64))) = true → ∃ t, exec (.tidset i b g) s = .next t ∧
       onlyCore s t k { c with regs := c.regs.skip (srLen b), tens := { c.tens with tids := c.tens.tids.set i.toNat (BitVec.ofNat 512 (leNat (q.mem.bytes off 64))) } }) ∧
     (tidOk (BitVec.ofNat 512 (leNat (q.mem.bytes off 64))) = false → ∃ u, traps (.tidset i b g) s u (Trap.mk' 0x01) ∧ onlyCore s u k c) ∧
     (∀ c', c' = { c with regs := c.regs.skip (srLen b), port := [⟨cp.stores, .usp c.rank, off, natLe 64 c.tens.tids[i.toNat].toNat, none⟩] } →
       ∃ t, exec (.tidget i b g) s = .next t ∧ storeAccepted s t k c' ∧ (cp.nothingPushed c.rank → onlyCore s t k c'))) ∧
  (∀ s k l cp c g (n : BitVec 6), s.CoreTurn k l cp c → s.executes c.regs g →
     ((∃ m ∈ c.eng.cmds, engineSrc m.op = 4) → (∀ d, exec (.nrd d n g) s = .next s) ∧ (∀ d, exec (.nstat d n g) s = .next s) ∧ exec (.nclr n g) s = .next s) ∧
     ((∀ m ∈ c.eng.cmds, engineSrc m.op ≠ 4) →
       (∀ d, ∃ t, exec (.nrd d n g) s = .next t ∧ onlyCore s t k { c with regs := (if d = 0#6 then c.regs else
           (c.regs.set d (ofU c.tens.norms[n.toNat].value.toNat)).set (d + 1#6) (ofU (c.tens.norms[n.toNat].value.toNat / 2 ^ 64))).skip 4 }) ∧
       (∀ d, ∃ t, exec (.nstat d n g) s = .next t ∧ onlyCore s t k { c with regs :=
           (c.regs.set d (ofU (c.tens.norms[n.toNat].unders.toNat * 2 ^ 16 + c.tens.norms[n.toNat].overs.toNat))).skip 4 }) ∧
       (∃ t, exec (.nclr n g) s = .next t ∧
         onlyCore s t k { c with regs := c.regs.skip 4, tens := { c.tens with norms := c.tens.norms.set n.toNat Norm.zero } })))

/-! ### Commit points -/

/-- R27, R148 to R153, R344: the versioned-region instructions are commit points whose effect happens once, at the region's slots: VOPEN
opens the lowest free slot with a newer version, VPUB makes the open slot live, VRETIRE frees a live slot or leaves it retiring while
it is read, VQUERY reads a slot's count, state and number. Operand bits that must be zero are checked: Version (0x08).
VBIND leaves a request in the partition's binding block, for a live version or for none (R151). -/
def Obligations.VersionedSlots : Prop :=
  (∀ s k l cp c g a b A B, s.AtCommit k l cp c → s.executes c.regs g → A = (c.regs.get a).toNat → B = (srB c.regs b).toNat →
     (2 ^ 12 ≤ A ∨ 2 ^ 33 ≤ B → (∀ d, traps (.vopen d a b g) s s (Trap.mk' 0x08)) ∧ traps (.vpub a b g) s s (Trap.mk' 0x08) ∧
       traps (.vretire a b g) s s (Trap.mk' 0x08) ∧ ∀ d, traps (.vquery d a b g) s s (Trap.mk' 0x08)) ∧
     (∀ rg v, A < 2 ^ 12 → B < 2 ^ 33 → s.region? l.ctx A = some rg → s.dpaReady rg.at' = true → s.dram.badIn rg.at' 80 = false → v = BitVec.ofNat 32 B →
       (∀ d i, (∀ j, j < rg.slots → s.slotState rg j ≠ 1 ∧ s.slotState rg j ≠ 2 ∧
             (s.slotState rg j = 3 ∨ s.slotState rg j = 4 → (s.slotTag rg j).toNat < v.toNat)) →
           i < rg.slots → s.slotState rg i = 0 → (∀ j, j < i → s.slotState rg j ≠ 0) →
         ∃ t, exec (.vopen d a b g) s = .next t ∧ Logged s t k l { c.committed with regs := (c.regs.set d (ofU i)).skip (srLen b) } 10 (ofU i) ∧
           otherCores s t k ∧ t.sys = s.sys ∧ t.dram = (s.slotPut rg i 0 v 1).dram) ∧
       (∀ i, i < rg.slots → s.slotState rg i = 1 → s.slotTag rg i = v → s.slotInFlight l.ctx rg i = false →
           (∀ j, j < i → ¬ ((s.slotState rg j = 1 ∨ s.slotState rg j = 2) ∧ s.slotTag rg j = v)) →
         ∃ t, exec (.vpub a b g) s = .next t ∧ Logged s t k l { c.committed with regs := c.regs.skip (srLen b) } 11 0#64 ∧ otherCores s t k ∧
           t.sys = s.sys ∧ t.dram = (s.slotPut rg i (s.slotCount rg i + (s.launches.filter fun m => m.ctx == l.ctx && m.lag.contains v).length) v 3).dram) ∧
       (∀ i, i < rg.slots → s.slotState rg i = 3 → s.slotTag rg i = v → (∀ j, j < i → ¬ (s.slotState rg j = 3 ∧ s.slotTag rg j = v)) →
         ∃ t, exec (.vretire a b g) s = .next t ∧ Logged s t k l { c.committed with regs := c.regs.skip (srLen b) } 13 0#64 ∧ otherCores s t k ∧
           t.sys = s.sys ∧ t.dram = if s.slotCount rg i = 0 then (s.slotPut rg i 0 0#32 0).dram else (s.slotPut rg i (s.slotCount rg i) v 4).dram) ∧
       (∀ d x, ((∃ i, i < rg.slots ∧ s.slotState rg i ≠ 0 ∧ s.slotTag rg i = v ∧ (∀ j, j < i → ¬ (s.slotState rg j ≠ 0 ∧ s.slotTag rg j = v)) ∧
             x = ofU (s.slotCount rg i * 2 ^ 16 + s.slotState rg i * 2 ^ 4 + i)) ∨
           ((∀ i, i < rg.slots → s.slotState rg i ≠ 0 → s.slotTag rg i ≠ v) ∧ x = 0xF#64)) →
         ∃ t, exec (.vquery d a b g) s = .next t ∧ Logged s t k l { c.committed with regs := (c.regs.set d x).skip (srLen b) } 14 x ∧
           otherCores s t k ∧ t.sys = s.sys ∧ t.dram = s.dram))) ∧
  (∀ s k l cp c g b B, s.AtCommit k l cp c → s.executes c.regs g → B = (srB c.regs b).toNat →
     (2 ^ 33 ≤ B ∨ (B < 2 ^ 32 ∧ B ≠ 0) → traps (.vbind b g) s s (Trap.mk' 0x08)) ∧
     (B = 0 ∨ (2 ^ 32 ≤ B ∧ B < 2 ^ 33 ∧ s.hasLive l.ctx (BitVec.ofNat 32 B) = true) → ∃ t, exec (.vbind b g) s = .next t ∧
       Logged s t k l { c.committed with regs := c.regs.skip (srLen b) } 12 0#64 ∧ otherCores s t k ∧
       t.sys = (s.sysPut (pbOff l.part.toNat) (ofU (2 ^ 33 + B))).sys ∧ t.dram = s.dram))

/-- R26, R157, R161, R167: MFS of `sr.clock` reads the cycle count, HFLUSH goes on when no released write to a host is on its way, EXIT ends
the core's part when no bank is allocated: each is a commit point. A bank left allocated at EXIT is an Accumulator Bank fault (0x0C). -/
def Obligations.ClockFlushExit : Prop :=
  ∀ s k l cp c g, s.AtCommit k l cp c → s.executes c.regs g →
    (∀ d, ∃ t, exec (.mfs d 6#6 g) s = .next t ∧ Logged s t k l { c.committed with regs := (c.regs.set d (ofU s.cc)).skip 4 } 7 (ofU s.cc) ∧
      otherCores s t k ∧ t.sys = s.sys ∧ t.dram = s.dram) ∧
    (∀ a b, s.host.writes = [] → ∃ t, exec (.hflush a b g) s = .next t ∧
      Logged s t k l { c.committed with regs := c.regs.skip (srLen b) } 6 0#64 ∧ otherCores s t k ∧ t.sys = s.sys ∧ t.dram = s.dram) ∧
    ((∀ i : Fin 256, c.tens.banks[i.val] = false) → ∃ t, exec (.exit g) s = .next t ∧
      Logged s t k l { c.committed with regs := c.regs.skip 4, exited := true } 9 0#64 ∧ otherCores s t k ∧ t.sys = s.sys ∧ t.dram = s.dram) ∧
    ((∃ i : Fin 256, c.tens.banks[i.val] = true) → traps (.exit g) s s (Trap.mk' 0x0C))

/-- R35, R113, R143, R144: BWAIT.X closes its region and then counts the arrivals from outside that its barrier's `ext` holds, in one step; it
goes on when the generation has then passed the operand, and else waits for more, its region released. BARX to a launch that is not placed is
an Over-signal in its own launch's record. Both are commit points. -/
def Obligations.OutsideBarriers : Prop :=
  (∀ s k l cp c g bar b (x : Barrier) e n p bars, s.AtCommit k l cp c → s.executes c.regs g → x = c.sync.barriers[bar.toNat] →
    e = x.exp.toNat → e ≠ 0 → n = x.ext.toNat → c.sync.noted = [] → c.applied = none → s.isTokenBarrier k bar.toNat = false →
    p = ((x.gen.toNat + (x.arr.toNat + n) / e) % 2 ^ 16 + 2 ^ 16 - (srB c.regs b).toNat % 2 ^ 16) % 2 ^ 16 →
    bars = c.sync.barriers.set bar.toNat
      { x with arr := BitVec.ofNat 16 ((x.arr.toNat + n) % e), gen := x.gen + BitVec.ofNat 16 ((x.arr.toNat + n) / e), ext := 0#16 } →
    (1 ≤ p → p ≤ 32767 → ∃ t c', exec (.bwaitX bar b g) s = .next t ∧ Logged s t k l c' 4 (ofU n) ∧ t.sys = s.sys ∧ t.dram = s.dram ∧
      (∀ j, j.lid ≠ k.lid ∨ j.rank ≠ k.rank → t.core? j = s.core? j) ∧
      c'.regs = c.regs.skip (srLen b) ∧ c'.sync.tokens = c.sync.tokens ∧ c'.sync.barriers = bars ∧ c'.applied = none) ∧
    (p = 0 ∨ 32767 < p → ∃ t c' sig, exec (.bwaitX bar b g) s = .next t ∧ t.core? k = some c' ∧ c'.commit = .closed sig [] ∧ c'.regs = c.regs ∧
      c'.applied = some (bar, n) ∧ c'.sync.tokens = c.sync.tokens ∧ c'.sync.barriers = bars ∧ c'.muslin.seg = c.muslin.seg + 1 ∧
      t.sys = s.sys ∧ t.dram = s.dram ∧ ∀ j, j.lid ≠ k.lid ∨ j.rank ≠ k.rank → t.core? j = s.core? j)) ∧
  (∀ s k l cp c g a b, s.AtCommit k l cp c → s.executes c.regs g → (srB c.regs b).toNat < 2 ^ 32 → (srB c.regs b).toNat / 2 ^ 16 % 2 ^ 4 = 0 →
    (srB c.regs b).toNat / 2 ^ 20 = s.node.toNat → s.byIdent (c.regs.get a) = none →
    ∃ t m, exec (.barx a b g) s = .next t ∧ Logged s t k l { c.committed with regs := c.regs.skip (srLen b) } 3 0#64 ∧ otherCores s t k ∧
      t.launch? k.lid = some m ∧ m.ovs = true ∧ t.sys = s.sys ∧ t.dram = s.dram) ∧
  (∀ s i g a b r l, s.cur = .anole i → s.executes r g → (srB r b).toNat < 2 ^ 32 → (srB r b).toNat / 2 ^ 16 % 2 ^ 4 = 0 →
    (srB r b).toNat / 2 ^ 20 = s.node.toNat → s.byIdent (r.get a) = some l → s.right 0x01245000 l.part.toNat 44 .enqueue = true →
    ∃ t, exec (.barx a b g) s = .next t ∧ t.regs? = some (r.skip (srLen b)) ∧ t.sys = s.sys ∧ t.dram = s.dram ∧
      t.launches = (s.receiveArrival (r.get a) (srB r b) none).2.launches)

/-! ### Queues, drains, host memory -/

/-- R156: a drain goes on when no copy or store command that the core pushed, its replicas in the partners included, writes its space; else
it waits.
R155: CWAIT waits while a chunk of its range has pending writes, then returns the first status that is not zero, or 0; a range of no
bytes returns 0 at once. Here the range lies in the core's own scratchpad. -/
def Obligations.DrainsAndChunkWaits : Prop :=
  (∀ s k l cp c g, s.CoreTurn k l cp c → s.executes c.regs g →
    ∀ i d, (i, d) ∈ [(Instr.drainUsp g, DrainOf.usp), (.drainCls g, .cls), (.drainDsp g, .dsp), (.drainVirt g, .virt), (.drainVim g, .vim)] →
      ((∀ x ∈ cp.cores, ∀ m ∈ x.eng.cmds, m.issuer x.rank = c.rank → m.drained d = false) → ∃ t, exec i s = .next t ∧ onlyCore s t k (c.past 4)) ∧
      ((∃ x ∈ cp.cores, ∃ m ∈ x.eng.cmds, m.issuer x.rank = c.rank ∧ m.drained d = true) → exec i s = .next s)) ∧
  (∀ s k l cp c g d a b n, s.CoreTurn k l cp c → s.executes c.regs g → n = (srB c.regs b).toNat →
    (n = 0 → ∃ t, exec (.cwait d a b g) s = .next t ∧ onlyCore s t k { c with regs := (c.regs.set d 0#64).skip (srLen b) }) ∧
    (∀ q off x, OwnPlace cp c q (c.regs.get a) n 1 off → off / 512 = (off + n - 1) / 512 → 1 ≤ n → x = cp.chunk (.usp c.rank, off / 512) →
      (x.pend ≠ 0 → exec (.cwait d a b g) s = .next s) ∧
      (x.pend = 0 → ∃ t, exec (.cwait d a b g) s = .next t ∧
        onlyCore s t k { c with regs := (c.regs.set d (ofU x.status.toNat)).skip (srLen b) })))

/-- R159, R272: ENQ gives the packet to the queue its handle names, in three steps that nothing comes between, and returns 0, or 0x80 when
the ring is full, or 0x0F when the handle is stale. On an Anole core, with the packet in device memory, it is performed directly; without the
right to the queue it is Access Denied (0x05). On a control core, with the packet in its own scratchpad, it is a commit point, and the status
goes to the packet's chunk too; no Anole core waits for the queue. -/
def Obligations.Enqueue : Prop :=
  (∀ s i g d a b r h q off, s.cur = .anole i → s.executes r g → h = r.get a → s.EnqReady h q → AnolePlace s (srB r b) 64 64 off →
    s.dram.badIn off 64 = false → (∀ w ∈ s.lags, w.touches off 64 = true → w.seen.contains (anoleAgent i.toNat) = true) →
    s.anoles[i.toNat].waits = false →
    ((h.toNat % 2 ^ 16 < 4096 → s.right 0x01280000 (h.toNat % 4096) 44 .enqueue = true) → ∃ t, exec (.enq d a b g) s = .next t ∧
      t.regs? = some ((r.set d (ofU (s.enqStatus h))).skip (srLen b)) ∧ t.launches = s.launches ∧
      (s.enqStatus h = 0 → Accepted s t q (s.dpaBytes off 64)) ∧ (s.enqStatus h ≠ 0 → t.sys = s.sys ∧ t.dram = s.dram)) ∧
    (h.toNat % 2 ^ 16 < 4096 → s.right 0x01280000 (h.toNat % 4096) 44 .enqueue = false → ∃ u, traps (.enq d a b g) s u (Trap.mk' 0x05) ∧
      u.sys = s.sys ∧ u.dram = s.dram ∧ u.launches = s.launches)) ∧
  (∀ s k l cp c g d a b h q x off, s.AtCommit k l cp c → s.executes c.regs g → h = c.regs.get a → s.EnqReady h q → OwnPlace cp c x (srB c.regs b) 64 64 off →
    x.mem.badIn off 64 = false → cp.atRest → c.remote = [] → (∀ j : Fin 16, s.anoles[j.val].waits = false) →
    (h.toNat % 2 ^ 16 < 4096 → s.right 0x01280000 (h.toNat % 4096) (32 + l.part.toNat) .enqueue = true) → ∃ t, exec (.enq d a b g) s = .next t ∧
      Logged s t k l { c.committed with regs := (c.regs.set d (ofU (s.enqStatus h))).skip (srLen b) } 2 (ofU (s.enqStatus h))
        (List.map fun y => if y.id = .usp c.rank then y.setChunk (off / 512) { y.chunk (off / 512) with status := BitVec.ofNat 8 (s.enqStatus h) } else y) ∧
      otherCores s t k ∧ (s.enqStatus h = 0 → Accepted s t q (x.mem.bytes off 64)) ∧ (s.enqStatus h ≠ 0 → t.sys = s.sys ∧ t.dram = s.dram))

/-! ### Special registers, iterations, exceptions -/

/-- R23, R24, R25, R161: MFS reads a special register of its core; MTS writes `sr.tokerr` and `sr.policy`, whose reserved and read-only fields
must come as they stand; a flag that a unit sets in the same cycle stays set (R29); any other register written, and a register number that names none, is Illegal Encoding (0x01). -/
def Obligations.SpecialRegisters : Prop :=
  ∀ s k l cp c g, s.CoreTurn k l cp c → s.executes c.regs g →
    (∀ d, (∃ t, exec (.mfs d 0#6 g) s = .next t ∧ onlyCore s t k { c with regs := (c.regs.set d
        (ofU ((c.row / 4 * ((l.packet.w + 7) / 8) + c.col / 8) * 2 ^ 32 + (c.row % 2 * 2 + c.col % 2) * 2 ^ 24 +
          (c.row / 2 * ((l.packet.w + 1) / 2) + c.col / 2) * 2 ^ 16 + c.row * 2 ^ 8 + c.col))).skip 4 }) ∧
      (∃ t, exec (.mfs d 1#6 g) s = .next t ∧ onlyCore s t k { c with regs := (c.regs.set d
        (ofU (l.packet.gh * 2 ^ 40 + l.packet.gw * 2 ^ 32 + (l.packet.h + 3) / 4 * ((l.packet.w + 7) / 8) * 2 ^ 24 +
          (l.packet.h + 1) / 2 * ((l.packet.w + 1) / 2) * 2 ^ 16 + l.packet.h * 2 ^ 8 + l.packet.w))).skip 4 }) ∧
      (∃ t, exec (.mfs d 8#6 g) s = .next t ∧ onlyCore s t k { c with regs :=
        (c.regs.set d (ofU (s.node.toNat * 2 ^ 16 + l.ctx.toNat * 2 ^ 8 + l.part.toNat))).skip 4 }) ∧
      (∃ t, exec (.mfs d 2#6 g) s = .next t ∧ onlyCore s t k { c with regs := (c.regs.set d (ofU c.loop.iter)).skip 4 }) ∧
      (∃ t, exec (.mfs d 3#6 g) s = .next t ∧ onlyCore s t k { c with regs := (c.regs.set d (ofU c.loop.lap)).skip 4 }) ∧
      (∃ t, exec (.mfs d 4#6 g) s = .next t ∧ onlyCore s t k { c with regs := (c.regs.set d (ofU c.loop.ckpt)).skip 4 }) ∧
      (∃ t, exec (.mfs d 5#6 g) s = .next t ∧ onlyCore s t k { c with regs := (c.regs.set d (ofU l.packet.prot)).skip 4 }) ∧
      (∃ t, exec (.mfs d 7#6 g) s = .next t ∧ onlyCore s t k { c with regs :=
        (c.regs.set d ((cp.binding.map fun v => ofU (2 ^ 32 + v.toNat)).getD 0#64)).skip 4 }) ∧
      (∃ t, exec (.mfs d 9#6 g) s = .next t ∧ onlyCore s t k { c with regs :=
        (c.regs.set d (ofU (l.slot % 2 ^ 32 * 2 ^ 32 + l.gen.toNat * 2 ^ 16 + l.queue.toNat))).skip 4 }) ∧
      (∃ t, exec (.mfs d 10#6 g) s = .next t ∧ onlyCore s t k { c with regs := (c.regs.set d l.fault).skip 4 }) ∧
      (∃ t, exec (.mfs d 11#6 g) s = .next t ∧ onlyCore s t k { c with regs :=
        (c.regs.set d (ofU (c.policy.trap.toNat * 2 ^ 9 + c.policy.sticky.toNat * 2 ^ 8 + c.policy.tok.toNat))).skip 4 }) ∧
      (∃ t, exec (.mfs d 12#6 g) s = .next t ∧ onlyCore s t k { c with regs := (c.regs.set d
        (ofU (c.policy.flags.toNat * 2 ^ 16 + c.policy.aen.toNat * 2 ^ 9 + c.policy.dfen.toNat * 2 ^ 8 + l.packet.rep))).skip 4 })) ∧
    (∀ a w now, w = (c.regs.get a).toNat → now = (if c.raisedAt.1 = s.cc then c.raisedAt.2 else 0#7) →
      (w / 2 ^ 10 = 0 → w / 2 ^ 6 % 4 = 0 → w % 2 ^ 6 = c.policy.tok.toNat → ∃ t, exec (.mts a 11#6 g) s = .next t ∧ onlyCore s t k
        { c with regs := c.regs.skip 4, policy := { c.policy with trap := w / 2 ^ 9 % 2 == 1, sticky := w / 2 ^ 8 % 2 == 1, flags := c.policy.flags ||| now } }) ∧
      (w / 2 ^ 23 = 0 → w / 2 ^ 14 % 4 = 0 → w / 2 ^ 2 % 2 ^ 6 = 0 → w % 4 = l.packet.rep → ∃ t, exec (.mts a 12#6 g) s = .next t ∧ onlyCore s t k
        { c with regs := c.regs.skip 4, policy := { c.policy with flags := BitVec.ofNat 7 (w / 2 ^ 16) ||| now, aen := BitVec.ofNat 5 (w / 2 ^ 9), dfen := w / 2 ^ 8 % 2 == 1 } }) ∧
      (w / 2 ^ 10 ≠ 0 ∨ w / 2 ^ 6 % 4 ≠ 0 ∨ w % 2 ^ 6 ≠ c.policy.tok.toNat → traps (.mts a 11#6 g) s s (Trap.mk' 0x01)) ∧
      (w / 2 ^ 23 ≠ 0 ∨ w / 2 ^ 14 % 4 ≠ 0 ∨ w / 2 ^ 2 % 2 ^ 6 ≠ 0 ∨ w % 4 ≠ l.packet.rep → traps (.mts a 12#6 g) s s (Trap.mk' 0x01)) ∧
      (∀ n, n ≠ 11#6 → n ≠ 12#6 → traps (.mts a n g) s s (Trap.mk' 0x01))) ∧
    ∀ d n : BitVec 6, 13 ≤ n.toNat → traps (.mfs d n g) s s (Trap.mk' 0x01)

/-- R162, R290: ITER takes a core from its prologue to its kernel and then, counted, from iteration to iteration until the trip count takes it
to its epilogue, where another ITER is Illegal Encoding (0x01); at a lap's end at which a checkpoint is due the core stalls. No shoot-down
waits for the core. -/
def Obligations.Iterations : Prop :=
  ∀ s k l cp c g, s.CoreTurn k l cp c → s.executes c.regs g → (∀ d ∈ s.shoots, k ∉ d.waiting) →
    (c.loop.phase = .epilogue → traps (.iter g) s s (Trap.mk' 0x01)) ∧
    (c.loop.phase = .prologue → ∃ t, exec (.iter g) s = .next t ∧
      onlyCore s t k { c with watch := s.cc, loop := { c.loop with phase := if c.loop.iter = l.lrec.trip then .epilogue else .kernel }, regs := c.regs.setPc (if c.loop.iter = l.lrec.trip then l.lrec.epi else l.lrec.ker) }) ∧
    (c.loop.phase = .kernel → (c.loop.iter + 1) % l.lrec.ring ≠ 0 ∨ l.due (c.loop.iter + 1) = false → ∃ t, exec (.iter g) s = .next t ∧
      onlyCore s t k { c with watch := s.cc, regs := c.regs.setPc (if c.loop.iter + 1 = l.lrec.trip then l.lrec.epi else l.lrec.ker), loop := { c.loop with iter := c.loop.iter + 1, lap := (c.loop.iter + 1) / l.lrec.ring, phase := if c.loop.iter + 1 = l.lrec.trip then .epilogue else .kernel } }) ∧
    (c.loop.phase = .kernel → (c.loop.iter + 1) % l.lrec.ring = 0 → l.due (c.loop.iter + 1) = true → ∃ t, exec (.iter g) s = .next t ∧
      t.core? k = some { c with watch := s.cc, block := .ckpt, loop := { c.loop with iter := c.loop.iter + 1, lap := (c.loop.iter + 1) / l.lrec.ring } } ∧
      otherCores s t k ∧ t.dram = s.dram ∧ t.sys = s.sys)

/-- R158, R160, R163, R166: CKPT asks for a checkpoint at the next lap's end, except in the epilogue; SIGF folds a register into the open
segment's signature, except in class N; ISYNC discards what its core had fetched of code that was
overwritten and that a fence has shown it since (R158); WFE makes the core wait, with its next pc.
R55, R164, R165: TRAP raises Trap (0x19) with its operand's low 32 bits; SYSRET on a control core is Privileged (0x02); a word that no
row of the opcode table assigns is Illegal Encoding (0x01), whatever its guard. -/
def Obligations.WaitsHintsAndTraps : Prop :=
  ((∀ s k l cp c g, s.CoreTurn k l cp c → s.executes c.regs g →
    ((∀ d ∈ s.shoots, k ∉ d.waiting) → ∃ t, exec (.ckpt g) s = .next t ∧
      onlyCore s t k { c.past 4 with watch := s.cc, loop := { c.loop with ckptPending := c.loop.ckptPending || c.loop.phase != .epilogue } }) ∧
    (∀ a, ∃ t, exec (.sigf a g) s = .next t ∧ onlyCore s t k { c.past 4 with muslin := { c.muslin with fold := if l.packet.prot = 0 then c.muslin.fold else crc64 (natLe 8 c.muslin.fold.toNat ++ natLe 8 (c.regs.get a).toNat) } }) ∧
    (∃ t, exec (.isync g) s = .next t ∧ onlyCore s t k (c.past 4) ∧ ∀ e ∈ t.oldCode, e.all = true ∨ c.phys ∈ e.covered → c.phys ∈ e.synced) ∧
    (∃ t, exec (.wfe g) s = .next t ∧ onlyCore s t k { c with block := .wfe s.cc (c.regs.pc + 4#64) })) ∧
  (∀ s i g r, s.cur = .anole i → s.executes r g →
    (∃ t, exec (.isync g) s = .next t ∧ anoleFrame s t i ∧ t.dram = s.dram ∧ t.anoles[i.toNat] = { s.anoles[i.toNat] with regs := r.skip 4 } ∧
      ∀ e ∈ t.oldCode, e.all = true ∨ anoleAgent i.toNat ∈ e.covered → anoleAgent i.toNat ∈ e.synced) ∧
    (∃ t, exec (.wfe g) s = .next t ∧ anoleFrame s t i ∧ t.dram = s.dram ∧
      t.anoles[i.toNat] = { s.anoles[i.toNat] with block := .wfe s.cc (r.pc + 4#64) }))) ∧
  (∀ s g,
    (∀ r b, s.executes r g → traps (.trap b g) s s { Trap.mk' 0x19 with trapCode := BitVec.ofNat 32 (srB r b).toNat }) ∧
    (∀ k l cp c, s.CoreTurn k l cp c → s.executes c.regs g → traps (.sysret g) s s (Trap.mk' 0x02)) ∧
    (∀ w k, s.cur = .core k → exec (.unassignedEncoding w) s = .next (s.takeFault (.core k) (Trap.mk' 0x01))) ∧
    (∀ w i, s.cur = .anole i → exec (.unassignedEncoding w) s = .next (s.takeFault (.anole i) (Trap.mk' 0x01))) ∧
    (∀ w k l cp c st, s.StreamTurn k l cp c st → ∃ t, exec (.unassignedVectorWord w) s = .next t ∧
      onlyCore s t k { c with eng := { c.eng with stream := some { st with err := some { Trap.mk' 0x01 with src := 3, spc := some st.spc.toNat } } } }))

/-- R165, R396: a fault of an Anole core outside its handler saves the pc in AN.spc, p1 to p7 in AN.spr, the code in AN.cause with
`in` set, and the address in AN.addr, and goes to AN.vec; a fault inside the handler halts the core and clears its ready bit. SYSRET
restores the pc and p1 to p7 and clears `in`. Every register but these, and all of memory, stays. -/
def Obligations.AnoleExceptions : Prop :=
  (∀ (s : State) (i : BitVec 4) x t, t = s.takeFault (.anole i) x → s.sysF (anOff i + 24) 8 1 = 0 → wordsAbove sysReset 0 s.sys = true →
    t.sysW (anOff i + 8) = s.anoles[i.toNat].regs.pc ∧ (∀ j : BitVec 3, j ≠ 0#3 → (t.sysW (anOff i + 16)).getLsbD j.toNat = s.anoles[i.toNat].regs.pred j) ∧
    t.sysW (anOff i + 24) = ofU (256 + x.code) ∧ t.sysW (anOff i + 32) = x.addr ∧ t.anoles[i.toNat].regs.pc = s.sysW (anOff i) ∧
    t.anoles[i.toNat].regs.x = s.anoles[i.toNat].regs.x ∧ t.anoles[i.toNat].regs.p = s.anoles[i.toNat].regs.p ∧
    (∀ j, j ≠ i → t.anoles[j.toNat] = s.anoles[j.toNat]) ∧ t.dram = s.dram ∧ t.launches = s.launches) ∧
  (∀ (s : State) (i : BitVec 4) x t, t = s.takeFault (.anole i) x → s.sysF (anOff i + 24) 8 1 = 1 → wordsAbove sysReset 0 s.sys = true →
    t.anoles[i.toNat] = { s.anoles[i.toNat] with halted := true } ∧ t.readyBit (40 + i.toNat) = false ∧ t.dram = s.dram ∧ t.launches = s.launches) ∧
  (∀ s i g r, s.cur = .anole i → s.executes r g → wordsAbove sysReset 0 s.sys = true → ∃ t, exec (.sysret g) s = .next t ∧
    t.anoles[i.toNat].regs.pc = s.sysW (anOff i + 8) ∧ (∀ j : BitVec 3, j ≠ 0#3 → t.anoles[i.toNat].regs.pred j = (s.sysW (anOff i + 16)).getLsbD j.toNat) ∧
    t.anoles[i.toNat].regs.x = r.x ∧ t.sysF (anOff i + 24) 8 1 = 0 ∧ (∀ j, j ≠ i → t.anoles[j.toNat] = s.anoles[j.toNat]) ∧ t.dram = s.dram ∧
    t.launches = s.launches)

/-- R291, R293: a fault stops its core and waits for the end of the cycle; nothing else changes.
R374, R375 (Table 10-3): then, when it alone has arisen, one that kills ends the launch with the fault's code, unit and place in its completion
record; a page not present parks it until the host resolves its event; a fault that is retried aborts the group and resumes it. Either way
what its cores hold back is discarded and durable memory stays as committed. No chiplet is retired. -/
def Obligations.LaunchFaults : Prop :=
  ∀ (s t u : State) k l c x, s.launch? k.lid = some l → s.core? k = some c → k.role ≠ .third → l.state.live = true → t = s.takeFault (.core k) x →
    u = t.runDeferredOf k.lid →
    ((∃ m, t.launch? k.lid = some m ∧ m.deferred = l.deferred ++ [.fault x k.role k.rank] ∧ m.state = l.state ∧ m.log = l.log ∧ m.snap = l.snap) ∧
      t.core? k = some { c with faulted := true } ∧ otherCores s t k ∧ coreRunnable t k = false ∧ t.dram = s.dram ∧ t.sys = s.sys) ∧
    (l.deferred = [] → l.busy = false → s.fwServes = true →
      (x.code ∈ [0x01, 0x02, 0x03, 0x04, 0x05, 0x08, 0x09, 0x0A, 0x0B, 0x0C, 0x0D, 0x0E, 0x13, 0x16, 0x17, 0x19] →
        ∃ m, u.launch? k.lid = some m ∧ m.state = .done ∧
          m.ending = some { status := 1, src := x.src, code := x.code, row := c.row, col := c.col, gang := x.gang, trap := x.trapCode } ∧
          (∀ y ∈ m.copies, y.home = [] ∧ ∀ d ∈ y.cores, d.muslin.lines = [] ∧ d.eng.cmds = [] ∧ d.port = []) ∧
          ((∀ n, s.rel.dieRetired n = false) → u.dram = s.dram)) ∧
      (x.code = 0x14 → l.watchdogs < 2 → (∀ n, s.rel.dieRetired n = false) → ∃ m, u.launch? k.lid = some m ∧ m.state = .resuming ∧
          m.aborts = min 65535 (l.aborts + 1) ∧
          (∀ y ∈ m.copies, y.home = [] ∧ ∀ d ∈ y.cores, d.muslin.lines = [] ∧ d.eng.cmds = [] ∧ d.port = []) ∧ u.dram = s.dram) ∧
      (x.code = 0x06 → ∃ m, u.launch? k.lid = some m ∧ m.state = .parked ∧
          (∀ y ∈ m.copies, y.home = [] ∧ ∀ d ∈ y.cores, d.muslin.lines = [] ∧ d.eng.cmds = [] ∧ d.port = [])))

/-! ### Durable memory -/

/-- R42, R122, R123, R334, R359: a store of a control core to VIRT is held in Muslin, in the open segment, and durable memory stays as it is
until a commit point; its own loads see the held bytes over what memory holds. TREC holds a token record of 16 bytes, its word and the
partition with its binding (R154), where the page takes records. -/
def Obligations.DurableAccess : Prop :=
  ∀ s k l cp c g, s.CoreTurn k l cp c → s.executes c.regs g →
    (∀ d a z o n va dpa, n = 2 ^ z.toNat → VirtPlace s l c (memAddr c.regs a z o) n n .read va dpa → cp.atRest → c.remote = [] → c.muslin.bad = [] →
      s.dram.badIn dpa n = false → s.lags = [] → ∃ t, exec (.ld d a g z o) s = .next t ∧
        onlyCore s t k { c with regs := (c.regs.set d (ofU (leNat (c.muslin.overlay va (s.dpaBytes dpa n))))).skip 4 }) ∧
    (∀ d a z o n va dpa m, n = 2 ^ z.toNat → VirtPlace s l c (memAddr c.regs a z o) n n .write va dpa → c.muslin.bad = [] →
      c.muslin.put c.muslin.seg 0 va none dpa none (natLe n (c.regs.get d).toNat) = some m → ∃ t, exec (.st d a g z o) s = .next t ∧
        onlyCore s t k { c with regs := c.regs.skip 4, muslin := m }) ∧
    (∀ a b va dpa m, VirtPlace s l c (c.regs.get a) 16 16 .record va dpa → c.muslin.bad = [] →
      c.muslin.put c.muslin.seg 0 va none dpa none (natLe 8 (srB c.regs b).toNat ++
        natLe 8 (l.part.toNat * 2 ^ 40 + (cp.binding.map fun v => 2 ^ 32 + v.toNat).getD 0)) = some m → ∃ t, exec (.trec a b g) s = .next t ∧
        onlyCore s t k { c with regs := c.regs.skip (srLen b), muslin := m })

/-! ### Engine commands -/

/-- R170 to R173, R222: a push whose checks pass puts one command at the end of its queue, with its operands captured, its waits and post
counted on the tokens; nothing else of the machine changes but the chunks it reserves, the tiles it names and how far its core's writes to durable memory are to be
seen (Table 08-3). A value that step 2
refuses faults before anything is done. -/
def Obligations.EnginePush : Prop :=
  ∀ i op e chained len s k l cp c o, pushOf i = some (op, e, chained, len) → s.CoreTurn k l cp c → s.executes c.regs e.guard →
    o = { op := op, flags := e.flags, xa := c.regs.get e.xa, xb := c.regs.get e.xb, xc := c.regs.get e.xc } →
    (∀ p ts chunks, s.PushOk k l cp c o e p ts chunks →
      ∃ t m, exec i s = .next t ∧ m.asPushed cp c o e chained p chunks ∧ m.lane = false ∧ Pushed s t k c m ts (c.regs.skip len)) ∧
    (operandFault o none l.packet.vim ≠ 0 → (o.readsK = true → ∀ m ∈ c.eng.cmds, m.op ≠ .vrun) →
      traps i s s (Trap.mk' (operandFault o none l.packet.vim)))

/-- R219, R220: a command under GANG is entered in the gang lane of every partner of the gang at once, the issuer's replica alone waiting and
posting, all of them after what the issuer's control core has stored or read; the issuer notes the partners that have to complete. -/
def Obligations.GangPush : Prop :=
  ∀ (xa : BitVec 6) (chained : Bool) (op : EOp) (e : EArgs) (s : State) (k : CoreRef) (l : Launch) (cp : Copy) (c : Core) (o : Operands) (ps : List Nat) reps ts, op ≠ .cpyMc → s.CoreTurn k l cp c → s.executes c.regs e.guard →
    o = { op := op, flags := e.flags, xa := c.regs.get e.xa, xb := c.regs.get e.xb, xc := c.regs.get e.xc } →
    (c.regs.get xa).toNat < 2 ^ 7 → ps = gangRanks l.packet.w l.packet.gh l.packet.gw c.row c.col → ps.Nodup → k.rank ∈ ps →
    operandFault o (some ps.length) l.packet.vim = 0 → (o.readsK = true → ∀ m ∈ c.eng.cmds, m.op ≠ .vrun) → gangPointers k o s = .ok ((), s) →
    pushTokens c.eng.nextCmd c.sync.tokens e.post (waitsOf e) = some ts → c.depth (engineSrc op) false < 32 →
    (∀ r ∈ ps, ∃ d : Core, cp.core? r = some d ∧ d.depth (engineSrc op) true < 32) → checkReplicas k o ps s = .ok (reps, s) →
    (∀ x ∈ reps, ∃ p, x.res = .ok p) → (∀ y, (cp.chunk y).pend + (reps.flatMap fun x => x.chunks).count y ≤ 63) →
    ∃ t, exec (.gang xa chained op e) s = .next t ∧ t.dram = s.dram ∧ t.sys = s.sys ∧
      (∀ r ∈ ps, ∀ d : Core, cp.core? r = some d → ∃ (d' : Core) (m : Cmd), t.core? (atRank k r) = some d' ∧ d'.eng.cmds = d.eng.cmds ++ [m] ∧ m.lane = true ∧
        m.op = op ∧ m.xa = o.xa ∧ m.xb = o.xb ∧ m.xc = o.xc ∧ m.state = .queued ∧ m.chained = chained ∧ m.after = cp.outstanding c ∧
        m.post = (if r = k.rank then e.post else 63#6) ∧ m.waits = (if r = k.rank then waitsOf e else []) ∧
        d'.regs = if r = k.rank then c.regs.skip (if chained then 24 else 16) else d.regs) ∧
      (∀ d' : Core, t.core? k = some d' → d'.sync.tokens = ts ∧ ∃ w, d'.eng.gangs = c.eng.gangs ++ [w] ∧ w.partners = ps ∧ w.left = ps ∧
        w.bar = BitVec.ofNat 7 (c.regs.get xa).toNat)

/-- R194 to R197: a block-table command is pushed at its first turn and stays at its pc; when the tokens it waits on are there, it is a commit
point at the partition's table: KVREF changes the counts of the listed blocks, KVDEM demotes them, KVA appends one token's rows to the block
it alone holds. A reference that is not the table's, a count beyond its range, or a block whose fill is not the token's place, is Access Denied
(0x05), and nothing changes. The list and the rows lie in the core's own scratchpad. -/
def Obligations.BlockTables : Prop :=
  (∀ i op e s k l cp c o p ts chunks, kvOf i = some (op, e) → s.CoreTurn k l cp c → s.executes c.regs e.guard →
    o = { op := op, flags := e.flags, xa := c.regs.get e.xa, xb := c.regs.get e.xb, xc := c.regs.get e.xc } →
    (∀ m ∈ c.eng.cmds, isKvCommit m.op = false) → s.PushOk k l cp c o e p ts chunks →
    ∃ t m, exec i s = .next t ∧ m.asPushed cp c o e false p chunks ∧ m.lane = false ∧ Pushed s t k c m ts c.regs) ∧
  (∀ e s k l cp c (m : Cmd) n ids, s.AtKv k l cp c m e.guard → s.KvList l cp c m n ids →
    (m.op = .kvrefInc → (∀ j ∈ ids, (s.kvGet l.part.toNat j).refs + ids.count j ≤ 65535) → ∃ t, exec (.kvrefInc e) s = .next t ∧
      kvDone s t (ids.foldl (fun u j => u.kvRefBy l.part true j) s) k l c 17) ∧
    (m.op = .kvrefDec → (∀ j ∈ ids, ids.count j ≤ (s.kvGet l.part.toNat j).refs) → ∃ t, exec (.kvrefDec e) s = .next t ∧
      kvDone s t (ids.foldl (fun u j => u.kvRefBy l.part false j) s) k l c 17) ∧
    (m.op = .kvdem → (∀ j ∈ ids, (s.kvGet l.part.toNat j).state = 2 → s.dram.badIn (s.kvGet l.part.toNat j).frame (s.khF l.part.toNat) = false) →
      ∃ t, exec (.kvdem e) s = .next t ∧ kvDone s t (ids.foldl (fun u j => u.kvDemote l.part j) s) k l c 16) ∧
    (m.op = .kvrefInc → (∃ j ∈ ids, 65535 < (s.kvGet l.part.toNat j).refs + ids.count j) → ∃ u, u.dram = s.dram ∧ u.sys = s.sys ∧
      traps (.kvrefInc e) s u { Trap.mk' 0x05 with src := 1 }) ∧
    (m.op = .kvrefDec → (∃ j ∈ ids, (s.kvGet l.part.toNat j).refs < ids.count j) → ∃ u, u.dram = s.dram ∧ u.sys = s.sys ∧
      traps (.kvrefDec e) s u { Trap.mk' 0x05 with src := 1 })) ∧
  (∀ e s k l cp c (m : Cmd) q q' off off' p r b y L T, s.AtKv k l cp c m e.guard → m.op = .kva → m.lane = false → p = l.part.toNat →
    s.khEn p = true → L = s.khL p → T = s.khT p → 1 ≤ L → r = m.xc.toNat % 2 ^ 20 % T → r ≠ 0 → OwnPlace cp c q m.xa (2 * L) 1 off →
    q.mem.badIn off (2 * L) = false → OwnPlace cp c q' (ptrPlus m.xb (4 * (m.xc.toNat % 2 ^ 20 / T))) 4 4 off' → q'.mem.badIn off' 4 = false →
    s.kvEntry p (BitVec.ofNat 32 (leNat (q'.mem.bytes off' 4))) = some (b, y) → s.kvBad p b = false → y.refs ≤ 1 →
    (y.fill = r → ∃ t, exec (.kva e) s = .next t ∧
      kvDone s t (((s.dramPut (y.frame + r * L) (q.mem.bytes off L)).dramPut (y.frame + (T + r) * L) (q.mem.bytes (off + L) L)).kvPut p b
        { y with fill := r + 1, state := if r + 1 = T then 2 else y.state }) k l c 15) ∧
    (y.fill ≠ r → ∃ u, u.dram = s.dram ∧ u.sys = s.sys ∧ traps (.kva e) s u { Trap.mk' 0x05 with src := 1 }))

/-! ### Vector words -/

/-- R62, R225, R226, R230: a fixed-latency word reads, at the cycle each repetition issues, what has landed by then, in the registers its
fields name as they walk, and its results land its latency later, its flags with the last of them; the next word issues after its
repetitions and idle cycles. The results of a word depend on the registers, its fields and the repetition alone, and are writes of its
own destination. No fault on arithmetic flags is enabled. -/
def Obligations.FixedWords : Prop :=
  ∀ i v lat, fixedOf i = some (v, lat) → ∃ (f : VRegs → VArgs → Nat → List LandKind × Flags) (u : Residue),
    (∀ r w j, ∀ x ∈ (f r w j).1, writesTo i w x) ∧
    ∀ s k l cp c st x, s.StreamTurn k l cp c st → c.policy.aen = 0#5 → c.policy.dfen = false →
      x = (List.range (v.rep.toNat + 1)).foldl (Issue.rep f u st.spc lat st.cycle v) (c.issue st) →
      ∃ t, exec i s = .next t ∧ issuedOnly s t k c x { st with spc := st.spc + 1#14, cycle := st.cycle + v.rep.toNat + 1 + v.idle.toNat, landings := x.wait ++ (if x.flags = 0#7 then [] else [{ cycle := st.cycle + v.rep.toNat + lat, what := .flags x.flags st.spc }]) }

/-- R228, R229, R236, R243, R244, R263 to R267: the element words compute each enabled element of vd from the elements of their sources and
leave the others; the flags are those of the enabled elements together. -/
def Obligations.ElementWords : Prop :=
  ∀ i v lat w f, elementOf i = some (v, lat, w, f) → i.wf = true →
    ∀ s k l cp c st, s.StreamTurn k l cp c st → v.rep = 0#8 → st.landings = [] →
      ∃ t x g, exec i s = .next t ∧ wordIssued s t k c st v.idle.toNat lat [x] g ∧
        WritesLanes c.vregs (c.vregs.land x) v.vd w (fun e => if (c.vregs.mask v.mask).getLsbD (w * e) then some ((f c.vregs v e).1 % 2 ^ (8 * w)) else none) ∧
        ∀ b, b < 7 → (g.getLsbD b = true ↔ ∃ e, e < 256 / w ∧ (c.vregs.mask v.mask).getLsbD (w * e) = true ∧ (f c.vregs v e).2.getLsbD b = true)

/-- R245, R246, R256, R263, R264: words whose result is no row of elements: VCMP writes the mask bits of its enabled elements, VCNT the number
of elements that both masks enable, VRSUM on integers their sum modulo 2^32, VSEL one source or the other by the mask, and the VMOV forms
one c, a or k register. -/
def Obligations.MoveAndCountWords : Prop :=
  ∀ s k l cp c st (v : VArgs) (M : BitVec 256) w, s.StreamTurn k l cp c st → v.rep = 0#8 → st.landings = [] → M = c.vregs.mask v.mask → w = typeBytes v.asel →
    ((Instr.vcmp v).wf = true → 4 ≤ v.asel.toNat → ∃ t x, exec (.vcmp v) s = .next t ∧ wordIssued s t k c st v.idle.toNat 2 [x] 0#7 ∧
      (c.vregs.land x).v = c.vregs.v ∧ (∀ i, i ≠ v.vd.extractLsb' 0 3 → (c.vregs.land x).mask i = c.vregs.mask i) ∧
      ∀ b, b < 256 → ((c.vregs.land x).mask (v.vd.extractLsb' 0 3)).getLsbD b = if M.getLsbD (b / w * w) then
          (let p : Nat := lane w (c.vregs.row v.va) (b / w)
           let q : Nat := lane w (c.vregs.row v.vb) (b / w)
           let lt : Bool := if v.asel.toNat ≤ 6 then decide (signedOf (8 * w) p < signedOf (8 * w) q) else decide (p < q)
           match v.vd.toNat / 8 with
           | 0 => p == q
           | 1 => p != q
           | 2 => lt
           | _ => lt || p == q)
        else (c.vregs.mask (v.vd.extractLsb' 0 3)).getLsbD b) ∧
    ((Instr.vcnt v).wf = true → ∃ t x, exec (.vcnt v) s = .next t ∧ wordIssued s t k c st v.idle.toNat 6 [x] 0#7 ∧
      WritesLanes c.vregs (c.vregs.land x) v.vd 4 (fun e => if e = 0 then
        some ((List.range (256 / w)).filter fun e => M.getLsbD (w * e) && (c.vregs.mask (v.va.extractLsb' 0 3)).getLsbD (w * e)).length else none)) ∧
    (v.asel = 4#4 ∨ v.asel = 8#4 → ∃ t x, exec (.vrsum v) s = .next t ∧ wordIssued s t k c st v.idle.toNat 6 [x] 0#7 ∧
      WritesLanes c.vregs (c.vregs.land x) v.vd 4 (fun e => if e = 0 then
        some ((((List.range 64).filter fun e => M.getLsbD (4 * e)).map fun e => lane 4 (c.vregs.row v.va) e).sum % 2 ^ 32) else none)) ∧
    ((Instr.vsel v).wf = true → ∃ t x, exec (.vsel v) s = .next t ∧ wordIssued s t k c st v.idle.toNat 2 [x] 0#7 ∧
      WritesLanes c.vregs (c.vregs.land x) v.vd w (fun e => some (lane w (c.vregs.row (if M.getLsbD (w * e) then v.va else v.vb)) e))) ∧
    (∃ t, exec (.vmovCK v) s = .next t ∧ wordIssued s t k c st v.idle.toNat 2 [.c (v.asel.extractLsb' 0 2) (c.vregs.const (v.va.extractLsb' 0 4))] 0#7) ∧
    (∃ t, exec (.vmovAK v) s = .next t ∧ wordIssued s t k c st v.idle.toNat 2
      [.a (v.vd.extractLsb' 0 4) (ofU ((c.vregs.const (v.va.extractLsb' 0 4)).toNat + 2 ^ 32 * (c.vregs.const (v.vb.extractLsb' 0 4)).toNat))] 0#7) ∧
    (∃ t, exec (.vmovAdd v) s = .next t ∧ wordIssued s t k c st v.idle.toNat 2
      [.a (v.vd.extractLsb' 0 4) (tagSum (c.vregs.addr (v.vd.extractLsb' 0 4)) (ofS (c.vregs.const (v.va.extractLsb' 0 4)).toInt))] 0#7) ∧
    (∃ t, exec (.vmovKV v) s = .next t ∧ wordIssued s t k c st v.idle.toNat 2
      [.k (v.vd.extractLsb' 0 4) (BitVec.ofNat 32 (lane 4 (c.vregs.row v.va) 0))] 0#7)

/-- R225, R227, R258, R268 to R270: VSETK's constant lands two cycles later; VLP goes to its target while its counter is not zero, and counts it
down a cycle later; VEND ends the stream; results land in their cycle; an elastic word completes no earlier than its cycle, and VPART
lists the lanes of each outcome. No fault on arithmetic flags is enabled. -/
def Obligations.StreamControl : Prop :=
  ∀ s k l cp c st x, s.launch? k.lid = some l → s.copy? k = some cp → s.core? k = some c → c.eng.stream = some st →
    c.policy.aen = 0#5 → c.policy.dfen = false →
    x = (c.issue st).land st.cycle →
    (s.cur = .vec k →
      (∀ d n idle, ∃ t, exec (.vsetk d n idle) s = .next t ∧ issuedOnly s t k c x { st with spc := st.spc + 1#14, cycle := st.cycle + 1 + idle.toNat, landings := x.wait ++ [{ cycle := st.cycle + 2, what := .k d n }] }) ∧
      (∀ d g idle n, n = x.regs.ctr d → ∃ t, exec (.vlp d g idle) s = .next t ∧ issuedOnly s t k c x { st with spc := if n = 0#32 then st.spc + 1#14 else g, cycle := st.cycle + 1 + idle.toNat, landings := x.wait ++ (if n = 0#32 then [] else [{ cycle := st.cycle + 1, what := .c d (n - 1#32) }]) }) ∧
      (∃ t, exec .vend s = .next t ∧ onlyCore s t k { c with eng := { c.eng with stream := some { st with ended := true } } }) ∧
      (∀ v : VArgs, v.rep = 0#8 → st.landings = [] → v.vd ≠ v.vb → ∃ t c' y, exec (.vpart v) s = .next t ∧ onlyCore s t k c' ∧ c'.eng.stream = some y ∧
        y.elastic = some (st.cycle, v.idle.toNat) ∧ y.spc = st.spc + 1#14 ∧ c'.regs = c.regs ∧ c'.sync = c.sync ∧ c'.tens = c.tens ∧
        (∀ e, e < 64 → lane 4 (c'.vregs.row v.vd) e = (((List.range 4).flatMap fun o => (List.range 64).filter fun e =>
            (c.vregs.mask v.mask).getLsbD (4 * e) && lane 4 (c.vregs.row v.va) e == o)[e]?).getD (lane 4 (c.vregs.row v.vd) e)) ∧
        (∀ o, o < 64 → lane 4 (c'.vregs.row v.vb) o = if o < 4 then ((List.range 64).filter fun e =>
            (c.vregs.mask v.mask).getLsbD (4 * e) && lane 4 (c.vregs.row v.va) e == o).length else lane 4 (c.vregs.row v.vb) o) ∧
        (y.landings = [] ↔ ∀ e, e < 64 → (c.vregs.mask v.mask).getLsbD (4 * e) = true → lane 4 (c.vregs.row v.va) e < 4))) ∧
    (engineLive l = true → st.err = none →
      (∀ n y, st.elastic = none → (∃ z ∈ st.landings, z.cycle = n) → (∀ z ∈ st.landings, n ≤ z.cycle) →
        y = (c.issue st).land n →
        (st.ended = true ∨ n ≤ st.cycle → ∃ t, exec (.vectorResultLanding k) s = .next t ∧ issuedOnly s t k c y { st with landings := y.wait }) ∧
        (st.ended = false → st.cycle < n → exec (.vectorResultLanding k) s = .next s)) ∧
      (∀ n least idle m y, st.elastic = some (least, idle) → c.cmd? st.cmd = some m → (∀ z ∈ c.eng.cmds, z.writes = []) →
        y = (c.issue st).land n →
        (n < least → exec (.elasticWordCompletion k n) s = .next s) ∧
        (least ≤ n → ∃ t, exec (.elasticWordCompletion k n) s = .next t ∧ issuedOnly s t k c y { st with elastic := none, cycle := n + 1 + idle, landings := y.wait })))

/-- R231, R252 to R255: vector loads from the core's own unit scratchpad give each enabled element the bytes at its place, little-endian, twelve
cycles later (VLD, VLDB), sixteen (VLDT) or at once (VGTH); vector stores add the bytes of the enabled elements to what their command has
to store, the scratchpad's home unchanged until they are performed (R308). A scatter to one place twice leaves the highest lane. -/
def Obligations.VectorMemory : Prop :=
  ∀ s k l cp c st m (v : VArgs) q p (M : BitVec 256) w, s.StreamAtRest k l cp c st m → v.rep = 0#8 → v.step = 0#3 → p = c.vregs.addr v.asel →
    M = c.vregs.mask v.mask → w = 4 / 2 ^ (v.vb.toNat % 4) →
    (∀ off, OwnPlace cp c q p 256 16 off → q.mem.badIn off 256 = false →
      (∃ t ls, exec (.vld v) s = .next t ∧ wordIssued s t k c st v.idle.toNat 12 ls 0#7 ∧
        WritesLanes c.vregs (ls.foldl VRegs.land c.vregs) v.vd 1 (fun e => if M.getLsbD e then some (q.mem.get (off + e)).toNat else none)) ∧
      (∃ t c' ws, exec (.vst v) s = .next t ∧ onlyCore s t k c' ∧ c'.vregs = c.vregs ∧ c'.regs = c.regs ∧ c'.port = [] ∧
        c'.eng.cmds = (c.eng.cmds.map fun x => if x.id = st.cmd then { x with writes := ws } else x) ∧
        ∀ a, (padWritten c.rank q.mem ws).get a = if off ≤ a ∧ a < off + 256 ∧ M.getLsbD (a - off) then BitVec.ofNat 8 (lane 1 (c.vregs.row v.vd) (a - off)) else q.mem.get a)) ∧
    (∀ off, v.vb.toNat < 3 → OwnPlace cp c q p 3856 16 off → q.mem.badIn off 3856 = false →
      ∃ t ls, exec (.vldt v) s = .next t ∧ wordIssued s t k c st v.idle.toNat 16 ls 0#7 ∧
        WritesLanes c.vregs (ls.foldl VRegs.land c.vregs) v.vd w
          (fun e => if M.getLsbD (w * e) then some (leNat (q.mem.bytes (off + 256 * (e % 16) + w * (e / 16)) w)) else none)) ∧
    (∀ off, v.vb.toNat < 3 → OwnPlace cp c q p w w off → q.mem.badIn off w = false →
      ∃ t ls, exec (.vldb v) s = .next t ∧ wordIssued s t k c st v.idle.toNat 12 ls 0#7 ∧
        WritesLanes c.vregs (ls.foldl VRegs.land c.vregs) v.vd w (fun e => if M.getLsbD (w * e) then some (leNat (q.mem.bytes off w)) else none)) ∧
    (∀ offs : Nat → Nat, (∀ e, e < 64 → M.getLsbD (4 * e) = true →
        OwnPlace cp c q (tagSum p (ofU (4 * lane 4 (c.vregs.row v.va) e))) 4 4 (offs e) ∧ q.mem.badIn (offs e) 4 = false) →
      p.toNat % 4 = 0 → p.toNat / 2 ^ 48 = 0x7000 →
      (∃ t c' y, exec (.vgth v) s = .next t ∧ onlyCore s t k c' ∧ c'.eng.stream = some y ∧ y.elastic = some (st.cycle, v.idle.toNat) ∧
        y.spc = st.spc + 1#14 ∧ y.landings = [] ∧ c'.eng.cmds = c.eng.cmds ∧ c'.regs = c.regs ∧
        WritesLanes c.vregs c'.vregs v.vd 4 (fun e => if M.getLsbD (4 * e) then some (leNat (q.mem.bytes (offs e) 4)) else none)) ∧
      (∃ t c' y ws, exec (.vsct v) s = .next t ∧ onlyCore s t k c' ∧ c'.eng.stream = some y ∧ y.elastic = some (st.cycle, v.idle.toNat) ∧
        y.spc = st.spc + 1#14 ∧ c'.vregs = c.vregs ∧ c'.regs = c.regs ∧ c'.port = [] ∧
        c'.eng.cmds = (c.eng.cmds.map fun x => if x.id = st.cmd then { x with writes := ws } else x) ∧
        (∀ a, (∀ e, e < 64 → M.getLsbD (4 * e) = true → a < offs e ∨ offs e + 4 ≤ a) → (padWritten c.rank q.mem ws).get a = q.mem.get a) ∧
        ∀ e, e < 64 → M.getLsbD (4 * e) = true → (∀ f, e < f → f < 64 → M.getLsbD (4 * f) = true → offs f ≠ offs e) →
          (padWritten c.rank q.mem ws).bytes (offs e) 4 = natLe 4 (lane 4 (c.vregs.row v.vd) e)))

/-! ### Writes of SYS space -/

/-- R7, R327, R338, R340, R344, R350, R386 to R390, R393, R395 to R397, R409: a write of a SYS word by a host function without the right to its page
changes nothing but the count of refused accesses; one by a master that may write stores a legal value where its structure keeps it and
performs the command that it is: `ST.node` and `PW.limit` within their ranges, contexts, partitions that do not overlap, remote masters
without a double, breakpoints, the KV header while the table is disabled, the fault queues, a dependence counter, an Anole register, one
access byte; a shoot-down with the next number; the creation, destruction and abandoning of versioned regions. -/
def Obligations.SysWrites : Prop :=
  (∀ i m off v (s : State), sysWriteOf i = some (m, off, v) →
    (m.toNat < 32 → s.sysRight m.toNat off .write = false → exec i s = .next ((s.before m).refuse (BitVec.ofNat 1 (m.toNat / 16)))) ∧
    (32 ≤ m.toNat → m ≠ 44#7 → exec i s = .next s)) ∧
  ∀ (s : State) (m : BitVec 7), s.sysOk →
    (∀ (c : BitVec 6) (v : Word), s.maySys m (cxOff c) → v.toNat < 2 ^ 48 → v.toNat / 4 % 2 ^ 5 = 0 → v.toNat % 4 < 2 → exec (.contextStateWrite c m v) s = .next ((s.before m).sysPut (cxOff c) v)) ∧
    (∀ (c : BitVec 6) (v : Word), s.maySys m (cxOff c + 40) → v.toNat < 2 ^ 32 → exec (.contextResolveWrite c m v) s = .next ((s.before m).sysPut (cxOff c + 40) v)) ∧
    (∀ (c : BitVec 12) (v : Word), s.maySys m (dcOff c) → v.toNat / 2 ^ 16 % 2 ^ 16 = 0 → v.toNat / 2 ^ 44 % 2 ^ 4 = 0 →
      exec (.dependenceCounterWrite c m v) s = .next ((s.before m).sysPut (dcOff c) v)) ∧
    (∀ (v : BitVec 12), s.maySys m 32 → exec (.powerLimitWrite m v) s = .next (if 1800 ≤ v.toNat ∧ v.toNat ≤ 2600 then (s.before m).sysPut 32 (ofU v.toNat) else s.before m)) ∧
    (∀ (v : BitVec 12), s.maySys m 16 → s.sysF 16 32 32 = 0 → v.toNat < 3072 → ∃ t, exec (.nodeIdWrite m v) s = .next t ∧ t.node = v ∧ t.link = { s.link with nodeSet := true } ∧
      (∀ i, 12 ≤ i → i < 32 → t.sysF 16 i 1 = s.sysF 16 i 1) ∧ t.dram = s.dram ∧ t.launches = s.launches) ∧
    (∀ (v : BitVec 12), s.maySys m 16 → s.sysF 16 32 32 = 0 → 3072 ≤ v.toNat → exec (.nodeIdWrite m v) s = .next (s.before m)) ∧
    (∀ (p : BitVec 4) (v : Word), p.toNat < 12 → s.maySys m (ptOff p.toNat) → v.toNat < 2 ^ 32 → v.toNat / 2 ^ 25 % 2 ^ 6 = 0 → v.toNat / 2 ^ 22 % 4 = 0 →
      v.toNat / 2 ^ 12 % 2 ^ 4 = 0 →
      ((∀ q, q < 12 → q ≠ p.toNat → s.ptEn q = true → s.ptDies q &&& (v.toNat % 2 ^ 12) = 0) → (∀ l ∈ s.launches, l.part = p → l.state = .done) →
        (∀ x ∈ s.placing, s.qPart x.queue ≠ p) → exec (.partitionDescriptorWrite p m v) s = .next ((s.before m).sysPut (ptOff p.toNat) v)) ∧
      ((∃ q, q < 12 ∧ q ≠ p.toNat ∧ s.ptEn q = true ∧ s.ptDies q &&& (v.toNat % 2 ^ 12) ≠ 0) ∨ (∃ l ∈ s.launches, l.part = p ∧ l.state ≠ .done) →
        exec (.partitionDescriptorWrite p m v) s = .next (s.before m))) ∧
    (∀ (i : BitVec 6) (v : Word), s.maySys m (rmOff i) → v.toNat / 2 ^ 28 % 2 ^ 35 = 0 → v.toNat / 2 ^ 4 % 2 ^ 12 = 0 →
      ((v.toNat / 2 ^ 63 = 1 → ∀ j : BitVec 6, j ≠ i → ¬ ((s.sysW (rmOff j)).toNat / 2 ^ 63 = 1 ∧
          (s.sysW (rmOff j)).toNat / 2 ^ 16 % 2 ^ 12 = v.toNat / 2 ^ 16 % 2 ^ 12 ∧ (s.sysW (rmOff j)).toNat % 2 ^ 4 = v.toNat % 2 ^ 4)) →
        exec (.remoteMasterWrite i m v) s = .next ((s.before m).sysPut (rmOff i) v)) ∧
      (v.toNat / 2 ^ 63 = 1 → (∃ j : BitVec 6, j ≠ i ∧ (s.sysW (rmOff j)).toNat / 2 ^ 63 = 1 ∧
          (s.sysW (rmOff j)).toNat / 2 ^ 16 % 2 ^ 12 = v.toNat / 2 ^ 16 % 2 ^ 12 ∧ (s.sysW (rmOff j)).toNat % 2 ^ 4 = v.toNat % 2 ^ 4) →
        exec (.remoteMasterWrite i m v) s = .next (s.before m))) ∧
    (∀ (c : BitVec 6) i (v : Word), s.maySys m (bpOff c i.toNat) → v.toNat / 2 ^ 52 % 2 ^ 11 = 0 → v.toNat % 4 = 0 → ∃ t, exec (.breakpointWrite c i m v) s = .next t ∧
      t.sys = (s.sysPut (bpOff c i.toNat) v).sys ∧ t.dram = s.dram ∧ ((∀ l ∈ s.launches, l.state ≠ .parked) → t.launches = s.launches)) ∧
    (∀ (p : BitVec 4) (w : BitVec 3) (v : Word), p.toNat < 12 → w = 2#3 ∨ w = 4#3 → s.maySys m (khOff p.toNat + 8 * w.toNat) → v.toNat < 2 ^ 48 → v.toNat % 8 = 0 →
      s.khEn p.toNat = false → exec (.kvHeaderWrite p m w v) s = .next ((s.before m).sysPut (khOff p.toNat + 8 * w.toNat) v)) ∧
    (∀ (p : BitVec 4) (w : BitVec 3) (v : Word), p.toNat < 12 → w ≠ 7#3 → s.maySys m (khOff p.toNat + 8 * w.toNat) → s.khEn p.toNat = true →
      exec (.kvHeaderWrite p m w v) s = .next (s.before m)) ∧
    (∀ (h : BitVec 1) (v : Word), s.maySys m (fqOff h) → s.host.delayed = [] → v.toNat < 2 ^ 48 → 4 ≤ v.toNat % 2 ^ 5 → v.toNat % 2 ^ 5 ≤ 16 →
      exec (.faultQueueDescriptorWrite h m 0#3 v) s = .next ((s.before m).sysPut (fqOff h) v)) ∧
    (∀ (h : BitVec 1) (v : Word), s.maySys m (fqOff h + 16) → s.host.delayed = [] →
      exec (.faultQueueReadWrite h m v) s = .next (if v.toNat ≤ (s.sysW (fqOff h + 8)).toNat then (s.before m).sysPut (fqOff h + 16) v else s.before m)) ∧
    (∀ (a : BitVec 4) (v : Word), s.maySys m (anOff a) → v.toNat % 4 = 0 →
      exec (.sysRegisterWrite m (BitVec.ofNat 32 (anOff a)) 3#2 v) s = .next ((s.before m).sysPut (anOff a) v)) ∧
    (∀ (off : BitVec 32) (v : BitVec 8), s.maySys m off.toNat → off.toNat < 0x02000000 → isAccessOff (off.toNat / 8 * 8) = true → v.toNat < 32 →
      (∀ i, i < 8 → s.sysByte (off.toNat / 8 * 8 + i) < 32 ∧ (45 ≤ (off.toNat / 8 * 8 + i) % 128 → (off.toNat / 8 * 8 + i) % 128 ≤ 63 →
        s.sysByte (off.toNat / 8 * 8 + i) = 0)) → ¬ (44 ≤ off.toNat % 128 ∧ off.toNat % 128 ≤ 63) →
      ∃ t, exec (.sysRegisterWrite m off 0#2 (ofU v.toNat)) s = .next t ∧ sysOnly s t ∧ ∀ x, t.sysByte x = if x = off.toNat then v.toNat else s.sysByte x) ∧
    (∀ (off : BitVec 32) size v, off.toNat % 2 ^ size.toNat ≠ 0 → exec (.sysRegisterWrite m off size v) s = .next s) ∧
    (∀ (c : BitVec 6) (v : Word), s.maySys m (cxOff c + 32) → v.toNat < 2 ^ 32 → ∃ (t : State) (d : Shootdown), exec (.shootdownIssue c m v) s = .next t ∧ t.shoots = s.shoots ++ [d] ∧ d.ctx = c ∧
      d.q = (s.sysF (cxOff c + 16) 0 32 + 1) % 2 ^ 32 ∧ t.sysF (cxOff c + 16) 0 32 = d.q ∧ d.pages = v.toNat ∧ d.page = s.sysF (cxOff c + 24) 12 40 * 4096 ∧
      d.all = (s.sysW (cxOff c + 24)).getLsbD 0 ∧ t.dram = s.dram ∧
      ∀ k, k ∈ d.waiting ↔ k ∈ s.coresOf c ∧ ∃ x, s.core? k = some x ∧ ∃ y ∈ s.tlbsOf x.phys, (∃ e ∈ y.entries, e.ctx = c) ∨ ∃ e ∈ y.tables, e.ctx = c) ∧
    (∀ (c : BitVec 6) (v : Word) (k : CoreRef) (x : Core) since nx, s.maySys m (cxOff c + 32) → v.toNat < 2 ^ 32 → k ∈ s.coresOf c → s.core? k = some x → x.block = .wfe since nx →
      ∃ (t : State) (y : Core), exec (.shootdownIssue c m v) s = .next t ∧ t.core? k = some y ∧ y.block = .none ∧ y.regs = x.regs.setPc nx) ∧
    (∀ (c : BitVec 6) (a : BitVec 48) (g : Region), s.maySys m (cxOff c + 48) → a.toNat < 2 ^ 12 → g.at' = s.vrAt c a.toNat →
      ((∀ i, i < 4 → s.slotState g i = 0 ∧ s.slotCount g i = 0) → ∃ t, exec (.vrDestroy c m a) s = .next t ∧ t.sysF (cxOff c + 56) 0 8 = 0 ∧
        t.dram = s.dram.put g.at' (List.replicate 128 0#8)) ∧
      ((∃ i, i < 4 ∧ (s.slotState g i ≠ 0 ∨ s.slotCount g i ≠ 0)) → ∃ t, exec (.vrDestroy c m a) s = .next t ∧ t.sysF (cxOff c + 56) 0 8 = 8 ∧ t.dram = s.dram) ∧
      (∀ i, s.region? c a.toNat = some g → i < g.slots → s.slotState g i = 1 ∨ s.slotState g i = 2 → (∀ j, j < i → s.slotState g j ≠ 1 ∧ s.slotState g j ≠ 2) →
        ∃ t, exec (.vrAbandon c m a) s = .next t ∧ t.sysF (cxOff c + 56) 0 8 = 0 ∧ t.dram = (s.slotPut g i 0 0#32 0).dram)) ∧
    (∀ (c : BitVec 6) (a : BitVec 48) (w0 : Nat) (w1 : Word), s.maySys m (cxOff c + 48) → a.toNat % 32 = 0 → dpaOk a.toNat = true → dpaOk (a.toNat + 31) = true → s.dram.badIn a.toNat 32 = false →
      w0 = (s.dram.word a.toNat).toNat → w1 = s.dram.word (a.toNat + 8) → w0 < 2 ^ 48 → w0 / 2 ^ 15 % 2 = 0 → w0 % 2 ^ 12 ≠ 0 → 2 ≤ w0 / 2 ^ 12 % 8 →
      w0 / 2 ^ 12 % 8 ≤ 4 → w0 / 2 ^ 16 % 2 ^ 32 ≠ 0 → w1.toNat % 65536 = 0 → s.dram.word (a.toNat + 16) = 0#64 → s.dram.word (a.toNat + 24) = 0#64 →
      w1.toNat + (w0 / 2 ^ 12 % 8 + 1) * (w0 / 2 ^ 16 % 2 ^ 32 * 65536) ≤ 2 ^ 52 → s.region? c (w0 % 2 ^ 12) = none → s.regions c = [] →
      ∃ t, exec (.vrCreate c m a) s = .next t ∧ ((2 ≤ a.toNat / 2 ^ 44 ∧ t.sysF (cxOff c + 56) 0 8 = 0x10 ∧ t.dram = s.dram) ∨
        t.sysF (cxOff c + 56) 0 8 = 0 ∧ t.dram = (s.dram.put (s.vrAt c (w0 % 2 ^ 12)) (List.replicate 128 0#8)).put (s.vrAt c (w0 % 2 ^ 12)) (natLe 8 (w0 + 2 ^ 15) ++ natLe 8 w1.toNat)))

/-! ### Launch queues -/

/-- R271 to R274: claims, write indices and acknowledgements advance a queue's indices within R273's bounds, beyond them the queue stops with
`QD.eidx`; error bits are cleared by zeros; a queue is created from a legal configuration with a new generation and zero indices, restarted
when stopped (else `QD.eidx`), destroyed, and parked after a second of idleness, its ring then in the capacity tier (at a place of the model's choice,
log entry 77) until the next packet. -/
def Obligations.QueueIndices : Prop :=
  ∀ (s : State) (q : BitVec 12) (m : BitVec 7), s.sysOk →
    (s.maySys m (qdOff q + 16) → s.qState q = 1 ∨ s.qState q = 2 → s.qWrite q ≤ s.qClaim q → s.qCack q ≤ s.qRead q → s.qClaim q + 1 < 2 ^ 64 →
      (s.qClaim q + 1 ≤ min (s.qRead q) (s.qCack q) + 2 ^ s.qLsize q → ∃ t, exec (.queueClaim q m) s = .next t ∧ t.qClaim q = s.qClaim q + 1 ∧
        t.qWrite q = s.qWrite q ∧ t.qRead q = s.qRead q ∧ t.qCack q = s.qCack q ∧ t.qState q = s.qState q ∧ t.dram = s.dram ∧ t.launches = s.launches ∧
        t.anoles = s.anoles) ∧
      (min (s.qRead q) (s.qCack q) + 2 ^ s.qLsize q < s.qClaim q + 1 → ∃ t, exec (.queueClaim q m) s = .next t ∧ t.qState q = 3 ∧
        t.sysF (qdOff q + 48) 2 1 = 1 ∧ t.qClaim q = s.qClaim q ∧ t.dram = s.dram ∧ t.launches = s.launches)) ∧
    (∀ old v : BitVec 64, s.maySys m (qdOff q + 24) →
      (s.sysW (qdOff q + 24) ≠ old → exec (.queueWriteIndexUpdate q m old v) s = .next s) ∧
      (s.sysW (qdOff q + 24) = old → s.qState q = 1 ∨ s.qState q = 2 → s.qWrite q < v.toNat → v.toNat ≤ s.qClaim q → s.qCack q ≤ s.qRead q →
        s.qClaim q ≤ min (s.qRead q) (s.qCack q) + 2 ^ s.qLsize q → ∃ t, exec (.queueWriteIndexUpdate q m old v) s = .next t ∧ t.qWrite q = v.toNat ∧
          t.qClaim q = s.qClaim q ∧ t.qState q = 1 ∧ t.launches = s.launches ∧ (s.qState q = 1 → t.dram = s.dram) ∧
          ∀ r, s.qState q = 2 → (s.aux q).ring = some r → t.qRing q = r.toNat / 4096 * 4096 ∧
            ∀ i, i < 64 * 2 ^ s.qLsize q → t.dram.get (t.qRing q + i) = s.dram.get (s.qRing q + i))) ∧
    (∀ v : BitVec 64, s.maySys m (qdOff q + 56) → s.qState q ≠ 0 → s.qWrite q ≤ s.qClaim q → s.qClaim q ≤ min (s.qRead q) (s.qCack q) + 2 ^ s.qLsize q →
      s.qCack q ≤ v.toNat → v.toNat ≤ s.qRead q → ∃ t, exec (.queueCompletionAck q m v) s = .next t ∧ t.qCack q = v.toNat ∧ t.qClaim q = s.qClaim q ∧
        t.qWrite q = s.qWrite q ∧ t.qState q = s.qState q ∧ t.dram = s.dram ∧ t.launches = s.launches) ∧
    (∀ v : BitVec 64, s.maySys m (qdOff q + 48) → v.toNat < 32 → exec (.queueErrorWrite q m v) s = .next ((s.before m).sysPut (qdOff q + 48) (s.sysW (qdOff q + 48) &&& v))) ∧
    (∀ d : QueueSpec, s.maySys m (qdOff q) → s.maySys m (qdOff q + 40) → s.maySys m (qdOff q + 8) → s.qState q = 0 → d.ring.toNat % 4096 = 0 →
      d.cring.toNat % 32 = 0 → 4 ≤ d.cfg.toNat % 32 → d.cfg.toNat % 32 ≤ 16 → d.cfg.toNat / 2 ^ 5 % 2 ^ 13 = 0 → d.cfg.toNat / 2 ^ 18 % 2 ^ 4 < 12 →
      d.cfg.toNat / 2 ^ 32 % 2 ^ 8 ≠ 0 → d.cfg.toNat / 2 ^ 40 % 2 ^ 8 = 0 → ∃ t, exec (.queueCreate q m d) s = .next t ∧ t.qState q = 1 ∧
        t.qGen q = s.qGen q + 1#16 ∧ t.qRing q = d.ring.toNat ∧ t.qCring q = d.cring.toNat ∧ t.qLsize q = d.cfg.toNat % 32 ∧
        (t.qPart q).toNat = d.cfg.toNat / 2 ^ 18 % 2 ^ 4 ∧ (t.qCtx q).toNat = d.cfg.toNat / 2 ^ 22 % 2 ^ 6 ∧ t.qClaim q = 0 ∧ t.qWrite q = 0 ∧
        t.qRead q = 0 ∧ t.qCack q = 0 ∧ t.sysW (qdOff q + 48) = 0#64 ∧ t.dram = s.dram ∧ t.launches = s.launches) ∧
    (s.maySys m (qdOff q + 8) → s.qState q = 3 → s.sysF (qdOff q + 8) 40 8 = 0 → s.sysF (qdOff q + 8) 5 13 = 0 →
      exec (.queueRestart q m) s = .next ((s.before m).qSetState q 1)) ∧
    (s.sysRight m.toNat (qdOff q) .write = true → s.qState q ≠ 3 → exec (.queueRestart q m) s = .next (s.qErr q 2)) ∧
    (s.maySys m (qdOff q + 8) → s.qState q ≠ 0 → s.sysF (qdOff q + 8) 40 8 = 0 → s.sysF (qdOff q + 8) 5 13 = 0 → (∀ l ∈ s.launches, l.queue ≠ q) →
      (∀ x ∈ s.placing, x.queue ≠ q) → s.qWrite q ≤ (s.aux q).next → ∃ t, exec (.queueDestroy q m) s = .next t ∧ t.qState q = 0 ∧ t.qGen q = s.qGen q ∧
        t.dram = s.dram ∧ t.launches = s.launches ∧ t.placing = s.placing) ∧
    (s.qState q = 1 → s.fwServes = true → s.qClaim q = s.qWrite q → s.qWrite q = s.qRead q → (∀ l ∈ s.launches, l.queue = q → l.state = .done) →
      (∀ x ∈ s.placing, x.queue ≠ q) → s.dpaReady (s.qRing q) = true → s.dpaReady (parkAt q) = true →
      (s.cc < (s.aux q).idle + Config.parkCc → exec (.queuePark q) s = .next s) ∧
      ((s.aux q).idle + Config.parkCc ≤ s.cc → ∃ t, exec (.queuePark q) s = .next t ∧ t.qState q = 2 ∧ t.qRing q = parkAt q ∧ t.qClaim q = s.qClaim q ∧
        t.qRead q = s.qRead q ∧ t.launches = s.launches ∧ ∀ i, i < 64 * 2 ^ s.qLsize q → t.dram.get (t.qRing q + i) = s.dram.get (s.qRing q + i)))

/-- R279, R280, R283, R284, R288, R301: a packet at the head of its queue waits for its dependence counter, is rejected by its completion record
or, having passed validation, goes to placement; a placement in its turn starts the launch's cores at the prologue with zeroed scratchpads;
a launch that is done leaves, with its completion record in its slot, and `QD.read` passes the slot. -/
def Obligations.LaunchLifecycle : Prop :=
  (∀ (s : State) (q : BitVec 12) (slot : Nat) (p : Packet) (u : State), s.mayDispatch q = true → s.headOf q = some (slot, p, false) → s.dpaReady (s.slotAt q slot) = true → s.dpaReady (s.recordAt q slot) = true →
    (s.aux q).waitSeq = none → (s.aux q).head = none → s.dram.badIn (s.slotAt q slot) 64 = false →
    (p.w3.toNat / 2 ^ 31 % 2 = 1 → (s.counterOf p).1 = p.w3.toNat % 2 ^ 16 → (s.counterOf p).2 ≠ 0 → exec (.packetValidation q) s = .next s) ∧
    ((p.w3.toNat / 2 ^ 31 % 2 = 1 → (s.counterOf p).1 = p.w3.toNat % 2 ^ 16 ∧ (s.counterOf p).2 = 0) →
      (∀ r xs, s.validate q p = (.good r xs, u) → ∃ t, exec (.packetValidation q) s = .next t ∧
        t.placing = u.placing ++ [{ queue := q, slot := slot, packet := p, lrec := r, images := xs }] ∧ (t.aux q).next = slot + 1 ∧
        t.launches = u.launches ∧ t.dram = u.dram ∧ t.sys = u.sys) ∧
      (∀ code, s.validate q p = (.reject code, u) → u.sysOk → p.w3.toNat / 2 ^ 63 = 0 → ∃ t, exec (.packetValidation q) s = .next t ∧
        t.dram = u.dram.put (u.recordAt q slot) (natLe 8 (slot % 2 ^ 32 * 2 ^ 32 + (u.qGen q).toNat * 2 ^ 16 + q.toNat) ++
          natLe 8 (3 * 2 ^ 61 + 5 * 2 ^ 58 + code * 2 ^ 50) ++ natLe 8 0 ++ natLe 8 0) ∧
        t.launches = u.launches ∧ t.placing = u.placing ∧ t.host.notify = u.host.notify ++ [q]))) ∧
  (∀ (s : State) (q : BitVec 12) (p : Packet), p.h = 0 ∨ 16 < p.h ∨ p.w = 0 ∨ 24 < p.w ∨ p.prot = 3 → s.validate q p = (.reject 0x01, s)) ∧
  (∀ (s : State) (q : BitVec 12) (e : Placing) ring place (part : Nat), s.headReady q = true → s.placing.find? (fun x => x.queue == q) = some e → part = (s.qPart q).toNat →
    s.everPlaceable part e.packet = true → s.placeable part e.packet [] = true → s.served q e.packet = some ring →
    s.placeOk part e.packet [] (placeOf' e.packet place) = true → ∃ (t : State) (l : Launch), exec (.launchPlacement q place) s = .next t ∧ t.launches = s.launches ++ [l] ∧
      t.placing = (s.placing.filter fun x => x.queue != q) ∧ t.dram = s.dram ∧ t.sys = s.sys ∧ l.lid = s.nextLid ∧ t.nextLid = s.nextLid + 1 ∧
      l.state = .running ∧ l.queue = e.queue ∧ l.slot = e.slot ∧ l.packet = e.packet ∧ l.lrec = e.lrec ∧ l.log = [] ∧
      ∀ cp ∈ l.copies, (∀ x ∈ cp.pads, x.mem = Store.zero ∧ x.chunks = []) ∧ cp.home = [] ∧ ∀ c ∈ cp.cores, c.regs.pc = e.lrec.pro ∧
        c.regs.get 63#6 = ofU (0x7000000000000000 + e.packet.usp) ∧ (∀ i : BitVec 6, 5 ≤ i.toNat → i.toNat < 63 → c.regs.get i = 0#64) ∧
        (∀ i : BitVec 6, 1 ≤ i.toNat → i.toNat ≤ 4 → c.regs.get i = e.packet.args.getD (i.toNat - 1) 0#64) ∧ c.loop.phase = .prologue ∧
        c.sync = Sync.zero ∧ c.eng.cmds = [] ∧ c.watch = s.cc) ∧
  (∀ (s : State) (lid : Nat) (l : Launch) (e : Ending) (ck : Nat), s.launch? lid = some l → s.fwServes = true → s.sysOk → s.dpaReady (s.recordAt l.queue l.slot) = true →
    (l.state = .done ∨ (l.state = .running ∧ l.allExited = true ∧ l.third = none ∧ l.deferred = [])) → l.barx = [] → l.lag = [] → s.host.writes = [] →
    l.packet.w3.toNat / 2 ^ 63 = 0 → e = l.ending.getD (Ending.zero 0) →
    ck = ((l.copy? .primary).bind fun c => c.cores.head?.map fun k => k.loop.ckpt).getD 0 → ∃ t, exec (.launchCompletion lid) s = .next t ∧
      t.launches = (s.launches.filter fun x => x.lid != lid) ∧ t.host.notify = s.host.notify ++ [l.queue] ∧
      t.dram = s.dram.put (s.recordAt l.queue l.slot) (natLe 8 (l.slot % 2 ^ 32 * 2 ^ 32 + l.gen.toNat * 2 ^ 16 + l.queue.toNat) ++
        natLe 8 (e.status * 2 ^ 61 + e.src * 2 ^ 58 + e.code * 2 ^ 50 + l.ovs.toNat * 2 ^ 49 + l.noprog.toNat * 2 ^ 48 + e.gang.toNat * 2 ^ 47 +
          e.col * 2 ^ 40 + e.row * 2 ^ 32 + e.trap.toNat) ++
        natLe 8 (l.unit * 2 ^ 48 + l.aborts * 2 ^ 32 + ck % 2 ^ 32) ++ natLe 8 (s.cc - l.start)) ∧
      ((s.aux l.queue).done = [] → l.gen = s.qGen l.queue → l.slot = s.qRead l.queue → s.qRead l.queue + 1 < 2 ^ 64 → t.qRead l.queue = s.qRead l.queue + 1))

/-! ### Groups -/

/-- R166, R287, R289, R292 to R295, R302, R365, R368, R369: the steps of a group: its progress guard runs out, a pre-emption that was asked
for becomes a cause of abort and takes effect, its cores' watchdogs and WFE time limits strike, a checkpoint commits when all is drained, a stopped group resumes at
its prologue, and in class D signatures are compared and a third execution decides. -/
def Obligations.GroupSteps : Prop :=
  (∀ s lid l, s.launch? lid = some l →
    ((l.guarded = false ∧ (l.state = .running ∨ l.state = .checkpointing) ∧ l.guardFrom + Config.guardCc ≤ s.cc →
        exec (.progressGuardExpiry lid) s = .next (s.modLaunch lid fun m => { m with expired := true })) ∧
      (l.guarded = true ∨ s.cc < l.guardFrom + Config.guardCc → exec (.progressGuardExpiry lid) s = .next s)) ∧
    (l.preempt = false → exec (.preemptionTakeEffect lid) s = .next s) ∧
    (l.preempt = true → l.state = .running → l.guardMet s.cc = true ∨ l.forced = true → l.third = none → s.fwServes = true → l.busy = false → .preempt ∉ l.deferred →
      exec (.preemptionTakeEffect lid) s = .next (s.modLaunch lid fun m => { m with deferred := m.deferred ++ [.preempt] })) ∧
    (l.deferred = [.preempt] → l.guarded = true → s.fwServes = true → l.busy = false → ∃ t m, s.runDeferredOf lid = t ∧ t.launch? lid = some m ∧
      m.state = .parked ∧ m.park = .place ∧ m.preempt = false ∧ m.deferred = [] ∧
      m.aborts = min 65535 (l.aborts + 1) ∧ m.snap = l.snap ∧ t.dram = s.dram ∧ t.sys = s.sys ∧
      ∀ y ∈ m.copies, y.home = [] ∧ ∀ d ∈ y.cores, d.muslin.lines = [] ∧ d.eng.cmds = [] ∧ d.port = [] ∧ d.faulted = false)) ∧
  (∀ s k l c, s.launch? k.lid = some l → s.core? k = some c →
    (l.state = .running → c.faulted = false → c.block ≠ .ckpt → c.exited = false → l.third = none → exec (.quiescenceWatchdog k) s =
      .next (if c.watch + Config.watchdogCc ≤ s.cc then s.takeFault (.core k) (Trap.mk' 0x14 0#64 5) else s)) ∧
    (∀ since nx, c.block = .wfe since nx → (s.cc < since + Config.wfeCc → exec (.wfeTimeout (.core k)) s = .next s) ∧
      (since + Config.wfeCc ≤ s.cc → ∃ t, exec (.wfeTimeout (.core k)) s = .next t ∧ onlyCore s t k { c with block := .none, regs := c.regs.setPc nx })) ∧
    (c.block = .none → exec (.wfeTimeout (.core k)) s = .next s)) ∧
  (∀ (s : State) (a : BitVec 4) since nx, s.anoles[a.toNat].block = .wfe since nx → (s.cc < since + Config.wfeCc → exec (.wfeTimeout (.anole a)) s = .next s) ∧
    (since + Config.wfeCc ≤ s.cc → ∃ t, exec (.wfeTimeout (.anole a)) s = .next t ∧ t.anoles[a.toNat].block = .none ∧
      t.anoles[a.toNat].regs = s.anoles[a.toNat].regs.setPc nx ∧ t.launches = s.launches ∧ t.dram = s.dram)) ∧
  (∀ s lid l cp, s.launch? lid = some l → l.state = .checkpointing → l.third = none → l.deferred = [] → l.copies = [cp] → cp.role = .primary →
    (cp.drained = false → exec (.checkpointCommit lid) s = .next s) ∧
    (cp.drained = true → cp.home = [] → l.lrec.ranges = [] → l.lag = [] → (∀ c ∈ cp.cores, c.muslin.lines = [] ∧ c.port = [] ∧ c.sync.noted = []) →
      (∃ c ∈ cp.cores, c.rank = 0) → ∃ t m n, exec (.checkpointCommit lid) s = .next t ∧ t.launch? lid = some m ∧ m.state = .running ∧ m.log = [] ∧
        m.guarded = true ∧ m.snap = some n ∧ (n.cores.map fun x => (x.rank, x.regs, x.vregs, x.barriers, x.banks)) =
          (cp.cores.map fun c => (c.rank, c.regs, c.vregs, c.sync.barriers, c.tens.banks)) ∧
        (n.cores.map fun x => x.counts) = (cp.cores.map fun c => c.sync.tokens.toList.map fun y => y.count) ∧ t.dram = s.dram ∧ t.sys = s.sys ∧
        ∀ y ∈ m.copies, y.replay = 0 ∧ ∀ d ∈ y.cores, d.block = .none ∧ d.watch = s.cc ∧ d.loop.ckptPending = false ∧
          d.regs.pc = if d.loop.iter = l.lrec.trip then l.lrec.epi else l.lrec.ker)) ∧
  (∀ s lid l x place, s.launch? lid = some l → s.fwServes = true → l.state = .resuming → s.firm.save = none → s.cxState l.ctx = 1 → s.parkOver l = true →
    (∀ n, l.snap = some n → n.bad = false) → s.everPlaceable l.part.toNat l.packet = true → s.resumePlace l place = some x →
    ∃ t m, exec (.groupResume lid place) s = .next t ∧ t.launch? lid = some m ∧ m.state = .running ∧ m.fault = faultWord l.cause ∧ m.guarded = false ∧
      m.guardFrom = s.cc ∧ t.dram = s.dram ∧ t.sys = s.sys ∧ ∀ y ∈ m.copies, y.home = [] ∧ y.replay = 0 ∧ ∀ d ∈ y.cores, d.regs.pc = l.lrec.pro ∧
        d.loop.phase = .prologue ∧ d.eng.cmds = [] ∧ d.muslin.lines = [] ∧ d.block = .none ∧ (l.snap = none → d.regs = startRegs l.packet l.lrec.pro)) ∧
  (∀ s lid rank l o sp ss, s.launch? lid = some l → l.packet.prot = 2 → l.third = none → l.deferred = [] → l.state = .running → l.pairSigs rank = some (o, sp, ss) →
    (∀ cp c, sp = ss → s.copy? ⟨lid, .primary, rank⟩ = some cp → cp.core? rank = some c → cp.home = [] → (∀ d ∈ cp.cores, d.port = []) → l.log.length < 4096 →
      (∀ d ∈ cp.cores, d.muslin.closed = []) → ∃ t c', exec (.classDCompare lid rank) s = .next t ∧
        t.core? ⟨lid, .primary, rank⟩ = some c' ∧ c'.commit = .releasing sp [] false ∧ c'.regs = c.regs ∧ c'.muslin = c.muslin ∧ t.dram = s.dram) ∧
    (sp ≠ ss → (∀ n, l.snap = some n → n.bad = false) → ∃ t, exec (.classDCompare lid rank) s = .next t ∧ ∀ m, t.launch? lid = some m →
      (∃ d, m.third = some d ∧ d.rank = rank ∧ d.sp = sp ∧ d.ss = ss ∧ d.ckpt = false) ∨ (m.state = .done ∧ m.ending.map (fun e => e.code) = some 0x13))) ∧
  (∀ s lid l d sg a b, s.launch? lid = some l → l.third = some d → l.thirdSig d = some sg → l.copy? .primary = some a → l.copy? .shadow = some b →
    (sg = d.sp ∨ sg = d.ss → ∃ t m, exec (.thirdExecutionDecision lid) s = .next t ∧ t.launch? lid = some m ∧ m.third = none ∧ m.copy? .third = none) ∧
    (sg ≠ d.sp → sg ≠ d.ss → ∃ t m, exec (.thirdExecutionDecision lid) s = .next t ∧ t.launch? lid = some m ∧ m.state = .done ∧
      m.ending.map (fun e => e.code) = some 0x13))

/-! ### Engine steps -/

/-- R173 to R175, R182, R183, R185, R190, R209, R218, R299: a command whose conditions do not hold waits; a copy between parts of the core's own
scratchpad that starts and reads all of its source leaves the bytes it read to be performed, ACLR zeroes its accumulators, VRUN starts its stream; a command that has
run leaves its queue, sets its flags and posts its token, or faults for a flag that is enabled; a fault of its run is taken. A command's
write in a chunk is performed at every core when the chunk's count falls. -/
def Obligations.EngineSteps : Prop :=
  ∀ s k l cp c id (m : Cmd), s.launch? k.lid = some l → s.copy? k = some cp → s.core? k = some c → c.cmd? id = some m → engineLive l = true →
    (∀ some', startOk s l cp c m = false → exec (.engineCommandStart k { cmd := id, partly := some' }) s = .next s) ∧
    (∀ q off off' n, startOk s l cp c m = true → m.op = .cpy → m.chained = false → m.got = [] → m.early = [] → cp.atRest → c.remote = [] → n = m.xc.toNat % 2 ^ 32 → 1 ≤ n →
      OwnPlace cp c q m.xb n 1 off → OwnPlace cp c q m.xa n 1 off' → q.mem.badIn off n = false → off + n ≤ off' ∨ off' + n ≤ off →
      ∃ t w, exec (.engineCommandStart k { cmd := id, partly := false }) s = .next t ∧ onlyCore s t k (c.modCmd id fun _ => { m with state := .running, partly := false, short := false, normAt := w, writes := [{ loc := .pad (.usp c.rank) off', data := q.mem.bytes off n, half := none, bytewise := true, slotOf := none }], raised := 0#7, norm := 0, normAdds := [] })) ∧
    (∀ b n some', startOk s l cp c m = true → m.op = .aclr → m.writes = [] → b = m.xa.toNat / 2 → n = m.xb.toNat → 1 ≤ n →
      ∃ t d, exec (.engineCommandStart k { cmd := id, partly := some' }) s = .next t ∧
      onlyCore s t k d ∧ d.tens.acc = c.tens.acc.put (b * 4096) (List.replicate (4096 * n) 0#8) ∧ d.regs = c.regs ∧ d.sync = c.sync ∧ d.vregs = c.vregs ∧
      (∀ i : Fin 128, d.tens.lanes[i.val] = if b ≤ i.val ∧ i.val < b + n then { Lane.zero with integer := c.tens.lanes[i.val].integer, valid := c.tens.lanes[i.val].valid } else c.tens.lanes[i.val]) ∧
      (d.cmd? id).map (fun e => (e.state, e.writes, e.raised)) = some (.running, [], 0#7)) ∧
    (∀ some', startOk s l cp c m = true → m.op = .vrun → ∃ t d st, exec (.engineCommandStart k { cmd := id, partly := some' }) s = .next t ∧ onlyCore s t k d ∧ d.eng.stream = some st ∧
      st.cmd = m.id ∧ st.spc.toNat = m.xa.toNat % 2 ^ 14 ∧ st.cycle = 0 ∧ st.landings = [] ∧ st.ended = false ∧ d.regs = c.regs ∧ d.vregs = c.vregs ∧
      (d.cmd? id).map (fun e => e.state) = some .running) ∧
    (∀ u y, u = { c.raiseFlags s.cc m.raised with eng := { c.eng with cmds := c.eng.cmds.filter fun e => e.id != id } } → y = u.tokenCycle →
      c.faulted = false → m.state = .running → m.err = none → m.op ≠ .vrun → m.writes = [] → m.chunks = [] → m.normAdds = [] → m.gang = none →
      (∀ a b, c.block ≠ .wfe a b) → (∀ h ∈ cp.home, h.cmd = some id → h.writer ≠ k.rank) →
      (c.policy.faultOf m.raised = 0 → ∃ t, exec (.engineCommandCompletion k id) s = .next t ∧ onlyCore s t k (if m.post = 63#6 then u
          else if 65535 ≤ y.sync.tokens[m.post.toNat].count then y
          else y.putTok m.post { y.sync.tokens[m.post.toNat] with count := y.sync.tokens[m.post.toNat].count + 1 })) ∧
      (c.policy.faultOf m.raised ≠ 0 → ∃ t, exec (.engineCommandCompletion k id) s = .next (t.takeFault (.core k) (m.blame (Trap.mk' (c.policy.faultOf m.raised)))) ∧
        onlyCore s t k u)) ∧
    (m.state ≠ .running ∨ m.err.isSome = true ∨ c.faulted = true → exec (.engineCommandCompletion k id) s = .next s) ∧
    (∀ x, m.err = some x → exec (.engineAccessFault k id) s = .next (if c.faulted then s else s.takeFault (.core k) x)) ∧
    (m.err = none → m.op ≠ .vrun → exec (.engineAccessFault k id) s = .next s) ∧
    (∀ p i, (p, i) ∉ m.chunks → exec (.chunkWritesPerformed k id p i) s = .next s) ∧
    (∀ p i w q o, (p, i) ∈ m.chunks → c.faulted = false → m.op ≠ .vrun → m.state = .running → m.err = none → m.gang = none → m.writes = [w] → w.loc = .pad p o → w.half = none →
      w.bytewise = true → 1 ≤ w.data.length → 512 * i ≤ o → o + w.data.length ≤ 512 * i + 512 → cp.pad? p = some q → q.mem.bad = [] → cp.home = [] →
      q.chunks.Pairwise (fun a b => a.1 < b.1) → ∃ t x y d, exec (.chunkWritesPerformed k id p i) s = .next t ∧ t.copy? k = some x ∧ x.home = [] ∧ x.pad? p = some y ∧ y.mem = q.mem.put o w.data ∧
        (y.chunk i).pend = (q.chunk i).pend - 1 ∧ (y.chunk i).status = (q.chunk i).status ∧ (∀ j, j ≠ i → y.chunk j = q.chunk j) ∧
        (∀ r, r ≠ p → x.pad? r = cp.pad? r) ∧ t.core? k = some d ∧ d.cmd? id = some { m with writes := [], chunks := m.chunks.erase (p, i), old := m.old.filter fun z => !z.1.inChunks [(p, i)] } ∧
        t.dram = s.dram ∧ t.sys = s.sys)

/-- R305, R308, R323: a store that a core's port holds reaches its home, where its own core's agents see it; one at its home becomes visible at a
wider scope, at device scope in the scratchpad itself; a released write that is asked for reaches its host; one element that a command has to
write, or one line that a commit point releases, is performed before the others (R176, R362).
R335, R336, R338, R339: a page walk that returns fills its TLB, unless the TLB has taken a later shoot-down since it began, when it is repeated; the oldest
shoot-down of a context completes when every TLB has taken it and no command that used a dropped entry runs: `CX.sddone` shows it.
R351, R353: a promotion that was asked for moves a demoted block's bytes to a frame from the HBM stack and releases the frame it had, or is not made
when no frame is there; a frame that no command uses any more goes back on its stack. -/
def Obligations.MemorySteps : Prop :=
  ((∀ s k cp c h rest, s.copy? k = some cp → s.core? k = some c → c.port = h :: rest → ∃ t x, exec (.writePerformed (.port k 0)) s = .next t ∧
    t.copy? k = some x ∧ x.home = cp.home ++ [{ id := h.id, writer := k.rank, pad := h.pad, off := h.off, data := h.data, scope := .unit, readBy := h.read.toList.map fun n => (k.rank, n) }] ∧
    t.core? k = some { c with port := rest } ∧ otherCores s t k ∧ t.dram = s.dram ∧ t.sys = s.sys ∧
    ∀ p, (x.pad? p).map (fun y => y.mem.cells) = (cp.pad? p).map fun y => y.mem.cells) ∧
  (∀ s lid role cp h sc, s.copy? ⟨lid, role, 0⟩ = some cp → cp.home = [h] →
    (scopeNum sc ≤ scopeNum h.scope → exec (.writePerformed (.home lid role 0 sc)) s = .next s) ∧
    (scopeNum h.scope < scopeNum sc → scopeNum sc < 3 → ∃ t, exec (.writePerformed (.home lid role 0 sc)) s = .next t ∧
      t.copy? ⟨lid, role, 0⟩ = some { cp with home := [{ h with scope := sc }] } ∧ t.dram = s.dram ∧ t.sys = s.sys) ∧
    (∀ q, scopeNum h.scope < scopeNum sc → 3 ≤ scopeNum sc → cp.pad? h.pad = some q → ∃ t x, exec (.writePerformed (.home lid role 0 sc)) s = .next t ∧
      t.copy? ⟨lid, role, 0⟩ = some x ∧ x.home = [] ∧ x.pad? h.pad = some { q with mem := q.mem.put h.off h.data } ∧
      (∀ r, r ≠ h.pad → x.pad? r = cp.pad? r) ∧ x.cores = cp.cores ∧ t.dram = s.dram ∧ t.sys = s.sys)) ∧
  (∀ (s : State) h rest, s.host.writes = h :: rest → (h.asked = false → exec (.writePerformed (.hostOut 0)) s = .next s) ∧
    (h.asked = true → exec (.writePerformed (.hostOut 0)) s = .next (State.putMasked { s with host := { s.host with writes := rest } } h.dpa h.mask h.data))) ∧
  (∀ s k l cp c id m w p o q, s.launch? k.lid = some l → s.copy? k = some cp → s.core? k = some c → l.state.live = true → c.faulted = false → c.cmd? id = some m →
    m.state = .running → m.err = none → m.gang = none → m.writes = [w] → w.loc = .pad p o → w.half = none → w.bytewise = false → cp.pad? p = some q →
    q.mem.bad = [] → ∃ t x, exec (.writePerformed (.element k id 0 0)) s = .next t ∧ t.copy? k = some x ∧ x.home = cp.home ++ [{ id := cp.stores, cmd := some id, chain := w.seq, writer := k.rank, pad := p, off := o, data := w.data, scope := .unit, readBy := [] }] ∧
      ((t.core? k).bind fun d => d.cmd? id).map (fun e => e.writes) = some [] ∧ t.dram = s.dram ∧ t.sys = s.sys) ∧
  (∀ s k l cp c sg rf h, s.launch? k.lid = some l → s.copy? k = some cp → s.core? k = some c → l.state.live = true → c.commit = .releasing sg [] rf →
    c.muslin.lines = [h] → h.slotOf = none → h.node = none → h.dpa / 2 ^ 44 < 2 → s.dpaReady h.dpa = true → s.dram.bad = [] → s.dram.wf = true → c.muslin.bad = [] →
    s.rel.dieRetired (dieOf c.phys) = false → ∃ t d, exec (.writePerformed (.release k 0)) s = .next t ∧ t.core? k = some d ∧ d.muslin.lines = [] ∧
      d.commit = .releasing sg [] rf ∧ d.regs = c.regs ∧
      ∀ x, t.dram.get x = if h.dpa ≤ x ∧ x < h.dpa + 64 ∧ h.mask.getLsbD (x - h.dpa) = true then h.data.extractLsb' (8 * (x - h.dpa)) 8 else s.dram.get x)) ∧
  ((∀ s k c (b : Nat) (va : BitVec 64) num, s.core? k = some c →
    ((∀ x ∈ s.walks, x.owner = c.phys → x.tlb = b → x.va = va.toNat → x.num ≠ num) → exec (.pageWalkReturn k b va num) s = .next s) ∧
    ∀ x, s.walks.find? (fun y => y.owner == c.phys && y.tlb == b && y.va == va.toNat && y.num == num) = some x →
      (num < (s.tlb c.phys b).taken x.ctx → ∃ t y, exec (.pageWalkReturn k b va num) s = .next t ∧ t.walks = (s.walks.map fun z => if z = x then y else z) ∧
        y.owner = x.owner ∧ y.tlb = x.tlb ∧ y.va = x.va ∧ y.num = (s.tlb c.phys b).taken x.ctx ∧ t.tlbs = s.tlbs ∧ t.dram = s.dram ∧ t.launches = s.launches) ∧
      ((s.tlb c.phys b).taken x.ctx ≤ num → (s.tlbsOf c.phys).length = 10 → b < 10 →
        (∀ e, (s.walk x.ctx x.part x.va).1 = .leaf e → x.leaf = some e → ∃ t, exec (.pageWalkReturn k b va num) s = .next t ∧ t.walks = s.walks.erase x ∧
          t.tlb c.phys b = (s.tlb c.phys b).fill e (s.tablesFrom x.ctx x.va 5 (s.cxRoot x.ctx)) ∧ (∀ o, o ≠ c.phys → t.tlbsOf o = s.tlbsOf o) ∧
          t.dram = s.dram ∧ t.launches = s.launches) ∧
        ((s.walk x.ctx x.part x.va).1 = .invalid → x.leaf = none → ∃ t, exec (.pageWalkReturn k b va num) s = .next t ∧ t.walks = s.walks.erase x ∧
          t.tlbs = s.tlbs ∧ t.dram = s.dram ∧ t.launches = s.launches))) ∧
  (∀ (s : State) x, ((∀ d ∈ s.shoots, d.ctx ≠ x) → exec (.shootdownComplete x) s = .next s) ∧
    ∀ d, s.shoots.find? (fun y => y.ctx == x) = some d →
      (d.waiting ≠ [] ∨ s.staleCmd x d.q = true → exec (.shootdownComplete x) s = .next s) ∧
      (d.waiting = [] → s.staleCmd x d.q = false → s.sysOk → d.q < 2 ^ 32 → ∃ t, exec (.shootdownComplete x) s = .next t ∧ t.shoots = s.shoots.erase d ∧
        t.sysF (cxOff x + 16) 32 32 = d.q ∧ t.sysF (cxOff x + 16) 0 32 = s.sysF (cxOff x + 16) 0 32 ∧ t.dram = s.dram ∧ t.launches = s.launches))) ∧
  ((∀ (s : State) (p : BitVec 4) (b : BitVec 20) u y, u = { s with kv := { s.kv with promote := s.kv.promote.erase (p, b.toNat) } } → y = s.kvGet p.toNat b.toNat →
    ((p, b.toNat) ∉ s.kv.promote → exec (.kvPromote p b) s = .next s) ∧
    ((p, b.toNat) ∈ s.kv.promote → s.khEn p.toNat = false ∨ y.state ≠ 3 ∨ s.dram.badIn y.frame (s.khF p.toNat) = true → exec (.kvPromote p b) s = .next u) ∧
    ((p, b.toNat) ∈ s.kv.promote → s.khEn p.toNat = true → s.kvBad p.toNat b.toNat = false → y.state = 3 → s.dram.badIn y.frame (s.khF p.toNat) = false →
      s.sysOk → (s.kvCnt p.toNat true = 0 → exec (.kvPromote p b) s = .next u) ∧
      ∀ n f, s.kvCnt p.toNat true = n + 1 → f = s.dramWord (s.kvPool p.toNat true + 8 * n) → s.kvFrameOk p.toNat true f = true →
        exec (.kvPromote p b) s = .next (((((u.kvSetCnt p.toNat true n).kvCopy p.toNat y.frame f.toNat).kvPut p.toNat b.toNat
          { y with frame := f.toNat, state := 2 }).kvRelease p y.frame false)))) ∧
  (∀ (s : State) i, (s.kv.release[i]? = none → exec (.kvFrameRelease i) s = .next s) ∧
    ∀ p f hbm, s.kv.release[i]? = some (p, f, hbm) → (s.kvFrameUsed f = true → exec (.kvFrameRelease i) s = .next s) ∧
      (s.kvFrameUsed f = false → s.sysOk → s.kvCnt p.toNat hbm < s.kvCap p.toNat hbm → ∃ t, exec (.kvFrameRelease i) s = .next t ∧
        t.kvCnt p.toNat hbm = s.kvCnt p.toNat hbm + 1 ∧ t.kv.release = s.kv.release.eraseIdx i ∧
        t.dram = (s.dramPutWord (s.kvPool p.toNat hbm + 8 * s.kvCnt p.toNat hbm) (ofU f)).dram ∧ t.launches = s.launches)))

/-! ### Hosts and other devices -/

/-- R384 to R386, R392, R422: a host access through a BAR that the access table does not allow is not performed: all-ones data for what it
reads, and one more refused access; one it allows is performed at its home once its memory is ready; one that meets an uncorrectable word is
answered with poisoned all-ones data and changes no memory. A read of BAR 0 answers the SYS bytes, a write is the register write. A notify
message is sent when the queue's entry and the function are enabled (log entry 66). -/
def Obligations.HostAccess : Prop :=
  (∀ (f : BitVec 5) off op (s : State) n d, n = hostBytes op → 1 ≤ n → hostAligned op off = true → d = s.sysF (apOff f) 36 12 * 2 ^ 36 + off →
    off + n ≤ 2 ^ 36 → s.sysOk →
    (dpaOk (d + n - 1) = false ∨ s.hostMay f d n (hostRight op) = false → ∃ t, exec (.hostApertureAccess f off op) s = .next t ∧
      hostAnswered s t f op (List.replicate n 0xFF#8) false ∧
      t.sysF (fqOff (hostOf f) + 32) 0 32 = min (s.sysF (fqOff (hostOf f) + 32) 0 32 + 1) (2 ^ 32 - 1) ∧ t.dram = s.dram ∧ t.launches = s.launches) ∧
    (dpaOk (d + n - 1) = true → s.hostMay f d n (hostRight op) = true →
      (s.dpaReady d = false → exec (.hostApertureAccess f off op) s = .next s) ∧
      (s.dpaReady d = true → s.dpaReady (d + n - 1) = true → s.host.writes = [] → s.firm.save = none →
        (s.dram.stops op d = true → ∃ t, exec (.hostApertureAccess f off op) s = .next t ∧ (s.fqRoom (hostOf f) = false → s.host.delayed = [] →
          hostAnswered s t f op (List.replicate n 0xFF#8) true ∧ t.dram = s.dram ∧ t.launches = s.launches)) ∧
        (s.dram.stops op d = false → ∃ t, exec (.hostApertureAccess f off op) s = .next t ∧ hostAnswered s t f op (s.dram.bytes d n) false ∧
          (match op with
            | .read _ => t.dram = s.dram
            | _ => t.dram = s.dram.put d (hostLeaves op (s.dram.bytes d n))) ∧
          t.sys = s.sys ∧ t.launches = s.launches ∧ t.cwnN = s.cwnN ∧ t.cwnS = s.cwnS)))) ∧
  (∀ (f : BitVec 5) off op (s : State) n b, n = hostBytes op → 1 ≤ n → hostAligned op off = true → b = f.toNat / 16 → off + n ≤ 0x200000 → s.sysOk →
    ((∃ i, i < n ∧ s.right 0x01241000 (b * 32 + (off + i) / 65536) f.toNat (hostRight op) = false) → ∃ t, exec (.hostWindowAccess f (.window off) op) s = .next t ∧
      hostAnswered s t f op (List.replicate n 0xFF#8) false ∧
      t.sysF (fqOff (hostOf f) + 32) 0 32 = min (s.sysF (fqOff (hostOf f) + 32) 0 32 + 1) (2 ^ 32 - 1) ∧ t.cwnN = s.cwnN ∧ t.cwnS = s.cwnS ∧ t.dram = s.dram) ∧
    ((∀ i, i < n → s.right 0x01241000 (b * 32 + (off + i) / 65536) f.toNat (hostRight op) = true) → (s.cwn b).stops op off = false →
      ∃ t, exec (.hostWindowAccess f (.window off) op) s = .next t ∧ hostAnswered s t f op ((s.cwn b).bytes off n) false ∧
        (match op with
          | .read _ => t.cwn b = s.cwn b
          | _ => t.cwn b = (s.cwn b).put off (hostLeaves op ((s.cwn b).bytes off n))) ∧
        t.cwn (1 - b) = s.cwn (1 - b) ∧ t.dram = s.dram ∧ t.sys = s.sys ∧ t.launches = s.launches)) ∧
  (∀ (f : BitVec 5) (off : Nat) (z : BitVec 2) (s : State) n, n = 2 ^ z.toNat → off % n = 0 → off + n ≤ 0x02000000 → s.sysOk →
    (s.sysRight f.toNat off .read = true → ∃ t, exec (.hostWindowAccess f (.sys off) (.read n)) s = .next t ∧
      hostAnswered s t f (.read n) (natLe n ((s.sysW off).toNat / 2 ^ (off % 8 * 8) % 2 ^ (8 * n))) false ∧ t.sys = s.sys ∧ t.dram = s.dram ∧ t.launches = s.launches) ∧
    (s.sysRight f.toNat off .read = false → ∃ t, exec (.hostWindowAccess f (.sys off) (.read n)) s = .next t ∧
      hostAnswered s t f (.read n) (List.replicate n 0xFF#8) false ∧
      t.sysF (fqOff (hostOf f) + 32) 0 32 = min (s.sysF (fqOff (hostOf f) + 32) 0 32 + 1) (2 ^ 32 - 1) ∧ t.dram = s.dram ∧ t.launches = s.launches) ∧
    ∀ bs : List Byte, bs.length = n → exec (.hostWindowAccess f (.sys off) (.write bs)) s =
      exec (.sysRegisterWrite (f.setWidth 7) (BitVec.ofNat 32 off) z (BitVec.ofNat 64 (leNat bs))) s) ∧
  (∀ (s : State), (s.host.notify = [] → exec .msixNotify s = .next s) ∧
    ∀ q rest, s.host.notify = q :: rest → ∃ t, exec .msixNotify s = .next t ∧ t.host.notify = rest ∧ t.dram = s.dram ∧ t.sys = s.sys ∧ t.launches = s.launches ∧
      t.host.msix = s.host.msix ++ (if s.sysF (ntOff q) 16 1 = 1 ∧ Config.functionEnabled s.cc (BitVec.ofNat 5 (s.sysF (ntOff q) 11 5)) = true ∧ (s.sysF (ntOff q) 11 5 % 16 = 0 ∨ s.sysF (ntOff q) 0 11 < 64) then
        [(BitVec.ofNat 5 (s.sysF (ntOff q) 11 5), BitVec.ofNat 11 (s.sysF (ntOff q) 0 11))] else []))

/-- R144, R159, R318, R320, R362, R388, R397 to R400: the home of a request from another node refuses it with status 0x05 without a node identifier, a
named master or its right, and else performs it and answers with its tag: the line read, the masked bytes written, the atomic done, the
packet put in the queue's slot, the arrival received. The sender is reachable and no channel is paused. -/
def Obligations.LinkRequests : Prop :=
  (∀ (s : State) (m : LinkMsg) i, i = .linkRead m ∨ i = .linkMaskedWrite m ∨ i = .linkEnqueue m ∨ i = .linkBarrierArrival m → s.answers m →
    (s.link.nodeSet = false ∨ (m.dst = s.node ∧ s.remoteMaster m = none) → ∃ t, exec i s = .next t ∧ linkAnswered s t m 10 0x05#8 [] ∧ t.dram = s.dram ∧
      t.launches = s.launches ∧ t.sys = s.sys) ∧
    (s.link.nodeSet = true → m.dst ≠ s.node → exec i s = .next s)) ∧
  (∀ (s : State) m mm d, (s.answers m ∧ s.link.nodeSet = true ∧ m.dst = s.node ∧ s.remoteMaster m = some mm ∧ d = m.addr.toNat % 2 ^ 48) →
    (dpaOk d = false ∨ d % 64 ≠ 0 ∨ s.dpaRight mm d .read = false → ∃ t, exec (.linkRead m) s = .next t ∧ linkAnswered s t m 10 0x05#8 [] ∧ t.dram = s.dram) ∧
    (dpaOk d = false ∨ d % 64 ≠ 0 ∨ s.dpaRight mm d .write = false → ∃ t, exec (.linkMaskedWrite m) s = .next t ∧ linkAnswered s t m 10 0x05#8 [] ∧
      t.dram = s.dram)) ∧
  (∀ s m mm d, s.LinkServes m mm d 64 .read → ∃ t, exec (.linkRead m) s = .next t ∧ t.dram = s.dram ∧ t.launches = s.launches ∧
    (if s.dram.badIn d 64 = true then linkAnswered s t m 1 0x10#8 [] else linkAnswered s t m 1 0#8 (s.dram.bytes d 64))) ∧
  (∀ s m mm d, s.LinkServes m mm d 64 .write → s.dram.wf = true → s.dram.bad = [] → ∃ t, exec (.linkMaskedWrite m) s = .next t ∧ linkAnswered s t m 3 0#8 [] ∧
    t.launches = s.launches ∧ t.sys = s.sys ∧ ∀ x, t.dram.get x =
      if d ≤ x ∧ x < d + 64 ∧ (leNat (m.payload.take 8)).testBit (x - d) = true then BitVec.ofNat 8 (leNat ((m.payload.drop 8).take 64) / 2 ^ (8 * (x - d)))
      else s.dram.get x) ∧
  (∀ s m mm d x n, amoOfPayload m.payload = some x → n = x.n → n = 4 ∨ n = 8 ∨ n = 16 → s.LinkServes m mm d n .atomic → d / 2 ^ 44 < 2 →
    (s.dram.badIn d n = true → ∃ t, exec (.linkAtomic m) s = .next t ∧ linkAnswered s t m 5 0x10#8 [] ∧ t.dram = s.dram) ∧
    (s.dram.badIn d n = false → ∃ t, exec (.linkAtomic m) s = .next t ∧ linkAnswered s t m 5 0#8 (natLe 16 (leNat (s.dram.bytes d n))) ∧
      t.dram = s.dram.put d (x.apply (s.dram.bytes d n)) ∧ t.launches = s.launches ∧ t.sys = s.sys)) ∧
  (∀ s m mm q a, s.answers m → s.link.nodeSet = true → m.dst = s.node → s.remoteMaster m = some mm → a = m.addr.toNat → a / 2 ^ 60 = 0 → a / 2 ^ 32 % 2 ^ 16 = 0 →
    a % 2 ^ 16 < 4096 → q = BitVec.ofNat 12 (a % 2 ^ 16) → s.sysOk →
    (s.right 0x01280000 q.toNat mm .enqueue = false → ∃ t, exec (.linkEnqueue m) s = .next t ∧ linkAnswered s t m 10 0x05#8 [] ∧ t.dram = s.dram) ∧
    (s.right 0x01280000 q.toNat mm .enqueue = true → s.dpaReady (s.slotAt q (s.qClaim q)) = true →
      (s.qState q = 0 ∨ s.qState q = 3 ∨ (s.qGen q).toNat ≠ a / 2 ^ 16 % 2 ^ 16 → ∃ t, exec (.linkEnqueue m) s = .next t ∧ linkAnswered s t m 7 0x0F#8 [] ∧
        t.dram = s.dram ∧ t.sys = s.sys) ∧
      (s.qState q = 1 ∨ s.qState q = 2 → (s.qGen q).toNat = a / 2 ^ 16 % 2 ^ 16 →
        (s.qClaim q ≠ s.qWrite q ∨ min (s.qRead q) (s.qCack q) + 2 ^ s.qLsize q ≤ s.qClaim q → ∃ t, exec (.linkEnqueue m) s = .next t ∧
          linkAnswered s t m 7 0x80#8 [] ∧ t.dram = s.dram ∧ t.sys = s.sys) ∧
        (s.qClaim q = s.qWrite q → s.qClaim q < min (s.qRead q) (s.qCack q) + 2 ^ s.qLsize q → s.qCack q ≤ s.qRead q → s.qClaim q + 1 < 2 ^ 64 →
          ∃ t, exec (.linkEnqueue m) s = .next t ∧ linkAnswered s t m 7 0#8 [] ∧ (s.qState q = 1 → t.dram = s.dram.put (s.slotAt q (s.qClaim q)) (m.payload.take 64)) ∧
            t.qClaim q = s.qClaim q + 1 ∧ t.qWrite q = s.qWrite q + 1 ∧ t.qState q = 1 ∧ t.launches = s.launches)))) ∧
  (∀ s m mm a, s.answers m → s.link.nodeSet = true → m.dst = s.node → s.remoteMaster m = some mm → a = BitVec.ofNat 64 (leNat (m.payload.take 8)) →
    (s.byIdent a = none → ∃ t, exec (.linkBarrierArrival m) s = .next t ∧ linkAnswered s t m 9 0x0F#8 [] ∧ t.launches = s.launches) ∧
    (∀ l, s.byIdent a = some l → s.right 0x01245000 l.part.toNat mm .enqueue = false → ∃ t, exec (.linkBarrierArrival m) s = .next t ∧
      linkAnswered s t m 10 0x05#8 [] ∧ t.launches = s.launches) ∧
    (∀ l, s.byIdent a = some l → s.right 0x01245000 l.part.toNat mm .enqueue = true → isRank l.packet.h l.packet.w (m.addr.toNat / 2 ^ 7 % 2 ^ 9) = true →
      ∃ t, exec (.linkBarrierArrival m) s = .next t ∧ linkAnswered s t m 9 0#8 [] ∧ exec (.outsideArrivalReceive a m.addr) s = .next { t with link := s.link }))

/-- R320, R362, R397 to R400: an answer ends the request that has its tag, and a core's load or commit point learns it; an answer that matches no request is
dropped; a request not answered within 1 ms ends as one refused at its home. A pause lasts 1 µs or until a resume; a port that is down is in
no mask until it trains; an unknown op is dropped and a flit error changes nothing. A message is the header beat of Table 11-5 and its payload, in flits of 64
bytes. -/
def Obligations.LinkAnswersAndPorts : Prop :=
  (∀ s (m : LinkMsg) i (o : BitVec 6), (i = .linkReadResponse m ∧ o = 0#6) ∨ (i = .linkWriteAcknowledgement m ∧ o = 2#6) ∨ (i = .linkAtomicResponse m ∧ o = 4#6) ∨
      (i = .linkEnqueueResponse m ∧ o = 6#6) ∨ (i = .linkArrivalAcknowledgement m ∧ o = 8#6) →
    (s.link.nodeSet = false ∨ m.dst ≠ s.node ∨ (∀ r ∈ s.link.reqs, ¬ (r.tag = m.tag ∧ r.node = m.src ∧ r.op = o)) → exec i s = .next s) ∧
    ∀ r, s.link.nodeSet = true → m.dst = s.node → s.link.reqs.find? (fun x => x.tag == m.tag && x.node == m.src && x.op == o) = some r →
      (o = 2#6 → m.stat = 0#8 → exec i s = .next { s with link := { s.link with reqs := s.link.reqs.filter fun x => x.tag != r.tag } }) ∧
      (o = 0#6 → ∀ k c, r.who = .core k → s.core? k = some c → ∃ t, exec i s = .next t ∧ t.link.reqs = s.link.reqs.filter (fun x => x.tag != r.tag) ∧
        t.core? k = some { c with remote := c.remote.map fun x => if x.tag == m.tag then { x with data := if m.stat = 0#8 then some m.payload else none, stat := m.stat } else x } ∧
        otherCores s t k ∧ t.dram = s.dram ∧ t.sys = s.sys) ∧
      (o ≠ 0#6 → o ≠ 2#6 → ∀ k c sig segs, r.who = .core k → s.core? k = some c → c.commit = .sent sig segs m.tag → ∃ t, exec i s = .next t ∧
        t.link.reqs = s.link.reqs.filter (fun x => x.tag != r.tag) ∧
        t.core? k = some { c with commit := .answered sig segs m.stat (BitVec.ofNat 64 (leNat (m.payload.take 8))) (BitVec.ofNat 64 (leNat ((m.payload.drop 8).take 8))) } ∧
        otherCores s t k ∧ t.dram = s.dram ∧ t.sys = s.sys)) ∧
  (∀ (s : State) (m : LinkMsg) r k c, s.link.nodeSet = true → m.dst = s.node → s.link.reqs.find? (fun x => x.tag == m.tag && x.node == m.src) = some r →
    r.who = .core k → s.core? k = some c → r.op = 0#6 → ∃ t, exec (.linkNack m) s = .next t ∧ t.link.reqs = s.link.reqs.filter (fun x => x.tag != r.tag) ∧
      (m.stat ≠ 0#8 → t.core? k = some { c with remote := c.remote.map fun x => if x.tag == m.tag then { x with data := none, stat := m.stat } else x })) ∧
  (∀ (s : State) (t : BitVec 12) r, s.link.reqs.find? (fun x => x.tag == t) = some r →
    (s.cc < r.since + Config.remoteCc → exec (.remoteResponseTimeout t) s = .next s) ∧
    (r.since + Config.remoteCc ≤ s.cc → ∀ k c, r.who = .core k → s.core? k = some c → r.op = 0#6 → ∃ u, exec (.remoteResponseTimeout t) s = .next u ∧
      u.link.reqs = s.link.reqs.filter (fun x => x.tag != t) ∧
      u.core? k = some { c with remote := c.remote.map fun x => if x.tag == t then { x with data := none, stat := 0x10#8 } else x })) ∧
  (∀ (s : State) (t : BitVec 12), (∀ r ∈ s.link.reqs, r.tag ≠ t) → exec (.remoteResponseTimeout t) s = .next s) ∧
  (∀ (s : State) port vc, port < 18 → ∃ t u, exec (.linkPause port vc) s = .next t ∧ (port, vc, s.cc + Config.pauseCc) ∈ t.link.pauses ∧
    exec (.linkResume port vc) t = .next u ∧ (∀ p ∈ u.link.pauses, p.1 = port → p.2.1 ≠ vc) ∧ u.dram = s.dram ∧ u.launches = s.launches ∧ u.sys = s.sys ∧
    exec (.linkPauseExpiry port vc) t = .next t ∧ exec (.linkPauseExpiry port vc) { t with cc := s.cc + Config.pauseCc } = .next { u with cc := s.cc + Config.pauseCc }) ∧
  (∀ (s : State) port, port < 18 → s.sysOk → ∃ t u, exec (.linkPortDown port) s = .next t ∧ (∀ n, (t.livePorts n).testBit port = false) ∧ t.dram = s.dram ∧
    t.launches = s.launches ∧ exec (.linkPortTrained port) s = .next u ∧ (∀ n, (u.livePorts n).testBit port = (s.sysF (rtOff n) (rtOff n % 8 * 8) 18).testBit port) ∧
    u.dram = s.dram ∧ u.launches = s.launches) ∧
  (∀ (s : State) m port vc, exec (.linkUnknownOp m) s = .next s ∧ exec (.linkFlitError port vc) s = .next s) ∧
  ∀ m : LinkMsg, (linkHeader m).extractLsb' 116 12 = m.dst ∧ (linkHeader m).extractLsb' 104 12 = m.src ∧ (linkHeader m).extractLsb' 100 4 = m.part ∧
    (linkHeader m).extractLsb' 98 2 = m.vc ∧ (linkHeader m).extractLsb' 92 6 = m.op ∧ (linkHeader m).extractLsb' 80 12 = m.tag ∧ (linkHeader m).extractLsb' 72 8 = m.stat ∧
    (linkHeader m).extractLsb' 64 8 = m.len ∧ (linkHeader m).extractLsb' 0 64 = m.addr ∧ (∀ f ∈ linkFlits m, f.length = 64) ∧
    ((linkFlits m).flatten.drop 16).take m.payload.length = m.payload ∧ (48 < m.payload.length → m.payload.length ≤ 112 → (linkFlits m).length = 2)

/-! ### The management controller -/

/-- R401, R402, R404, R418, R423, R424: FW.cmd 1 verifies a slot that neither runs nor is on trial and shows the result; 2 stops dispatch for the update to
a verified slot; the trial starts the image in it, which has to send a heartbeat in time, after checking the hand-over, and is rolled back
otherwise; 3 commits a trial that has, 4 abandons one. A command that does not fit the state answers FW.st 5, and while one is busy none is
performed. -/
def Obligations.FirmwareUpdate : Prop :=
  ∀ (s : State), s.sysOk →
    (∀ slot : BitVec 1,
      (s.fwSt = 1 → ∀ i, i = .fwVerify slot ∨ i = .fwUpdate slot → exec i s = .next (s.sysPut 0x1008 (ofU slot.toNat))) ∧
      (s.fwSt ≠ 1 → s.fwSst slot = 2 ∨ s.fwSst slot = 3 → ∃ t, exec (.fwVerify slot) s = .next t ∧ t.fwSt = 5 ∧ (∀ j, t.fwSst j = s.fwSst j) ∧ t.firm = s.firm) ∧
      (s.fwSt ≠ 1 → s.fwSst slot ≠ 2 → s.fwSst slot ≠ 3 → ∃ t, exec (.fwVerify slot) s = .next t ∧ t.fwSt = s.verifySlot slot ∧
        t.fwSst slot = (if s.verifySlot slot = 0 then 1 else 4) ∧ (∀ j, j ≠ slot → t.fwSst j = s.fwSst j) ∧ t.fwAct = s.fwAct ∧
        t.firm.flash = s.firm.flash ∧ t.firm.phase = s.firm.phase ∧ t.dram = s.dram ∧ t.launches = s.launches) ∧
      (s.fwSt ≠ 1 → s.fwSst slot ≠ 1 ∨ s.fwAct = slot.toNat ∨ s.firm.phase ≠ .idle → ∃ t, exec (.fwUpdate slot) s = .next t ∧ t.fwSt = 5 ∧
        (∀ j, t.fwSst j = s.fwSst j) ∧ t.firm = s.firm) ∧
      (s.fwSt ≠ 1 → s.fwSst slot = 1 → s.fwAct ≠ slot.toNat → s.firm.phase = .idle → ∃ t, exec (.fwUpdate slot) s = .next t ∧ t.dram = s.dram ∧
        t.launches = s.launches ∧ t.fwAct = s.fwAct ∧ (s.verifySlot slot ≠ 0 → t.fwSt = s.verifySlot slot ∧ t.fwSst slot = 4 ∧ t.firm.phase = .idle) ∧
        (s.verifySlot slot = 0 → t.fwSt = 1 ∧ t.firm.phase = .stopping slot ∧ t.fwServes = false)) ∧
      (s.firm.phase = .stopping slot → s.handoverReady = false → exec .fwTrialStart s = .next s) ∧
      (s.firm.phase = .stopping slot → s.handoverReady = true → ∃ t, exec .fwTrialStart s = .next t ∧ t.firm.phase = .trial slot s.cc (s.sysW 0x1028) false ∧
        t.firm.prev = BitVec.ofNat 1 s.fwAct ∧ t.fwAct = slot.toNat ∧ t.fwSst slot = 3 ∧ t.fwSt = 0 ∧ t.fwServes = false ∧ t.launches = s.launches ∧
        ∀ a : BitVec 4, t.anoles[a.toNat] = { Anole.zero with regs := Regs.zero.setPc (Config.anoleEntry (s.firm.flash.word (slotOff slot + 8)).toNat a.toNat) }) ∧
      (∀ at' hb beaten, s.firm.phase = .trial slot at' hb beaten →
        (beaten = false → s.cc < at' + Config.heartbeatCc → exec .fwHeartbeatTimeout s = .next s) ∧
        (beaten = true → exec .fwHeartbeatTimeout s = .next s) ∧
        (beaten = false → s.handoverOk = false → exec .fwHeartbeat s = .next s) ∧
        (beaten = false → s.handoverOk = true → s.cc ≤ at' + Config.heartbeatCc → (∀ l ∈ s.launches, l.deferred = []) → ∃ t, exec .fwHeartbeat s = .next t ∧
          t.firm.phase = .trial slot at' hb true ∧ t.fwServes = true ∧ t.sysW 0x1028 = s.sysW 0x1028 + 1#64 ∧ t.launches = s.launches ∧ t.dram = s.dram) ∧
        (s.firm.prev ≠ slot →
          (beaten = false → at' + Config.heartbeatCc ≤ s.cc → ∃ t, exec .fwHeartbeatTimeout s = .next t ∧ t.fwSst slot = 4 ∧ t.fwSst s.firm.prev = 2 ∧
            t.fwAct = s.firm.prev.toNat ∧ t.firm.phase = .restarting ∧ t.fwServes = false ∧ t.launches = s.launches ∧ t.dram = s.dram) ∧
          (s.fwSt ≠ 1 → beaten = true → s.handoverReady = false → ∃ t, exec .fwAbandon s = .next t ∧ t.fwSt = 1 ∧ t.firm = s.firm) ∧
          (s.fwSt ≠ 1 → (beaten = true → s.handoverReady = true) → ∃ t, exec .fwAbandon s = .next t ∧ t.fwSst slot = 4 ∧ t.fwSst s.firm.prev = 2 ∧ t.fwAct = s.firm.prev.toNat ∧ t.fwSt = 0 ∧
            t.firm.phase = .restarting ∧ t.fwServes = false ∧ t.launches = s.launches) ∧
          (s.fwSt ≠ 1 → beaten = true → ∃ t, exec .fwCommit s = .next t ∧ t.fwSst slot = 2 ∧ t.fwSst s.firm.prev = 1 ∧ t.fwAct = s.fwAct ∧ t.fwSt = 0 ∧
            t.firm.phase = .idle ∧ t.fwServes = true ∧ t.launches = s.launches ∧ t.dram = s.dram)) ∧
        (s.fwSt ≠ 1 → beaten = false → ∃ t, exec .fwCommit s = .next t ∧ t.fwSt = 5 ∧ t.firm = s.firm))) ∧
    ((∀ slot, s.firm.phase ≠ .stopping slot) → exec .fwTrialStart s = .next s) ∧
    (s.firm.phase = .idle → exec .fwHeartbeat s = .next (s.sysPut 0x1028 (s.sysW 0x1028 + 1#64)) ∧ exec .fwHeartbeatTimeout s = .next s ∧
      (s.fwSt ≠ 1 → ∀ i, i = .fwCommit ∨ i = .fwAbandon → ∃ t, exec i s = .next t ∧ t.fwSt = 5 ∧ t.firm = s.firm)) ∧
    (s.firm.phase = .restarting → s.handoverOk = true → (∀ l ∈ s.launches, l.deferred = []) → ∃ t, exec .fwHeartbeat s = .next t ∧ t.firm.phase = .idle ∧
      t.fwServes = true ∧ t.launches = s.launches)

/-- R386, R407, R408: a mailbox command of a host without the right is a refused access, and one beside a command that runs is not performed; else it
writes its arguments and ends with its status: a score read, a fence cleared, a flash record copied, a firmware slot written, the lowest
version raised, HBM saved to the capacity tier or restored from it, the device reset, and status 5 for what is no legal command. -/
def Obligations.MailboxCommands : Prop :=
  (∀ i h cmd a0 a1 a2 s, mbOf i = some (h, cmd, a0, a1, a2) → s.sysOk →
    (¬ s.mbMay h → exec i s = .next (s.refuse h)) ∧
    (s.mbMay h → s.mbSt h = 1 → ∃ t, exec i s = .next t ∧ mbEnds s t h 1 ∧ t.rel = s.rel ∧ t.firm = s.firm ∧ t.sysW (mbOff h) = s.sysW (mbOff h) ∧
      t.sysW (mbOff h + 8) = a0 ∧ t.sysW (mbOff h + 16) = a1 ∧ t.sysW (mbOff h + 24) = a2)) ∧
  ∀ (s : State) (h : BitVec 1), s.mbFree h →
    (∀ u : BitVec 16, (unitOk u = false → ∀ i, i = .mbReadScore h u ∨ i = .mbClearFence h u → ∃ t, exec i s = .next t ∧ mbEnds s t h 5 ∧ t.rel = s.rel) ∧
      (unitOk u = true → (s.rel.unit u).score < 2 ^ 16 → ∃ t, exec (.mbReadScore h u) s = .next t ∧ mbEnds s t h 0 ∧ t.rel = s.rel ∧ t.mbRes h =
        (s.rel.unit u).score + 2 ^ 16 * (s.rel.unit u).fenced.toNat + 2 ^ 17 * (s.rel.unit u).held.toNat + 2 ^ 18 * (s.rel.unit u).retired.toNat +
          2 ^ 19 * (s.rel.unit u).replaced.toNat) ∧
      (unitOk u = true → (s.rel.unit u).retired = true → ∃ t, exec (.mbClearFence h u) s = .next t ∧ mbEnds s t h 5 ∧ t.rel = s.rel) ∧
      (unitOk u = true → (s.rel.unit u).retired = false → (s.rel.unit u).id = u → ∃ t, exec (.mbClearFence h u) s = .next t ∧ mbEnds s t h 0 ∧
        t.rel.unit u = { s.rel.unit u with score := 0, fenced := false, held := false } ∧ ∀ v, v ≠ u → t.rel.unit v = s.rel.unit v)) ∧
    (∀ n (d : BitVec 64), n < 2 ^ 64 →
      (64 ≤ n ∨ rangeOk d.toNat 0x20000 = false → ∃ t, exec (.mbCopyFlashRecord h n d) s = .next t ∧ mbEnds s t h 5) ∧
      (n < 64 → rangeOk d.toNat 0x20000 = true → (s.dpaReady d.toNat = false ∨ s.dpaReady (d.toNat + 0x1FFFF) = false) →
        ∃ t, exec (.mbCopyFlashRecord h n d) s = .next t ∧ mbEnds s t h 1) ∧
      (n < 64 → rangeOk d.toNat 0x20000 = true → s.dpaReady d.toNat = true → s.dpaReady (d.toNat + 0x1FFFF) = true → s.firm.save = none →
        (s.firm.flash.badIn (0x0D000000 + 0x20000 * n) 0x20000 = true → ∃ t, exec (.mbCopyFlashRecord h n d) s = .next t ∧ mbEnds s t h 6) ∧
        (s.firm.flash.badIn (0x0D000000 + 0x20000 * n) 0x20000 = false → ∃ t, exec (.mbCopyFlashRecord h n d) s = .next t ∧ t.mbSt h = 0 ∧
          t.dram = s.dram.put d.toNat (s.recordBytes n) ∧ t.launches = s.launches ∧ t.firm = s.firm))) ∧
    (∀ (a d n : BitVec 64) (slot : BitVec 1), slot = a.extractLsb' 32 1 → (rangeOk d.toNat n.toNat = true → n.toNat ≠ 0 → s.dpaReady d.toNat = true ∧ s.dpaReady (d.toNat + n.toNat - 1) = true) →
      ((s.fwAct = slot.toNat ∧ s.imageRuns = true) ∨ s.fwSst slot = 3 ∨ 0x06000000 < a.toNat % 2 ^ 32 + n.toNat ∨ rangeOk d.toNat n.toNat = false ∨
        s.dram.badIn d.toNat n.toNat = true → ∃ t, exec (.mbWriteFirmwareSlot h a d n) s = .next t ∧ mbEnds s t h 5) ∧
      ((s.fwAct = slot.toNat → s.imageRuns = false) → s.fwSst slot ≠ 3 → a.toNat % 2 ^ 32 + n.toNat ≤ 0x06000000 → rangeOk d.toNat n.toNat = true →
        s.dram.badIn d.toNat n.toNat = false → s.host.writes = [] → ∃ t, exec (.mbWriteFirmwareSlot h a d n) s = .next t ∧ t.mbSt h = 0 ∧
          t.firm.flash = s.firm.flash.put (0x01000000 + 0x06000000 * slot.toNat + a.toNat % 2 ^ 32) (s.dram.bytes d.toNat n.toNat) ∧
          t.fwSst slot = (if t.slotEmpty slot = true then 0 else if t.verifySlot slot = 0 then 1 else 4) ∧ (∀ j, j ≠ slot → t.fwSst j = s.fwSst j) ∧
          t.dram = s.dram ∧ t.launches = s.launches)) ∧
    (∀ v : BitVec 64, (v.toNat < s.firm.minVer → ∃ t, exec (.mbRaiseAntirollback h v) s = .next t ∧ mbEnds s t h 5 ∧ t.firm = s.firm) ∧
      (s.firm.minVer ≤ v.toNat → ∃ t, exec (.mbRaiseAntirollback h v) s = .next t ∧ mbEnds s t h 0 ∧ t.firm = { s.firm with minVer := v.toNat })) ∧
    (∀ b : BitVec 64, (s.baseOk b.toNat = false ∨ s.firm.save.isSome = true → ∀ i, i = .mbCapacitySave h b ∨ (i = .mbCapacityRestore h b ∧ (s.baseOk b.toNat = true → s.areaReady b.toNat = true ∧ s.readyStacks = List.range 12)) →
        ∃ t, exec i s = .next t ∧ mbEnds s t h 5 ∧ t.firm = s.firm) ∧
      (s.baseOk b.toNat = true → s.areaReady b.toNat = true → s.firm.save = none → s.launches = [] → ∃ t, exec (.mbCapacitySave h b) s = .next t ∧ t.mbSt h = 1 ∧
        t.firm.save = some (b.toNat, h) ∧ t.firm.saveCopied = true ∧ t.sysF 0 1 1 = 0 ∧
        t.dram = s.readyStacks.foldl (fun m j => m.copyRange (2 ^ 36 * j) (imageAt b.toNat j) Config.stackBytes) s.dram) ∧
      (s.baseOk b.toNat = true → s.areaReady b.toNat = false → ∃ t, exec (.mbCapacityRestore h b) s = .next t ∧ mbEnds s t h 1 ∧ t.firm = s.firm) ∧
      (∀ mask, s.baseOk b.toNat = true → s.areaReady b.toNat = true → (∀ j, j < 12 → mask.testBit j = true → s.hbmReady j = true) → s.firm.save = none → s.anyRunning = false → s.imageOk b.toNat = some mask → ∃ t,
        exec (.mbCapacityRestore h b) s = .next t ∧ t.mbSt h = 0 ∧ t.launches = s.launches ∧
        t.dram = ((List.range 12).filter fun j => mask.testBit j).foldl (fun m j => m.copyRange (imageAt b.toNat j) (2 ^ 36 * j) Config.stackBytes) s.dram) ∧
      (s.baseOk b.toNat = true → s.areaReady b.toNat = true → s.firm.save = none → s.anyRunning = false → s.imageOk b.toNat = none → ∃ t n, exec (.mbCapacityRestore h b) s = .next t ∧
        mbEnds s t h n ∧ 2 ≤ n ∧ n ≤ 5)) ∧
    (∀ c : BitVec 64, c.toNat = 0 ∨ c.toNat = 7 ∨ 10 ≤ c.toNat → ∃ t, exec (.mbUnknownCommand h c) s = .next t ∧ mbEnds s t h 5 ∧ t.firm = s.firm ∧ t.rel = s.rel) ∧
    (s.dram.wf = true → s.dram.dflt = 0#8 → s.fwAct < 2 → ∃ t, exec (.mbDeviceReset h) s = .next t ∧ WasReset s t) ∧
    (∀ b g, s.firm.save = some (b, g) → (s.anyRunning = true ∨ s.areaReady b = false → exec .capacitySaveComplete s = .next s) ∧
      (s.anyRunning = false → s.areaReady b = true → s.firm.saveCopied = true → ∃ t, exec .capacitySaveComplete s = .next t ∧ t.mbSt g = 0 ∧ t.firm.save = none ∧
        t.firm.saveSeq = s.firm.saveSeq + 1 ∧ t.sysF 0 1 1 = 1 ∧ t.dram = s.dram.put (imageAt b 12) (s.saveHeader b) ∧ t.launches = s.launches)) ∧
    (s.firm.save = none → exec .capacitySaveComplete s = .next s)

/-- R380, R382, R401, R402, R405, R406: a device reset and a power loss end all work and keep what they keep; bring-up restores the flash record and starts the
active slot's image if it verifies, else the other's; a function becomes ready, or has failed its self-test; a host port trains; every day scores halve, every ten minutes
the record is written; a fenced or held bank without a grant gives way to a spare; a scalar
result that comes out wrong is found in class S where the residue check sees it. -/
def Obligations.ResetAndReliability : Prop :=
  (∀ (s : State) h, s.dram.wf = true → s.dram.dflt = 0#8 → s.fwAct < 2 → ∃ t, exec (.pcieConventionalReset h) s = .next t ∧ WasReset s t) ∧
  (∀ (s : State), s.dram.wf = true → s.dram.dflt = 0#8 → s.fwAct < 2 → ∃ t, exec .powerLoss s = .next t ∧ t.launches = [] ∧ t.placing = [] ∧
    (∀ q, t.qState q = 0) ∧ (∀ c, t.cxState c = 0) ∧ t.firm.flash = s.firm.flash ∧ t.rel.ring = s.rel.ring ∧ t.fwAct = s.activeSlot ∧ t.firm.boot = false ∧
    ∀ x, t.dram.get x = if x < 2 ^ 44 then 0#8 else s.dram.get x) ∧
  (∀ (s : State), (s.firm.boot = true → exec .bringUp s = .next s) ∧
    ∀ a b : BitVec 1, s.firm.boot = false → s.sysOk → s.fwAct = a.toNat → b ≠ a → ∃ t, exec .bringUp s = .next t ∧ t.firm.boot = true ∧ t.launches = s.launches ∧
      (s.verifySlot a = 0 → t.fwAct = a.toNat ∧ t.fwSst a = 2 ∧ t.fwSst b = if s.verifySlot b = 0 then 1 else if s.slotEmpty b = true then 0 else 4) ∧
      (s.verifySlot a ≠ 0 → s.verifySlot b = 0 → t.fwAct = b.toNat ∧ t.fwSst b = 2) ∧
      (s.verifySlot a ≠ 0 → s.verifySlot b ≠ 0 → t.fwAct = a.toNat ∧ t.imageRuns = false) ∧
      (∀ r, s.bestRecord = some r → t.rel.seq = r.seq ∧ t.sysF 0 0 1 = 1 ∧ t.dram = s.dram ∧
        ((∀ x ∈ s.rel.units, x.retired = false ∧ x.replaced = false) → t.rel.units = r.units) ∧
        ∀ u, (t.rel.unit u).retired = true ↔ (Reliab.unit { s.rel with units := r.units } u).retired = true ∨ ∃ x ∈ s.rel.units, x.id = u ∧ x.retired = true) ∧
      (s.bestRecord = none → t.sysF 0 0 1 = 0 ∧ ∀ x ∈ t.rel.units, x.score = 0 ∧ x.fenced = false)) ∧
  (∀ (s : State) i, s.sysOk →
    (s.firm.boot = true → i < 56 → (s.sysW 24).getLsbD i = false → (s.sysW 8).getLsbD i = false → (i < 12 → s.rel.dieRetired i = false) →
      (40 ≤ i → s.imageRuns = true ∧ (s.anoles.toList.getD (i - 40) Anole.zero).halted = false) → (∀ h, s.mbSt h ≠ 1) → s.fwSt ≠ 1 → s.host.delayed = [] →
      ∃ t, exec (.functionReady i) s = .next t ∧ (∀ j, j < 64 → (t.sysW 8).getLsbD j ≠ (t.sysW 24).getLsbD j ∨ j ≠ i) ∧
        (∀ o, o = 8 ∨ o = 24 → ∀ j, j < 64 → j ≠ i → (t.sysW o).getLsbD j = (s.sysW o).getLsbD j) ∧ t.dram = s.dram ∧ t.launches = s.launches) ∧
    (s.firm.boot = false ∨ 56 ≤ i ∨ (s.sysW 8).getLsbD i = true ∨ (s.sysW 24).getLsbD i = true ∨ (i < 12 ∧ s.rel.dieRetired i = true) → exec (.functionReady i) s = .next s) ∧
    ∀ h up, ∃ t, exec (.hostPortTrained h up) s = .next t ∧ (∀ j, j < 64 → (t.sysW 16).getLsbD j = if j = 12 + h.toNat then up else (s.sysW 16).getLsbD j) ∧
      t.dram = s.dram ∧ t.launches = s.launches) ∧
  (∀ (s : State), (s.rel.powered < Config.halvingCc → exec .scoreHalving s = .next s) ∧ (s.rel.sinceRec < Config.flashCc → exec .flashRecordWrite s = .next s) ∧
    (Config.halvingCc ≤ s.rel.powered → ∃ t, exec .scoreHalving s = .next t ∧ t.rel.powered = s.rel.powered - Config.halvingCc ∧ t.launches = s.launches ∧
      t.rel.units = s.rel.units.map fun x => { x with score := x.score / 2, held := x.held && decide (threshold (unitKind x.id) ≤ x.score / 2) }) ∧
    (Config.flashCc ≤ s.rel.sinceRec → ∃ t, exec .flashRecordWrite s = .next t ∧ t.rel.ring = s.rel.ring.set ((s.rel.seq + 1) % 64) (some s.rel.record) ∧
      t.rel.seq = s.rel.seq + 1 ∧ t.rel.sinceRec = 0 ∧ t.rel.units = s.rel.units)) ∧
  (∀ (s : State) u, (((s.rel.unit u).fenced = false ∧ (s.rel.unit u).held = false) ∨ unitOk u = false ∨ unitKind u < 7 ∨ unitKind u = 10 → exec (.bankSpareReplace u) s = .next s) ∧
    (unitOk u = true → 7 ≤ unitKind u → unitKind u ≤ 9 → (s.rel.unit u).fenced = true ∨ (s.rel.unit u).held = true → s.rel.sparesUsed u < spareCount u →
      (s.padGranted u = true → exec (.bankSpareReplace u) s = .next s) ∧
      (s.padGranted u = false → (s.rel.unit u).id = u → ∃ t, exec (.bankSpareReplace u) s = .next t ∧
        t.rel.unit u = { s.rel.unit u with score := 0, fenced := false, held := false, replaced := true } ∧ t.rel.spares = s.rel.spares ++ [u] ∧
        t.launches = s.launches ∧ t.dram = s.dram))) ∧
  (∀ (s : State) w, ∃ t, exec (.softError (.dram w)) s = .next t ∧ t.dram.badIn (8 * w) 8 = true ∧ (∀ x, t.dram.get x = s.dram.get x) ∧ t.launches = s.launches) ∧
  (∀ (s : State) k c f e, s.core? k = some c → ∃ t, exec (.softError (.result k f e)) s = .next t ∧ onlyCore s t k { c with wrong := some (f, e) }) ∧
  (∀ (s u : State) i k l c x g d f e, s.cur = .core k → s.launch? k.lid = some l → s.core? k = some c → u.core? k = some x → arithDest i = some (g, d) →
    (c.wrong = none ∨ c.regs.guard g = false → s.struck i u = u) ∧
    (c.wrong = some (f, e) → c.regs.guard g = true →
      (l.packet.prot = 1 → e % 3 ≠ 0 → ∃ t, onlyCore s t k { c with wrong := none } ∧
        s.struck i u = t.takeFault (.core k) { Trap.mk' 0x11 with units := [unitId 1 c.phys] }) ∧
      (l.packet.prot ≠ 1 ∨ e % 3 = 0 → onlyCore u (s.struck i u) k { x with wrong := none, regs := x.regs.set d (x.regs.get d ^^^ f) })))

/-- R403, R419: each SPDM request has one response: version 1.3, the algorithms, the digest and the bytes of the certificate chain, a challenge's digest, the
measurement blocks with the running image's digest, and an error for what is not served. Codes and framing are the SPDM standard's (log
entry 6). -/
def Obligations.Attestation : Prop :=
  ∀ (s : State) (h : BitVec 1), ∃ v, (∃ t, exec (.spdmGetVersion h) s = .next t ∧ doeAnswered s t h 0x04#8 [0#8, 1#8, 0#8, 0x13#8]) ∧
    (∃ t b, exec (.spdmGetCapabilities h) s = .next t ∧ doeAnswered s t h 0x61#8 b) ∧
    (∃ t b, exec (.spdmNegotiateAlgorithms h) s = .next t ∧ doeAnswered s t h 0x63#8 b ∧ b.take 8 = natLe 4 0x80 ++ natLe 4 2) ∧
    (∃ t, exec (.spdmGetDigests h) s = .next t ∧ doeAnswered s t h 0x01#8 v) ∧ v = (natLe 48 (Config.sha384 s.firm.certs).toNat).reverse ∧
    (∃ t, exec (.spdmGetCertificate h) s = .next t ∧ doeAnswered s t h 0x02#8 (natLe 4 s.firm.certs.length ++ s.firm.certs)) ∧
    (∀ nonce, ∃ t b, exec (.spdmChallenge h nonce) s = .next t ∧ doeAnswered s t h 0x03#8 b ∧ b.take 48 = v ∧ b.length = 176) ∧
    (∀ a : BitVec 1, s.fwAct = a.toNat → s.imageRuns = true → ∃ t b, exec (.spdmGetMeasurements h 2) s = .next t ∧ doeAnswered s t h 0x60#8 b ∧
      b.take 51 = [2#8, 48#8, 0#8] ++ (natLe 48 (s.imageDigest a).toNat).reverse) ∧
    (∀ n, 4 < n → n ≠ 0xFF → ∃ t, exec (.spdmGetMeasurements h n) s = .next t ∧ doeAnswered s t h 0x7F#8 []) ∧
    (∀ c, ∃ t, exec (.spdmUnsupportedRequest h c) s = .next t ∧ doeAnswered s t h 0x7F#8 [])
end

