-- ==== Sys2Proof/Laws/Alu.lean ====
section
/-! SUPPORT. What the results of the register instructions are as numbers: one equation per result, from the machine's own words to
the numbers of Tables 04-1 and 04-2. -/

namespace Sys2Proof.Laws

open Sys2Proof.Machine

theorem add_value (x y : Word) : x + y = ofU (x.toNat + y.toNat) := by
  apply BitVec.eq_of_toNat_eq; simp [ofU, BitVec.toNat_add]

theorem sub_value (x y : Word) : x - y = ofS (x.toInt - y.toInt) := by
  apply BitVec.eq_of_toInt_eq; simp [ofS, BitVec.toInt_sub]

theorem mul_value (x y : Word) : x * y = ofU (x.toNat * y.toNat) := by
  apply BitVec.eq_of_toNat_eq; simp [ofU, BitVec.toNat_mul]

theorem divS_value (x y : Word) : divS x y = if y = 0#64 then ofS (-1) else ofS (x.toInt.tdiv y.toInt) := by
  unfold divS; split <;> rfl

theorem divU_value (x y : Word) : divU x y = if y = 0#64 then ofU (2 ^ 64 - 1) else ofU (x.toNat / y.toNat) := by
  unfold divU; split <;> rfl

theorem remS_value (x y : Word) : remS x y = if y = 0#64 then x else ofS (x.toInt - y.toInt * x.toInt.tdiv y.toInt) := by
  unfold remS; split
  · rfl
  · rw [ofS, ← Int.tmod_def]

theorem minS_value (x y : Word) : minS x y = lesser x y := by
  unfold minS lesser; split <;> split <;> first | rfl | (apply BitVec.eq_of_toInt_eq; omega)

theorem maxS_value (x y : Word) : maxS x y = larger x y := by
  unfold maxS larger; split <;> split <;> first | rfl | (apply BitVec.eq_of_toInt_eq; omega)

theorem minU_value (x y : Word) : minU x y = lesserN x y := by
  unfold minU lesserN; split <;> split <;> first | rfl | (apply BitVec.eq_of_toNat_eq; omega)

theorem maxU_value (x y : Word) : maxU x y = largerN x y := by
  unfold maxU largerN; split <;> split <;> first | rfl | (apply BitVec.eq_of_toNat_eq; omega)

theorem and_value (x y : Word) : x &&& y = ofU (x.toNat &&& y.toNat) := by
  apply BitVec.eq_of_toNat_eq; rw [ofU, BitVec.toNat_ofNat, BitVec.toNat_and, Nat.mod_eq_of_lt]; exact Nat.lt_of_le_of_lt Nat.and_le_left x.isLt

theorem or_value (x y : Word) : x ||| y = ofU (x.toNat ||| y.toNat) := by
  apply BitVec.eq_of_toNat_eq; rw [ofU, BitVec.toNat_ofNat, BitVec.toNat_or, Nat.mod_eq_of_lt]; exact Nat.or_lt_two_pow x.isLt y.isLt

theorem xor_value (x y : Word) : x ^^^ y = ofU (x.toNat ^^^ y.toNat) := by
  apply BitVec.eq_of_toNat_eq; rw [ofU, BitVec.toNat_ofNat, BitVec.toNat_xor, Nat.mod_eq_of_lt]; exact Nat.xor_lt_two_pow x.isLt y.isLt

theorem andn_value (x y : Word) : x &&& ~~~y = ofU (x.toNat &&& (2 ^ 64 - 1 - y.toNat)) := by
  rw [and_value, BitVec.toNat_not]

theorem shl_value (x y : Word) : x <<< shCount y = shiftL x y := by
  apply BitVec.eq_of_toNat_eq; simp [shiftL, ofU, shCount, shiftBy, Nat.shiftLeft_eq]

theorem shr_value (x y : Word) : x >>> shCount y = shiftR x y := by
  apply BitVec.eq_of_toNat_eq
  rw [shiftR, ofU, BitVec.toNat_ofNat, BitVec.toNat_ushiftRight, Nat.shiftRight_eq_div_pow, Nat.mod_eq_of_lt (Nat.lt_of_le_of_lt (Nat.div_le_self _ _) x.isLt)]
  rfl

theorem sra_value (x y : Word) : x.sshiftRight (shCount y) = shiftA x y := by
  simp [shiftA, ofS, shCount, shiftBy, BitVec.sshiftRight, Int.shiftRight_eq_div_pow]

theorem rotated_or_add (n x k : Nat) (hk : k ≤ n) (hx : x < 2 ^ n) :
    x * 2 ^ k % 2 ^ n ||| x / 2 ^ (n - k) = x * 2 ^ k % 2 ^ n + x / 2 ^ (n - k) := by
  have h1 : x * 2 ^ k % 2 ^ n = (x % 2 ^ (n - k)) <<< k := by
    rw [Nat.shiftLeft_eq, ← Nat.mul_mod_mul_right, ← Nat.pow_add, Nat.sub_add_cancel hk]
  have h2 : x / 2 ^ (n - k) < 2 ^ k := by
    rw [Nat.div_lt_iff_lt_mul (Nat.two_pow_pos _), ← Nat.pow_add, Nat.add_sub_cancel' hk]; exact hx
  rw [h1, Nat.shiftLeft_add_eq_or_of_lt h2]

theorem rotl_value (x y : Word) : x.rotateLeft (shCount y) = rotL x y := by
  apply BitVec.eq_of_toNat_eq
  have hk : shCount y < 64 := Nat.mod_lt _ (by decide)
  have hx := x.isLt
  have h := rotated_or_add 64 x.toNat (shCount y) (Nat.le_of_lt hk) hx
  have hlt : x.toNat * 2 ^ shCount y % 2 ^ 64 ||| x.toNat / 2 ^ (64 - shCount y) < 2 ^ 64 :=
    Nat.or_lt_two_pow (Nat.mod_lt _ (by decide)) (Nat.lt_of_le_of_lt (Nat.div_le_self _ _) hx)
  rw [BitVec.toNat_rotateLeft, Nat.mod_eq_of_lt hk, Nat.shiftLeft_eq, Nat.shiftRight_eq_div_pow, rotL, ofU, BitVec.toNat_ofNat]
  show (_ : Nat) = (x.toNat * 2 ^ shCount y % 2 ^ 64 + x.toNat / 2 ^ (64 - shCount y)) % 2 ^ 64
  rw [← h, Nat.mod_eq_of_lt hlt]

theorem tptr_value (x y : Word) : tagPtr x y = ofU (x.toNat % 2 ^ 16 * 2 ^ 48 + y.toNat % 2 ^ 48) := rfl

theorem tag_mask_bits : ∀ i : Fin 64, (0xFFFF000000000000#64).getLsbD i.val = decide (48 ≤ i.val) := by decide

theorem offset_mask_bits : ∀ i : Fin 64, (0x0000FFFFFFFFFFFF#64).getLsbD i.val = decide (i.val < 48) := by decide

theorem tadd_value (x y : Word) : tagAdd x y = tagSum x y := by
  have h : tagAdd x y = (x.extractLsb' 48 16) ++ ((x + y).extractLsb' 0 48) := by
    apply BitVec.eq_of_getLsbD_eq
    intro i hi
    unfold tagAdd
    rw [BitVec.getLsbD_or, BitVec.getLsbD_and, BitVec.getLsbD_and, tag_mask_bits ⟨i, hi⟩, offset_mask_bits ⟨i, hi⟩, BitVec.getLsbD_append, BitVec.getLsbD_extractLsb', BitVec.getLsbD_extractLsb']
    by_cases hk : i < 48
    · have : ¬ 48 ≤ i := by omega
      simp [hk, this]
    · have h1 : 48 ≤ i := by omega
      have h2 : i - 48 < 16 := by omega
      simp [hk, h1, h2]
  apply BitVec.eq_of_toNat_eq
  rw [h, BitVec.toNat_append, ← Nat.shiftLeft_add_eq_or_of_lt (BitVec.isLt _), tagSum, ofU, BitVec.toNat_ofNat]
  simp only [BitVec.extractLsb'_toNat, Nat.shiftLeft_eq, Nat.shiftRight_eq_div_pow, BitVec.toNat_add, Nat.pow_zero, Nat.div_one]
  have hx := x.isLt
  omega

theorem onesIn_eq_zero (x : Word) (lo hi : Nat) : (onesIn x lo hi == 0) = decide (∀ j, lo ≤ j → j < hi → x.getLsbD j = false) := by
  rw [Bool.eq_iff_iff]
  simp only [onesIn, beq_iff_eq, List.length_eq_zero_iff, List.filter_eq_nil_iff, List.mem_range, decide_eq_true_eq, Bool.and_eq_true, not_and, Bool.not_eq_true]
  exact ⟨fun h j a b => h j b a, fun h j a b => h j b a⟩

theorem length_filter_ge (k : Nat) : ∀ n, k ≤ n → ((List.range n).filter fun i => decide (k ≤ i)).length = n - k := by
  intro n
  induction n with
  | zero => intro _; simp
  | succ n ih =>
      intro h
      rw [List.range_succ, List.filter_append, List.length_append]
      by_cases hk : k ≤ n
      · rw [ih hk]; simp [hk]; omega
      · have : k = n + 1 := by omega
        subst this
        have : ((List.range n).filter fun i => decide (n + 1 ≤ i)) = [] := by
          simp [List.filter_eq_nil_iff]; omega
        rw [this]; simp

theorem length_filter_lt (k n : Nat) (h : k ≤ n) : ((List.range n).filter fun i => decide (i < k)).length = k := by
  induction n with
  | zero => have : k = 0 := by omega
            subst this; simp
  | succ n ih =>
      rw [List.range_succ, List.filter_append, List.length_append]
      by_cases hk : k ≤ n
      · rw [ih hk]; simp; omega
      · have : k = n + 1 := by omega
        subst this
        have : ((List.range n).filter fun i => decide (i < n + 1)) = List.range n := by
          rw [List.filter_eq_self]; simp; omega
        rw [this]; simp

theorem leadingZeros_spec (v : Nat) : ∀ n, leadingZeros n v ≤ n ∧ (∀ j, n - leadingZeros n v ≤ j → j < n → v.testBit j = false) ∧
    (leadingZeros n v < n → v.testBit (n - leadingZeros n v - 1) = true) := by
  intro n
  induction n with
  | zero => simp [leadingZeros]
  | succ n ih =>
      unfold leadingZeros
      split
      · rename_i h
        refine ⟨by omega, fun j a b => by omega, fun _ => by simpa using h⟩
      · rename_i h
        obtain ⟨a, b, c⟩ := ih
        refine ⟨by omega, fun j h1 h2 => ?_, fun h1 => ?_⟩
        · by_cases hj : j = n
          · subst hj; simpa using h
          · exact b j (by omega) (by omega)
        · have := c (by omega)
          have e : n + 1 - (leadingZeros n v + 1) - 1 = n - leadingZeros n v - 1 := by omega
          rw [e]; exact this

theorem clz_value (x : Word) : leadingZeros 64 x.toNat = ((List.range 64).filter fun i => onesIn x i 64 == 0).length := by
  obtain ⟨a, b, c⟩ := leadingZeros_spec x.toNat 64
  have e : ((List.range 64).filter fun i => onesIn x i 64 == 0) = (List.range 64).filter fun i => decide (64 - leadingZeros 64 x.toNat ≤ i) := by
    apply List.filter_congr
    intro i hi
    rw [onesIn_eq_zero]
    simp only [decide_eq_decide]
    constructor
    · intro h
      by_contra hc
      have h1 := c (by omega)
      have h2 := h (64 - leadingZeros 64 x.toNat - 1) (by omega) (by omega)
      rw [BitVec.getLsbD, h1] at h2; cases h2
    · intro h j h1 h2
      exact b j (by omega) h2
  rw [e, length_filter_ge _ _ (by omega)]; omega

theorem trailingZeros_spec : ∀ n v, trailingZeros n v ≤ n ∧ (∀ j, j < trailingZeros n v → v.testBit j = false) ∧
    (trailingZeros n v < n → v.testBit (trailingZeros n v) = true) := by
  intro n
  induction n with
  | zero => simp [trailingZeros]
  | succ n ih =>
      intro v
      unfold trailingZeros
      split
      · rename_i h
        refine ⟨by omega, fun j a => by omega, fun _ => by simp [Nat.testBit_zero, h]⟩
      · rename_i h
        obtain ⟨a, b, c⟩ := ih (v / 2)
        refine ⟨by omega, fun j h1 => ?_, fun h1 => ?_⟩
        · cases j with
          | zero => simp [Nat.testBit_zero]; omega
          | succ j => rw [Nat.testBit_succ]; exact b j (by omega)
        · rw [Nat.testBit_succ]; exact c (by omega)

theorem ctz_value (x : Word) : trailingZeros 64 x.toNat = ((List.range 64).filter fun i => onesIn x 0 (i + 1) == 0).length := by
  obtain ⟨a, b, c⟩ := trailingZeros_spec 64 x.toNat
  have e : ((List.range 64).filter fun i => onesIn x 0 (i + 1) == 0) = (List.range 64).filter fun i => decide (i < trailingZeros 64 x.toNat) := by
    apply List.filter_congr
    intro i hi
    have hi' : i < 64 := by simpa using hi
    rw [onesIn_eq_zero]
    simp only [decide_eq_decide]
    constructor
    · intro h
      by_contra hc
      have h1 := c (by omega)
      have h2 := h (trailingZeros 64 x.toNat) (by omega) (by omega)
      rw [BitVec.getLsbD, h1] at h2; cases h2
    · intro h j h1 h2
      exact b j (by omega)
  rw [e, length_filter_lt _ _ a]

theorem length_filter_range_succ (p : Nat → Bool) (n : Nat) : ((List.range (n + 1)).filter p).length =
    (if p 0 then 1 else 0) + ((List.range n).filter fun i => p (i + 1)).length := by
  rw [List.range_succ_eq_map, List.filter_cons]
  have : ((List.map Nat.succ (List.range n)).filter p).length = ((List.range n).filter fun i => p (i + 1)).length := by
    rw [List.filter_map, List.length_map]; rfl
  split
  · rw [List.length_cons, this]; omega
  · rw [this]; omega

theorem oneBits_spec : ∀ n v, oneBits n v = ((List.range n).filter fun i => v.testBit i).length := by
  intro n
  induction n with
  | zero => intro v; simp [oneBits]
  | succ n ih =>
      intro v
      rw [length_filter_range_succ, oneBits, ih]
      simp only [Nat.testBit_succ, Nat.testBit_zero]
      have := Nat.mod_two_eq_zero_or_one v
      rcases this with h | h <;> simp [h] <;> omega

theorem popc_value (x : Word) : oneBits 64 x.toNat = onesIn x 0 64 := by
  rw [oneBits_spec, onesIn]
  congr 1

theorem sext_value (n : Nat) (hn : 0 < n) (hn' : n < 64) (x : Word) : (x.setWidth n).signExtend 64 = lowSigned n x := by
  apply BitVec.eq_of_toInt_eq
  rw [BitVec.toInt_signExtend_of_le (by omega), lowSigned, BitVec.toInt_eq_toNat_cond, BitVec.toNat_setWidth]
  have h2 : 2 * 2 ^ (n - 1) = 2 ^ n := by rw [← Nat.pow_succ']; congr 1; omega
  have h3 : x.toNat % 2 ^ n < 2 ^ n := Nat.mod_lt _ (Nat.two_pow_pos _)
  have h4 : 2 ^ n ≤ 2 ^ 63 := Nat.pow_le_pow_right (by decide) (by omega)
  have h5 : ((x.toNat : Int) % 2 ^ n) = ((x.toNat % 2 ^ n : Nat) : Int) := by push_cast; rfl
  have h6 : ((2 : Int) ^ n) = ((2 ^ n : Nat) : Int) := by push_cast; rfl
  rw [h5, h6]
  generalize x.toNat % 2 ^ n = m at *
  generalize 2 ^ n = q at *
  generalize 2 ^ (n - 1) = q1 at *
  split
  · rw [if_pos (by omega)]
    simp only [ofU, BitVec.toInt_ofNat', Int.bmod]
    push_cast
    omega
  · rw [if_neg (by omega), ofS, BitVec.toInt_ofInt]
    simp only [Int.bmod]
    push_cast
    omega

theorem zext_value (n : Nat) (hn' : n ≤ 64) (x : Word) : (x.setWidth n).setWidth 64 = ofU (x.toNat % 2 ^ n) := by
  apply BitVec.eq_of_toNat_eq
  simp [ofU]

theorem tget_value (x : Word) (sel : BitVec 6) : tagGet x sel = 
    (if sel = 0#6 then ofU (x.toNat / 2 ^ 60) else if sel = 1#6 then ofU (x.toNat / 2 ^ 48 % 2 ^ 12) else ofU (x.toNat % 2 ^ 48)) := by
  have hx := x.isLt
  unfold tagGet ptrSpace ptrOwner ptrOff fieldNat
  have e : x.toNat / 2 ^ 60 % 2 ^ 4 = x.toNat / 2 ^ 60 := Nat.mod_eq_of_lt (by omega)
  simp only [BitVec.extractLsb'_toNat, Nat.shiftRight_eq_div_pow, Nat.pow_zero, Nat.div_one, ofU, e]

theorem siS_value (n : BitVec 10) : siS n = if n.toNat < 512 then ofU n.toNat else ofS (n.toNat - 1024) := by
  revert n; decide +kernel

theorem siZ_value (n : BitVec 10) : siZ n = ofU n.toNat := by revert n; decide +kernel

theorem movi_value (h : BitVec 6) (n : BitVec 10) : (h ++ n).signExtend 64 = ofS (if h.toNat < 32 then h.toNat * 1024 + n.toNat else h.toNat * 1024 + n.toNat - 65536) := by
  apply BitVec.eq_of_toInt_eq
  rw [BitVec.toInt_signExtend_of_le (by omega), BitVec.toInt_eq_toNat_cond, BitVec.toNat_append, ← Nat.shiftLeft_add_eq_or_of_lt (BitVec.isLt _), Nat.shiftLeft_eq, ofS, BitVec.toInt_ofInt]
  have h1 := h.isLt
  have h2 := n.isLt
  simp only [Int.bmod]
  split <;> split <;> push_cast <;> omega

theorem cmp_value (cc : BitVec 4) (hc : cc.toNat < 10) (x y : Word) : cmpCond cc x y = true ↔ condHolds cc.toNat x y := by
  unfold cmpCond condHolds
  generalize cc.toNat = n at *
  match n, hc with
  | 0, _ => simp
  | 1, _ => simp
  | 2, _ => simp
  | 3, _ => simp
  | 4, _ => simp
  | 5, _ => simp
  | 6, _ => simp
  | 7, _ => simp
  | 8, _ => simp
  | 9, _ => simp

end Sys2Proof.Laws
end

