-- ==== Sys2Proof/Laws/Mem.lean ====
section
/-! SUPPORT. Storage: a read after a write, at the same place and elsewhere, and that every operation on a storage or a word
list keeps its canonical form. -/

namespace Sys2Proof.Laws

open Sys2Proof.Machine

/-! ### Cells -/

theorem cellGet_above {d : Byte} {lo a : Nat} {xs : List Host.Cell} (h : cellsAbove d lo xs = true) (ha : a < lo) :
    cellGet d a xs = d := by
  induction xs generalizing lo with
  | nil => rfl
  | cons x t ih =>
      obtain ⟨b, v⟩ := x
      simp only [cellsAbove, Bool.and_eq_true, decide_eq_true_eq] at h
      rw [cellGet, if_neg (by omega), ih h.2 (by omega)]

theorem cellsAbove_mono {d : Byte} {lo lo' : Nat} {xs : List Host.Cell} (h : cellsAbove d lo xs = true) (hl : lo' ≤ lo) :
    cellsAbove d lo' xs = true := by
  cases xs with
  | nil => rfl
  | cons x t =>
      obtain ⟨b, v⟩ := x
      simp only [cellsAbove, Bool.and_eq_true, decide_eq_true_eq] at h ⊢
      exact ⟨⟨by omega, h.1.2⟩, h.2⟩

/-- Writing a byte keeps the canonical form. -/
theorem cellsAbove_set {d : Byte} {lo a : Nat} {v : Byte} {xs : List Host.Cell} (h : cellsAbove d lo xs = true) (ha : lo ≤ a) :
    cellsAbove d lo (cellSet d a v xs) = true := by
  induction xs generalizing lo with
  | nil => by_cases hv : v = d <;> simp [cellSet, hv, cellsAbove, ha]
  | cons x t ih =>
      obtain ⟨b, w⟩ := x
      simp only [cellsAbove, Bool.and_eq_true, decide_eq_true_eq] at h
      obtain ⟨⟨h1, h2⟩, h3⟩ := h
      by_cases hab : a < b
      · by_cases hv : v = d
        · simp [cellSet, hab, hv, cellsAbove, h1, h2, h3]
        · simp [cellSet, hab, hv, cellsAbove, ha, h2, h3]
      · by_cases he : a = b
        · subst he
          by_cases hv : v = d
          · simpa [cellSet, hv] using cellsAbove_mono h3 (by omega)
          · simp [cellSet, hv, cellsAbove, h1, h3]
        · simp only [cellSet, hab, he, if_false, cellsAbove, Bool.and_eq_true, decide_eq_true_eq]
          exact ⟨⟨h1, h2⟩, ih h3 (by omega)⟩

/-- A byte reads as it was written. -/
theorem cellGet_set_same {d : Byte} {lo a : Nat} {v : Byte} {xs : List Host.Cell} (h : cellsAbove d lo xs = true) :
    cellGet d a (cellSet d a v xs) = v := by
  induction xs generalizing lo with
  | nil => by_cases hv : v = d <;> simp [cellSet, hv, cellGet]
  | cons x t ih =>
      obtain ⟨b, w⟩ := x
      simp only [cellsAbove, Bool.and_eq_true, decide_eq_true_eq] at h
      by_cases hab : a < b
      · by_cases hv : v = d
        · simp [cellSet, hab, hv, cellGet, show b ≠ a by omega, cellGet_above h.2 (show a < b + 1 by omega)]
        · simp [cellSet, hab, hv, cellGet]
      · by_cases he : a = b
        · subst he
          by_cases hv : v = d
          · simp [cellSet, hv, cellGet_above h.2 (show a < a + 1 by omega)]
          · simp [cellSet, hv, cellGet]
        · simp [cellSet, hab, he, cellGet, show b ≠ a by omega, ih h.2]

/-- Every other byte reads as before. -/
theorem cellGet_set_ne {d : Byte} {lo a c : Nat} {v : Byte} {xs : List Host.Cell} (h : cellsAbove d lo xs = true) (hc : c ≠ a) :
    cellGet d c (cellSet d a v xs) = cellGet d c xs := by
  induction xs generalizing lo with
  | nil => by_cases hv : v = d <;> simp [cellSet, hv, cellGet, hc.symm]
  | cons x t ih =>
      obtain ⟨b, w⟩ := x
      simp only [cellsAbove, Bool.and_eq_true, decide_eq_true_eq] at h
      by_cases hab : a < b
      · by_cases hv : v = d <;> simp [cellSet, hab, hv, cellGet, hc.symm]
      · by_cases he : a = b
        · subst he
          by_cases hv : v = d
          · simp [cellSet, hv, cellGet, hc.symm]
          · simp [cellSet, hv, cellGet, hc.symm]
        · simp only [cellSet, hab, he, if_false, cellGet, ih h.2]

/-! ### Storage -/

theorem get_set_same {m : Store} (h : m.wf = true) (a : Nat) (v : Byte) : (m.set a v).get a = v := cellGet_set_same h
theorem get_set_ne {m : Store} (h : m.wf = true) {a c : Nat} (hc : c ≠ a) (v : Byte) : (m.set a v).get c = m.get c := cellGet_set_ne h hc
theorem wf_set {m : Store} (h : m.wf = true) (a : Nat) (v : Byte) : (m.set a v).wf = true := cellsAbove_set h (Nat.zero_le a)

theorem wf_fill {m : Store} (h : m.wf = true) (a : Nat) (vs : List Byte) : (m.fill a vs).wf = true := by
  induction vs generalizing m a with
  | nil => exact h
  | cons v t ih => exact ih (wf_set h a v) (a + 1)

/-- Writing bytes keeps the canonical form. -/
theorem wf_put {m : Store} (h : m.wf = true) (a : Nat) (vs : List Byte) : (m.put a vs).wf = true := wf_fill h a vs

theorem get_fill_below {m : Store} (h : m.wf = true) (a c : Nat) (vs : List Byte) (hc : c < a) : (m.fill a vs).get c = m.get c := by
  induction vs generalizing m a with
  | nil => rfl
  | cons v t ih => exact (ih (wf_set h a v) (a + 1) (by omega)).trans (get_set_ne h (by omega) v)

theorem get_fill_out {m : Store} (h : m.wf = true) (a c : Nat) (vs : List Byte) (hc : c < a ∨ a + vs.length ≤ c) :
    (m.fill a vs).get c = m.get c := by
  induction vs generalizing m a with
  | nil => rfl
  | cons v t ih =>
      simp only [List.length_cons] at hc
      exact (ih (wf_set h a v) (a + 1) (by omega)).trans (get_set_ne h (by omega) v)

theorem get_fill_in {m : Store} (h : m.wf = true) (a i : Nat) (vs : List Byte) (hi : i < vs.length) :
    (m.fill a vs).get (a + i) = vs[i] := by
  induction vs generalizing m a i with
  | nil => cases hi
  | cons v t ih =>
      cases i with
      | zero => exact (get_fill_below (wf_set h a v) (a + 1) a t (by omega)).trans (get_set_same h a v)
      | succ j =>
          have := ih (wf_set h a v) (a + 1) j (by simpa using hi)
          simpa [Store.fill, show a + 1 + j = a + (j + 1) by omega] using this

/-- Bytes outside a write read as before. -/
theorem get_put_out {m : Store} (h : m.wf = true) (a c : Nat) (vs : List Byte) (hc : c < a ∨ a + vs.length ≤ c) :
    (m.put a vs).get c = m.get c := get_fill_out h a c vs hc

/-- Bytes read as they were written. -/
theorem get_put_in {m : Store} (h : m.wf = true) (a i : Nat) (vs : List Byte) (hi : i < vs.length) :
    (m.put a vs).get (a + i) = vs[i] := get_fill_in h a i vs hi

/-- A run of bytes reads as it was written. -/
theorem bytes_put {m : Store} (h : m.wf = true) (a : Nat) (vs : List Byte) : (m.put a vs).bytes a vs.length = vs := by
  refine List.ext_getElem (by simp [Store.bytes]) fun i h1 h2 => ?_
  simp only [Store.bytes, List.getElem_map, List.getElem_range]
  exact get_put_in h a i vs h2

theorem wf_upset {m : Store} (h : m.wf = true) (w : Nat) : (m.upset w).wf = true := h

theorem cellsAbove_filter {d : Byte} {lo : Nat} {xs : List Host.Cell} (p : Host.Cell → Bool) (h : cellsAbove d lo xs = true) :
    cellsAbove d lo (xs.filter p) = true := by
  induction xs generalizing lo with
  | nil => rfl
  | cons x t ih =>
      obtain ⟨b, v⟩ := x
      simp only [cellsAbove, Bool.and_eq_true, decide_eq_true_eq] at h
      by_cases hp : p (b, v) = true
      · simp only [List.filter_cons, hp, if_true, cellsAbove, Bool.and_eq_true, decide_eq_true_eq]
        exact ⟨h.1, ih h.2⟩
      · simp only [List.filter_cons, hp]
        exact cellsAbove_mono (ih h.2) (by omega)

/-- Clearing a range keeps the canonical form. -/
theorem wf_clear {m : Store} (h : m.wf = true) (a n : Nat) : (m.clear a n).wf = true := cellsAbove_filter _ h

theorem wf_zero : Store.zero.wf = true := rfl
theorem wf_ones : Store.ones.wf = true := rfl

/-! ### Words -/

theorem wordGet_above {d : Nat → Word} {lo a : Nat} {xs : List (Nat × Word)} (h : wordsAbove d lo xs = true) (ha : a < lo) :
    wordGet d a xs = d a := by
  induction xs generalizing lo with
  | nil => rfl
  | cons x t ih =>
      obtain ⟨b, v⟩ := x
      simp only [wordsAbove, Bool.and_eq_true, decide_eq_true_eq] at h
      rw [wordGet, if_neg (by omega), ih h.2 (by omega)]

theorem wordsAbove_mono {d : Nat → Word} {lo lo' : Nat} {xs : List (Nat × Word)} (h : wordsAbove d lo xs = true) (hl : lo' ≤ lo) :
    wordsAbove d lo' xs = true := by
  cases xs with
  | nil => rfl
  | cons x t =>
      obtain ⟨b, v⟩ := x
      simp only [wordsAbove, Bool.and_eq_true, decide_eq_true_eq] at h ⊢
      exact ⟨⟨by omega, h.1.2⟩, h.2⟩

/-- Writing a word keeps the canonical form. -/
theorem wordsAbove_set {d : Nat → Word} {lo a : Nat} {v : Word} {xs : List (Nat × Word)} (h : wordsAbove d lo xs = true) (ha : lo ≤ a) :
    wordsAbove d lo (wordSet d a v xs) = true := by
  induction xs generalizing lo with
  | nil => by_cases hv : v = d a <;> simp [wordSet, hv, wordsAbove, ha]
  | cons x t ih =>
      obtain ⟨b, w⟩ := x
      simp only [wordsAbove, Bool.and_eq_true, decide_eq_true_eq] at h
      obtain ⟨⟨h1, h2⟩, h3⟩ := h
      by_cases hab : a < b
      · by_cases hv : v = d a
        · simp [wordSet, hab, hv, wordsAbove, h1, h2, h3]
        · simp [wordSet, hab, hv, wordsAbove, ha, h2, h3]
      · by_cases he : a = b
        · subst he
          by_cases hv : v = d a
          · simpa [wordSet, hv] using wordsAbove_mono h3 (by omega)
          · simp [wordSet, hv, wordsAbove, h1, h3]
        · simp only [wordSet, hab, he, if_false, wordsAbove, Bool.and_eq_true, decide_eq_true_eq]
          exact ⟨⟨h1, h2⟩, ih h3 (by omega)⟩

theorem wordGet_set_same {d : Nat → Word} {lo a : Nat} {v : Word} {xs : List (Nat × Word)} (h : wordsAbove d lo xs = true) :
    wordGet d a (wordSet d a v xs) = v := by
  induction xs generalizing lo with
  | nil => by_cases hv : v = d a <;> simp [wordSet, hv, wordGet]
  | cons x t ih =>
      obtain ⟨b, w⟩ := x
      simp only [wordsAbove, Bool.and_eq_true, decide_eq_true_eq] at h
      by_cases hab : a < b
      · by_cases hv : v = d a
        · simp [wordSet, hab, hv, wordGet, show b ≠ a by omega, wordGet_above h.2 (show a < b + 1 by omega)]
        · simp [wordSet, hab, hv, wordGet]
      · by_cases he : a = b
        · subst he
          by_cases hv : v = d a
          · simp [wordSet, hv, wordGet_above h.2 (show a < a + 1 by omega)]
          · simp [wordSet, hv, wordGet]
        · simp [wordSet, hab, he, wordGet, show b ≠ a by omega, ih h.2]

theorem wordGet_set_ne {d : Nat → Word} {lo a c : Nat} {v : Word} {xs : List (Nat × Word)} (h : wordsAbove d lo xs = true) (hc : c ≠ a) :
    wordGet d c (wordSet d a v xs) = wordGet d c xs := by
  induction xs generalizing lo with
  | nil => by_cases hv : v = d a <;> simp [wordSet, hv, wordGet, hc.symm]
  | cons x t ih =>
      obtain ⟨b, w⟩ := x
      simp only [wordsAbove, Bool.and_eq_true, decide_eq_true_eq] at h
      by_cases hab : a < b
      · by_cases hv : v = d a <;> simp [wordSet, hab, hv, wordGet, hc.symm]
      · by_cases he : a = b
        · subst he
          by_cases hv : v = d a <;> simp [wordSet, hv, wordGet, hc.symm]
        · simp only [wordSet, hab, he, if_false, wordGet, ih h.2]

end Sys2Proof.Laws
end

