-- ==== Sys2Proof/Laws/Act.lean ====
section
/-! SUPPORT. How an action runs: one equation per combinator, so that no later proof unfolds the state transformer; and what a
scalar instruction comes to once its registers and its guard are known. -/

namespace Sys2Proof.Laws

open Sys2Proof.Machine

variable {α β : Type} {s s' : State}

/-! ### Combinators -/

theorem bind_ok {x : Act α} {f : α → Act β} {a : α} (h : x s = .ok (a, s')) : (x >>= f) s = f a s' := by
  show StateT.bind x f s = _
  simp [StateT.bind, h, bind, Except.bind]

theorem bind_error {x : Act α} {f : α → Act β} {e : Stop × State} (h : x s = .error e) : (x >>= f) s = .error e := by
  show StateT.bind x f s = _
  simp [StateT.bind, h, bind, Except.bind]

theorem bind_run (x : Act α) (f : α → Act β) : (x >>= f) s = match x s with
    | .ok p => f p.1 p.2
    | .error e => .error e := by
  cases h : x s with
  | ok p => exact bind_ok (a := p.1) (s' := p.2) h
  | error e => exact bind_error h

theorem map_run (g : α → β) (x : Act α) : (g <$> x) s = match x s with
    | .ok p => .ok (g p.1, p.2)
    | .error e => .error e := by
  show (x >>= fun a => pure (g a)) s = _
  rw [bind_run]
  rfl

@[simp] theorem pure_run (a : α) : (pure a : Act α) s = .ok (a, s) := rfl
@[simp] theorem get_run : (get : Act State) s = .ok (s, s) := rfl
@[simp] theorem set_run (t : State) : (set t : Act PUnit) s = .ok (⟨⟩, t) := rfl
@[simp] theorem modify_run (f : State → State) : (modify f : Act PUnit) s = .ok (⟨⟩, f s) := rfl
@[simp] theorem raise_run (t : Trap) : (raise t : Act α) s = .error (.trap t, s) := rfl
@[simp] theorem hold_run : (hold : Act α) s = .error (.hold, s) := rfl
@[simp] theorem raiseC_run (c : Nat) (a : Word) : (raiseC c a : Act α) s = .error (.trap (Trap.mk' c a), s) := rfl
@[simp] theorem need_some (a : α) : need (some a) = pure a := rfl
@[simp] theorem need_none : (need none : Act α) = hold := rfl
@[simp] theorem raiseIf_false (t : Trap) : raiseIf false t = pure () := rfl
@[simp] theorem raiseIf_true (t : Trap) : raiseIf true t = raise t := rfl
@[simp] theorem holdIf_false : holdIf false = pure () := rfl
@[simp] theorem holdIf_true : holdIf true = hold := rfl
@[simp] theorem onCore_run (k : CoreRef) (f : Core → Core) : onCore k f s = .ok ((), s.modCore k f) := rfl
@[simp] theorem setX_run (d : BitVec 6) (v : Word) : setX d v s = .ok ((), s.modRegs fun r => r.set d v) := rfl

@[simp] theorem pure_bind_act (a : α) (f : α → Act β) : (pure a >>= f) = f a := rfl
@[simp] theorem raise_bind (t : Trap) (f : α → Act β) : ((raise t : Act α) >>= f) = raise t := rfl
@[simp] theorem hold_bind (f : α → Act β) : ((hold : Act α) >>= f) = hold := rfl

/-! ### Instructions -/

/-- A scalar instruction whose guard holds runs its action. -/
theorem scalar_on {g : BitVec 4} {len : Nat} {act : Regs → Act Next} {r : Regs} (hr : s.regs? = some r) (hg : r.guard g = true) :
    scalar g len s act = .next (runAct s.cur len (act r) s) := by simp [scalar, hr, hg]

/-- A scalar instruction whose guard fails only advances the pc. -/
theorem scalar_off {g : BitVec 4} {len : Nat} {act : Regs → Act Next} {r : Regs} (hr : s.regs? = some r) (hg : r.guard g = false) :
    scalar g len s act = .next (s.modRegs fun r => r.skip len) := by simp [scalar, hr, hg]

theorem scalarX_on {d : BitVec 6} {g : BitVec 4} {len : Nat} {f : Regs → Word} {r : Regs} (hr : s.regs? = some r)
    (hg : r.guard g = true) : scalarX d g len s f = .next (s.modRegs fun _ => (r.set d (f r)).skip len) := by
  simp [scalarX, hr, hg]
theorem scalarX_off {d : BitVec 6} {g : BitVec 4} {len : Nat} {f : Regs → Word} {r : Regs} (hr : s.regs? = some r)
    (hg : r.guard g = false) : scalarX d g len s f = .next (s.modRegs fun r => r.skip len) := by
  simp [scalarX, hr, hg]
theorem scalarP_on {d : BitVec 3} {g : BitVec 4} {len : Nat} {f : Regs → Bool} {r : Regs} (hr : s.regs? = some r)
    (hg : r.guard g = true) : scalarP d g len s f = .next (s.modRegs fun _ => (r.setPred d (f r)).skip len) := by
  simp [scalarP, hr, hg]
theorem scalarP_off {d : BitVec 3} {g : BitVec 4} {len : Nat} {f : Regs → Bool} {r : Regs} (hr : s.regs? = some r)
    (hg : r.guard g = false) : scalarP d g len s f = .next (s.modRegs fun r => r.skip len) := by
  simp [scalarP, hr, hg]

theorem runAct_adv {a : Agent} {len : Nat} {act : Act Next} (h : act s = .ok (.adv, s')) :
    runAct a len act s = s'.modRegsOf a fun r => r.skip len := by simp [runAct, h]
theorem runAct_goto {a : Agent} {len : Nat} {act : Act Next} {pc : Word} (h : act s = .ok (.goto pc, s')) :
    runAct a len act s = s'.modRegsOf a fun r => r.setPc pc := by simp [runAct, h]
theorem runAct_trap {a : Agent} {len : Nat} {act : Act Next} {t : Trap} (h : act s = .error (.trap t, s')) :
    runAct a len act s = (s'.endCommit a).takeFault a t := by simp [runAct, h]
theorem runAct_hold {a : Agent} {len : Nat} {act : Act Next} (h : act s = .error (.hold, s')) : runAct a len act s = s' := by
  simp [runAct, h]

/-- The core whose control core acts. -/
theorem theCore_run {k : CoreRef} {l : Launch} {cp : Copy} {c : Core} (hc : s.cur = .core k) (hl : s.launch? k.lid = some l)
    (hp : s.copy? k = some cp) (hk : s.core? k = some c) : theCore s = .ok ((k, l, cp, c), s) := by
  simp [theCore, hc, hl, hp, hk]

/-- Launch-state instructions on an Anole core are Illegal Encoding (R396). -/
theorem theCore_anole {a : BitVec 4} (hc : s.cur = .anole a) : theCore s = .error (.trap (Trap.mk' 0x01), s) := by
  simp [theCore, hc]

end Sys2Proof.Laws
end

