-- ==== Sys2Proof/Laws/State.lean ====
section
/-! SUPPORT. What each update of the state leaves and changes: one lemma per field per update, so that no later proof unfolds a
record update; and reading a launch, copy or core back after a change of it. -/

namespace Sys2Proof.Laws

open Sys2Proof.Machine

variable (s : State) (lid : Nat) (k : CoreRef) (a : Agent) (f : Launch → Launch) (g : Copy → Copy) (h : Core → Core) (u : Regs → Regs)

/-! ### `modLaunch` -/

@[simp] theorem modLaunch_cc : (s.modLaunch lid f).cc = s.cc := rfl
@[simp] theorem modLaunch_cur : (s.modLaunch lid f).cur = s.cur := rfl
@[simp] theorem modLaunch_sched : (s.modLaunch lid f).sched = s.sched := rfl
@[simp] theorem modLaunch_freeCtr : (s.modLaunch lid f).freeCtr = s.freeCtr := rfl
@[simp] theorem modLaunch_dram : (s.modLaunch lid f).dram = s.dram := rfl
@[simp] theorem modLaunch_cwnN : (s.modLaunch lid f).cwnN = s.cwnN := rfl
@[simp] theorem modLaunch_cwnS : (s.modLaunch lid f).cwnS = s.cwnS := rfl
@[simp] theorem modLaunch_sys : (s.modLaunch lid f).sys = s.sys := rfl
@[simp] theorem modLaunch_placing : (s.modLaunch lid f).placing = s.placing := rfl
@[simp] theorem modLaunch_queues : (s.modLaunch lid f).queues = s.queues := rfl
@[simp] theorem modLaunch_nextLid : (s.modLaunch lid f).nextLid = s.nextLid := rfl
@[simp] theorem modLaunch_anoles : (s.modLaunch lid f).anoles = s.anoles := rfl
@[simp] theorem modLaunch_tlbs : (s.modLaunch lid f).tlbs = s.tlbs := rfl
@[simp] theorem modLaunch_walks : (s.modLaunch lid f).walks = s.walks := rfl
@[simp] theorem modLaunch_shoots : (s.modLaunch lid f).shoots = s.shoots := rfl
@[simp] theorem modLaunch_evSeq : (s.modLaunch lid f).evSeq = s.evSeq := rfl
@[simp] theorem modLaunch_rel : (s.modLaunch lid f).rel = s.rel := rfl
@[simp] theorem modLaunch_firm : (s.modLaunch lid f).firm = s.firm := rfl
@[simp] theorem modLaunch_link : (s.modLaunch lid f).link = s.link := rfl
@[simp] theorem modLaunch_host : (s.modLaunch lid f).host = s.host := rfl
@[simp] theorem modLaunch_kv : (s.modLaunch lid f).kv = s.kv := rfl
@[simp] theorem modLaunch_openings : (s.modLaunch lid f).openings = s.openings := rfl
@[simp] theorem modLaunch_opens : (s.modLaunch lid f).opens = s.opens := rfl
@[simp] theorem modLaunch_oldCode : (s.modLaunch lid f).oldCode = s.oldCode := rfl
@[simp] theorem modLaunch_lags : (s.modLaunch lid f).lags = s.lags := rfl

/-! ### `modCopy` -/

@[simp] theorem modCopy_cc : (s.modCopy k g).cc = s.cc := rfl
@[simp] theorem modCopy_cur : (s.modCopy k g).cur = s.cur := rfl
@[simp] theorem modCopy_sched : (s.modCopy k g).sched = s.sched := rfl
@[simp] theorem modCopy_freeCtr : (s.modCopy k g).freeCtr = s.freeCtr := rfl
@[simp] theorem modCopy_dram : (s.modCopy k g).dram = s.dram := rfl
@[simp] theorem modCopy_cwnN : (s.modCopy k g).cwnN = s.cwnN := rfl
@[simp] theorem modCopy_cwnS : (s.modCopy k g).cwnS = s.cwnS := rfl
@[simp] theorem modCopy_sys : (s.modCopy k g).sys = s.sys := rfl
@[simp] theorem modCopy_placing : (s.modCopy k g).placing = s.placing := rfl
@[simp] theorem modCopy_queues : (s.modCopy k g).queues = s.queues := rfl
@[simp] theorem modCopy_nextLid : (s.modCopy k g).nextLid = s.nextLid := rfl
@[simp] theorem modCopy_anoles : (s.modCopy k g).anoles = s.anoles := rfl
@[simp] theorem modCopy_tlbs : (s.modCopy k g).tlbs = s.tlbs := rfl
@[simp] theorem modCopy_walks : (s.modCopy k g).walks = s.walks := rfl
@[simp] theorem modCopy_shoots : (s.modCopy k g).shoots = s.shoots := rfl
@[simp] theorem modCopy_evSeq : (s.modCopy k g).evSeq = s.evSeq := rfl
@[simp] theorem modCopy_rel : (s.modCopy k g).rel = s.rel := rfl
@[simp] theorem modCopy_firm : (s.modCopy k g).firm = s.firm := rfl
@[simp] theorem modCopy_link : (s.modCopy k g).link = s.link := rfl
@[simp] theorem modCopy_host : (s.modCopy k g).host = s.host := rfl
@[simp] theorem modCopy_kv : (s.modCopy k g).kv = s.kv := rfl
@[simp] theorem modCopy_openings : (s.modCopy k g).openings = s.openings := rfl
@[simp] theorem modCopy_opens : (s.modCopy k g).opens = s.opens := rfl
@[simp] theorem modCopy_oldCode : (s.modCopy k g).oldCode = s.oldCode := rfl
@[simp] theorem modCopy_lags : (s.modCopy k g).lags = s.lags := rfl

/-! ### `modCore` -/

@[simp] theorem modCore_cc : (s.modCore k h).cc = s.cc := rfl
@[simp] theorem modCore_cur : (s.modCore k h).cur = s.cur := rfl
@[simp] theorem modCore_sched : (s.modCore k h).sched = s.sched := rfl
@[simp] theorem modCore_freeCtr : (s.modCore k h).freeCtr = s.freeCtr := rfl
@[simp] theorem modCore_dram : (s.modCore k h).dram = s.dram := rfl
@[simp] theorem modCore_cwnN : (s.modCore k h).cwnN = s.cwnN := rfl
@[simp] theorem modCore_cwnS : (s.modCore k h).cwnS = s.cwnS := rfl
@[simp] theorem modCore_sys : (s.modCore k h).sys = s.sys := rfl
@[simp] theorem modCore_placing : (s.modCore k h).placing = s.placing := rfl
@[simp] theorem modCore_queues : (s.modCore k h).queues = s.queues := rfl
@[simp] theorem modCore_nextLid : (s.modCore k h).nextLid = s.nextLid := rfl
@[simp] theorem modCore_anoles : (s.modCore k h).anoles = s.anoles := rfl
@[simp] theorem modCore_tlbs : (s.modCore k h).tlbs = s.tlbs := rfl
@[simp] theorem modCore_walks : (s.modCore k h).walks = s.walks := rfl
@[simp] theorem modCore_shoots : (s.modCore k h).shoots = s.shoots := rfl
@[simp] theorem modCore_evSeq : (s.modCore k h).evSeq = s.evSeq := rfl
@[simp] theorem modCore_rel : (s.modCore k h).rel = s.rel := rfl
@[simp] theorem modCore_firm : (s.modCore k h).firm = s.firm := rfl
@[simp] theorem modCore_link : (s.modCore k h).link = s.link := rfl
@[simp] theorem modCore_host : (s.modCore k h).host = s.host := rfl
@[simp] theorem modCore_kv : (s.modCore k h).kv = s.kv := rfl
@[simp] theorem modCore_openings : (s.modCore k h).openings = s.openings := rfl
@[simp] theorem modCore_opens : (s.modCore k h).opens = s.opens := rfl
@[simp] theorem modCore_oldCode : (s.modCore k h).oldCode = s.oldCode := rfl
@[simp] theorem modCore_lags : (s.modCore k h).lags = s.lags := rfl

/-! ### Registers -/

@[simp] theorem modRegsOf_cc : (s.modRegsOf a u).cc = s.cc := by cases a <;> rfl
@[simp] theorem modRegs_cc : (s.modRegs u).cc = s.cc := modRegsOf_cc s s.cur u
@[simp] theorem modRegsOf_cur : (s.modRegsOf a u).cur = s.cur := by cases a <;> rfl
@[simp] theorem modRegs_cur : (s.modRegs u).cur = s.cur := modRegsOf_cur s s.cur u
@[simp] theorem modRegsOf_sched : (s.modRegsOf a u).sched = s.sched := by cases a <;> rfl
@[simp] theorem modRegs_sched : (s.modRegs u).sched = s.sched := modRegsOf_sched s s.cur u
@[simp] theorem modRegsOf_freeCtr : (s.modRegsOf a u).freeCtr = s.freeCtr := by cases a <;> rfl
@[simp] theorem modRegs_freeCtr : (s.modRegs u).freeCtr = s.freeCtr := modRegsOf_freeCtr s s.cur u
@[simp] theorem modRegsOf_dram : (s.modRegsOf a u).dram = s.dram := by cases a <;> rfl
@[simp] theorem modRegs_dram : (s.modRegs u).dram = s.dram := modRegsOf_dram s s.cur u
@[simp] theorem modRegsOf_cwnN : (s.modRegsOf a u).cwnN = s.cwnN := by cases a <;> rfl
@[simp] theorem modRegs_cwnN : (s.modRegs u).cwnN = s.cwnN := modRegsOf_cwnN s s.cur u
@[simp] theorem modRegsOf_cwnS : (s.modRegsOf a u).cwnS = s.cwnS := by cases a <;> rfl
@[simp] theorem modRegs_cwnS : (s.modRegs u).cwnS = s.cwnS := modRegsOf_cwnS s s.cur u
@[simp] theorem modRegsOf_sys : (s.modRegsOf a u).sys = s.sys := by cases a <;> rfl
@[simp] theorem modRegs_sys : (s.modRegs u).sys = s.sys := modRegsOf_sys s s.cur u
@[simp] theorem modRegsOf_placing : (s.modRegsOf a u).placing = s.placing := by cases a <;> rfl
@[simp] theorem modRegs_placing : (s.modRegs u).placing = s.placing := modRegsOf_placing s s.cur u
@[simp] theorem modRegsOf_queues : (s.modRegsOf a u).queues = s.queues := by cases a <;> rfl
@[simp] theorem modRegs_queues : (s.modRegs u).queues = s.queues := modRegsOf_queues s s.cur u
@[simp] theorem modRegsOf_nextLid : (s.modRegsOf a u).nextLid = s.nextLid := by cases a <;> rfl
@[simp] theorem modRegs_nextLid : (s.modRegs u).nextLid = s.nextLid := modRegsOf_nextLid s s.cur u
@[simp] theorem modRegsOf_tlbs : (s.modRegsOf a u).tlbs = s.tlbs := by cases a <;> rfl
@[simp] theorem modRegsOf_walks : (s.modRegsOf a u).walks = s.walks := by cases a <;> rfl
@[simp] theorem modRegs_tlbs : (s.modRegs u).tlbs = s.tlbs := modRegsOf_tlbs s s.cur u
@[simp] theorem modRegs_walks : (s.modRegs u).walks = s.walks := modRegsOf_walks s s.cur u
@[simp] theorem modRegsOf_shoots : (s.modRegsOf a u).shoots = s.shoots := by cases a <;> rfl
@[simp] theorem modRegs_shoots : (s.modRegs u).shoots = s.shoots := modRegsOf_shoots s s.cur u
@[simp] theorem modRegsOf_evSeq : (s.modRegsOf a u).evSeq = s.evSeq := by cases a <;> rfl
@[simp] theorem modRegs_evSeq : (s.modRegs u).evSeq = s.evSeq := modRegsOf_evSeq s s.cur u
@[simp] theorem modRegsOf_rel : (s.modRegsOf a u).rel = s.rel := by cases a <;> rfl
@[simp] theorem modRegs_rel : (s.modRegs u).rel = s.rel := modRegsOf_rel s s.cur u
@[simp] theorem modRegsOf_firm : (s.modRegsOf a u).firm = s.firm := by cases a <;> rfl
@[simp] theorem modRegs_firm : (s.modRegs u).firm = s.firm := modRegsOf_firm s s.cur u
@[simp] theorem modRegsOf_link : (s.modRegsOf a u).link = s.link := by cases a <;> rfl
@[simp] theorem modRegs_link : (s.modRegs u).link = s.link := modRegsOf_link s s.cur u
@[simp] theorem modRegsOf_host : (s.modRegsOf a u).host = s.host := by cases a <;> rfl
@[simp] theorem modRegs_host : (s.modRegs u).host = s.host := modRegsOf_host s s.cur u
@[simp] theorem modRegsOf_kv : (s.modRegsOf a u).kv = s.kv := by cases a <;> rfl
@[simp] theorem modRegs_kv : (s.modRegs u).kv = s.kv := modRegsOf_kv s s.cur u
@[simp] theorem modRegsOf_openings : (s.modRegsOf a u).openings = s.openings := by cases a <;> rfl
@[simp] theorem modRegs_openings : (s.modRegs u).openings = s.openings := modRegsOf_openings s s.cur u
@[simp] theorem modRegsOf_opens : (s.modRegsOf a u).opens = s.opens := by cases a <;> rfl
@[simp] theorem modRegs_opens : (s.modRegs u).opens = s.opens := modRegsOf_opens s s.cur u
@[simp] theorem modRegsOf_oldCode : (s.modRegsOf a u).oldCode = s.oldCode := by cases a <;> rfl
@[simp] theorem modRegs_oldCode : (s.modRegs u).oldCode = s.oldCode := modRegsOf_oldCode s s.cur u
@[simp] theorem modRegsOf_lags : (s.modRegsOf a u).lags = s.lags := by cases a <;> rfl
@[simp] theorem modRegs_lags : (s.modRegs u).lags = s.lags := modRegsOf_lags s s.cur u

/-! ### `modAnole` and `sysPut` -/

@[simp] theorem modAnole_cc (i : BitVec 4) (v : Anole → Anole) : (s.modAnole i v).cc = s.cc := rfl
@[simp] theorem modAnole_cur (i : BitVec 4) (v : Anole → Anole) : (s.modAnole i v).cur = s.cur := rfl
@[simp] theorem modAnole_sched (i : BitVec 4) (v : Anole → Anole) : (s.modAnole i v).sched = s.sched := rfl
@[simp] theorem modAnole_freeCtr (i : BitVec 4) (v : Anole → Anole) : (s.modAnole i v).freeCtr = s.freeCtr := rfl
@[simp] theorem modAnole_dram (i : BitVec 4) (v : Anole → Anole) : (s.modAnole i v).dram = s.dram := rfl
@[simp] theorem modAnole_cwnN (i : BitVec 4) (v : Anole → Anole) : (s.modAnole i v).cwnN = s.cwnN := rfl
@[simp] theorem modAnole_cwnS (i : BitVec 4) (v : Anole → Anole) : (s.modAnole i v).cwnS = s.cwnS := rfl
@[simp] theorem modAnole_sys (i : BitVec 4) (v : Anole → Anole) : (s.modAnole i v).sys = s.sys := rfl
@[simp] theorem modAnole_launches (i : BitVec 4) (v : Anole → Anole) : (s.modAnole i v).launches = s.launches := rfl
@[simp] theorem modAnole_placing (i : BitVec 4) (v : Anole → Anole) : (s.modAnole i v).placing = s.placing := rfl
@[simp] theorem modAnole_queues (i : BitVec 4) (v : Anole → Anole) : (s.modAnole i v).queues = s.queues := rfl
@[simp] theorem modAnole_nextLid (i : BitVec 4) (v : Anole → Anole) : (s.modAnole i v).nextLid = s.nextLid := rfl
@[simp] theorem modAnole_tlbs (i : BitVec 4) (v : Anole → Anole) : (s.modAnole i v).tlbs = s.tlbs := rfl
@[simp] theorem modAnole_walks (i : BitVec 4) (v : Anole → Anole) : (s.modAnole i v).walks = s.walks := rfl
@[simp] theorem modAnole_shoots (i : BitVec 4) (v : Anole → Anole) : (s.modAnole i v).shoots = s.shoots := rfl
@[simp] theorem modAnole_evSeq (i : BitVec 4) (v : Anole → Anole) : (s.modAnole i v).evSeq = s.evSeq := rfl
@[simp] theorem modAnole_rel (i : BitVec 4) (v : Anole → Anole) : (s.modAnole i v).rel = s.rel := rfl
@[simp] theorem modAnole_firm (i : BitVec 4) (v : Anole → Anole) : (s.modAnole i v).firm = s.firm := rfl
@[simp] theorem modAnole_link (i : BitVec 4) (v : Anole → Anole) : (s.modAnole i v).link = s.link := rfl
@[simp] theorem modAnole_host (i : BitVec 4) (v : Anole → Anole) : (s.modAnole i v).host = s.host := rfl
@[simp] theorem modAnole_kv (i : BitVec 4) (v : Anole → Anole) : (s.modAnole i v).kv = s.kv := rfl
@[simp] theorem modAnole_openings (i : BitVec 4) (v : Anole → Anole) : (s.modAnole i v).openings = s.openings := rfl
@[simp] theorem modAnole_opens (i : BitVec 4) (v : Anole → Anole) : (s.modAnole i v).opens = s.opens := rfl
@[simp] theorem modAnole_oldCode (i : BitVec 4) (v : Anole → Anole) : (s.modAnole i v).oldCode = s.oldCode := rfl
@[simp] theorem modAnole_lags (i : BitVec 4) (v : Anole → Anole) : (s.modAnole i v).lags = s.lags := rfl
@[simp] theorem sysPut_cc (o : Nat) (v : Word) : (s.sysPut o v).cc = s.cc := rfl
@[simp] theorem sysPut_cur (o : Nat) (v : Word) : (s.sysPut o v).cur = s.cur := rfl
@[simp] theorem sysPut_sched (o : Nat) (v : Word) : (s.sysPut o v).sched = s.sched := rfl
@[simp] theorem sysPut_freeCtr (o : Nat) (v : Word) : (s.sysPut o v).freeCtr = s.freeCtr := rfl
@[simp] theorem sysPut_dram (o : Nat) (v : Word) : (s.sysPut o v).dram = s.dram := rfl
@[simp] theorem sysPut_cwnN (o : Nat) (v : Word) : (s.sysPut o v).cwnN = s.cwnN := rfl
@[simp] theorem sysPut_cwnS (o : Nat) (v : Word) : (s.sysPut o v).cwnS = s.cwnS := rfl
@[simp] theorem sysPut_launches (o : Nat) (v : Word) : (s.sysPut o v).launches = s.launches := rfl
@[simp] theorem sysPut_placing (o : Nat) (v : Word) : (s.sysPut o v).placing = s.placing := rfl
@[simp] theorem sysPut_queues (o : Nat) (v : Word) : (s.sysPut o v).queues = s.queues := rfl
@[simp] theorem sysPut_nextLid (o : Nat) (v : Word) : (s.sysPut o v).nextLid = s.nextLid := rfl
@[simp] theorem sysPut_anoles (o : Nat) (v : Word) : (s.sysPut o v).anoles = s.anoles := rfl
@[simp] theorem sysPut_tlbs (o : Nat) (v : Word) : (s.sysPut o v).tlbs = s.tlbs := rfl
@[simp] theorem sysPut_walks (o : Nat) (v : Word) : (s.sysPut o v).walks = s.walks := rfl
@[simp] theorem sysPut_shoots (o : Nat) (v : Word) : (s.sysPut o v).shoots = s.shoots := rfl
@[simp] theorem sysPut_evSeq (o : Nat) (v : Word) : (s.sysPut o v).evSeq = s.evSeq := rfl
@[simp] theorem sysPut_rel (o : Nat) (v : Word) : (s.sysPut o v).rel = s.rel := rfl
@[simp] theorem sysPut_firm (o : Nat) (v : Word) : (s.sysPut o v).firm = s.firm := rfl
@[simp] theorem sysPut_link (o : Nat) (v : Word) : (s.sysPut o v).link = s.link := rfl
@[simp] theorem sysPut_host (o : Nat) (v : Word) : (s.sysPut o v).host = s.host := rfl
@[simp] theorem sysPut_kv (o : Nat) (v : Word) : (s.sysPut o v).kv = s.kv := rfl
@[simp] theorem sysPut_openings (o : Nat) (v : Word) : (s.sysPut o v).openings = s.openings := rfl
@[simp] theorem sysPut_opens (o : Nat) (v : Word) : (s.sysPut o v).opens = s.opens := rfl
@[simp] theorem sysPut_oldCode (o : Nat) (v : Word) : (s.sysPut o v).oldCode = s.oldCode := rfl
@[simp] theorem sysPut_lags (o : Nat) (v : Word) : (s.sysPut o v).lags = s.lags := rfl

/-! ### Reading back -/

variable {s} {lid} {k} {a}

theorem find_map_id {α : Type} (p : α → Bool) (f : α → α) (hp : ∀ x, p (f x) = p x) (xs : List α) :
    (xs.map fun x => if p x then f x else x).find? p = (xs.find? p).map f := by
  induction xs with
  | nil => rfl
  | cons x t ih =>
      by_cases hx : p x = true
      · simp [hx, hp]
      · simp [hx, ih]

theorem find_map_other {α : Type} (p q : α → Bool) (f : α → α) (hq : ∀ x, p x = true → q (f x) = q x)
    (hn : ∀ x, q x = true → p x = false) (xs : List α) : (xs.map fun x => if p x then f x else x).find? q = xs.find? q := by
  induction xs with
  | nil => rfl
  | cons x t ih =>
      by_cases hx : p x = true
      · have hqx : q x = false := by
          cases hqx : q x with
          | false => rfl
          | true => rw [hn x hqx] at hx; cases hx
        simp [hx, hq x hx, hqx, ih]
      · cases hqx : q x <;> simp [hx, hqx, ih]

/-- A launch after a change of it that keeps its number. -/
theorem launch_modLaunch (f : Launch → Launch) (hf : ∀ l, (f l).lid = l.lid) : (s.modLaunch lid f).launch? lid = (s.launch? lid).map f :=
  find_map_id (fun l : Launch => l.lid == lid) f (fun l => by simp [hf]) s.launches

/-- Another launch after a change. -/
theorem launch_modLaunch_ne {n : Nat} (hn : n ≠ lid) (f : Launch → Launch) (hf : ∀ l, (f l).lid = l.lid) :
    (s.modLaunch lid f).launch? n = s.launch? n :=
  find_map_other (fun l : Launch => l.lid == lid) (fun l : Launch => l.lid == n) f (fun l _ => by simp [hf]) (fun l h => by simp_all) s.launches

theorem copy_modCopy {l : Launch} {r : Role} (g : Copy → Copy) (hg : ∀ c, (g c).role = c.role) : (l.modCopy r g).copy? r = (l.copy? r).map g :=
  find_map_id (fun c : Copy => c.role == r) g (fun c => by simp [hg]) l.copies

theorem copy_modCopy_ne {l : Launch} {r q : Role} (hr : q ≠ r) (g : Copy → Copy) (hg : ∀ c, (g c).role = c.role) :
    (l.modCopy r g).copy? q = l.copy? q :=
  find_map_other (fun c : Copy => c.role == r) (fun c : Copy => c.role == q) g (fun c _ => by simp [hg])
    (fun c h => by have : c.role = q := by simpa using h
                   simp [this, hr]) l.copies

theorem core_modCore {c : Copy} {n : Nat} (h : Core → Core) (hh : ∀ x, (h x).rank = x.rank) : (c.modCore n h).core? n = (c.core? n).map h :=
  find_map_id (fun x : Core => x.rank == n) h (fun x => by simp [hh]) c.cores

theorem core_modCore_ne {c : Copy} {n m : Nat} (hm : m ≠ n) (h : Core → Core) (hh : ∀ x, (h x).rank = x.rank) :
    (c.modCore n h).core? m = c.core? m :=
  find_map_other (fun x : Core => x.rank == n) (fun x : Core => x.rank == m) h (fun x _ => by simp [hh]) (fun x e => by simp_all) c.cores

/-- A launch after a change of one of its cores. -/
theorem launch_modCore (h : Core → Core) :
    (s.modCore k h).launch? k.lid = (s.launch? k.lid).map fun l => l.modCopy k.role fun c => c.modCore k.rank h :=
  launch_modLaunch _ fun _ => rfl

/-- A copy after a change of one of its cores. -/
theorem copy_modCore (h : Core → Core) : (s.modCore k h).copy? k = (s.copy? k).map fun c => c.modCore k.rank h := by
  simp only [State.copy?, launch_modCore]
  cases s.launch? k.lid with
  | none => rfl
  | some l => exact copy_modCopy _ fun _ => rfl

/-- A core after a change of it that keeps its rank. -/
theorem coreAt_modCore (h : Core → Core) (hh : ∀ x, (h x).rank = x.rank) : (s.modCore k h).core? k = (s.core? k).map h := by
  simp only [State.core?, copy_modCore]
  cases s.copy? k with
  | none => rfl
  | some c => exact core_modCore h hh

/-- Another core after a change. -/
theorem coreAt_modCore_ne {j : CoreRef} (hj : j ≠ k) (h : Core → Core) (hh : ∀ x, (h x).rank = x.rank) :
    (s.modCore k h).core? j = s.core? j := by
  obtain ⟨lid, role, rank⟩ := j
  by_cases h1 : lid = k.lid
  · subst h1
    simp only [State.core?, State.copy?, launch_modCore]
    cases s.launch? k.lid with
    | none => rfl
    | some l =>
        simp only [Option.map_some, Option.bind_some]
        by_cases h2 : role = k.role
        · subst h2
          rw [copy_modCopy (fun c : Copy => c.modCore k.rank h) fun _ => rfl]
          cases l.copy? k.role with
          | none => rfl
          | some c =>
              simp only [Option.map_some, Option.bind_some]
              refine core_modCore_ne ?_ h hh
              intro e
              exact hj (by cases k; simp_all)
        · rw [copy_modCopy_ne h2 (fun c : Copy => c.modCore k.rank h) fun _ => rfl]
  · have e : (s.modCore k h).launch? lid = s.launch? lid := launch_modLaunch_ne h1 _ fun _ => rfl
    simp only [State.core?, State.copy?, e]

/-- Two changes of one core are one. -/
theorem modCore_modCore (h h' : Core → Core) (hh : ∀ x, (h x).rank = x.rank) :
    (s.modCore k h).modCore k h' = s.modCore k fun x => h' (h x) := by
  simp only [State.modCore, State.modCopy, State.modLaunch, List.map_map]
  congr 1
  refine List.map_congr_left fun l _ => ?_
  by_cases h1 : (l.lid == k.lid) = true
  · simp only [Function.comp, h1, if_true, Launch.modCopy, List.map_map]
    congr 1
    refine List.map_congr_left fun c _ => ?_
    by_cases h2 : (c.role == k.role) = true
    · simp only [Function.comp, h2, if_true, Copy.modCore, List.map_map]
      congr 1
      refine List.map_congr_left fun x _ => ?_
      by_cases h3 : (x.rank == k.rank) = true
      · simp only [Function.comp, h3, if_true, hh]
      · simp [Function.comp, h3]
    · simp [Function.comp, h2]
  · simp [Function.comp, h1]

/-- The registers of an agent after a change of them. -/
theorem regsOf_modRegsOf (u : Regs → Regs) : (s.modRegsOf a u).regsOf? a = (s.regsOf? a).map u := by
  cases a with
  | none => rfl
  | vec k => rfl
  | anole i => simp [State.modRegsOf, State.regsOf?, State.modAnole]
  | core k =>
      simp only [State.modRegsOf, State.regsOf?]
      rw [coreAt_modCore (fun c => { c with regs := u c.regs }) fun _ => rfl]
      cases s.core? k <;> rfl

theorem modRegsOf_core (u : Regs → Regs) : s.modRegsOf (.core k) u = s.modCore k fun c => { c with regs := u c.regs } := rfl
theorem modRegsOf_anole (i : BitVec 4) (u : Regs → Regs) : s.modRegsOf (.anole i) u = s.modAnole i fun c => { c with regs := u c.regs } := rfl

end Sys2Proof.Laws
end

