-- ==== Sys2Proof/Laws/Access.lean ====
section
/-! SUPPORT. Accesses: pointers as numbers, what the checks of an Anole core and its reads, writes and atomics come to, and which bytes
a write of device memory leaves alone. -/

namespace Sys2Proof.Laws

open Sys2Proof.Machine

theorem modRegsOf_modRegsOf (s : State) (a : Agent) (u v : Regs → Regs) : (s.modRegsOf a u).modRegsOf a v = s.modRegsOf a fun r => v (u r) := by
  cases a with
  | none => rfl
  | vec k => rfl
  | anole i => simp [State.modRegsOf, State.modAnole]
  | core k => exact modCore_modCore (fun c => { c with regs := u c.regs }) (fun c => { c with regs := v c.regs }) fun _ => rfl

theorem fieldNat_eq {k : Nat} (w : BitVec k) (lo n : Nat) : fieldNat w lo n = w.toNat / 2 ^ lo % 2 ^ n := by
  simp [fieldNat, Nat.shiftRight_eq_div_pow]

theorem smAddr_eq (r : Regs) (a : BitVec 6) (z : BitVec 2) (o : BitVec 8) : smAddr r a z o = memAddr r a z o := by
  unfold smAddr memAddr
  rw [tadd_value]
  congr 1
  rw [ofS, BitVec.ofInt_mul]
  congr 1

theorem anCheck_ok {s : State} {p : Word} {n align off : Nat} {k : Kind} (h : AnolePlace s p n align off) : anCheck p n align k = .ok (.mem off) := by
  have h1 := h.virt
  have h2 := h.offset
  have e1 : ptrSpace p = 0 := by rw [ptrSpace, fieldNat_eq]; omega
  have e2 : fieldNat p 48 12 = 0 := by rw [fieldNat_eq]; omega
  have e3 : ptrOff p = off := by rw [ptrOff, fieldNat_eq]; omega
  unfold anCheck
  simp [e1, e2, e3, h.range, h.aligned]

@[simp] theorem orRaise_ok {α : Type} (a : α) : (orRaise (.ok a) : Act α) = pure a := rfl

@[simp] theorem orRaise_error {α : Type} (t : Trap) : (orRaise (.error t) : Act α) = raise t := rfl

theorem loadBytes_anole {s : State} {a : BitVec 4} (h : s.cur = .anole a) (p : Word) (n al : Nat) : loadBytes p n al s = anRead p n al .read s := by
  unfold loadBytes
  rw [bind_ok (get_run)]
  rw [h]

theorem storeBytes_anole {s : State} {a : BitVec 4} (h : s.cur = .anole a) (p : Word) (bs : List Byte) (al : Nat) (o : OpDesc) : storeBytes p bs al o s = anWrite p bs al s := by
  unfold storeBytes
  rw [bind_ok (get_run)]
  rw [h]

/-- What reading writes on their way can do: it answers as many bytes, and changes those writes and the free choices only. -/
theorem readLags_frame (a d : Nat) : ∀ (gs : List LagWrite) (bs : List (Bool × Byte)) (s : State),
    ∃ b' ls n, readLags a d gs bs s = .ok (b', { s with lags := ls, freeCtr := n }) ∧ b'.length = bs.length := by
  intro gs
  induction gs with
  | nil => intro bs s; exact ⟨bs, s.lags, s.freeCtr, rfl, rfl⟩
  | cons g t ih =>
      intro bs s
      unfold readLags
      by_cases h : (!g.touches d bs.length) = true
      · rw [if_pos h]
        exact ih bs s
      · rw [if_neg h]
        by_cases hs : g.seen.contains a = true
        · simp only [hs, if_true, pure_bind_act]
          rw [bind_ok (modify_run _)]
          obtain ⟨b', ls, n, e, hl⟩ := ih _ _
          exact ⟨b', ls, n, e, by simpa using hl⟩
        · simp only [hs, if_false, Bool.false_eq_true]
          rw [bind_ok (s' := { s with freeCtr := s.freeCtr + 1 }) (a := Config.freeBool s.freeCtr) rfl]
          cases Config.freeBool s.freeCtr with
          | true =>
              simp only [if_true]
              rw [bind_ok (modify_run _)]
              obtain ⟨b', ls, n, e, hl⟩ := ih _ _
              exact ⟨b', ls, n, e, by simpa using hl⟩
          | false =>
              simp only [if_false, Bool.false_eq_true]
              obtain ⟨b', ls, n, e, hl⟩ := ih _ _
              exact ⟨b', ls, n, e, by simpa using hl⟩

/-- An agent that has seen every write on its way to some bytes reads them as they stand. -/
theorem readLags_seen (a d : Nat) : ∀ (gs : List LagWrite) (bs : List (Bool × Byte)) (s : State),
    (∀ g ∈ gs, g.touches d bs.length = true → g.seen.contains a = true) →
    ∃ b' ls, readLags a d gs bs s = .ok (b', { s with lags := ls }) ∧ b'.map Prod.snd = bs.map Prod.snd := by
  intro gs
  induction gs with
  | nil => intro bs s _; exact ⟨bs, s.lags, rfl, rfl⟩
  | cons g t ih =>
      intro bs s hg
      have ht : ∀ x ∈ t, x.touches d bs.length = true → x.seen.contains a = true := fun x hx => hg x (List.mem_cons_of_mem _ hx)
      unfold readLags
      by_cases h : (!g.touches d bs.length) = true
      · rw [if_pos h]
        exact ih bs s ht
      · rw [if_neg h]
        have hs := hg g (List.mem_cons_self ..) (by simpa using h)
        simp only [hs, if_true, pure_bind_act]
        rw [bind_ok (modify_run _)]
        obtain ⟨b', ls, e, hl⟩ := ih (bs.zipIdx.map fun p => (p.1.1 || (decide (g.dpa ≤ d + p.2) && decide (d + p.2 < g.dpa + g.old.length)), p.1.2)) _
          (by simpa using ht)
        refine ⟨b', ls, e, hl.trans ?_⟩
        apply List.ext_getElem <;> simp

theorem dpaBytes_length (s : State) (d n : Nat) : (s.dpaBytes d n).length = n := by
  unfold State.dpaBytes; split <;> simp [Store.bytes]

theorem anRead_ok {s : State} {p : Word} {n align off : Nat} {k : Kind} (h : AnolePlace s p n align off) (hb : s.dram.badIn off n = false)
    (hg : ∀ g ∈ s.lags, g.touches off n = true → g.seen.contains s.anAgent = true) :
    ∃ ls, anRead p n align k s = .ok (s.dpaBytes off n, { s with lags := ls }) := by
  unfold anRead
  rw [anCheck_ok h, orRaise_ok, pure_bind_act, bind_ok get_run]
  simp only [h.ready, hb, Bool.not_true, holdIf_false, raiseIf_false, pure_bind_act]
  unfold lagBytes
  rw [bind_ok get_run]
  obtain ⟨b', ls, e, hl⟩ := readLags_seen s.anAgent off s.lags.reverse ((s.dpaBytes off n).map fun b => (false, b)) s (by
    intro g hm; simpa [dpaBytes_length] using hg g (by simpa using hm))
  refine ⟨ls, (bind_ok e).trans ?_⟩
  simp only [pure_run, Except.ok.injEq, Prod.mk.injEq, and_true]
  rw [show (fun p : Bool × Byte => p.2) = Prod.snd from rfl, hl]
  simp

theorem overtake_none {s : State} (h : s.host.writes = []) (d n : Nat) : s.overtake d n = s := by
  unfold State.overtake; rw [h]; rfl

/-- What a write at its home does: its bytes are in memory; who sees them is another matter. -/
theorem lagPut_eq (s : State) (ws : List Nat) (b : Bool) (d : Nat) (bs : List Byte) :
    ∃ ls oc, s.lagPut ws b d bs = { s with dram := s.dram.put d bs, lags := ls, oldCode := oc } := by
  unfold State.lagPut
  split
  · exact ⟨_, _, rfl⟩
  · exact ⟨_, _, rfl⟩

theorem outsideLag_eq {s : State} (h : s.firm.save = none) (ws : List Nat) (b : Bool) (d : Nat) (bs : List Byte) :
    ∃ ls oc, s.outsideLag ws b d bs = { s with dram := s.dram.put d bs, lags := ls, oldCode := oc } := by
  unfold State.outsideLag
  obtain ⟨ls, oc, e⟩ := lagPut_eq s ws b d bs
  rw [e]
  unfold State.saveTouch
  rw [h]
  exact ⟨_, _, rfl⟩

theorem anWrite_ok {s : State} {p : Word} {align off : Nat} {bs : List Byte} (h : AnolePlace s p bs.length align off) (hb : s.dram.partBad off bs.length = false)
    (hw : s.host.writes = []) (hs : s.firm.save = none) :
    ∃ ls oc, anWrite p bs align s = .ok ((), { s with dram := s.dram.put off bs, lags := ls, oldCode := oc }) := by
  unfold anWrite
  simp only [anCheck_ok h, orRaise_ok, pure_bind_act]
  rw [bind_ok get_run]
  simp only [h.ready, hb, Bool.not_true, holdIf_false, raiseIf_false, pure_bind_act]
  rw [set_run, overtake_none hw]
  obtain ⟨ls, oc, e⟩ := outsideLag_eq hs [s.anAgent] false off bs
  rw [e]
  exact ⟨_, _, rfl⟩

theorem cellGet_set_other (d : Byte) (a c : Nat) (v : Byte) (hc : c ≠ a) : ∀ xs, cellGet d c (cellSet d a v xs) = cellGet d c xs := by
  intro xs
  induction xs with
  | nil => unfold cellSet; split <;> simp [cellGet, Ne.symm hc]
  | cons x t ih =>
      obtain ⟨b, w⟩ := x
      unfold cellSet
      split
      · split
        · rfl
        · simp [cellGet, Ne.symm hc]
      · split
        · subst_vars
          split
          · simp [cellGet, Ne.symm hc]
          · simp [cellGet, Ne.symm hc]
        · simp [cellGet, ih]

theorem get_fill_outside (m : Store) (bs : List Byte) : ∀ a c, (c < a ∨ a + bs.length ≤ c) → ∀ m : Store, (m.fill a bs).get c = m.get c := by
  induction bs with
  | nil => intro a c _ m; rfl
  | cons v t ih =>
      intro a c h m
      simp only [List.length_cons] at h
      rw [Store.fill, ih (a + 1) c (by omega)]
      exact cellGet_set_other _ _ _ _ (by omega) _

theorem get_put_outside (m : Store) (bs : List Byte) (a c : Nat) (h : c < a ∨ a + bs.length ≤ c) : (m.put a bs).get c = m.get c :=
  get_fill_outside m bs a c h m

theorem storedAt_put (s : State) (off : Nat) (bs : List Byte) : storedAt s (s.dramPut off bs) off bs :=
  ⟨rfl, fun x h => get_put_outside _ _ _ _ h⟩

theorem natLe_length (n v : Nat) : (natLe n v).length = n := by
  induction n generalizing v with
  | zero => rfl
  | succ n ih => simp [natLe, ih]

theorem anoleFrame_mod (s : State) (a : BitVec 4) (off : Nat) (bs : List Byte) (ls : List LagWrite) (oc) (f : Regs → Regs) :
    anoleFrame s (State.modRegsOf { s with dram := s.dram.put off bs, lags := ls, oldCode := oc } (.anole a) f) a := by
  refine ⟨?_, rfl, rfl, rfl, rfl, rfl, rfl, rfl, rfl, rfl, rfl, rfl⟩
  intro b hb
  cases b with
  | none => rfl
  | vec k => rfl
  | core k => rfl
  | anole j =>
      have : j.toNat ≠ a.toNat := fun e => hb (by rw [BitVec.eq_of_toNat_eq e])
      simp [State.modRegsOf, State.modAnole, State.regsOf?, Vector.getElem_set, Ne.symm this]

theorem regs_mod (s : State) (a : BitVec 4) (hc : s.cur = .anole a) (r : Regs) (hr : s.regs? = some r) (off : Nat) (bs : List Byte) (ls : List LagWrite) (oc) (f : Regs → Regs) :
    (State.modRegsOf { s with dram := s.dram.put off bs, lags := ls, oldCode := oc } (.anole a) f).regs? = some (f r) := by
  simp only [State.regs?, hc] at hr ⊢
  simp only [modRegsOf_cur]
  rw [regsOf_modRegsOf]
  rw [show (State.regsOf? { s with dram := s.dram.put off bs, lags := ls, oldCode := oc, cur := .anole a } (.anole a)) = s.regsOf? (.anole a) from rfl, hr]; rfl

theorem amoAnole_ok {s : State} {p : Word} {x : Amo} {off : Nat} (h : AnolePlace s p x.n x.n off) (hk : off / 2 ^ 44 < 2) (hb : s.dram.badIn off x.n = false)
    (hw : s.host.writes = []) (hs : s.firm.save = none) : ∃ ls oc, amoAnole x p s = .ok (oldWords (s.dram.bytes off x.n),
      { s with dram := s.dram.put off (x.apply (s.dram.bytes off x.n)), lags := ls, oldCode := oc }) := by
  unfold amoAnole
  simp only [anCheck_ok h, orRaise_ok, pure_bind_act]
  rw [bind_ok get_run]
  have e2 : (off / 2 ^ 44 == 2) = false := by simp; omega
  have e3 : (off / 2 ^ 44 == 3) = false := by simp; omega
  have e4 : s.dpaBytes off x.n = s.dram.bytes off x.n := by unfold State.dpaBytes; rw [hw]; rfl
  simp only [h.ready, hb, e2, e3, Bool.not_true, Bool.or_self, Bool.false_and, holdIf_false, raiseIf_false, pure_bind_act]
  unfold State.amoAt
  simp only [overtake_none hw, e4]
  obtain ⟨ls, oc, e⟩ := outsideLag_eq hs [s.anAgent] false off (x.apply (s.dram.bytes off x.n))
  refine ⟨ls, oc, ?_⟩
  rw [e]
  rfl

theorem amo_anole {s : State} {a : BitVec 4} {r : Regs} {x : Amo} {d ra rb : BitVec 6} {o : BitVec 2} {w : Word → Word → Act Unit} {lo hi : Word} {s1 s2 : State}
    (hc : s.cur = .anole a) (hr : s.regs? = some r) (h : amoAnole x (r.get rb) s = .ok ((lo, hi), s1)) (h2 : w lo hi s1 = .ok ((), s2)) :
    amo x d ra rb o s w = .next (s2.modRegsOf (.anole a) fun r => r.skip 4) := by
  unfold amo
  rw [scalar_on hr (by simp [Regs.guard, Regs.pred])]
  rw [runAct_adv (s' := s2), hc]
  rw [bind_ok get_run]
  rw [hc]
  refine (bind_ok h).trans ?_
  exact bind_ok h2

theorem toSigned_eq (n v : Nat) : toSigned n v = signedOf n v := by
  unfold toSigned signedOf; push_cast; rfl

theorem leNat_lt (bs : List Byte) : leNat bs < 2 ^ (8 * bs.length) := by
  induction bs with
  | nil => simp [leNat]
  | cons b t ih =>
      simp only [leNat, List.length_cons]
      have := b.isLt
      have e : 2 ^ (8 * (t.length + 1)) = 256 * 2 ^ (8 * t.length) := by rw [show 8 * (t.length + 1) = 8 + 8 * t.length by omega, Nat.pow_add]
      omega

theorem bytes_length (m : Store) (a n : Nat) : (m.bytes a n).length = n := by simp [Store.bytes]

theorem setX_anole (s : State) (a : BitVec 4) (hc : s.cur = .anole a) (d : BitVec 6) (v : Word) : setX d v s = .ok ((), s.modRegsOf (.anole a) fun r => r.set d v) := by
  rw [setX_run, State.modRegs, hc]

theorem amo_finish {s : State} {a : BitVec 4} {r : Regs} {x : Amo} {d ra rb : BitVec 6} {o : BitVec 2} {w : Word → Word → Word} {m : AmoForm} {off : Nat}
    (hc : s.cur = .anole a) (hr : s.regs? = some r) (h : AnolePlace s (r.get rb) x.n x.n off) (hk : off / 2 ^ 44 < 2) (hb : s.dram.badIn off x.n = false)
    (hw : s.host.writes = []) (hs : s.firm.save = none) (hn : m.n = x.n) (hd : m.rd = d)
    (hnew : amoNew x.op x.n (leNat (s.dram.bytes off x.n)) x.opnd x.cmp = m.new (leNat (s.dram.bytes off x.n)) ((r.get m.ra).toNat % 2 ^ (8 * m.n)) ((r.get m.rd).toNat % 2 ^ (8 * m.n)))
    (hret : w (oldWords (s.dram.bytes off x.n)).1 (oldWords (s.dram.bytes off x.n)).2 = m.ret (leNat (s.dram.bytes off x.n))) :
    ∃ t, amo x d ra rb o s (fun lo hi => setX d (w lo hi)) = .next t ∧
      storedAt s t off (natLe m.n (m.new (leNat (s.dram.bytes off m.n)) ((r.get m.ra).toNat % 2 ^ (8 * m.n)) ((r.get m.rd).toNat % 2 ^ (8 * m.n)))) ∧
      t.regs? = some ((r.set m.rd (m.ret (leNat (s.dram.bytes off m.n)))).skip 4) ∧ anoleFrame s t a := by
  obtain ⟨ls, oc, h1⟩ := amoAnole_ok h hk hb hw hs
  have h3 := amo_anole (d := d) (ra := ra) (rb := rb) (o := o) (w := fun lo hi => setX d (w lo hi)) hc hr h1 (setX_anole _ a (by exact hc) d _)
  rw [modRegsOf_modRegsOf] at h3
  refine ⟨_, h3, ?_, ?_, ?_⟩
  · rw [hn] at hnew ⊢
    rw [← hnew]
    exact ⟨by rw [modRegsOf_dram]; rfl, fun y hy => by rw [modRegsOf_dram]; exact get_put_outside _ _ _ _ hy⟩
  · rw [hn, hd, ← hret]
    exact regs_mod s a hc r hr off _ _ _ _
  · exact anoleFrame_mod s a off _ _ _ _

theorem ret32 (v : Word) (n : Nat) (h : v = BitVec.ofNat 64 n) (hn : n < 2 ^ 32) : (v.setWidth 32).signExtend 64 = lowSigned 32 (ofU n) := by
  subst h; exact sext_value 32 (by decide) (by decide) _

theorem old_lo4 (m : Store) (off : Nat) : (oldWords (m.bytes off 4)).1 = ofU (leNat (m.bytes off 4)) := by
  unfold oldWords; rw [List.take_of_length_le (by rw [bytes_length]; omega)]; rfl

theorem old_lo8 (m : Store) (off : Nat) : (oldWords (m.bytes off 8)).1 = ofU (leNat (m.bytes off 8)) := by
  unfold oldWords; rw [List.take_of_length_le (by rw [bytes_length])]; rfl

theorem amoInt_ok {s : State} {a : BitVec 4} {r : Regs} {op : AmoOp} {d ra rb : BitVec 6} {z o : BitVec 2} {f : Nat → Nat → Nat → Nat → Nat} {m : AmoForm} {off : Nat}
    (hm : amoForm d ra rb z o f = some m) (hf : ∀ n old x c, old < 2 ^ (8 * n) → x < 2 ^ (8 * n) → amoNew op n old x c = f (8 * n) old x c)
    (hc : s.cur = .anole a) (hr : s.regs? = some r) (h : AnolePlace s (r.get m.rb) m.n m.n off) (hk : off / 2 ^ 44 < 2) (hb : s.dram.badIn off m.n = false)
    (hw : s.host.writes = []) (hs : s.firm.save = none) :
    ∃ t, amoInt op d ra rb z o s = .next t ∧
      storedAt s t off (natLe m.n (m.new (leNat (s.dram.bytes off m.n)) ((r.get m.ra).toNat % 2 ^ (8 * m.n)) ((r.get m.rd).toNat % 2 ^ (8 * m.n)))) ∧
      t.regs? = some ((r.set m.rd (m.ret (leNat (s.dram.bytes off m.n)))).skip 4) ∧ anoleFrame s t a := by
  unfold amoInt
  simp only [hr]
  unfold amoForm at hm
  by_cases hz : z = 1#2
  · subst hz
    rw [if_pos rfl] at hm
    cases hm
    refine amo_finish (m := ⟨d, ra, rb, o, 4, f 32, fun v => lowSigned 32 (ofU v)⟩) hc hr h hk hb hw hs rfl rfl (hf 4 _ _ _ ?_ ?_) ?_
    · have := leNat_lt (s.dram.bytes off (amoBytes 1#2)); rwa [bytes_length] at this
    · exact Nat.mod_lt _ (by decide)
    · show (if (1#2 : BitVec 2) = 1#2 then _ else _) = _
      rw [if_pos rfl, show amoBytes 1#2 = 4 from rfl, old_lo4]
      exact sext_value 32 (by decide) (by decide) _
  · rw [if_neg hz] at hm
    cases hm
    have e : amoBytes z = 8 := if_neg hz
    rw [e]
    refine amo_finish (m := ⟨d, ra, rb, o, 8, f 64, ofU⟩) hc hr h hk hb hw hs rfl rfl (hf 8 _ _ _ ?_ ?_) ?_
    · have := leNat_lt (s.dram.bytes off 8); rwa [bytes_length] at this
    · exact Nat.mod_lt _ (by decide)
    · show (if z = 1#2 then _ else _) = _
      rw [if_neg hz, old_lo8]

end Sys2Proof.Laws
end

