-- ==== Sys2Proof/Laws/Core.lean ====
section
/-! SUPPORT. One core of a launch: what finding it says of its rank and role, what a change of it leaves alone (`onlyCore`), and what its
checks and accesses to its own scratchpad come to. -/

namespace Sys2Proof.Laws

open Sys2Proof.Machine

set_option Elab.async false

variable {s : State} {k : CoreRef} {l : Launch} {cp : Copy} {c : Core} {q : Pad} {p : Word} {n al off : Nat}


theorem ctxOf_run (h1 : s.launch? k.lid = some l) (h2 : s.copy? k = some cp) (h3 : s.core? k = some c) : ctxOf k s = .ok ((l, cp, c), s) := by
  simp [ctxOf, h1, h2, h3]

theorem rank_of_core (h2 : s.copy? k = some cp) (h3 : s.core? k = some c) : c.rank = k.rank ∧ c ∈ cp.cores := by
  simp only [State.core?, h2, Option.bind_some, Copy.core?] at h3
  exact ⟨by simpa using List.find?_some h3, List.mem_of_find?_eq_some h3⟩

theorem role_of_copy (h1 : s.launch? k.lid = some l) (h2 : s.copy? k = some cp) : cp.role = k.role ∧ cp ∈ l.copies := by
  simp only [State.copy?, h1, Option.bind_some, Launch.copy?] at h2
  exact ⟨by simpa using List.find?_some h2, List.mem_of_find?_eq_some h2⟩

theorem locOf_own (h : OwnPlace cp c q p n al off) : locOf l cp c p n = some (.pad (.usp c.rank) off) := by
  have h1 := h.self
  have h2 := h.offset
  have e1 : ptrSpace p = 7 := by rw [ptrSpace, fieldNat_eq]; omega
  have e2 : ptrOwner p = 0 := by rw [ptrOwner, fieldNat_eq]; omega
  have e3 : ptrOff p = off := by rw [ptrOff, fieldNat_eq]; omega
  unfold locOf
  simp [e1, e2, e3, Core.uspId, h.pad, h.grant]

theorem checkPlace_own {a : Acc} {kd : Kind} (h : OwnPlace cp c q p n al off) : checkPlace a l cp c p n al kd = .ok (.pad (.usp c.rank) off) := by
  unfold checkPlace
  rw [locOf_own h]
  simp [Loc.offset, h.aligned, spaceRule]

theorem racers_rest {a : Acc} {x : Loc} (hr : ∀ d ∈ cp.cores, ∀ m ∈ d.eng.cmds, m.writes = []) : a.racers cp c x = [] := by
  have e : (cp.cores.flatMap fun t => (t.eng.cmds.filter fun m => !m.writes.isEmpty && !(t.rank == c.rank && m.id + 1 == a.owner)).map
      fun m => (atRank a.k t.rank, m)) = [] := by
    rw [List.flatMap_eq_nil_iff]
    intro d hd
    rw [List.map_eq_nil_iff, List.filter_eq_nil_iff]
    intro m hm
    simp [hr d hd m hm]
  unfold Acc.racers
  cases x with
  | pad _ _ => exact e
  | vim _ _ => exact e
  | virt _ _ _ => exact (congrArg (List.filter _) e).trans rfl
  | acc _ => rfl
  | cwn _ _ => rfl
  | sys _ => rfl

theorem raceReads_rest {a : Acc} {x : Loc} (h1 : s.launch? a.k.lid = some l) (h2 : s.copy? a.k = some cp) (h3 : s.core? a.k = some c)
    (hr : ∀ d ∈ cp.cores, ∀ m ∈ d.eng.cmds, m.writes = []) : raceReads a x n s = .ok ((), s) := by
  unfold raceReads
  rw [bind_ok (ctxOf_run h1 h2 h3)]
  simp only [racers_rest hr]
  rfl

theorem launch_modLaunch_any (s : State) (lid n : Nat) (f : Launch → Launch) (hf : ∀ l, (f l).lid = l.lid) :
    (s.modLaunch lid f).launch? n = (s.launch? n).map fun l => if n = lid then f l else l := by
  by_cases h : n = lid
  · subst h; simp only [if_true]; exact launch_modLaunch f hf
  · simp only [h, if_false, Option.map_id']; exact launch_modLaunch_ne h f hf

theorem copy_modCopy_any (s : State) (k j : CoreRef) (g : Copy → Copy) (hg : ∀ c, (g c).role = c.role) :
    (s.modCopy k g).copy? j = (s.copy? j).map fun c => if j.lid = k.lid ∧ j.role = k.role then g c else c := by
  unfold State.modCopy State.copy?
  rw [launch_modLaunch_any s k.lid j.lid (fun l => l.modCopy k.role g) (fun _ => rfl)]
  cases s.launch? j.lid with
  | none => rfl
  | some l =>
      simp only [Option.map_some, Option.bind_some]
      by_cases h : j.lid = k.lid
      · simp only [h, if_true, true_and]
        by_cases h2 : j.role = k.role
        · simp only [h2, if_true]; exact copy_modCopy g hg
        · simp only [h2, if_false, Option.map_id']; exact copy_modCopy_ne h2 g hg
      · simp [h]
/-- What a change of one core leaves outside the cores: everything. -/

theorem outsideCores_modCore (s : State) (k : CoreRef) (f : Core → Core) : outsideCores s (s.modCore k f) := by
  have hc : ∀ j, (s.modCore k f).copy? j = (s.copy? j).map fun c => if j.lid = k.lid ∧ j.role = k.role then c.modCore k.rank f else c :=
    fun j => copy_modCopy_any s k j _ fun _ => rfl
  refine ⟨?_, ?_, ?_, rfl, rfl, rfl, rfl, rfl, rfl, rfl, rfl, rfl, rfl, rfl⟩
  · intro j p
    rw [hc]
    cases s.copy? j with
    | none => rfl
    | some c => simp only [Option.map_some, Option.bind_some]; split <;> rfl
  · intro j
    rw [hc]
    cases s.copy? j with
    | none => rfl
    | some c => simp only [Option.map_some]; split <;> rfl
  · intro n
    show ((s.modLaunch k.lid _).launch? n).map _ = _
    rw [launch_modLaunch_any s k.lid n (fun l => l.modCopy k.role fun c => c.modCore k.rank f) (fun _ => rfl)]
    cases s.launch? n with
    | none => rfl
    | some l => simp only [Option.map_some]; split <;> rfl

theorem outsideCores_trans {s t u : State} (h : outsideCores s t) (h' : outsideCores t u) : outsideCores s u := by
  obtain ⟨a1, a2, a3, a4, a5, a6, a7, a8, a9, a10, a11, a12, a13, a14⟩ := h
  obtain ⟨b1, b2, b3, b4, b5, b6, b7, b8, b9, b10, b11, b12, b13, b14⟩ := h'
  exact ⟨fun j p => (b1 j p).trans (a1 j p), fun j => (b2 j).trans (a2 j), fun n => (b3 n).trans (a3 n), b4.trans a4, b5.trans a5, b6.trans a6, b7.trans a7, b8.trans a8, b9.trans a9, b10.trans a10, b11.trans a11, b12.trans a12, b13.trans a13, b14.trans a14⟩
/-- A change of one core that keeps its rank. -/

theorem onlyCore_modCore {s : State} {k : CoreRef} {c : Core} (f : Core → Core) (hf : ∀ x, (f x).rank = x.rank) (hc : s.core? k = some c) :
    onlyCore s (s.modCore k f) k (f c) :=
  ⟨by rw [coreAt_modCore f hf, hc]; rfl, fun j hj => coreAt_modCore_ne hj f hf, outsideCores_modCore s k f⟩
/-- Two changes of one core. -/

theorem onlyCore_trans {s t u : State} {k : CoreRef} {c d : Core} (h : onlyCore s t k c) (h' : onlyCore t u k d) : onlyCore s u k d :=
  ⟨h'.1, fun j hj => (h'.2.1 j hj).trans (h.2.1 j hj), outsideCores_trans h.2.2 h'.2.2⟩
/-- A change of what a copy holds besides its cores that its own readers cannot see. -/

theorem onlyCore_modCopy {s : State} {k : CoreRef} {cp : Copy} {c : Core} (g : Copy → Copy) (hc : s.core? k = some c) (hp : s.copy? k = some cp)
    (hr : ∀ x, (g x).role = x.role) (hco : ∀ x, (g x).cores = x.cores) (hpads : ∀ p, (g cp).pad? p = cp.pad? p)
    (hh : (g cp).home = cp.home) (hb : (g cp).binding = cp.binding) (hrep : (g cp).replay = cp.replay) : onlyCore s (s.modCopy k g) k c := by
  have hcp := copy_modCopy_any s k
  have hcore : ∀ j, (s.modCopy k g).core? j = s.core? j := by
    intro j
    unfold State.core?
    rw [hcp j g hr]
    cases s.copy? j with
    | none => rfl
    | some x => simp only [Option.map_some, Option.bind_some, Copy.core?]; split <;> simp [hco]
  have hsame : ∀ j : CoreRef, j.lid = k.lid ∧ j.role = k.role → s.copy? j = some cp := by
    intro j ⟨h1, h2⟩
    rw [← hp]; unfold State.copy?; rw [h1, h2]
  refine ⟨(hcore k).trans hc, fun j _ => hcore j, ?_, ?_, ?_, rfl, rfl, rfl, rfl, rfl, rfl, rfl, rfl, rfl, rfl, rfl⟩
  · intro j p
    rw [hcp j g hr]
    by_cases h : j.lid = k.lid ∧ j.role = k.role
    · rw [hsame j h]; simp only [Option.map_some, Option.bind_some, h, and_self, if_true]; exact hpads p
    · simp [h]
  · intro j
    rw [hcp j g hr]
    by_cases h : j.lid = k.lid ∧ j.role = k.role
    · rw [hsame j h]; simp [h, hh, hb, hrep]
    · simp [h]
  · intro n
    show ((s.modLaunch k.lid _).launch? n).map _ = _
    rw [launch_modLaunch_any s k.lid n (fun l => l.modCopy k.role g) (fun _ => rfl)]
    cases s.launch? n with
    | none => rfl
    | some l => simp only [Option.map_some]; split <;> rfl

theorem pad_modPad (cp : Copy) (p r : PadId) (f : Pad → Pad) (hf : ∀ x, (f x).id = x.id) : (cp.modPad p f).pad? r = (cp.pad? r).map fun x => if r = p then f x else x := by
  by_cases h : r = p
  · subst h; simp only [if_true]; exact find_map_id (fun x : Pad => x.id == r) f (fun x => by simp [hf]) cp.pads
  · simp only [h, if_false, Option.map_id']
    refine find_map_other (fun x : Pad => x.id == p) (fun x : Pad => x.id == r) f (fun x _ => by simp [hf]) ?_ cp.pads
    intro x e
    have : x.id = r := by simpa using e
    simp [this, h]

theorem mend_same (m : Store) (a n : Nat) (h : m.badIn a n = false) : m.mend a n = m := by
  have : m.bad.filter (fun w => !(8 * w < a + n && a < 8 * w + 8 && a ≤ 8 * w + 0 && 8 * w + 8 ≤ a + n + 0)) = m.bad := by
    rw [List.filter_eq_self]
    intro w hw
    unfold Store.badIn at h
    rw [List.any_eq_false] at h
    have := h w hw
    simp at this ⊢
    omega
  unfold Store.mend Store.mendRun
  rw [this]

theorem partBad_of_badIn {m : Store} {a n : Nat} (h : m.badIn a n = false) : m.partBad a n = false := by
  unfold Store.badIn at h; unfold Store.partBad
  rw [List.any_eq_false] at *
  intro w hw
  have := h w hw
  simp at this ⊢
  omega


theorem padByte_rest {w rank : Nat} {pid : PadId} {o : Nat} (hh : cp.home = []) (hq : cp.pad? pid = some q) : cp.padByte w rank [] pid o = q.mem.get o := by
  unfold Copy.padByte; simp [hh, hq]

theorem badTrap_own {a : Acc} {kd : Kind} (hq : cp.pad? (.usp c.rank) = some q) (hb : q.mem.badIn off n = false) :
    badTrap s a cp c (.pad (.usp c.rank) off) n kd none = none := by
  unfold badTrap
  simp [hq, hb]

theorem markRead_rest (hh : cp.home = []) (w rank : Nat) (pid : PadId) (o n : Nat) : cp.markRead w rank pid o n = cp := by
  unfold Copy.markRead; rw [hh]; cases cp; simp_all

theorem markPort_rest (hh : c.port = []) (next : Nat) (pid : PadId) (o n : Nat) : c.markPort next pid o n = c := by
  unfold Core.markPort; rw [hh]; cases c; simp_all

/-- A core, its launch and its copy after a change that leaves the core as given: what the copy holds in its scratchpads and homes is as it was. -/
theorem ctxOf_only {s t : State} {d : Core} (h1 : s.launch? k.lid = some l) (h2 : s.copy? k = some cp) (ho : onlyCore s t k d) :
    ∃ l' cp', ctxOf k t = .ok ((l', cp', d), t) ∧ cp'.home = cp.home ∧ ∀ p, cp'.pad? p = cp.pad? p := by
  obtain ⟨hc, -, hp, hh, hl, -⟩ := ho
  have hl := hl k.lid
  have hp := hp k
  have hh := hh k
  rw [h1] at hl
  rw [h2] at hp hh
  cases e1 : t.launch? k.lid with
  | none => rw [e1] at hl; simp at hl
  | some l' =>
      cases e2 : t.copy? k with
      | none => rw [e2] at hh; simp at hh
      | some cp' =>
          rw [e2] at hh hp
          simp only [Option.map_some, Option.some.injEq, Prod.mk.injEq, Option.bind_some] at hh hp
          exact ⟨l', cp', ctxOf_run e1 e2 hc, hh.1, hp⟩

/-- Reading a core's own unit scratchpad at rest: the bytes as they stand, and nothing changes that an instruction could see. -/
theorem readPiece_own {s : State} {k : CoreRef} {l : Launch} {cp : Copy} {c : Core} {q : Pad} {off n : Nat}
    (h1 : s.launch? k.lid = some l) (h2 : s.copy? k = some cp) (h3 : s.core? k = some c) (hq : cp.pad? (.usp c.rank) = some q)
    (hb : q.mem.badIn off n = false) (hr : cp.atRest) :
    ∃ t l', readPiece (ctlAcc k) (.pad (.usp c.rank) off) n .read s = .ok (q.mem.bytes off n, t) ∧ onlyCore s t k c ∧
      ctxOf k t = .ok ((l', cp, c), t) := by
  have hport := (hr.2 c (rank_of_core h2 h3).2).1
  have hwr : ∀ d ∈ cp.cores, ∀ m ∈ d.eng.cmds, m.writes = [] := fun d hd m hm => ((hr.2 d hd).2 m hm).1
  let s1 := s.modCopy k fun x => x.markRead l.packet.w c.rank (.usp c.rank) off n
  let s2 := s1.modCore k fun x => x.markPort cp.stores (.usp c.rank) off n
  have o1 : onlyCore s s1 k c := onlyCore_modCopy _ h3 h2 (fun _ => rfl) (fun _ => rfl) (fun p => by rw [markRead_rest hr.1]) (by rw [markRead_rest hr.1]) (by rw [markRead_rest hr.1]) (by rw [markRead_rest hr.1])
  have o2 : onlyCore s s2 k c := by
    have := onlyCore_trans o1 (onlyCore_modCore (fun x => x.markPort cp.stores (.usp c.rank) off n) (fun _ => rfl) o1.1)
    rwa [markPort_rest hport] at this
  have hcp : s2.copy? k = some cp := by
    show (s1.modCore k _).copy? k = _
    rw [copy_modCore, show s1.copy? k = _ from copy_modCopy_any s k k (fun x => x.markRead l.packet.w c.rank (.usp c.rank) off n) (fun _ => rfl), h2]
    simp only [and_self, if_true, Option.map_some, markRead_rest hr.1, Option.some.injEq]
    have : (cp.cores.map fun c' => if c'.rank == k.rank then c'.markPort cp.stores (.usp c.rank) off n else c') = cp.cores := by
      rw [List.map_congr_left (g := id)]
      · simp
      · intro d hd
        rw [markPort_rest (hr.2 d hd).1]
        simp
    show { cp with cores := _ } = cp
    rw [this]
  obtain ⟨l', hl'⟩ : ∃ l', s2.launch? k.lid = some l' := by
    have := o2.2.2.2.2.1 k.lid
    rw [h1] at this
    cases e : s2.launch? k.lid with
    | none => rw [e] at this; simp at this
    | some l' => exact ⟨l', rfl⟩
  have hx : ctxOf k s2 = .ok ((l', cp, c), s2) := ctxOf_run hl' hcp o2.1
  refine ⟨s2, l', ?_, o2, hx⟩
  unfold readPiece
  rw [bind_ok (raceReads_rest (a := ctlAcc k) h1 h2 h3 hwr), bind_ok get_run, bind_ok (ctxOf_run (k := (ctlAcc k).k) h1 h2 h3)]
  simp only [badTrap_own hq hb, Option.isSome_none, raiseIf_false, pure_bind_act, hr.1, List.filter_nil, List.map_nil]
  rw [bind_ok (show chooseStores (ctlAcc k).k [] s = .ok ((), s) from rfl), bind_ok (modify_run _)]
  rw [if_pos (show (ctlAcc k).unit = AccUnit.control from rfl), bind_ok (onCore_run _ _)]
  refine (bind_ok (s := s2) (s' := s2) (a := (l', cp, c)) hx).trans ?_
  have : (ctlAcc k).padBytes l cp c (.usp c.rank) off n = q.mem.bytes off n := by
    unfold Acc.padBytes Store.bytes
    rw [if_pos (show (ctlAcc k).unit = AccUnit.control from rfl), hport]
    exact List.map_congr_left fun i _ => padByte_rest hr.1 hq
  simp only [this]
  rfl

/-- A control core's checked read of its own unit scratchpad at rest. -/
theorem ctlRead_own {s : State} {k : CoreRef} {l : Launch} {cp : Copy} {c : Core} {q : Pad} {p : Word} {n al off : Nat}
    (h1 : s.launch? k.lid = some l) (h2 : s.copy? k = some cp) (h3 : s.core? k = some c) (h : OwnPlace cp c q p n al off)
    (hb : q.mem.badIn off n = false) (hr : cp.atRest) (hm : c.remote = []) :
    ∃ t, ctlRead k p n al s = .ok (q.mem.bytes off n, t) ∧ onlyCore s t k c := by
  have hport := (hr.2 c (rank_of_core h2 h3).2).1
  have hwr : ∀ d ∈ cp.cores, ∀ m ∈ d.eng.cmds, m.writes = [] := fun d hd m hm => ((hr.2 d hd).2 m hm).1
  unfold ctlRead
  have hck : checkPtr (ctlAcc k) p n al .read s = .ok (.pad (.usp c.rank) off, s) := by
    unfold checkPtr
    rw [bind_ok (ctxOf_run (k := (ctlAcc k).k) h1 h2 h3)]
    dsimp only
    rw [checkPlace_own h]; rfl
  rw [bind_ok hck]
  have hres : resolve (ctlAcc k) (.pad (.usp c.rank) off) n .read [] s = .ok ([(.pad (.usp c.rank) off, n)], s) := rfl
  rw [bind_ok hres]
  obtain ⟨s2, l', hrp, o2, hx⟩ := readPiece_own h1 h2 h3 h.pad hb hr
  have hold : (ctlAcc k).padBytes l cp c (.usp c.rank) off n = q.mem.bytes off n := by
    unfold Acc.padBytes Store.bytes
    rw [if_pos (show (ctlAcc k).unit = AccUnit.control from rfl), hport]
    exact List.map_congr_left fun i _ => padByte_rest hr.1 h.pad
  have hrr : readRuns (ctlAcc k) false (.pad (.usp c.rank) off) n s = .ok (q.mem.bytes off n, s2) := by
    unfold readRuns
    rw [bind_ok (ctxOf_run (k := (ctlAcc k).k) h1 h2 h3)]
    simp only [racers_rest hwr, List.filter_nil, List.flatMap_nil]
    rw [bind_ok hrp]
    simp only [hold, mixReads, beq_self_eq_true, if_true]
    rfl
  have hlp : loadPieces k [(.pad (.usp c.rank) off, n)] s = .ok (q.mem.bytes off n, s2) := by
    unfold loadPieces
    rw [bind_ok hrr]
    refine (bind_ok (s := s2) (s' := s2) (a := (l', cp, c)) hx).trans ?_
    have : ((cp.pushedBy c.rank).any fun x => x.2.old.any fun e => e.1.meets 1 (.pad (.usp c.rank) off) n) = false := by
      rw [List.any_eq_false]
      intro y hy
      simp only [Copy.pushedBy, List.mem_flatMap, List.mem_map, List.mem_filter] at hy
      obtain ⟨d, hd, m, ⟨hm', -⟩, rfl⟩ := hy
      simp [((hr.2 d hd).2 m hm').2]
    simp only [this, Bool.false_eq_true, if_false, pure_bind_act, loadPieces]
    show Except.ok _ = _
    simp
  rw [bind_ok hlp]
  let s3 := s2.modCore k fun x => { x with remote := x.remote.filter fun r => r.owner != (ctlAcc k).owner }
  have o3 : onlyCore s s3 k c := by
    have := onlyCore_trans o2 (onlyCore_modCore (fun x => { x with remote := x.remote.filter fun r => r.owner != (ctlAcc k).owner }) (fun _ => rfl) o2.1)
    have e : { c with remote := c.remote.filter fun r => r.owner != (ctlAcc k).owner } = c := by
      rw [hm]; cases c; simp_all
    rwa [e] at this
  refine ⟨s3, ?_, o3⟩
  have : spendLines (ctlAcc k) s2 = .ok ((), s3) := rfl
  rw [bind_ok this]
  rfl

theorem runAct_core_adv {s s' : State} {k : CoreRef} {len : Nat} {act : Act Next} {c : Core} (h : act s = .ok (.adv, s')) (ho : onlyCore s s' k c) :
    onlyCore s (runAct (.core k) len act s) k { c with regs := c.regs.skip len } := by
  rw [runAct_adv h]
  exact onlyCore_trans ho (onlyCore_modCore (fun x => { x with regs := x.regs.skip len }) (fun _ => rfl) ho.1)

theorem setX_core {s s' : State} {k : CoreRef} {c : Core} (hc : s.cur = .core k) (ho : onlyCore s s' k c) (d : BitVec 6) (v : Word) :
    ∃ t, setX d v s' = .ok ((), t) ∧ onlyCore s t k { c with regs := c.regs.set d v } := by
  have : s'.cur = .core k := by rw [ho.2.2.2.2.2.2.2.2.2.2.2.2.2.2.1]; exact hc
  refine ⟨_, setX_run _ _, ?_⟩
  rw [State.modRegs, this]
  exact onlyCore_trans ho (onlyCore_modCore (fun x => { x with regs := x.regs.set d v }) (fun _ => rfl) ho.1)


theorem branch_value (pc : Word) (d : BitVec 22) : branchTarget pc d = pc + ofS (4 * d.toInt) := by
  unfold branchTarget
  congr 1
  have h : ofS (4 * d.toInt) = BitVec.ofInt 64 d.toInt <<< 2 := by
    rw [ofS, BitVec.shiftLeft_eq_mul_twoPow, BitVec.ofInt_mul, BitVec.mul_comm]
    rfl
  rw [h]
  congr 1
theorem runAct_core_goto {s s' : State} {k : CoreRef} {len : Nat} {act : Act Next} {c : Core} {pc : Word} (h : act s = .ok (.goto pc, s')) (ho : onlyCore s s' k c) :
    onlyCore s (runAct (.core k) len act s) k { c with regs := c.regs.setPc pc } := by
  rw [runAct_goto h]
  exact onlyCore_trans ho (onlyCore_modCore (fun x => { x with regs := x.regs.setPc pc }) (fun _ => rfl) ho.1)

theorem onlyCore_refl (h : s.core? k = some c) : onlyCore s s k c := ⟨h, fun _ _ => rfl, fun _ _ => rfl, fun _ => rfl, fun _ => rfl, rfl, rfl, rfl, rfl, rfl, rfl, rfl, rfl, rfl, rfl, rfl⟩

theorem onlyCore_step {s t : State} {k : CoreRef} {c d : Core} (ho : onlyCore s t k c) (f : Core → Core) (hf : ∀ x, (f x).rank = x.rank) (e : f c = d) : onlyCore s (t.modCore k f) k d := by
  subst e
  exact onlyCore_trans ho (onlyCore_modCore f hf ho.1)

theorem modTok_awake (h : c.block = .none) (e : BitVec 6) (f : Token → Token) : c.modTok e f = c.putTok e (f c.sync.tokens[e.toNat]) := by
  simp only [Core.modTok, Core.tok, Core.putTok, Core.wake, h]
  split <;> rfl

theorem modTok_rank (e : BitVec 6) (f : Token → Token) : (c.modTok e f).rank = c.rank := by
  simp only [Core.modTok, Core.wake]
  split
  · rfl
  · split <;> rfl

theorem setPc_same (r : Regs) : r.setPc r.pc = r := rfl

theorem scalar_core {g : BitVec 4} {len : Nat} {act : Regs → Act Next} {s' : State} {d : Core} (ht : s.CoreTurn k l cp c) (he : s.executes c.regs g)
    (h : act c.regs s = .ok (.adv, s')) (ho : onlyCore s s' k d) : ∃ t, scalar g len s act = .next t ∧ onlyCore s t k (d.past len) :=
  ⟨_, scalar_on he.1 he.2, by rw [ht.cur]; exact runAct_core_adv h ho⟩

theorem scalar_stay {g : BitVec 4} {len : Nat} {act : Regs → Act Next} {s' : State} {d : Core} (ht : s.CoreTurn k l cp c) (he : s.executes c.regs g)
    (h : act c.regs s = .ok (.goto c.regs.pc, s')) (ho : onlyCore s s' k d) (hd : d.regs = c.regs) : ∃ t, scalar g len s act = .next t ∧ onlyCore s t k d := by
  refine ⟨_, scalar_on he.1 he.2, ?_⟩
  rw [ht.cur]
  have := runAct_core_goto (len := len) h ho
  rw [show d.regs.setPc c.regs.pc = d.regs by rw [hd]; rfl] at this
  exact this

theorem scalar_trap {g : BitVec 4} {len : Nat} {act : Regs → Act Next} {s' : State} {x : Trap} {r : Regs} (he : s.executes r g)
    (h : act r s = .error (.trap x, s')) : scalar g len s act = .next ((s'.endCommit s.cur).takeFault s.cur x) := by
  rw [scalar_on he.1 he.2, runAct_trap h]

theorem scalar_hold {g : BitVec 4} {len : Nat} {act : Regs → Act Next} {s' : State} {r : Regs} (he : s.executes r g)
    (h : act r s = .error (.hold, s')) : scalar g len s act = .next s' := by
  rw [scalar_on he.1 he.2, runAct_hold h]

end Sys2Proof.Laws
end

