-- ==== Sys2Proof/Laws/Commit.lean ====
section
/-! SUPPORT. A commit point with nothing to wait for: what it does around its own effect. -/

namespace Sys2Proof.Laws

open Sys2Proof.Machine

set_option Elab.async false

variable {s s3 : State} {k : CoreRef} {l : Launch} {cp : Copy} {c : Core}

/-- The state in which a commit point that releases nothing begins its release. -/
def prepOpen (s : State) (k : CoreRef) (sig : BitVec 64) : State :=
  let s1 := s.modCore k fun d => { d with commit := .releasing sig [] false }
  s1.settleLag (s1.agentsOf k ++ s1.ownersOf k [])

/-- The state in which the effect of a commit point is performed. -/
def prep (s : State) (k : CoreRef) (c : Core) (sig : BitVec 64) : State :=
  let s2 := prepOpen s k sig
  ((s2.settleOwn (s2.agentsOf k ++ s2.ownersOf k [])).modCopy k fun x => x.dropReleased c []).modCore k fun d => { d with commit := .closed sig [] }

theorem passedTo_nil (h : ∀ d ∈ cp.cores, d.muslin.closed = []) : cp.passedTo c = [] := by
  unfold Copy.passedTo
  rw [List.flatMap_eq_nil_iff]
  intro d hd
  simp [h d hd]

theorem closeRegion_quiet (h : s.AtCommit k l cp c) (o : OpDesc) :
    closeRegion k o s = .ok ((), s.modCore k fun d => { d with commit := .releasing (cp.commitSig c o) [] false }) := by
  have hp : cp.passedTo c = [] := passedTo_nil h.closed
  have hctx := ctxOf_run h.launch h.copy h.core
  unfold closeRegion
  rw [bind_ok hctx]
  have h1 : cp.releaseWaits c = false := by simp [Copy.releaseWaits, hp]
  have h2 : cp.causal c.rank = true := by
    simp only [Copy.causal, h.home, List.all_nil, Bool.true_and, List.all_eq_true, Bool.or_eq_true]
    intro d hd
    by_cases e : d.rank = c.rank
    · right; simp [h.port d hd e]
    · left; simp [e]
  have h3 : cp.passedSigs c = [] := by simp [Copy.passedSigs, hp]
  have h4 : ¬ Config.logEntries < l.log.length + 0 + 1 := by have := h.room; unfold Config.logEntries; omega
  simp only [h1, h2, h3, holdIf_false, pure_bind_act, List.any_nil, Bool.not_true, Bool.or_false, List.length_nil, h4, decide_false, raiseIf_false]
  rfl

theorem core_prepOpen (hc : s.core? k = some c) (sig : BitVec 64) (j : CoreRef) :
    (prepOpen s k sig).core? j = if j = k then some { c with commit := .releasing sig [] false } else s.core? j := by
  show (s.modCore k fun d => { d with commit := .releasing sig [] false }).core? j = _
  by_cases h2 : j = k
  · subst h2; rw [coreAt_modCore (fun d => { d with commit := .releasing sig [] false }) fun _ => rfl, hc]; simp
  · rw [coreAt_modCore_ne h2 (fun d => { d with commit := .releasing sig [] false }) fun _ => rfl]; simp [h2]

theorem launch_prepOpen (s : State) (k : CoreRef) (sig : BitVec 64) (n : Nat) :
    (prepOpen s k sig).launch? n = (s.launch? n).map fun x => if n = k.lid then x.modCopy k.role fun y => y.modCore k.rank fun d => { d with commit := .releasing sig [] false } else x :=
  launch_modLaunch_any s k.lid n (fun x => x.modCopy k.role fun y => y.modCore k.rank fun d => { d with commit := .releasing sig [] false }) fun _ => rfl

theorem copy_prepOpen (s : State) (k : CoreRef) (sig : BitVec 64) (j : CoreRef) :
    (prepOpen s k sig).copy? j = (s.copy? j).map fun x => if j.lid = k.lid ∧ j.role = k.role then x.modCore k.rank fun d => { d with commit := .releasing sig [] false } else x :=
  copy_modCopy_any s k j (fun y => y.modCore k.rank fun d => { d with commit := .releasing sig [] false }) fun _ => rfl

theorem releaseSet_quiet (h : s.AtCommit k l cp c) (sig : BitVec 64) : releaseSet k (prepOpen s k sig) = .ok ((), prep s k c sig) := by
  have hc : (prepOpen s k sig).core? k = some { c with commit := .releasing sig [] false } := by rw [core_prepOpen h.core]; simp
  have hl : (prepOpen s k sig).launch? k.lid = some (l.modCopy k.role fun y => y.modCore k.rank fun d => { d with commit := .releasing sig [] false }) := by
    rw [launch_prepOpen, h.launch]; simp
  have hp : (prepOpen s k sig).copy? k = some (cp.modCore k.rank fun d => { d with commit := .releasing sig [] false }) := by
    rw [copy_prepOpen, h.copy]; simp
  unfold releaseSet
  rw [bind_ok (ctxOf_run hl hp hc)]
  simp only [Copy.releaseSet, h.lines, List.map_nil, List.flatMap_nil, List.append_nil, pure_bind_act]
  have hcn : coreNow k (prepOpen s k sig) = .ok ({ c with commit := .releasing sig [] false }, prepOpen s k sig) := by
    unfold coreNow
    rw [bind_ok get_run, hc]; rfl
  rw [bind_ok hcn]
  rfl

theorem find_map_eq {α : Type} (p : α → Bool) (f : α → α) (xs : List α) (hf : ∀ x ∈ xs, p (f x) = p x) : (xs.map f).find? p = (xs.find? p).map f := by
  induction xs with
  | nil => rfl
  | cons x t ih =>
      have h1 := hf x (by simp)
      simp only [List.map_cons, List.find?_cons, h1]
      cases hx : p x with
      | true => simp
      | false => exact ih fun y hy => hf y (by simp [hy])

theorem core_dropReleased (n : Nat) : (cp.dropReleased c []).core? n = (cp.core? n).map fun d => if d.rank = c.rank then d.opened else d :=
  find_map_eq (fun k : Core => k.rank == n) (fun d : Core => if d.rank = c.rank then d.opened else d) cp.cores
    (fun x _ => by split <;> rfl)

/-- What the effect of a commit point sees: everything as it was, but for its own core and the writes it lets through. -/
theorem prep_core (h : s.AtCommit k l cp c) (sig : BitVec 64) (j : CoreRef) :
    (prep s k c sig).core? j = if j = k then some { c.opened with commit := .closed sig [] } else s.core? j := by
  have hr := rank_of_core h.copy h.core
  have hrank : ∀ x : Core, ({ x with commit := CommitState.closed sig [] } : Core).rank = x.rank := fun _ => rfl
  have hcore : ∀ j : CoreRef, ((prepOpen s k sig).modCopy k fun x => x.dropReleased c []).core? j =
      if j = k then some { c.opened with commit := .releasing sig [] false } else s.core? j := by
    intro j
    have hj := core_prepOpen h.core sig j
    have hcp := copy_modCopy_any (prepOpen s k sig) k j (fun x => x.dropReleased c []) (fun _ => rfl)
    simp only [State.core?] at hj ⊢
    rw [hcp]
    by_cases h1 : j.lid = k.lid ∧ j.role = k.role
    · cases hx : (prepOpen s k sig).copy? j with
      | none =>
          rw [copy_prepOpen] at hx
          have : s.copy? j = some cp := by rw [← h.copy]; simp [State.copy?, h1]
          rw [this] at hx; cases hx
      | some x =>
          rw [hx] at hj
          simp only [h1, and_self, if_true, Option.map_some, Option.bind_some, core_dropReleased] at hj ⊢
          rw [hj]
          by_cases h2 : j = k
          · subst h2; simp; rfl
          · have h3 : j.rank ≠ c.rank := by
              rw [hr.1]; intro h3; exact h2 (by cases j; cases k; simp_all)
            simp only [h2, if_false]
            cases hy : (s.copy? j).bind fun x => x.core? j.rank with
            | none => rfl
            | some d =>
                have : d.rank = j.rank := by
                  cases hz : s.copy? j with
                  | none => rw [hz] at hy; cases hy
                  | some z => rw [hz] at hy; simpa using List.find?_some hy
                simp [this, h3]
    · have h2 : j ≠ k := by rintro rfl; exact h1 ⟨rfl, rfl⟩
      simp only [h1, h2, if_false] at hj ⊢
      rw [← hj]
      cases (prepOpen s k sig).copy? j <;> rfl
  show (((prepOpen s k sig).modCopy k fun x => x.dropReleased c []).modCore k fun d => { d with commit := .closed sig [] }).core? j = _
  by_cases h2 : j = k
  · subst h2
    rw [coreAt_modCore _ hrank, hcore]; simp
  · rw [coreAt_modCore_ne h2 _ hrank, hcore]; simp [h2]

theorem prep_launch (s : State) (k : CoreRef) (c : Core) (sig : BitVec 64) (n : Nat) :
    ((prep s k c sig).launch? n).map (fun x => (x.state, x.log, x.snap, x.packet, x.part, x.deferred)) =
      (s.launch? n).map fun x => (x.state, x.log, x.snap, x.packet, x.part, x.deferred) := by
  show ((State.modLaunch (State.modLaunch (prepOpen s k sig) k.lid fun l => l.modCopy k.role fun x => x.dropReleased c []) k.lid fun l =>
    l.modCopy k.role fun x => x.modCore k.rank fun d => { d with commit := .closed sig [] }).launch? n).map _ = _
  rw [launch_modLaunch_any _ _ _ (fun l => l.modCopy k.role fun x => x.modCore k.rank fun d => { d with commit := .closed sig [] }) fun _ => rfl,
    launch_modLaunch_any _ _ _ (fun l => l.modCopy k.role fun x => x.dropReleased c []) fun _ => rfl, launch_prepOpen]
  cases s.launch? n with
  | none => rfl
  | some x => by_cases h : n = k.lid <;> simp [h, Launch.modCopy]

theorem prep_copy (s : State) (k : CoreRef) (c : Core) (sig : BitVec 64) (j : CoreRef) :
    ((prep s k c sig).copy? j).map (fun x => (x.pads, x.home, x.binding, x.replay)) = (s.copy? j).map fun x => (x.pads, x.home, x.binding, x.replay) := by
  show ((State.modCopy (State.modCopy (prepOpen s k sig) k fun x => x.dropReleased c []) k fun x => x.modCore k.rank fun d => { d with commit := .closed sig [] }).copy? j).map _ = _
  rw [copy_modCopy_any _ _ _ (fun x => x.modCore k.rank fun d => { d with commit := .closed sig [] }) fun _ => rfl,
    copy_modCopy_any _ _ _ (fun x => x.dropReleased c []) fun _ => rfl, copy_prepOpen]
  cases s.copy? j with
  | none => rfl
  | some x => by_cases h : j.lid = k.lid ∧ j.role = k.role <;> simp [h, Copy.dropReleased, Copy.modCore]

theorem prep_rest (s : State) (k : CoreRef) (c : Core) (sig : BitVec 64) :
    ∃ L g, prep s k c sig = { s with launches := L, lags := g } := ⟨_, _, rfl⟩

theorem lookup_launches {s t : State} (h : t.launches = s.launches) (n : Nat) (j : CoreRef) : t.launch? n = s.launch? n ∧ t.copy? j = s.copy? j ∧ t.core? j = s.core? j := by
  have h1 : ∀ n, t.launch? n = s.launch? n := fun n => by simp [State.launch?, h]
  have h2 : t.copy? j = s.copy? j := by simp [State.copy?, h1]
  exact ⟨h1 n, h2, by simp [State.core?, h2]⟩

/-- A commit point with nothing to wait for whose effect keeps the launches: its effect happens once, its core goes on with the next
segment, and the log, the replay position and the binding follow. -/
theorem commit_quiet (h : s.AtCommit k l cp c) (o : OpDesc) {perform : Act (Word × Word × List (BitVec 32))} {r : Word × Word × List (BitVec 32)}
    (hp : perform (prep s k c (cp.commitSig c o)) = .ok (r, s3)) (hl : s3.launches = (prep s k c (cp.commitSig c o)).launches) :
    ∃ t, commitPoint k o perform s = .ok (r, t) ∧ t.core? k = some c.committed ∧ otherCores s t k ∧ (∃ L, t = { s3 with launches := L }) ∧
      (∃ e m, t.launch? k.lid = some m ∧ m.log = l.log ++ [e] ∧ m.state = l.state ∧ m.packet = l.packet ∧ m.snap = l.snap ∧
        e.op = o.op ∧ e.core = k.rank ∧ e.res = r.1 ∧ e.binding = s3.pbBinding l.part.toNat) ∧
      (∃ x y, s.copy? k = some x ∧ t.copy? k = some y ∧ y.replay = l.log.length + 1 ∧ y.binding = s3.pbBinding l.part.toNat ∧
        y.pads = x.pads ∧ y.home = x.home) := by
  obtain ⟨sig, hsig⟩ : ∃ sig, sig = cp.commitSig c o := ⟨_, rfl⟩
  rw [← hsig] at hp hl
  have hctx := ctxOf_run h.launch h.copy h.core
  have hbusy : c.pushesBusy = false := h.pushed
  have hlive : ¬ cp.replay < l.log.length := by have := h.live; omega
  have hcls : (l.packet.prot = 2 || k.role = .third) = false := by simp [h.prot, h.role]
  -- the launch, copy and core as the effect leaves them
  have hpl := prep_launch s k c sig k.lid
  rw [h.launch] at hpl
  obtain ⟨l3, hl3, hle⟩ : ∃ l3, s3.launch? k.lid = some l3 ∧ (l3.state, l3.log, l3.snap, l3.packet, l3.part, l3.deferred) = (l.state, l.log, l.snap, l.packet, l.part, l.deferred) := by
    rw [(lookup_launches hl k.lid k).1]
    cases hx : (prep s k c sig).launch? k.lid with
    | none => rw [hx] at hpl; cases hpl
    | some x => rw [hx] at hpl; exact ⟨x, rfl, by simpa using hpl⟩
  simp only [Prod.mk.injEq] at hle
  obtain ⟨e1, e2, e3, e4, e5, e6⟩ := hle
  have hc3 : s3.core? k = some { c.opened with commit := .closed sig [] } := by
    rw [(lookup_launches hl k.lid k).2.2, prep_core h]; simp
  have hpc := prep_copy s k c sig k
  rw [h.copy] at hpc
  obtain ⟨x3, hx3, hxe⟩ : ∃ x3, s3.copy? k = some x3 ∧ (x3.pads, x3.home, x3.binding, x3.replay) = (cp.pads, cp.home, cp.binding, cp.replay) := by
    rw [(lookup_launches hl k.lid k).2.1]
    cases hx : (prep s k c sig).copy? k with
    | none => rw [hx] at hpc; cases hpc
    | some x => rw [hx] at hpc; exact ⟨x, rfl, by simpa using hpc⟩
  simp only [Prod.mk.injEq] at hxe
  obtain ⟨f1, f2, f3, f4⟩ := hxe
  -- the log entry
  let own : LogEntry := { op := o.op, core := k.rank, seq := c.opened.muslin.commits - 1, res := r.1, resh := r.2.1, sig := sig, binding := s3.pbBinding l3.part.toNat, words := r.2.2 }
  let fl : Launch → Launch := fun l => { l with log := l.log ++ [] ++ [own], redo := false }
  let fc : Copy → Copy := fun cp => { cp with replay := l3.log.length + ([] : List LogEntry).length + 1, binding := s3.pbBinding l3.part.toNat }
  let fk : Core → Core := fun c => { c with commit := .idle }
  let t := ((s3.modLaunch k.lid fl).modCopy k fc).modCore k fk
  have htl : t.launch? k.lid = some ((((fl l3).modCopy k.role fc)).modCopy k.role fun x => x.modCore k.rank fk) := by
    show (State.modLaunch (State.modLaunch (s3.modLaunch k.lid fl) k.lid fun l => l.modCopy k.role fc) k.lid fun l => l.modCopy k.role fun x => x.modCore k.rank fk).launch? k.lid = _
    rw [launch_modLaunch_any _ _ _ (fun l => l.modCopy k.role fun x => x.modCore k.rank fk) fun _ => rfl,
      launch_modLaunch_any _ _ _ (fun l => l.modCopy k.role fc) fun _ => rfl, launch_modLaunch_any _ _ _ fl fun _ => rfl, hl3]
    simp
  have hcopy : ∀ j, (s3.modLaunch k.lid fl).copy? j = s3.copy? j := by
    intro j
    simp only [State.copy?]
    rw [launch_modLaunch_any _ _ _ fl fun _ => rfl]
    cases s3.launch? j.lid with
    | none => rfl
    | some x => by_cases hj : j.lid = k.lid <;> simp [hj, fl, Launch.copy?]
  have htc : t.copy? k = some ((fc x3).modCore k.rank fk) := by
    show (State.modCopy ((s3.modLaunch k.lid fl).modCopy k fc) k fun x => x.modCore k.rank fk).copy? k = _
    rw [copy_modCopy_any _ _ _ (fun x => x.modCore k.rank fk) fun _ => rfl, copy_modCopy_any _ _ _ fc fun _ => rfl, hcopy, hx3]
    simp
  have hcore : ∀ j, ((s3.modLaunch k.lid fl).modCopy k fc).core? j = s3.core? j := by
    intro j
    simp only [State.core?]
    rw [copy_modCopy_any _ _ _ fc fun _ => rfl, hcopy]
    cases s3.copy? j with
    | none => rfl
    | some x => by_cases hj : j.lid = k.lid ∧ j.role = k.role <;> simp [hj, fc, Copy.core?]
  have htk : t.core? k = some c.committed := by
    show (State.modCore ((s3.modLaunch k.lid fl).modCopy k fc) k fk).core? k = _
    rw [coreAt_modCore fk fun _ => rfl, hcore, hc3]
    rfl
  have hto : otherCores s t k := by
    intro j hj
    show (State.modCore ((s3.modLaunch k.lid fl).modCopy k fc) k fk).core? j = _
    rw [coreAt_modCore_ne hj fk fun _ => rfl, hcore, (lookup_launches hl k.lid j).2.2, prep_core h]
    simp [hj]
  have hdef : t.runDeferredOf k.lid = t := by
    simp only [State.runDeferredOf, htl]
    · have : ((((fl l3).modCopy k.role fc)).modCopy k.role fun x => x.modCore k.rank fk).deferred = [] := by
        show l3.deferred = []
        rw [e6, h.calm]
      simp only [Launch.decisive, this, List.foldl_nil]
  refine ⟨t, ?_, htk, hto, ⟨t.launches, rfl⟩, ⟨own, _, htl, ?_⟩, ⟨cp, _, h.copy, htc, ?_⟩⟩
  · unfold commitPoint
    rw [bind_ok hctx]
    simp only [h.idle, hbusy, holdIf_false, pure_bind_act, if_neg hlive, hcls]
    simp only [Bool.false_eq_true, if_false]
    rw [bind_ok (closeRegion_quiet h o), ← hsig]
    rw [bind_ok (modify_run _)]
    have hsegs : cp.passedSigs c = [] := by simp [Copy.passedSigs, passedTo_nil h.closed]
    simp only [hsegs]
    refine (bind_ok (s := prepOpen s k sig) (releaseSet_quiet h sig)).trans ?_
    unfold performCommit
    rw [bind_ok hp]
    have hcn : coreNow k s3 = .ok ({ c.opened with commit := .closed sig [] }, s3) := by
      unfold coreNow
      rw [bind_ok get_run, hc3]; rfl
    rw [bind_ok hcn]
    simp only
    have hlog : logResult k o (c.opened.muslin.commits - 1) sig [] r s3 = .ok ((), t) := by
      unfold logResult
      rw [bind_ok (modify_run _)]
      simp only [hl3, List.map_nil]
      show Except.ok ((), t.runDeferredOf k.lid) = _
      rw [hdef]
    rw [bind_ok hlog]
    rfl
  · refine ⟨?_, ?_, ?_, ?_, rfl, rfl, rfl, ?_⟩
    · show l3.log ++ [] ++ [own] = _
      rw [e2]; simp
    · exact e1
    · exact e4
    · exact e3
    · show s3.pbBinding l3.part.toNat = _
      rw [e5]
  · refine ⟨?_, ?_, ?_, ?_⟩
    · show l3.log.length + 0 + 1 = _
      rw [e2]
    · show s3.pbBinding l3.part.toNat = _
      rw [e5]
    · exact f1
    · exact f2

end Sys2Proof.Laws
end

