-- ==== Sys2Proof/Laws/Fields.lean ====
section
/-! SUPPORT. The fields of an encoded word are the fields it was made from: one lemma per field of each form. -/

namespace Sys2Proof.Laws

theorem fMop_mkSR (mop d a r : BitVec 6) (g fn : BitVec 4) : fMop (mkSR mop d a r g fn) = mop := by
  ext i hi
  simp only [fMop, mkSR, BitVec.getElem_extractLsb', BitVec.getLsbD_append]
  interval_cases i <;> simp [BitVec.getLsbD_eq_getElem]

theorem fRd_mkSR (mop d a r : BitVec 6) (g fn : BitVec 4) : fRd (mkSR mop d a r g fn) = d := by
  ext i hi
  simp only [fRd, mkSR, BitVec.getElem_extractLsb', BitVec.getLsbD_append]
  interval_cases i <;> simp [BitVec.getLsbD_eq_getElem]

theorem fRa_mkSR (mop d a r : BitVec 6) (g fn : BitVec 4) : fRa (mkSR mop d a r g fn) = a := by
  ext i hi
  simp only [fRa, mkSR, BitVec.getElem_extractLsb', BitVec.getLsbD_append]
  interval_cases i <;> simp [BitVec.getLsbD_eq_getElem]

theorem fRb_mkSR (mop d a r : BitVec 6) (g fn : BitVec 4) : fRb (mkSR mop d a r g fn) = r := by
  ext i hi
  simp only [fRb, mkSR, BitVec.getElem_extractLsb', BitVec.getLsbD_append]
  interval_cases i <;> simp [BitVec.getLsbD_eq_getElem]

theorem fGuard_mkSR (mop d a r : BitVec 6) (g fn : BitVec 4) : fGuard (mkSR mop d a r g fn) = g := by
  ext i hi
  simp only [fGuard, mkSR, BitVec.getElem_extractLsb', BitVec.getLsbD_append]
  interval_cases i <;> simp [BitVec.getLsbD_eq_getElem]

theorem fFn_mkSR (mop d a r : BitVec 6) (g fn : BitVec 4) : fFn (mkSR mop d a r g fn) = fn := by
  ext i hi
  simp only [fFn, mkSR, BitVec.getElem_extractLsb', BitVec.getLsbD_append]
  interval_cases i <;> simp [BitVec.getLsbD_eq_getElem]

theorem fMop_mkSI (mop d a : BitVec 6) (g : BitVec 4) (k : BitVec 10) : fMop (mkSI mop d a g k) = mop := by
  ext i hi
  simp only [fMop, mkSI, BitVec.getElem_extractLsb', BitVec.getLsbD_append]
  interval_cases i <;> simp [BitVec.getLsbD_eq_getElem]

theorem fRd_mkSI (mop d a : BitVec 6) (g : BitVec 4) (k : BitVec 10) : fRd (mkSI mop d a g k) = d := by
  ext i hi
  simp only [fRd, mkSI, BitVec.getElem_extractLsb', BitVec.getLsbD_append]
  interval_cases i <;> simp [BitVec.getLsbD_eq_getElem]

theorem fRa_mkSI (mop d a : BitVec 6) (g : BitVec 4) (k : BitVec 10) : fRa (mkSI mop d a g k) = a := by
  ext i hi
  simp only [fRa, mkSI, BitVec.getElem_extractLsb', BitVec.getLsbD_append]
  interval_cases i <;> simp [BitVec.getLsbD_eq_getElem]

theorem guard_mkSI (mop d a : BitVec 6) (g : BitVec 4) (k : BitVec 10) : (mkSI mop d a g k).extractLsb' 10 4 = g := by
  ext i hi
  simp only [mkSI, BitVec.getElem_extractLsb', BitVec.getLsbD_append]
  interval_cases i <;> simp [BitVec.getLsbD_eq_getElem]

theorem imm_mkSI (mop d a : BitVec 6) (g : BitVec 4) (k : BitVec 10) : (mkSI mop d a g k).extractLsb' 0 10 = k := by
  ext i hi
  simp only [mkSI, BitVec.getElem_extractLsb', BitVec.getLsbD_append]
  interval_cases i <;> simp [BitVec.getLsbD_eq_getElem]

theorem fMop_mkSM (mop d a : BitVec 6) (g : BitVec 4) (z : BitVec 2) (o : BitVec 8) : fMop (mkSM mop d a g z o) = mop := by
  ext i hi
  simp only [fMop, mkSM, BitVec.getElem_extractLsb', BitVec.getLsbD_append]
  interval_cases i <;> simp [BitVec.getLsbD_eq_getElem]

theorem fRd_mkSM (mop d a : BitVec 6) (g : BitVec 4) (z : BitVec 2) (o : BitVec 8) : fRd (mkSM mop d a g z o) = d := by
  ext i hi
  simp only [fRd, mkSM, BitVec.getElem_extractLsb', BitVec.getLsbD_append]
  interval_cases i <;> simp [BitVec.getLsbD_eq_getElem]

theorem fRa_mkSM (mop d a : BitVec 6) (g : BitVec 4) (z : BitVec 2) (o : BitVec 8) : fRa (mkSM mop d a g z o) = a := by
  ext i hi
  simp only [fRa, mkSM, BitVec.getElem_extractLsb', BitVec.getLsbD_append]
  interval_cases i <;> simp [BitVec.getLsbD_eq_getElem]

theorem guard_mkSM (mop d a : BitVec 6) (g : BitVec 4) (z : BitVec 2) (o : BitVec 8) : (mkSM mop d a g z o).extractLsb' 10 4 = g := by
  ext i hi
  simp only [mkSM, BitVec.getElem_extractLsb', BitVec.getLsbD_append]
  interval_cases i <;> simp [BitVec.getLsbD_eq_getElem]

theorem size_mkSM (mop d a : BitVec 6) (g : BitVec 4) (z : BitVec 2) (o : BitVec 8) : (mkSM mop d a g z o).extractLsb' 8 2 = z := by
  ext i hi
  simp only [mkSM, BitVec.getElem_extractLsb', BitVec.getLsbD_append]
  interval_cases i <;> simp [BitVec.getLsbD_eq_getElem]

theorem off_mkSM (mop d a : BitVec 6) (g : BitVec 4) (z : BitVec 2) (o : BitVec 8) : (mkSM mop d a g z o).extractLsb' 0 8 = o := by
  ext i hi
  simp only [mkSM, BitVec.getElem_extractLsb', BitVec.getLsbD_append]
  interval_cases i <;> simp [BitVec.getLsbD_eq_getElem]

theorem fMop_mkSB (mop : BitVec 6) (g : BitVec 4) (disp : BitVec 22) : fMop (mkSB mop g disp) = mop := by
  ext i hi
  simp only [fMop, mkSB, BitVec.getElem_extractLsb', BitVec.getLsbD_append]
  interval_cases i <;> simp [BitVec.getLsbD_eq_getElem]

theorem guard_mkSB (mop : BitVec 6) (g : BitVec 4) (disp : BitVec 22) : (mkSB mop g disp).extractLsb' 22 4 = g := by
  ext i hi
  simp only [mkSB, BitVec.getElem_extractLsb', BitVec.getLsbD_append]
  interval_cases i <;> simp [BitVec.getLsbD_eq_getElem]

theorem disp_mkSB (mop : BitVec 6) (g : BitVec 4) (disp : BitVec 22) : (mkSB mop g disp).extractLsb' 0 22 = disp := by
  ext i hi
  simp only [mkSB, BitVec.getElem_extractLsb', BitVec.getLsbD_append]
  interval_cases i <;> simp [BitVec.getLsbD_eq_getElem]

theorem fMop_mkSA (d a b : BitVec 6) (z o : BitVec 2) (aop : BitVec 4) : fMop (mkSA d a b z o aop) = 0x2C#6 := by
  ext i hi
  simp only [fMop, mkSA, BitVec.getElem_extractLsb', BitVec.getLsbD_append]
  interval_cases i <;> simp

theorem fRd_mkSA (d a b : BitVec 6) (z o : BitVec 2) (aop : BitVec 4) : fRd (mkSA d a b z o aop) = d := by
  ext i hi
  simp only [fRd, mkSA, BitVec.getElem_extractLsb', BitVec.getLsbD_append]
  interval_cases i <;> simp [BitVec.getLsbD_eq_getElem]

theorem fRa_mkSA (d a b : BitVec 6) (z o : BitVec 2) (aop : BitVec 4) : fRa (mkSA d a b z o aop) = a := by
  ext i hi
  simp only [fRa, mkSA, BitVec.getElem_extractLsb', BitVec.getLsbD_append]
  interval_cases i <;> simp [BitVec.getLsbD_eq_getElem]

theorem fRb_mkSA (d a b : BitVec 6) (z o : BitVec 2) (aop : BitVec 4) : fRb (mkSA d a b z o aop) = b := by
  ext i hi
  simp only [fRb, mkSA, BitVec.getElem_extractLsb', BitVec.getLsbD_append]
  interval_cases i <;> simp [BitVec.getLsbD_eq_getElem]

theorem fFn_mkSA (d a b : BitVec 6) (z o : BitVec 2) (aop : BitVec 4) : fFn (mkSA d a b z o aop) = aop := by
  ext i hi
  simp only [fFn, mkSA, BitVec.getElem_extractLsb', BitVec.getLsbD_append]
  interval_cases i <;> simp [BitVec.getLsbD_eq_getElem]

theorem size_mkSA (d a b : BitVec 6) (z o : BitVec 2) (aop : BitVec 4) : (mkSA d a b z o aop).extractLsb' 6 2 = z := by
  ext i hi
  simp only [mkSA, BitVec.getElem_extractLsb', BitVec.getLsbD_append]
  interval_cases i <;> simp [BitVec.getLsbD_eq_getElem]

theorem order_mkSA (d a b : BitVec 6) (z o : BitVec 2) (aop : BitVec 4) : (mkSA d a b z o aop).extractLsb' 4 2 = o := by
  ext i hi
  simp only [mkSA, BitVec.getElem_extractLsb', BitVec.getLsbD_append]
  interval_cases i <;> simp [BitVec.getLsbD_eq_getElem]

theorem fMop_nop (n : BitVec 26) : fMop (0x37#6 ++ n) = 0x37#6 := by
  ext i hi
  simp only [fMop, BitVec.getElem_extractLsb', BitVec.getLsbD_append]
  interval_cases i <;> simp

theorem imm_nop (n : BitVec 26) : (0x37#6 ++ n).extractLsb' 0 26 = n := by
  ext i hi
  simp only [BitVec.getElem_extractLsb', BitVec.getLsbD_append]
  interval_cases i <;> simp [BitVec.getLsbD_eq_getElem]

theorem ePost_word (p w0 w1 w2 c : BitVec 6) (o : BitVec 2) : (p ++ w0 ++ w1 ++ w2 ++ c ++ o).extractLsb' 26 6 = p := by
  ext i hi
  simp only [BitVec.getElem_extractLsb', BitVec.getLsbD_append]
  interval_cases i <;> simp [BitVec.getLsbD_eq_getElem]

theorem eWait0_word (p w0 w1 w2 c : BitVec 6) (o : BitVec 2) : (p ++ w0 ++ w1 ++ w2 ++ c ++ o).extractLsb' 20 6 = w0 := by
  ext i hi
  simp only [BitVec.getElem_extractLsb', BitVec.getLsbD_append]
  interval_cases i <;> simp [BitVec.getLsbD_eq_getElem]

theorem eWait1_word (p w0 w1 w2 c : BitVec 6) (o : BitVec 2) : (p ++ w0 ++ w1 ++ w2 ++ c ++ o).extractLsb' 14 6 = w1 := by
  ext i hi
  simp only [BitVec.getElem_extractLsb', BitVec.getLsbD_append]
  interval_cases i <;> simp [BitVec.getLsbD_eq_getElem]

theorem eWait2_word (p w0 w1 w2 c : BitVec 6) (o : BitVec 2) : (p ++ w0 ++ w1 ++ w2 ++ c ++ o).extractLsb' 8 6 = w2 := by
  ext i hi
  simp only [BitVec.getElem_extractLsb', BitVec.getLsbD_append]
  interval_cases i <;> simp [BitVec.getLsbD_eq_getElem]

theorem eXc_word (p w0 w1 w2 c : BitVec 6) (o : BitVec 2) : (p ++ w0 ++ w1 ++ w2 ++ c ++ o).extractLsb' 2 6 = c := by
  ext i hi
  simp only [BitVec.getElem_extractLsb', BitVec.getLsbD_append]
  interval_cases i <;> simp [BitVec.getLsbD_eq_getElem]

theorem eOrder_word (p w0 w1 w2 c : BitVec 6) (o : BitVec 2) : (p ++ w0 ++ w1 ++ w2 ++ c ++ o).extractLsb' 0 2 = o := by
  ext i hi
  simp only [BitVec.getElem_extractLsb', BitVec.getLsbD_append]
  interval_cases i <;> simp [BitVec.getLsbD_eq_getElem]

theorem vop_mkV (vop : BitVec 8) (v : VArgs) : (mkV vop v).extractLsb' 40 8 = vop := by
  ext i hi
  simp only [mkV, BitVec.getElem_extractLsb', BitVec.getLsbD_append]
  interval_cases i <;> simp [BitVec.getLsbD_eq_getElem]

theorem vd_mkV (vop : BitVec 8) (v : VArgs) : (mkV vop v).extractLsb' 35 5 = v.vd := by
  ext i hi
  simp only [mkV, BitVec.getElem_extractLsb', BitVec.getLsbD_append]
  interval_cases i <;> simp [BitVec.getLsbD_eq_getElem]

theorem va_mkV (vop : BitVec 8) (v : VArgs) : (mkV vop v).extractLsb' 30 5 = v.va := by
  ext i hi
  simp only [mkV, BitVec.getElem_extractLsb', BitVec.getLsbD_append]
  interval_cases i <;> simp [BitVec.getLsbD_eq_getElem]

theorem vb_mkV (vop : BitVec 8) (v : VArgs) : (mkV vop v).extractLsb' 25 5 = v.vb := by
  ext i hi
  simp only [mkV, BitVec.getElem_extractLsb', BitVec.getLsbD_append]
  interval_cases i <;> simp [BitVec.getLsbD_eq_getElem]

theorem mask_mkV (vop : BitVec 8) (v : VArgs) : (mkV vop v).extractLsb' 22 3 = v.mask := by
  ext i hi
  simp only [mkV, BitVec.getElem_extractLsb', BitVec.getLsbD_append]
  interval_cases i <;> simp [BitVec.getLsbD_eq_getElem]

theorem walk_mkV (vop : BitVec 8) (v : VArgs) : (mkV vop v).extractLsb' 20 2 = v.walk := by
  ext i hi
  simp only [mkV, BitVec.getElem_extractLsb', BitVec.getLsbD_append]
  interval_cases i <;> simp [BitVec.getLsbD_eq_getElem]

theorem rep_mkV (vop : BitVec 8) (v : VArgs) : (mkV vop v).extractLsb' 12 8 = v.rep := by
  ext i hi
  simp only [mkV, BitVec.getElem_extractLsb', BitVec.getLsbD_append]
  interval_cases i <;> simp [BitVec.getLsbD_eq_getElem]

theorem asel_mkV (vop : BitVec 8) (v : VArgs) : (mkV vop v).extractLsb' 8 4 = v.asel := by
  ext i hi
  simp only [mkV, BitVec.getElem_extractLsb', BitVec.getLsbD_append]
  interval_cases i <;> simp [BitVec.getLsbD_eq_getElem]

theorem step_mkV (vop : BitVec 8) (v : VArgs) : (mkV vop v).extractLsb' 5 3 = v.step := by
  ext i hi
  simp only [mkV, BitVec.getElem_extractLsb', BitVec.getLsbD_append]
  interval_cases i <;> simp [BitVec.getLsbD_eq_getElem]

theorem idle_mkV (vop : BitVec 8) (v : VArgs) : (mkV vop v).extractLsb' 0 5 = v.idle := by
  ext i hi
  simp only [mkV, BitVec.getElem_extractLsb', BitVec.getLsbD_append]
  interval_cases i <;> simp [BitVec.getLsbD_eq_getElem]

theorem vop_vsetk (kd : BitVec 4) (imm : BitVec 32) (idle : BitVec 4) : (0x70#8 ++ kd ++ imm ++ idle).extractLsb' 40 8 = 0x70#8 := by
  ext i hi
  simp only [BitVec.getElem_extractLsb', BitVec.getLsbD_append]
  interval_cases i <;> simp

theorem kd_vsetk (kd : BitVec 4) (imm : BitVec 32) (idle : BitVec 4) : (0x70#8 ++ kd ++ imm ++ idle).extractLsb' 36 4 = kd := by
  ext i hi
  simp only [BitVec.getElem_extractLsb', BitVec.getLsbD_append]
  interval_cases i <;> simp [BitVec.getLsbD_eq_getElem]

theorem imm_vsetk (kd : BitVec 4) (imm : BitVec 32) (idle : BitVec 4) : (0x70#8 ++ kd ++ imm ++ idle).extractLsb' 4 32 = imm := by
  ext i hi
  simp only [BitVec.getElem_extractLsb', BitVec.getLsbD_append]
  interval_cases i <;> simp [BitVec.getLsbD_eq_getElem]

theorem idle_vsetk (kd : BitVec 4) (imm : BitVec 32) (idle : BitVec 4) : (0x70#8 ++ kd ++ imm ++ idle).extractLsb' 0 4 = idle := by
  ext i hi
  simp only [BitVec.getElem_extractLsb', BitVec.getLsbD_append]
  interval_cases i <;> simp [BitVec.getLsbD_eq_getElem]

theorem vop_vlp (cn : BitVec 2) (target : BitVec 14) (idle : BitVec 5) : (0x71#8 ++ cn ++ 0#2 ++ target ++ 0#17 ++ idle).extractLsb' 40 8 = 0x71#8 := by
  ext i hi
  simp only [BitVec.getElem_extractLsb', BitVec.getLsbD_append]
  interval_cases i <;> simp

theorem res_vlp (cn : BitVec 2) (target : BitVec 14) (idle : BitVec 5) : (0x71#8 ++ cn ++ 0#2 ++ target ++ 0#17 ++ idle).extractLsb' 36 2 = 0#2 := by
  ext i hi
  simp only [BitVec.getElem_extractLsb', BitVec.getLsbD_append]
  interval_cases i <;> simp

theorem low_vlp (cn : BitVec 2) (target : BitVec 14) (idle : BitVec 5) : (0x71#8 ++ cn ++ 0#2 ++ target ++ 0#17 ++ idle).extractLsb' 5 17 = 0#17 := by
  ext i hi
  simp only [BitVec.getElem_extractLsb', BitVec.getLsbD_append]
  interval_cases i <;> simp

theorem cn_vlp (cn : BitVec 2) (target : BitVec 14) (idle : BitVec 5) : (0x71#8 ++ cn ++ 0#2 ++ target ++ 0#17 ++ idle).extractLsb' 38 2 = cn := by
  ext i hi
  simp only [BitVec.getElem_extractLsb', BitVec.getLsbD_append]
  interval_cases i <;> simp [BitVec.getLsbD_eq_getElem]

theorem target_vlp (cn : BitVec 2) (target : BitVec 14) (idle : BitVec 5) : (0x71#8 ++ cn ++ 0#2 ++ target ++ 0#17 ++ idle).extractLsb' 22 14 = target := by
  ext i hi
  simp only [BitVec.getElem_extractLsb', BitVec.getLsbD_append]
  interval_cases i <;> simp [BitVec.getLsbD_eq_getElem]

theorem idle_vlp (cn : BitVec 2) (target : BitVec 14) (idle : BitVec 5) : (0x71#8 ++ cn ++ 0#2 ++ target ++ 0#17 ++ idle).extractLsb' 0 5 = idle := by
  ext i hi
  simp only [BitVec.getElem_extractLsb', BitVec.getLsbD_append]
  interval_cases i <;> simp [BitVec.getLsbD_eq_getElem]

end Sys2Proof.Laws
end

