-- ==== Sys2Proof/Laws/Decode.lean ====
section
/-! SUPPORT. Decoding the words of one form: what the decoder answers on the words the encoder writes, once per form. -/

namespace Sys2Proof.Laws

/-- An instruction with legal fields passes the decoder's last check. -/
theorem checked_ok {i : Instr} (h : i.wf = true) : checked i = .ok i := by simp [checked, h]

theorem srOk_wf {b : Src} {g : BitVec 4} (h : srOk b g = true) : b.wf = true := by
  simp only [srOk, Bool.and_eq_true] at h; exact h.1

theorem toNat_ne {n : Nat} {a b : BitVec n} (h : a.toNat ≠ b.toNat) : (a == b) = false := by
  simpa using fun e => h (by rw [e])

/-- The two halves of a literal. -/
theorem lit64_halves (w : BitVec 64) : w.extractLsb' 32 32 ++ w.extractLsb' 0 32 = w := by
  ext i hi
  simp only [BitVec.getElem_append, BitVec.getElem_extractLsb']
  split
  · simpa using BitVec.getLsbD_eq_getElem hi
  · rw [show 32 + (i - 32) = i by omega]; exact BitVec.getLsbD_eq_getElem hi

/-- A source operand is read back from its code and its literal words. -/
theorem decodeSrc_code (b : Src) (hb : b.wf = true) (rest : List (BitVec 32)) :
    decodeSrc b.code ((b.words ++ rest).getD 0 0#32) ((b.words ++ rest).getD 1 0#32) = b := by
  cases b with
  | reg r =>
      have h : r.toNat < 62 := by simpa [Src.wf] using hb
      simp [decodeSrc, Src.code, toNat_ne (a := r) (b := 62#6) (by simp; omega), toNat_ne (a := r) (b := 63#6) (by simp; omega)]
  | lit32 w => simp [decodeSrc, Src.code, Src.words]
  | lit64 w => simp [decodeSrc, Src.code, Src.words, lit64_halves]

theorem wordCount_code (mop : BitVec 6) (b : Src) (hm : isSR mop = true) (hb : b.wf = true) :
    wordCount mop b.code = b.words.length + 1 := by
  cases b with
  | reg r =>
      have h : r.toNat < 62 := by simpa [Src.wf] using hb
      simp [wordCount, hm, Src.code, Src.words, toNat_ne (a := r) (b := 62#6) (by simp; omega), toNat_ne (a := r) (b := 63#6) (by simp; omega)]
  | lit32 w => simp [wordCount, hm, Src.code, Src.words]
  | lit64 w => simp [wordCount, hm, Src.code, Src.words]

/-- Form SR with a source operand. -/
theorem decode_encSR {mop d a : BitVec 6} {b : Src} {g fn : BitVec 4} (rest : List (BitVec 32)) (hm : isSR mop = true)
    (hb : b.wf = true) :
    decode (encSR mop d a b g fn ++ rest) = decodeSR mop d a b.code g fn b (mkSR mop d a b.code g fn) := by
  simp only [encSR, List.cons_append, decode, fMop_mkSR, fRd_mkSR, fRa_mkSR, fRb_mkSR, fGuard_mkSR, fFn_mkSR, hm, if_true,
    baseWords, wordCount_code mop b hm hb, decodeSrc_code b hb, List.length_append]
  rw [if_neg (by omega)]

/-- Form SR with a register field, or an unused one. -/
theorem decode_mkSR {mop d a r : BitVec 6} {g fn : BitVec 4} (rest : List (BitVec 32)) (hm : isSR mop = true)
    (hr : r.toNat < 62) :
    decode (mkSR mop d a r g fn :: rest) = decodeSR mop d a r g fn (.reg r) (mkSR mop d a r g fn) :=
  decode_encSR (b := .reg r) rest hm (by simpa [Src.wf] using hr)

theorem decode_mkSI {mop d a : BitVec 6} {g : BitVec 4} {k : BitVec 10} (rest : List (BitVec 32)) (hm : isSR mop = false)
    (h : mop.toNat < 0x20) : decode (mkSI mop d a g k :: rest) = decodeSI mop d a g k (mkSI mop d a g k) := by
  simp [decode, fMop_mkSI, fRd_mkSI, fRa_mkSI, guard_mkSI, imm_mkSI, hm, h]

theorem decode_mkSM {mop d a : BitVec 6} {g : BitVec 4} {z : BitVec 2} {o : BitVec 8} (rest : List (BitVec 32))
    (hm : isSR mop = false) (h : 0x20 ≤ mop.toNat) (h' : mop.toNat < 0x28) :
    decode (mkSM mop d a g z o :: rest) = decodeSM mop d a g z o (mkSM mop d a g z o) := by
  simp [decode, fMop_mkSM, fRd_mkSM, fRa_mkSM, guard_mkSM, size_mkSM, off_mkSM, hm, h', Nat.not_lt.mpr h]

theorem decode_mkSB {mop : BitVec 6} {g : BitVec 4} {disp : BitVec 22} (rest : List (BitVec 32))
    (h : mop = 0x28#6 ∨ mop = 0x29#6) : decode (mkSB mop g disp :: rest) = decodeSB mop g disp (mkSB mop g disp) := by
  rcases h with rfl | rfl <;> simp [decode, fMop_mkSB, guard_mkSB, disp_mkSB, isSR]

theorem decode_mkSA {d a b : BitVec 6} {z o : BitVec 2} {aop : BitVec 4} (rest : List (BitVec 32)) :
    decode (mkSA d a b z o aop :: rest) = decodeSA d a b z o aop (mkSA d a b z o aop) := by
  simp [decode, fMop_mkSA, fRd_mkSA, fRa_mkSA, fRb_mkSA, fFn_mkSA, size_mkSA, order_mkSA, isSR]

/-! ### Small fields -/

theorem pField_low (p : BitVec 3) : (pField p).extractLsb' 0 3 = p := by
  revert p; decide
theorem pField_high (p : BitVec 3) : (pField p).extractLsb' 3 3 = 0#3 := by
  revert p; decide
theorem pField_lt (p : BitVec 3) : (pField p).toNat < 62 := by
  revert p; decide
theorem barRd_high (f : BitVec 1) (b : BitVec 7) : (barRd f b).extractLsb' 2 4 = 0#4 := by
  revert f b; decide
theorem barRd_flag (f : BitVec 1) (b : BitVec 7) : (barRd f b).extractLsb' 1 1 = f := by
  revert f b; decide
theorem bar_parts (f : BitVec 1) (b : BitVec 7) : (barRd f b).extractLsb' 0 1 ++ barRa b = b := by
  revert f b; decide
theorem tidRd_high (t : BitVec 8) : (tidRd t).extractLsb' 2 4 = 0#4 := by
  revert t; decide
theorem tid_parts (t : BitVec 8) : (tidRd t).extractLsb' 0 2 ++ tidRa t = t := by
  revert t; decide
theorem trig_high (t : BitVec 4) : ((0#2 ++ t : BitVec 6)).extractLsb' 4 2 = 0#2 := by
  revert t; decide
theorem trig_low (t : BitVec 4) : ((0#2 ++ t : BitVec 6)).extractLsb' 0 4 = t := by
  revert t; decide

/-! ### Form E -/

theorem decodeEArgs_enc (mop sub : BitVec 6) (e : EArgs) :
    decodeEArgs (mkSR mop sub e.xa e.xb e.guard e.flags) (e.post ++ e.wait0 ++ e.wait1 ++ e.wait2 ++ e.xc ++ e.order) = e := by
  simp only [decodeEArgs, fRa_mkSR, fRb_mkSR, fGuard_mkSR, fFn_mkSR, ePost_word, eWait0_word, eWait1_word, eWait2_word, eXc_word,
    eOrder_word]

/-- The words of an operation name it, KVREF's two forms by their flag. -/
theorem decodeEOp_words (op : EOp) (e : EArgs) (h : op.ok e = true) :
    decodeEOp (mkSR op.code.1 op.code.2 e.xa e.xb e.guard e.flags) = some op := by
  simp only [decodeEOp, fMop_mkSR, fRd_mkSR, fFn_mkSR]
  cases op <;> first
    | rfl
    | (have hf : e.flags = 0#4 := by simp [EOp.ok, EOp.argsOk] at h; exact h.1.1
       rw [hf]; rfl)
    | (have hf : e.flags = 1#4 := by simp [EOp.ok, EOp.argsOk] at h; exact h.1.1
       rw [hf]; rfl)

theorem decodeGoverned_words (op : EOp) (e : EArgs) (h : op.ok e = true) :
    decodeGoverned (mkSR op.code.1 op.code.2 e.xa e.xb e.guard e.flags)
      (e.post ++ e.wait0 ++ e.wait1 ++ e.wait2 ++ e.xc ++ e.order) = some (op, e) := by
  simp [decodeGoverned, decodeEOp_words op e h, decodeEArgs_enc]

theorem eop_mop (op : EOp) : isSR op.code.1 = false ∧ 0x38 ≤ op.code.1.toNat ∧ op.code.1.toNat ≤ 0x3E ∧ op.code.1 ≠ 0x3E#6 := by
  cases op <;> decide

/-- From a word of form E on, the decoder is `decodeE`. -/
theorem decode_E {w : BitVec 32} {rest : List (BitVec 32)} (hm : isSR (fMop w) = false) (h : 0x38 ≤ (fMop w).toNat)
    (h' : (fMop w).toNat ≤ 0x3E) : decode (w :: rest) = decodeE (w :: rest) := by
  have h1 : ¬ (fMop w).toNat < 0x20 := by omega
  have h2 : ¬ (fMop w).toNat < 0x28 := by omega
  have h3 : ¬ (fMop w).toNat = 0x2C := by omega
  have h4 : ¬ (fMop w).toNat = 0x28 := by omega
  have h5 : ¬ (fMop w).toNat = 0x29 := by omega
  have h6 : ¬ (fMop w).toNat = 0x37 := by omega
  simp [decode, hm, h1, h2, h3, h4, h5, h6, h, h']

/-- An engine operation without a prefix. -/
theorem decode_eop (op : EOp) (e : EArgs) (rest : List (BitVec 32)) (h : op.ok e = true) :
    decode (op.words e ++ rest) = checked (op.instr e) := by
  have ⟨h1, h2, h3, h4⟩ := eop_mop op
  simp only [EOp.words, encE, List.cons_append, List.nil_append]
  rw [decode_E (by rw [fMop_mkSR]; exact h1) (by rw [fMop_mkSR]; exact h2) (by rw [fMop_mkSR]; exact h3)]
  simp [decodeE, fMop_mkSR, h4, decodeEOp_words op e h, decodeEArgs_enc]

theorem prefix_ok (sub xa : BitVec 6) : prefixOk (mkSR 0x3E#6 sub xa 0#6 0#4 0#4) 0xFFFFFF00#32 = true := by
  have : (mkSR 0x3E#6 sub xa 0#6 0#4 0#4).extractLsb' 0 14 = 0#14 := by
    ext i hi
    simp only [mkSR, BitVec.getElem_extractLsb', BitVec.getLsbD_append]
    interval_cases i <;> simp
  simp [prefixOk, this]

theorem isGang_prefix (xa : BitVec 6) : isGang (mkSR 0x3E#6 0#6 xa 0#6 0#4 0#4) 0xFFFFFF00#32 = true := by
  simp [isGang, fMop_mkSR, fRd_mkSR, prefix_ok]
theorem isChain_prefix : isChain (mkSR 0x3E#6 1#6 0#6 0#6 0#4 0#4) 0xFFFFFF00#32 = true := by
  simp [isChain, fMop_mkSR, fRd_mkSR, fRa_mkSR, prefix_ok]
theorem notGang_prefix : isGang (mkSR 0x3E#6 1#6 0#6 0#6 0#4 0#4) 0xFFFFFF00#32 = false := by
  simp [isGang, fMop_mkSR, fRd_mkSR]
theorem notChain_word (op : EOp) (e : EArgs) (v : BitVec 32) : isChain (mkSR op.code.1 op.code.2 e.xa e.xb e.guard e.flags) v = false := by
  have := (eop_mop op).2.2.2
  simp [isChain, fMop_mkSR, this]

/-! ### Vector words -/

theorem decodeVArgs_mkV (vop : BitVec 8) (v : VArgs) : decodeVArgs (mkV vop v) = v := by
  simp only [decodeVArgs, vd_mkV, va_mkV, vb_mkV, mask_mkV, walk_mkV, rep_mkV, asel_mkV, step_mkV, idle_mkV]

theorem decodeVector_mkV (vop : BitVec 8) (v : VArgs) : decodeVector (mkV vop v) = decodeV vop v (mkV vop v) := by
  simp only [decodeVector, decodeVArgs_mkV, vop_mkV]

end Sys2Proof.Laws
end

