-- ==== Sys2Proof/Laws/PerInstr.lean ====
section
/-! SUPPORT. The encoding of every instruction, one lemma per constructor: decoding what the encoder writes gives
the instruction back, with every operand at every value its encoding admits; a step or an event has no words. -/

namespace Sys2Proof.Laws.RoundTrip

set_option Elab.async false

/-- The encoder and the decoder agree on this instruction, in the stream its form is fetched from. -/
def Statement (i : Instr) : Prop :=
  match i.form with
  | .vector => i.wf = true → ∃ w, encodeVector i = some w ∧ decodeVector w = .ok i
  | .event => encode i = [] ∧ encodeVector i = none
  | .scalar => i.wf = true → ∀ rest, decode (encode i ++ rest) = .ok i
  | .engine => i.wf = true → ∀ rest, decode (encode i ++ rest) = .ok i

/-! ### One lemma per shape -/

/-- Form SR with a source operand. -/
theorem srForm {i : Instr} {mop d a : BitVec 6} (b : Src) (g fn : BitVec 4) (he : encode i = encSR mop d a b g fn)
    (hb : i.wf = true → b.wf = true) (hd : decodeSR mop d a b.code g fn b (mkSR mop d a b.code g fn) = checked i)
    (hm : isSR mop = true := by rfl) (h : i.wf = true) (rest : List (BitVec 32)) : decode (encode i ++ rest) = .ok i := by
  rw [he, decode_encSR rest hm (hb h), hd, checked_ok h]

/-- Form SR with a register field in place of the source operand. -/
theorem srReg {i : Instr} {mop d a : BitVec 6} (r : BitVec 6) (g fn : BitVec 4) (he : encode i = [mkSR mop d a r g fn])
    (hr : i.wf = true → r.toNat < 62) (hd : decodeSR mop d a r g fn (.reg r) (mkSR mop d a r g fn) = checked i)
    (hm : isSR mop = true := by rfl) (h : i.wf = true) (rest : List (BitVec 32)) : decode (encode i ++ rest) = .ok i := by
  rw [he, List.singleton_append, decode_mkSR rest hm (hr h), hd, checked_ok h]

/-- Form SR without a source operand. -/
theorem srPlain {i : Instr} {mop d a : BitVec 6} (g fn : BitVec 4) (he : encode i = [mkSR mop d a 0#6 g fn])
    (hd : decodeSR mop d a 0#6 g fn (.reg 0#6) (mkSR mop d a 0#6 g fn) = checked i)
    (hm : isSR mop = true := by rfl) (h : i.wf = true) (rest : List (BitVec 32)) : decode (encode i ++ rest) = .ok i :=
  srReg 0#6 g fn he (fun _ => by decide) hd hm h rest

theorem siForm {i : Instr} {mop d a : BitVec 6} {g : BitVec 4} {k : BitVec 10} (he : encode i = [mkSI mop d a g k])
    (hd : decodeSI mop d a g k (mkSI mop d a g k) = checked i)
    (hm : isSR mop = false := by rfl) (hl : mop.toNat < 0x20 := by decide) (h : i.wf = true) (rest : List (BitVec 32)) :
    decode (encode i ++ rest) = .ok i := by
  rw [he, List.singleton_append, decode_mkSI rest hm hl, hd, checked_ok h]

theorem smForm {i : Instr} {mop d a : BitVec 6} {g : BitVec 4} {z : BitVec 2} {o : BitVec 8}
    (he : encode i = [mkSM mop d a g z o]) (hd : decodeSM mop d a g z o (mkSM mop d a g z o) = checked i)
    (hm : isSR mop = false := by rfl) (hl : 0x20 ≤ mop.toNat := by decide) (hu : mop.toNat < 0x28 := by decide)
    (h : i.wf = true) (rest : List (BitVec 32)) : decode (encode i ++ rest) = .ok i := by
  rw [he, List.singleton_append, decode_mkSM rest hm hl hu, hd, checked_ok h]

theorem sbForm {i : Instr} {mop : BitVec 6} {g : BitVec 4} {disp : BitVec 22} (he : encode i = [mkSB mop g disp])
    (hd : decodeSB mop g disp (mkSB mop g disp) = checked i) (hm : mop = 0x28#6 ∨ mop = 0x29#6 := by decide)
    (h : i.wf = true) (rest : List (BitVec 32)) : decode (encode i ++ rest) = .ok i := by
  rw [he, List.singleton_append, decode_mkSB rest hm, hd, checked_ok h]

theorem saForm {i : Instr} {d a b : BitVec 6} {z o : BitVec 2} {aop : BitVec 4} (he : encode i = [mkSA d a b z o aop])
    (hd : decodeSA d a b z o aop (mkSA d a b z o aop) = checked i) (h : i.wf = true) (rest : List (BitVec 32)) :
    decode (encode i ++ rest) = .ok i := by
  rw [he, List.singleton_append, decode_mkSA rest, hd, checked_ok h]

/-- An engine operation without a prefix. -/
theorem eForm {i : Instr} {op : EOp} {e : EArgs} (he : encode i = op.words e) (hi : op.instr e = i)
    (hw : i.wf = op.ok e := by rfl) (h : i.wf = true) (rest : List (BitVec 32)) : decode (encode i ++ rest) = .ok i := by
  rw [he, decode_eop op e rest (hw ▸ h), hi, checked_ok h]

/-- A V-kind word. -/
theorem vkind {i : Instr} {vop : BitVec 8} (v : VArgs) (he : encodeVector i = some (mkV vop v))
    (hd : decodeV vop v (mkV vop v) = checked i) (h : i.wf = true) : ∃ w, encodeVector i = some w ∧ decodeVector w = .ok i :=
  ⟨_, he, by rw [decodeVector_mkV, hd, checked_ok h]⟩

/-- A VMOV word: the form is the one its element type code names. -/
theorem vmov_rt {i : Instr} (v : VArgs) (he : encodeVector i = some (mkV 0x68#8 v))
    (hd : i.wf = true → decodeVmov v = checked i) (h : i.wf = true) : ∃ w, encodeVector i = some w ∧ decodeVector w = .ok i :=
  ⟨_, he, by rw [decodeVector_mkV]; exact (hd h).trans (checked_ok h)⟩

/-! ### The instructions that no shape covers -/

theorem vmovCK_asel (v : VArgs) (h : (Instr.vmovCK v).wf = true) : decodeVmov v = checked (.vmovCK v) := by
  simp only [Instr.wf, Bool.and_eq_true, decide_eq_true_eq] at h
  have : v.asel.toNat < 4 := h.1.2
  simp only [decodeVmov]
  interval_cases v.asel.toNat <;> rfl
theorem vmovV_asel (v : VArgs) (h : (Instr.vmovV v).wf = true) : decodeVmov v = checked (.vmovV v) := by
  simp only [Instr.wf, typeW, Bool.and_eq_true, decide_eq_true_eq] at h
  obtain ⟨-, h1, h2⟩ := h
  simp only [decodeVmov]
  interval_cases v.asel.toNat <;> rfl
theorem vmovAK_asel (v : VArgs) (h : (Instr.vmovAK v).wf = true) : decodeVmov v = checked (.vmovAK v) := by
  simp only [Instr.wf, Bool.and_eq_true, beq_iff_eq] at h
  simp only [decodeVmov, h.1.1.1.2]
  rfl
theorem vmovAdd_asel (v : VArgs) (h : (Instr.vmovAdd v).wf = true) : decodeVmov v = checked (.vmovAdd v) := by
  simp only [Instr.wf, Bool.and_eq_true, beq_iff_eq] at h
  simp only [decodeVmov, h.1.1.2]
  rfl
theorem vmovKV_asel (v : VArgs) (h : (Instr.vmovKV v).wf = true) : decodeVmov v = checked (.vmovKV v) := by
  simp only [Instr.wf, Bool.and_eq_true, beq_iff_eq] at h
  simp only [decodeVmov, h.1.2]
  rfl

theorem vsetk_rt (kd : BitVec 4) (imm : BitVec 32) (idle : BitVec 4) : Statement (.vsetk kd imm idle) := by
  refine fun _ => ⟨_, rfl, ?_⟩
  have h1 : (0x70#8 ++ kd ++ imm ++ idle).extractLsb' 40 8 = 0x70#8 := by
    ext i hi; simp only [BitVec.getElem_extractLsb', BitVec.getLsbD_append]; interval_cases i <;> simp [BitVec.getLsbD_eq_getElem]
  have h2 : (0x70#8 ++ kd ++ imm ++ idle).extractLsb' 36 4 = kd := by
    ext i hi; simp only [BitVec.getElem_extractLsb', BitVec.getLsbD_append]; interval_cases i <;> simp [BitVec.getLsbD_eq_getElem]
  have h3 : (0x70#8 ++ kd ++ imm ++ idle).extractLsb' 4 32 = imm := by
    ext i hi; simp only [BitVec.getElem_extractLsb', BitVec.getLsbD_append]; interval_cases i <;> simp [BitVec.getLsbD_eq_getElem]
  have h4 : (0x70#8 ++ kd ++ imm ++ idle).extractLsb' 0 4 = idle := by
    ext i hi; simp only [BitVec.getElem_extractLsb', BitVec.getLsbD_append]; interval_cases i <;> simp [BitVec.getLsbD_eq_getElem]
  simp only [decodeVector, h1]
  show checked (.vsetk _ _ _) = _
  rw [h2, h3, h4]; rfl

theorem vlp_rt (cn : BitVec 2) (target : BitVec 14) (idle : BitVec 5) : Statement (.vlp cn target idle) := by
  refine fun h => ⟨_, rfl, ?_⟩
  have h1 : (0x71#8 ++ cn ++ 0#2 ++ target ++ 0#17 ++ idle).extractLsb' 40 8 = 0x71#8 := by
    ext i hi; simp only [BitVec.getElem_extractLsb', BitVec.getLsbD_append]; interval_cases i <;> simp [BitVec.getLsbD_eq_getElem]
  have h2 : (0x71#8 ++ cn ++ 0#2 ++ target ++ 0#17 ++ idle).extractLsb' 38 2 = cn := by
    ext i hi; simp only [BitVec.getElem_extractLsb', BitVec.getLsbD_append]; interval_cases i <;> simp [BitVec.getLsbD_eq_getElem]
  have h3 : (0x71#8 ++ cn ++ 0#2 ++ target ++ 0#17 ++ idle).extractLsb' 22 14 = target := by
    ext i hi; simp only [BitVec.getElem_extractLsb', BitVec.getLsbD_append]; interval_cases i <;> simp [BitVec.getLsbD_eq_getElem]
  have h4 : (0x71#8 ++ cn ++ 0#2 ++ target ++ 0#17 ++ idle).extractLsb' 0 5 = idle := by
    ext i hi; simp only [BitVec.getElem_extractLsb', BitVec.getLsbD_append]; interval_cases i <;> simp [BitVec.getLsbD_eq_getElem]
  have h5 : (0x71#8 ++ cn ++ 0#2 ++ target ++ 0#17 ++ idle).extractLsb' 36 2 = 0#2 := by
    ext i hi; simp only [BitVec.getElem_extractLsb', BitVec.getLsbD_append]; interval_cases i <;> simp [BitVec.getLsbD_eq_getElem]
  have h6 : (0x71#8 ++ cn ++ 0#2 ++ target ++ 0#17 ++ idle).extractLsb' 5 17 = 0#17 := by
    ext i hi; simp only [BitVec.getElem_extractLsb', BitVec.getLsbD_append]; interval_cases i <;> simp [BitVec.getLsbD_eq_getElem]
  simp only [decodeVector, h1]
  show resv _ (.vlp _ _ _) = _
  rw [h2, h3, h4, h5, h6]
  exact checked_ok h

theorem nop_rt (n : BitVec 26) : Statement (.nop n) := by
  intro _ rest
  have h1 : fMop (0x37#6 ++ n) = 0x37#6 := by ext i hi; simp only [fMop, BitVec.getElem_extractLsb', BitVec.getLsbD_append]; interval_cases i <;> simp [BitVec.getLsbD_eq_getElem]
  have h2 : (0x37#6 ++ n).extractLsb' 0 26 = n := by
    ext i hi; simp only [BitVec.getElem_extractLsb', BitVec.getLsbD_append]; interval_cases i <;> simp [BitVec.getLsbD_eq_getElem]
  show decode ((0x37#6 ++ n) :: rest) = _
  simp [decode, h1, h2, isSR]

theorem lit_rt (d : BitVec 6) (b : Src) (g : BitVec 4) : Statement (.lit d b g) :=
  srForm b g 0#4 rfl (fun h => by cases b <;> simp_all [Instr.wf, Src.isLit, Src.wf]) rfl

theorem cmp_rt (p : BitVec 3) (a : BitVec 6) (b : Src) (g c : BitVec 4) : Statement (.cmp p a b g c) := fun h =>
  have h' : (srOk b g = true ∧ (p != 0#3) = true) ∧ c.toNat < 10 := by simpa [Instr.wf] using h
  srForm b g c rfl (fun _ => srOk_wf h'.1.1) (by
    show (if c.toNat < 10 then resv _ _ else _) = _
    rw [if_pos h'.2]; simp only [pField_low, pField_high]; rfl) rfl h

theorem trig_rt (t : BitVec 4) (b : Src) (g : BitVec 4) : Statement (.trig t b g) :=
  srForm b g 4#4 rfl (fun h => srOk_wf h) (by
    show resv _ (.trig _ b g) = _
    simp only [trig_high, trig_low]; rfl)

theorem binit_rt (bar : BitVec 7) (b : Src) (g : BitVec 4) : Statement (.binit bar b g) :=
  srForm b g 0#4 rfl (fun h => srOk_wf h) (by
    show resv _ (.binit _ b g) = _
    simp only [barRd_high, barRd_flag, bar_parts]; rfl)

theorem barv_rt (bar : BitVec 7) (g : BitVec 4) : Statement (.barv bar g) :=
  srPlain g 1#4 rfl (by
    show (if _ then _ else resv _ (.barv _ g)) = _
    simp only [barRd_high, barRd_flag, bar_parts]; rfl)

theorem barvRemote_rt (bar : BitVec 7) (t : Src) (g : BitVec 4) : Statement (.barvRemote bar t g) :=
  srForm t g 1#4 rfl (fun h => srOk_wf h) (by
    show (if _ then resv _ (.barvRemote _ t g) else _) = _
    simp only [barRd_high, barRd_flag, bar_parts]; rfl)

theorem bwait_rt (bar : BitVec 7) (b : Src) (g : BitVec 4) : Statement (.bwait bar b g) :=
  srForm b g 3#4 rfl (fun h => srOk_wf h) (by
    show (if _ then _ else resv _ (.bwait _ b g)) = _
    simp only [barRd_high, barRd_flag, bar_parts]; rfl)

theorem bwaitX_rt (bar : BitVec 7) (b : Src) (g : BitVec 4) : Statement (.bwaitX bar b g) :=
  srForm b g 3#4 rfl (fun h => srOk_wf h) (by
    show (if _ then resv _ (.bwaitX _ b g) else _) = _
    simp only [barRd_high, barRd_flag, bar_parts]; rfl)

theorem tidset_rt (t : BitVec 8) (b : Src) (g : BitVec 4) : Statement (.tidset t b g) :=
  srForm b g 2#4 rfl (fun h => srOk_wf h) (by
    show resv _ (.tidset _ b g) = _
    simp only [tidRd_high, tid_parts]; rfl)

theorem tidget_rt (t : BitVec 8) (b : Src) (g : BitVec 4) : Statement (.tidget t b g) :=
  srForm b g 3#4 rfl (fun h => srOk_wf h) (by
    show resv _ (.tidget _ b g) = _
    simp only [tidRd_high, tid_parts]; rfl)

theorem pand_rt (d a b : BitVec 3) (g : BitVec 4) : Statement (.pand d a b g) :=
  srReg (pField b) g 0#4 rfl (fun _ => pField_lt b) (by
    show resv _ (.pand _ _ _ g) = _
    simp only [pField_low, pField_high]; rfl)
theorem por_rt (d a b : BitVec 3) (g : BitVec 4) : Statement (.por d a b g) :=
  srReg (pField b) g 1#4 rfl (fun _ => pField_lt b) (by
    show resv _ (.por _ _ _ g) = _
    simp only [pField_low, pField_high]; rfl)
theorem pxor_rt (d a b : BitVec 3) (g : BitVec 4) : Statement (.pxor d a b g) :=
  srReg (pField b) g 2#4 rfl (fun _ => pField_lt b) (by
    show resv _ (.pxor _ _ _ g) = _
    simp only [pField_low, pField_high]; rfl)
theorem pnot_rt (d a : BitVec 3) (g : BitVec 4) : Statement (.pnot d a g) :=
  srPlain g 3#4 rfl (by
    show resv _ (.pnot _ _ g) = _
    simp only [pField_low, pField_high]; rfl)

theorem tget_rt (d a sel : BitVec 6) (g : BitVec 4) : Statement (.tget d a sel g) :=
  srReg sel g 2#4 rfl (fun h => by simp [Instr.wf] at h; omega) rfl
theorem mfs_rt (d sr : BitVec 6) (g : BitVec 4) : Statement (.mfs d sr g) :=
  srReg sr g 0#4 rfl (fun h => by simp [Instr.wf] at h; omega) rfl
theorem mts_rt (a sr : BitVec 6) (g : BitVec 4) : Statement (.mts a sr g) :=
  srReg sr g 1#4 rfl (fun h => by simp [Instr.wf] at h; rcases h.2 with h | h <;> simp [h]) rfl

theorem fence_rt (g sc : BitVec 4) : Statement (.fence g sc) := fun h =>
  have h' : guardOk g = true ∧ sc.toNat < 6 := by simpa [Instr.wf] using h
  srPlain g sc rfl (by
    show (if sc.toNat < 6 then resv _ _ else _) = _
    rw [if_pos h'.2]; rfl) rfl h

theorem kvrefInc_rt (e : EArgs) : Statement (.kvrefInc e) := eForm (op := .kvrefInc) rfl rfl
theorem kvrefDec_rt (e : EArgs) : Statement (.kvrefDec e) := eForm (op := .kvrefDec) rfl rfl

/-- The governed instruction's words follow a CHAIN prefix. -/
theorem chain_rt (op : EOp) (e : EArgs) : Statement (.chain op e) := by
  intro h rest
  have h' : op.ok e = true ∧ op.chainable = true := by simpa [Instr.wf] using h
  show decode (mkSR 0x3E#6 1#6 0#6 0#6 0#4 0#4 :: (0xFFFFFF00#32 :: (op.words e ++ rest))) = _
  rw [decode_E (by rw [fMop_mkSR]; rfl) (by rw [fMop_mkSR]; decide) (by rw [fMop_mkSR]; decide)]
  simp [decodeE, fMop_mkSR, fRd_mkSR, notGang_prefix, isChain_prefix, EOp.words, encE, decodeGoverned_words op e h'.1, h'.2,
    checked_ok h]

/-- The governed instruction's words follow a GANG prefix, and a CHAIN prefix where there is one. -/
theorem gang_rt (xa : BitVec 6) (chained : Bool) (op : EOp) (e : EArgs) : Statement (.gang xa chained op e) := by
  intro h rest
  have h' : (op.ok e = true ∧ op.gangable = true) ∧ (chained = false ∨ op.chainable = true) := by simpa [Instr.wf] using h
  cases chained with
  | false =>
      show decode (mkSR 0x3E#6 0#6 xa 0#6 0#4 0#4 :: (0xFFFFFF00#32 :: (op.words e ++ rest))) = _
      rw [decode_E (by rw [fMop_mkSR]; rfl) (by rw [fMop_mkSR]; decide) (by rw [fMop_mkSR]; decide)]
      simp [decodeE, fMop_mkSR, fRd_mkSR, fRa_mkSR, isGang_prefix, EOp.words, encE, notChain_word,
        decodeGoverned_words op e h'.1.1, h'.1.2, checked_ok h]
  | true =>
      show decode (mkSR 0x3E#6 0#6 xa 0#6 0#4 0#4 :: (0xFFFFFF00#32 ::
        (mkSR 0x3E#6 1#6 0#6 0#6 0#4 0#4 :: (0xFFFFFF00#32 :: (op.words e ++ rest))))) = _
      rw [decode_E (by rw [fMop_mkSR]; rfl) (by rw [fMop_mkSR]; decide) (by rw [fMop_mkSR]; decide)]
      simp [decodeE, fMop_mkSR, fRd_mkSR, fRa_mkSR, isGang_prefix, isChain_prefix, EOp.words, encE,
        decodeGoverned_words op e h'.1.1, h'.1.2, checked_ok h]

/-! ### Every constructor -/

theorem add (d : BitVec 6) (a : BitVec 6) (b : Src) (g : BitVec 4) : Statement (.add d a b g) := srForm b _ _ rfl (fun h => srOk_wf h) rfl
theorem sub (d : BitVec 6) (a : BitVec 6) (b : Src) (g : BitVec 4) : Statement (.sub d a b g) := srForm b _ _ rfl (fun h => srOk_wf h) rfl
theorem mul (d : BitVec 6) (a : BitVec 6) (b : Src) (g : BitVec 4) : Statement (.mul d a b g) := srForm b _ _ rfl (fun h => srOk_wf h) rfl
theorem mulh (d : BitVec 6) (a : BitVec 6) (b : Src) (g : BitVec 4) : Statement (.mulh d a b g) := srForm b _ _ rfl (fun h => srOk_wf h) rfl
theorem mulhn (d : BitVec 6) (a : BitVec 6) (b : Src) (g : BitVec 4) : Statement (.mulhn d a b g) := srForm b _ _ rfl (fun h => srOk_wf h) rfl
theorem div (d : BitVec 6) (a : BitVec 6) (b : Src) (g : BitVec 4) : Statement (.div d a b g) := srForm b _ _ rfl (fun h => srOk_wf h) rfl
theorem divn (d : BitVec 6) (a : BitVec 6) (b : Src) (g : BitVec 4) : Statement (.divn d a b g) := srForm b _ _ rfl (fun h => srOk_wf h) rfl
theorem rem (d : BitVec 6) (a : BitVec 6) (b : Src) (g : BitVec 4) : Statement (.rem d a b g) := srForm b _ _ rfl (fun h => srOk_wf h) rfl
theorem remn (d : BitVec 6) (a : BitVec 6) (b : Src) (g : BitVec 4) : Statement (.remn d a b g) := srForm b _ _ rfl (fun h => srOk_wf h) rfl
theorem min (d : BitVec 6) (a : BitVec 6) (b : Src) (g : BitVec 4) : Statement (.min d a b g) := srForm b _ _ rfl (fun h => srOk_wf h) rfl
theorem max (d : BitVec 6) (a : BitVec 6) (b : Src) (g : BitVec 4) : Statement (.max d a b g) := srForm b _ _ rfl (fun h => srOk_wf h) rfl
theorem minn (d : BitVec 6) (a : BitVec 6) (b : Src) (g : BitVec 4) : Statement (.minn d a b g) := srForm b _ _ rfl (fun h => srOk_wf h) rfl
theorem maxn (d : BitVec 6) (a : BitVec 6) (b : Src) (g : BitVec 4) : Statement (.maxn d a b g) := srForm b _ _ rfl (fun h => srOk_wf h) rfl
theorem and (d : BitVec 6) (a : BitVec 6) (b : Src) (g : BitVec 4) : Statement (.and d a b g) := srForm b _ _ rfl (fun h => srOk_wf h) rfl
theorem or (d : BitVec 6) (a : BitVec 6) (b : Src) (g : BitVec 4) : Statement (.or d a b g) := srForm b _ _ rfl (fun h => srOk_wf h) rfl
theorem xor (d : BitVec 6) (a : BitVec 6) (b : Src) (g : BitVec 4) : Statement (.xor d a b g) := srForm b _ _ rfl (fun h => srOk_wf h) rfl
theorem andn (d : BitVec 6) (a : BitVec 6) (b : Src) (g : BitVec 4) : Statement (.andn d a b g) := srForm b _ _ rfl (fun h => srOk_wf h) rfl
theorem shl (d : BitVec 6) (a : BitVec 6) (b : Src) (g : BitVec 4) : Statement (.shl d a b g) := srForm b _ _ rfl (fun h => srOk_wf h) rfl
theorem shr (d : BitVec 6) (a : BitVec 6) (b : Src) (g : BitVec 4) : Statement (.shr d a b g) := srForm b _ _ rfl (fun h => srOk_wf h) rfl
theorem sra (d : BitVec 6) (a : BitVec 6) (b : Src) (g : BitVec 4) : Statement (.sra d a b g) := srForm b _ _ rfl (fun h => srOk_wf h) rfl
theorem rotl (d : BitVec 6) (a : BitVec 6) (b : Src) (g : BitVec 4) : Statement (.rotl d a b g) := srForm b _ _ rfl (fun h => srOk_wf h) rfl
theorem mov (d : BitVec 6) (a : BitVec 6) (g : BitVec 4) : Statement (.mov d a g) := srPlain _ _ rfl rfl
theorem clz (d : BitVec 6) (a : BitVec 6) (g : BitVec 4) : Statement (.clz d a g) := srPlain _ _ rfl rfl
theorem ctz (d : BitVec 6) (a : BitVec 6) (g : BitVec 4) : Statement (.ctz d a g) := srPlain _ _ rfl rfl
theorem popc (d : BitVec 6) (a : BitVec 6) (g : BitVec 4) : Statement (.popc d a g) := srPlain _ _ rfl rfl
theorem sextB (d : BitVec 6) (a : BitVec 6) (g : BitVec 4) : Statement (.sextB d a g) := srPlain _ _ rfl rfl
theorem sextH (d : BitVec 6) (a : BitVec 6) (g : BitVec 4) : Statement (.sextH d a g) := srPlain _ _ rfl rfl
theorem sextW (d : BitVec 6) (a : BitVec 6) (g : BitVec 4) : Statement (.sextW d a g) := srPlain _ _ rfl rfl
theorem zextB (d : BitVec 6) (a : BitVec 6) (g : BitVec 4) : Statement (.zextB d a g) := srPlain _ _ rfl rfl
theorem zextH (d : BitVec 6) (a : BitVec 6) (g : BitVec 4) : Statement (.zextH d a g) := srPlain _ _ rfl rfl
theorem zextW (d : BitVec 6) (a : BitVec 6) (g : BitVec 4) : Statement (.zextW d a g) := srPlain _ _ rfl rfl
theorem cmp (p : BitVec 3) (a : BitVec 6) (b : Src) (g : BitVec 4) (cc : BitVec 4) : Statement (.cmp p a b g cc) := cmp_rt p a b g cc
theorem pand (d : BitVec 3) (a : BitVec 3) (b : BitVec 3) (g : BitVec 4) : Statement (.pand d a b g) := pand_rt d a b g
theorem por (d : BitVec 3) (a : BitVec 3) (b : BitVec 3) (g : BitVec 4) : Statement (.por d a b g) := por_rt d a b g
theorem pxor (d : BitVec 3) (a : BitVec 3) (b : BitVec 3) (g : BitVec 4) : Statement (.pxor d a b g) := pxor_rt d a b g
theorem pnot (d : BitVec 3) (a : BitVec 3) (g : BitVec 4) : Statement (.pnot d a g) := pnot_rt d a g
theorem lit (d : BitVec 6) (b : Src) (g : BitVec 4) : Statement (.lit d b g) := lit_rt d b g
theorem tptr (d : BitVec 6) (a : BitVec 6) (b : Src) (g : BitVec 4) : Statement (.tptr d a b g) := srForm b _ _ rfl (fun h => srOk_wf h) rfl
theorem tadd (d : BitVec 6) (a : BitVec 6) (b : Src) (g : BitVec 4) : Statement (.tadd d a b g) := srForm b _ _ rfl (fun h => srOk_wf h) rfl
theorem tget (d : BitVec 6) (a : BitVec 6) (sel : BitVec 6) (g : BitVec 4) : Statement (.tget d a sel g) := tget_rt d a sel g
theorem addSi (d : BitVec 6) (a : BitVec 6) (g : BitVec 4) (i : BitVec 10) : Statement (.addSi d a g i) := siForm rfl rfl
theorem subSi (d : BitVec 6) (a : BitVec 6) (g : BitVec 4) (i : BitVec 10) : Statement (.subSi d a g i) := siForm rfl rfl
theorem mulSi (d : BitVec 6) (a : BitVec 6) (g : BitVec 4) (i : BitVec 10) : Statement (.mulSi d a g i) := siForm rfl rfl
theorem andSi (d : BitVec 6) (a : BitVec 6) (g : BitVec 4) (i : BitVec 10) : Statement (.andSi d a g i) := siForm rfl rfl
theorem orSi (d : BitVec 6) (a : BitVec 6) (g : BitVec 4) (i : BitVec 10) : Statement (.orSi d a g i) := siForm rfl rfl
theorem xorSi (d : BitVec 6) (a : BitVec 6) (g : BitVec 4) (i : BitVec 10) : Statement (.xorSi d a g i) := siForm rfl rfl
theorem shlSi (d : BitVec 6) (a : BitVec 6) (g : BitVec 4) (i : BitVec 10) : Statement (.shlSi d a g i) := siForm rfl rfl
theorem shrSi (d : BitVec 6) (a : BitVec 6) (g : BitVec 4) (i : BitVec 10) : Statement (.shrSi d a g i) := siForm rfl rfl
theorem sraSi (d : BitVec 6) (a : BitVec 6) (g : BitVec 4) (i : BitVec 10) : Statement (.sraSi d a g i) := siForm rfl rfl
theorem rotlSi (d : BitVec 6) (a : BitVec 6) (g : BitVec 4) (i : BitVec 10) : Statement (.rotlSi d a g i) := siForm rfl rfl
theorem minSi (d : BitVec 6) (a : BitVec 6) (g : BitVec 4) (i : BitVec 10) : Statement (.minSi d a g i) := siForm rfl rfl
theorem maxSi (d : BitVec 6) (a : BitVec 6) (g : BitVec 4) (i : BitVec 10) : Statement (.maxSi d a g i) := siForm rfl rfl
theorem movi (d : BitVec 6) (h : BitVec 6) (g : BitVec 4) (i : BitVec 10) : Statement (.movi d h g i) := siForm rfl rfl
theorem taddSi (d : BitVec 6) (a : BitVec 6) (g : BitVec 4) (i : BitVec 10) : Statement (.taddSi d a g i) := siForm rfl rfl
theorem ld (d : BitVec 6) (a : BitVec 6) (g : BitVec 4) (z : BitVec 2) (o : BitVec 8) : Statement (.ld d a g z o) := smForm rfl rfl
theorem st (r : BitVec 6) (a : BitVec 6) (g : BitVec 4) (z : BitVec 2) (o : BitVec 8) : Statement (.st r a g z o) := smForm rfl rfl
theorem br (g : BitVec 4) (disp : BitVec 22) : Statement (.br g disp) := sbForm rfl rfl
theorem call (g : BitVec 4) (disp : BitVec 22) : Statement (.call g disp) := sbForm rfl rfl
theorem jmpr (d : BitVec 6) (a : BitVec 6) (g : BitVec 4) : Statement (.jmpr d a g) := srPlain _ _ rfl rfl
theorem ret (g : BitVec 4) : Statement (.ret g) := srPlain _ _ rfl rfl
theorem amoAdd (d : BitVec 6) (a : BitVec 6) (b : BitVec 6) (z : BitVec 2) (o : BitVec 2) : Statement (.amoAdd d a b z o) := saForm rfl rfl
theorem amoAnd (d : BitVec 6) (a : BitVec 6) (b : BitVec 6) (z : BitVec 2) (o : BitVec 2) : Statement (.amoAnd d a b z o) := saForm rfl rfl
theorem amoOr (d : BitVec 6) (a : BitVec 6) (b : BitVec 6) (z : BitVec 2) (o : BitVec 2) : Statement (.amoOr d a b z o) := saForm rfl rfl
theorem amoXor (d : BitVec 6) (a : BitVec 6) (b : BitVec 6) (z : BitVec 2) (o : BitVec 2) : Statement (.amoXor d a b z o) := saForm rfl rfl
theorem amoMin (d : BitVec 6) (a : BitVec 6) (b : BitVec 6) (z : BitVec 2) (o : BitVec 2) : Statement (.amoMin d a b z o) := saForm rfl rfl
theorem amoMax (d : BitVec 6) (a : BitVec 6) (b : BitVec 6) (z : BitVec 2) (o : BitVec 2) : Statement (.amoMax d a b z o) := saForm rfl rfl
theorem amoMinn (d : BitVec 6) (a : BitVec 6) (b : BitVec 6) (z : BitVec 2) (o : BitVec 2) : Statement (.amoMinn d a b z o) := saForm rfl rfl
theorem amoMaxn (d : BitVec 6) (a : BitVec 6) (b : BitVec 6) (z : BitVec 2) (o : BitVec 2) : Statement (.amoMaxn d a b z o) := saForm rfl rfl
theorem amoXchg (d : BitVec 6) (a : BitVec 6) (b : BitVec 6) (z : BitVec 2) (o : BitVec 2) : Statement (.amoXchg d a b z o) := saForm rfl rfl
theorem amoCas (d : BitVec 6) (a : BitVec 6) (b : BitVec 6) (z : BitVec 2) (o : BitVec 2) : Statement (.amoCas d a b z o) := saForm rfl rfl
theorem amoFadd (d : BitVec 6) (a : BitVec 6) (b : BitVec 6) (z : BitVec 2) (o : BitVec 2) : Statement (.amoFadd d a b z o) := saForm rfl rfl
theorem amoAdd128 (d : BitVec 6) (a : BitVec 6) (b : BitVec 6) (o : BitVec 2) : Statement (.amoAdd128 d a b o) := saForm rfl rfl
theorem fence (g : BitVec 4) (sc : BitVec 4) : Statement (.fence g sc) := fence_rt g sc
theorem tset (e : BitVec 6) (b : Src) (g : BitVec 4) : Statement (.tset e b g) := srForm b _ _ rfl (fun h => srOk_wf h) rfl
theorem tpost (e : BitVec 6) (b : Src) (g : BitVec 4) : Statement (.tpost e b g) := srForm b _ _ rfl (fun h => srOk_wf h) rfl
theorem twait (e : BitVec 6) (b : Src) (g : BitVec 4) : Statement (.twait e b g) := srForm b _ _ rfl (fun h => srOk_wf h) rfl
theorem ttest (d : BitVec 6) (e : BitVec 6) (g : BitVec 4) : Statement (.ttest d e g) := srPlain _ _ rfl rfl
theorem trig (t : BitVec 4) (b : Src) (g : BitVec 4) : Statement (.trig t b g) := trig_rt t b g
theorem binit (bar : BitVec 7) (b : Src) (g : BitVec 4) : Statement (.binit bar b g) := binit_rt bar b g
theorem barv (bar : BitVec 7) (g : BitVec 4) : Statement (.barv bar g) := barv_rt bar g
theorem barvRemote (bar : BitVec 7) (t : Src) (g : BitVec 4) : Statement (.barvRemote bar t g) := barvRemote_rt bar t g
theorem barx (a : BitVec 6) (b : Src) (g : BitVec 4) : Statement (.barx a b g) := srForm b _ _ rfl (fun h => srOk_wf h) rfl
theorem bwait (bar : BitVec 7) (b : Src) (g : BitVec 4) : Statement (.bwait bar b g) := bwait_rt bar b g
theorem bwaitX (bar : BitVec 7) (b : Src) (g : BitVec 4) : Statement (.bwaitX bar b g) := bwaitX_rt bar b g
theorem abankAlloc (d : BitVec 6) (b : Src) (g : BitVec 4) : Statement (.abankAlloc d b g) := srForm b _ _ rfl (fun h => srOk_wf h) rfl
theorem abankFree (a : BitVec 6) (b : Src) (g : BitVec 4) : Statement (.abankFree a b g) := srForm b _ _ rfl (fun h => srOk_wf h) rfl
theorem tidset (t : BitVec 8) (b : Src) (g : BitVec 4) : Statement (.tidset t b g) := tidset_rt t b g
theorem tidget (t : BitVec 8) (b : Src) (g : BitVec 4) : Statement (.tidget t b g) := tidget_rt t b g
theorem nrd (d : BitVec 6) (n : BitVec 6) (g : BitVec 4) : Statement (.nrd d n g) := srPlain _ _ rfl rfl
theorem nclr (n : BitVec 6) (g : BitVec 4) : Statement (.nclr n g) := srPlain _ _ rfl rfl
theorem nstat (d : BitVec 6) (n : BitVec 6) (g : BitVec 4) : Statement (.nstat d n g) := srPlain _ _ rfl rfl
theorem vopen (d : BitVec 6) (a : BitVec 6) (b : Src) (g : BitVec 4) : Statement (.vopen d a b g) := srForm b _ _ rfl (fun h => srOk_wf h) rfl
theorem vpub (a : BitVec 6) (b : Src) (g : BitVec 4) : Statement (.vpub a b g) := srForm b _ _ rfl (fun h => srOk_wf h) rfl
theorem vbind (b : Src) (g : BitVec 4) : Statement (.vbind b g) := srForm b _ _ rfl (fun h => srOk_wf h) rfl
theorem vretire (a : BitVec 6) (b : Src) (g : BitVec 4) : Statement (.vretire a b g) := srForm b _ _ rfl (fun h => srOk_wf h) rfl
theorem vquery (d : BitVec 6) (a : BitVec 6) (b : Src) (g : BitVec 4) : Statement (.vquery d a b g) := srForm b _ _ rfl (fun h => srOk_wf h) rfl
theorem trec (a : BitVec 6) (b : Src) (g : BitVec 4) : Statement (.trec a b g) := srForm b _ _ rfl (fun h => srOk_wf h) rfl
theorem cwait (d : BitVec 6) (a : BitVec 6) (b : Src) (g : BitVec 4) : Statement (.cwait d a b g) := srForm b _ _ rfl (fun h => srOk_wf h) rfl
theorem drainUsp (g : BitVec 4) : Statement (.drainUsp g) := srPlain _ _ rfl rfl
theorem drainCls (g : BitVec 4) : Statement (.drainCls g) := srPlain _ _ rfl rfl
theorem drainDsp (g : BitVec 4) : Statement (.drainDsp g) := srPlain _ _ rfl rfl
theorem drainVirt (g : BitVec 4) : Statement (.drainVirt g) := srPlain _ _ rfl rfl
theorem drainVim (g : BitVec 4) : Statement (.drainVim g) := srPlain _ _ rfl rfl
theorem hflush (a : BitVec 6) (b : Src) (g : BitVec 4) : Statement (.hflush a b g) := srForm b _ _ rfl (fun h => srOk_wf h) rfl
theorem isync (g : BitVec 4) : Statement (.isync g) := srPlain _ _ rfl rfl
theorem enq (d : BitVec 6) (a : BitVec 6) (b : Src) (g : BitVec 4) : Statement (.enq d a b g) := srForm b _ _ rfl (fun h => srOk_wf h) rfl
theorem sigf (a : BitVec 6) (g : BitVec 4) : Statement (.sigf a g) := srPlain _ _ rfl rfl
theorem iter (g : BitVec 4) : Statement (.iter g) := srPlain _ _ rfl rfl
theorem ckpt (g : BitVec 4) : Statement (.ckpt g) := srPlain _ _ rfl rfl
theorem trap (b : Src) (g : BitVec 4) : Statement (.trap b g) := srForm b _ _ rfl (fun h => srOk_wf h) rfl
theorem sysret (g : BitVec 4) : Statement (.sysret g) := srPlain _ _ rfl rfl
theorem wfe (g : BitVec 4) : Statement (.wfe g) := srPlain _ _ rfl rfl
theorem exit (g : BitVec 4) : Statement (.exit g) := srPlain _ _ rfl rfl
theorem mfs (d : BitVec 6) (sr : BitVec 6) (g : BitVec 4) : Statement (.mfs d sr g) := mfs_rt d sr g
theorem mts (a : BitVec 6) (sr : BitVec 6) (g : BitVec 4) : Statement (.mts a sr g) := mts_rt a sr g
theorem nop (n : BitVec 26) : Statement (.nop n) := nop_rt n
theorem cpy (e : EArgs) : Statement (.cpy e) := eForm rfl rfl
theorem cpyT (e : EArgs) : Statement (.cpyT e) := eForm rfl rfl
theorem cpyMc (e : EArgs) : Statement (.cpyMc e) := eForm rfl rfl
theorem cpyQ (e : EArgs) : Statement (.cpyQ e) := eForm rfl rfl
theorem gath (e : EArgs) : Statement (.gath e) := eForm rfl rfl
theorem scat (e : EArgs) : Statement (.scat e) := eForm rfl rfl
theorem bin (e : EArgs) : Statement (.bin e) := eForm rfl rfl
theorem kvg (e : EArgs) : Statement (.kvg e) := eForm rfl rfl
theorem kva (e : EArgs) : Statement (.kva e) := eForm rfl rfl
theorem kvdem (e : EArgs) : Statement (.kvdem e) := eForm rfl rfl
theorem kvrefInc (e : EArgs) : Statement (.kvrefInc e) := kvrefInc_rt e
theorem kvrefDec (e : EArgs) : Statement (.kvrefDec e) := kvrefDec_rt e
theorem cube (e : EArgs) : Statement (.cube e) := eForm rfl rfl
theorem cubeGa (e : EArgs) : Statement (.cubeGa e) := eForm rfl rfl
theorem cubeGb (e : EArgs) : Statement (.cubeGb e) := eForm rfl rfl
theorem cubeGk (e : EArgs) : Statement (.cubeGk e) := eForm rfl rfl
theorem cubeSp (e : EArgs) : Statement (.cubeSp e) := eForm rfl rfl
theorem aclr (e : EArgs) : Statement (.aclr e) := eForm rfl rfl
theorem adrain (e : EArgs) : Statement (.adrain e) := eForm rfl rfl
theorem stt (e : EArgs) : Statement (.stt e) := eForm rfl rfl
theorem stp (e : EArgs) : Statement (.stp e) := eForm rfl rfl
theorem stg (e : EArgs) : Statement (.stg e) := eForm rfl rfl
theorem updSgd (e : EArgs) : Statement (.updSgd e) := eForm rfl rfl
theorem updAdam (e : EArgs) : Statement (.updAdam e) := eForm rfl rfl
theorem vrun (e : EArgs) : Statement (.vrun e) := eForm rfl rfl
theorem gang (xa : BitVec 6) (chained : Bool) (op : EOp) (e : EArgs) : Statement (.gang xa chained op e) := gang_rt xa chained op e
theorem chain (op : EOp) (e : EArgs) : Statement (.chain op e) := chain_rt op e
theorem vadd (v : VArgs) : Statement (.vadd v) := vkind v rfl rfl
theorem vsub (v : VArgs) : Statement (.vsub v) := vkind v rfl rfl
theorem vmul (v : VArgs) : Statement (.vmul v) := vkind v rfl rfl
theorem vfma (v : VArgs) : Statement (.vfma v) := vkind v rfl rfl
theorem vfms (v : VArgs) : Statement (.vfms v) := vkind v rfl rfl
theorem vmin (v : VArgs) : Statement (.vmin v) := vkind v rfl rfl
theorem vmax (v : VArgs) : Statement (.vmax v) := vkind v rfl rfl
theorem vabs (v : VArgs) : Statement (.vabs v) := vkind v rfl rfl
theorem vneg (v : VArgs) : Statement (.vneg v) := vkind v rfl rfl
theorem vrcp (v : VArgs) : Statement (.vrcp v) := vkind v rfl rfl
theorem vrsq (v : VArgs) : Statement (.vrsq v) := vkind v rfl rfl
theorem vexp2 (v : VArgs) : Statement (.vexp2 v) := vkind v rfl rfl
theorem vlog2 (v : VArgs) : Statement (.vlog2 v) := vkind v rfl rfl
theorem vtanh (v : VArgs) : Statement (.vtanh v) := vkind v rfl rfl
theorem viadd (v : VArgs) : Statement (.viadd v) := vkind v rfl rfl
theorem visub (v : VArgs) : Statement (.visub v) := vkind v rfl rfl
theorem vimul (v : VArgs) : Statement (.vimul v) := vkind v rfl rfl
theorem vand (v : VArgs) : Statement (.vand v) := vkind v rfl rfl
theorem vor (v : VArgs) : Statement (.vor v) := vkind v rfl rfl
theorem vxor (v : VArgs) : Statement (.vxor v) := vkind v rfl rfl
theorem vshl (v : VArgs) : Statement (.vshl v) := vkind v rfl rfl
theorem vshr (v : VArgs) : Statement (.vshr v) := vkind v rfl rfl
theorem vsra (v : VArgs) : Statement (.vsra v) := vkind v rfl rfl
theorem vimin (v : VArgs) : Statement (.vimin v) := vkind v rfl rfl
theorem vimax (v : VArgs) : Statement (.vimax v) := vkind v rfl rfl
theorem vsat (v : VArgs) : Statement (.vsat v) := vkind v rfl rfl
theorem vcmp (v : VArgs) : Statement (.vcmp v) := vkind v rfl rfl
theorem vcnt (v : VArgs) : Statement (.vcnt v) := vkind v rfl rfl
theorem vcvt (v : VArgs) : Statement (.vcvt v) := vkind v rfl rfl
theorem vqnt (v : VArgs) : Statement (.vqnt v) := vkind v rfl rfl
theorem vdqnt (v : VArgs) : Statement (.vdqnt v) := vkind v rfl rfl
theorem vunpk (v : VArgs) : Statement (.vunpk v) := vkind v rfl rfl
theorem vpack (v : VArgs) : Statement (.vpack v) := vkind v rfl rfl
theorem vld (v : VArgs) : Statement (.vld v) := vkind v rfl rfl
theorem vst (v : VArgs) : Statement (.vst v) := vkind v rfl rfl
theorem vldt (v : VArgs) : Statement (.vldt v) := vkind v rfl rfl
theorem vgth (v : VArgs) : Statement (.vgth v) := vkind v rfl rfl
theorem vsct (v : VArgs) : Statement (.vsct v) := vkind v rfl rfl
theorem vldb (v : VArgs) : Statement (.vldb v) := vkind v rfl rfl
theorem vrsum (v : VArgs) : Statement (.vrsum v) := vkind v rfl rfl
theorem vrmax (v : VArgs) : Statement (.vrmax v) := vkind v rfl rfl
theorem vrmin (v : VArgs) : Statement (.vrmin v) := vkind v rfl rfl
theorem vscan (v : VArgs) : Statement (.vscan v) := vkind v rfl rfl
theorem vsegs (v : VArgs) : Statement (.vsegs v) := vkind v rfl rfl
theorem vpart (v : VArgs) : Statement (.vpart v) := vkind v rfl rfl
theorem vrng (v : VArgs) : Statement (.vrng v) := vkind v rfl rfl
theorem vdrop (v : VArgs) : Statement (.vdrop v) := vkind v rfl rfl
theorem vgmb (v : VArgs) : Statement (.vgmb v) := vkind v rfl rfl
theorem vargmx (v : VArgs) : Statement (.vargmx v) := vkind v rfl rfl
theorem vmovCK (v : VArgs) : Statement (.vmovCK v) := vmov_rt v rfl (vmovCK_asel v)
theorem vmovV (v : VArgs) : Statement (.vmovV v) := vmov_rt v rfl (vmovV_asel v)
theorem vmovAK (v : VArgs) : Statement (.vmovAK v) := vmov_rt v rfl (vmovAK_asel v)
theorem vmovAdd (v : VArgs) : Statement (.vmovAdd v) := vmov_rt v rfl (vmovAdd_asel v)
theorem vmovKV (v : VArgs) : Statement (.vmovKV v) := vmov_rt v rfl (vmovKV_asel v)
theorem vsel (v : VArgs) : Statement (.vsel v) := vkind v rfl rfl
theorem vperm (v : VArgs) : Statement (.vperm v) := vkind v rfl rfl
theorem vshuf (v : VArgs) : Statement (.vshuf v) := vkind v rfl rfl
theorem vbcst (v : VArgs) : Statement (.vbcst v) := vkind v rfl rfl
theorem viota (v : VArgs) : Statement (.viota v) := vkind v rfl rfl
theorem vsetk (kd : BitVec 4) (imm : BitVec 32) (idle : BitVec 4) : Statement (.vsetk kd imm idle) := vsetk_rt kd imm idle
theorem vlp (cn : BitVec 2) (target : BitVec 14) (idle : BitVec 5) : Statement (.vlp cn target idle) := vlp_rt cn target idle
theorem vend : Statement .vend := fun _ => ⟨_, rfl, by decide⟩
theorem vectorResultLanding (k : CoreRef) : Statement (.vectorResultLanding k) := ⟨rfl, rfl⟩
theorem elasticWordCompletion (k : CoreRef) (tc : Nat) : Statement (.elasticWordCompletion k tc) := ⟨rfl, rfl⟩
theorem engineCommandStart (k : CoreRef) (x : StartOf) : Statement (.engineCommandStart k x) := ⟨rfl, rfl⟩
theorem engineCommandCompletion (k : CoreRef) (cmd : Nat) : Statement (.engineCommandCompletion k cmd) := ⟨rfl, rfl⟩
theorem engineAccessFault (k : CoreRef) (cmd : Nat) : Statement (.engineAccessFault k cmd) := ⟨rfl, rfl⟩
theorem chunkWritesPerformed (k : CoreRef) (cmd : Nat) (pad : PadId) (chunk : Nat) : Statement (.chunkWritesPerformed k cmd pad chunk) := ⟨rfl, rfl⟩
theorem tokenWaitSatisfied (k : CoreRef) (tok : BitVec 6) : Statement (.tokenWaitSatisfied k tok) := ⟨rfl, rfl⟩
theorem calicoTermFire (k : CoreRef) (term : BitVec 4) : Statement (.calicoTermFire k term) := ⟨rfl, rfl⟩
theorem barrierArrival (k : CoreRef) : Statement (.barrierArrival k) := ⟨rfl, rfl⟩
theorem outsideArrivalReceive (launch : BitVec 64) (target : BitVec 64) : Statement (.outsideArrivalReceive launch target) := ⟨rfl, rfl⟩
theorem classDCompare (lid : Nat) (rank : Nat) : Statement (.classDCompare lid rank) := ⟨rfl, rfl⟩
theorem thirdExecutionDecision (lid : Nat) : Statement (.thirdExecutionDecision lid) := ⟨rfl, rfl⟩
theorem bankSpareReplace (unit : BitVec 16) : Statement (.bankSpareReplace unit) := ⟨rfl, rfl⟩
theorem scoreHalving : Statement (.scoreHalving) := ⟨rfl, rfl⟩
theorem flashRecordWrite : Statement (.flashRecordWrite) := ⟨rfl, rfl⟩
theorem checkpointCommit (lid : Nat) : Statement (.checkpointCommit lid) := ⟨rfl, rfl⟩
theorem groupResume (lid : Nat) (place : List Nat) : Statement (.groupResume lid place) := ⟨rfl, rfl⟩
theorem preemptionTakeEffect (lid : Nat) : Statement (.preemptionTakeEffect lid) := ⟨rfl, rfl⟩
theorem progressGuardExpiry (lid : Nat) : Statement (.progressGuardExpiry lid) := ⟨rfl, rfl⟩
theorem quiescenceWatchdog (k : CoreRef) : Statement (.quiescenceWatchdog k) := ⟨rfl, rfl⟩
theorem wfeTimeout (w : Waiter) : Statement (.wfeTimeout w) := ⟨rfl, rfl⟩
theorem queueClaim (q : BitVec 12) (m : BitVec 7) : Statement (.queueClaim q m) := ⟨rfl, rfl⟩
theorem queueWriteIndexUpdate (q : BitVec 12) (m : BitVec 7) (old : BitVec 64) (new : BitVec 64) : Statement (.queueWriteIndexUpdate q m old new) := ⟨rfl, rfl⟩
theorem queueCompletionAck (q : BitVec 12) (m : BitVec 7) (v : BitVec 64) : Statement (.queueCompletionAck q m v) := ⟨rfl, rfl⟩
theorem queueErrorWrite (q : BitVec 12) (m : BitVec 7) (v : BitVec 64) : Statement (.queueErrorWrite q m v) := ⟨rfl, rfl⟩
theorem queueCreate (q : BitVec 12) (m : BitVec 7) (d : QueueSpec) : Statement (.queueCreate q m d) := ⟨rfl, rfl⟩
theorem queueRestart (q : BitVec 12) (m : BitVec 7) : Statement (.queueRestart q m) := ⟨rfl, rfl⟩
theorem queueDestroy (q : BitVec 12) (m : BitVec 7) : Statement (.queueDestroy q m) := ⟨rfl, rfl⟩
theorem queuePark (q : BitVec 12) : Statement (.queuePark q) := ⟨rfl, rfl⟩
theorem dependenceCounterWrite (c : BitVec 12) (m : BitVec 7) (v : BitVec 64) : Statement (.dependenceCounterWrite c m v) := ⟨rfl, rfl⟩
theorem packetValidation (q : BitVec 12) : Statement (.packetValidation q) := ⟨rfl, rfl⟩
theorem launchPlacement (q : BitVec 12) (place : List Nat) : Statement (.launchPlacement q place) := ⟨rfl, rfl⟩
theorem launchCompletion (lid : Nat) : Statement (.launchCompletion lid) := ⟨rfl, rfl⟩
theorem msixNotify : Statement (.msixNotify) := ⟨rfl, rfl⟩
theorem pageWalkReturn (k : CoreRef) (tlb : Nat) (va : BitVec 64) (num : Nat) : Statement (.pageWalkReturn k tlb va num) := ⟨rfl, rfl⟩
theorem shootdownIssue (ctx : BitVec 6) (m : BitVec 7) (cnt : BitVec 64) : Statement (.shootdownIssue ctx m cnt) := ⟨rfl, rfl⟩
theorem shootdownComplete (ctx : BitVec 6) : Statement (.shootdownComplete ctx) := ⟨rfl, rfl⟩
theorem contextStateWrite (ctx : BitVec 6) (m : BitVec 7) (v : BitVec 64) : Statement (.contextStateWrite ctx m v) := ⟨rfl, rfl⟩
theorem contextResolveWrite (ctx : BitVec 6) (m : BitVec 7) (v : BitVec 64) : Statement (.contextResolveWrite ctx m v) := ⟨rfl, rfl⟩
theorem vrCreate (ctx : BitVec 6) (m : BitVec 7) (decl : BitVec 48) : Statement (.vrCreate ctx m decl) := ⟨rfl, rfl⟩
theorem vrDestroy (ctx : BitVec 6) (m : BitVec 7) (arg : BitVec 48) : Statement (.vrDestroy ctx m arg) := ⟨rfl, rfl⟩
theorem vrAbandon (ctx : BitVec 6) (m : BitVec 7) (arg : BitVec 48) : Statement (.vrAbandon ctx m arg) := ⟨rfl, rfl⟩
theorem kvPromote (part : BitVec 4) (block : BitVec 20) : Statement (.kvPromote part block) := ⟨rfl, rfl⟩
theorem kvFrameRelease (i : Nat) : Statement (.kvFrameRelease i) := ⟨rfl, rfl⟩
theorem kvHeaderWrite (part : BitVec 4) (m : BitVec 7) (word : BitVec 3) (v : BitVec 64) : Statement (.kvHeaderWrite part m word v) := ⟨rfl, rfl⟩
theorem partitionDescriptorWrite (part : BitVec 4) (m : BitVec 7) (v : BitVec 64) : Statement (.partitionDescriptorWrite part m v) := ⟨rfl, rfl⟩
theorem remoteMasterWrite (slot : BitVec 6) (m : BitVec 7) (v : BitVec 64) : Statement (.remoteMasterWrite slot m v) := ⟨rfl, rfl⟩
theorem breakpointWrite (ctx : BitVec 6) (i : BitVec 3) (m : BitVec 7) (v : BitVec 64) : Statement (.breakpointWrite ctx i m v) := ⟨rfl, rfl⟩
theorem faultQueueDescriptorWrite (host : BitVec 1) (m : BitVec 7) (word : BitVec 3) (v : BitVec 64) : Statement (.faultQueueDescriptorWrite host m word v) := ⟨rfl, rfl⟩
theorem faultQueueReadWrite (host : BitVec 1) (m : BitVec 7) (v : BitVec 64) : Statement (.faultQueueReadWrite host m v) := ⟨rfl, rfl⟩
theorem nodeIdWrite (m : BitVec 7) (v : BitVec 12) : Statement (.nodeIdWrite m v) := ⟨rfl, rfl⟩
theorem powerLimitWrite (m : BitVec 7) (v : BitVec 12) : Statement (.powerLimitWrite m v) := ⟨rfl, rfl⟩
theorem sysRegisterWrite (m : BitVec 7) (off : BitVec 32) (size : BitVec 2) (v : BitVec 64) : Statement (.sysRegisterWrite m off size v) := ⟨rfl, rfl⟩
theorem hostApertureAccess (f : BitVec 5) (off : Nat) (op : HostOp) : Statement (.hostApertureAccess f off op) := ⟨rfl, rfl⟩
theorem hostWindowAccess (f : BitVec 5) (x : BarAddr) (op : HostOp) : Statement (.hostWindowAccess f x op) := ⟨rfl, rfl⟩
theorem linkRead (m : LinkMsg) : Statement (.linkRead m) := ⟨rfl, rfl⟩
theorem linkReadResponse (m : LinkMsg) : Statement (.linkReadResponse m) := ⟨rfl, rfl⟩
theorem linkMaskedWrite (m : LinkMsg) : Statement (.linkMaskedWrite m) := ⟨rfl, rfl⟩
theorem linkWriteAcknowledgement (m : LinkMsg) : Statement (.linkWriteAcknowledgement m) := ⟨rfl, rfl⟩
theorem linkAtomic (m : LinkMsg) : Statement (.linkAtomic m) := ⟨rfl, rfl⟩
theorem linkAtomicResponse (m : LinkMsg) : Statement (.linkAtomicResponse m) := ⟨rfl, rfl⟩
theorem linkEnqueue (m : LinkMsg) : Statement (.linkEnqueue m) := ⟨rfl, rfl⟩
theorem linkEnqueueResponse (m : LinkMsg) : Statement (.linkEnqueueResponse m) := ⟨rfl, rfl⟩
theorem linkBarrierArrival (m : LinkMsg) : Statement (.linkBarrierArrival m) := ⟨rfl, rfl⟩
theorem linkArrivalAcknowledgement (m : LinkMsg) : Statement (.linkArrivalAcknowledgement m) := ⟨rfl, rfl⟩
theorem linkNack (m : LinkMsg) : Statement (.linkNack m) := ⟨rfl, rfl⟩
theorem linkUnknownOp (m : LinkMsg) : Statement (.linkUnknownOp m) := ⟨rfl, rfl⟩
theorem linkPause (port : Nat) (vc : BitVec 2) : Statement (.linkPause port vc) := ⟨rfl, rfl⟩
theorem linkResume (port : Nat) (vc : BitVec 2) : Statement (.linkResume port vc) := ⟨rfl, rfl⟩
theorem linkPauseExpiry (port : Nat) (vc : BitVec 2) : Statement (.linkPauseExpiry port vc) := ⟨rfl, rfl⟩
theorem remoteResponseTimeout (tag : BitVec 12) : Statement (.remoteResponseTimeout tag) := ⟨rfl, rfl⟩
theorem linkPortDown (port : Nat) : Statement (.linkPortDown port) := ⟨rfl, rfl⟩
theorem linkPortTrained (port : Nat) : Statement (.linkPortTrained port) := ⟨rfl, rfl⟩
theorem fwVerify (slot : BitVec 1) : Statement (.fwVerify slot) := ⟨rfl, rfl⟩
theorem fwUpdate (slot : BitVec 1) : Statement (.fwUpdate slot) := ⟨rfl, rfl⟩
theorem fwTrialStart : Statement (.fwTrialStart) := ⟨rfl, rfl⟩
theorem fwHeartbeat : Statement (.fwHeartbeat) := ⟨rfl, rfl⟩
theorem fwHeartbeatTimeout : Statement (.fwHeartbeatTimeout) := ⟨rfl, rfl⟩
theorem fwCommit : Statement (.fwCommit) := ⟨rfl, rfl⟩
theorem fwAbandon : Statement (.fwAbandon) := ⟨rfl, rfl⟩
theorem mbReadScore (host : BitVec 1) (unit : BitVec 16) : Statement (.mbReadScore host unit) := ⟨rfl, rfl⟩
theorem mbClearFence (host : BitVec 1) (unit : BitVec 16) : Statement (.mbClearFence host unit) := ⟨rfl, rfl⟩
theorem mbCopyFlashRecord (host : BitVec 1) (slot : Nat) (dpa : BitVec 64) : Statement (.mbCopyFlashRecord host slot dpa) := ⟨rfl, rfl⟩
theorem mbWriteFirmwareSlot (host : BitVec 1) (arg0 : BitVec 64) (dpa : BitVec 64) (len : BitVec 64) : Statement (.mbWriteFirmwareSlot host arg0 dpa len) := ⟨rfl, rfl⟩
theorem mbDeviceReset (host : BitVec 1) : Statement (.mbDeviceReset host) := ⟨rfl, rfl⟩
theorem mbRaiseAntirollback (host : BitVec 1) (v : BitVec 64) : Statement (.mbRaiseAntirollback host v) := ⟨rfl, rfl⟩
theorem mbCapacitySave (host : BitVec 1) (base : BitVec 64) : Statement (.mbCapacitySave host base) := ⟨rfl, rfl⟩
theorem capacitySaveComplete : Statement (.capacitySaveComplete) := ⟨rfl, rfl⟩
theorem mbCapacityRestore (host : BitVec 1) (base : BitVec 64) : Statement (.mbCapacityRestore host base) := ⟨rfl, rfl⟩
theorem mbUnknownCommand (host : BitVec 1) (cmd : BitVec 64) : Statement (.mbUnknownCommand host cmd) := ⟨rfl, rfl⟩
theorem pcieConventionalReset (host : BitVec 1) : Statement (.pcieConventionalReset host) := ⟨rfl, rfl⟩
theorem bringUp : Statement (.bringUp) := ⟨rfl, rfl⟩
theorem spdmGetVersion (host : BitVec 1) : Statement (.spdmGetVersion host) := ⟨rfl, rfl⟩
theorem spdmGetCapabilities (host : BitVec 1) : Statement (.spdmGetCapabilities host) := ⟨rfl, rfl⟩
theorem spdmNegotiateAlgorithms (host : BitVec 1) : Statement (.spdmNegotiateAlgorithms host) := ⟨rfl, rfl⟩
theorem spdmGetDigests (host : BitVec 1) : Statement (.spdmGetDigests host) := ⟨rfl, rfl⟩
theorem spdmGetCertificate (host : BitVec 1) : Statement (.spdmGetCertificate host) := ⟨rfl, rfl⟩
theorem spdmChallenge (host : BitVec 1) (nonce : List Byte) : Statement (.spdmChallenge host nonce) := ⟨rfl, rfl⟩
theorem spdmGetMeasurements (host : BitVec 1) (block : Nat) : Statement (.spdmGetMeasurements host block) := ⟨rfl, rfl⟩
theorem spdmUnsupportedRequest (host : BitVec 1) (code : Byte) : Statement (.spdmUnsupportedRequest host code) := ⟨rfl, rfl⟩
theorem unassignedEncoding (w : BitVec 32) : Statement (.unassignedEncoding w) := ⟨rfl, rfl⟩
theorem unassignedVectorWord (w : BitVec 48) : Statement (.unassignedVectorWord w) := ⟨rfl, rfl⟩
theorem writePerformed (t : PerfTarget) : Statement (.writePerformed t) := ⟨rfl, rfl⟩
theorem softError (l : SoftLoc) : Statement (.softError l) := ⟨rfl, rfl⟩
theorem functionReady (bit : Nat) : Statement (.functionReady bit) := ⟨rfl, rfl⟩
theorem powerLoss : Statement (.powerLoss) := ⟨rfl, rfl⟩
theorem hostPortTrained (host : BitVec 1) (up : Bool) : Statement (.hostPortTrained host up) := ⟨rfl, rfl⟩
theorem linkFlitError (port : Nat) (vc : BitVec 2) : Statement (.linkFlitError port vc) := ⟨rfl, rfl⟩

end Sys2Proof.Laws.RoundTrip
end

