-- ==== Sys2Proof/Tests/Slice0.lean ====
section
/-! SUPPORT. The session's own tests: words of each form written out from the spec's encodings, an ill-formed term for each check of
well-formedness, single steps on a small state, and for each statement states and operands that meet its hypotheses. -/

namespace Sys2Proof.Tests
open Sys2Proof.Machine

set_option Elab.async false

/-! ### Decoding: words written out from Tables 02-1 to 02-8 -/

theorem test_decode_sr : decode [0b000000_000011_000100_000101_0000_0000#32] = .ok (.add 3#6 4#6 (.reg 5#6) 0#4) := by decide
theorem test_decode_lit64 :
    decode [0b000001_000001_000010_111111_0000_0111#32, 2#32, 1#32] = .ok (.rotl 1#6 2#6 (.lit64 0x100000002#64) 0#4) := by decide
theorem test_decode_missing_literal : decode [0b000001_000001_000010_111111_0000_0111#32, 2#32] ≠ .ok (.rotl 1#6 2#6 (.lit64 2#64) 0#4) := by decide
theorem test_decode_one_operand : decode [0b000010_000001_000010_000000_1001_0000#32] = .ok (.clz 1#6 2#6 9#4) := by decide
theorem test_decode_cmp : decode [0b000011_000_001_000010_000011_0000_0010#32] = .ok (.cmp 1#3 2#6 (.reg 3#6) 0#4 2#4) := by decide
theorem test_decode_tget : decode [0b000110_000001_000010_000001_0000_0010#32] = .ok (.tget 1#6 2#6 1#6 0#4) := by decide
theorem test_decode_ld : decode [0b100000_000111_001000_0000_11_11111111#32] = .ok (.ld 7#6 8#6 0#4 3#2 0xFF#8) := by decide
theorem test_decode_br : decode [0b101000_0000_1111111111111111111110#32] = .ok (.br 0#4 0x3FFFFE#22) := by decide
theorem test_decode_amo : decode [0b101100_000001_000010_000011_10_01_1001#32] = .ok (.amoCas 1#6 2#6 3#6 2#2 1#2) := by decide
theorem test_decode_fence : decode [0b101101_000000_000000_000000_0000_0011#32] = .ok (.fence 0#4 3#4) := by decide
theorem test_decode_fence_scope_6 : decode [0b101101_000000_000000_000000_0000_0110#32] ≠ .ok (.fence 0#4 6#4) := by decide
theorem test_decode_tset : decode [0b110000_000000_111111_000100_0000_0000#32] = .ok (.tset 63#6 (.reg 4#6) 0#4) := by decide
theorem test_decode_barrier : decode [0b110001_000001_000001_000100_0000_0011#32] = .ok (.bwait 65#7 (.reg 4#6) 0#4) := by decide
theorem test_decode_norm : decode [0b110010_000110_000101_000000_0000_0100#32] = .ok (.nrd 6#6 5#6 0#4) := by decide
theorem test_decode_norm_odd : decode [0b110010_000111_000101_000000_0000_0100#32] ≠ .ok (.nrd 7#6 5#6 0#4) := by decide
theorem test_decode_version : decode [0b110011_000001_000010_000011_0000_0000#32] = .ok (.vopen 1#6 2#6 (.reg 3#6) 0#4) := by decide
theorem test_decode_cwait : decode [0b110100_000001_000010_000011_0000_0000#32] = .ok (.cwait 1#6 2#6 (.reg 3#6) 0#4) := by decide
theorem test_decode_enq : decode [0b110101_000001_000010_000011_0000_0000#32] = .ok (.enq 1#6 2#6 (.reg 3#6) 0#4) := by decide
theorem test_decode_iter : decode [0b110101_000000_000000_000000_0001_0010#32] = .ok (.iter 1#4) := by decide
theorem test_decode_mfs : decode [0b110110_000001_000000_001100_0000_0000#32] = .ok (.mfs 1#6 12#6 0#4) := by decide
theorem test_decode_nop : decode [0b110111_11111111111111111111111111#32] = .ok (.nop 0x3FFFFFF#26) := by decide

/-- An E-form's fields: xa 1, xb 2, xc 3, guard 0, flags 1, posts e5, waits on e6. -/
def eArgs (fl : BitVec 4) : EArgs :=
  { xa := 1#6, xb := 2#6, guard := 0#4, flags := fl, post := 5#6, wait0 := 6#6, wait1 := 63#6, wait2 := 63#6, xc := 3#6, order := 1#2 }
/-- Its second word (Table 02-5). -/
def eWord1 : BitVec 32 := 0b000101_000110_111111_111111_000011_01#32

theorem test_decode_copy : decode [0b111000_000000_000001_000010_0000_0000#32, eWord1] = .ok (.cpy (eArgs 0#4)) := by decide
theorem test_decode_gather : decode [0b111001_000011_000001_000010_0000_0001#32, eWord1] = .ok (.kvg (eArgs 1#4)) := by decide
theorem test_decode_cube : decode [0b111010_000001_000001_000010_0000_0001#32, eWord1] = .ok (.cubeGa (eArgs 1#4)) := by decide
theorem test_decode_drain : decode [0b111011_000001_000001_000010_0000_0001#32, eWord1] = .ok (.adrain (eArgs 1#4)) := by decide
theorem test_decode_store : decode [0b111100_000010_000001_000010_0000_0001#32, eWord1] = .ok (.stg (eArgs 1#4)) := by decide
theorem test_decode_gang_chain :
    decode [0b111110_000000_000111_000000_0000_0000#32, 0b111111_111111_111111_111111_000000_00#32,
            0b111110_000001_000000_000000_0000_0000#32, 0b111111_111111_111111_111111_000000_00#32,
            0b111000_000000_000001_000010_0000_0000#32, eWord1] = .ok (.gang 7#6 true .cpy (eArgs 0#4)) := by decide
theorem test_decode_chain_gang :
    (decode [0b111110_000001_000000_000000_0000_0000#32, 0b111111_111111_111111_111111_000000_00#32,
            0b111110_000000_000111_000000_0000_0000#32, 0b111111_111111_111111_111111_000000_00#32,
            0b111000_000000_000001_000010_0000_0000#32, eWord1]).isOk = false := by decide
theorem test_decode_order_2 : (decode [0b111000_000000_000001_000010_0000_0000#32, 0b111111_111111_111111_111111_000011_10#32]).isOk = false := by decide

/-- Vector fields of a word of v1, v2, v3, type `t`. -/
def vArgs (t : BitVec 4) : VArgs :=
  { vd := 1#5, va := 2#5, vb := 3#5, mask := 0#3, walk := 0#2, rep := 0#8, asel := t, step := 0#3, idle := 0#5 }

theorem test_decode_vadd : decodeVector 0b00010000_00001_00010_00011_000_00_00000000_0001_000_00000#48 = .ok (.vadd (vArgs 1#4)) := by decide
theorem test_decode_viadd : decodeVector 0b00100000_00001_00010_00011_000_00_00000000_0100_000_00000#48 = .ok (.viadd (vArgs 4#4)) := by decide
theorem test_decode_vsct : decodeVector 0b01000100_00001_00010_00000_000_00_00000000_0100_001_00111#48 =
    .ok (.vsct { vArgs 4#4 with vb := 0#5, step := 1#3, idle := 7#5 }) := by decide
theorem test_decode_vrsum : decodeVector 0b01010000_00001_00010_00000_000_00_00000000_1000_000_00000#48 = .ok (.vrsum { vArgs 8#4 with vb := 0#5 }) := by decide
theorem test_decode_vsetk : decodeVector 0b01110000_0101_10000000000000000000000000000001_0010#48 = .ok (.vsetk 5#4 0x80000001#32 2#4) := by decide
theorem test_decode_vlp : decodeVector 0b01110001_10_00_00000000000011_00000000000000000_00100#48 = .ok (.vlp 2#2 3#14 4#5) := by decide
theorem test_decode_walk_past_31 : (decodeVector 0b00100000_11111_00010_00011_000_01_00000001_0100_000_00000#48).isOk = false := by decide
theorem test_decode_table_word : decodeTableWord 32 0b000000_000011_000100_000101_0000_0001 = some (.sub 3#6 4#6 (.reg 5#6) 0#4) := by decide

/-! ### Well-formedness: an ill-formed term for each check -/

theorem test_wf_guard_never : (Instr.add 1#6 2#6 (.reg 3#6) 8#4).wf = false := by decide
theorem test_wf_literal_code_as_register : (Instr.add 1#6 2#6 (.reg 62#6) 0#4).wf = false := by decide
theorem test_wf_lit_needs_literal : (Instr.lit 1#6 (.reg 3#6) 0#4).wf = false := by decide
theorem test_wf_shift_64 : (Instr.shlSi 1#6 2#6 0#4 64#10).wf = false ∧ (Instr.shlSi 1#6 2#6 0#4 63#10).wf = true := by decide
theorem test_wf_predicate_zero : (Instr.cmp 0#3 1#6 (.reg 2#6) 0#4 0#4).wf = false ∧ (Instr.pnot 0#3 1#3 0#4).wf = false := by decide
theorem test_wf_condition_10 : (Instr.cmp 1#3 1#6 (.reg 2#6) 0#4 10#4).wf = false := by decide
theorem test_wf_tget_field_3 : (Instr.tget 1#6 2#6 3#6 0#4).wf = false := by decide
theorem test_wf_amo_size_order : (Instr.amoAdd 1#6 2#6 3#6 0#2 0#2).wf = false ∧ (Instr.amoAdd 1#6 2#6 3#6 2#2 3#2).wf = false := by decide
theorem test_wf_fadd_size : (Instr.amoFadd 1#6 2#6 3#6 2#2 0#2).wf = false := by decide
theorem test_wf_pairs : (Instr.amoAdd128 1#6 2#6 3#6 0#2).wf = false ∧ (Instr.amoAdd128 2#6 62#6 3#6 0#2).wf = false ∧ (Instr.nrd 3#6 0#6 0#4).wf = false := by decide
theorem test_wf_scope : (Instr.fence 0#4 6#4).wf = false := by decide
theorem test_wf_special_registers : (Instr.mfs 1#6 13#6 0#4).wf = false ∧ (Instr.mts 1#6 10#6 0#4).wf = false := by decide
theorem test_wf_engine_flags : (Instr.cpy (eArgs 1#4)).wf = false ∧ (Instr.stt (eArgs 5#4)).wf = false ∧ (Instr.kvg (eArgs 4#4)).wf = false ∧
    (Instr.cube (eArgs 2#4)).wf = false ∧ (Instr.adrain (eArgs 8#4)).wf = false ∧ (Instr.kvrefDec { eArgs 0#4 with xc := 0#6 }).wf = false := by decide
theorem test_wf_unused_operands : (Instr.aclr (eArgs 0#4)).wf = false ∧ (Instr.vrun (eArgs 0#4)).wf = false ∧ (Instr.kvdem (eArgs 0#4)).wf = false := by decide
theorem test_wf_order : (Instr.cpy { eArgs 0#4 with order := 2#2 }).wf = false ∧ (Instr.cpy { eArgs 0#4 with guard := 8#4 }).wf = false := by decide
theorem test_wf_prefixes : (Instr.gang 1#6 false .vrun (eArgs 0#4)).wf = false ∧ (Instr.chain .kva (eArgs 0#4)).wf = false := by decide
theorem test_wf_vector_type : (Instr.vadd (vArgs 3#4)).wf = false ∧ (Instr.viadd (vArgs 0#4)).wf = false ∧ (Instr.vsel (vArgs 8#4)).wf = false := by decide
theorem test_wf_vector_unused : (Instr.vabs (vArgs 0#4)).wf = false ∧ (Instr.vadd { vArgs 0#4 with step := 1#3 }).wf = false := by decide
theorem test_wf_vector_walk : (Instr.vadd { vArgs 0#4 with walk := 3#2, rep := 29#8 }).wf = false ∧ (Instr.vadd { vArgs 0#4 with walk := 3#2, rep := 28#8 }).wf = true := by decide
theorem test_wf_vector_subcodes : (Instr.vsat { vArgs 4#4 with vb := 0#5 }).wf = false ∧ (Instr.vcmp { vArgs 4#4 with vd := 8#5 }).wf = false ∧
    (Instr.vcvt { vArgs 0#4 with vb := 20#5 }).wf = false ∧ (Instr.vqnt { vArgs 6#4 with vb := 0#5 }).wf = false ∧ (Instr.vunpk { vArgs 0#4 with vb := 4#5 }).wf = false := by decide
theorem test_wf_vector_moves : (Instr.vmovAK { vArgs 8#4 with mask := 1#3 }).wf = false ∧ (Instr.vshuf (vArgs 12#4)).wf = false ∧
    (Instr.vldt { vArgs 4#4 with vb := 3#5 }).wf = false := by decide
theorem test_wf_loop_target : (Instr.vlp 0#2 10922#14 0#5).wf = false := by decide
/-! ### Helpers: small states -/

/-- Registers with the listed values, pc 0x1000. -/
def regsOf (l : List (BitVec 6 × Word)) : Regs := l.foldl (fun r x => r.set x.1 x.2) { Regs.zero with pc := 0x1000#64 }

/-- Anole core 2 is about to execute with these registers; HBM stack 0 is ready. -/
def onAnole (l : List (BitVec 6 × Word)) : State :=
  { State.reset with
      cur := .anole 2#4, anoles := State.reset.anoles.set 2 { Anole.zero with regs := regsOf l }, sys := [(8, 0x40000001000#64), (0x1018, 2#64), (0x20200, 0x8000#64)] }

/-- The launch's references, packet and loop record: one core, 4 KiB of scratchpad, 4 banks, 3 iterations in laps of 2. -/
def tk : CoreRef := { lid := 1, role := .primary, rank := 0 }
def tPacket : Packet := { lp := 0#64, w1 := 0x0101#64, grants := 10922#64, w3 := 0#64, args := [] }
def tLoop : LoopRec :=
  { pro := 0x200000#64, ker := 0x200010#64, epi := 0x200020#64, trip := 3, ring := 2, ckint := 1, dbytes := 0, cmask := 0#128, usp := 4096, cls := 0,
    dsp := 0, vim := 10922, banks := 4, ranges := [] }
def tCore : Core := startCore tPacket tLoop [] 0 0 [] 0
/-- Its scratchpad: byte 64 + i holds 17 + i, for i up to 15; at 4032 lies a tensor entry of stride 64. -/
def tPad : Pad := { id := .usp 0, limit := 4096, phys := 0, mem := (Store.zero.put 64 ((List.range 16).map fun i => BitVec.ofNat 8 (17 + i))).put 4048 [64#8], chunks := [] }
def tCopy (c : Core) : Copy := { role := .primary, cores := [c], pads := [tPad], home := [], stores := 0, binding := none, replay := 0 }
def tLaunch (c : Core) : Launch :=
  { lid := 1, queue := 0#12, slot := 0, gen := 0#16, ctx := 0#6, part := 0#4, packet := tPacket, lrec := tLoop, images := [], state := .running,
    copies := [tCopy c], snap := none, startBinding := none, lag := [], log := [], cause := none, fault := 0#64, park := .place, preempt := false,
    ending := none, third := none, redo := false, laps := 0, dues := [], aborts := 0, unit := 0, ovs := false, noprog := false, noprogress := 0,
    guarded := false, expired := false, guardFrom := 0, start := 0, watchdogs := 0, torns := 0, barx := [], snapDie := 0, deferred := [] }
/-- It is the turn of that core. -/
def onCore' (c : Core) : State := { State.reset with cur := .core tk, launches := [tLaunch c], nextLid := 2 }
/-- That core with the listed registers. -/
def coreOf (l : List (BitVec 6 × Word)) : Core := { tCore with regs := regsOf l }

/-- The state an instruction answers. -/
def outOf (i : Instr) (s : State) : Option State :=
  match exec i s with
  | .next t => some t
  | .fault _ => none
  | .refused _ => none
/-- A register, the pc, a predicate and the core of an answered state. -/
def outX (d : BitVec 6) (i : Instr) (s : State) : Option Word := (outOf i s).bind fun t => t.regs?.map fun r => r.get d
def outPc (i : Instr) (s : State) : Option Word := (outOf i s).bind fun t => t.regs?.map fun r => r.pc
def outP (d : BitVec 3) (i : Instr) (s : State) : Option Bool := (outOf i s).bind fun t => t.regs?.map fun r => r.pred d
def outC (i : Instr) (s : State) : Option Core := (outOf i s).bind fun t => t.core? tk
/-- The codes of the faults that wait for the end of the cycle in the launch of an answered state. -/
def outF (i : Instr) (s : State) : Option (List Nat) :=
  (outOf i s).bind fun t => (t.launch? 1).map fun l => l.deferred.map fun d => match d with
    | .fault x _ _ => x.code
    | .cause c _ _ => c
    | .preempt => 0

/-! ### Single steps: scalar results (expected values from Tables 04-1 to 04-3 and their notes) -/

theorem test_add_wraps : outX 3#6 (.add 3#6 1#6 (.reg 2#6) 0#4) (onAnole [(1#6, 0xFFFFFFFFFFFFFFFF#64), (2#6, 2#64)]) = some 1#64 := by decide
theorem test_add_discards_x0 : outOf (.add 0#6 1#6 (.lit32 5#32) 0#4) (onAnole [(1#6, 7#64)]) =
    some ((onAnole [(1#6, 7#64)]).modRegs fun r => r.setPc 0x1008#64) := by decide
theorem test_mulh_signed : outX 3#6 (.mulh 3#6 1#6 (.reg 2#6) 0#4) (onAnole [(1#6, 0xFFFFFFFFFFFFFFFF#64), (2#6, 2#64)]) = some 0xFFFFFFFFFFFFFFFF#64 := by decide
theorem test_div_zero : outX 3#6 (.div 3#6 1#6 (.reg 0#6) 0#4) (onAnole [(1#6, 7#64)]) = some 0xFFFFFFFFFFFFFFFF#64 := by decide
theorem test_div_min : outX 3#6 (.div 3#6 1#6 (.lit32 0xFFFFFFFF#32) 0#4) (onAnole [(1#6, 0x8000000000000000#64)]) = some 0x8000000000000000#64 := by decide
theorem test_rem_sign : outX 3#6 (.rem 3#6 1#6 (.lit32 3#32) 0#4) (onAnole [(1#6, 0xFFFFFFFFFFFFFFF9#64)]) = some 0xFFFFFFFFFFFFFFFF#64 := by decide
theorem test_shift_uses_six_bits : outX 3#6 (.sra 3#6 1#6 (.lit32 65#32) 0#4) (onAnole [(1#6, 0x8000000000000000#64)]) = some 0xC000000000000000#64 := by decide
theorem test_clz_zero : outX 3#6 (.clz 3#6 0#6 0#4) (onAnole []) = some 64#64 := by decide
theorem test_sextW : outX 3#6 (.sextW 3#6 1#6 0#4) (onAnole [(1#6, 0x180000000#64)]) = some 0xFFFFFFFF80000000#64 := by decide
theorem test_movi_signed : outX 5#6 (.movi 5#6 0x3F#6 0#4 0x2D4#10) (onAnole []) = some (0 - 300#64) := by decide
theorem test_tadd_keeps_tag : outX 3#6 (.tadd 3#6 1#6 (.lit32 2#32) 0#4) (onAnole [(1#6, 0x7001FFFFFFFFFFFF#64)]) = some 0x7001000000000001#64 := by decide
theorem test_cmp_unsigned : outP 1#3 (.cmp 1#3 1#6 (.lit32 0xFFFFFFFF#32) 0#4 4#4) (onAnole [(1#6, 3#64)]) = some true := by decide
theorem test_pnot_p0 : outP 2#3 (.pnot 2#3 0#3 0#4) (onAnole []) = some false := by decide
theorem test_predicated_off : outPc (.div 3#6 1#6 (.lit64 0#64) 1#4) (onAnole []) = some 0x100C#64 ∧ outX 3#6 (.div 3#6 1#6 (.lit64 0#64) 1#4) (onAnole [(3#6, 9#64)]) = some 9#64 := by decide
theorem test_br_back : outPc (.br 0#4 0x3FFFFE#22) (onAnole []) = some 0xFF8#64 := by decide
theorem test_jmpr_same_register : outPc (.jmpr 1#6 1#6 0#4) (onAnole [(1#6, 0x2000#64)]) = some 0x2000#64 ∧ outX 1#6 (.jmpr 1#6 1#6 0#4) (onAnole [(1#6, 0x2000#64)]) = some 0x1004#64 := by decide
theorem test_fault_entry : outPc (.jmpr 1#6 1#6 0#4) (onAnole [(1#6, 0x2002#64)]) = some 0x8000#64 ∧
    ((outOf (.jmpr 1#6 1#6 0#4) (onAnole [(1#6, 0x2002#64)])).map fun t => (t.sysW 0x20208, t.sysW 0x20218, t.sysW 0x20220)) = some (0x1000#64, 0x103#64, 0#64) := by decide
/-! ### Hypotheses met: for each statement with hypotheses, a state and operands that meet them together, at a boundary of each clause -/

/-- It is the turn of `c`'s control core, and guard 0 holds. -/
abbrev Turn (c : Core) : Prop := (onCore' c).CoreTurn tk (tLaunch c) (tCopy c) c ∧ (onCore' c).executes c.regs 0#4
theorem turn {c : Core} (h : c.rank = 0) : Turn c := by
  have hc : (onCore' c).core? tk = some c := by
    show ([c].find? fun k => k.rank == 0) = some c
    simp [List.find?, h]
  exact ⟨⟨rfl, rfl, rfl, hc⟩, by show ((onCore' c).core? tk).map (fun x => x.regs) = some c.regs; rw [hc]; rfl, rfl⟩
theorem anoleTurn (l : List (BitVec 6 × Word)) : (onAnole l).cur = .anole 2#4 ∧ (onAnole l).executes (regsOf l) 0#4 := ⟨rfl, rfl, rfl⟩

theorem test_hyp_EncodeDecodeAgree : (Instr.nop 0#26).form = .scalar ∧ (Instr.nop 0#26).wf = true ∧ (Instr.cpy (eArgs 0#4)).form = .engine ∧
    (Instr.cpy (eArgs 0#4)).wf = true ∧ Instr.vend.form = .vector ∧ Instr.vend.wf = true ∧ Instr.bringUp.form = .event := by decide
theorem test_hyp_ScalarResults : (aluTwo (.rotl 1#6 2#6 (.lit64 0#64) 0#4)).isSome ∧ (aluOne (.tget 1#6 2#6 2#6 0#4)).isSome ∧
    (Instr.tget 1#6 2#6 2#6 0#4).wf ∧ (aluImm (.shlSi 1#6 2#6 0#4 63#10)).isSome ∧ ∃ r, (onAnole []).executes r 0#4 :=
  ⟨by decide, by decide, by decide, by decide, _, (anoleTurn []).2⟩
theorem test_hyp_PredicateResults : (∃ r, (onAnole []).executes r 0#4 ∧ condHolds 9 (r.get 0#6) (r.get 0#6) = (0 < 0)) ∧
    (8#6).toNat / 8 ≠ 0 ∧ (0#6).toNat % 8 = 0 ∧ (10#4).toNat = 10 := ⟨⟨_, (anoleTurn []).2, rfl⟩, by decide, by decide, rfl⟩
theorem test_hyp_PredicatedOff : guardOf (.div 3#6 1#6 (.lit64 0#64) 1#4) = some 1#4 ∧ (onAnole []).regs? = some (regsOf []) ∧
    (regsOf []).guard 1#4 = false ∧ (decode [0xDC000000#32]).isOk ∧ (onCore' tCore).cur = .core tk := ⟨rfl, rfl, rfl, rfl, rfl⟩
theorem test_hyp_RegisterFrame : (outOf (.add 1#6 2#6 (.reg 3#6) 0#4) (onAnole [])).isSome ∧ destOf (.add 1#6 2#6 (.reg 3#6) 0#4) = some 1#6 ∧
    (outOf (.pnot 1#3 2#3 0#4) (onAnole [])).isSome ∧ predOf (.pnot 1#3 2#3 0#4) = some 1#3 := by decide
theorem test_hyp_BranchTargets :
    ((regsOf [(1#6, 0xFFFFFFFFFFFFC#64)]).get 1#6).toNat < 2 ^ 52 ∧ ((regsOf [(1#6, 0xFFFFFFFFFFFFC#64)]).get 1#6).toNat % 4 = 0 ∧
    2 ^ 52 ≤ ((regsOf [(1#6, 0x10000000000000#64)]).get 1#6).toNat ∧ ((regsOf [(62#6, 2#64)]).get 62#6).toNat % 4 ≠ 0 := by decide

/-- A state from outside with a NOP placed for a core, and one with VEND for a stream. -/
def placedNop : State := State.reset.withFetchWord 32 0xDC000000
def placedVend : State := State.reset.withFetchWord 48 0x720000000000
def pk : CoreRef := { lid := 0, role := .primary, rank := 0 }
theorem test_hyp_StepRunsCoreInstr : placedNop.sched = [.run (.core pk)] ∧ coreRunnable { placedNop with sched := [] } pk = true ∧
    ((coreFetch pk { placedNop with sched := [], cur := .core pk }).toOption.map fun x => x.1) = some [0xDC000000#32] ∧
    decode [0xDC000000#32] = .ok (.nop 0#26) := by decide
theorem test_step_core : (match step placedNop with
    | .next t => (t.core? pk).map fun c => c.regs.pc
    | _ => none) = some 0x200004#64 := by decide
/-- An Anole core whose next word is NOP. -/
def anoleNop : State := { onAnole [] with dram := Store.zero.put 0x1000 [0#8, 0#8, 0#8, 0xDC#8], sched := [.run (.anole 2#4)], cur := .none }
theorem test_hyp_StepRunsOtherWords : anoleRunnable { anoleNop with sched := [] } 2#4 = true ∧ (Instr.nop 0#26).wf = true ∧ encode (.nop 0#26) = [0xDC000000#32] ∧
    (dpaOk 0x1000 = true ∧ anoleNop.dpaReady 0x1000 = true ∧ anoleNop.dram.badIn 0x1000 4 = false ∧ anoleNop.dram.bytes 0x1000 4 = natLe 4 0xDC000000) ∧
    streamRunnable { placedVend with sched := [] } pk = true ∧ decodeVector 0x720000000000#48 = .ok .vend ∧
    ((placedVend.core? pk).map fun c => (c.vim.bytes 0 6, c.vim.badIn 0 6)) = some (natLe 6 0x720000000000, false) := by decide
theorem test_step_anole : (match step anoleNop with
    | .next t => some t.anoles[2].regs.pc
    | _ => none) = some 0x1004#64 := by decide
theorem test_step_stream : (match step placedVend with
    | .next t => (t.core? pk).bind fun c => c.eng.stream.map fun x => x.ended
    | _ => none) = some true := by decide
theorem test_hyp_ScheduleEntries : runnable State.reset .none = false ∧ isStep .scoreHalving = true := by decide
theorem test_hyp_StorageStaysCanonical : Memory.wf anoleNop = true ∧ (match step anoleNop with
    | .next _ => true
    | _ => false) = true := by decide
theorem test_hyp_ResetState : accessTargets.any (fun x => x.1 == 0x01300000 && 0 < x.2) = true := by decide

/-! Memory. -/

/-- Pointers into the core's own scratchpad: byte 64 with known contents, its last 8 bytes, one past them. -/
def pSelf : List (BitVec 6 × Word) := [(1#6, 0x7000000000000040#64), (2#6, 0x7000000000000FF8#64), (3#6, 0x7000000000001000#64), (4#6, 5#64)]
/-- Pointers into device memory: 0, the last 8 bytes of HBM stack 0, one past them, a misaligned one, space 1. -/
def pDpa : List (BitVec 6 × Word) := [(1#6, 0#64), (2#6, 0xBFFFFFFF8#64), (3#6, 0xC00000000#64), (4#6, 3#64), (5#6, 0x1000000000000000#64)]

theorem anolePlace_zero : AnolePlace (onAnole pDpa) (memAddr (regsOf pDpa) 1#6 3#2 0#8) 8 8 0 := ⟨by decide, by decide, by decide, by decide, by decide⟩
theorem anolePlace_last : AnolePlace (onAnole pDpa) (memAddr (regsOf pDpa) 2#6 3#2 0#8) 8 8 0xBFFFFFFF8 := ⟨by decide, by decide, by decide, by decide, by decide⟩
theorem ownPlace_last (c : Core) (h : c.rank = 0) : OwnPlace (tCopy c) c tPad 0x7000000000000FF8#64 8 8 4088 :=
  ⟨by decide, by decide, by rw [h]; rfl, by decide, by decide⟩
theorem atRest (c : Core) (h1 : c.port = []) (h2 : c.eng.cmds = []) : (tCopy c).atRest :=
  ⟨rfl, fun d hd => by cases List.mem_singleton.1 hd; exact ⟨h1, by rw [h2]; exact fun m hm => nomatch hm⟩⟩

theorem test_hyp_AnoleLoadsAndStores : AnolePlace (onAnole pDpa) (memAddr (regsOf pDpa) 2#6 3#2 0#8) 8 8 0xBFFFFFFF8 ∧
    (onAnole pDpa).dram.badIn 0xBFFFFFFF8 8 = false ∧ (onAnole pDpa).dram.partBad 0xBFFFFFFF8 8 = false ∧ (onAnole pDpa).host.writes = [] ∧
    (onAnole pDpa).firm.save = none ∧ (onAnole pDpa).executes (regsOf pDpa) 0#4 := ⟨anolePlace_last, rfl, rfl, rfl, rfl, (anoleTurn _).2⟩
theorem test_anole_store_load : ((outOf (.st 4#6 1#6 0#4 1#2 0#8) (onAnole [(1#6, 0#64), (4#6, 0x12345#64)])).bind fun t =>
    outX 7#6 (.ld 7#6 1#6 0#4 3#2 0#8) t) = some 0x2345#64 := by decide
theorem test_hyp_OwnScratchpad : Turn (coreOf pSelf) ∧ memAddr (regsOf pSelf) 2#6 3#2 0#8 = 0x7000000000000FF8#64 ∧
    OwnPlace (tCopy (coreOf pSelf)) (coreOf pSelf) tPad 0x7000000000000FF8#64 8 8 4088 ∧ tPad.mem.badIn 4088 8 = false ∧ (tCopy (coreOf pSelf)).atRest ∧
    (coreOf pSelf).remote = [] := ⟨turn rfl, by decide, ownPlace_last _ rfl, rfl, atRest _ rfl rfl, rfl⟩
theorem test_own_load : outX 7#6 (.ld 7#6 1#6 0#4 2#2 0#8) (onCore' (coreOf pSelf)) = some 0x14131211#64 := by decide
theorem test_own_store_held_at_port : ((outOf (.st 4#6 1#6 0#4 0#2 0#8) (onCore' (coreOf pSelf))).bind fun t =>
    (t.copy? tk).map fun x => ((x.pad? (.usp 0)).map fun q => q.mem.get 64, x.cores.map fun d => d.port.length)) = some (some 17#8, [1]) := by decide
theorem test_load_past_limit : outF (.ld 7#6 3#6 0#4 3#2 0#8) (onCore' (coreOf pSelf)) = some [0x04] := by decide
theorem test_hyp_AnoleAccessFaults : (memAddr (regsOf pDpa) 5#6 3#2 0#8).toNat / 2 ^ 60 = 1 ∧ (memAddr (regsOf pDpa) 3#6 3#2 0#8).toNat / 2 ^ 60 = 0 ∧
    rangeOk 0xC00000000 8 = false ∧ (memAddr (regsOf pDpa) 4#6 1#2 0#8).toNat / 2 ^ 48 = 0 ∧ rangeOk 3 2 = true ∧ 3 % 2 ≠ 0 ∧
    ({ (onAnole pDpa) with dram := { Store.zero with bad := [0] } } : State).dram.badIn 0 8 = true ∧
    AnolePlace { (onAnole pDpa) with dram := { Store.zero with bad := [0] } } 0#64 8 8 0 :=
  ⟨by decide, by decide, by decide, by decide, by decide, by decide, by decide, ⟨by decide, by decide, by decide, by decide, by decide⟩⟩
theorem test_hyp_AtomicResults : (amoOf (.amoCas 4#6 5#6 2#6 2#2 1#2)).isSome ∧ AnolePlace (onAnole pDpa) 0xBFFFFFFF0#64 16 16 0xBFFFFFFF0 ∧
    0xBFFFFFFF0 / 2 ^ 44 < 2 ∧ (onAnole pDpa).dram.badIn 0xBFFFFFFF0 16 = false ∧ Turn (coreOf pSelf) ∧ (onCore' (coreOf pSelf)).lags = [] :=
  ⟨by decide, ⟨by decide, by decide, by decide, by decide, by decide⟩, by decide, by decide, turn rfl, rfl⟩
theorem test_amo_min_signed : ((outOf (.amoMin 7#6 4#6 1#6 1#2 0#2) (onAnole [(1#6, 0#64), (4#6, 0xFFFFFFFF#64)])).map fun t =>
    (t.dram.bytes 0 4, t.regs?.map fun r => r.get 7#6)) = some ([0xFF#8, 0xFF#8, 0xFF#8, 0xFF#8], some 0#64) := by decide
theorem test_amo_cas_miss : ((outOf (.amoCas 7#6 4#6 1#6 1#2 0#2) (onAnole [(1#6, 0#64), (4#6, 9#64), (7#6, 1#64)])).map fun t =>
    (t.dram.get 0, t.regs?.map fun r => r.get 7#6)) = some (0#8, some 0#64) := by decide
theorem test_amo_add128_carry : ((outOf (.amoAdd128 6#6 4#6 1#6 0#2) { (onAnole [(1#6, 0#64), (4#6, 1#64)]) with dram := Store.zero.put 0 (List.replicate 8 0xFF#8) }).map
    fun t => (t.dram.bytes 0 9, t.regs?.map fun r => (r.get 6#6, r.get 7#6))) = some (List.replicate 8 0#8 ++ [1#8], some (0xFFFFFFFFFFFFFFFF#64, 0#64)) := by decide
theorem test_own_amo : outX 7#6 (.amoXchg 7#6 4#6 1#6 2#2 0#2) (onCore' (coreOf pSelf)) = some 0x1817161514131211#64 := by decide
/-- A core with one store at its port. -/
def cPort : Core := { tCore with port := [{ id := 0, pad := .usp 0, off := 0, data := [1#8], read := none }] }
theorem test_hyp_FenceWaits : (5#4).toNat < 6 ∧ Turn tCore ∧ (onCore' tCore).settledAt tk (tCopy tCore) tCore 5 = true ∧ Turn cPort ∧
    (onCore' cPort).settledAt tk (tCopy cPort) cPort 0 = false := ⟨by decide, turn rfl, by decide, turn rfl, by decide⟩

/-! Tokens and terms. -/

/-- Token e5 with a count, base, posts and waits; and a core that has it. -/
def tokOf (n : Nat) (b : Int) (p w : Nat) (q : List TokWait) : Token := { count := n, left := n, base := b, posts := p, waits := w, queue := q }
def cTok (x : Token) (l : List (BitVec 6 × Word)) : Core := (coreOf l).putTok 5#6 x
/-- A queued command that waits on e5 and posts e6, and a core that has pushed it. -/
def tCmd : Cmd := { fetchVrun with op := .cpy, xa := 0x7000000000000400#64, xb := 0x7000000000000040#64, xc := 8#64, waitsOn := [5#6], waits := [5#6], post := 6#6, state := .queued }
def cCmd (m : Cmd) : Core := { tCore with eng := { Engines.zero with cmds := [m], nextCmd := 1 } }
theorem test_hyp_TokenSet : Turn tCore ∧ tCore.block = .none ∧ (srB tCore.regs (.lit32 65536#32)).toInt = 65536 ∧ (srB tCore.regs (.lit32 65535#32)).toInt = 65535 ∧
    (srB tCore.regs (.lit32 0xFFFFFFFF#32)).toInt = -1 ∧ (∀ m ∈ tCore.eng.cmds, (m.post = 5#6 → (5#6) = 63#6) ∧ (m.state = .queued → (5#6) ∉ m.waitsOn)) ∧
    tCore.policy.trap = false ∧ Turn { tCore with policy := { Policy.zero with trap := true } } ∧ Turn (cCmd tCmd) ∧
    (∃ m ∈ (cCmd tCmd).eng.cmds, m.state = .queued ∧ 5#6 ∈ m.waitsOn) ∧ (∃ m ∈ (cCmd tCmd).eng.cmds, m.post = 6#6) :=
  ⟨turn rfl, rfl, by decide, by decide, by decide, by decide, rfl, turn rfl, turn rfl, ⟨tCmd, by simp [cCmd], rfl, by decide⟩, ⟨tCmd, by simp [cCmd], rfl⟩⟩
theorem test_tset : ((outC (.tset 5#6 (.lit32 2#32) 0#4) (onCore' (cTok (tokOf 0 1 2 3 []) []))).map fun c => c.sync.tokens[5]) = some { Token.zero with count := 2, base := 2 } := by decide
theorem test_hyp_TokenPostsAndWaits : Turn (cTok (tokOf 2 2 1 1 []) []) ∧ (cTok (tokOf 2 2 1 1 []) []).sync.tokens[5] = tokOf 2 2 1 1 [] ∧
    (cTok (tokOf 2 2 1 1 []) []).block = .none ∧ (tokOf 2 2 1 1 []).credit = 2 ∧ (tokOf 0 0 0 0 []).credit = 0 ∧
    (srB tCore.regs (.lit32 0xFFFF0001#32)).toInt = -65535 ∧ (srB tCore.regs (.lit32 0xFFFF0000#32)).toInt = -65536 ∧
    (srB tCore.regs (.lit32 65533#32)).toInt = 65533 ∧ (srB tCore.regs (.lit32 0xFFFFFFFE#32)).toInt = -2 := 
  ⟨turn rfl, by decide, rfl, by decide, by decide, by decide, by decide, by decide, by decide⟩
/-- Table 04-4, steps 3 to 5. -/
theorem test_twait_blocks : ((outC (.twait 5#6 (.lit32 2#32) 0#4) (onCore' (cTok (tokOf 1 2 1 1 []) []))).map fun c => (c.sync.tokens[5].waits, c.block)) =
    some (3, .token 5#6 0x1008#64 false) := by decide
theorem test_twait_order_fault : outF (.twait 5#6 (.lit32 1#32) 0#4) (onCore' (cTok (tokOf 0 2 1 3 []) [])) = some [0x09] := by decide
theorem test_tpost_underflow : ((outC (.tpost 5#6 (.lit32 0xFFFFFFFF#32) 0#4) (onCore' (cTok (tokOf 0 2 1 3 []) []))).map fun c =>
    (c.policy.sticky, c.policy.tok, c.regs.pc)) = some (true, 5#6, 0x1008#64) := by decide
/-- A core whose control core waits for 2 of e5. -/
def cWait (n : Nat) : Core := { cTok (tokOf n 2 1 3 [{ cmd := none, amount := 2 }]) [] with block := .token 5#6 0x1008#64 false }
theorem test_hyp_TokenWaitSatisfied : (onCore' (cWait 2)).launch? tk.lid = some (tLaunch (cWait 2)) ∧ (onCore' (cWait 2)).copy? tk = some (tCopy (cWait 2)) ∧
    (onCore' (cWait 2)).core? tk = some (cWait 2) ∧ (cWait 2).fireDue.sync.tokens[5].queue = [{ cmd := none, amount := 2 }] ∧
    (cWait 2).fireDue.sync.tokens[5].left = 2 ∧ (cWait 1).fireDue.sync.tokens[5].left < 2 ∧ (cWait 2).fireDue.block = .token 5#6 0x1008#64 false :=
  ⟨rfl, rfl, rfl, by decide, by decide, by decide, rfl⟩
theorem test_wait_satisfied : ((outC (.tokenWaitSatisfied tk 5#6) (onCore' (cWait 2))).map fun c => (c.sync.tokens[5].count, c.block, c.regs.pc)) =
    some (0, .none, 0x1008#64) := by decide
/-- Calico terms on e5 (Table 01-5): threshold `thr`, posting e6, or arriving at b127. -/
def termPost (thr : Nat) : Word := ofU (5 + 63 * 2 ^ 6 + thr * 2 ^ 12 + 6 * 2 ^ 22 + 2 ^ 36)
def termArrive (thr : Nat) : Word := ofU (5 + 63 * 2 ^ 6 + thr * 2 ^ 12 + 127 * 2 ^ 28 + 2 ^ 35 + 2 ^ 36)
/-- A core with term 3, due in this cycle, and `n` of e5. -/
def cTerm (w : Word) (n : Nat) : Core :=
  { tCore with sync := { Sync.zero with calico := Sync.zero.calico.set 3 w, due := [3], tokens := Sync.zero.tokens.set 5 (tokOf n 0 0 0 []) } }
theorem test_hyp_CalicoTerms : Turn (coreOf [(1#6, termPost 1023)]) ∧ (termPost 1023).toNat / 2 ^ 38 = 0 ∧ (termPost 1023).toNat / 2 ^ 36 % 4 ≠ 3 ∧
    (termPost 1023).toNat / 2 ^ 12 % 2 ^ 10 ≠ 0 ∧ (termPost 1023).toNat / 2 ^ 35 % 2 = 0 ∧ (termPost 1023).toNat / 2 ^ 28 % 2 ^ 7 = 0 ∧
    (termArrive 1).toNat / 2 ^ 35 % 2 = 1 ∧ (termArrive 1).toNat / 2 ^ 22 % 2 ^ 6 = 0 ∧ (termPost 0).toNat / 2 ^ 12 % 2 ^ 10 = 0 ∧
    (onCore' (cTerm (termPost 2) 1)).core? tk = some (cTerm (termPost 2) 1) ∧ 5#6 ∈ termSources (termPost 2) ∧ 1 < termThr (termPost 2) ∧
    (onCore' (cTerm (termPost 2) 2)).core? tk = some (cTerm (termPost 2) 2) ∧ 3 ∈ (cTerm (termPost 2) 2).firing ∧ 3 ∈ (cTerm (termArrive 2) 2).firing ∧
    3 ∉ tCore.sync.due ∧ 3 ∈ (cTerm (termArrive 2) 2).sync.due ∧ ({ Sync.zero with posts := [5#6] } : Sync).due = [] :=
  ⟨turn rfl, by decide, by decide, by decide, by decide, by decide, by decide, by decide, by decide, rfl, by decide, by decide, rfl, by decide, by decide, by decide, by decide, rfl⟩
theorem test_term_posts : ((outC (.calicoTermFire tk 3#4) (onCore' (cTerm (termPost 2) 3))).map fun c =>
    (c.sync.tokens[5].count, c.sync.posts)) = some (1, [6#6]) := by decide

/-! Barriers. -/

/-- A core whose barrier b65 expects `e`, has `a` and is at generation `g`, with `x` from outside. -/
def cBar (e a g x : BitVec 16) : Core := { tCore with sync := { Sync.zero with barriers := Sync.zero.barriers.set 65 { exp := e, arr := a, gen := g, ext := x } } }
/-- Two cores in a row, ranks 0 and 1. -/
def tPacket2 : Packet := { tPacket with w1 := 0x0102#64 }
def tOther : Core := startCore tPacket2 tLoop [] 1 1 [] 0
def tCopy2 : Copy := { tCopy tCore with cores := [tCore, tOther] }
def tLaunch2 : Launch := { tLaunch tCore with packet := tPacket2, copies := [tCopy2] }
def twoCores : State := { onCore' tCore with launches := [tLaunch2] }
theorem test_hyp_BarrierInstructions : Turn tCore ∧ (srB tCore.regs (.lit32 65535#32)).toNat = 65535 ∧ (srB tCore.regs (.lit32 65536#32)).toNat = 65536 ∧
    tCore.sync.barriers[65].arr = 0#16 ∧ tCore.sync.barriers[65].exp = 0#16 ∧ Turn (cBar 2#16 1#16 7#16 0#16) ∧ (cBar 2#16 1#16 7#16 0#16).sync.barriers[65].arr ≠ 0#16 ∧
    (tCopy (cBar 2#16 1#16 7#16 0#16)).outstanding (cBar 2#16 1#16 7#16 0#16) = [] ∧ (onCore' (cBar 2#16 1#16 7#16 0#16)).isTokenBarrier tk 65 = false ∧
    Turn cPort ∧ (tCopy cPort).outstanding cPort ≠ [] ∧ twoCores.CoreTurn tk tLaunch2 tCopy2 tCore ∧ isRank 1 2 1 = true ∧ isRank 1 2 2 = false ∧
    tCopy2.core? 1 = some tOther ∧ tOther.exited = false ∧ tCopy2.outstanding tCore = [] ∧
    (7 + 2 ^ 16 - 6 % 2 ^ 16) % 2 ^ 16 = 1 ∧ (7 + 2 ^ 16 - 32776 % 2 ^ 16) % 2 ^ 16 = 32767 ∧ (7 + 2 ^ 16 - 32775 % 2 ^ 16) % 2 ^ 16 = 32768 :=
  ⟨turn rfl, by decide, by decide, by decide, by decide, turn rfl, by decide, by decide, by decide, turn rfl, by decide, ⟨rfl, rfl, rfl, rfl⟩,
   by decide, by decide, rfl, rfl, by decide, by decide, by decide, by decide⟩
/-- A store of the core is on its way when it arrives: the arrival waits for it, the core goes on. -/
def cLater : Core := { cBar 2#16 1#16 7#16 0#16 with port := [{ id := 0, pad := .usp 0, off := 0, data := [1#8], read := none }] }
theorem test_barv_later : (tCopy cLater).outstanding cLater ≠ [] ∧ ((outC (.barv 65#7 0#4) (onCore' cLater)).map fun c => (c.regs.pc, c.sync.barriers[65].arr, c.sync.arrivals.map fun a => a.after)) =
    some (0x200004#64, 1#16, [[0]]) := by decide
theorem test_barv_completes : ((outC (.barv 65#7 0#4) (onCore' (cBar 2#16 1#16 7#16 0#16))).map fun c => c.sync.barriers[65]) =
    some { exp := 2#16, arr := 0#16, gen := 8#16, ext := 0#16 } := by decide
theorem test_bwait_half_range : outPc (.bwait 65#7 (.lit32 32776#32) 0#4) (onCore' (cBar 2#16 1#16 7#16 0#16)) = some 0x200008#64 ∧
    outPc (.bwait 65#7 (.lit32 32775#32) 0#4) (onCore' (cBar 2#16 1#16 7#16 0#16)) = some 0x200000#64 := by decide
/-- A core with an arrival of another core and one of its own waiting at b65. -/
def cArr : Core := { cBar 2#16 1#16 7#16 0#16 with sync := { (cBar 2#16 1#16 7#16 0#16).sync with arrivals := [{ bar := 65#7, src := .other 1 none, after := [] }, { bar := 65#7, src := .own 0, after := [] }] } }
theorem test_hyp_ArrivalOrder : (onCore' cArr).launch? 1 = some (tLaunch cArr) ∧ (onCore' cArr).copy? tk = some (tCopy cArr) ∧ (onCore' cArr).core? tk = some cArr ∧
    cArr.sync.arrivals = [{ bar := 65#7, src := .other 1 none, after := [] }] ++ { bar := 65#7, src := .own 0, after := [] } :: [] ∧ (tCopy cArr).performed [] = true ∧ (ArrivalSrc.own 0).key < (ArrivalSrc.other 1 none).key ∧
    cArr.sync.barriers[65].exp ≠ 0#16 ∧ cArr.exited = false ∧ (onCore' tCore).byIdent (tLaunch tCore).ident = some (tLaunch tCore) ∧
    isRank 1 1 0 = true ∧ isRank 1 1 1 = false ∧ (onCore' tCore).byIdent 5#64 = none := by
  refine ⟨rfl, rfl, rfl, rfl, by decide, by decide, by decide, rfl, rfl, by decide, by decide, by decide⟩
theorem test_outside_arrival_saturates : ((outC (.outsideArrivalReceive (tLaunch tCore).ident 65#64) (onCore' (cBar 2#16 1#16 7#16 65535#16))).map fun c =>
    c.sync.barriers[65].ext) = some 65535#16 := by decide

/-! Banks, tensors, norms. -/

/-- Banks 0 and 1 allocated. -/
def cBanks : Core := { tCore with tens := { tCore.tens with banks := (tCore.tens.banks.set 0 true).set 1 true } }
theorem banksFree (c : Core) (f n : Nat) (v : Bool) (h : f + n ≤ 256) (hd : ∀ i, i < f + n → f ≤ i → c.tens.banks[i]? = some v) : c.banksAre f n v :=
  ⟨h, fun i h1 h2 => hd i h2 h1⟩
theorem test_hyp_BankAllocation : Turn tCore ∧ Turn cBanks ∧ tCore.lowestFree 0 4 ∧ (tCore.tens.banks.toList.filter fun x => x).length + 4 ≤ tLoop.banks ∧
    tLoop.banks < (tCore.tens.banks.toList.filter fun x => x).length + 5 ∧ tCore.tens.acc.dflt = 0#8 ∧ cBanks.banksAre 0 2 true ∧ cBanks.eng.cmds = [] ∧
    ¬ cBanks.banksAre 1 2 true :=
  ⟨turn rfl, turn rfl, ⟨banksFree _ _ _ _ (by decide) (by decide), (fun x hx => nomatch hx)⟩, by decide, by decide, rfl, banksFree _ _ _ _ (by decide) (by decide), rfl,
   fun h => absurd (h.2 2 (by decide) (by decide)) (by decide)⟩
theorem test_abank_alloc : (outX 5#6 (.abankAlloc 5#6 (.lit32 2#32) 0#4) (onCore' cBanks), outX 5#6 (.abankAlloc 5#6 (.lit32 3#32) 0#4) (onCore' cBanks)) =
    (some 2#64, some 0xFFFFFFFFFFFFFFFF#64) := by decide
/-- A command in the store queue. -/
def cStore : Core := cCmd { tCmd with op := .stt }
theorem test_hyp_TensorAndNormEntries : Turn tCore ∧ OwnPlace (tCopy tCore) tCore tPad 0x7000000000000FC0#64 64 64 4032 ∧
    OwnPlace (tCopy tCore) tCore tPad 0x7000000000000040#64 64 64 64 ∧ tPad.mem.badIn 4032 64 = false ∧
    tidOk (BitVec.ofNat 512 (leNat (tPad.mem.bytes 4032 64))) = true ∧ tidOk (BitVec.ofNat 512 (leNat (tPad.mem.bytes 64 64))) = false ∧
    (tCopy tCore).atRest ∧ tCore.remote = [] ∧ Turn cStore ∧ (∃ m ∈ cStore.eng.cmds, engineSrc m.op = 4) ∧ (∀ m ∈ tCore.eng.cmds, engineSrc m.op ≠ 4) :=
  ⟨turn rfl, ⟨by decide, by decide, rfl, by decide, by decide⟩, ⟨by decide, by decide, rfl, by decide, by decide⟩, by decide, by decide +kernel, by decide +kernel,
   atRest _ rfl rfl, rfl, turn rfl, ⟨_, List.mem_singleton.2 rfl, rfl⟩, by decide⟩
/-- Norm register n5 holds 2^64 + 3, with counts 2 and 1. -/
def cNorm : Core := { tCore with tens := { tCore.tens with norms := tCore.tens.norms.set 5 { value := 0x10000000000000003#128, overs := 2#16, unders := 1#16 } } }
theorem test_nrd_nstat : (outX 6#6 (.nrd 6#6 5#6 0#4) (onCore' cNorm), outX 7#6 (.nrd 6#6 5#6 0#4) (onCore' cNorm), outX 9#6 (.nstat 9#6 5#6 0#4) (onCore' cNorm)) =
    (some 3#64, some 1#64, some 0x10002#64) := by decide

/-! Commit points. -/

theorem atCommit {c : Core} (h : c.rank = 0) (h1 : c.commit = .idle) (h2 : c.pushesBusy = false) (h3 : c.port = []) (h4 : c.muslin.lines = [])
    (h5 : c.muslin.closed = []) : (onCore' c).AtCommit tk (tLaunch c) (tCopy c) c :=
  { toCoreTurn := (turn h).1, role := nofun, prot := (by decide : tPacket.prot ≠ 2), idle := h1, pushed := h2, live := Nat.le_refl 0, room := (by decide : 0 < 4096),
    home := rfl, port := fun d hd _ => by cases List.mem_singleton.1 hd; exact h3, lines := h4, closed := fun d hd => by cases List.mem_singleton.1 hd; exact h5, calm := rfl }
/-- Region 7 of context 0 with two slots, in states `a` and `b`, tags 4 and 6, and no readers; the context's table lies at 0x200000. -/
def withRegion (a b : Nat) (s : State) : State :=
  { s with sys := [(8, 0x40000001000#64), (0x10008, 0x200000#64)],
           dram := Store.zero.put 0x200380 (natLe 8 (7 + 2 * 2 ^ 12 + 2 ^ 15 + 2 ^ 16) ++ natLe 8 0x10000000000 ++ natLe 8 4 ++ natLe 8 a ++ natLe 8 6 ++ natLe 8 b) }
def vr (a b : Nat) : State := withRegion a b (onCore' tCore)
def rg7 : Region := { id := 7, size := 65536, slots := 2, base := 0x10000000000, at' := 0x200380 }
theorem vrCommit (a b : Nat) : (vr a b).AtCommit tk (tLaunch tCore) (tCopy tCore) tCore :=
  { toCoreTurn := ⟨rfl, rfl, rfl, rfl⟩, role := nofun, prot := (by decide : tPacket.prot ≠ 2), idle := rfl, pushed := rfl, live := Nat.le_refl 0, room := (by decide : 0 < 4096),
    home := rfl, port := fun d hd _ => by cases List.mem_singleton.1 hd; rfl, lines := rfl, closed := fun d hd => by cases List.mem_singleton.1 hd; rfl, calm := rfl }
theorem test_hyp_VersionedSlots : (vr 3 0).AtCommit tk (tLaunch tCore) (tCopy tCore) tCore ∧ (vr 3 0).executes tCore.regs 0#4 ∧ (vr 3 0).region? 0#6 7 = some rg7 ∧
    (vr 3 0).dpaReady 0x200380 = true ∧ (vr 3 0).dram.badIn 0x200380 80 = false ∧
    ((vr 3 0).slotState rg7 0, (vr 3 0).slotTag rg7 0, (vr 3 0).slotState rg7 1, (vr 3 0).slotCount rg7 0) = (3, 4#32, 0, 0) ∧
    ((vr 3 1).slotState rg7 1, (vr 3 1).slotTag rg7 1, (vr 3 1).region? 0#6 7) = (1, 6#32, some rg7) ∧ (vr 3 1).AtCommit tk (tLaunch tCore) (tCopy tCore) tCore ∧
    (vr 3 0).hasLive 0#6 4#32 = true :=
  ⟨vrCommit 3 0, ⟨rfl, rfl⟩, by decide, by decide, by decide, by decide, by decide, vrCommit 3 1, by decide⟩
theorem test_hyp_ClockFlushExit : (onCore' tCore).AtCommit tk (tLaunch tCore) (tCopy tCore) tCore ∧ (onCore' tCore).host.writes = [] ∧
    (∀ i : Fin 256, tCore.tens.banks[i.val] = false) ∧ (∃ i : Fin 256, cBanks.tens.banks[i.val] = true) ∧ (onCore' cBanks).AtCommit tk (tLaunch cBanks) (tCopy cBanks) cBanks :=
  ⟨atCommit rfl rfl rfl rfl rfl rfl, rfl, by decide +kernel, ⟨1, by decide⟩, atCommit rfl rfl rfl rfl rfl rfl⟩
theorem test_exit : ((outC (.exit 0#4) (onCore' tCore)).map fun c => c.exited) = some true := by decide +kernel
theorem test_mfs_clock : outX 5#6 (.mfs 5#6 6#6 0#4) { onCore' tCore with cc := 77 } = some 77#64 := by decide
theorem test_hyp_OutsideBarriers : (onCore' (cBar 2#16 1#16 7#16 3#16)).AtCommit tk (tLaunch (cBar 2#16 1#16 7#16 3#16)) (tCopy (cBar 2#16 1#16 7#16 3#16)) (cBar 2#16 1#16 7#16 3#16) ∧
    (cBar 2#16 1#16 7#16 3#16).sync.barriers[65] = { exp := 2#16, arr := 1#16, gen := 7#16, ext := 3#16 } ∧ (onCore' (cBar 2#16 1#16 7#16 3#16)).isTokenBarrier tk 65 = false ∧
    ((7 + (1 + 3) / 2) % 2 ^ 16 + 2 ^ 16 - 8 % 2 ^ 16) % 2 ^ 16 = 1 ∧ ((onCore' tCore).node = 0#12) ∧ (onCore' tCore).byIdent 5#64 = none ∧
    ({ onCore' tCore with cur := .anole 2#4 } : State).byIdent (tLaunch tCore).ident = some (tLaunch tCore) ∧
    ({ onCore' tCore with cur := .anole 2#4 } : State).right 0x01245000 0 44 .enqueue = true :=
  ⟨atCommit rfl rfl rfl rfl rfl rfl, by decide, by decide, by decide, by decide, by decide, rfl, by decide⟩
theorem test_hyp_OutsideBarriers_waits : (cBar 2#16 1#16 7#16 0#16).applied = none ∧ (cBar 2#16 1#16 7#16 0#16).sync.noted = [] ∧
    ((7 + (1 + 0) / 2) % 2 ^ 16 + 2 ^ 16 - 7 % 2 ^ 16) % 2 ^ 16 = 0 := by decide
theorem test_bwaitX_waits : ((outC (.bwaitX 65#7 (.lit32 9#32) 0#4) (onCore' (cBar 2#16 1#16 7#16 2#16))).map fun c => (c.regs.pc, c.applied, c.sync.barriers[65].gen, c.sync.barriers[65].ext)) =
    some (0x200000#64, some (65#7, 2), 8#16, 0#16) := by decide +kernel
theorem test_bwaitX : ((outC (.bwaitX 65#7 (.lit32 8#32) 0#4) (onCore' (cBar 2#16 1#16 7#16 3#16))).map fun c => c.sync.barriers[65]) =
    some { exp := 2#16, arr := 0#16, gen := 9#16, ext := 0#16 } := by decide

/-! Drains, queues, special registers, iterations, exceptions. -/

theorem test_hyp_DrainsAndChunkWaits : Turn tCore ∧ Turn (cCmd tCmd) ∧ tCmd.issuer 0 = 0 ∧ tCmd.drained .usp = true ∧ tCmd.drained .cls = false ∧
    OwnPlace (tCopy tCore) tCore tPad 0x7000000000000FF8#64 8 1 4088 ∧ 4088 / 512 = (4088 + 8 - 1) / 512 ∧ ((tCopy tCore).chunk (.usp 0, 7)).pend = 0 ∧
    (({ tCopy tCore with pads := [{ tPad with chunks := [(7, { pend := 1, status := 0#8 })] }] } : Copy).chunk (.usp 0, 7)).pend ≠ 0 :=
  ⟨turn rfl, turn rfl, by decide, by decide, by decide, ⟨by decide, by decide, rfl, by decide, by decide⟩, by decide, by decide, by decide⟩
/-- Queue 3: active, generation 2, ring of 16 slots at 0x4000, one packet in it. -/
def withQueue (s : State) : State := { s with sys := [(8, 0x40000001000#64), (0x1018, 2#64), (0x20200, 0x8000#64), (0x1000C0, 0x4000#64),
    (0x1000C8, ofU (4 + 2 ^ 28 + 2 ^ 32 + 2 * 2 ^ 48)), (0x1000D0, 1#64), (0x1000D8, 1#64)] }
/-- x1 a handle of queue 3, x2 a stale one, x3 the packet's address. -/
def pEnq : List (BitVec 6 × Word) := [(1#6, 0x00020003#64), (2#6, 0x00030003#64), (3#6, 0x1040#64)]
theorem test_hyp_Enqueue : (withQueue (onAnole pEnq)).executes (regsOf pEnq) 0#4 ∧ AnolePlace (withQueue (onAnole pEnq)) 0x1040#64 64 64 0x1040 ∧
    (withQueue (onAnole pEnq)).dram.badIn 0x1040 64 = false ∧ (0x00020003#64).toNat / 2 ^ 48 = (withQueue (onAnole pEnq)).node.toNat ∧
    (withQueue (onAnole pEnq)).right 0x01280000 3 44 .enqueue = true ∧ (withQueue (onAnole pEnq)).qState 3#12 = 1 ∧
    (withQueue (onAnole pEnq)).dpaReady ((withQueue (onAnole pEnq)).qRing 3#12) = true ∧ (withQueue (onAnole pEnq)).lags = [] :=
  ⟨⟨rfl, rfl⟩, ⟨by decide, by decide, by decide, by decide, by decide⟩, by decide, by decide, by decide, by decide, by decide, rfl⟩
theorem enqReady : (withQueue (onAnole pEnq)).EnqReady 0x00020003#64 3#12 := ⟨by decide, by decide, fun _ => by decide, fun _ => ⟨rfl, by decide, by decide⟩⟩
theorem test_hyp_Enqueue_ready : (withQueue (onAnole pEnq)).EnqReady ((regsOf pEnq).get 1#6) 3#12 ∧ (withQueue (onAnole pEnq)).EnqReady ((regsOf pEnq).get 2#6) 3#12 ∧
    (withQueue (onAnole pEnq)).enqStatus 0x00020003#64 = 0 ∧ (withQueue (onAnole pEnq)).enqStatus 0x00030003#64 = 0x0F ∧ (withQueue (onAnole pEnq)).anoles[2].waits = false :=
  ⟨enqReady, ⟨by decide, by decide, fun _ => by decide, fun h => absurd h (by decide)⟩, by decide, by decide, rfl⟩
/-- A control core at its commit point, with a packet at byte 64 of its own scratchpad, which its partition may enqueue to queue 3. -/
def cEnq : Core := coreOf [(1#6, 0x00020003#64), (3#6, 0x7000000000000040#64)]
def sEnq : State := { withQueue (onCore' cEnq) with sys := (withQueue State.reset).sys ++ [(0x012801A0, 0x10#64)] }
theorem test_hyp_Enqueue_core : sEnq.AtCommit tk (tLaunch cEnq) (tCopy cEnq) cEnq ∧ sEnq.executes cEnq.regs 0#4 ∧ sEnq.EnqReady (cEnq.regs.get 1#6) 3#12 ∧
    OwnPlace (tCopy cEnq) cEnq tPad (srB cEnq.regs (.reg 3#6)) 64 64 64 ∧ tPad.mem.badIn 64 64 = false ∧ (tCopy cEnq).atRest ∧ cEnq.remote = [] ∧
    (∀ j : Fin 16, sEnq.anoles[j.val].waits = false) ∧ sEnq.right 0x01280000 3 32 .enqueue = true :=
  ⟨{ toCoreTurn := ⟨rfl, rfl, rfl, rfl⟩, role := nofun, prot := (by decide : tPacket.prot ≠ 2), idle := rfl, pushed := rfl, live := Nat.le_refl 0, room := (by decide : 0 < 4096),
     home := rfl, port := fun d hd _ => by cases List.mem_singleton.1 hd; rfl, lines := rfl, closed := fun d hd => by cases List.mem_singleton.1 hd; rfl, calm := rfl },
   ⟨rfl, rfl⟩, ⟨by decide, by decide, fun _ => by decide, fun _ => ⟨rfl, by decide, by decide⟩⟩, ⟨by decide, by decide, rfl, by decide, by decide⟩, by decide,
   atRest _ rfl rfl, rfl, by decide, by decide⟩
theorem test_enq_core : ((outOf (.enq 5#6 1#6 (.reg 3#6) 0#4) sEnq).map fun t => (t.qWrite 3#12, t.regs?.map fun r => r.get 5#6, t.dram.get 0x4040)) = some (2, some 0#64, 17#8) := by decide +kernel
theorem test_enq : ((outOf (.enq 5#6 1#6 (.reg 3#6) 0#4) (withQueue (onAnole pEnq))).map fun t => (t.qWrite 3#12, t.regs?.map fun r => r.get 5#6)) = some (2, some 0#64) ∧
    outX 5#6 (.enq 5#6 2#6 (.reg 3#6) 0#4) (withQueue (onAnole pEnq)) = some 0x0F#64 := by decide
theorem test_hyp_SpecialRegisters : Turn (coreOf [(1#6, 0x300#64), (2#6, 0x400#64), (3#6, 0x7F3F00#64), (4#6, 0x800000#64)]) ∧ (0x300 / 2 ^ 10 = 0 ∧ 0x300 / 2 ^ 6 % 4 = 0 ∧ 0x300 % 2 ^ 6 = 0) ∧
    (0x400 / 2 ^ 10 ≠ 0) ∧ (0x7F3F00 / 2 ^ 23 = 0 ∧ 0x7F3F00 / 2 ^ 14 % 4 = 0 ∧ 0x7F3F00 / 2 ^ 2 % 2 ^ 6 = 0 ∧ 0x7F3F00 % 4 = tPacket.rep) ∧ 0x800000 / 2 ^ 23 ≠ 0 :=
  ⟨turn rfl, by decide, by decide, by decide, by decide⟩
theorem test_mts_policy : ((outC (.mts 3#6 12#6 0#4) (onCore' (coreOf [(3#6, 0x7F3F00#64)]))).map fun c => (c.policy.flags, c.policy.aen, c.policy.dfen)) =
    some (0x7F#7, 0x1F#5, true) := by decide
/-- A core in a phase at an iteration. -/
def cLoop (p : Phase) (i : Nat) : Core := { tCore with loop := { phase := p, iter := i, lap := i / 2, ckpt := 0, ckptPending := false, pushes := 0 } }
theorem test_hyp_Iterations : Turn (cLoop .prologue 0) ∧ Turn (cLoop .kernel 0) ∧ Turn (cLoop .kernel 1) ∧ Turn (cLoop .kernel 2) ∧ Turn (cLoop .epilogue 3) ∧
    (onCore' (cLoop .kernel 0)).shoots = [] ∧ (0 + 1) % tLoop.ring ≠ 0 ∧ (1 + 1) % tLoop.ring = 0 ∧ (tLaunch (cLoop .kernel 1)).due (1 + 1) = true ∧ (2 + 1) % tLoop.ring ≠ 0 :=
  ⟨turn rfl, turn rfl, turn rfl, turn rfl, turn rfl, rfl, by decide, by decide, by decide, by decide⟩
theorem test_iter_to_epilogue : ((outC (.iter 0#4) (onCore' (cLoop .kernel 2))).map fun c => (c.loop.phase, c.loop.iter, c.regs.pc)) =
    some (.epilogue, 3, 0x200020#64) := by decide
theorem test_iter_checkpoint : ((outC (.iter 0#4) (onCore' (cLoop .kernel 1))).map fun c => (c.block, c.loop.iter)) = some (.ckpt, 2) := by decide
theorem test_hyp_WaitsHintsAndTraps : Turn tCore ∧ (∀ d ∈ (onCore' tCore).shoots, tk ∉ d.waiting) ∧ (onAnole []).executes (regsOf []) 0#4 ∧
    ∃ l cp c, ({ placedVend with cur := .vec pk } : State).StreamTurn pk l cp c fetchStream :=
  ⟨turn rfl, (fun _ hd => nomatch hd), (anoleTurn []).2, _, _, _, ⟨rfl, rfl, rfl, rfl, rfl⟩⟩
theorem test_trap : ((outOf (.trap (.lit64 0x700000005#64) 0#4) (onCore' tCore)).bind fun t => ((t.runDeferredOf 1).launch? 1).bind fun l => l.ending.map fun e =>
    (e.status, e.code, e.trap)) = some (1, 0x19, 5#32) := by decide
theorem test_hyp_AnoleExceptions : (onAnole []).sysF (anOff 2#4 + 24) 8 1 = 0 ∧ wordsAbove sysReset 0 (onAnole []).sys = true ∧
    ((onAnole []).sysPut (anOff 2#4 + 24) 0x103#64).sysF (anOff 2#4 + 24) 8 1 = 1 ∧ wordsAbove sysReset 0 ((onAnole []).sysPut (anOff 2#4 + 24) 0x103#64).sys = true ∧
    ((onAnole []).sysPut (anOff 2#4 + 24) 0x103#64).executes (regsOf []) 0#4 := by
  refine ⟨by decide, by decide, by decide, by decide, rfl, rfl⟩
theorem test_sysret : ((outOf (.sysret 0#4) (((onAnole []).sysPut (anOff 2#4 + 24) 0x103#64).sysPut (anOff 2#4 + 8) 0x2000#64)).map fun t =>
    (t.anoles[2].regs.pc, t.sysW (anOff 2#4 + 24))) = some (0x2000#64, 3#64) := by decide
theorem test_hyp_LaunchFaults : (onCore' tCore).launch? 1 = some (tLaunch tCore) ∧ (onCore' tCore).core? tk = some tCore ∧ tk.role ≠ .third ∧ (tLaunch tCore).busy = false ∧
    (onCore' tCore).fwServes = true ∧ (tLaunch tCore).watchdogs < 2 ∧ (∀ n, n < 12 → (onCore' tCore).rel.dieRetired n = false) :=
  ⟨rfl, rfl, by decide, by decide, by decide, by decide, by decide⟩

/-! Durable memory. -/

/-- Page tables of context 0: the first GiB plain and writable, the second of records; partition 0 may read and write both. -/
def withPages (s : State) : State :=
  { s with dram := ((Store.zero.put 0x100000 (natLe 8 0x101001)).put 0x101000 (natLe 8 0x102001)).put 0x102000 (natLe 8 0x302 ++ natLe 8 0x40000602),
           sys := [(8, 0x40000001000#64), (0x1018, 2#64), (0x10000, 0x100001#64), (0x20200, 0x8000#64), (0x01000020, 0x0F#64), (0x01000820, 0x0F#64)] }
/-- x1 the last 8 bytes that partition 0 may use of the first page, x2 a record's place. -/
def pVirt : List (BitVec 6 × Word) := [(1#6, 0x3FFFFF8#64), (2#6, 0x40000030#64), (4#6, 0xAABB#64)]
def leafPlain : TlbEntry := { ctx := 0#6, va := 0, size := 2 ^ 30, node := none, dpa := 0, w := true, x := true, rc := false }
def leafRec : TlbEntry := { ctx := 0#6, va := 2 ^ 30, size := 2 ^ 30, node := none, dpa := 2 ^ 30, w := true, x := false, rc := true }
def virtCore : State := withPages (onCore' (coreOf pVirt))
theorem test_walk_plain : (virtCore.walk 0#6 0#4 0x3FFFFF8) = (.leaf leafPlain, virtCore) := by rfl
theorem test_walk_record : (virtCore.walk 0#6 0#4 0x40000030) = (.leaf leafRec, virtCore) := by rfl
theorem test_hyp_DurableAccess : virtCore.CoreTurn tk (tLaunch (coreOf pVirt)) (tCopy (coreOf pVirt)) (coreOf pVirt) ∧ virtCore.executes (regsOf pVirt) 0#4 ∧
    memAddr (regsOf pVirt) 1#6 3#2 0#8 = 0x3FFFFF8#64 ∧
    VirtPlace virtCore (tLaunch (coreOf pVirt)) (coreOf pVirt) 0x3FFFFF8#64 8 8 .read 0x3FFFFF8 0x3FFFFF8 ∧
    VirtPlace virtCore (tLaunch (coreOf pVirt)) (coreOf pVirt) 0x3FFFFF8#64 8 8 .write 0x3FFFFF8 0x3FFFFF8 ∧
    VirtPlace virtCore (tLaunch (coreOf pVirt)) (coreOf pVirt) 0x40000030#64 16 16 .record 0x40000030 0x40000030 ∧ (coreOf pVirt).remote = [] ∧
    (coreOf pVirt).muslin.bad = [] ∧ virtCore.dram.badIn 0x3FFFFF8 8 = false ∧ virtCore.lags = [] ∧
    ((coreOf pVirt).muslin.put 0 0 0x3FFFFF8 none 0x3FFFFF8 none (natLe 8 0xAABB)).isSome ∧
    ((coreOf pVirt).muslin.put 0 0 0x40000030 none 0x40000030 none (List.replicate 16 0#8)).isSome :=
  ⟨⟨rfl, rfl, rfl, rfl⟩, ⟨rfl, rfl⟩, by decide,
   ⟨by decide, by decide, by decide, by decide, by decide, ⟨by decide, by decide⟩, ⟨leafPlain, test_walk_plain, by decide +kernel, rfl, by decide, by decide, by decide⟩, by decide, by decide⟩,
   ⟨by decide, by decide, by decide, by decide, by decide, ⟨by decide, by decide⟩, ⟨leafPlain, test_walk_plain, by decide +kernel, rfl, by decide, by decide, by decide⟩, by decide, by decide⟩,
   ⟨by decide, by decide, by decide, by decide, by decide, ⟨by decide, by decide⟩, ⟨leafRec, test_walk_record, by decide +kernel, rfl, by decide, by decide, by decide⟩, by decide, by decide⟩,
   rfl, rfl, by decide, rfl, by decide, by decide⟩
theorem test_durable_store_held : ((outOf (.st 4#6 1#6 0#4 1#2 0#8) virtCore).map fun t =>
    (t.dram.get 0x3FFFFF8, (t.core? tk).map fun c => c.muslin.lines.map fun x => (x.mask, x.data.toNat / 2 ^ 448))) = some (0#8, some [(0x300000000000000#64, 0xAABB)]) := by decide +kernel

/-! Engine commands. -/

/-- x1, x2, x3: destination, source and length of a copy between parts of the own scratchpad; x4 the word of a gang barrier. -/
def pCpy : List (BitVec 6 × Word) := [(1#6, 0x7000000000000400#64), (2#6, 0x7000000000000040#64), (3#6, 512#64), (4#6, 5#64), (7#6, 0x100000000#64)]
def eCpy : EArgs := { xa := 1#6, xb := 2#6, guard := 0#4, flags := 0#4, post := 6#6, wait0 := 5#6, wait1 := 63#6, wait2 := 63#6, xc := 3#6, order := 0#2 }
/-- A core with 1 of e5 that may be waited for. -/
def cPush : Core := cTok (tokOf 1 1 0 0 []) pCpy
def oCpy : Operands := operandsOf .cpy eCpy (regsOf pCpy)
theorem test_hyp_EnginePush : Turn cPush ∧ pushOf (.cpy eCpy) = some (.cpy, eCpy, false, 8) ∧ operandFault oCpy none 10922 = 0 ∧ oCpy.readsK = false ∧
    descOf tk oCpy (onCore' cPush) = .ok (0#256, onCore' cPush) ∧
    (∃ p, checkPlan tk oCpy 0#256 [] (onCore' cPush) = .ok (.ok p, onCore' cPush) ∧ chunksFor (tLaunch cPush) (tCopy cPush) cPush oCpy p.1 [] = [(.usp 0, 2)]) ∧
    (pushTokens 0 cPush.sync.tokens 6#6 (waitsOf eCpy)).isSome ∧ cPush.depth (engineSrc .cpy) false < 32 ∧ ((tCopy cPush).chunk (.usp 0, 2)).pend < 63 ∧
    cPush.port = [] ∧ operandFault { oCpy with xc := 0x100000000#64 } none 10922 = 1 ∧ pushOf (.chain .vrun eCpy) = some (.vrun, eCpy, true, 16) :=
  ⟨turn rfl, rfl, by decide, rfl, rfl, ⟨_, rfl, by decide +kernel⟩, by decide, by decide, by decide, rfl, by decide, rfl⟩
theorem test_push : ((outC (.cpy eCpy) (onCore' cPush)).map fun c => (c.eng.cmds.map fun m => (m.waits, m.post), c.sync.tokens[5].waits, c.regs.pc)) =
    some ([([5#6], 6#6)], 1, 0x1008#64) := by decide +kernel
theorem test_push_reserves : ((outC (.cpy eCpy) (onCore' cPush)).map fun c => c.eng.cmds.map fun m => m.chunks) = some [[(.usp 0, 2)]] := by decide +kernel
theorem test_push_order_fault : outF (.cpy eCpy) (onCore' (coreOf pCpy)) = some [0x09] := by decide +kernel
theorem test_hyp_GangPush : EOp.cpy ≠ .cpyMc ∧ Turn cPush ∧ ((regsOf pCpy).get 4#6).toNat < 2 ^ 7 ∧ gangRanks 1 1 1 0 0 = [0] ∧ [0].Nodup ∧ tk.rank ∈ [0] ∧
    operandFault oCpy (some 1) 10922 = 0 ∧ gangPointers tk oCpy (onCore' cPush) = .ok ((), onCore' cPush) ∧ (onCore' cPush).settledAt tk (tCopy cPush) cPush 3 = true ∧
    (∃ x p, checkReplicas tk oCpy [0] (onCore' cPush) = .ok ([x], onCore' cPush) ∧ x.res = .ok p ∧ x.chunks = [(.usp 0, 2)]) ∧ cPush.depth (engineSrc .cpy) true < 32 :=
  ⟨by decide, turn rfl, by decide, by decide, by decide, by decide, by decide, rfl, by decide, ⟨_, _, rfl, rfl, rfl⟩, by decide⟩
theorem test_gang_push : ((outC (.gang 4#6 false .cpy eCpy) (onCore' cPush)).map fun c => (c.eng.cmds.map (fun m => (m.lane, m.waits)), c.eng.gangs.map fun w => (w.bar, w.left))) =
    some ([(true, [5#6])], [(5#7, [0])]) := by decide +kernel

/-! Vector words. -/

/-- The stream placed from outside, with its scratchpad: v2 holds addresses 4e, v3 values 1000 + e, a4 points at its first byte. -/
def vState (v : VRegs → VRegs) : State :=
  { placedVend with
      cur := .vec pk,
      launches := placedVend.launches.map fun l => { l with copies := l.copies.map fun cp => { cp with pads := [tPad], cores := cp.cores.map fun c => { c with vregs := v c.vregs } } } }
def vRegs (r : VRegs) : VRegs :=
  { r with v := (r.v.set 2 (rowOfElts 4 ((List.range 64).map fun e => 4 * (e % 16)))).set 3 (rowOfElts 4 ((List.range 64).map fun e => 1000 + e)), k := r.k.set 5 0xFFFFFFFF#32 }
def vs : State := vState vRegs
def vL : Launch := (vs.launch? 0).getD (tLaunch tCore)
def vP : Copy := (vs.copy? pk).getD (tCopy tCore)
def vC : Core := (vs.core? pk).getD tCore
theorem vTurn : vs.StreamTurn pk vL vP vC fetchStream := ⟨rfl, rfl, rfl, rfl, rfl⟩
/-- Element `e` of width `w` that the first result of a word writes. -/
def outV (w e : Nat) (i : Instr) (s : State) : Option Nat :=
  (outOf i s).bind fun t => (t.core? pk).bind fun c => c.eng.stream.bind fun st => match st.landings with
    | x :: _ => (match x.what with
      | .v _ _ d => some (elt w d e)
      | _ => none)
    | [] => none
theorem test_hyp_FixedWords : (fixedOf (.viadd (vArgs 4#4))).isSome ∧ vs.StreamTurn pk vL vP vC fetchStream ∧ vC.policy.aen = 0#5 ∧ vC.policy.dfen = false ∧
    (fixedOf (.vargmx { vArgs 0#4 with vb := 0#5, rep := 255#8 })).isSome := ⟨rfl, vTurn, rfl, rfl, rfl⟩
theorem test_hyp_ElementWords : (elementOf (.viadd (vArgs 4#4))).isSome ∧ (Instr.viadd (vArgs 4#4)).wf = true ∧ (elementOf (.vperm (vArgs 6#4))).isSome ∧
    (Instr.vperm (vArgs 6#4)).wf = true ∧ vs.StreamTurn pk vL vP vC fetchStream ∧ fetchStream.landings = [] := ⟨rfl, by decide, rfl, by decide, vTurn, rfl⟩
theorem test_viadd : outV 4 63 (.viadd (vArgs 4#4)) vs = some 1123 := by decide +kernel
theorem test_vadd_flags : ((outOf (.vadd { vArgs 0#4 with va := 4#5, vb := 4#5 }) (vState fun r => { r with v := r.v.set 4 (rowOfElts 4 [0x7F7FFFFF]) })).bind fun t =>
    (t.core? pk).bind fun c => c.eng.stream.map fun st => st.landings.map fun x => (x.cycle, match x.what with
      | .v _ _ d => elt 4 d 0
      | .flags f _ => f.toNat
      | _ => 0)) = some [(4, 0x7F800000), (4, 0x14)] := by decide +kernel
theorem test_hyp_MoveAndCountWords : vs.StreamTurn pk vL vP vC fetchStream ∧ (Instr.vcmp (vArgs 4#4)).wf = true ∧ (Instr.vcnt { vArgs 4#4 with vb := 0#5 }).wf = true ∧
    (Instr.vsel (vArgs 6#4)).wf = true := ⟨vTurn, by decide, by decide, by decide⟩
theorem test_vrsum : outV 4 0 (.vrsum { vArgs 8#4 with va := 3#5, vb := 0#5 }) vs = some 66016 := by decide +kernel
theorem test_hyp_StreamControl : vs.launch? pk.lid = some vL ∧ vs.copy? pk = some vP ∧ vs.core? pk = some vC ∧ vC.eng.stream = some fetchStream ∧ vs.cur = .vec pk ∧
    engineLive vL = true ∧ fetchStream.err = none ∧ (vArgs 0#4).vd ≠ (vArgs 0#4).vb ∧ vC.policy.aen = 0#5 := ⟨rfl, rfl, rfl, rfl, rfl, rfl, rfl, by decide, rfl⟩
/-- A stream that has an unlanded result due in cycle 2, or an elastic word to complete no earlier than cycle 1. -/
def withStream (st : Stream) : State :=
  { vs with launches := vs.launches.map fun l => { l with copies := l.copies.map fun cp => { cp with cores := cp.cores.map fun c => { c with eng := { c.eng with stream := some st } } } } }
def stLanding : Stream := { fetchStream with cycle := 2, landings := [{ cycle := 2, what := .k 5#4 9#32 }] }
def stElastic : Stream := { fetchStream with elastic := some (1, 3) }
theorem test_hyp_StreamSteps : (withStream stLanding).core? pk = some { vC with eng := { vC.eng with stream := some stLanding } } ∧ stLanding.elastic = none ∧
    (∃ z ∈ stLanding.landings, z.cycle = 2) ∧ (∀ z ∈ stLanding.landings, 2 ≤ z.cycle) ∧ 2 ≤ stLanding.cycle ∧
    (withStream stElastic).core? pk = some { vC with eng := { vC.eng with stream := some stElastic } } ∧ stElastic.elastic = some (1, 3) ∧
    vC.cmd? stElastic.cmd = some fetchVrun ∧ (∀ z ∈ vC.eng.cmds, z.writes = []) :=
  ⟨rfl, rfl, ⟨_, List.mem_singleton.2 rfl, rfl⟩, by decide, by decide, rfl, rfl, rfl, by decide +kernel⟩
theorem test_landing : ((outOf (.vectorResultLanding pk) (withStream stLanding)).bind fun t => (t.core? pk).map fun c => c.vregs.k[5]) = some 9#32 := by decide +kernel
theorem test_vlp_falls_through : ((outOf (.vlp 1#2 7#14 2#5) vs).bind fun t => (t.core? pk).bind fun c => c.eng.stream.map fun st => (st.spc, st.cycle)) = some (1#14, 3) := by
  decide +kernel
theorem test_hyp_VectorMemory : vs.StreamAtRest pk vL vP vC fetchStream fetchVrun ∧ OwnPlace vP vC tPad 0x7000000000000040#64 256 16 64 ∧ tPad.mem.badIn 64 256 = false ∧
    OwnPlace vP vC tPad 0x70000000000000F0#64 3856 16 240 ∧ OwnPlace vP vC tPad 0x7000000000000FFC#64 4 4 4092 ∧
    (∀ e, e < 64 → OwnPlace vP vC tPad (tagSum (vC.vregs.addr 4#4) (ofU (4 * lane 4 (vC.vregs.row 2#5) e))) 4 4 (16 * (e % 16))) ∧ (vC.vregs.addr 4#4).toNat / 2 ^ 48 = 0x7000 := by
  refine ⟨⟨vTurn, rfl, rfl, rfl, rfl, rfl, ?_⟩, ⟨by decide, by decide, rfl, by decide, by decide⟩, by decide, ⟨by decide, by decide, rfl, by decide, by decide⟩,
    ⟨by decide, by decide, rfl, by decide, by decide⟩, fun e he => ⟨?_, ?_, rfl, ?_, ?_⟩, by decide +kernel⟩
  · intro d hd
    have h : d = vC := List.mem_singleton.1 hd
    subst h
    exact ⟨rfl, fun m hm => by cases List.mem_singleton.1 hm; exact ⟨rfl, rfl⟩⟩
  · exact (by decide +kernel : ∀ e, e < 64 → (tagSum (vC.vregs.addr 4#4) (ofU (4 * lane 4 (vC.vregs.row 2#5) e))).toNat / 2 ^ 48 = 0x7000) e he
  · exact (by decide +kernel : ∀ e, e < 64 → 16 * (e % 16) = (tagSum (vC.vregs.addr 4#4) (ofU (4 * lane 4 (vC.vregs.row 2#5) e))).toNat % 2 ^ 48) e he
  · have h : tPad.limit = 4096 := rfl
    omega
  · omega
theorem test_vgth : ((outOf (.vgth { vArgs 4#4 with vd := 5#5, va := 2#5, vb := 0#5 }) vs).bind fun t => (t.core? pk).map fun c => lane 4 (c.vregs.row 5#5) 4) = some 0x14131211 := by
  decide +kernel

/-! Block tables: partition 0 has blocks 1 (open, 5 rows, generation 3), 2 (in the capacity tier) and 3 (full) of 16 rows of 64 bytes. -/

def withKv (s : State) : State :=
  { s with sys := [(8, 0x40000001000#64), (0x13000, 0x8000#64), (0x13008, ofU (16 * 2 ^ 32 + 15 * 2 ^ 16 + 1)), (0x13010, 0x9000#64), (0x13018, ofU (2 ^ 32 + 4)),
             (0x13020, 0xA000#64), (0x13028, ofU (2 ^ 32 + 4)), (0x13038, 1#64)],
           dram := ((Store.zero.put 0x8010 (natLe 8 (3 * 2 ^ 48 + 2 ^ 32 + 5 * 2 ^ 10 + 1) ++ natLe 8 0x10000 ++ natLe 8 (2 ^ 48 + 2 ^ 32 + 16 * 2 ^ 10 + 3) ++
             natLe 8 (2 ^ 44) ++ natLe 8 (2 ^ 48 + 2 ^ 32 + 16 * 2 ^ 10 + 2) ++ natLe 8 0x20000)).put 0x9000 (natLe 8 0x30000)).put 0xA000 (natLe 8 (2 ^ 44 + 0x1000)) }
/-- A scratchpad with a reference to block 1 at 128 and to block 3 at 132. -/
def kPad : Pad := { tPad with mem := Store.zero.put 128 (natLe 4 (3 * 2 ^ 20 + 1) ++ natLe 4 (2 ^ 20 + 3)) }
def kCopy (c : Core) : Copy := { tCopy c with pads := [kPad] }
def kLaunch (c : Core) : Launch := { tLaunch c with copies := [kCopy c] }
def kv (c : Core) : State := withKv { onCore' c with launches := [kLaunch c] }
/-- x1 the references, x2 their number; for KVA x1 the rows, x2 the table, x3 the position. -/
def pKv : List (BitVec 6 × Word) := [(1#6, 0x7000000000000080#64), (2#6, 1#64)]
def oKv (op : EOp) : Operands := operandsOf op eCpy (regsOf pKv)
def eKv : EArgs := { eCpy with wait0 := 63#6, post := 63#6 }
def kvCmd (op : EOp) (n : Nat) : Core := cCmd { tCmd with op := op, xa := 0x7000000000000080#64, xb := ofU n, xc := 0#64, waitsOn := [], waits := [], post := 63#6 }
def kvaCmd : Core := cCmd { tCmd with op := .kva, xa := 0x7000000000000200#64, xb := 0x7000000000000080#64, xc := 5#64, waitsOn := [], waits := [], post := 63#6 }
theorem kvCommit (c : Core) (h : c.rank = 0) (h1 : c.commit = .idle) (h2 : c.pushesBusy = false) (h3 : c.port = []) (h4 : c.muslin.lines = [])
    (h5 : c.muslin.closed = []) : (kv c).AtCommit tk (kLaunch c) (kCopy c) c := by
  have hc : (kv c).core? tk = some c := by
    show ([c].find? fun k => k.rank == 0) = some c
    simp [List.find?, h]
  exact { cur := rfl, launch := rfl, copy := rfl, core := hc, role := nofun, prot := (by decide : tPacket.prot ≠ 2), idle := h1, pushed := h2,
          live := Nat.le_refl 0, room := (by decide : 0 < 4096), home := rfl, port := fun d hd _ => by cases List.mem_singleton.1 hd; exact h3, lines := h4, closed := fun d hd => by cases List.mem_singleton.1 hd; exact h5, calm := rfl }
theorem test_hyp_BlockTables_push : (kv (coreOf pKv)).CoreTurn tk (kLaunch (coreOf pKv)) (kCopy (coreOf pKv)) (coreOf pKv) ∧
    (∃ p, (kv (coreOf pKv)).PushOk tk (kLaunch (coreOf pKv)) (kCopy (coreOf pKv)) (coreOf pKv) (oKv .kvdem) eKv p (coreOf pKv).sync.tokens []) :=
  ⟨⟨rfl, rfl, rfl, rfl⟩, _, ⟨by decide, nofun, ⟨_, [], _, _, rfl, nofun, fun _ => rfl, rfl, rfl⟩, rfl, by decide, (fun _ h => nomatch h)⟩⟩
theorem test_hyp_BlockTables_refs : (kv (kvCmd .kvrefInc 1)).AtCommit tk (kLaunch (kvCmd .kvrefInc 1)) (kCopy (kvCmd .kvrefInc 1)) (kvCmd .kvrefInc 1) ∧
    OwnPlace (kCopy (kvCmd .kvrefInc 1)) (kvCmd .kvrefInc 1) kPad 0x7000000000000080#64 4 4 128 ∧ kPad.mem.badIn 128 4 = false ∧
    (words32 1 (kPad.mem.bytes 128 4)).map (fun x => ((kv (kvCmd .kvrefInc 1)).kvEntry 0 x).map fun y => y.1) = [1].map some ∧
    (kv (kvCmd .kvrefInc 1)).kvBad 0 1 = false ∧ ((kv (kvCmd .kvrefInc 1)).kvGet 0 1).refs = 1 ∧
    (words32 2 (kPad.mem.bytes 128 8)).map (fun x => ((kv (kvCmd .kvdem 2)).kvEntry 0 x).map fun y => y.1) = [1, 3].map some ∧
    (kv (kvCmd .kvdem 2)).dram.badIn 0x20000 2048 = false :=
  ⟨kvCommit _ rfl rfl rfl rfl rfl rfl, ⟨by decide, by decide, rfl, by decide, by decide⟩, by decide, by decide +kernel, by decide, by decide +kernel, by decide +kernel, by decide +kernel⟩
theorem test_hyp_BlockTables_append : (kv kvaCmd).AtCommit tk (kLaunch kvaCmd) (kCopy kvaCmd) kvaCmd ∧ (kv kvaCmd).khEn 0 = true ∧ (kv kvaCmd).khL 0 = 64 ∧
    (kv kvaCmd).khT 0 = 16 ∧ OwnPlace (kCopy kvaCmd) kvaCmd kPad 0x7000000000000200#64 128 1 512 ∧ OwnPlace (kCopy kvaCmd) kvaCmd kPad 0x7000000000000080#64 4 4 128 ∧
    ((kv kvaCmd).kvEntry 0 (BitVec.ofNat 32 (leNat (kPad.mem.bytes 128 4)))) = some (1, { gen := 3, refs := 1, fill := 5, state := 1, frame := 0x10000 }) :=
  ⟨kvCommit _ rfl rfl rfl rfl rfl rfl, by decide, by decide, by decide, ⟨by decide, by decide, rfl, by decide, by decide⟩,
   ⟨by decide, by decide, rfl, by decide, by decide⟩, by decide +kernel⟩
theorem kvAt (m : Cmd) (hm : m.id = 0) (h2 : (cCmd m).pushesBusy = false) (h3 : m.waits = [] ∧ m.post = 63#6) (h4 : m.chained = false ∧ m.partly = false ∧ m.got = [] ∧ m.early = [])
    (h5 : m.writes = [] ∧ m.old = []) : (kv (cCmd m)).AtKv tk (kLaunch (cCmd m)) (kCopy (cCmd m)) (cCmd m) m 0#4 :=
  { toAtCommit := kvCommit _ rfl rfl h2 rfl rfl rfl, guard := ⟨rfl, rfl⟩, only := rfl, tokens := h3, plain := h4,
    quiet := ⟨⟨rfl, fun d hd => by cases List.mem_singleton.1 hd; exact ⟨rfl, fun x hx => by cases List.mem_singleton.1 hx; exact h5⟩⟩, rfl⟩ }
/-- The command of a core of these states. -/
def kvOne (c : Core) : Cmd := c.eng.cmds.headD fetchVrun
theorem test_hyp_BlockTables_at : (kv (kvCmd .kvrefInc 1)).AtKv tk (kLaunch (kvCmd .kvrefInc 1)) (kCopy (kvCmd .kvrefInc 1)) (kvCmd .kvrefInc 1) (kvOne (kvCmd .kvrefInc 1)) 0#4 ∧
    (kv (kvCmd .kvrefDec 1)).AtKv tk (kLaunch (kvCmd .kvrefDec 1)) (kCopy (kvCmd .kvrefDec 1)) (kvCmd .kvrefDec 1) (kvOne (kvCmd .kvrefDec 1)) 0#4 ∧
    (kv (kvCmd .kvdem 2)).AtKv tk (kLaunch (kvCmd .kvdem 2)) (kCopy (kvCmd .kvdem 2)) (kvCmd .kvdem 2) (kvOne (kvCmd .kvdem 2)) 0#4 ∧
    (kv kvaCmd).AtKv tk (kLaunch kvaCmd) (kCopy kvaCmd) kvaCmd (kvOne kvaCmd) 0#4 ∧
    (kv (kvCmd .kvrefInc 1)).KvList (kLaunch (kvCmd .kvrefInc 1)) (kCopy (kvCmd .kvrefInc 1)) (kvCmd .kvrefInc 1) (kvOne (kvCmd .kvrefInc 1)) 1 [1] ∧
    (kv (kvCmd .kvdem 2)).KvList (kLaunch (kvCmd .kvdem 2)) (kCopy (kvCmd .kvdem 2)) (kvCmd .kvdem 2) (kvOne (kvCmd .kvdem 2)) 2 [1, 3] :=
  ⟨kvAt _ rfl rfl ⟨rfl, rfl⟩ ⟨rfl, rfl, rfl, rfl⟩ ⟨rfl, rfl⟩, kvAt _ rfl rfl ⟨rfl, rfl⟩ ⟨rfl, rfl, rfl, rfl⟩ ⟨rfl, rfl⟩, kvAt _ rfl rfl ⟨rfl, rfl⟩ ⟨rfl, rfl, rfl, rfl⟩ ⟨rfl, rfl⟩,
   kvAt _ rfl rfl ⟨rfl, rfl⟩ ⟨rfl, rfl, rfl, rfl⟩ ⟨rfl, rfl⟩,
   ⟨by decide, ⟨kPad, 128, ⟨by decide, by decide, rfl, by decide, by decide⟩, by decide, by decide +kernel⟩, by decide⟩,
   ⟨by decide, ⟨kPad, 128, ⟨by decide, by decide, rfl, by decide, by decide⟩, by decide, by decide +kernel⟩, by decide +kernel⟩⟩
theorem test_kvref_inc : ((outOf (.kvrefInc eKv) (kv (kvCmd .kvrefInc 1))).map fun t => (t.kvGet 0 1).refs) = some 2 := by decide +kernel
theorem test_kva : ((outOf (.kva eKv) (kv kvaCmd)).map fun t => ((t.kvGet 0 1).fill, (t.kvGet 0 1).state)) = some (6, 1) := by decide +kernel

/-! Writes of SYS space and of queue indices. -/

/-- After reset a PF may write a SYS page, a VF may not. -/
theorem test_hyp_SysWrites : State.reset.sysOk ∧ State.reset.maySys 0#7 (cxOff 0#6) ∧ State.reset.maySys 44#7 (khOff 11 + 16) ∧ State.reset.sysRight 1 (cxOff 0#6) .write = false ∧
    State.reset.sysF 16 32 32 = 0 ∧ State.reset.maySys 0#7 16 ∧ State.reset.maySys 0#7 32 ∧ (3071#12 : BitVec 12).toNat < 3072 ∧
    (∀ q, q < 12 → State.reset.ptEn q = false) ∧ State.reset.maySys 44#7 (fqOff 1#1 + 16) ∧ State.reset.host.delayed = [] ∧
    (0x00000F10#32 : BitVec 32).toNat < 0x02000000 ∧ isAccessOff 0x01000020 = true ∧ State.reset.maySys 44#7 0x01000020 ∧
    (∀ j : BitVec 6, (State.reset.sysW (rmOff j)).toNat / 2 ^ 63 ≠ 1) :=
  ⟨rfl, .inr (by decide), .inl rfl, by decide, by decide, .inr (by decide), .inr (by decide), by decide, by decide, .inl rfl, rfl, by decide, by decide, .inl rfl,
   by decide +kernel⟩
/-- Partition 0 enabled with C-die 0, and slot 5 of the remote masters live for node 9, partition 1. -/
def withPart : State := { State.reset with sys := [(0x11000, 0x80000001#64), (0x170028, 0x8000000000090001#64)] }
theorem test_hyp_SysWrites_taken : withPart.sysOk ∧ (∃ q, q < 12 ∧ q ≠ 1 ∧ withPart.ptEn q = true ∧ withPart.ptDies q &&& (1 % 2 ^ 12) ≠ 0) ∧
    (∃ j : BitVec 6, j ≠ 6#6 ∧ (withPart.sysW (rmOff j)).toNat / 2 ^ 63 = 1 ∧ (withPart.sysW (rmOff j)).toNat / 2 ^ 16 % 2 ^ 12 = 9 ∧ (withPart.sysW (rmOff j)).toNat % 2 ^ 4 = 1) ∧
    (∀ i, i < 8 → withPart.sysByte (0x01000020 + i) < 32) := ⟨rfl, ⟨0, by decide⟩, ⟨5#6, by decide⟩, by decide +kernel⟩
/-- Region 7 with free slots, and with an open slot 1; a creation block for region 9 at 0x300000. -/
def vrFree : State := vr 0 0
def vrOpen : State := vr 0 1
def vrNew : State := { State.reset with sys := [(8, 0x40000001000#64), (0x10008, 0x200000#64)], dram := Store.zero.put 0x300000 (natLe 8 (9 + 2 * 2 ^ 12 + 2 ^ 16) ++ natLe 8 0x10000000000) }
theorem test_hyp_SysWrites_regions : vrFree.region? 0#6 7 = some rg7 ∧ (∀ i, i < 2 → vrFree.slotState rg7 i = 0 ∧ vrFree.slotCount rg7 i = 0) ∧
    vrOpen.region? 0#6 7 = some rg7 ∧ vrOpen.slotState rg7 1 = 1 ∧ (∀ j, j < 1 → vrOpen.slotState rg7 j ≠ 1 ∧ vrOpen.slotState rg7 j ≠ 2) ∧
    (∃ i, i < 2 ∧ vrOpen.slotState rg7 i ≠ 0) ∧ (vrNew.dram.word 0x300000).toNat % 2 ^ 12 = 9 ∧ (vrNew.dram.word 0x300000).toNat / 2 ^ 12 % 8 = 2 ∧
    (vrNew.dram.word 0x300000).toNat / 2 ^ 16 % 2 ^ 32 = 1 ∧ (vrNew.dram.word 0x300008).toNat % 65536 = 0 ∧ vrNew.region? 0#6 9 = none ∧ vrNew.regions 0#6 = [] :=
  ⟨by decide, by decide, by decide, by decide, by decide, ⟨1, by decide⟩, by decide, by decide, by decide, by decide, by decide, by decide⟩
/-- A core of context 0 in WFE, and one with an entry of the context in its TLB 3. -/
def cWfe : Core := { tCore with block := .wfe 7 0x200004#64 }
theorem test_hyp_SysWrites_shootdown : (onCore' cWfe).maySys 44#7 (cxOff 0#6 + 32) ∧ tk ∈ (onCore' cWfe).coresOf 0#6 ∧ (onCore' cWfe).core? tk = some cWfe ∧ cWfe.block = .wfe 7 0x200004#64 ∧
    (∃ y ∈ ({ virtCore with tlbs := [(0, [{ Tlb.zero with entries := [leafPlain] }])] } : State).tlbsOf 0, ∃ e ∈ y.entries, e.ctx = 0#6) ∧
    (withKv State.reset).khEn 0 = true ∧ (withKv State.reset).maySys 44#7 (khOff 0 + 8 * 6) :=
  ⟨.inl rfl, by decide, rfl, rfl, ⟨_, List.mem_singleton.2 rfl, _, List.mem_singleton.2 rfl, rfl⟩, by decide, .inl rfl⟩
theorem test_shootdown_wakes : ((outOf (.shootdownIssue 0#6 44#7 1#64) (onCore' cWfe)).bind fun t => (t.core? tk).map fun c => (c.block, c.regs.pc)) = some (.none, 0x200004#64) := by decide +kernel
theorem test_kv_header_refused : ((outOf (.kvHeaderWrite 0#4 44#7 6#3 1#64) (withKv State.reset)).map fun t => t.sysW (khOff 0 + 48)) = some 0#64 := by decide +kernel
theorem test_partition_overlap : ((outOf (.partitionDescriptorWrite 1#4 44#7 0x80000001#64) withPart).map fun t => t.ptEn 1) = some false := by decide +kernel
theorem test_node_id : ((outOf (.nodeIdWrite 0#7 3071#12) State.reset).map fun t => (t.node, t.link.nodeSet)) = some (3071#12, true) := by decide +kernel
theorem test_vr_create : ((outOf (.vrCreate 0#6 44#7 0x300000#48) vrNew).bind fun t => (t.region? 0#6 9).map fun g => (g.size, g.slots, g.base)) =
    some (65536, 2, 0x10000000000) := by decide +kernel

/-- Queue 3 with claim index `c`, one packet written, nothing read; a queue that has stopped. -/
def qs (c : Word) (st : Nat) : State := { State.reset with sys := [(8, 0x40000001000#64), (0x1000C0, 0x4000#64), (0x1000C8, ofU (4 + st * 2 ^ 28 + 2 ^ 32 + 2 * 2 ^ 48)), (0x1000D0, c), (0x1000D8, 1#64)] }
theorem test_hyp_QueueIndices : (qs 15#64 1).sysOk ∧ (qs 15#64 1).maySys 44#7 (qdOff 3#12 + 16) ∧ (qs 15#64 1).qState 3#12 = 1 ∧ (qs 15#64 1).qWrite 3#12 = 1 ∧
    (qs 15#64 1).qClaim 3#12 + 1 ≤ min ((qs 15#64 1).qRead 3#12) ((qs 15#64 1).qCack 3#12) + 2 ^ (qs 15#64 1).qLsize 3#12 ∧
    min ((qs 16#64 1).qRead 3#12) ((qs 16#64 1).qCack 3#12) + 2 ^ (qs 16#64 1).qLsize 3#12 < (qs 16#64 1).qClaim 3#12 + 1 ∧
    (qs 15#64 1).sysW (qdOff 3#12 + 24) = 1#64 ∧ (qs 15#64 3).qState 3#12 = 3 ∧ (qs 15#64 3).sysF (qdOff 3#12 + 8) 40 8 = 0 ∧
    (qs 15#64 0).qState 4#12 = 0 ∧ (qs 1#64 1).fwServes = true ∧ (qs 1#64 1).qClaim 3#12 = (qs 1#64 1).qWrite 3#12 :=
  ⟨rfl, .inl rfl, by decide, by decide, by decide, by decide, by decide, by decide, by decide, by decide, by decide, by decide⟩
/-- Every capacity package is ready, so that the place of a parked ring is, wherever the firmware keeps it. -/
theorem parkReady (s : State) (h : ∀ i, i < 16 → s.capReady i = true) (q : BitVec 12) : s.dpaReady (parkAt q) = true := by
  have hb : Config.parkBase % 1520 < 1520 := Nat.mod_lt _ (by decide)
  have hq := q.isLt
  have h1 : parkAt q / 2 ^ 44 = 1 := by unfold parkAt; omega
  have h2 : parkAt q % 2 ^ 44 / (Config.capacityBytes / 16) < 16 := by unfold parkAt Config.capacityBytes; omega
  have h3 : s.dpaReady (parkAt q) = if parkAt q / 2 ^ 44 = 0 then s.hbmReady (parkAt q % 2 ^ 44 / 2 ^ 36)
      else if parkAt q / 2 ^ 44 = 1 then s.capReady (parkAt q % 2 ^ 44 / (Config.capacityBytes / 16)) else true := rfl
  rw [h3, h1, if_neg (by decide), if_pos rfl, h _ h2]
def qIdle (st : Nat) : State := { State.reset with cc := Config.parkCc, queues := [{ q := 3#12, next := 1, done := [], deficit := 0, idle := 0, waitSeq := none, ring := some 0x4000#64 }], sys := [(8, 0x4000FFFF001000#64), (0x1018, 2#64), (0x1000C0, 0x4000#64), (0x1000C8, ofU (4 + st * 2 ^ 28 + 2 ^ 32 + 2 * 2 ^ 48)), (0x1000D0, 2#64), (0x1000D8, 1#64), (0x1000E0, 1#64), (0x1000F8, 1#64)] }
theorem test_hyp_QueueIndices_park : (qIdle 1).sysOk ∧ (qIdle 1).qState 3#12 = 1 ∧ (qIdle 2).qState 3#12 = 2 ∧ (qIdle 1).fwServes = true ∧ (qIdle 1).dpaReady ((qIdle 1).qRing 3#12) = true ∧
    (qIdle 1).dpaReady (parkAt 3#12) = true ∧ ((qIdle 1).aux 3#12).idle + Config.parkCc ≤ (qIdle 1).cc ∧ (qIdle 2).sysW (qdOff 3#12 + 24) = 1#64 ∧ (qIdle 2).qWrite 3#12 < 2 ∧
    2 ≤ (qIdle 2).qClaim 3#12 ∧ ((qIdle 2).aux 3#12).ring = some 0x4000#64 :=
  ⟨rfl, by decide, by decide, rfl, by decide, parkReady _ (by decide +kernel) _, by decide, by decide, by decide, by decide, rfl⟩
theorem test_claim : ((outOf (.queueClaim 3#12 44#7) (qs 15#64 1)).map fun t => (t.qClaim 3#12, t.qState 3#12)) = some (16, 1) := by decide +kernel
theorem test_claim_past_end : ((outOf (.queueClaim 3#12 44#7) (qs 16#64 1)).map fun t => (t.qClaim 3#12, t.qState 3#12)) = some (16, 3) := by decide +kernel

/-! Launches. -/

/-- One core, no grants beyond a block of scratchpad; its packet's bytes and its loop record's (3 iterations, ring of 2, checkpoints every lap). -/
def lkBytes : List Byte := natLe 8 0 ++ natLe 8 0x0101 ++ natLe 8 (2 ^ 14) ++ natLe 40 0
def lrBytes : List Byte := natLe 8 0x200000 ++ natLe 8 0x200010 ++ natLe 8 0x200020 ++ natLe 8 (3 * 2 ^ 32 + 2 * 2 ^ 24 + 2 ^ 8) ++ natLe 24 0 ++ natLe 8 (2 ^ 14) ++ natLe 64 0
/-- Queue 3 of partition 0 with that packet written; C-die 0 serves the partition; context 0 has its page tables. -/
def qLaunch (bs : List Byte) : State :=
  { State.reset with dram := (((Store.zero.put 0x100000 (natLe 8 0x101001)).put 0x101000 (natLe 8 0x102001)).put 0x102000 (natLe 8 0x302)).put 0 lrBytes |>.put 0x4000 bs, queues := [{ q := 3#12, next := 0, done := [], deficit := 1, idle := 0, waitSeq := none, head := none, ring := none }], sys := [(8, 0x40000001001#64), (0x1018, 2#64), (0x10000, 0x100001#64), (0x11000, 0x80000001#64), (0x1000C0, 0x4000#64), (0x1000C8, ofU (4 + 2 ^ 28 + 2 ^ 32 + 2 * 2 ^ 48)), (0x1000D0, 1#64), (0x1000D8, 1#64), (0x1000E8, 0x6000#64), (0x01000020, 0x0F#64)] }
def qGood : State := qLaunch lkBytes
def qBad : State := qLaunch (natLe 8 0 ++ natLe 8 0x0100 ++ natLe 8 (2 ^ 14) ++ natLe 40 0)
def isGood (v : Verdict) : Bool := match v with
  | .good r _ => r.trip == 3
  | _ => false
theorem test_hyp_LaunchLifecycle : qGood.sysOk ∧ qGood.mayDispatch 3#12 = true ∧ (qGood.headOf 3#12).map (fun x => (x.1, x.2.2)) = some (0, false) ∧
    qGood.dpaReady (qGood.slotAt 3#12 0) = true ∧ (qGood.aux 3#12).waitSeq = none ∧ qGood.dram.badIn (qGood.slotAt 3#12 0) 64 = false ∧
    (packetOf lkBytes).w3.toNat / 2 ^ 31 % 2 = 0 ∧ isGood (qGood.validate 3#12 (packetOf lkBytes)).1 = true ∧
    (qBad.validate 3#12 (qBad.packetIn 3#12 0)).1 = .reject 0x01 :=
  ⟨rfl, by decide, by decide +kernel, by decide +kernel, by decide, by decide +kernel, by decide +kernel, by decide +kernel, by decide +kernel⟩
/-- The packet waits for placement. -/
def qPlace : State := { qGood with queues := [{ q := 3#12, next := 1, done := [], deficit := 1, idle := 0, waitSeq := none, head := none, ring := none }], placing := [{ queue := 3#12, slot := 0, packet := packetOf lkBytes, lrec := loopRecOf lrBytes, images := [] }] }
theorem test_hyp_LaunchPlacement : qPlace.headReady 3#12 = true ∧ (qPlace.placing.find? fun x => x.queue == 3#12).isSome ∧ (qPlace.qPart 3#12).toNat = 0 ∧
    qPlace.everPlaceable 0 (packetOf lkBytes) = true ∧ qPlace.placeable 0 (packetOf lkBytes) [] = true ∧ (qPlace.served 3#12 (packetOf lkBytes)).isSome ∧
    qPlace.placeOk 0 (packetOf lkBytes) [] (placeOf' (packetOf lkBytes) [0, 0, 0]) = true :=
  ⟨by decide +kernel, by decide +kernel, by decide, by decide +kernel, by decide +kernel, by decide +kernel, by decide +kernel⟩
theorem test_placement_starts : ((outOf (.launchPlacement 3#12 [0, 0, 0]) qPlace).map fun t => t.launches.map fun l => (l.lid, l.copies.map fun cp => cp.cores.map fun c => (c.regs.pc, c.regs.get 63#6))) =
    some [(0, [[(0x200000#64, 0x7000000000000100#64)]])] := by decide +kernel
/-- A launch all of whose cores have exited. -/
def lExit : Launch := tLaunch { tCore with exited := true }
def sExit : State := { withQueue State.reset with launches := [{ lExit with queue := 3#12, gen := 2#16 }], nextLid := 2 }
theorem test_hyp_LaunchCompletion : (sExit.launch? 1).map (fun l => (l.state, l.allExited)) = some (.running, true) ∧ sExit.fwServes = true ∧ sExit.sysOk ∧ lExit.third = none ∧
    lExit.deferred = [] ∧ lExit.barx = [] ∧ lExit.lag = [] ∧ sExit.host.writes = [] ∧ lExit.packet.w3.toNat / 2 ^ 63 = 0 ∧ (sExit.aux 3#12).done = [] ∧
    lExit.slot = sExit.qRead 3#12 := ⟨by decide, by decide, rfl, rfl, rfl, rfl, rfl, rfl, by decide, by decide, by decide⟩
theorem test_completion : ((outOf (.launchCompletion 1) sExit).map fun t => (t.launches.length, t.qRead 3#12, t.host.notify)) = some (0, 1, [3#12]) := by decide +kernel

/-! Steps of a launch. -/

def withL (l : Launch) : State := { State.reset with launches := [l], nextLid := 2, cc := 2 ^ 62 }
def lIdle : Launch := tLaunch tCore
def lSnap : Launch := { lIdle with preempt := true, guarded := true }
def lCkpt : Launch := { lIdle with state := .checkpointing }
def lResume : Launch := { lIdle with state := .resuming }
def sResume : State := { withL lResume with sys := [(8, 0x40000001001#64), (0x10000, 1#64), (0x11000, 0x80000001#64)] }
theorem test_hyp_GroupSteps : (withL lIdle).launch? 1 = some lIdle ∧ lIdle.guarded = false ∧ lIdle.guardFrom + Config.guardCc ≤ (withL lIdle).cc ∧
    lSnap.preempt = true ∧ lSnap.guarded = true ∧ lSnap.busy = false ∧ (withL lSnap).fwServes = true ∧ tCore.watch + Config.watchdogCc ≤ (withL lIdle).cc ∧
    tCore.block = .none ∧ tCore.exited = false ∧ (tCopy tCore).drained = true ∧ lCkpt.lrec.ranges = [] ∧ (∃ c ∈ (tCopy tCore).cores, c.rank = 0) :=
  ⟨rfl, rfl, by decide, rfl, rfl, by decide, by decide, by decide, rfl, rfl, by decide, rfl, ⟨_, List.mem_singleton.2 rfl, rfl⟩⟩
theorem test_hyp_GroupResume : sResume.launch? 1 = some lResume ∧ sResume.firm.save = none ∧ sResume.cxState 0#6 = 1 ∧ sResume.parkOver lResume = true ∧
    (∀ n, lResume.snap = some n → n.bad = false) ∧ sResume.everPlaceable 0 tPacket = true ∧ (sResume.resumePlace lResume [0, 0, 0]).isSome :=
  ⟨rfl, rfl, by decide, by decide, (fun _ h => nomatch h), by decide +kernel, by decide +kernel⟩
theorem test_hyp_GroupSteps_preempt : lSnap.state = .running ∧ lSnap.guardMet (withL lSnap).cc = true ∧ lSnap.third = none ∧ .preempt ∉ lSnap.deferred ∧
    ({ lSnap with deferred := [.preempt] } : Launch).busy = false ∧ (∃ since nx, ({ tCore with block := .wfe 5 0x1000#64 } : Core).block = .wfe since nx) ∧
    (∃ since nx, ({ Anole.zero with block := .wfe 5 0x1000#64 } : Anole).block = .wfe since nx) :=
  ⟨rfl, by decide, rfl, by decide, by decide, ⟨_, _, rfl⟩, ⟨_, _, rfl⟩⟩
theorem test_preempt_parks : ((State.runDeferredOf (withL { lSnap with deferred := [.preempt] }) 1).launch? 1).map (fun l => (l.state, l.aborts, l.preempt)) = some (.parked, 1, false) := by
  decide +kernel
theorem test_watchdog : outF (.quiescenceWatchdog tk) (withL lIdle) = some [0x14] := by decide +kernel
theorem test_watchdog_aborts : ((outOf (.quiescenceWatchdog tk) (withL lIdle)).bind fun t => ((t.runDeferredOf 1).launch? 1).map fun l => (l.state, l.aborts)) = some (.resuming, 1) := by
  decide +kernel
theorem test_checkpoint_commit : ((outOf (.checkpointCommit 1) (withL lCkpt)).bind fun t => (t.launch? 1).map fun l => (l.state, l.guarded, l.snap.isSome)) =
    some (.running, true, true) := by decide +kernel
/-- A class D pair whose copies wait at a commit point with the given signatures; a third execution that has reached the point. -/
def pPair : Packet := { tPacket with w1 := 0x0000000200000101#64 }
def cWaitSig (g : BitVec 64) : Core := { startCore pPair tLoop [] 0 0 [] 0 with commit := .waiting 9 g 0#64 0#64 }
/-- The signature with which it waits, by its first operand. -/
def sigOf (g : BitVec 64) : BitVec 64 := (((tCopy (cWaitSig g)).waitSig 0 0).map fun x => x.2).getD 0#64
def lPair (a b : BitVec 64) : Launch := { tLaunch (cWaitSig a) with packet := pPair, copies := [tCopy (cWaitSig a), { tCopy (cWaitSig b) with role := .shadow }] }
def third0 : Third := { rank := 0, ckpt := false, sp := sigOf 5#64, ss := sigOf 6#64, aborts := 0, since := 0 }
def lThird (g : BitVec 64) : Launch := { lPair 5#64 6#64 with third := some third0, copies := (lPair 5#64 6#64).copies ++ [{ tCopy (cWaitSig g) with role := .third }] }
theorem test_hyp_GroupSteps_pair : (lPair 5#64 5#64).packet.prot = 2 ∧ (lPair 5#64 5#64).deferred = [] ∧
    ((lPair 5#64 5#64).pairSigs 0).map (fun x => (x.1.op, x.2)) = some (9, sigOf 5#64, sigOf 5#64) ∧
    ((lPair 5#64 6#64).pairSigs 0).map (fun x => (x.1.op, x.2)) = some (9, sigOf 5#64, sigOf 6#64) ∧ sigOf 5#64 ≠ sigOf 6#64 ∧
    ((withL (lPair 5#64 5#64)).copy? ⟨1, .primary, 0⟩).isSome ∧ (lThird 6#64).thirdSig third0 = some third0.ss ∧ (lThird 7#64).thirdSig third0 = some (sigOf 7#64) ∧
    sigOf 7#64 ≠ third0.sp ∧ sigOf 7#64 ≠ third0.ss ∧ ((lThird 7#64).copy? .primary).isSome ∧ ((lThird 7#64).copy? .shadow).isSome :=
  ⟨by decide, rfl, by decide +kernel, by decide +kernel, by decide +kernel, rfl, by decide +kernel, by decide +kernel, by decide +kernel, by decide +kernel, rfl, rfl⟩
theorem test_third_disagrees : ((outOf (.thirdExecutionDecision 1) (withL (lThird 7#64))).bind fun t => (t.launch? 1).bind fun l => l.ending.map fun e => e.code) = some 0x13 := by
  decide +kernel

/-! Engines. -/

def eCmd : Cmd := { tCmd with waitsOn := [], waits := [], post := 6#6 }
def eRun : Cmd := { eCmd with state := .running }
def eWrite : Cmd := { eRun with chunks := [(.usp 0, 2)], writes := [{ loc := .pad (.usp 0) 0x400, data := natLe 8 7, half := none, bytewise := true, slotOf := none }] }
def eClear : Cmd := { eCmd with op := .aclr, xa := 2#64, xb := 1#64 }
def eVrun : Cmd := { eCmd with op := .vrun, xa := 10921#64 }
def sE (m : Cmd) : State := onCore' (cCmd m)
def runs (m : Cmd) : Bool := startOk (sE m) (tLaunch (cCmd m)) (tCopy (cCmd m)) (cCmd m) m
theorem test_hyp_EngineSteps : (sE eCmd).launch? tk.lid = some (tLaunch (cCmd eCmd)) ∧ (sE eCmd).copy? tk = some (tCopy (cCmd eCmd)) ∧ (sE eCmd).core? tk = some (cCmd eCmd) ∧
    (cCmd eCmd).cmd? fetchVrun.id = some eCmd ∧ engineLive (tLaunch (cCmd eCmd)) = true ∧ runs eCmd = true ∧ runs tCmd = false ∧ runs eClear = true ∧ runs eVrun = true ∧
    (tCopy (cCmd eCmd)).atRest ∧ OwnPlace (tCopy (cCmd eCmd)) (cCmd eCmd) tPad eCmd.xb 8 1 64 ∧ OwnPlace (tCopy (cCmd eCmd)) (cCmd eCmd) tPad eCmd.xa 8 1 1024 ∧
    (cCmd eRun).policy.faultOf eRun.raised = 0 ∧ (cCmd eRun).block = .none ∧ (tCopy (cCmd eWrite)).pad? (.usp 0) = some tPad ∧ tPad.mem.bad = [] ∧
    ((.usp 0, 2) : PadId × Nat) ∈ eWrite.chunks ∧ 512 * 2 ≤ 0x400 ∧ 0x400 + 8 ≤ 512 * 2 + 512 :=
  ⟨rfl, rfl, rfl, rfl, rfl, by decide, by decide, by decide, by decide, ⟨rfl, fun d hd => by cases List.mem_singleton.1 hd; exact ⟨rfl, fun m hm => by cases List.mem_singleton.1 hm; exact ⟨rfl, rfl⟩⟩⟩,
   ⟨by decide, by decide, rfl, by decide, by decide⟩, ⟨by decide, by decide, rfl, by decide, by decide⟩, by decide, rfl, rfl, rfl, by decide, by decide, by decide⟩
theorem test_copy_start : ((outOf (.engineCommandStart tk { cmd := fetchVrun.id, partly := false }) (sE eCmd)).bind fun t => (t.core? tk).map fun c => c.eng.cmds.map fun m => m.writes.map fun w => leNat w.data) =
    some [[0x1817161514131211]] := by decide +kernel
theorem test_completion_posts : ((outOf (.engineCommandCompletion tk fetchVrun.id) (sE eRun)).bind fun t => (t.core? tk).map fun c => (c.eng.cmds.length, c.sync.tokens[6].count)) =
    some (0, 1) := by decide +kernel
theorem test_chunk_performed : ((outOf (.chunkWritesPerformed tk fetchVrun.id (.usp 0) 2) (sE eWrite)).bind fun t => (t.copy? tk).bind fun cp => (cp.pad? (.usp 0)).map fun q =>
    leNat (q.mem.bytes 0x400 8)) = some 7 := by decide +kernel

/-! Memory. -/

/-- A store on its way: performed at its home, seen by its die. -/
def hs : HomeStore := { id := 0, writer := 0, pad := .usp 0, off := 0x500, data := [9#8], scope := .die, readBy := [] }
def sHome : State := { State.reset with launches := [{ tLaunch tCore with copies := [{ tCopy tCore with home := [hs] }] }] }
def sHost : State := { State.reset with host := { HostSide.zero with writes := [{ lid := 1, dpa := 2 ^ 45, mask := 1#64, data := 5#512, asked := true }] } }
def sShoot : State := { State.reset with shoots := [{ ctx := 2#6, q := 5, all := true, page := 0, pages := 0, waiting := [] }] }
def sKv : State := { withKv State.reset with kv := { promote := [(0#4, 2)], release := [(0#4, 0x40000, true)] } }
/-- A prefetch walk of TLB 3 of the core, in progress. -/
def walk0 : Walk := { owner := 0, tlb := 3, ctx := 0#6, part := 0#4, va := 0x3FFFFF8, num := 0, leaf := some leafPlain, tables := [] }
def sWalk : State := { virtCore with tlbs := [(0, List.replicate 10 Tlb.zero)], walks := [walk0] }
/-- A core whose command has one write still to perform; and one that releases one line of plain memory. -/
def mElem : Cmd := { tCmd with waitsOn := [], waits := [], state := .running, writes := [{ loc := .pad (.usp 0) 0x400, data := [7#8], half := none, bytewise := false, slotOf := none }] }
def line0 : HeldLine := { ptr := 0x3FFFFC0#64, mask := 0x300000000000000#64, data := 0xAABB#512 <<< 448, seg := 0, record := 0, slotOf := none, node := none, dpa := 0x3FFFFC0 }
def cRelease : Core := { coreOf pVirt with commit := .releasing 1#64 [] false, muslin := { (coreOf pVirt).muslin with lines := [line0] } }
def sRelease : State := withPages (onCore' cRelease)
theorem test_hyp_MemorySteps_element : (sE mElem).core? tk = some (cCmd mElem) ∧ (cCmd mElem).cmd? 0 = some mElem ∧ (tLaunch (cCmd mElem)).state.live = true ∧ (cCmd mElem).faulted = false ∧
    mElem.state = .running ∧ mElem.gang = none ∧ tPad.mem.bad = [] ∧ sRelease.core? tk = some cRelease ∧ cRelease.commit = .releasing 1#64 [] false ∧ line0.dpa / 2 ^ 44 < 2 ∧
    sRelease.dpaReady line0.dpa = true ∧ sRelease.dram.bad = [] ∧ sRelease.dram.wf = true ∧ sRelease.rel.dieRetired (dieOf cRelease.phys) = false :=
  ⟨rfl, rfl, by decide, rfl, rfl, rfl, rfl, rfl, rfl, by decide, by decide, rfl, by decide +kernel, by decide⟩
theorem test_element : ((outOf (.writePerformed (.element tk 0 0 0)) (sE mElem)).bind fun t => (t.copy? tk).map fun cp => cp.home.map fun h => (h.off, h.data)) = some [(0x400, [7#8])] := by
  decide +kernel
theorem test_release : ((outOf (.writePerformed (.release tk 0)) sRelease).map fun t => (t.dram.bytes 0x3FFFFF8 2, (t.core? tk).map fun c => c.muslin.lines.length)) =
    some ([0xBB#8, 0xAA#8], some 0) := by decide +kernel
theorem test_hyp_MemorySteps : (onCore' cPort).core? tk = some cPort ∧ cPort.port ≠ [] ∧ (sHome.copy? ⟨1, .primary, 0⟩).map (fun x => x.home) = some [hs] ∧
    scopeNum .die ≤ scopeNum hs.scope ∧ scopeNum hs.scope < scopeNum .device ∧ 3 ≤ scopeNum .device ∧ ((sHome.copy? ⟨1, .primary, 0⟩).bind fun x => x.pad? hs.pad).isSome ∧
    sHost.host.writes ≠ [] ∧ (virtCore.walk 0#6 0#4 0x3FFFFF8) = (.leaf leafPlain, virtCore) ∧ (sWalk.tlbsOf 0).length = 10 ∧ (coreOf pVirt).phys = 0 ∧
    (sWalk.walks.find? fun y => y.owner == 0 && y.tlb == 3 && y.va == 0x3FFFFF8 && y.num == 0) = some walk0 ∧ (sWalk.tlb 0 3).taken 0#6 ≤ 0 ∧
    (sWalk.walk walk0.ctx walk0.part walk0.va).1 = .leaf leafPlain ∧ walk0.leaf = some leafPlain ∧ (sShoot.shoots.find? fun y => y.ctx == 2#6).isSome ∧ sShoot.staleCmd 2#6 5 = false ∧ sShoot.sysOk ∧
    (∀ d ∈ sShoot.shoots, d.ctx ≠ 3#6) :=
  ⟨rfl, nofun, rfl, by decide, by decide, by decide, rfl, nofun, test_walk_plain, rfl, rfl, by decide, by decide, rfl, rfl, rfl, by decide, rfl, by decide⟩
theorem test_hyp_MemorySteps_kv : ((0#4, 2) : BitVec 4 × Nat) ∈ sKv.kv.promote ∧ sKv.khEn 0 = true ∧ sKv.kvBad 0 2 = false ∧ (sKv.kvGet 0 2).state = 3 ∧
    sKv.dram.badIn (sKv.kvGet 0 2).frame (sKv.khF 0) = false ∧ sKv.sysOk ∧ sKv.kvCnt 0 true = 0 + 1 ∧
    sKv.kvFrameOk 0 true (sKv.dramWord (sKv.kvPool 0 true + 8 * 0)) = true ∧ sKv.kv.release[0]? = some (0#4, 0x40000, true) ∧ sKv.kvFrameUsed 0x40000 = false ∧
    sKv.kvCnt 0 true < sKv.kvCap 0 true :=
  ⟨by decide, by decide, by decide, by decide +kernel, by decide +kernel, rfl, by decide, by decide +kernel, rfl, by decide, by decide⟩
theorem test_device_scope : ((outOf (.writePerformed (.home 1 .primary 0 .device)) sHome).bind fun t => (t.copy? ⟨1, .primary, 0⟩).bind fun x => (x.pad? (.usp 0)).map fun q =>
    (x.home.length, q.mem.get 0x500)) = some (0, 9#8) := by decide +kernel
theorem test_frame_release : ((outOf (.kvFrameRelease 0) sKv).map fun t => (t.kvCnt 0 true, t.kv.release.length, t.dramWord 0x9008)) = some (2, 0, 0x40000#64) := by decide +kernel

/-! Hosts: PF 0 may read and write the first region of HBM stack 0 and the first window page; VF 1 may not. -/

def withHost : State := { State.reset with dram := Store.zero.put 0 (natLe 8 9), sys := [(8, 0x40000001000#64), (0x01000000, 0x07#64), (0x01241000, 0x07#64)] }
/-- The last bytes of an HBM stack as function 0 sees them, and one byte further. -/
theorem test_hyp_HostAccess : withHost.sysOk ∧ hostBytes (.read 8) = 8 ∧ hostAligned (.read 8) 0 = true ∧ withHost.sysF (apOff 0#5) 36 12 * 2 ^ 36 + 0 = 0 ∧ dpaOk (0 + 8 - 1) = true ∧
    withHost.hostMay 0#5 0 8 (hostRight (.read 8)) = true ∧ withHost.dpaReady 7 = true ∧ withHost.host.writes = [] ∧ withHost.firm.save = none ∧
    withHost.dram.stops (.fetchAdd true 1#64) 0 = false ∧ withHost.hostMay 1#5 0 8 (hostRight (.read 8)) = false ∧ dpaOk (0xBFFFFFFF9 + 8 - 1) = false ∧
    withHost.right 0x01241000 0 0 (hostRight (.write [1#8])) = true ∧ withHost.right 0x01241000 0 1 (hostRight (.write [1#8])) = false ∧
    (withHost.cwn 0).stops (.write [1#8]) 65535 = false :=
  ⟨rfl, rfl, by decide, by decide, by decide, by decide, by decide, rfl, rfl, by decide, by decide, by decide, by decide, by decide, by decide⟩
theorem test_hyp_HostAccess_sys : (2 : Nat) = 2 ^ (1#2 : BitVec 2).toNat ∧ 0x10002 % 2 = 0 ∧ 0x10002 + 2 ≤ 0x02000000 ∧ withHost.sysRight 0 0x10002 .read = true ∧
    withHost.sysRight 1 0x10002 .read = false ∧ withHost.sysRight 0 0x10002 .write = true := by decide
theorem test_bar0_read : ((outOf (.hostWindowAccess 0#5 (.sys 8) (.read 4)) withHost).map fun t => t.host.reads.map fun x => leNat x.2.1) = some [0x1000] ∧
    ((outOf (.hostWindowAccess 1#5 (.sys 8) (.read 2)) withHost).map fun t => (t.host.reads.map fun x => x.2.1, t.sysF (fqOff 0#1 + 32) 0 32)) = some ([[0xFF#8, 0xFF#8]], 1) := by decide +kernel
theorem test_host_fetch_add : ((outOf (.hostApertureAccess 0#5 0 (.fetchAdd true 1#64)) withHost).map fun t => (leNat (t.dram.bytes 0 8), t.host.reads.map fun x => (leNat x.2.1, x.2.2))) =
    some (10, [(9, false)]) := by decide +kernel
theorem test_host_denied : ((outOf (.hostApertureAccess 1#5 0 (.read 2)) withHost).map fun t => (t.host.reads.map fun x => x.2.1, t.sysF (fqOff 0#1 + 32) 0 32)) =
    some ([[0xFF#8, 0xFF#8]], 1) := by decide +kernel

/-! The link: this is node 7, port 0 leads to node 9, and slot 5 names node 9, partition 1, with all rights to the first region of HBM stack 0, to queue 3 and to barriers of partition 0. -/

def withLink (s : State) : State :=
  { s with link := { Link.zero with nodeSet := true }, sys := [(8, 0x40000001000#64), (16, 0x4007#64), (0x1000C0, 0x4000#64), (0x1000C8, ofU (4 + 2 ^ 28 + 2 ^ 32 + 2 * 2 ^ 48)), (0x160020, 0x100000000#64), (0x170028, 0x8000000000090001#64), (0x01000040, 0x070000000000#64), (0x01245040, 0x100000000000#64), (0x012801C0, 0x100000000000#64)] }
def sLink : State := withLink State.reset
def lm (op : BitVec 6) (addr : Word) (pay : List Byte) : LinkMsg := { dst := 7#12, src := 9#12, part := 1#4, vc := 0#2, op := op, tag := 33#12, stat := 0#8, len := 0#8, addr := addr, payload := pay }
def mAmo : LinkMsg := lm 4#6 0x40#64 (natLe 4 0 ++ natLe 4 8 ++ natLe 16 1)
def mEnq : LinkMsg := lm 6#6 0x20003#64 (List.replicate 64 5#8)
/-- A launch that a barrier arrival of that node names. -/
def lBar : Launch := tLaunch tCore
def sBar : State := withLink { State.reset with launches := [lBar], nextLid := 2 }
def mBar : LinkMsg := lm 8#6 65#64 (natLe 8 lBar.ident.toNat)
theorem linkServes (d n : Nat) (a : Word) (op : BitVec 6) (p : List Byte) (r : Right) (h1 : d = a.toNat % 2 ^ 48) (h2 : dpaOk d = true) (h3 : dpaOk (d + n - 1) = true) (h4 : d % n = 0)
    (h5 : sLink.dpaRight 69 d r = true) (h6 : sLink.dpaReady d = true) : sLink.LinkServes (lm op a p) 69 d n r :=
  ⟨⟨rfl, (by decide : (7#12 : BitVec 12) = sLink.node)⟩, (by decide : sLink.remoteMaster (lm 0#6 0#64 []) = some 69), ⟨h1, h2, h3, h4⟩, h5, h6, ⟨rfl, rfl⟩, (by decide : sLink.reachable 9#12 = true), rfl, rfl⟩
theorem test_hyp_LinkRequests : sLink.LinkServes (lm 0#6 0x3FFFFC0#64 []) 69 0x3FFFFC0 64 .read ∧ sLink.LinkServes (lm 2#6 0x40#64 []) 69 0x40 64 .write ∧ sLink.LinkServes mAmo 69 0x40 8 .atomic ∧
    (amoOfPayload mAmo.payload).map (fun x => x.n) = some 8 ∧ sLink.dram.badIn 0x40 64 = false ∧ sLink.dram.wf = true ∧ sLink.dpaRight 69 0x4000000 .read = false ∧
    sLink.remoteMaster { mAmo with src := 10#12 } = none ∧ { mAmo with dst := 8#12 }.dst ≠ sLink.node :=
  ⟨linkServes _ _ _ _ _ _ (by decide) (by decide) (by decide) (by decide) (by decide) (by decide), linkServes _ _ _ _ _ _ (by decide) (by decide) (by decide) (by decide) (by decide) (by decide),
   linkServes _ _ _ _ _ _ (by decide) (by decide) (by decide) (by decide) (by decide) (by decide), by decide, by decide, by decide, by decide, by decide, by decide⟩
theorem test_hyp_LinkRequests_queue : sLink.sysOk ∧ mEnq.addr.toNat / 2 ^ 60 = 0 ∧ mEnq.addr.toNat / 2 ^ 32 % 2 ^ 16 = 0 ∧ BitVec.ofNat 12 (mEnq.addr.toNat % 2 ^ 16) = 3#12 ∧
    sLink.right 0x01280000 3 69 .enqueue = true ∧ sLink.dpaReady (sLink.slotAt 3#12 (sLink.qClaim 3#12)) = true ∧ sLink.qState 3#12 = 1 ∧
    (sLink.qGen 3#12).toNat = mEnq.addr.toNat / 2 ^ 16 % 2 ^ 16 ∧ sLink.qClaim 3#12 = sLink.qWrite 3#12 ∧ sLink.qState 4#12 = 0 ∧ sLink.right 0x01280000 4 69 .enqueue = false ∧
    (sBar.byIdent lBar.ident).isSome ∧ BitVec.ofNat 64 (leNat (mBar.payload.take 8)) = lBar.ident ∧ sBar.right 0x01245000 0 69 .enqueue = true ∧
    isRank 1 1 (mBar.addr.toNat / 2 ^ 7 % 2 ^ 9) = true ∧ sBar.byIdent (lBar.ident + 1#64) = none :=
  ⟨rfl, by decide, by decide, by decide, by decide, by decide, by decide, by decide, by decide, by decide, by decide, by decide, by decide, by decide, by decide, by decide⟩
theorem test_link_atomic : ((outOf (.linkAtomic mAmo) sLink).map fun t => (leNat (t.dram.bytes 0x40 8), t.link.out.map fun r => (r.2.dst, r.2.op, r.2.stat))) = some (1, [(9#12, 5#6, 0#8)]) := by
  decide +kernel
theorem test_link_enqueue : ((outOf (.linkEnqueue mEnq) sLink).map fun t => (t.qWrite 3#12, t.dram.get 0x4000, t.link.out.map fun r => (r.2.op, r.2.stat))) = some (1, 5#8, [(7#6, 0#8)]) := by
  decide +kernel

/-- A core that waits for a read of another node with tag 33, and one whose commit point has sent an atomic. -/
def cRead : Core := { tCore with remote := [{ owner := 0, node := 9#12, dpa := 64, tag := 33#12, data := none, stat := 0#8 }] }
def cSent : Core := { tCore with commit := .sent 1#64 [] 33#12 }
def rq (op : BitVec 6) : LinkReq := { tag := 33#12, op := op, node := 9#12, since := 0, who := .core tk, lid := 1, rank := 0, addr := 64#64, slotOf := none }
def sWaits (op : BitVec 6) (c : Core) : State := { withLink (onCore' c) with link := { Link.zero with nodeSet := true, reqs := [rq op] }, cc := Config.remoteCc }
theorem test_hyp_LinkAnswersAndPorts : (∀ op c, (sWaits op c).link.nodeSet = true) ∧ (7#12 : BitVec 12) = (sWaits 0#6 cRead).node ∧
    ((sWaits 0#6 cRead).link.reqs.find? fun x => x.tag == 33#12 && x.node == 9#12 && x.op == 0#6) = some (rq 0#6) ∧ (sWaits 0#6 cRead).core? tk = some cRead ∧
    ((sWaits 4#6 cSent).link.reqs.find? fun x => x.tag == 33#12 && x.node == 9#12 && x.op == 4#6) = some (rq 4#6) ∧ (sWaits 4#6 cSent).core? tk = some cSent ∧
    cSent.commit = .sent 1#64 [] 33#12 ∧ (rq 0#6).since + Config.remoteCc ≤ (sWaits 0#6 cRead).cc ∧ (∀ r ∈ (sWaits 0#6 cRead).link.reqs, r.tag ≠ 34#12) ∧ (17 < 18) :=
  ⟨fun _ _ => rfl, by decide, rfl, rfl, rfl, rfl, rfl, by decide, by decide, by decide⟩
theorem test_link_answer : ((outOf (.linkReadResponse (lm 1#6 64#64 (natLe 8 5))) (sWaits 0#6 cRead)).bind fun t => (t.core? tk).map fun c => (t.link.reqs.length, c.remote.map fun x => x.data.isSome)) =
    some (0, [true]) := by decide +kernel

/-! Firmware, mailboxes and reset. -/

/-- Slot A active and running, slot B erased or valid in the table; an update to B under way. -/
def sFw (sstB : Nat) (ph : FwPhase) : State := { State.reset with firm := { Firm.zero with phase := ph }, cc := Config.heartbeatCc, sys := [(0x1010, 0#64), (0x1018, 2#64), (0x1020, ofU sstB), (0x1030, 0#64)].filter fun x => x.2 != 0#64 }
def sTrial (beaten : Bool) : State := sFw 3 (.trial 1#1 0 0#64 beaten)
theorem test_hyp_FirmwareUpdate : (sFw 1 .idle).sysOk ∧ (sFw 1 .idle).fwSt ≠ 1 ∧ (sFw 1 .idle).fwSst 0#1 = 2 ∧ (sFw 1 .idle).fwSst 1#1 = 1 ∧ (sFw 1 .idle).fwAct ≠ (1#1 : BitVec 1).toNat ∧
    (sFw 1 .idle).firm.phase = .idle ∧ (sFw 1 (.stopping 1#1)).firm.phase = .stopping 1#1 ∧ (sTrial false).firm.phase = .trial 1#1 0 0#64 false ∧ (sTrial false).firm.prev ≠ 1#1 ∧
    0 + Config.heartbeatCc ≤ (sTrial false).cc ∧ (sTrial true).fwSt ≠ 1 ∧ (sTrial false).handoverOk = false ∧ (∀ slot, (sFw 1 .idle).firm.phase ≠ .stopping slot) :=
  ⟨rfl, by decide, by decide, by decide, by decide, rfl, rfl, rfl, by decide, by decide, by decide, by decide, fun _ => nofun⟩
theorem test_hyp_FirmwareUpdate_ready : (sFw 1 (.stopping 1#1)).handoverReady = false ∧
    ({ sTrial true with sys := (8, 0x1000#64) :: (sTrial true).sys } : State).handoverReady = true ∧ (sTrial true).launches = [] := by decide
theorem test_rollback : ((outOf .fwHeartbeatTimeout (sTrial false)).map fun t => (t.fwSst 1#1, t.fwSst 0#1, t.fwAct, t.fwServes)) = some (4, 2, 0, false) := by decide +kernel
theorem test_fw_commit : ((outOf .fwCommit (sTrial true)).map fun t => (t.fwSst 1#1, t.fwSst 0#1, t.fwServes)) = some (2, 1, true) := by decide +kernel
/-- A hand-over of format 2 with no body stands at 0x5000. -/
def sHo : State := { sTrial false with dram := (Store.zero.put 0x5000 (natLe 8 2)), sys := [(0x1018, 2#64), (0x1020, 3#64), (0x1030, 0x5000#64)] }
/-- The core of a suspect unit: fenced, with a score. -/
def sUnit (u : BitVec 16) : State := { State.reset with rel := State.reset.rel.modUnit u fun x => { x with score := 300, fenced := true } }
theorem test_hyp_MailboxCommands : State.reset.mbFree 0#1 ∧ { State.reset with sys := [(0x01300100, 0#64)] }.right 0x01300000 2 0 .write = false ∧ unitOk 0x1000#16 = true ∧ unitOk 0xFFFF#16 = false ∧
    (63 < 64) ∧ rangeOk 0 0x20000 = true ∧ State.reset.firm.save = none ∧ State.reset.firm.flash.badIn (0x0D000000 + 0x20000 * 63) 0x20000 = false ∧ State.reset.fwSst 1#1 ≠ 3 ∧
    State.reset.firm.minVer ≤ 0 ∧ State.reset.baseOk 0 = true ∧ State.reset.baseOk 1 = false ∧ State.reset.launches = [] ∧ State.reset.anyRunning = false ∧
    ((sUnit 0x1000#16).rel.unit 0x1000#16).score < 2 ^ 16 ∧ ((sUnit 0x1000#16).rel.unit 0x1000#16).retired = false ∧ ((sUnit 0x1000#16).rel.unit 0x1000#16).id = 0x1000#16 :=
  ⟨⟨rfl, rfl, by decide⟩, by decide, by decide, by decide, by decide, by decide, rfl, by decide +kernel, by decide +kernel, by decide +kernel, by decide +kernel, by decide +kernel, rfl, by decide, by decide, by decide, by decide⟩
theorem test_read_score : ((outOf (.mbReadScore 0#1 0x1000#16) (sUnit 0x1000#16)).map fun t => (t.mbSt 0#1, t.mbRes 0#1)) = some (0, 300 + 2 ^ 16) := by decide +kernel
theorem test_clear_fence : ((outOf (.mbClearFence 0#1 0x1000#16) (sUnit 0x1000#16)).map fun t => ((t.rel.unit 0x1000#16).score, (t.rel.unit 0x1000#16).fenced)) = some (0, false) := by decide +kernel
theorem test_hyp_ResetAndReliability : State.reset.dram.wf = true ∧ State.reset.dram.dflt = 0#8 ∧ State.reset.fwAct < 2 ∧ State.reset.firm.boot = false ∧ State.reset.sysOk ∧
    State.reset.verifySlot 0#1 ≠ 0 ∧ State.reset.verifySlot 1#1 ≠ 0 ∧ (0#1 : BitVec 1) ≠ 1#1 ∧ State.reset.bestRecord = none ∧
    (State.reset.sysW 24).getLsbD 11 = false ∧ State.reset.rel.dieRetired 11 = false ∧ State.reset.rel.powered < Config.halvingCc ∧ State.reset.rel.sinceRec < Config.flashCc ∧
    unitOk 0x7000#16 = true ∧ 7 ≤ unitKind 0x7000#16 ∧ ((sUnit 0x7000#16).rel.unit 0x7000#16).fenced = true ∧ (sUnit 0x7000#16).rel.sparesUsed 0x7000#16 < spareCount 0x7000#16 ∧
    (sUnit 0x7000#16).padGranted 0x7000#16 = false ∧ ((sUnit 0x7000#16).rel.unit 0x7000#16).id = 0x7000#16 :=
  ⟨by decide, rfl, by decide, rfl, rfl, by decide +kernel, by decide +kernel, by decide, by decide, by decide, by decide, by decide, by decide, by decide, by decide, by decide, by decide, by decide, by decide⟩
/-- A launch is placed; a byte of HBM and one of the capacity tier are set. -/
def sIn : State := { onCore' tCore with dram := (Store.zero.put 5 [9#8]).put (2 ^ 44) [7#8] }
/-- A core of class S whose result is upset. -/
def lS : Launch := { tLaunch tCore with packet := { tPacket with w1 := 0x0000000100000101#64 } }
theorem test_hyp_SoftErrors : (withL lS).launch? tk.lid = some lS ∧ (withL lS).core? tk = some tCore ∧ lS.packet.prot = 1 ∧ (4 % 3 ≠ 0) ∧ (6 % 3 = 0) ∧
    arithDest (.add 5#6 0#6 (.reg 0#6) 0#4) = some (0#4, 5#6) ∧ tCore.regs.guard 0#4 = true ∧ tCore.wrong = none :=
  ⟨rfl, rfl, by decide, by decide, by decide, by decide, by decide, rfl⟩
theorem test_hyp_ResetAndReliability_ready : (State.reset.sysW 8).getLsbD 11 = false ∧ (∀ h : BitVec 1, State.reset.mbSt h ≠ 1) ∧ State.reset.fwSt ≠ 1 ∧ State.reset.host.delayed = [] ∧
    (sUnit 0x7000#16).rel.units.any (fun x => x.retired) = false ∧ unitOk 0x8000#16 = true ∧ unitKind 0x8000#16 = 8 := by decide +kernel
theorem test_hyp_DeviceReset : State.reset.mbFree 0#1 ∧ State.reset.dram.wf = true ∧ State.reset.dram.dflt = 0#8 ∧ State.reset.fwAct < 2 := ⟨⟨rfl, rfl, by decide⟩, by decide, rfl, by decide⟩
theorem test_device_reset : ((outOf (.mbDeviceReset 0#1) sIn).map fun t => (t.launches.length, t.dram.get 5, t.dram.get (2 ^ 44), t.rel.seq)) = some (0, 0#8, 7#8, 1) := by decide +kernel
theorem test_spare : ((outOf (.bankSpareReplace 0x7000#16) (sUnit 0x7000#16)).map fun t => ((t.rel.unit 0x7000#16).fenced, t.rel.spares)) = some (false, [0x7000#16]) := by decide +kernel
theorem test_residue : ((outOf (.softError (.result tk 5#64 4)) (withL lS)).bind fun t => outF (.nop 0#26) (State.struck { t with cur := .core tk } (.add 5#6 0#6 (.reg 0#6) 0#4) t)) = some [0x11] := by
  decide +kernel

theorem test_hyp_RegisterFile : (63#6 : BitVec 6) ≠ 0#6 ∧ (0#6 : BitVec 6) ≠ 63#6 := by decide
theorem test_hyp_DecodedIsWellFormed : (decode [0b000000_000011_000100_000101_0000_0000#32]).isOk = true ∧ (decodeVector 0x720000000000#48).isOk = true := by decide
theorem test_hyp_Attestation : (sFw 1 .idle).fwAct = (0#1 : BitVec 1).toNat ∧ (sFw 1 .idle).imageRuns = true ∧ (4 < 5) ∧ (5 ≠ 0xFF) := by decide

end Sys2Proof.Tests
end

section
/-! Fields of a word: what a replaced field reads as, and what the others read as. -/

namespace Sys2Proof.Proofs

open Sys2Proof.Machine Sys2Proof.Laws

/-! ### Fields of a word -/

theorem testBit_fieldNat (w : Word) (lo n i : Nat) : (fieldNat w lo n).testBit i = (decide (i < n) && w.getLsbD (lo + i)) :=
  BitVec.getLsbD_extractLsb' ..

/-- A word with a field replaced, in three parts: above the field, the field, below it. -/
theorem toNat_putField (w : Word) (lo n v : Nat) (h : lo + n ≤ 64) :
    (putField w lo n v).toNat = 2 ^ lo * (2 ^ n * (w.toNat / 2 ^ (lo + n)) + v % 2 ^ n) + w.toNat % 2 ^ lo := by
  have low := Nat.div_add_mod w.toNat (2 ^ lo)
  have high := Nat.div_add_mod (w.toNat / 2 ^ lo) (2 ^ n)
  have below : w.toNat % 2 ^ lo < 2 ^ lo := Nat.mod_lt _ (Nat.two_pow_pos _)
  have field : v % 2 ^ n < 2 ^ n := Nat.mod_lt _ (Nat.two_pow_pos _)
  have above : w.toNat / 2 ^ (lo + n) < 2 ^ (64 - (lo + n)) := by
    rw [Nat.div_lt_iff_lt_mul (Nat.two_pow_pos _), ← Nat.pow_add, Nat.sub_add_cancel h]; exact w.isLt
  rw [putField, BitVec.toNat_ofNat, fieldNat_eq]
  rw [Nat.div_div_eq_div_mul, ← Nat.pow_add] at high
  have parts : w.toNat - w.toNat / 2 ^ lo % 2 ^ n * 2 ^ lo + v % 2 ^ n * 2 ^ lo =
      2 ^ lo * (2 ^ n * (w.toNat / 2 ^ (lo + n)) + v % 2 ^ n) + w.toNat % 2 ^ lo := by
    have e : w.toNat = 2 ^ lo * (2 ^ n * (w.toNat / 2 ^ (lo + n))) + w.toNat % 2 ^ lo + w.toNat / 2 ^ lo % 2 ^ n * 2 ^ lo := by
      conv_lhs => rw [← low, ← high]
      ring
    rw [Nat.sub_eq_of_eq_add e]
    ring
  rw [parts, Nat.mod_eq_of_lt]
  calc _ < 2 ^ lo * (2 ^ n * (w.toNat / 2 ^ (lo + n)) + v % 2 ^ n) + 2 ^ lo := by omega
    _ = 2 ^ lo * (2 ^ n * (w.toNat / 2 ^ (lo + n)) + v % 2 ^ n + 1) := by ring
    _ ≤ 2 ^ lo * (2 ^ n * (w.toNat / 2 ^ (lo + n) + 1)) := Nat.mul_le_mul_left _ (by rw [Nat.mul_add]; omega)
    _ ≤ 2 ^ lo * (2 ^ n * 2 ^ (64 - (lo + n))) := Nat.mul_le_mul_left _ (Nat.mul_le_mul_left _ above)
    _ = 2 ^ 64 := by rw [← Nat.pow_add, ← Nat.pow_add]; congr 1; omega

theorem getLsbD_putField (w : Word) (lo n v i : Nat) (h : lo + n ≤ 64) :
    (putField w lo n v).getLsbD i = if lo ≤ i ∧ i < lo + n then v.testBit (i - lo) else w.getLsbD i := by
  have below : w.toNat % 2 ^ lo < 2 ^ lo := Nat.mod_lt _ (Nat.two_pow_pos _)
  have field : v % 2 ^ n < 2 ^ n := Nat.mod_lt _ (Nat.two_pow_pos _)
  rw [BitVec.getLsbD, BitVec.getLsbD, toNat_putField w lo n v h, Nat.testBit_two_pow_mul_add _ below, Nat.testBit_two_pow_mul_add _ field]
  by_cases h1 : i < lo
  · simp [h1, Nat.testBit_mod_two_pow]
  · by_cases h2 : i - lo < n
    · simp [h1, h2, show lo ≤ i ∧ i < lo + n by omega, Nat.testBit_mod_two_pow]
    · simp [h1, h2, show ¬ i < lo + n by omega, Nat.testBit_div_two_pow, show i - lo - n + (lo + n) = i by omega]

/-- A replaced field reads as what was put there. -/
theorem fieldNat_putField_same (w : Word) (lo n v : Nat) (h : lo + n ≤ 64) : fieldNat (putField w lo n v) lo n = v % 2 ^ n := by
  refine Nat.eq_of_testBit_eq fun i => ?_
  rw [testBit_fieldNat, getLsbD_putField w lo n v _ h, Nat.testBit_mod_two_pow]
  by_cases hi : i < n <;> simp [hi]

/-- A field apart from the replaced one reads as before. -/
theorem fieldNat_putField_apart (w : Word) (lo n v lo' n' : Nat) (h : lo + n ≤ 64) (ha : lo' + n' ≤ lo ∨ lo + n ≤ lo') :
    fieldNat (putField w lo n v) lo' n' = fieldNat w lo' n' := by
  refine Nat.eq_of_testBit_eq fun i => ?_
  rw [testBit_fieldNat, testBit_fieldNat, getLsbD_putField w lo n v _ h]
  by_cases hi : i < n'
  · rw [if_neg (by omega)]
  · simp [hi]

/-- A part of the replaced field. -/
theorem fieldNat_putField_part (w : Word) (lo n v lo' n' : Nat) (h : lo + n ≤ 64) (hl : lo ≤ lo') (hu : lo' + n' ≤ lo + n) :
    fieldNat (putField w lo n v) lo' n' = v / 2 ^ (lo' - lo) % 2 ^ n' := by
  refine Nat.eq_of_testBit_eq fun i => ?_
  rw [testBit_fieldNat, getLsbD_putField w lo n v _ h, Nat.testBit_mod_two_pow, Nat.testBit_div_two_pow]
  by_cases hi : i < n'
  · rw [if_pos (by omega), show lo' + i - lo = i + (lo' - lo) by omega]
  · simp [hi]

/-- The whole word replaced. -/
@[simp] theorem putField_whole (w v : Word) : putField w 0 64 v.toNat = v := by
  refine BitVec.eq_of_getLsbD_eq fun i hi => ?_
  rw [getLsbD_putField w 0 64 _ i (by decide), if_pos (by omega)]
  rfl

/-- Putting back what a field holds changes nothing. -/
theorem putField_fieldNat (w : Word) (lo n : Nat) (h : lo + n ≤ 64) : putField w lo n (fieldNat w lo n) = w := by
  refine BitVec.eq_of_getLsbD_eq fun i hi => ?_
  rw [getLsbD_putField w lo n _ i h, testBit_fieldNat]
  by_cases hf : lo ≤ i ∧ i < lo + n
  · rw [if_pos hf, show lo + (i - lo) = i by omega]; simp; omega
  · rw [if_neg hf]

end Sys2Proof.Proofs
end

section
/-! SYS space: a word read back after a write, what a host's input does first, and what a write by a master that may, or may not, comes to. -/

namespace Sys2Proof.Proofs

open Sys2Proof.Machine Sys2Proof.Laws

variable {s : State}

/-! ### Words of SYS space -/

theorem sysOk_sysPut (h : s.sysOk) (o : Nat) (v : Word) : (s.sysPut o v).sysOk := wordsAbove_set h (Nat.zero_le _)

/-- Offsets of one word read alike. -/
theorem sysW_of_word {o p : Nat} (h : p / 8 = o / 8) : s.sysW p = s.sysW o := by rw [State.sysW, State.sysW, h]

theorem sysW_sysPut_same (h : s.sysOk) {o p : Nat} (hp : p / 8 = o / 8) (v : Word) : (s.sysPut o v).sysW p = v := by
  rw [sysW_of_word hp]; exact wordGet_set_same h

theorem sysW_sysPut_ne (h : s.sysOk) {o p : Nat} (hp : p / 8 ≠ o / 8) (v : Word) : (s.sysPut o v).sysW p = s.sysW p :=
  wordGet_set_ne h (by omega)

theorem sysF_sysPut_ne (h : s.sysOk) {o p : Nat} (hp : p / 8 ≠ o / 8) (v : Word) (lo n : Nat) : (s.sysPut o v).sysF p lo n = s.sysF p lo n := by
  rw [State.sysF, State.sysF, sysW_sysPut_ne h hp]

theorem sysF_sysSetF_same (h : s.sysOk) {o lo n : Nat} (hb : lo + n ≤ 64) (v : Nat) : (s.sysSetF o lo n v).sysF o lo n = v % 2 ^ n := by
  rw [State.sysF, State.sysSetF, sysW_sysPut_same h rfl, fieldNat_putField_same _ _ _ _ hb]

/-- Another field of the word. -/
theorem sysF_sysSetF_apart (h : s.sysOk) {o lo n lo' n' : Nat} (hb : lo + n ≤ 64) (ha : lo' + n' ≤ lo ∨ lo + n ≤ lo') (v : Nat) :
    (s.sysSetF o lo n v).sysF o lo' n' = s.sysF o lo' n' := by
  rw [State.sysF, State.sysF, State.sysSetF, sysW_sysPut_same h rfl, fieldNat_putField_apart _ _ _ _ _ _ hb ha]

/-- What reads SYS space alone reads alike in states with the same SYS space. -/
theorem sysW_congr {t : State} (h : t.sys = s.sys) (o : Nat) : t.sysW o = s.sysW o := by rw [State.sysW, State.sysW, h]

theorem sysF_congr {t : State} (h : t.sys = s.sys) (o lo n : Nat) : t.sysF o lo n = s.sysF o lo n := by rw [State.sysF, State.sysF, sysW_congr h]

/-! ### A host's input performs its earlier writes first (R322) -/

section
variable (s) (m : BitVec 7)

/-- What is performed first changes nothing but the writes on their way. -/
theorem before_eq : ∃ gs, s.before m = { s with lags := gs } := by
  unfold State.before; split
  · exact ⟨_, rfl⟩
  · exact ⟨s.lags, rfl⟩

@[simp] theorem before_sys : (s.before m).sys = s.sys := by obtain ⟨gs, h⟩ := before_eq s m; rw [h]
@[simp] theorem before_dram : (s.before m).dram = s.dram := by obtain ⟨gs, h⟩ := before_eq s m; rw [h]
@[simp] theorem before_cwnN : (s.before m).cwnN = s.cwnN := by obtain ⟨gs, h⟩ := before_eq s m; rw [h]
@[simp] theorem before_cwnS : (s.before m).cwnS = s.cwnS := by obtain ⟨gs, h⟩ := before_eq s m; rw [h]
@[simp] theorem before_launches : (s.before m).launches = s.launches := by obtain ⟨gs, h⟩ := before_eq s m; rw [h]
@[simp] theorem before_placing : (s.before m).placing = s.placing := by obtain ⟨gs, h⟩ := before_eq s m; rw [h]
@[simp] theorem before_queues : (s.before m).queues = s.queues := by obtain ⟨gs, h⟩ := before_eq s m; rw [h]
@[simp] theorem before_anoles : (s.before m).anoles = s.anoles := by obtain ⟨gs, h⟩ := before_eq s m; rw [h]
@[simp] theorem before_tlbs : (s.before m).tlbs = s.tlbs := by obtain ⟨gs, h⟩ := before_eq s m; rw [h]
@[simp] theorem before_shoots : (s.before m).shoots = s.shoots := by obtain ⟨gs, h⟩ := before_eq s m; rw [h]
@[simp] theorem before_rel : (s.before m).rel = s.rel := by obtain ⟨gs, h⟩ := before_eq s m; rw [h]
@[simp] theorem before_link : (s.before m).link = s.link := by obtain ⟨gs, h⟩ := before_eq s m; rw [h]
@[simp] theorem before_host : (s.before m).host = s.host := by obtain ⟨gs, h⟩ := before_eq s m; rw [h]
@[simp] theorem before_cc : (s.before m).cc = s.cc := by obtain ⟨gs, h⟩ := before_eq s m; rw [h]
@[simp] theorem before_cur : (s.before m).cur = s.cur := by obtain ⟨gs, h⟩ := before_eq s m; rw [h]
@[simp] theorem before_sched : (s.before m).sched = s.sched := by obtain ⟨gs, h⟩ := before_eq s m; rw [h]
@[simp] theorem before_sysW (o : Nat) : (s.before m).sysW o = s.sysW o := sysW_congr (before_sys s m) o
@[simp] theorem before_sysF (o lo n : Nat) : (s.before m).sysF o lo n = s.sysF o lo n := sysF_congr (before_sys s m) o lo n
theorem before_sysOk (h : s.sysOk) : (s.before m).sysOk := by rw [State.sysOk, before_sys]; exact h

end

/-! ### Who may write (R386, R389) -/

/-- A host function without the right: its access is refused and counted. -/
theorem outsideSys_denied {m : BitVec 7} {off : Nat} (hm : m.toNat < 32) (hr : s.sysRight m.toNat off .write = false) (n : Nat) (v : Word) :
    s.outsideSys m off n v = (s.before m).refuse (BitVec.ofNat 1 (m.toNat / 16)) := by
  have hr' : (s.settleLag [hostAgent m.toNat]).sysRight m.toNat off .write = false := hr
  simp [State.outsideSys, State.before, hm, hr']

/-- A master that is no host function and not the Anole cores has no access. -/
theorem outsideSys_noAccess {m : BitVec 7} (hm : 32 ≤ m.toNat) (ha : m ≠ 44#7) (off n : Nat) (v : Word) : s.outsideSys m off n v = s := by
  have h44 : m.toNat ≠ 44 := fun e => ha (BitVec.eq_of_toNat_eq e)
  simp [State.outsideSys, show ¬ m.toNat < 32 by omega, h44]

/-- The state after a write whose result is known: as it performed it, or `s` when it is refused (R7). -/
def resultOr (s : State) : SysRes → State
  | .ok t => t
  | .refused => s

/-- A write by a master that may write is performed, or dropped when the rules refuse it. -/
theorem outsideSys_may {m : BitVec 7} {off : Nat} (h : s.maySys m off) (n : Nat) (v : Word) :
    s.outsideSys m off n v = resultOr (s.before m) ((s.before m).sysStore off n v (m == 44#7)) := by
  rcases h with rfl | ⟨hm, hr, hc⟩
  · simp only [State.outsideSys, State.before, resultOr]; rfl
  · have hr' : (s.settleLag [hostAgent m.toNat]).sysRight m.toNat off .write = true := hr
    have hc' : (s.settleLag [hostAgent m.toNat]).claimRight m.toNat off = true := hc
    have ha : (m == 44#7) = false := toNat_ne (by simp; omega)
    simp [State.outsideSys, State.before, hm, hr', hc', ha]
    rfl

/-- A write of a whole word. -/
theorem sysStore_whole {off : Nat} (h : off % 8 = 0) (v : Word) (a : Bool) : s.sysStore off 8 v a = s.sysWord off v a := by
  simp only [State.sysStore, show off / 8 * 8 = off by omega, h, Nat.zero_mul, Nat.reduceMul, putField_whole]
  cases s.sysWord off v a <;> simp

/-- A write of some bytes of a word, of which none is above the low half of `ST.node`'s word. -/
theorem sysStore_performed {off n : Nat} {v : Word} {a : Bool} {t : State} (hn : off / 8 = 2 → off % 8 < 2)
    (h : s.sysWord (off / 8 * 8) (putField (s.sysW off) (off % 8 * 8) (8 * n) v.toNat) a = .ok t) : s.sysStore off n v a = .ok t := by
  have hk : (decide (off / 8 = 2) && decide (2 ≤ off % 8)) = false := by simp; omega
  rw [State.sysStore, h]
  simp only [hk]; rfl

/-- A whole word written by a master that may, where the rules perform the write. -/
theorem wordWrite_performed {m : BitVec 7} {off : Nat} {v : Word} {t : State} (hm : s.maySys m off) (h8 : off % 8 = 0)
    (h : ∀ a, (s.before m).sysWord off v a = .ok t) : s.outsideSys m off 8 v = t := by
  rw [outsideSys_may hm, sysStore_whole h8, h]; rfl

/-- A whole word written by a master that may, where the rules refuse the write. -/
theorem wordWrite_refused {m : BitVec 7} {off : Nat} {v : Word} (hm : s.maySys m off) (h8 : off % 8 = 0)
    (h : ∀ a, (s.before m).sysWord off v a = .refused) : s.outsideSys m off 8 v = s.before m := by
  rw [outsideSys_may hm, sysStore_whole h8, h]; rfl

end Sys2Proof.Proofs
end

section
/-! The steps that write SYS space, and the structure that each offset of Table 11-2 lies in. -/

namespace Sys2Proof.Proofs

open Sys2Proof.Machine Sys2Proof.Laws

variable {s : State}

/-! ### The steps as writes -/

theorem setWidth_eq_ofU {n : Nat} (x : BitVec n) : x.setWidth 64 = ofU x.toNat := by
  apply BitVec.eq_of_toNat_eq; simp [ofU]

/-- A command of `CX.vrop` above its argument. -/
theorem command_or_argument (k : Nat) (hk : 48 ≤ k) (a : BitVec 48) : a.setWidth 64 ||| ofU (2 ^ k) = ofU (2 ^ k + a.toNat) := by
  have ha : a.toNat < 2 ^ k := Nat.lt_of_lt_of_le a.isLt (Nat.pow_le_pow_right (by decide) hk)
  have hor := Nat.two_pow_add_eq_or_of_lt ha 1
  rw [Nat.mul_one] at hor
  apply BitVec.eq_of_toNat_eq
  rw [setWidth_eq_ofU, ofU, ofU, ofU, hor, ← BitVec.ofNat_or, Nat.or_comm]

/-- Each of the steps that are one write of a whole word is that write. -/
theorem exec_of_sysWriteOf {i : Instr} {m : BitVec 7} {off : Nat} {v : Word} (h : sysWriteOf i = some (m, off, v)) (s : State) :
    exec i s = .next (s.outsideSys m off 8 v) := by
  unfold sysWriteOf at h
  split at h <;> cases h
  case h_4 a => rw [← setWidth_eq_ofU a]; rfl
  case h_5 a => rw [← command_or_argument 61 (by decide) a]; rfl
  case h_6 a => rw [← command_or_argument 62 (by decide) a]; rfl
  case h_10 v => rw [← setWidth_eq_ofU v]; rfl
  all_goals rfl

/-- Such a step by a master that may write, where the rules perform the write. -/
theorem exec_performed {i : Instr} {m : BitVec 7} {off : Nat} {v : Word} {t : State} (h : sysWriteOf i = some (m, off, v)) (hm : s.maySys m off)
    (h8 : off % 8 = 0) (hw : ∀ a, (s.before m).sysWord off v a = .ok t) : exec i s = .next t := by
  rw [exec_of_sysWriteOf h, wordWrite_performed hm h8 hw]

/-- One where they refuse it. -/
theorem exec_refused {i : Instr} {m : BitVec 7} {off : Nat} {v : Word} (h : sysWriteOf i = some (m, off, v)) (hm : s.maySys m off)
    (h8 : off % 8 = 0) (hw : ∀ a, (s.before m).sysWord off v a = .refused) : exec i s = .next (s.before m) := by
  rw [exec_of_sysWriteOf h, wordWrite_refused hm h8 hw]

theorem exec_nodeIdWrite (m : BitVec 7) (v : BitVec 12) : exec (.nodeIdWrite m v) s = .next (s.outsideSys m 16 2 (v.setWidth 64)) := rfl

theorem exec_partitionDescriptorWrite {p : BitVec 4} (hp : p.toNat < 12) (m : BitVec 7) (v : Word) :
    exec (.partitionDescriptorWrite p m v) s = .next (s.outsideSys m (ptOff p.toNat) 8 v) := by
  show execPartitionDescriptorWrite p m v s = _
  rw [execPartitionDescriptorWrite, if_pos hp]

theorem exec_kvHeaderWrite {p : BitVec 4} (hp : p.toNat < 12) (m : BitVec 7) (w : BitVec 3) (v : Word) :
    exec (.kvHeaderWrite p m w v) s = .next (s.outsideSys m (khOff p.toNat + 8 * w.toNat) 8 v) := by
  show execKvHeaderWrite p m w v s = _
  rw [execKvHeaderWrite, if_pos hp]

/-- An aligned write of SYS space within the reach of BAR 0 (R7, R387). -/
theorem exec_sysRegisterWrite {off : BitVec 32} {z : BitVec 2} (ha : off.toNat % 2 ^ z.toNat = 0) (hb : off.toNat < 0x02000000) (m : BitVec 7) (v : Word) :
    exec (.sysRegisterWrite m off z v) s = .next (s.outsideSys m off.toNat (2 ^ z.toNat) v) := by
  show execSysRegisterWrite m off z v s = _
  simp [execSysRegisterWrite, ha, hb]

/-- One that is not aligned has no effect. -/
theorem exec_sysRegisterWrite_unaligned {off : BitVec 32} {z : BitVec 2} (ha : off.toNat % 2 ^ z.toNat ≠ 0) (m : BitVec 7) (v : Word) :
    exec (.sysRegisterWrite m off z v) s = .next s := by
  show execSysRegisterWrite m off z v s = _
  simp [execSysRegisterWrite, ha]

/-! ### The structure at an offset (Table 11-2) -/

theorem sysWord_status {off : Nat} (h : off < 0x1000) (v : Word) (a : Bool) : s.sysWord off v a = s.wStatus off v := by
  rw [State.sysWord, if_pos h]

theorem sysWord_context (c : BitVec 6) {i : Nat} (hi : i < 64) (v : Word) (a : Bool) : s.sysWord (cxOff c + i) v a = s.wContext c i v := by
  have hc := c.isLt
  have ho : cxOff c + i = 0x10000 + 64 * c.toNat + i := rfl
  rw [State.sysWord]
  iterate 5 rw [if_neg (by omega)]
  rw [if_pos (by omega), show (cxOff c + i - 0x10000) / 64 = c.toNat by omega, show (cxOff c + i) % 64 = i by omega, BitVec.ofNat_toNat, BitVec.setWidth_eq]

theorem sysWord_partition {p : Nat} (hp : p < 12) (v : Word) (a : Bool) : s.sysWord (ptOff p) v a = s.wPartition p 0 v := by
  have ho : ptOff p = 0x11000 + 64 * p := rfl
  rw [State.sysWord]
  iterate 6 rw [if_neg (by omega)]
  rw [if_pos (by omega), show (ptOff p - 0x11000) / 64 = p by omega, show ptOff p % 64 = 0 by omega]

theorem sysWord_kvHeader {p i : Nat} (hp : p < 12) (hi : i < 64) (v : Word) (a : Bool) : s.sysWord (khOff p + i) v a = s.wKvHeader p i v := by
  have ho : khOff p + i = 0x13000 + 64 * p + i := rfl
  rw [State.sysWord]
  iterate 10 rw [if_neg (by omega)]
  rw [if_pos (by omega), show (khOff p + i - 0x13000) / 64 = p by omega, show (khOff p + i) % 64 = i by omega]

theorem sysWord_breakpoint (c : BitVec 6) {i : Nat} (hi : i < 8) (v : Word) (a : Bool) : s.sysWord (bpOff c i) v a = s.wBreakpoint c i v := by
  have hc := c.isLt
  have ho : bpOff c i = 0x14000 + 64 * c.toNat + 8 * i := rfl
  rw [State.sysWord]
  iterate 12 rw [if_neg (by omega)]
  rw [if_pos (by omega), show (bpOff c i - 0x14000) / 64 = c.toNat by omega, show bpOff c i % 64 / 8 = i by omega, BitVec.ofNat_toNat, BitVec.setWidth_eq]

theorem sysWord_faultQueue (h : BitVec 1) {i : Nat} (hi : i < 64) (v : Word) (a : Bool) : s.sysWord (fqOff h + i) v a = s.wFaultQueue h i v := by
  have hh := h.isLt
  have ho : fqOff h + i = 0x18000 + 64 * h.toNat + i := rfl
  rw [State.sysWord]
  iterate 15 rw [if_neg (by omega)]
  rw [if_pos (by omega), show (fqOff h + i - 0x18000) / 64 = h.toNat by omega, show (fqOff h + i) % 64 = i by omega, BitVec.ofNat_toNat, BitVec.setWidth_eq]

theorem sysWord_anole (n : BitVec 4) {i : Nat} (hi : i < 256) (v : Word) (a : Bool) : s.sysWord (anOff n + i) v a = s.wAnole n i v := by
  have hn := n.isLt
  have ho : anOff n + i = 0x20000 + 256 * n.toNat + i := rfl
  rw [State.sysWord]
  iterate 17 rw [if_neg (by omega)]
  rw [if_pos (by omega), show (anOff n + i - 0x20000) / 256 = n.toNat by omega, show (anOff n + i) % 256 = i by omega, BitVec.ofNat_toNat, BitVec.setWidth_eq]

theorem sysWord_dependenceCounter (c : BitVec 12) (v : Word) (a : Bool) : s.sysWord (dcOff c) v a = s.plainWord (dcOff c) v [(44, 4), (16, 16)] [] := by
  have hc := c.isLt
  have ho : dcOff c = 0x150000 + 8 * c.toNat := rfl
  rw [State.sysWord]
  iterate 22 rw [if_neg (by omega)]
  rw [if_pos (by omega)]

theorem sysWord_remote (i : BitVec 6) (v : Word) (a : Bool) : s.sysWord (rmOff i) v a = s.wRemote i v := by
  have hi := i.isLt
  have ho : rmOff i = 0x170000 + 8 * i.toNat := rfl
  rw [State.sysWord]
  iterate 26 rw [if_neg (by omega)]
  rw [if_pos (by omega), show (rmOff i - 0x170000) / 8 = i.toNat by omega, BitVec.ofNat_toNat, BitVec.setWidth_eq]

theorem sysWord_access {off : Nat} (h : 0x1000000 ≤ off) (v : Word) (a : Bool) : s.sysWord off v a = s.wAccess off v := by
  rw [State.sysWord]
  iterate 28 rw [if_neg (by omega)]

/-- A structure's word without reserved bits set is stored. -/
theorem plainWord_stored {off : Nat} {v : Word} {res : List (Nat × Nat)} (h : clearBits v res = true) : s.plainWord off v res [] = .ok (s.sysPut off v) := by
  rw [State.plainWord, if_pos h]; rfl

end Sys2Proof.Proofs
end

section
/-! What a write does to the structures of SYS space that hold values: contexts, dependence counters, the status page, partitions and remote
masters. -/

namespace Sys2Proof.Proofs

open Sys2Proof.Machine Sys2Proof.Laws

variable {s : State} {m : BitVec 7}

/-! ### Contexts and dependence counters -/

/-- R327: `CX.state` and `CX.root`, for a context that is not stopped by the write. -/
theorem contextStateWrite_stores {c : BitVec 6} {v : Word} (hm : s.maySys m (cxOff c)) (hv : v.toNat < 2 ^ 48) (hz : v.toNat / 4 % 2 ^ 5 = 0)
    (hs : v.toNat % 4 < 2) : exec (.contextStateWrite c m v) s = .next ((s.before m).sysPut (cxOff c) v) := by
  refine exec_performed rfl hm (by omega) fun a => (sysWord_context c (i := 0) (by decide) v a).trans ?_
  have reserved : clearBits v [(48, 16), (2, 5)] = true := by simp [clearBits, fieldNat_eq]; omega
  have state : fieldNat v 0 2 < 2 := by rw [fieldNat_eq]; omega
  show State.wCxState _ c v = _
  simp [State.wCxState, reserved, show fieldNat v 0 2 ≠ 3 by omega, show fieldNat v 0 2 ≠ 2 by omega]

/-- R340: the resolve register. -/
theorem contextResolveWrite_stores {c : BitVec 6} {v : Word} (hm : s.maySys m (cxOff c + 40)) (hv : v.toNat < 2 ^ 32) :
    exec (.contextResolveWrite c m v) s = .next ((s.before m).sysPut (cxOff c + 40) v) := by
  refine exec_performed rfl hm (by omega) fun a => (sysWord_context c (by decide) v a).trans (plainWord_stored ?_)
  simp [clearBits, fieldNat_eq]; omega

/-- R278: a dependence counter. -/
theorem dependenceCounterWrite_stores {c : BitVec 12} {v : Word} (hm : s.maySys m (dcOff c)) (h1 : v.toNat / 2 ^ 16 % 2 ^ 16 = 0)
    (h2 : v.toNat / 2 ^ 44 % 2 ^ 4 = 0) : exec (.dependenceCounterWrite c m v) s = .next ((s.before m).sysPut (dcOff c) v) := by
  refine exec_performed rfl hm (by omega) fun a => (sysWord_dependenceCounter c v a).trans (plainWord_stored ?_)
  simp [clearBits, fieldNat_eq]; omega

/-! ### The status page -/

/-- R409: `PW.limit` within its range. -/
theorem powerLimitWrite_next {v : BitVec 12} (hm : s.maySys m 32) :
    exec (.powerLimitWrite m v) s = .next (if 1800 ≤ v.toNat ∧ v.toNat ≤ 2600 then (s.before m).sysPut 32 (ofU v.toNat) else s.before m) := by
  have hv := v.isLt
  refine exec_performed rfl hm (by decide) fun a => (sysWord_status (by decide) _ a).trans ?_
  have high : fieldNat (ofU v.toNat) 12 52 = 0 := by rw [fieldNat_eq, ofU, BitVec.toNat_ofNat]; omega
  have low : fieldNat (ofU v.toNat) 0 12 = v.toNat := by rw [fieldNat_eq, ofU, BitVec.toNat_ofNat]; omega
  simp only [State.wStatus, high, low, ne_eq, not_true_eq_false, if_false]
  by_cases hr : 1800 ≤ v.toNat ∧ v.toNat ≤ 2600
  · rw [if_neg (by simp; omega), if_pos hr]
  · rw [if_pos (by simp; omega), if_neg hr]

/-- The device with a node number (R397). -/
def nodeNamed (s : State) (n : Nat) : State := { s.sysSetF 16 0 12 n with link := { s.link with nodeSet := true } }

theorem wStatus_node (s : State) {w : Word} (h : fieldNat w 32 32 = 0) :
    s.wStatus 16 w = .ok (if 3072 ≤ fieldNat w 0 12 then s else nodeNamed s (fieldNat w 0 12)) := by
  simp only [State.wStatus, h, ne_eq, not_true_eq_false, if_false]
  by_cases hr : 3072 ≤ fieldNat w 0 12
  · rw [if_pos hr, if_pos hr]
  · rw [if_neg hr, if_neg hr]; rfl

/-- R397: a node number is stored within its range only. -/
theorem nodeIdWrite_next {v : BitVec 12} (hm : s.maySys m 16) (hz : s.sysF 16 32 32 = 0) :
    exec (.nodeIdWrite m v) s = .next (if 3072 ≤ v.toNat then s.before m else nodeNamed (s.before m) v.toNat) := by
  have hv := v.isLt
  have high : fieldNat (putField (s.sysW 16) 0 16 v.toNat) 32 32 = 0 := by
    rw [fieldNat_putField_apart _ _ _ _ _ _ (by decide) (by decide)]; exact hz
  have low : fieldNat (putField (s.sysW 16) 0 16 v.toNat) 0 12 = v.toNat := by
    rw [fieldNat_putField_part _ _ _ _ _ _ (by decide) (by decide) (by decide)]; omega
  have word : (v.setWidth 64).toNat = v.toNat := by simp; omega
  have written (a : Bool) := (sysWord_status (s := s.before m) (show 16 < 0x1000 by decide) (putField (s.sysW 16) 0 16 v.toNat) a).trans (wStatus_node _ high)
  rw [exec_nodeIdWrite, outsideSys_may hm, sysStore_performed (fun _ => by decide) (by rw [before_sysW, word]; exact written _), low]
  rfl

/-- What the device with a node number reads as, and what it has kept. -/
theorem nodeNamed_fields (h : s.sysOk) (v : BitVec 12) :
    (nodeNamed s v.toNat).node = v ∧ ∀ i, 12 ≤ i → i < 32 → (nodeNamed s v.toNat).sysF 16 i 1 = s.sysF 16 i 1 := by
  have sys : (nodeNamed s v.toNat).sys = (s.sysSetF 16 0 12 v.toNat).sys := rfl
  constructor
  · rw [State.node, sysF_congr sys, sysF_sysSetF_same h (by decide), Nat.mod_eq_of_lt v.isLt, BitVec.ofNat_toNat, BitVec.setWidth_eq]
  · intro i h1 h2
    rw [sysF_congr sys, sysF_sysSetF_apart h (by decide) (by omega)]

/-- R397: a node number within its range is stored. -/
theorem nodeIdWrite_stores (h : s.sysOk) {v : BitVec 12} (hm : s.maySys m 16) (hz : s.sysF 16 32 32 = 0) (hv : v.toNat < 3072) :
    ∃ t, exec (.nodeIdWrite m v) s = .next t ∧ t.node = v ∧ t.link = { s.link with nodeSet := true } ∧
      (∀ i, 12 ≤ i → i < 32 → t.sysF 16 i 1 = s.sysF 16 i 1) ∧ t.dram = s.dram ∧ t.launches = s.launches := by
  obtain ⟨node, kept⟩ := nodeNamed_fields (before_sysOk s m h) v
  refine ⟨_, (nodeIdWrite_next hm hz).trans (by rw [if_neg (by omega)]), node, ?_, fun i h1 h2 => (kept i h1 h2).trans (before_sysF ..), ?_, ?_⟩
  · rw [nodeNamed, before_link]
  · exact before_dram s m
  · exact before_launches s m

/-- R397: one beyond it is not. -/
theorem nodeIdWrite_beyond {v : BitVec 12} (hm : s.maySys m 16) (hz : s.sysF 16 32 32 = 0) (hv : 3072 ≤ v.toNat) :
    exec (.nodeIdWrite m v) s = .next (s.before m) := by
  rw [nodeIdWrite_next hm hz, if_pos hv]

/-! ### Partitions and remote masters -/

/-- Whether another enabled partition has one of some dies (R390). -/
def diesTaken (s : State) (p dies : Nat) : Prop := ∃ q, q < 12 ∧ q ≠ p ∧ s.ptEn q = true ∧ s.ptDies q &&& dies ≠ 0

theorem wPartition_taken {p : Nat} {v : Word} (hr : clearBits v [(32, 32), (25, 6), (22, 2), (12, 4)] = true)
    (h : diesTaken s p (fieldNat v 0 12) ∨ s.partBusy p = true) : s.wPartition p 0 v = .ok s := by
  have taken : (((List.range 12).any fun q => q != p && s.ptEn q && (s.ptDies q &&& fieldNat v 0 12) != 0) || s.partBusy p) = true := by
    rcases h with ⟨q, hq, hn, he, hd⟩ | h
    · simp only [Bool.or_eq_true, List.any_eq_true, List.mem_range]
      exact .inl ⟨q, hq, by simp [hn, he, hd]⟩
    · simp [h]
  rw [State.wPartition, if_neg (by simp), if_neg (by simp [hr]), if_pos taken]

theorem wPartition_free {p : Nat} {v : Word} (hr : clearBits v [(32, 32), (25, 6), (22, 2), (12, 4)] = true)
    (h : ¬ diesTaken s p (fieldNat v 0 12)) (hb : s.partBusy p = false) : s.wPartition p 0 v = .ok (s.sysPut (ptOff p) v) := by
  have free : ((List.range 12).any fun q => q != p && s.ptEn q && (s.ptDies q &&& fieldNat v 0 12) != 0) = false := by
    simp only [List.any_eq_false, List.mem_range, Bool.and_eq_true, bne_iff_ne]
    exact fun q hq hx => h ⟨q, hq, hx.1.1, hx.1.2, hx.2⟩
  rw [State.wPartition, if_neg (by simp), if_neg (by simp [hr]), if_neg (by simp [free, hb])]

theorem partBusy_eq_true {p : BitVec 4} :
    s.partBusy p.toNat = true ↔ (∃ l ∈ s.launches, l.part = p ∧ l.state ≠ .done) ∨ ∃ x ∈ s.placing, s.qPart x.queue = p := by
  simp [State.partBusy, BitVec.toNat_inj]

theorem partBusy_eq_false {p : BitVec 4} :
    s.partBusy p.toNat = false ↔ (∀ l ∈ s.launches, l.part = p → l.state = .done) ∧ ∀ x ∈ s.placing, s.qPart x.queue ≠ p := by
  rw [← Bool.not_eq_true, partBusy_eq_true]
  push Not
  rfl

theorem partBusy_before (p : Nat) : (s.before m).partBusy p = s.partBusy p := by
  simp [State.partBusy, State.qPart]

theorem diesTaken_before (p dies : Nat) : diesTaken (s.before m) p dies ↔ diesTaken s p dies := by
  simp [diesTaken, State.ptEn, State.ptDies]

section
variable {p : BitVec 4} {v : Word} (hp : p.toNat < 12) (hm : s.maySys m (ptOff p.toNat)) (h1 : v.toNat < 2 ^ 32)
  (h2 : v.toNat / 2 ^ 25 % 2 ^ 6 = 0) (h3 : v.toNat / 2 ^ 22 % 4 = 0) (h4 : v.toNat / 2 ^ 12 % 2 ^ 4 = 0)
include hp hm h1 h2 h3 h4

/-- R390: a partition whose dies no other has and in which nothing runs. -/
theorem partitionDescriptorWrite_stores (hd : ¬ diesTaken s p.toNat (v.toNat % 2 ^ 12)) (hb : s.partBusy p.toNat = false) :
    exec (.partitionDescriptorWrite p m v) s = .next ((s.before m).sysPut (ptOff p.toNat) v) := by
  have reserved : clearBits v [(32, 32), (25, 6), (22, 2), (12, 4)] = true := by simp [clearBits, fieldNat_eq]; omega
  have dies : fieldNat v 0 12 = v.toNat % 2 ^ 12 := by rw [fieldNat_eq, Nat.pow_zero, Nat.div_one]
  rw [exec_partitionDescriptorWrite hp, wordWrite_performed hm (by unfold ptOff; omega) fun a => (sysWord_partition hp v a).trans (wPartition_free reserved ?_ ?_)]
  · rwa [dies, diesTaken_before]
  · rwa [partBusy_before]

/-- R390: one whose dies overlap another's, or in which a launch runs, stays as it is. -/
theorem partitionDescriptorWrite_taken (h : diesTaken s p.toNat (v.toNat % 2 ^ 12) ∨ s.partBusy p.toNat = true) :
    exec (.partitionDescriptorWrite p m v) s = .next (s.before m) := by
  have reserved : clearBits v [(32, 32), (25, 6), (22, 2), (12, 4)] = true := by simp [clearBits, fieldNat_eq]; omega
  have dies : fieldNat v 0 12 = v.toNat % 2 ^ 12 := by rw [fieldNat_eq, Nat.pow_zero, Nat.div_one]
  rw [exec_partitionDescriptorWrite hp, wordWrite_performed hm (by unfold ptOff; omega) fun a => (sysWord_partition hp v a).trans (wPartition_taken reserved ?_)]
  rwa [dies, diesTaken_before, partBusy_before]

end

/-- Whether another live slot names the node and partition of a remote-master word (R388). -/
def masterDoubled (s : State) (i : BitVec 6) (v : Word) : Prop :=
  ∃ j : BitVec 6, j ≠ i ∧ (s.sysW (rmOff j)).toNat / 2 ^ 63 = 1 ∧
    (s.sysW (rmOff j)).toNat / 2 ^ 16 % 2 ^ 12 = v.toNat / 2 ^ 16 % 2 ^ 12 ∧ (s.sysW (rmOff j)).toNat % 2 ^ 4 = v.toNat % 2 ^ 4

theorem bitAt_top (w : Word) : bitAt w 63 = decide (w.toNat / 2 ^ 63 = 1) := by
  have hw := w.isLt
  rw [bitAt, BitVec.getLsbD, Nat.testBit_eq_decide_div_mod_eq, decide_eq_decide]
  omega

theorem masterDoubled_iff {i : BitVec 6} {v : Word} :
    ((List.range 64).any fun j => j != i.toNat && bitAt (s.sysW (rmOff (BitVec.ofNat 6 j))) 63 &&
      fieldNat (s.sysW (rmOff (BitVec.ofNat 6 j))) 16 12 == fieldNat v 16 12 &&
      fieldNat (s.sysW (rmOff (BitVec.ofNat 6 j))) 0 4 == fieldNat v 0 4) = true ↔ masterDoubled s i v := by
  simp only [List.any_eq_true, List.mem_range, Bool.and_eq_true, bne_iff_ne, beq_iff_eq, bitAt_top, decide_eq_true_eq, fieldNat_eq, Nat.pow_zero, Nat.div_one]
  constructor
  · rintro ⟨j, hj, ⟨⟨hi, hl⟩, hn⟩, hp⟩
    exact ⟨BitVec.ofNat 6 j, fun e => hi (by rw [← e, BitVec.toNat_ofNat]; omega), hl, hn, hp⟩
  · rintro ⟨j, hi, hl, hn, hp⟩
    refine ⟨j.toNat, j.isLt, ?_⟩
    rw [BitVec.ofNat_toNat, BitVec.setWidth_eq]
    exact ⟨⟨⟨fun e => hi (BitVec.eq_of_toNat_eq e), hl⟩, hn⟩, hp⟩

theorem masterDoubled_before {i : BitVec 6} {v : Word} : masterDoubled (s.before m) i v ↔ masterDoubled s i v := by simp [masterDoubled]

/-- R388: a slot that is not live, or that no other live slot doubles. -/
theorem remoteMasterWrite_stores {i : BitVec 6} {v : Word} (hm : s.maySys m (rmOff i)) (h1 : v.toNat / 2 ^ 28 % 2 ^ 35 = 0)
    (h2 : v.toNat / 2 ^ 4 % 2 ^ 12 = 0) (h : v.toNat / 2 ^ 63 = 1 → ¬ masterDoubled s i v) :
    exec (.remoteMasterWrite i m v) s = .next ((s.before m).sysPut (rmOff i) v) := by
  refine exec_performed rfl hm (by omega) fun a => (sysWord_remote i v a).trans ?_
  have reserved : clearBits v [(28, 35), (4, 12)] = true := by simp [clearBits, fieldNat_eq]; omega
  rw [State.wRemote, if_neg]
  simp only [reserved, Bool.not_true, Bool.false_or, Bool.and_eq_true, bitAt_top v, decide_eq_true_eq, masterDoubled_iff, masterDoubled_before]
  exact fun hx => h hx.1 hx.2

/-- R388: a second live slot for a pair is refused. -/
theorem remoteMasterWrite_doubled {i : BitVec 6} {v : Word} (hm : s.maySys m (rmOff i)) (hv : v.toNat / 2 ^ 63 = 1) (h : masterDoubled s i v) :
    exec (.remoteMasterWrite i m v) s = .next (s.before m) := by
  refine exec_refused rfl hm (by omega) fun a => (sysWord_remote i v a).trans ?_
  rw [State.wRemote, if_pos]
  simp only [Bool.or_eq_true, Bool.and_eq_true, bitAt_top v, decide_eq_true_eq, masterDoubled_iff, masterDoubled_before]
  exact .inr ⟨hv, h⟩

end Sys2Proof.Proofs
end

section
/-! What a write does to breakpoints, KV headers, fault queues, Anole registers and access bytes. -/

namespace Sys2Proof.Proofs

open Sys2Proof.Machine Sys2Proof.Laws

variable {s : State} {m : BitVec 7}

/-! ### Breakpoints, KV headers, fault queues, Anole registers -/

/-- R393: a breakpoint is stored; launches that are not parked stay as they are. -/
theorem wBreakpoint_stores {c : BitVec 6} {i : Nat} {v : Word} (hr : clearBits v [(52, 11), (0, 2)] = true) :
    ∃ L, s.wBreakpoint c i v = .ok { s.sysPut (bpOff c i) v with launches := L } ∧ ((∀ l ∈ s.launches, l.state ≠ .parked) → L = s.launches) := by
  rw [State.wBreakpoint, if_neg (by simp [hr])]
  refine ⟨_, rfl, fun h => ?_⟩
  rw [sysPut_launches]
  refine (List.map_congr_left fun l hl => if_neg ?_).trans s.launches.map_id
  simp [h l hl]

theorem breakpointWrite_stores {c : BitVec 6} {i : BitVec 3} {v : Word} (hm : s.maySys m (bpOff c i.toNat)) (h1 : v.toNat / 2 ^ 52 % 2 ^ 11 = 0)
    (h2 : v.toNat % 4 = 0) : ∃ t, exec (.breakpointWrite c i m v) s = .next t ∧ t.sys = (s.sysPut (bpOff c i.toNat) v).sys ∧ t.dram = s.dram ∧
      ((∀ l ∈ s.launches, l.state ≠ .parked) → t.launches = s.launches) := by
  have reserved : clearBits v [(52, 11), (0, 2)] = true := by simp [clearBits, fieldNat_eq]; omega
  obtain ⟨L, stored, same⟩ := wBreakpoint_stores (s := s.before m) (c := c) (i := i.toNat) reserved
  rw [before_launches] at same
  exact ⟨_, exec_performed rfl hm (by omega) fun a => (sysWord_breakpoint c i.isLt v a).trans stored, by simp [State.sysPut], before_dram s m, same⟩

/-- R350: while the table is disabled its frame-stack bases are stored. -/
theorem kvHeaderWrite_stores {p : BitVec 4} {w : BitVec 3} {v : Word} (hp : p.toNat < 12) (hw : w = 2#3 ∨ w = 4#3) (hm : s.maySys m (khOff p.toNat + 8 * w.toNat))
    (h1 : v.toNat < 2 ^ 48) (h2 : v.toNat % 8 = 0) (he : s.khEn p.toNat = false) :
    exec (.kvHeaderWrite p m w v) s = .next ((s.before m).sysPut (khOff p.toNat + 8 * w.toNat) v) := by
  have hi : 8 * w.toNat = 16 ∨ 8 * w.toNat = 32 := by rcases hw with rfl | rfl <;> decide
  have reserved : clearBits v (khRes (8 * w.toNat)) = true := by
    rcases hi with e | e <;> rw [e] <;> simp [khRes, clearBits, fieldNat_eq] <;> omega
  have off : (s.before m).khEn p.toNat = false := by simpa [State.khEn] using he
  rw [exec_kvHeaderWrite hp, wordWrite_performed hm (by unfold khOff; omega) fun a => (sysWord_kvHeader hp (by omega) v a).trans ?_]
  rw [State.wKvHeader, if_neg (by simp [reserved]), if_neg (by omega), if_neg (by simp [off]), if_neg (by simp; omega)]

/-- R350: while it is enabled nothing but its last word can change. -/
theorem kvHeaderWrite_enabled {p : BitVec 4} {w : BitVec 3} (v : Word) (hp : p.toNat < 12) (hw : w ≠ 7#3) (hm : s.maySys m (khOff p.toNat + 8 * w.toNat))
    (he : s.khEn p.toNat = true) : exec (.kvHeaderWrite p m w v) s = .next (s.before m) := by
  have hi : 8 * w.toNat ≠ 56 := fun e => hw (BitVec.eq_of_toNat_eq (by simp; omega))
  have on : (s.before m).khEn p.toNat = true := by simpa [State.khEn] using he
  rw [exec_kvHeaderWrite hp, wordWrite_refused hm (by unfold khOff; omega) fun a => (sysWord_kvHeader hp (by omega) v a).trans ?_]
  rw [State.wKvHeader]
  by_cases reserved : clearBits v (khRes (8 * w.toNat)) = true
  · rw [if_neg (by simp [reserved])]
    by_cases h48 : 8 * w.toNat = 48
    · rw [if_pos h48, if_pos on]
    · rw [if_neg h48, if_pos (by simp [on, hi])]
  · rw [if_pos (by simpa using reserved)]

/-- Without delayed events there is nothing to deliver. -/
theorem flushEvents_none (h : s.host.delayed = []) : s.flushEvents = s := by
  rw [State.flushEvents, h, flushGo, ← h]

/-- R395: a fault queue's descriptor. -/
theorem faultQueueDescriptorWrite_stores {h : BitVec 1} {v : Word} (hm : s.maySys m (fqOff h)) (hd : s.host.delayed = []) (hv : v.toNat < 2 ^ 48)
    (hl : 4 ≤ v.toNat % 2 ^ 5) (hu : v.toNat % 2 ^ 5 ≤ 16) : exec (.faultQueueDescriptorWrite h m 0#3 v) s = .next ((s.before m).sysPut (fqOff h) v) := by
  refine exec_performed (off := fqOff h) rfl hm (by unfold fqOff; omega) fun a => (sysWord_faultQueue h (i := 0) (by decide) v a).trans ?_
  have high : fieldNat v 48 16 = 0 := by rw [fieldNat_eq]; omega
  have size : fieldNat v 0 5 = v.toNat % 2 ^ 5 := by rw [fieldNat_eq, Nat.pow_zero, Nat.div_one]
  show (if _ then _ else _) = _
  rw [if_neg (by simp [high, size]; omega), flushEvents_none (by simpa using hd)]

/-- R395: a fault queue's read index moves no further than its write index. -/
theorem faultQueueReadWrite_next {h : BitVec 1} {v : Word} (hm : s.maySys m (fqOff h + 16)) (hd : s.host.delayed = []) :
    exec (.faultQueueReadWrite h m v) s =
      .next (if v.toNat ≤ (s.sysW (fqOff h + 8)).toNat then (s.before m).sysPut (fqOff h + 16) v else s.before m) := by
  refine exec_performed (off := fqOff h + 16) rfl hm (by unfold fqOff; omega) fun a => (sysWord_faultQueue h (i := 16) (by decide) v a).trans ?_
  show (if ((s.before m).sysW (fqOff h + 8)).toNat < v.toNat then _ else _) = _
  rw [before_sysW]
  by_cases hr : v.toNat ≤ (s.sysW (fqOff h + 8)).toNat
  · rw [if_neg (by omega), if_pos hr, flushEvents_none (by simpa using hd)]
  · rw [if_pos (by omega), if_neg hr]

/-- R396: the pc of an Anole core. -/
theorem anoleRegister_stores {a : BitVec 4} {v : Word} (hm : s.maySys m (anOff a)) (hv : v.toNat % 4 = 0) :
    exec (.sysRegisterWrite m (BitVec.ofNat 32 (anOff a)) 3#2 v) s = .next ((s.before m).sysPut (anOff a) v) := by
  have ha := a.isLt
  have ho : anOff a = 0x20000 + 256 * a.toNat := rfl
  have offset : (BitVec.ofNat 32 (anOff a)).toNat = anOff a := by rw [BitVec.toNat_ofNat]; omega
  have eight : 2 ^ (3#2 : BitVec 2).toNat = 8 := rfl
  rw [exec_sysRegisterWrite (by rw [offset, eight]; omega) (by omega), offset, eight,
    wordWrite_performed hm (by omega) fun w => (sysWord_anole a (i := 0) (by decide) v w).trans (plainWord_stored ?_)]
  simp [clearBits, fieldNat_eq]; omega

/-! ### One access byte (R389) -/

theorem isAccessOff_ge {off : Nat} (h : isAccessOff off = true) : 0x1000000 ≤ off := by
  simp only [isAccessOff, accessTargets, List.any_cons, List.any_nil, Bool.or_eq_true, Bool.and_eq_true, decide_eq_true_eq, Bool.or_false] at h
  omega

/-- A byte of SYS space is a field of its word. -/
theorem sysByte_eq (s : State) {b i : Nat} (hi : i < 8) : s.sysByte (b * 8 + i) = fieldNat (s.sysW (b * 8)) (8 * i) 8 := by
  rw [State.sysByte, State.sysF, sysW_of_word (show (b * 8 + i) / 8 = b * 8 / 8 by omega), show (b * 8 + i) % 8 * 8 = 8 * i by omega]

/-- The upper bits of a byte below 32. -/
theorem fieldNat_high_of_lt {w : Word} {k : Nat} (h : fieldNat w k 8 < 32) : fieldNat w (k + 5) 3 = 0 := by
  rw [fieldNat_eq] at h ⊢
  rw [Nat.pow_add, ← Nat.div_div_eq_div_mul]
  omega

/-- A word of the access table with one byte replaced. -/
def withByte (w : Word) (i : Nat) (v : BitVec 8) : Word := putField w (8 * i) 8 v.toNat

theorem byte_withByte {w : Word} {i j : Nat} (hi : i < 8) (v : BitVec 8) :
    fieldNat (withByte w i v) (8 * j) 8 = if j = i then v.toNat else fieldNat w (8 * j) 8 := by
  have hv := v.isLt
  by_cases h : j = i
  · rw [if_pos h, h, withByte, fieldNat_putField_same _ _ _ _ (by omega)]; omega
  · rw [if_neg h, withByte, fieldNat_putField_apart _ _ _ _ _ _ (by omega) (by omega)]

/-- The access table's own conditions on a word: no reserved bit of a byte, and no right for a reserved master. -/
structure AccessWord (off : Nat) (w : Word) : Prop where
  bytes : ∀ i, i < 8 → fieldNat w (8 * i) 8 < 32
  reserved : ∀ i, i < 8 → 45 ≤ (off + i) % 128 → (off + i) % 128 ≤ 63 → fieldNat w (8 * i) 8 = 0

theorem wAccess_stores {off : Nat} {w : Word} (ha : isAccessOff off = true) (hw : AccessWord off w)
    (hk : off % 128 = 40 → fieldNat w 32 8 = fieldNat (s.sysW off) 32 8) : s.wAccess off w = .ok (s.sysPut off w) := by
  have high : ((List.range 8).any fun i => fieldNat w (8 * i + 5) 3 != 0) = false := by
    simp only [List.any_eq_false, List.mem_range, bne_iff_ne, not_not]
    exact fun i hi => fieldNat_high_of_lt (hw.bytes i hi)
  have masters : ((List.range 8).any fun i => decide (45 ≤ (off + i) % 128) && decide ((off + i) % 128 ≤ 63) && fieldNat w (8 * i) 8 != 0) = false := by
    simp only [List.any_eq_false, List.mem_range, Bool.and_eq_true, decide_eq_true_eq, bne_iff_ne]
    exact fun i hi hx => hx.2 (hw.reserved i hi hx.1.1 hx.1.2)
  rw [State.wAccess, if_neg (by simp [ha]), if_neg (by simp [high]), if_neg (by simp [masters])]
  by_cases h : off % 128 = 40
  · rw [if_pos h, keepBits, List.foldl_cons, List.foldl_nil, ← hk h, putField_fieldNat _ _ _ (by decide)]
  · rw [if_neg h]

/-- R389: one byte of the access tables, of a master that is not fixed and not reserved. -/
theorem accessByte_stores {off : BitVec 32} {v : BitVec 8} (hm : s.maySys m off.toNat) (hb : off.toNat < 0x02000000)
    (ha : isAccessOff (off.toNat / 8 * 8) = true) (hv : v.toNat < 32)
    (hw : AccessWord (off.toNat / 8 * 8) (s.sysW (off.toNat / 8 * 8))) (hf : ¬ (44 ≤ off.toNat % 128 ∧ off.toNat % 128 ≤ 63)) :
    exec (.sysRegisterWrite m off 0#2 (ofU v.toNat)) s =
      .next ((s.before m).sysPut (off.toNat / 8 * 8) (withByte (s.sysW (off.toNat / 8 * 8)) (off.toNat % 8) v)) := by
  have place := isAccessOff_ge ha
  have hlt : off.toNat % 8 < 8 := by omega
  have value : (ofU v.toNat).toNat = v.toNat := by rw [ofU, BitVec.toNat_ofNat]; omega
  have new : AccessWord (off.toNat / 8 * 8) (withByte (s.sysW (off.toNat / 8 * 8)) (off.toNat % 8) v) := by
    constructor
    · intro i hi
      rw [byte_withByte hlt]
      split
      · exact hv
      · exact hw.bytes i hi
    · intro i hi h1 h2
      rw [byte_withByte hlt, if_neg (by rintro rfl; omega)]
      exact hw.reserved i hi h1 h2
  have stored (a : Bool) := (sysWord_access (s := s.before m) place (withByte (s.sysW (off.toNat / 8 * 8)) (off.toNat % 8) v) a).trans
    (wAccess_stores ha new fun h => by rw [before_sysW]; exact (byte_withByte hlt (j := 4) v).trans (if_neg (by omega)))
  rw [exec_sysRegisterWrite (Nat.mod_one _) hb, outsideSys_may hm, sysStore_performed (by omega) ?_]
  · rfl
  · rw [before_sysW, value, sysW_of_word (show off.toNat / 8 = off.toNat / 8 * 8 / 8 by omega), Nat.mul_comm (off.toNat % 8) 8]
    exact stored _

/-- Of SYS space that byte alone has changed. -/
theorem sysByte_withByte (h : s.sysOk) {b i : Nat} (hi : i < 8) (v : BitVec 8) (x : Nat) :
    (s.sysPut (b * 8) (withByte (s.sysW (b * 8)) i v)).sysByte x = if x = b * 8 + i then v.toNat else s.sysByte x := by
  have hx : x = x / 8 * 8 + x % 8 := by omega
  have hr : x % 8 < 8 := by omega
  by_cases hb : x / 8 = b
  · rw [hx, hb, sysByte_eq _ hr, sysByte_eq _ hr, sysW_sysPut_same h rfl, byte_withByte hi]
    simp only [Nat.add_left_cancel_iff]
  · rw [if_neg (by omega), State.sysByte, State.sysByte, sysF_sysPut_ne h (by omega)]

end Sys2Proof.Proofs
end

section
/-! Shoot-downs: the request that a write of `CX.sdcnt` is, the cores that must acknowledge it, and those that leave WFE. -/

namespace Sys2Proof.Proofs

open Sys2Proof.Machine Sys2Proof.Laws

variable {s : State} {m : BitVec 7}

/-! ### Shoot-downs (R338) -/

theorem wake_wake (c : Core) : c.wake.wake = c.wake := by
  unfold Core.wake
  cases hb : c.block <;> simp [hb]

theorem wake_rank (c : Core) : c.wake.rank = c.rank := by
  unfold Core.wake
  cases c.block <;> rfl

theorem wake_wfe {c : Core} {since : Nat} {next : Word} (h : c.block = .wfe since next) : c.wake.block = .none ∧ c.wake.regs = c.regs.setPc next := by
  unfold Core.wake
  rw [h]
  exact ⟨rfl, rfl⟩

/-- Some cores leave WFE (R166). -/
def wakeCores (ks : List CoreRef) (s : State) : State := ks.foldl (fun t k => t.modCore k fun c => c.wake) s

theorem wakeCores_keeps (ks : List CoreRef) (s : State) :
    (wakeCores ks s).sys = s.sys ∧ (wakeCores ks s).dram = s.dram ∧ (wakeCores ks s).shoots = s.shoots := by
  induction ks generalizing s with
  | nil => exact ⟨rfl, rfl, rfl⟩
  | cons k ks ih => exact ih (s.modCore k fun c => c.wake)

/-- Each of them, however often it is listed; the others stay. -/
theorem core_wakeCores (ks : List CoreRef) (s : State) (k : CoreRef) :
    (wakeCores ks s).core? k = if k ∈ ks then (s.core? k).map Core.wake else s.core? k := by
  induction ks generalizing s with
  | nil => rfl
  | cons j ks ih =>
      refine (ih (s.modCore j fun c => c.wake)).trans ?_
      by_cases hj : k = j
      · subst hj
        rw [coreAt_modCore _ wake_rank, Option.map_map, show Core.wake ∘ (fun c => c.wake) = Core.wake from funext wake_wake, if_pos List.mem_cons_self]
        exact ite_self _
      · simp only [coreAt_modCore_ne hj _ wake_rank, List.mem_cons, hj, false_or]

/-- What a state's running groups and TLBs are is read from its launches and its TLBs. -/
theorem coresOf_congr {t : State} (h : t.launches = s.launches) (c : BitVec 6) : t.coresOf c = s.coresOf c := by
  rw [State.coresOf, State.coresOf, h]

theorem tlbsOf_congr {t : State} (h : t.tlbs = s.tlbs) (o : Nat) : t.tlbsOf o = s.tlbsOf o := by rw [State.tlbsOf, State.tlbsOf, h]

theorem core_congr {t : State} (h : t.launches = s.launches) (k : CoreRef) : t.core? k = s.core? k := (lookup_launches h k.lid k).2.2

/-- A core must acknowledge a shoot-down of a context: one of its TLBs holds something of it. -/
def mustAck (s : State) (c : BitVec 6) (k : CoreRef) : Prop :=
  k ∈ s.coresOf c ∧ ∃ x, s.core? k = some x ∧ ∃ y ∈ s.tlbsOf x.phys, (∃ e ∈ y.entries, e.ctx = c) ∨ ∃ e ∈ y.tables, e.ctx = c

/-- The request that a shoot-down makes, with the number `q`. -/
structure ShootdownOf (s : State) (c : BitVec 6) (d : Shootdown) : Prop where
  ctx : d.ctx = c
  number : d.q = (s.sysF (cxOff c + 16) 0 32 + 1) % 2 ^ 32
  pages : d.pages = s.sysF (cxOff c + 32) 0 32
  page : d.page = s.sysF (cxOff c + 24) 12 40 * 4096
  all : d.all = (s.sysW (cxOff c + 24)).getLsbD 0
  waiting : ∀ k, k ∈ d.waiting ↔ mustAck s c k

/-- R338: the request, its number, and the cores that leave WFE for it. -/
theorem shootdown_next (h : s.sysOk) (c : BitVec 6) : ∃ d, ShootdownOf s c d ∧ (s.shootdown c).shoots = s.shoots ++ [d] ∧
    (s.shootdown c).sysF (cxOff c + 16) 0 32 = d.q ∧ (s.shootdown c).dram = s.dram ∧
    ∀ k, (s.shootdown c).core? k = if k ∈ s.coresOf c then (s.core? k).map Core.wake else s.core? k := by
  obtain ⟨sys, dram, shoots⟩ := wakeCores_keeps (s.coresOf c) (s.sysSetF (cxOff c + 16) 0 32 ((s.sysF (cxOff c + 16) 0 32 + 1) % 2 ^ 32))
  refine ⟨_, ⟨rfl, rfl, rfl, rfl, rfl, fun k => ?_⟩, congrArg (· ++ _) shoots, ?_, dram, core_wakeCores (s.coresOf c) _⟩
  · rw [List.mem_filter, mustAck, and_congr_right_iff]
    intro _
    cases s.core? k with
    | none => simp
    | some x => simp [Tlb.holds]
  · refine (sysF_congr sys _ _ _).trans ((sysF_sysSetF_same h (by decide) _).trans ?_)
    exact Nat.mod_mod _ _

/-- R338: a shoot-down is a write of `CX.sdcnt`. -/
theorem exec_shootdownIssue {c : BitVec 6} {v : Word} (hm : s.maySys m (cxOff c + 32)) (hv : v.toNat < 2 ^ 32) :
    exec (.shootdownIssue c m v) s = .next (((s.before m).sysPut (cxOff c + 32) v).shootdown c) := by
  refine exec_performed rfl hm (by omega) fun a => (sysWord_context c (by decide) v a).trans ?_
  have high : fieldNat v 32 32 = 0 := by rw [fieldNat_eq]; omega
  show (if _ then _ else _) = _
  rw [if_neg (by simp [high])]

theorem mustAck_congr {t : State} (hl : t.launches = s.launches) (ht : t.tlbs = s.tlbs) (c : BitVec 6) (k : CoreRef) : mustAck t c k ↔ mustAck s c k := by
  simp only [mustAck, coresOf_congr hl, core_congr hl, tlbsOf_congr ht]

/-- R338: what the write of `CX.sdcnt` leaves. -/
theorem shootdownIssue_next (h : s.sysOk) {c : BitVec 6} {v : Word} (hm : s.maySys m (cxOff c + 32)) (hv : v.toNat < 2 ^ 32) :
    ∃ (t : State) (d : Shootdown), exec (.shootdownIssue c m v) s = .next t ∧ t.shoots = s.shoots ++ [d] ∧ d.ctx = c ∧ d.q = (s.sysF (cxOff c + 16) 0 32 + 1) % 2 ^ 32 ∧
      t.sysF (cxOff c + 16) 0 32 = d.q ∧ d.pages = v.toNat ∧ d.page = s.sysF (cxOff c + 24) 12 40 * 4096 ∧ d.all = (s.sysW (cxOff c + 24)).getLsbD 0 ∧
      t.dram = s.dram ∧ ∀ k, k ∈ d.waiting ↔ mustAck s c k := by
  have ok := before_sysOk s m h
  obtain ⟨d, hd, shoots, number, dram, -⟩ := shootdown_next (sysOk_sysPut ok (cxOff c + 32) v) c
  refine ⟨_, d, exec_shootdownIssue hm hv, shoots.trans (by simp), hd.ctx, hd.number.trans ?_, number, hd.pages.trans ?_, hd.page.trans ?_, hd.all.trans ?_,
    dram.trans (by simp), fun k => (hd.waiting k).trans (mustAck_congr (by simp) (by simp) c k)⟩
  · rw [sysF_sysPut_ne ok (by omega), before_sysF]
  · rw [State.sysF, sysW_sysPut_same ok rfl, fieldNat_eq]; omega
  · rw [sysF_sysPut_ne ok (by omega), before_sysF]
  · rw [sysW_sysPut_ne ok (by omega), before_sysW]

/-- R166, R338: a core of the context that waits in WFE goes on. -/
theorem shootdownIssue_wakes (h : s.sysOk) {c : BitVec 6} {v : Word} {k : CoreRef} {x : Core} {since : Nat} {nx : Word} (hm : s.maySys m (cxOff c + 32))
    (hv : v.toNat < 2 ^ 32) (hk : k ∈ s.coresOf c) (hx : s.core? k = some x) (hb : x.block = .wfe since nx) :
    ∃ (t : State) (y : Core), exec (.shootdownIssue c m v) s = .next t ∧ t.core? k = some y ∧ y.block = .none ∧ y.regs = x.regs.setPc nx := by
  obtain ⟨-, -, -, -, -, cores⟩ := shootdown_next (sysOk_sysPut (before_sysOk s m h) (cxOff c + 32) v) c
  have launches : ((s.before m).sysPut (cxOff c + 32) v).launches = s.launches := by simp
  refine ⟨_, x.wake, exec_shootdownIssue hm hv, ?_, wake_wfe hb⟩
  rw [cores, coresOf_congr launches, if_pos hk, core_congr launches, hx]
  rfl

end Sys2Proof.Proofs
end

section
/-! The commands of `CX.vrop`: versioned regions destroyed, abandoned and created. -/

namespace Sys2Proof.Proofs

open Sys2Proof.Machine Sys2Proof.Laws

variable {s : State} {m : BitVec 7}

/-! ### Commands of `CX.vrop` (R344) -/

/-- A legal command with its argument is performed. -/
theorem exec_vrCommand {i : Instr} {c : BitVec 6} {v : Word} {op a : Nat} (h : sysWriteOf i = some (m, cxOff c + 48, v)) (hm : s.maySys m (cxOff c + 48))
    (hv : v.toNat = op * 2 ^ 61 + a) (ho : op < 3) (ha : a < 2 ^ 48) (hz : op ≠ 0 → a < 2 ^ 12) :
    exec i s = .next (((s.before m).sysPut (cxOff c + 48) v).vrCommand c op a) := by
  refine exec_performed h hm (by unfold cxOff; omega) fun _ => (sysWord_context c (by decide) v _).trans ?_
  have command : fieldNat v 61 3 = op := by rw [fieldNat_eq, hv]; omega
  have gap : fieldNat v 48 13 = 0 := by rw [fieldNat_eq, hv]; omega
  have argument : fieldNat v 0 48 = a := by rw [fieldNat_eq, hv]; omega
  have high : op ≠ 0 → fieldNat v 12 36 = 0 := fun h0 => by have := hz h0; rw [fieldNat_eq, hv]; omega
  show (if _ then _ else _) = _
  rw [if_neg, command, argument]
  simp only [command, gap, Bool.or_eq_true, Bool.and_eq_true, decide_eq_true_eq]
  rintro ((h3 | h3) | ⟨h0, h3⟩)
  · omega
  · exact h3 rfl
  · exact h3 (high h0)

theorem sysOk_congr {t : State} (h : t.sys = s.sys) (ok : s.sysOk) : t.sysOk := by rw [State.sysOk, h]; exact ok

/-- What a command leaves: its status in `CX.vrst`, and the memory that its effect leaves. -/
theorem vrStatus {t : State} (h : t.sysOk) {st : Nat} (hst : st < 2 ^ 8) (c : BitVec 6) :
    (t.sysSetF (cxOff c + 56) 0 8 st).sysF (cxOff c + 56) 0 8 = st := by
  rw [sysF_sysSetF_same h (by decide), Nat.mod_eq_of_lt hst]

section
variable {c : BitVec 6} {a st : Nat} {t : State}

theorem vrCommand_create (h : s.vrCreateAt c a = (st, t)) : s.vrCommand c 0 a = t.sysSetF (cxOff c + 56) 0 8 st := by
  simp only [State.vrCommand, h]

theorem vrCommand_destroy (h : s.vrDestroyAt c a = (st, t)) : s.vrCommand c 1 a = t.sysSetF (cxOff c + 56) 0 8 st := by
  simp only [State.vrCommand, h]

theorem vrCommand_abandon (h : s.vrAbandonAt c a = (st, t)) : s.vrCommand c 2 a = t.sysSetF (cxOff c + 56) 0 8 st := by
  simp only [State.vrCommand, h]

end

/-! ### Regions are read from device memory and `CX.vrt` -/

theorem vrAt_congr {t : State} {c : BitVec 6} (hc : t.cxVrt c = s.cxVrt c) (a : Nat) : t.vrAt c a = s.vrAt c a := by
  rw [State.vrAt, State.vrAt, hc]

theorem slotState_congr {t : State} (hd : t.dram = s.dram) {g g' : Region} (hg : g'.at' = g.at') (i : Nat) : t.slotState g' i = s.slotState g i := by
  rw [State.slotState, State.slotState, State.dramWord, State.dramWord, hd, hg]

theorem slotCount_congr {t : State} (hd : t.dram = s.dram) {g g' : Region} (hg : g'.at' = g.at') (i : Nat) : t.slotCount g' i = s.slotCount g i := by
  rw [State.slotCount, State.slotCount, State.dramWord, State.dramWord, hd, hg]

theorem region_congr {t : State} {c : BitVec 6} (hd : t.dram = s.dram) (hc : t.cxVrt c = s.cxVrt c) (a : Nat) : t.region? c a = s.region? c a := by
  unfold State.region? State.dramWord
  rw [hd, vrAt_congr hc]

theorem regions_congr {t : State} {c : BitVec 6} (hd : t.dram = s.dram) (hc : t.cxVrt c = s.cxVrt c) : t.regions c = s.regions c := by
  rw [State.regions, State.regions, State.regionIds, State.regionIds, hd, hc, funext (region_congr hd hc)]

/-- What a command works on has the memory and the tables of the state before its write. -/
theorem beforeCommand (h : s.sysOk) (m : BitVec 7) (c : BitVec 6) (v : Word) : ((s.before m).sysPut (cxOff c + 48) v).dram = s.dram ∧
    ((s.before m).sysPut (cxOff c + 48) v).cxVrt c = s.cxVrt c ∧ ((s.before m).sysPut (cxOff c + 48) v).sysOk := by
  refine ⟨by simp, ?_, sysOk_sysPut (before_sysOk s m h) _ _⟩
  rw [State.cxVrt, State.cxVrt, sysF_sysPut_ne (before_sysOk s m h) (by omega), before_sysF]

/-! ### Destroying and abandoning -/

@[simp] theorem dramPut_dram (s : State) (a : Nat) (bs : List Byte) : (s.dramPut a bs).dram = s.dram.put a bs := rfl
@[simp] theorem dramPut_sys (s : State) (a : Nat) (bs : List Byte) : (s.dramPut a bs).sys = s.sys := rfl
@[simp] theorem sysSetF_dram (s : State) (o lo n v : Nat) : (s.sysSetF o lo n v).dram = s.dram := rfl
@[simp] theorem slotPut_sys (s : State) (g : Region) (i n : Nat) (tag : BitVec 32) (st : Nat) : (s.slotPut g i n tag st).sys = s.sys := by
  rw [State.slotPut, State.dramPutWord, State.dramPutWord, dramPut_sys, dramPut_sys]

section
variable {c : BitVec 6} {a : Nat} {g : Region}

/-- The slots of the descriptor at `g.at'`, as VR_DESTROY reads them. -/
theorem allFree_iff (hg : g.at' = s.vrAt c a) :
    ((List.range 4).all fun i => s.slotState { id := a, size := 0, slots := 4, base := 0, at' := s.vrAt c a } i == 0 &&
      s.slotCount { id := a, size := 0, slots := 4, base := 0, at' := s.vrAt c a } i == 0) = true ↔
    ∀ i, i < 4 → s.slotState g i = 0 ∧ s.slotCount g i = 0 := by
  have state (i : Nat) : s.slotState { id := a, size := 0, slots := 4, base := 0, at' := s.vrAt c a } i = s.slotState g i := slotState_congr rfl hg.symm i
  have count (i : Nat) : s.slotCount { id := a, size := 0, slots := 4, base := 0, at' := s.vrAt c a } i = s.slotCount g i := slotCount_congr rfl hg.symm i
  simp only [List.all_eq_true, List.mem_range, Bool.and_eq_true, beq_iff_eq, state, count]

theorem vrDestroyAt_free (ha : a < 4096) (hg : g.at' = s.vrAt c a) (hf : ∀ i, i < 4 → s.slotState g i = 0 ∧ s.slotCount g i = 0) :
    s.vrDestroyAt c a = (0, s.dramPut g.at' (List.replicate 128 0#8)) := by
  rw [State.vrDestroyAt, if_neg (by omega)]
  exact (if_pos ((allFree_iff hg).2 hf)).trans (by rw [hg])

theorem vrDestroyAt_busy (ha : a < 4096) (hg : g.at' = s.vrAt c a) (hb : ∃ i, i < 4 ∧ (s.slotState g i ≠ 0 ∨ s.slotCount g i ≠ 0)) :
    s.vrDestroyAt c a = (0x08, s) := by
  obtain ⟨i, hi, hx⟩ := hb
  rw [State.vrDestroyAt, if_neg (by omega)]
  exact if_neg fun h => hx.elim (fun k => k ((allFree_iff hg).1 h i hi).1) fun k => k ((allFree_iff hg).1 h i hi).2

/-- R344: the first open or torn slot of a region becomes free. -/
theorem vrAbandonAt_slot {i : Nat} (ha : a < 4096) (hr : s.region? c a = some g) (hi : i < g.slots) (ho : s.slotState g i = 1 ∨ s.slotState g i = 2)
    (hn : ∀ j, j < i → s.slotState g j ≠ 1 ∧ s.slotState g j ≠ 2) :
    ∃ os, s.vrAbandonAt c a = (0, { s.slotPut g i 0 0#32 0 with opens := os }) := by
  have found : (s.findSlot g fun st _ _ => st == 1 || st == 2) = some i := by
    rw [State.findSlot, List.find?_range_eq_some]
    exact ⟨by simpa using ho, List.mem_range.2 hi, fun j hj => by simpa using hn j hj⟩
  rw [State.vrAbandonAt, if_neg (by omega)]
  simp only [hr, found]
  exact ⟨_, rfl⟩

end

theorem slotPut_dram {t : State} (hd : t.dram = s.dram) (g : Region) (i n : Nat) (tag : BitVec 32) (st : Nat) :
    (t.slotPut g i n tag st).dram = (s.slotPut g i n tag st).dram := by
  simp only [State.slotPut, State.dramPutWord, dramPut_dram, hd]

section
variable {c : BitVec 6} {a : BitVec 48} {g : Region} (h : s.sysOk) (hm : s.maySys m (cxOff c + 48)) (ha : a.toNat < 2 ^ 12)
include h hm ha

/-- R344: a region without a slot in use is destroyed. -/
theorem vrDestroy_free (hg : g.at' = s.vrAt c a.toNat) (hf : ∀ i, i < 4 → s.slotState g i = 0 ∧ s.slotCount g i = 0) :
    ∃ t, exec (.vrDestroy c m a) s = .next t ∧ t.sysF (cxOff c + 56) 0 8 = 0 ∧ t.dram = s.dram.put g.at' (List.replicate 128 0#8) := by
  have value : (ofU (2 ^ 61 + a.toNat)).toNat = 1 * 2 ^ 61 + a.toNat := by rw [ofU, BitVec.toNat_ofNat]; omega
  obtain ⟨dram, vrt, ok⟩ := beforeCommand h m c (ofU (2 ^ 61 + a.toNat))
  have done := vrDestroyAt_free ha (hg.trans (vrAt_congr vrt _).symm) fun i hi => by
    rw [slotState_congr dram rfl, slotCount_congr dram rfl]; exact hf i hi
  refine ⟨_, exec_vrCommand rfl hm value (by decide) a.isLt fun _ => ha, ?_⟩
  rw [vrCommand_destroy done]
  exact ⟨vrStatus (sysOk_congr (dramPut_sys _ _ _) ok) (by decide) c, by rw [sysSetF_dram, dramPut_dram, dram]⟩

/-- R344: one with a slot in use stays. -/
theorem vrDestroy_busy (hg : g.at' = s.vrAt c a.toNat) (hb : ∃ i, i < 4 ∧ (s.slotState g i ≠ 0 ∨ s.slotCount g i ≠ 0)) :
    ∃ t, exec (.vrDestroy c m a) s = .next t ∧ t.sysF (cxOff c + 56) 0 8 = 8 ∧ t.dram = s.dram := by
  have value : (ofU (2 ^ 61 + a.toNat)).toNat = 1 * 2 ^ 61 + a.toNat := by rw [ofU, BitVec.toNat_ofNat]; omega
  obtain ⟨dram, vrt, ok⟩ := beforeCommand h m c (ofU (2 ^ 61 + a.toNat))
  have done := vrDestroyAt_busy ha (hg.trans (vrAt_congr vrt _).symm) (by
    simp only [slotState_congr dram rfl, slotCount_congr dram rfl]; exact hb)
  refine ⟨_, exec_vrCommand rfl hm value (by decide) a.isLt fun _ => ha, ?_⟩
  rw [vrCommand_destroy done]
  exact ⟨vrStatus ok (by decide) c, dram⟩

/-- R344: the open or torn slot of a region is abandoned. -/
theorem vrAbandon_slot {i : Nat} (hr : s.region? c a.toNat = some g) (hi : i < g.slots) (ho : s.slotState g i = 1 ∨ s.slotState g i = 2)
    (hn : ∀ j, j < i → s.slotState g j ≠ 1 ∧ s.slotState g j ≠ 2) :
    ∃ t, exec (.vrAbandon c m a) s = .next t ∧ t.sysF (cxOff c + 56) 0 8 = 0 ∧ t.dram = (s.slotPut g i 0 0#32 0).dram := by
  have value : (ofU (2 ^ 62 + a.toNat)).toNat = 2 * 2 ^ 61 + a.toNat := by rw [ofU, BitVec.toNat_ofNat]; omega
  obtain ⟨dram, vrt, ok⟩ := beforeCommand h m c (ofU (2 ^ 62 + a.toNat))
  have slot := slotState_congr dram (g := g) rfl
  obtain ⟨os, done⟩ := vrAbandonAt_slot ha ((region_congr dram vrt _).trans hr) hi (by rw [slot]; exact ho) fun j hj => by rw [slot]; exact hn j hj
  refine ⟨_, exec_vrCommand rfl hm value (by decide) a.isLt fun _ => ha, ?_⟩
  rw [vrCommand_abandon done]
  exact ⟨vrStatus (sysOk_congr (slotPut_sys _ g i 0 0#32 0) ok) (by decide) c, by rw [sysSetF_dram]; exact slotPut_dram dram g i 0 0#32 0⟩

end

/-! ### Creating -/

/-- A read of host memory (R344) leaves memory and SYS space as they were; only a host fails to answer. -/
theorem hostAnswers_keeps (s : State) (a : Nat) : (s.hostAnswers a).2.dram = s.dram ∧ (s.hostAnswers a).2.sys = s.sys ∧
    ((s.hostAnswers a).1 = false → 2 ≤ a / 2 ^ 44) := by
  unfold State.hostAnswers
  split
  next hk =>
    simp only [Bool.or_eq_true, decide_eq_true_eq] at hk
    exact ⟨rfl, rfl, fun _ => by omega⟩
  next => exact ⟨rfl, rfl, fun h => by cases h⟩

/-- The words `w0` and `w1` at a DPA begin a legal declaration of a region, of an id that no region of the context has, in a context without
regions (R344). -/
structure Declares (s : State) (c : BitVec 6) (a w0 : Nat) (w1 : Word) : Prop where
  aligned : a % 32 = 0
  first : dpaOk a = true
  last : dpaOk (a + 31) = true
  correct : s.dram.badIn a 32 = false
  word0 : w0 = (s.dram.word a).toNat
  word1 : w1 = s.dram.word (a + 8)
  top : w0 < 2 ^ 48
  reserved : w0 / 2 ^ 15 % 2 = 0
  id : w0 % 2 ^ 12 ≠ 0
  fewest : 2 ≤ w0 / 2 ^ 12 % 8
  most : w0 / 2 ^ 12 % 8 ≤ 4
  size : w0 / 2 ^ 16 % 2 ^ 32 ≠ 0
  base : w1.toNat % 65536 = 0
  word2 : s.dram.word (a + 16) = 0#64
  word3 : s.dram.word (a + 24) = 0#64
  fits : w1.toNat + (w0 / 2 ^ 12 % 8 + 1) * (w0 / 2 ^ 16 % 2 ^ 32 * 65536) ≤ 2 ^ 52
  fresh : s.region? c (w0 % 2 ^ 12) = none
  alone : s.regions c = []

section
variable {c : BitVec 6} {a w0 : Nat} {w1 : Word}

theorem Declares.congr {t : State} (hd : t.dram = s.dram) (hc : t.cxVrt c = s.cxVrt c) (h : Declares s c a w0 w1) : Declares t c a w0 w1 :=
  { h with
    correct := hd ▸ h.correct, word0 := hd ▸ h.word0, word1 := hd ▸ h.word1, word2 := hd ▸ h.word2, word3 := hd ▸ h.word3
    fresh := (region_congr hd hc _).trans h.fresh, alone := (regions_congr hd hc).trans h.alone }

/-- The memory after the creation of the region that the words declare. -/
def created (s : State) (c : BitVec 6) (w0 : Nat) (w1 : Word) : Store :=
  (s.dram.put (s.vrAt c (w0 % 2 ^ 12)) (List.replicate 128 0#8)).put (s.vrAt c (w0 % 2 ^ 12)) (natLe 8 (w0 + 2 ^ 15) ++ natLe 8 w1.toNat)

theorem created_congr {t : State} (hd : t.dram = s.dram) (hc : t.cxVrt c = s.cxVrt c) : created t c w0 w1 = created s c w0 w1 := by
  simp only [created, hd, vrAt_congr hc]

/-- R344: a legal declaration makes its region, unless a host does not answer the read of it. -/
theorem vrCreateAt_next (h : Declares s c a w0 w1) :
    ∃ st t, s.vrCreateAt c a = (st, t) ∧ t.sys = s.sys ∧ ((st = 0x10 ∧ 2 ≤ a / 2 ^ 44 ∧ t.dram = s.dram) ∨ (st = 0 ∧ t.dram = created s c w0 w1)) := by
  obtain ⟨dram, sys, silent⟩ := hostAnswers_keeps s a
  have vrt : (s.hostAnswers a).2.cxVrt c = s.cxVrt c := by rw [State.cxVrt, State.cxVrt, sysF_congr sys]
  rw [State.vrCreateAt, if_neg (by simp [h.aligned, h.first, h.last]), if_neg (by simp [h.correct])]
  cases ha : (s.hostAnswers a).1 with
  | false => exact ⟨_, _, rfl, sys, .inl ⟨rfl, silent ha, dram⟩⟩
  | true =>
      have hu := Declares.congr dram vrt h
      have made := created_congr (w0 := w0) (w1 := w1) dram vrt
      generalize (s.hostAnswers a).2 = u at *
      have word0 : (u.dramWord a).toNat = w0 := hu.word0.symm
      have word1 : u.dramWord (a + 8) = w1 := hu.word1.symm
      have word2 : u.dramWord (a + 16) = 0#64 := hu.word2
      have word3 : u.dramWord (a + 24) = 0#64 := hu.word3
      have reserved : bitAt (u.dramWord a) 15 = false := by
        rw [bitAt, BitVec.getLsbD, word0, Nat.testBit_eq_decide_div_mod_eq, hu.reserved]; rfl
      have top : fieldNat (u.dramWord a) 48 16 = 0 := by have := hu.top; rw [fieldNat_eq, word0]; omega
      have id : fieldNat (u.dramWord a) 0 12 = w0 % 2 ^ 12 := by rw [fieldNat_eq, word0, Nat.pow_zero, Nat.div_one]
      have slots : fieldNat (u.dramWord a) 12 3 = w0 / 2 ^ 12 % 8 := by rw [fieldNat_eq, word0]; rfl
      have size : fieldNat (u.dramWord a) 16 32 = w0 / 2 ^ 16 % 2 ^ 32 := by rw [fieldNat_eq, word0]
      refine ⟨_, _, (if_neg (by decide)).trans ((if_neg ?_).trans ((if_neg ?_).trans rfl)), ?_, .inr ⟨rfl, ?_⟩⟩
      case refine_1 =>
        simp only [word1, word2, word3, top, reserved, slots, size, id, hu.base, ne_eq, not_true_eq_false, decide_false, Bool.or_false,
          Bool.false_or, Bool.or_eq_true, decide_eq_true_eq]
        have := hu.id; have := hu.fewest; have := hu.most; have := hu.size
        omega
      case refine_2 =>
        have fits := hu.fits
        simp only [word1, id, hu.fresh, hu.alone, Region.stop, slots, size, Option.isSome_none, List.any_nil, Bool.or_false, Bool.false_or, decide_eq_true_eq]
        exact Nat.not_lt.2 fits
      case refine_3 => rw [dramPut_sys, dramPut_sys, sys]
      case refine_4 => rw [dramPut_dram, dramPut_dram, ← made, created, word0, word1, id]

/-- R344: the creation of a region. -/
theorem vrCreate_next (h : s.sysOk) {d : BitVec 48} (hm : s.maySys m (cxOff c + 48)) (hd : Declares s c d.toNat w0 w1) :
    ∃ t, exec (.vrCreate c m d) s = .next t ∧ ((2 ≤ d.toNat / 2 ^ 44 ∧ t.sysF (cxOff c + 56) 0 8 = 0x10 ∧ t.dram = s.dram) ∨
      t.sysF (cxOff c + 56) 0 8 = 0 ∧ t.dram = created s c w0 w1) := by
  have value : (ofU d.toNat).toNat = 0 * 2 ^ 61 + d.toNat := by rw [ofU, BitVec.toNat_ofNat]; omega
  obtain ⟨dram, vrt, ok⟩ := beforeCommand h m c (ofU d.toNat)
  obtain ⟨st, t, done, sys, result⟩ := vrCreateAt_next (Declares.congr dram vrt hd)
  refine ⟨_, exec_vrCommand rfl hm value (by decide) d.isLt fun h => absurd rfl h, ?_⟩
  rw [vrCommand_create done, sysSetF_dram]
  rcases result with ⟨rfl, host, same⟩ | ⟨rfl, made⟩
  · exact .inl ⟨host, vrStatus (sysOk_congr sys ok) (by decide) c, same.trans dram⟩
  · exact .inr ⟨vrStatus (sysOk_congr sys ok) (by decide) c, made.trans (created_congr dram vrt)⟩

end

end Sys2Proof.Proofs
end

section
/-! Writes of SYS space: every structure's write, together. -/

namespace Sys2Proof.Proofs

open Sys2Proof.Machine Sys2Proof.Laws

variable {s : State} {m : BitVec 7}

/-- A write of an access byte leaves all but SYS space as it was. -/
theorem sysOnly_before_sysPut (s : State) (m : BitVec 7) (o : Nat) (v : Word) : sysOnly s ((s.before m).sysPut o v) := by
  simp [sysOnly]

/-- R389: one access byte changes, and nothing else. -/
theorem accessByte_alone (ok : s.sysOk) {off : BitVec 32} {v : BitVec 8} (hm : s.maySys m off.toNat) (hb : off.toNat < 0x02000000)
    (ha : isAccessOff (off.toNat / 8 * 8) = true) (hv : v.toNat < 32)
    (hw : ∀ i, i < 8 → s.sysByte (off.toNat / 8 * 8 + i) < 32 ∧ (45 ≤ (off.toNat / 8 * 8 + i) % 128 → (off.toNat / 8 * 8 + i) % 128 ≤ 63 →
      s.sysByte (off.toNat / 8 * 8 + i) = 0)) (hf : ¬ (44 ≤ off.toNat % 128 ∧ off.toNat % 128 ≤ 63)) :
    ∃ t, exec (.sysRegisterWrite m off 0#2 (ofU v.toNat)) s = .next t ∧ sysOnly s t ∧ ∀ x, t.sysByte x = if x = off.toNat then v.toNat else s.sysByte x := by
  have word : AccessWord (off.toNat / 8 * 8) (s.sysW (off.toNat / 8 * 8)) := by
    constructor
    · exact fun i hi => sysByte_eq s hi ▸ (hw i hi).1
    · exact fun i hi h1 h2 => sysByte_eq s hi ▸ (hw i hi).2 h1 h2
  refine ⟨_, accessByte_stores hm hb ha hv word hf, sysOnly_before_sysPut .., fun x => ?_⟩
  have byte := sysByte_withByte (before_sysOk s m ok) (b := off.toNat / 8) (Nat.mod_lt off.toNat (by decide)) v x
  rw [before_sysW, show off.toNat / 8 * 8 + off.toNat % 8 = off.toNat by omega] at byte
  rw [byte, State.sysByte, State.sysByte, before_sysF]

/-- Settles O48: each write is the write of one word of a structure, and comes to what that structure's rules say. -/
theorem sysWrites : Obligations.SysWrites :=
  ⟨fun i m off v s h => ⟨fun hm hr => by rw [exec_of_sysWriteOf h, outsideSys_denied hm hr], fun hm ha => by rw [exec_of_sysWriteOf h, outsideSys_noAccess hm ha]⟩,
   fun s m ok =>
    ⟨fun c v => contextStateWrite_stores,
     fun c v => contextResolveWrite_stores,
     fun c v => dependenceCounterWrite_stores,
     fun v => powerLimitWrite_next,
     fun v => nodeIdWrite_stores ok,
     fun v => nodeIdWrite_beyond,
     fun p v hp hm h1 h2 h3 h4 =>
      ⟨fun hd hl hx => partitionDescriptorWrite_stores hp hm h1 h2 h3 h4 (fun ⟨q, hq, hn, he, ho⟩ => ho (hd q hq hn he)) (partBusy_eq_false.2 ⟨hl, hx⟩),
       fun h => partitionDescriptorWrite_taken hp hm h1 h2 h3 h4 (h.imp_right fun hl => partBusy_eq_true.2 (.inl hl))⟩,
     fun i v hm h1 h2 =>
      ⟨fun h => remoteMasterWrite_stores hm h1 h2 fun hv ⟨j, hj, hx⟩ => h hv j hj hx, fun hv hd => remoteMasterWrite_doubled hm hv hd⟩,
     fun c i v => breakpointWrite_stores,
     fun p w v => kvHeaderWrite_stores,
     fun p w v => kvHeaderWrite_enabled v,
     fun h v => faultQueueDescriptorWrite_stores,
     fun h v => faultQueueReadWrite_next,
     fun a v => anoleRegister_stores,
     fun off v => accessByte_alone ok,
     fun off size v h => exec_sysRegisterWrite_unaligned h m v,
     fun c v => shootdownIssue_next ok,
     fun c v k x since nx => shootdownIssue_wakes ok,
     fun c a g hm ha hg => ⟨vrDestroy_free ok hm ha hg, vrDestroy_busy ok hm ha hg, fun i => vrAbandon_slot ok hm ha⟩,
     fun c a w0 w1 hm h1 h2 h3 h4 h5 h6 h7 h8 h9 h10 h11 h12 h13 h14 h15 h16 h17 h18 =>
      vrCreate_next ok hm ⟨h1, h2, h3, h4, h5, h6, h7, h8, h9, h10, h11, h12, h13, h14, h15, h16, h17, h18⟩⟩⟩

end Sys2Proof.Proofs
end

section
/-! The schedule is taken entry by entry. -/

namespace Sys2Proof.Proofs

open Sys2Proof.Machine Sys2Proof.Laws

variable {s : State}

/-! ### The passage of time (R133, R293) -/

theorem launchCycles_zero (l : Launch) : l.cycles 0 = l := by
  have cores (cp : Copy) : { cp with cores := cp.cores.map (Core.cycles 0) } = cp := by
    rw [show Core.cycles 0 = id from rfl, List.map_id]
  rw [Launch.cycles, funext cores, List.map_id', ite_self]

theorem launchCycles_deferred (n : Nat) (l : Launch) : (l.cycles n).deferred = l.deferred := by
  unfold Launch.cycles; split <;> rfl

/-- A launch without a cause of abort that waits goes on. -/
theorem runDeferredOf_none (h : ∀ l ∈ s.launches, l.deferred = []) (lid : Nat) : s.runDeferredOf lid = s := by
  rw [State.runDeferredOf]
  cases hl : s.launch? lid with
  | none => rfl
  | some l =>
      have decided : l.decisive = none := by rw [Launch.decisive, h l (List.mem_of_find?_eq_some hl)]; rfl
      simp only [decided]

theorem runDeferred_none (h : ∀ l ∈ s.launches, l.deferred = []) : s.runDeferred = s := by
  have each (ls : List Launch) : ls.foldl (fun t l => t.runDeferredOf l.lid) s = s := by
    induction ls with
    | nil => rfl
    | cons l ls ih => rw [List.foldl_cons, runDeferredOf_none h, ih]
  exact each s.launches

/-- Where no abort is due, the end of a cycle settles the tokens and does nothing else. -/
theorem endCycle_none (h : ∀ l ∈ s.launches, l.deferred = []) (n : Nat) : s.endCycle n = { s with launches := s.launches.map (Launch.cycles n) } := by
  refine runDeferred_none fun l hl => ?_
  obtain ⟨l', hl', rfl⟩ := List.mem_map.1 hl
  rw [launchCycles_deferred, h l' hl']

/-- Settles O12, from what the passage of time leaves and the entries' own definitions. -/
theorem scheduleEntries : Obligations.ScheduleEntries := by
  refine ⟨fun s n ts hs hd => ⟨_, by rw [step, hs]; rfl, ?_⟩, fun s i ts hs hi => ?_, fun s a ts hs ha => ?_⟩
  · rw [State.pass]
    by_cases hn : n = 0
    · subst hn
      simp [funext launchCycles_zero]
    · have quiet := endCycle_none (s := { s with sched := ts }) hd n
      rw [if_neg hn]
      simp only [quiet]
      exact ⟨rfl, rfl, rfl, rfl, rfl, rfl, rfl⟩
  · rw [step, hs]; exact if_pos hi
  · rw [step, hs]; exact if_neg (by rw [ha]; decide)

end Sys2Proof.Proofs
end

section
/-! The register instructions: what each of them computes, as one of three shapes, and that nothing but registers changes. -/

namespace Sys2Proof.Proofs

open Sys2Proof.Machine Sys2Proof.Laws

variable {s : State}

/-! ### The register file (R22) -/

@[simp] theorem get_zero (r : Regs) : r.get 0#6 = 0#64 := rfl
@[simp] theorem set_zero (r : Regs) (v : Word) : r.set 0#6 v = r := rfl

theorem get_set_same (r : Regs) {d : BitVec 6} (hd : d ≠ 0#6) (v : Word) : (r.set d v).get d = v := by
  simp [Regs.get, Regs.set, hd]

theorem get_set_other (r : Regs) {d j : BitVec 6} (hj : j ≠ d) (v : Word) : (r.set d v).get j = r.get j := by
  have hn : d.toNat ≠ j.toNat := fun e => hj (BitVec.eq_of_toNat_eq e.symm)
  simp only [Regs.get, Regs.set]
  split
  · rfl
  · split
    · rfl
    · exact Vector.getElem_set_ne d.isLt _ hn

@[simp] theorem set_p (r : Regs) (d : BitVec 6) (v : Word) : (r.set d v).p = r.p := by unfold Regs.set; split <;> rfl
@[simp] theorem set_pc (r : Regs) (d : BitVec 6) (v : Word) : (r.set d v).pc = r.pc := by unfold Regs.set; split <;> rfl

/-- Settles O6: the two cases of a write, to x0 and to another register. -/
theorem registerFile : Obligations.RegisterFile := fun r _ _ v =>
  ⟨get_zero r, set_zero r v, fun hd => get_set_same r hd v, fun hj => get_set_other r hj v, set_p .., set_pc ..⟩

theorem pred_setPred_other (r : Regs) {d j : BitVec 3} (hj : j ≠ d) (v : Bool) : (r.setPred d v).pred j = r.pred j := by
  have hn : d.toNat ≠ j.toNat := fun e => hj (BitVec.eq_of_toNat_eq e.symm)
  simp only [Regs.pred, Regs.setPred]
  split
  · rfl
  · split
    · rfl
    · exact Vector.getElem_set_ne d.isLt _ hn

@[simp] theorem setPred_x (r : Regs) (d : BitVec 3) (v : Bool) : (r.setPred d v).x = r.x := by unfold Regs.setPred; split <;> rfl

/-! ### Each instruction as its table gives it (R115 to R117, R121) -/

section
variable {f f' : Word → Word → Word} {u u' : Word → Word} {d a : BitVec 6} {b : Src} {w v : Word} {g : BitVec 4}

theorem sr2_value (h : ∀ x y, f x y = f' x y) : sr2 f d a b g s = sr2 f' d a b g s := by
  rw [funext₂ h]

theorem sr1_value (h : ∀ x, u x = u' x) : sr1 u d a g s = sr1 u' d a g s := by
  rw [funext h]

theorem si2_value (h : ∀ x y, f x y = f' x y) (hw : w = v) : si2 f w d a g s = si2 f' v d a g s := by
  rw [funext₂ h, hw]

end

/-- Tables 04-1 and R121: the two-operand instructions. -/
theorem exec_aluTwo {i : Instr} {d a : BitVec 6} {b : Src} {g : BitVec 4} {f : Word → Word → Word} (h : aluTwo i = some (d, a, b, g, f)) :
    exec i s = sr2 f d a b g s := by
  unfold aluTwo at h
  split at h <;> cases h
  case h_1 => exact sr2_value add_value
  case h_2 => exact sr2_value sub_value
  case h_3 => exact sr2_value mul_value
  case h_4 => rfl
  case h_5 => rfl
  case h_6 => exact sr2_value divS_value
  case h_7 => exact sr2_value divU_value
  case h_8 => exact sr2_value remS_value
  case h_9 => rfl
  case h_10 => exact sr2_value minS_value
  case h_11 => exact sr2_value maxS_value
  case h_12 => exact sr2_value minU_value
  case h_13 => exact sr2_value maxU_value
  case h_14 => exact sr2_value and_value
  case h_15 => exact sr2_value or_value
  case h_16 => exact sr2_value xor_value
  case h_17 => exact sr2_value (f := fun x y => x &&& ~~~y) andn_value
  case h_18 => exact sr2_value (f := fun x y => x <<< shCount y) shl_value
  case h_19 => exact sr2_value (f := fun x y => x >>> shCount y) shr_value
  case h_20 => exact sr2_value (f := fun x y => x.sshiftRight (shCount y)) sra_value
  case h_21 => exact sr2_value (f := fun x y => x.rotateLeft (shCount y)) rotl_value
  case h_22 => rfl
  case h_23 => exact sr2_value tadd_value

/-- Tables 04-1 and 04-2 and R121: the one-operand instructions. -/
theorem exec_aluOne {i : Instr} {d a : BitVec 6} {g : BitVec 4} {f : Word → Word} (h : aluOne i = some (d, a, g, f)) :
    exec i s = sr1 f d a g s := by
  unfold aluOne at h
  split at h <;> cases h
  case h_1 => rfl
  case h_2 => exact sr1_value (u := fun x => ofU (leadingZeros 64 x.toNat)) fun x => congrArg ofU (clz_value x)
  case h_3 => exact sr1_value (u := fun x => ofU (trailingZeros 64 x.toNat)) fun x => congrArg ofU (ctz_value x)
  case h_4 => exact sr1_value (u := fun x => ofU (oneBits 64 x.toNat)) fun x => congrArg ofU (popc_value x)
  case h_5 => exact sr1_value (u := fun x => (x.setWidth 8).signExtend 64) (sext_value 8 (by decide) (by decide))
  case h_6 => exact sr1_value (u := fun x => (x.setWidth 16).signExtend 64) (sext_value 16 (by decide) (by decide))
  case h_7 => exact sr1_value (u := fun x => (x.setWidth 32).signExtend 64) (sext_value 32 (by decide) (by decide))
  case h_8 => exact sr1_value (u := fun x => (x.setWidth 8).setWidth 64) (zext_value 8 (by decide))
  case h_9 => exact sr1_value (u := fun x => (x.setWidth 16).setWidth 64) (zext_value 16 (by decide))
  case h_10 => exact sr1_value (u := fun x => (x.setWidth 32).setWidth 64) (zext_value 32 (by decide))
  case h_11 => exact sr1_value (u := fun x => tagGet x _) fun x => tget_value x _

/-- R54 and R116: the immediate forms. -/
theorem exec_aluImm {i : Instr} {d a : BitVec 6} {g : BitVec 4} {b : Word} {f : Word → Word → Word} (h : aluImm i = some (d, a, g, b, f)) :
    exec i s = si2 f b d a g s := by
  unfold aluImm at h
  dsimp only at h
  split at h <;> cases h
  case h_1 => exact si2_value add_value (siS_value _)
  case h_2 => exact si2_value sub_value (siS_value _)
  case h_3 => exact si2_value mul_value (siS_value _)
  case h_4 => exact si2_value minS_value (siS_value _)
  case h_5 => exact si2_value maxS_value (siS_value _)
  case h_6 => exact si2_value tadd_value (siS_value _)
  case h_7 => exact si2_value and_value (siZ_value _)
  case h_8 => exact si2_value or_value (siZ_value _)
  case h_9 => exact si2_value xor_value (siZ_value _)
  case h_10 => exact si2_value (f := fun x y => x <<< shCount y) shl_value (siZ_value _)
  case h_11 => exact si2_value (f := fun x y => x >>> shCount y) shr_value (siZ_value _)
  case h_12 => exact si2_value (f := fun x y => x.sshiftRight (shCount y)) sra_value (siZ_value _)
  case h_13 => exact si2_value (f := fun x y => x.rotateLeft (shCount y)) rotl_value (siZ_value _)

theorem exec_movi (d h : BitVec 6) (g : BitVec 4) (n : BitVec 10) : exec (.movi d h g n) s = scalarX d g 4 s fun _ =>
    ofS (if h.toNat < 32 then h.toNat * 1024 + n.toNat else h.toNat * 1024 + n.toNat - 65536) := by
  rw [← movi_value]; rfl

/-- R168: the guard of a NOP holds always. -/
theorem guard_zero (r : Regs) : r.guard 0#4 = true := rfl

/-- Settles O4, from the equations of the three shapes. -/
theorem scalarResults : Obligations.ScalarResults := by
  refine ⟨fun i d a b g f r s h he => ?_, fun i d a g f r s h _ he => ?_, fun i d a g b f r s h he => ?_, fun d h g n r s he => ?_,
    fun d b g r s he => scalarX_on he.1 he.2, fun n r s hr => scalarX_on hr (guard_zero r)⟩
  · rw [exec_aluTwo h]; exact scalarX_on he.1 he.2
  · rw [exec_aluOne h]; exact scalarX_on he.1 he.2
  · rw [exec_aluImm h]; exact scalarX_on he.1 he.2
  · rw [exec_movi]; exact scalarX_on he.1 he.2

/-! ### What they leave unchanged -/

/-- The instructions that write one register are of one shape. -/
theorem exec_destOf {i : Instr} {d : BitVec 6} (h : destOf i = some d) : ∃ g n f, exec i s = scalarX d g n s f := by
  unfold destOf at h
  split at h
  case h_1 => cases h; exact ⟨_, _, _, rfl⟩
  case h_2 => cases h; exact ⟨_, _, _, rfl⟩
  case h_3 =>
    cases h2 : aluTwo i with
    | some x => rw [h2] at h; cases h; exact ⟨_, _, _, exec_aluTwo h2⟩
    | none =>
        cases h1 : aluOne i with
        | some x => rw [h2, h1] at h; cases h; exact ⟨_, _, _, exec_aluOne h1⟩
        | none =>
            cases h0 : aluImm i with
            | some x => rw [h2, h1, h0] at h; cases h; exact ⟨_, _, _, exec_aluImm h0⟩
            | none => rw [h2, h1, h0] at h; cases h

/-- So are those that write one predicate. -/
theorem exec_predOf {i : Instr} {d : BitVec 3} (h : predOf i = some d) : ∃ g n f, exec i s = scalarP d g n s f := by
  unfold predOf at h
  split at h <;> cases h <;> exact ⟨_, _, _, rfl⟩

/-- A change of one core's registers, seen through what a change of registers leaves of a core. -/
theorem core_erased_modCore {k : CoreRef} {α : Type} (u : Regs → Regs) (view : Core → α) (hv : ∀ c, view { c with regs := u c.regs } = view c) (j : CoreRef) :
    ((s.modCore k fun c => { c with regs := u c.regs }).core? j).map view = (s.core? j).map view := by
  by_cases hj : j = k
  · subst hj
    rw [coreAt_modCore (fun c => { c with regs := u c.regs }) fun _ => rfl, Option.map_map]
    exact congrFun (congrArg Option.map (funext hv)) _
  · rw [coreAt_modCore_ne hj (fun c => { c with regs := u c.regs }) fun _ => rfl]

theorem copy_kept_modCore {k : CoreRef} (f : Core → Core) (j : CoreRef) :
    ((s.modCore k f).copy? j).map (fun cp => (cp.pads, cp.home, cp.binding)) = (s.copy? j).map fun cp => (cp.pads, cp.home, cp.binding) := by
  rw [State.modCore, copy_modCopy_any _ _ _ (fun c => c.modCore k.rank f) fun _ => rfl, Option.map_map]
  refine congrFun (congrArg Option.map (funext fun cp => ?_)) _
  simp only [Function.comp]
  split <;> rfl

/-- A change of an agent's registers leaves everything else. -/
theorem onlyRegs_modRegsOf (a : Agent) (u : Regs → Regs) : onlyRegs s (s.modRegsOf a u) a := by
  cases a with
  | none => exact ⟨fun _ _ => rfl, fun _ => rfl, ⟨rfl, rfl, rfl, rfl, rfl, fun _ => rfl, fun _ => rfl⟩, rfl, rfl, rfl, rfl, rfl, rfl⟩
  | vec k => exact ⟨fun _ _ => rfl, fun _ => rfl, ⟨rfl, rfl, rfl, rfl, rfl, fun _ => rfl, fun _ => rfl⟩, rfl, rfl, rfl, rfl, rfl, rfl⟩
  | anole i =>
      refine ⟨fun b hb => ?_, fun _ => rfl, ⟨rfl, rfl, rfl, rfl, rfl, fun _ => rfl, fun _ => rfl⟩, rfl, rfl, rfl, rfl, rfl, rfl⟩
      cases b with
      | none => rfl
      | vec k => rfl
      | core k => rfl
      | anole j =>
          have hn : i.toNat ≠ j.toNat := fun e => hb (by rw [BitVec.eq_of_toNat_eq e])
          simp [State.modRegsOf, State.modAnole, State.regsOf?, Vector.getElem_set_ne _ _ hn]
  | core k =>
      rw [modRegsOf_core]
      refine ⟨fun b hb => ?_, core_erased_modCore u _ fun _ => rfl,
        ⟨rfl, rfl, rfl, rfl, rfl, copy_kept_modCore _, core_erased_modCore u _ fun _ => rfl⟩, rfl, rfl, rfl, rfl, rfl, rfl⟩
      cases b with
      | none => rfl
      | vec j => rfl
      | anole j => rfl
      | core j => exact congrArg (Option.map _) (coreAt_modCore_ne (fun e => hb (by rw [e])) _ fun _ => rfl)

/-- A change of the current agent's registers leaves everything else, and of the registers what the change leaves. -/
theorem registers_alone {u : Regs → Regs} {P : Regs → Regs → Prop} (hp : ∀ r, s.regs? = some r → P r (u r)) :
    onlyRegs s (s.modRegs u) s.cur ∧ ∀ r, s.regs? = some r → ∃ q, (s.modRegs u).regs? = some q ∧ P r q := by
  refine ⟨onlyRegs_modRegsOf s.cur u, fun r hr => ⟨u r, ?_, hp r hr⟩⟩
  rw [State.regs?, State.modRegs, modRegsOf_cur, regsOf_modRegsOf, show s.regsOf? s.cur = some r from hr]
  rfl

/-- What an instruction leaves that changes the registers by `u` when its guard holds, and else advances the pc. -/
theorem guarded_frame {t : State} {r : Regs} {g : BitVec 4} {n : Nat} {v : Regs} {P : Regs → Regs → Prop} (hr : s.regs? = some r)
    (h : t = if r.guard g = true then s.modRegs fun _ => v.skip n else s.modRegs fun r => r.skip n) (hv : P r (v.skip n)) (hs : ∀ r, P r (r.skip n)) :
    onlyRegs s t s.cur ∧ ∀ r, s.regs? = some r → ∃ q, t.regs? = some q ∧ P r q := by
  subst h
  split
  · exact registers_alone fun r' hr' => by rw [hr] at hr'; cases hr'; exact hv
  · exact registers_alone fun r' _ => hs r'

theorem scalarX_frame {t : State} {d : BitVec 6} {g : BitVec 4} {n : Nat} {f : Regs → Word} (h : scalarX d g n s f = .next t) :
    onlyRegs s t s.cur ∧ ∀ r, s.regs? = some r → ∃ q, t.regs? = some q ∧ q.p = r.p ∧ ∀ j, j ≠ d → q.get j = r.get j := by
  unfold scalarX at h
  split at h
  case h_1 => cases h
  case h_2 r hr =>
    refine guarded_frame (P := fun r q => q.p = r.p ∧ ∀ j, j ≠ d → q.get j = r.get j) hr (g := g) (n := n) (v := r.set d (f r)) ?_
      ⟨set_p .., fun j hj => get_set_other r hj _⟩ fun _ => ⟨rfl, fun _ _ => rfl⟩
    split at h <;> cases h <;> simp [*]

theorem scalarP_frame {t : State} {d : BitVec 3} {g : BitVec 4} {n : Nat} {f : Regs → Bool} (h : scalarP d g n s f = .next t) :
    onlyRegs s t s.cur ∧ ∀ r, s.regs? = some r → ∃ q, t.regs? = some q ∧ q.x = r.x ∧ ∀ j, j ≠ d → q.pred j = r.pred j := by
  unfold scalarP at h
  split at h
  case h_1 => cases h
  case h_2 r hr =>
    refine guarded_frame (P := fun r q => q.x = r.x ∧ ∀ j, j ≠ d → q.pred j = r.pred j) hr (g := g) (n := n) (v := r.setPred d (f r)) ?_
      ⟨setPred_x .., fun j hj => pred_setPred_other r hj _⟩ fun _ => ⟨rfl, fun _ _ => rfl⟩
    split at h <;> cases h <;> simp [*]

/-- Settles O8, from the frames of the two shapes. -/
theorem registerFrame : Obligations.RegisterFrame := by
  refine fun i s t h => ⟨fun d hd => ?_, fun d hd => ?_⟩
  · obtain ⟨g, n, f, hx⟩ := exec_destOf (s := s) hd
    exact scalarX_frame (hx.symm.trans h)
  · obtain ⟨g, n, f, hx⟩ := exec_predOf (s := s) hd
    exact scalarP_frame (hx.symm.trans h)

end Sys2Proof.Proofs
end

section
/-! The device after power-on (R47, R389, R405, R406). -/

namespace Sys2Proof.Proofs

open Sys2Proof.Machine Sys2Proof.Laws

/-- The bytes of a number that bytes spell (R6). -/
theorem leNat_byte (bs : List Byte) (j : Nat) : leNat bs / 2 ^ (8 * j) % 2 ^ 8 = (bs.getD j 0#8).toNat := by
  induction bs generalizing j with
  | nil => simp [leNat]
  | cons b t ih =>
      have hb := b.isLt
      cases j with
      | zero => simp only [leNat, Nat.mul_zero, Nat.pow_zero, Nat.div_one, List.getD_cons_zero]; omega
      | succ j =>
          rw [List.getD_cons_succ, ← ih j, leNat, show 8 * (j + 1) = 8 + 8 * j by omega, Nat.pow_add, ← Nat.div_div_eq_div_mul]
          congr 2; omega

/-! ### SYS words at reset -/

theorem reset_sysW (off : Nat) : State.reset.sysW off = sysReset (off / 8 * 8) := rfl

/-- Below the access tables nothing but the two words that report the firmware and the power limit differs from zero. -/
theorem reset_sysW_zero {off : Nat} (h : off < 0x01000000) (h0 : off / 8 ≠ 0) (h4 : off / 8 ≠ 4) : State.reset.sysW off = 0#64 := by
  rw [reset_sysW, sysReset, if_neg (by omega), if_neg (by omega), if_neg (by omega)]

theorem reset_sysF_zero {off : Nat} (h : off < 0x01000000) (h0 : off / 8 ≠ 0) (h4 : off / 8 ≠ 4) (lo n : Nat) : State.reset.sysF off lo n = 0 := by
  rw [State.sysF, reset_sysW_zero h h0 h4, fieldNat_eq]; simp

theorem accessReset_lt (off : Nat) : accessReset off < 256 := by unfold accessReset; split_ifs <;> decide

theorem reset_sysByte {off : Nat} (h : 0x01000000 ≤ off) : State.reset.sysByte off = accessReset off := by
  have hm : off % 8 < 8 := Nat.mod_lt _ (by decide)
  have hb := accessReset_lt off
  rw [State.sysByte, State.sysF, reset_sysW, sysReset, if_neg (by omega), if_neg (by omega), if_pos (by omega), fieldNat_eq, BitVec.toNat_ofNat,
    Nat.mod_eq_of_lt (leNat_lt _ |>.trans_eq (by simp)), Nat.mul_comm (off % 8) 8, leNat_byte]
  simp [hm, show off / 8 * 8 + off % 8 = off by omega, Nat.mod_eq_of_lt hb]

/-- R389: the access bytes of every target. -/
theorem reset_accessByte {base n i m : Nat} (h : (base, n) ∈ accessTargets) (hi : i < n) (hm : m < 128) :
    State.reset.sysByte (base + 128 * i + m) = if m = 44 then 0x1F else if base = 0x01300000 ∧ (m = 0 ∨ m = 16) then 0x03 else 0 := by
  have inside : isAccessOff (base + 128 * i + m) = true :=
    List.any_eq_true.2 ⟨(base, n), h, by simp only [Bool.and_eq_true, decide_eq_true_eq]; omega⟩
  have place : 0x01000000 ≤ base ∧ base % 128 = 0 ∧ (0x01300000 ≤ base + 128 * i + m ↔ base = 0x01300000) := by
    simp only [accessTargets, List.mem_cons, Prod.mk.injEq, List.not_mem_nil, or_false] at h
    omega
  obtain ⟨low, aligned, pages⟩ := place
  rw [reset_sysByte (by omega), accessReset, if_pos inside, show (base + 128 * i + m) % 128 = m by omega]
  simp only [Bool.and_eq_true, Bool.or_eq_true, decide_eq_true_eq, pages]

/-- Settles O15. -/
theorem resetState : Obligations.ResetState := by
  refine ⟨rfl, rfl, rfl, by decide, fun q => ?_, fun c => ?_, fun a => rfl, fun b => ?_, by decide, by decide, fun base n i m => reset_accessByte⟩
  · have := q.isLt
    exact reset_sysF_zero (by unfold qdOff; omega) (by unfold qdOff; omega) (by unfold qdOff; omega) _ _
  · have := c.isLt
    exact reset_sysF_zero (by unfold cxOff; omega) (by unfold cxOff; omega) (by unfold cxOff; omega) _ _
  · rw [State.readyBit, reset_sysF_zero (by decide) (by decide) (by decide)]; rfl

end Sys2Proof.Proofs
end

section
/-! Tokens: what the first steps of a cycle (R133) leave of a core, and what a change of a token leaves. -/

namespace Sys2Proof.Proofs

open Sys2Proof.Machine Sys2Proof.Laws

variable {s : State} {k : CoreRef} {l : Launch} {cp : Copy} {c d : Core} {g : BitVec 4}

/-! ### A change of a token -/

theorem wake_sync (c : Core) : c.wake.sync = c.sync := by
  unfold Core.wake; split <;> rfl

/-- A change of a token changes that token alone, of what synchronises. -/
theorem modTok_sync (c : Core) (e : BitVec 6) (f : Token → Token) :
    (c.modTok e f).sync = { c.sync with tokens := c.sync.tokens.set e.toNat (f c.sync.tokens[e.toNat]) } := by
  unfold Core.modTok
  dsimp only
  split
  · rfl
  · exact wake_sync _

/-- What the operations on tokens leave of a core: its rank, its policy, and that it is not blocked. -/
structure TokensOnly (c d : Core) : Prop where
  rank : d.rank = c.rank
  policy : d.policy = c.policy
  block : c.block = .none → d.block = .none

theorem TokensOnly.refl (c : Core) : TokensOnly c c := ⟨rfl, rfl, id⟩

theorem TokensOnly.trans {x : Core} (h : TokensOnly c d) (h' : TokensOnly d x) : TokensOnly c x :=
  ⟨h'.rank.trans h.rank, h'.policy.trans h.policy, fun hb => h'.block (h.block hb)⟩

theorem tokensOnly_foldl {α : Type} {f : Core → α → Core} (hf : ∀ d x, TokensOnly d (f d x)) (xs : List α) (c : Core) : TokensOnly c (xs.foldl f c) := by
  induction xs generalizing c with
  | nil => exact .refl c
  | cons x t ih => exact (hf c x).trans (ih _)

theorem tokensOnly_wake (c : Core) : TokensOnly c c.wake := by
  unfold Core.wake
  split
  next h => exact ⟨rfl, rfl, fun hb => rfl⟩
  all_goals exact .refl c

theorem tokensOnly_modTok (c : Core) (e : BitVec 6) (f : Token → Token) : TokensOnly c (c.modTok e f) := by
  have written : TokensOnly c { c with sync := { c.sync with tokens := c.sync.tokens.set e.toNat (f (c.tok e)) } } := ⟨rfl, rfl, id⟩
  unfold Core.modTok
  dsimp only
  split
  · exact written
  · exact written.trans (tokensOnly_wake _)

/-- A source of a term gives up the term's threshold. -/
def takeThreshold (w : Word) (c : Core) (e : BitVec 6) : Core :=
  c.modTok e fun t => { t with count := t.count - termThr w, left := t.left - termThr w }

/-- The sources of a term give up its threshold, each once. -/
def takeThresholds (w : Word) (c : Core) : Core := (termSources w).foldl (takeThreshold w) c

/-- Term `i`, with the word `w`, has fired: it is no longer due, it is disabled if it is a one-shot term, and it arrives or posts. -/
def termFired (w : Word) (i : Nat) (c : Core) : Core :=
  let d := { c with sync := { c.sync with
    calico := Vector.ofFn (n := 16) fun j => if j.val = i && fieldNat w 36 2 = 1 then putField c.sync.calico[j.val] 36 2 0 else c.sync.calico[j.val]
    due := c.sync.due.filter fun j => j != i } }
  if bitAt w 35 then d.queueArrival { bar := w.extractLsb' 28 7, src := .calico i, after := [] }
  else { d with sync := { d.sync with posts := d.sync.posts ++ [w.extractLsb' 22 6] } }

theorem fire_eq (c : Core) (i : Nat) : c.fire i = termFired (c.sync.calico.toList.getD i 0#64) i (takeThresholds (c.sync.calico.toList.getD i 0#64) c) := rfl

theorem tokensOnly_takeThresholds (w : Word) (c : Core) : TokensOnly c (takeThresholds w c) :=
  tokensOnly_foldl (fun d e => tokensOnly_modTok d e _) _ _

theorem termFired_keeps (w : Word) (i : Nat) (c : Core) :
    (termFired w i c).rank = c.rank ∧ (termFired w i c).policy = c.policy ∧ (termFired w i c).block = c.block ∧
      (termFired w i c).sync.tokens = c.sync.tokens ∧ (termFired w i c).sync.barriers = c.sync.barriers := by
  unfold termFired Core.queueArrival
  split <;> simp only [and_self]

theorem tokensOnly_termFired (w : Word) (i : Nat) (c : Core) : TokensOnly c (termFired w i c) := by
  obtain ⟨rank, policy, block, -, -⟩ := termFired_keeps w i c
  exact ⟨rank, policy, fun h => block.trans h⟩

theorem tokensOnly_fire (c : Core) (i : Nat) : TokensOnly c (c.fire i) :=
  (tokensOnly_takeThresholds _ c).trans (tokensOnly_termFired _ i _)

theorem tokensOnly_satisfied (c : Core) (e : BitVec 6) (w : TokWait) : TokensOnly c (c.satisfied e w) := by
  unfold Core.satisfied
  split
  · exact ⟨rfl, rfl, id⟩
  · split
    · exact ⟨rfl, rfl, fun _ => rfl⟩
    all_goals exact .refl c

theorem tokensOnly_satisfyOldest {e : BitVec 6} (h : c.satisfyOldest e = some d) : TokensOnly c d := by
  unfold Core.satisfyOldest at h
  dsimp only at h
  split at h
  · cases h
  · split at h
    · cases h
    · cases h
      exact (tokensOnly_modTok c e _).trans (tokensOnly_satisfied ..)

theorem tokensOnly_satisfyToken (e : BitVec 6) (n : Nat) (c : Core) : TokensOnly c (Core.satisfyToken e n c) := by
  induction n generalizing c with
  | zero => exact .refl c
  | succ n ih =>
      rw [Core.satisfyToken]
      split
      next d hd => exact (tokensOnly_satisfyOldest hd).trans (ih d)
      next => exact .refl c

/-- Steps 1 and 2 of R133. -/
theorem tokensOnly_tokenCycle (c : Core) : TokensOnly c c.tokenCycle :=
  (tokensOnly_foldl tokensOnly_fire c.sync.due c).trans (tokensOnly_foldl (fun d e => tokensOnly_satisfyToken e _ d) _ _)

/-- The token that an instruction of a core that is not blocked changes after these steps. -/
theorem tokenCycle_modTok (h : c.block = .none) (e : BitVec 6) (f : Token → Token) :
    c.tokenCycle.modTok e f = c.tokenCycle.putTok e (f c.tokenCycle.sync.tokens[e.toNat]) :=
  modTok_awake ((tokensOnly_tokenCycle c).block h) e f

theorem tokenCycle_modTok_rank (c : Core) (e : BitVec 6) (f : Token → Token) : (c.tokenCycle.modTok e f).rank = c.rank :=
  (modTok_rank e f).trans (tokensOnly_tokenCycle c).rank

end Sys2Proof.Proofs
end

section
/-! The token instructions (R134 to R138). -/

namespace Sys2Proof.Proofs

open Sys2Proof.Machine Sys2Proof.Laws

variable {s : State} {k : CoreRef} {l : Launch} {cp : Copy} {c : Core} {g : BitVec 4} {e : BitVec 6} {b : Src} {n : Int}

theorem theCore_turn (ht : s.CoreTurn k l cp c) : theCore s = .ok ((k, l, cp, c), s) := theCore_run ht.cur ht.launch ht.copy ht.core

/-! ### TSET (R134) -/

/-- Whether an earlier command still names the token. -/
theorem blocksTset_iff : (c.eng.cmds.any fun m => m.blocksTset e) = true ↔
    ∃ m ∈ c.eng.cmds, (m.post = e ∧ e ≠ 63#6) ∨ (m.state = .queued ∧ e ∈ m.waitsOn) := by
  simp only [List.any_eq_true, Cmd.blocksTset, Bool.or_eq_true, Bool.and_eq_true, beq_iff_eq, bne_iff_ne, List.contains_iff_mem]
  constructor
  · rintro ⟨m, hm, h | ⟨rfl, h⟩⟩
    · exact ⟨m, hm, .inr h⟩
    · exact ⟨m, hm, .inl ⟨rfl, h⟩⟩
  · rintro ⟨m, hm, ⟨rfl, h⟩ | h⟩
    · exact ⟨m, hm, .inr ⟨rfl, h⟩⟩
    · exact ⟨m, hm, .inl h⟩

/-- A core whose token `e` an instruction has set. -/
def setToken (c : Core) (e : BitVec 6) (n : Int) : Core :=
  c.tokenCycle.modTok e fun _ => { Token.zero with count := n.toNat, base := n.toNat }

theorem setToken_rank (c : Core) (e : BitVec 6) (n : Int) : (setToken c e n).rank = c.rank := tokenCycle_modTok_rank c e _

section
variable (ht : s.CoreTurn k l cp c) (he : s.executes c.regs g) (hn : n = (srB c.regs b).toInt)
include ht he hn

theorem tset_tooLarge (h : 65535 < n) : traps (.tset e b g) s s (Trap.mk' 0x09) := by
  have op : signedOp c.regs b = n := hn.symm
  refine scalar_trap he ?_
  rw [bind_ok (theCore_turn ht)]
  simp [op, h]

theorem tset_waits (h : n ≤ 65535) (hm : ∃ m ∈ c.eng.cmds, (m.post = e ∧ e ≠ 63#6) ∨ (m.state = .queued ∧ e ∈ m.waitsOn)) :
    exec (.tset e b g) s = .next s := by
  have op : signedOp c.regs b = n := hn.symm
  refine scalar_hold he ?_
  rw [bind_ok (theCore_turn ht)]
  simp only [op, blocksTset_iff.2 hm, show ¬ 65535 < n by omega]
  rfl

/-- What TSET does once nothing holds it back. -/
theorem tset_run (h : n ≤ 65535) (hm : ∀ m ∈ c.eng.cmds, (m.post = e → e = 63#6) ∧ (m.state = .queued → e ∉ m.waitsOn)) :
    exec (.tset e b g) s = scalar g (srLen b) s fun _ => (do
      onCore k fun c => setToken c e n
      if n < 0 then do
        onCore k fun c => { c with policy := c.policy.underflow e }
        raiseIf c.policy.trap (Trap.mk' 0x0A)
      pure .adv : Act Next) := by
  have op : signedOp c.regs b = n := hn.symm
  have free : (c.eng.cmds.any fun m => m.blocksTset e) = false := by
    rw [← Bool.not_eq_true, blocksTset_iff]
    rintro ⟨m, hmem, ⟨hp, h63⟩ | ⟨hq, hw⟩⟩
    · exact h63 ((hm m hmem).1 hp)
    · exact (hm m hmem).2 hq hw
  show scalar _ _ _ _ = _
  rw [scalar_on he.1 he.2, scalar_on he.1 he.2]
  congr 1
  unfold runAct
  rw [bind_ok (theCore_turn ht)]
  simp only [op, free, show ¬ 65535 < n by omega]
  rfl

end

/-- Settles O21. -/
theorem tokenSet : Obligations.TokenSet := by
  intro s k l cp c g e b n ht he hb hn
  have set (m : Int) : setToken c e m = c.tokenCycle.putTok e { Token.zero with count := m.toNat, base := m.toNat } := tokenCycle_modTok hb e _
  have done := onlyCore_step (onlyCore_refl ht.core) (fun c => setToken c e n) (fun x => setToken_rank x e n) (set n)
  refine ⟨tset_tooLarge ht he hn, fun hm hle => tset_waits ht he hn hle hm, fun hm => ⟨fun h0 hle => ?_, ?_⟩⟩
  · rw [tset_run ht he hn hle hm]
    rw [Int.toNat_of_nonneg h0] at done
    exact scalar_core ht he (by rw [if_neg (by omega)]; rfl) done
  · have kept : (c.tokenCycle.putTok e Token.zero).policy = c.policy := (tokensOnly_tokenCycle c).policy
    have under (h0 : n < 0) := onlyCore_step done (fun c => { c with policy := c.policy.underflow e })
      (d := { c.tokenCycle.putTok e Token.zero with policy := c.policy.underflow e }) (fun _ => rfl) (by rw [Int.toNat_of_nonpos (by omega), ← kept]; rfl)
    refine ⟨fun h0 hp => ?_, fun h0 hp => ⟨_, ?_, under h0⟩⟩
    · rw [tset_run ht he hn (by omega) hm]
      exact scalar_core ht he (by rw [if_pos h0, hp]; rfl) (under h0)
    · rw [traps, tset_run ht he hn (by omega) hm]
      exact scalar_trap he (by rw [if_pos h0, hp]; rfl)

end Sys2Proof.Proofs
end

section
/-! TPOST, TWAIT and TTEST (R135, R136, R138). -/

namespace Sys2Proof.Proofs

open Sys2Proof.Machine Sys2Proof.Laws

variable {s : State} {k : CoreRef} {l : Launch} {cp : Copy} {c : Core} {g : BitVec 4} {e : BitVec 6} {b : Src} {n w : Int} {x : Token}

/-- `sr.tokerr` after an instruction on token `e` that underflows, or does not (R137). -/
def underflowed (p : Policy) (e : BitVec 6) (u : Bool) : Policy := if u then p.underflow e else p

theorem underflowed_trap (p : Policy) (e : BitVec 6) (u : Bool) : (underflowed p e u).trap = p.trap := by
  cases u <;> rfl

/-- A core whose control core has pushed a wait of `v`, taken from the base of token `e`, and is blocked by it; `u`: it has underflowed. -/
def waitPushed (e : BitVec 6) (v : Int) (next : Word) (u : Bool) (c : Core) : Core :=
  { (c.modTok e fun t => { t with base := t.base - v, queue := t.queue ++ [{ cmd := none, amount := v.toNat }] }) with
    block := .token e next (u && c.policy.trap) }

theorem waitPushed_awake (hb : c.block = .none) (e : BitVec 6) (v : Int) (next : Word) (u : Bool) :
    waitPushed e v next u { c with policy := underflowed c.policy e u } =
      { c.putTok e { c.tok e with base := (c.tok e).base - v, queue := (c.tok e).queue ++ [{ cmd := none, amount := v.toNat }] } with
        policy := underflowed c.policy e u, block := .token e next (u && c.policy.trap) } := by
  rw [waitPushed, modTok_awake (c := { c with policy := underflowed c.policy e u }) hb, underflowed_trap]
  rfl

section
variable (ht : s.CoreTurn k l cp c) (he : s.executes c.regs g) (hn : n = (srB c.regs b).toInt) (hw : w = (c.tok e).credit)
include ht he hn hw

theorem tpost_fault (h : n < -65535 ∨ 65535 < n ∨ (0 ≤ n ∧ 65535 < w + n)) : traps (.tpost e b g) s s (Trap.mk' 0x09) := by
  have op : signedOp c.regs b = n := hn.symm
  refine scalar_trap he ?_
  rw [bind_ok (theCore_turn ht)]
  by_cases hr : n < -65535 ∨ 65535 < n
  · have range : (decide (n < -65535) || decide (65535 < n)) = true := by simpa using hr
    simp only [op, range, raiseIf_true, raise_bind]
    rfl
  · have range : (decide (n < -65535) || decide (65535 < n)) = false := by simpa using hr
    obtain ⟨h0, hc⟩ : 0 ≤ n ∧ 65535 < w + n := by omega
    have full : (c.tok e).pushPost n.toNat = none := by rw [Token.pushPost, ← hw, Int.toNat_of_nonneg h0, if_pos hc]
    simp only [op, range, raiseIf_false, pure_bind_act, if_pos h0, full]
    rfl

theorem tpost_add (hb : c.block = .none) (h0 : 0 ≤ n) (hr : n ≤ 65535) (hc : w + n ≤ 65535) {y : Token} (hy : y = c.tokenCycle.sync.tokens[e.toNat]) :
    ∃ t, exec (.tpost e b g) s = .next t ∧ onlyCore s t k
      ((c.tokenCycle.putTok e { y with count := min 65535 (y.count + n.toNat), posts := (c.tok e).posts + n.toNat }).past (srLen b)) := by
  have op : signedOp c.regs b = n := hn.symm
  have range : (decide (n < -65535) || decide (65535 < n)) = false := by simp; omega
  have posted : (c.tok e).pushPost n.toNat = some { c.tok e with posts := (c.tok e).posts + n.toNat } := by
    rw [Token.pushPost, ← hw, Int.toNat_of_nonneg h0, if_neg (by omega)]
  have added := onlyCore_step (onlyCore_refl ht.core)
    (fun d => d.tokenCycle.modTok e fun t => { t with count := min 65535 (t.count + n.toNat), posts := (c.tok e).posts + n.toNat })
    (fun d => tokenCycle_modTok_rank d e _) (tokenCycle_modTok hb e _)
  subst hy
  refine scalar_core ht he ?_ added
  rw [bind_ok (theCore_turn ht)]
  simp only [op, range, raiseIf_false, pure_bind_act, if_pos h0, posted]
  rfl

section
variable {v : Int} {u : Bool} (h0 : n < 0) (hr : -65535 ≤ n) (hv : v = min (-n) (max w 0)) (hu : u = decide (v < -n))
include h0 hr hv hu

/-- A TPOST of a negative operand takes `v`, what the wait credit allows of it, and underflows when that is less. -/
theorem tpost_take : exec (.tpost e b g) s = scalar g (srLen b) s fun r => (do
      onCore k fun c => { c with policy := underflowed c.policy e u }
      if v = 0 then do
        raiseIf (u && c.policy.trap) (Trap.mk' 0x0A)
        pure .adv
      else do
        onCore k (waitPushed e v (r.pc + ofU (srLen b)) u)
        pure (.goto r.pc) : Act Next) := by
  have op : signedOp c.regs b = n := hn.symm
  have range : (decide (n < -65535) || decide (65535 < n)) = false := by simp; omega
  show scalar _ _ _ _ = _
  rw [scalar_on he.1 he.2, scalar_on he.1 he.2]
  unfold runAct
  rw [bind_ok (theCore_turn ht)]
  simp only [op, range, raiseIf_false, pure_bind_act, if_neg (show ¬ 0 ≤ n by omega), ← hw, ← hv, ← hu]
  rfl

/-- What it takes is a wait of the control core. -/
theorem tpost_blocks (hb : c.block = .none) (hv0 : v ≠ 0) : ∃ t, exec (.tpost e b g) s = .next t ∧ onlyCore s t k
    { c.putTok e { c.tok e with base := (c.tok e).base - v, queue := (c.tok e).queue ++ [{ cmd := none, amount := v.toNat }] } with
      policy := underflowed c.policy e u, block := .token e (c.regs.pc + ofU (srLen b)) (u && c.policy.trap) } := by
  have noted := onlyCore_step (onlyCore_refl ht.core) (fun c => { c with policy := underflowed c.policy e u }) (fun _ => rfl) rfl
  have pushed := onlyCore_step noted (waitPushed e v (c.regs.pc + ofU (srLen b)) u) (fun _ => modTok_rank e _) (waitPushed_awake hb ..)
  rw [tpost_take ht he hn hw h0 hr hv hu]
  exact scalar_stay ht he (by rw [if_neg hv0]; rfl) pushed rfl

/-- With nothing to take it goes on, unless the underflow traps. -/
theorem tpost_takesNothing (hv0 : v = 0) (hp : (u && c.policy.trap) = false) : ∃ t, exec (.tpost e b g) s = .next t ∧
    onlyCore s t k { c.past (srLen b) with policy := underflowed c.policy e u } := by
  have noted := onlyCore_step (onlyCore_refl ht.core) (fun c => { c with policy := underflowed c.policy e u }) (fun _ => rfl) rfl
  rw [tpost_take ht he hn hw h0 hr hv hu]
  exact scalar_core ht he (by rw [if_pos hv0, hp]; rfl) noted

theorem tpost_underflowTraps (hv0 : v = 0) (hp : (u && c.policy.trap) = true) : ∃ t, traps (.tpost e b g) s t (Trap.mk' 0x0A) ∧
    onlyCore s t k { c with policy := underflowed c.policy e u } := by
  have noted := onlyCore_step (onlyCore_refl ht.core) (fun c => { c with policy := underflowed c.policy e u }) (fun _ => rfl) rfl
  refine ⟨_, ?_, noted⟩
  rw [traps, tpost_take ht he hn hw h0 hr hv hu]
  exact scalar_trap he (by rw [if_pos hv0, hp]; rfl)

end

theorem twait_fault (h : n < 0 ∨ 65535 < n ∨ (0 < n ∧ w < n)) : traps (.twait e b g) s s (Trap.mk' 0x09) := by
  have op : signedOp c.regs b = n := hn.symm
  refine scalar_trap he ?_
  rw [bind_ok (theCore_turn ht)]
  by_cases hr : n < 0 ∨ 65535 < n
  · have range : (decide (n < 0) || decide (65535 < n)) = true := by simpa using hr
    simp only [op, range, raiseIf_true, raise_bind]
    rfl
  · have range : (decide (n < 0) || decide (65535 < n)) = false := by simpa using hr
    obtain ⟨h0, hc⟩ : 0 < n ∧ w < n := by omega
    have short : (c.tok e).pushWait n.toNat none = none := by rw [Token.pushWait, ← hw, Int.toNat_of_nonneg (by omega), if_pos hc]
    simp only [op, range, raiseIf_false, pure_bind_act, if_neg (show ¬ n = 0 by omega), short]
    rfl

theorem twait_push (h0 : 0 < n) (hr : n ≤ 65535) (hc : n ≤ w) : exec (.twait e b g) s = scalar g (srLen b) s fun r => (do
      onCore k fun d => { d.modTok e (fun _ => { c.tok e with waits := (c.tok e).waits + n.toNat,
                                                              queue := (c.tok e).queue ++ [{ cmd := none, amount := n.toNat }] }) with
                          block := .token e (r.pc + BitVec.ofNat 64 (srLen b)) false }
      pure (.goto r.pc) : Act Next) := by
  have op : signedOp c.regs b = n := hn.symm
  have range : (decide (n < 0) || decide (65535 < n)) = false := by simp; omega
  have pushed : (c.tok e).pushWait n.toNat none = some { c.tok e with waits := (c.tok e).waits + n.toNat,
                                                                      queue := (c.tok e).queue ++ [{ cmd := none, amount := n.toNat }] } := by
    rw [Token.pushWait, ← hw, Int.toNat_of_nonneg (by omega), if_neg (by omega)]
  show scalar _ _ _ _ = _
  rw [scalar_on he.1 he.2, scalar_on he.1 he.2]
  unfold runAct
  rw [bind_ok (theCore_turn ht)]
  simp only [op, range, raiseIf_false, pure_bind_act, if_neg (show ¬ n = 0 by omega), pushed]

omit hw in
theorem twait_zero (h0 : n = 0) : exec (.twait e b g) s = scalar g (srLen b) s fun _ => pure .adv := by
  have op : signedOp c.regs b = 0 := hn.symm.trans h0
  show scalar _ _ _ _ = _
  rw [scalar_on he.1 he.2, scalar_on he.1 he.2]
  unfold runAct
  rw [bind_ok (theCore_turn ht)]
  simp only [op]
  rfl

end

/-- R138: TTEST reads the wait credit. -/
theorem ttest_reads (ht : s.CoreTurn k l cp c) (he : s.executes c.regs g) (d : BitVec 6) :
    ∃ t, exec (.ttest d e g) s = .next t ∧ onlyCore s t k { c with regs := (c.regs.set d (ofS (c.tok e).credit)).skip 4 } := by
  obtain ⟨t, hx, ho⟩ := setX_core ht.cur (onlyCore_refl ht.core) d (ofS (c.tok e).credit)
  exact scalar_core ht he ((bind_ok (theCore_turn ht)).trans (bind_ok hx)) ho

/-- Settles O22. -/
theorem tokenPostsAndWaits : Obligations.TokenPostsAndWaits := by
  refine ⟨?_, ?_⟩
  case refine_1 =>
    rintro s k l cp c g e b n x w ht he hb hn rfl hw
    replace hw : w = (c.tok e).credit := hw
    refine ⟨tpost_fault ht he hn hw, fun y hy h0 hr hc => ?_, fun hr h0 hc => ?_, fun p hp hr h0 hc => ⟨fun h => ?_, fun h ht' => ?_, fun h ht' => ?_⟩,
      fun d => hw ▸ ttest_reads ht he d⟩
    · obtain ⟨t, hx, ho⟩ := tpost_add ht he hn hw hb h0 hr hc hy
      exact ⟨t, _, hx, ho, fun h => Nat.min_eq_right h⟩
    · have taken := tpost_blocks ht he hn hw (v := -n) (u := false) h0 hr (by omega) (by simp) hb (by omega)
      rwa [sub_neg_eq_add, show (-n).toNat = n.natAbs by omega] at taken
    · subst hp
      have taken := tpost_blocks ht he hn hw (v := w) (u := true) h0 hr (by omega) (by simp; omega) hb (by omega)
      rwa [show w.toNat = w.natAbs by omega] at taken
    · subst hp
      exact tpost_takesNothing ht he hn hw (u := true) h0 hr (v := 0) (by omega) (by simp; omega) rfl ht'
    · subst hp
      exact tpost_underflowTraps ht he hn hw (u := true) h0 hr (v := 0) (by omega) (by simp; omega) rfl ht'
  case refine_2 =>
    rintro s k l cp c g e b n x w ht he hb hn rfl hw
    replace hw : w = (c.tok e).credit := hw
    have self := onlyCore_refl ht.core
    refine ⟨fun h0 => ?_, fun h0 hr hc => ?_, twait_fault ht he hn hw⟩
    · rw [twait_zero ht he hn h0]
      exact scalar_core ht he rfl self
    · rw [twait_push ht he hn hw h0 hr hc]
      refine scalar_stay ht he (bind_ok (onCore_run _ _)) (onlyCore_step self _ (fun x => modTok_rank e _) ?_) rfl
      rw [modTok_awake hb]
      rfl

end Sys2Proof.Proofs
end

section
/-! Calico terms (R32, R33, R133, R139). -/

namespace Sys2Proof.Proofs

open Sys2Proof.Machine Sys2Proof.Laws

variable {s : State} {k : CoreRef} {l : Launch} {cp : Copy} {c d : Core} {g : BitVec 4} {b : Src} {w : Word}

/-! ### The fields of a term -/

theorem bitAt_eq (w : Word) (i : Nat) : bitAt w i = decide (w.toNat / 2 ^ i % 2 = 1) := by
  rw [bitAt, BitVec.getLsbD, Nat.testBit_eq_decide_div_mod_eq]

theorem termThr_eq (w : Word) : termThr w = w.toNat / 2 ^ 12 % 2 ^ 10 := fieldNat_eq ..

/-- The layout of Table 01-5. -/
theorem termOk_iff : termOk w = true ↔ w.toNat / 2 ^ 38 = 0 ∧ w.toNat / 2 ^ 36 % 4 ≠ 3 ∧ w.toNat / 2 ^ 12 % 2 ^ 10 ≠ 0 ∧
    (w.toNat / 2 ^ 35 % 2 = 1 → w.toNat / 2 ^ 22 % 2 ^ 6 = 0) ∧ (w.toNat / 2 ^ 35 % 2 = 0 → w.toNat / 2 ^ 28 % 2 ^ 7 = 0) := by
  have hw := w.isLt
  have top : w.toNat / 2 ^ 38 % 2 ^ 26 = w.toNat / 2 ^ 38 := Nat.mod_eq_of_lt (by omega)
  simp only [termOk, termThr_eq, bitAt_eq, fieldNat_eq, top, Bool.and_eq_true, beq_iff_eq, bne_iff_ne, decide_eq_true_eq, and_assoc]
  rcases Nat.mod_two_eq_zero_or_one (w.toNat / 2 ^ 35) with h | h
  · simp only [h, zero_ne_one, if_false, false_imp_iff, true_and, forall_const, beq_iff_eq]
    rfl
  · simp only [h, one_ne_zero, if_true, false_imp_iff, and_true, forall_const, beq_iff_eq]
    rfl

theorem termSources_nodup (w : Word) : (termSources w).Nodup := by
  unfold termSources
  dsimp only
  split
  next => exact List.nodup_singleton _
  next h => exact List.nodup_cons.2 ⟨fun m => h (by simp [List.mem_singleton.1 m]), List.nodup_singleton _⟩

/-! ### TRIG -/

theorem trig_writes (ht : s.CoreTurn k l cp c) (he : s.executes c.regs g) (i : BitVec 4) (h : termOk (srB c.regs b) = true) :
    ∃ t, exec (.trig i b g) s = .next t ∧ onlyCore s t k { c with regs := c.regs.skip (srLen b), sync := { c.sync with
      calico := c.sync.calico.set i.toNat (srB c.regs b), due := c.sync.due.filter fun j => j != i.toNat } } := by
  have written := onlyCore_step (onlyCore_refl ht.core) (fun d => { d with sync := { d.sync with
    calico := d.sync.calico.set i.toNat (srB c.regs b), due := d.sync.due.filter fun j => j != i.toNat } }) (fun _ => rfl) rfl
  refine scalar_core ht he ?_ written
  rw [bind_ok (theCore_turn ht)]
  simp only [h, Bool.not_true, raiseIf_false, pure_bind_act]
  rfl

theorem trig_illegal (ht : s.CoreTurn k l cp c) (he : s.executes c.regs g) (i : BitVec 4) (h : termOk (srB c.regs b) = false) :
    traps (.trig i b g) s s (Trap.mk' 0x01) := by
  refine scalar_trap he ?_
  rw [bind_ok (theCore_turn ht)]
  simp only [h, Bool.not_false, raiseIf_true, raise_bind]
  rfl

/-! ### The terms that fire -/

/-- The word of a term, zero for a number that is none. -/
def termWord (c : Core) (i : Nat) : Word := c.sync.calico.toList.getD i 0#64

theorem termWord_eq (c : Core) (i : BitVec 4) : termWord c i.toNat = c.sync.calico[i.toNat] := by
  simp [termWord, Vector.getElem?_eq_getElem i.isLt]

/-- The decision on term `i`, after those on the lower-numbered ones: the terms that fire so far, and their sources. -/
def decideTerm (c : Core) (acc : List Nat × List (BitVec 6)) (i : Nat) : List Nat × List (BitVec 6) :=
  if c.canFire i && !((termSources (termWord c i)).any fun e => acc.2.contains e) then (acc.1 ++ [i], acc.2 ++ termSources (termWord c i)) else acc

/-- The decisions on the terms below `n`. -/
def decided (c : Core) (n : Nat) : List Nat × List (BitVec 6) := (List.range n).foldl (decideTerm c) ([], [])

theorem firing_eq (c : Core) : c.firing = (decided c 16).1 := rfl

theorem decided_succ (c : Core) (n : Nat) : decided c (n + 1) = decideTerm c (decided c n) n := by
  simp [decided, List.range_succ]

/-- The sources that are taken are those of the terms that fire. -/
theorem mem_decided_sources (c : Core) (n : Nat) (e : BitVec 6) : e ∈ (decided c n).2 ↔ ∃ j ∈ (decided c n).1, e ∈ termSources (termWord c j) := by
  induction n with
  | zero => simp [decided]
  | succ n ih =>
      rw [decided_succ, decideTerm]
      split
      · simp only [List.mem_append, List.mem_singleton, ih, or_and_right, exists_or, exists_eq_left]
      · exact ih

theorem mem_decided_succ (c : Core) (n i : Nat) : i ∈ (decided c (n + 1)).1 ↔
    i ∈ (decided c n).1 ∨ (i = n ∧ c.canFire n = true ∧ ∀ e ∈ termSources (termWord c n), e ∉ (decided c n).2) := by
  have free : ((termSources (termWord c n)).any fun e => (decided c n).2.contains e) = false ↔ ∀ e ∈ termSources (termWord c n), e ∉ (decided c n).2 := by
    simp
  rw [decided_succ, decideTerm]
  split
  next h =>
    simp only [Bool.and_eq_true, Bool.not_eq_true', free] at h
    rw [List.mem_append, List.mem_singleton, and_iff_left h]
  next h =>
    simp only [Bool.and_eq_true, Bool.not_eq_true', free] at h
    rw [or_iff_left fun x => h x.2]

theorem decided_lt (c : Core) (n : Nat) : ∀ i ∈ (decided c n).1, i < n := by
  induction n with
  | zero => simp [decided]
  | succ n ih =>
      intro i hi
      rcases (mem_decided_succ c n i).1 hi with h | ⟨rfl, -⟩
      · exact Nat.lt_succ_of_lt (ih i h)
      · exact Nat.lt_succ_self _

/-- Later decisions do not change earlier ones. -/
theorem mem_decided (c : Core) {n i : Nat} (hi : i < n) : i ∈ (decided c n).1 ↔ i ∈ (decided c (i + 1)).1 := by
  induction n with
  | zero => omega
  | succ n ih =>
      by_cases h : i = n
      · rw [h]
      · rw [mem_decided_succ, ih (by omega)]
        simp [h]

/-- R33: the terms that fire. -/
theorem mem_firing (c : Core) {i : Nat} (hi : i < 16) : i ∈ c.firing ↔ c.canFire i = true ∧
    ∀ j, j < i → j ∈ c.firing → ∀ e ∈ termSources (termWord c i), e ∉ termSources (termWord c j) := by
  have own : i ∉ (decided c i).1 := fun h => Nat.lt_irrefl _ (decided_lt c i i h)
  have earlier (j : Nat) : j ∈ (decided c i).1 ↔ j < i ∧ j ∈ c.firing := by
    constructor
    · intro h
      have hj := decided_lt c i j h
      exact ⟨hj, (mem_decided c (by omega)).2 ((mem_decided c hj).1 h)⟩
    · rintro ⟨hj, h⟩
      exact (mem_decided c hj).2 ((mem_decided c (by omega)).1 h)
  rw [firing_eq, mem_decided c hi, mem_decided_succ]
  simp only [own, false_or, true_and, mem_decided_sources, earlier, not_exists, not_and, and_imp]
  exact and_congr_right fun _ => ⟨fun h j hj hf e he => h e he j hj hf, fun h e he j hj hf => h j hj hf e he⟩

theorem canFire_iff (c : Core) (i : BitVec 4) : c.canFire i.toNat = true ↔ c.sync.calico[i.toNat].toNat / 2 ^ 36 % 4 ≠ 0 ∧
    ∀ e ∈ termSources c.sync.calico[i.toNat], c.sync.calico[i.toNat].toNat / 2 ^ 12 % 2 ^ 10 ≤ c.sync.tokens[e.toNat].count := by
  have word : c.sync.calico.toList.getD i.toNat 0#64 = c.sync.calico[i.toNat] := termWord_eq c i
  simp only [Core.canFire, word, Bool.and_eq_true, bne_iff_ne, fieldNat_eq, List.all_eq_true, decide_eq_true_eq, termThr_eq, Core.tok]
  rfl

/-- What fires depends on the terms and the counts alone. -/
theorem firing_congr (h : d.sync.calico = c.sync.calico) (ht : ∀ e, (d.tok e).count = (c.tok e).count) : d.firing = c.firing := by
  have can (i : Nat) : d.canFire i = c.canFire i := by simp only [Core.canFire, h, ht]
  simp only [Core.firing, can, h]

/-! ### The end of a cycle -/

/-- The posts of the cycle that ends are made. -/
def posted (c : Core) : Core := c.sync.posts.foldl Core.post { c with sync := { c.sync with posts := [] } }

/-- The cycle that starts: its first counts, and the terms that fire in it. -/
def startCycle (c : Core) : Core :=
  { c with sync := { c.sync with tokens := c.sync.tokens.map fun t => { t with left := t.count }, due := c.firing } }

theorem nextCycle_eq (c : Core) : c.nextCycle = startCycle (posted c.tokenCycle) := rfl

theorem startCycle_count (c : Core) (e : BitVec 6) : (startCycle c).sync.tokens[e.toNat].count = c.sync.tokens[e.toNat].count := by
  simp [startCycle]

theorem startCycle_due (c : Core) : (startCycle c).sync.due = (startCycle c).firing :=
  (firing_congr (c := c) (d := startCycle c) rfl (startCycle_count c)).symm

theorem startCycle_left (c : Core) (e : BitVec 6) : (startCycle c).sync.tokens[e.toNat].left = (startCycle c).sync.tokens[e.toNat].count := by
  simp [startCycle]

/-- Steps 1 and 2 of R133 with nothing due and no wait. -/
theorem tokenCycle_rest (hd : c.sync.due = []) (hq : ∀ i : Fin 64, c.sync.tokens[i.val].queue = []) : c.tokenCycle = c := by
  have waited : c.waited = [] := by
    simp only [Core.waited, List.map_eq_nil_iff, List.filter_eq_nil_iff]
    intro p hp
    obtain ⟨-, hi, hv⟩ := List.mem_zipIdx hp
    rw [hv]
    simpa using hq ⟨p.2, by simpa using hi⟩
  have fired : c.fireDue = c := by rw [Core.fireDue, hd]; rfl
  simp only [Core.tokenCycle, fired, waited, List.foldl_nil]

theorem post_count (c : Core) (e : BitVec 6) : (c.post e).sync.tokens[e.toNat].count =
    if c.sync.tokens[e.toNat].count < 65535 then c.sync.tokens[e.toNat].count + 1 else c.sync.tokens[e.toNat].count := by
  by_cases h : c.sync.tokens[e.toNat].count < 65535
  · rw [if_pos h, show c.post e = c.modTok e fun t => { t with count := t.count + 1 } from if_pos h, modTok_sync]
    simp
  · rw [if_neg h, show c.post e = c from if_neg h]

theorem nextCycle_post {e : BitVec 6} (hd : c.sync.due = []) (hq : ∀ i : Fin 64, c.sync.tokens[i.val].queue = []) (hp : c.sync.posts = [e]) :
    c.nextCycle.sync.tokens[e.toNat].count = if c.sync.tokens[e.toNat].count < 65535 then c.sync.tokens[e.toNat].count + 1 else c.sync.tokens[e.toNat].count := by
  have one : posted c = Core.post { c with sync := { c.sync with posts := [] } } e := by rw [posted, hp]; rfl
  rw [nextCycle_eq, startCycle_count, tokenCycle_rest hd hq, one, post_count]

/-! ### A term fires -/

/-- Each source gives up the threshold once, and nothing else that synchronises changes. -/
theorem takeThreshold_foldl (w : Word) {xs : List (BitVec 6)} (hx : xs.Nodup) (c : Core) : ∃ ts, (xs.foldl (takeThreshold w) c).sync = { c.sync with tokens := ts } ∧
    ∀ e : BitVec 6, ts[e.toNat].count = c.sync.tokens[e.toNat].count - if e ∈ xs then termThr w else 0 := by
  induction xs generalizing c with
  | nil => exact ⟨c.sync.tokens, rfl, fun e => by simp⟩
  | cons x xs ih =>
      obtain ⟨hnew, hrest⟩ := List.nodup_cons.1 hx
      obtain ⟨ts, hs, hc⟩ := ih hrest (takeThreshold w c x)
      refine ⟨ts, ?_, fun e => ?_⟩
      · rw [List.foldl_cons, hs, takeThreshold, modTok_sync]
      · rw [hc, takeThreshold, modTok_sync]
        by_cases he : e = x
        · subst he
          simp [hnew]
        · have : x.toNat ≠ e.toNat := fun h => he (BitVec.eq_of_toNat_eq h.symm)
          simp [he, this]

theorem termFired_calico (w : Word) (i j : BitVec 4) (c : Core) : (termFired w i.toNat c).sync.calico[j.toNat] =
    if j = i ∧ w.toNat / 2 ^ 36 % 4 = 1 then putField c.sync.calico[j.toNat] 36 2 0 else c.sync.calico[j.toNat] := by
  have same : j.toNat = i.toNat ↔ j = i := BitVec.toNat_inj
  unfold termFired Core.queueArrival
  split <;> simp [fieldNat_eq, same]

theorem termFired_due (w : Word) (i : Nat) (c : Core) : (termFired w i c).sync.due = c.sync.due.filter fun j => j != i := by
  unfold termFired Core.queueArrival
  split <;> simp only

theorem termFired_arrives (i : Nat) (c : Core) (h : w.toNat / 2 ^ 35 % 2 = 1) :
    (termFired w i c).sync.arrivals = c.sync.arrivals ++ [{ bar := w.extractLsb' 28 7, src := .calico i, after := [] }] ∧
      (termFired w i c).sync.posts = c.sync.posts := by
  have hb : bitAt w 35 = true := by rw [bitAt_eq, h]; rfl
  unfold termFired Core.queueArrival
  rw [if_pos hb]
  exact ⟨rfl, rfl⟩

theorem termFired_posts (i : Nat) (c : Core) (h : w.toNat / 2 ^ 35 % 2 = 0) :
    (termFired w i c).sync.arrivals = c.sync.arrivals ∧ (termFired w i c).sync.posts = c.sync.posts ++ [w.extractLsb' 22 6] := by
  have hb : bitAt w 35 ≠ true := by rw [bitAt_eq, h]; decide
  unfold termFired
  rw [if_neg hb]
  exact ⟨rfl, rfl⟩

theorem calicoTermFire_idle (hc : s.core? k = some c) {i : BitVec 4} (hi : i.toNat ∉ c.sync.due) : exec (.calicoTermFire k i) s = .next s := by
  show execCalicoTermFire k i s = _
  simp [execCalicoTermFire, hc, hi]

theorem calicoTermFire_due (hc : s.core? k = some c) {i : BitVec 4} (hi : i.toNat ∈ c.sync.due) :
    ∃ t, exec (.calicoTermFire k i) s = .next t ∧ onlyCore s t k (c.fire i.toNat) := by
  refine ⟨_, ?_, onlyCore_modCore (fun c => c.fire i.toNat) (fun c => (tokensOnly_fire c _).rank) hc⟩
  show execCalicoTermFire k i s = _
  simp [execCalicoTermFire, hc, hi]

/-- Settles O24. -/
theorem calicoTerms : Obligations.CalicoTerms := by
  refine ⟨?_, fun c i => ?_, fun c => ⟨startCycle_due _, startCycle_left _⟩, fun c e hd hq hp => nextCycle_post hd hq hp,
    fun s k c i hc hi => calicoTermFire_idle hc hi, ?_⟩
  · rintro s k l cp c g i b w ht he rfl
    refine ⟨fun h1 h2 h3 h4 h5 => trig_writes ht he i (termOk_iff.2 ⟨h1, h2, h3, h4, h5⟩), fun h => trig_illegal ht he i ?_⟩
    rw [← Bool.not_eq_true, termOk_iff]
    tauto
  · rw [mem_firing c i.isLt, canFire_iff, and_assoc]
    refine and_congr_right fun _ => and_congr_right fun _ => ⟨fun h j hj => ?_, fun h j hj => ?_⟩
    · simpa only [termWord_eq] using h j.toNat hj
    · have lt : j < 2 ^ 4 := hj.trans i.isLt
      have := h (BitVec.ofNat 4 j)
      rw [← termWord_eq, ← termWord_eq, BitVec.toNat_ofNat, Nat.mod_eq_of_lt lt] at this
      exact this hj
  · rintro s k c i w hc rfl hi
    obtain ⟨t, run, only⟩ := calicoTermFire_due hc hi
    rw [fire_eq, show c.sync.calico.toList.getD i.toNat 0#64 = c.sync.calico[i.toNat] from termWord_eq c i] at only
    obtain ⟨ts, hsync, hcount⟩ := takeThreshold_foldl c.sync.calico[i.toNat] (termSources_nodup _) c
    replace hsync : (takeThresholds c.sync.calico[i.toNat] c).sync = _ := hsync
    obtain ⟨-, -, -, tokens, barriers⟩ := termFired_keeps c.sync.calico[i.toNat] i.toNat (takeThresholds c.sync.calico[i.toNat] c)
    refine ⟨t, _, run, only, ?_, fun e => ?_, fun j hj => ?_, ?_, ?_, fun h => ?_, fun h => ?_⟩
    · rw [barriers, hsync]
    · rw [← termThr_eq, ← hcount]
      simp only [tokens, hsync]
    · rw [termFired_calico, if_neg fun h => hj h.1, hsync]
    · rw [termFired_calico, hsync]
      simp only [true_and]
    · rw [termFired_due, hsync]
    · simpa only [hsync] using termFired_arrives i.toNat (takeThresholds c.sync.calico[i.toNat] c) h
    · simpa only [hsync] using termFired_posts i.toNat (takeThresholds c.sync.calico[i.toNat] c) h

end Sys2Proof.Proofs
end

section
/-! Barriers: what one arrival leaves (R34, R361). -/

namespace Sys2Proof.Proofs

open Sys2Proof.Machine Sys2Proof.Laws

variable {s : State} {k : CoreRef} {l : Launch} {cp : Copy} {c d : Core} {x : Barrier}

theorem completes_iff (x : Barrier) : x.completes = true ↔ (x.arr.toNat + 1) % 2 ^ 16 = x.exp.toNat := by
  rw [Barrier.completes, beq_iff_eq, ← BitVec.toNat_inj, BitVec.toNat_add]
  rfl

theorem arrive_eq (x : Barrier) : x.arrive = x.counted := by
  simp only [Barrier.arrive, Barrier.counted, completes_iff]

/-! ### The segment that an arrival counts (R361) -/

/-- Closed segment `seg` counts in a generation. -/
def markSeg (seg : Nat) (gen : Nat × BitVec 7 × BitVec 16) (c : Core) : Core :=
  { c with muslin := { c.muslin with closed := c.muslin.closed.map fun g => if g.id = seg then { g with counted := some gen } else g } }

/-- The core whose segment an arrival counts. -/
def segRank (src : ArrivalSrc) (self : Nat) : Nat :=
  match src with
  | .own _ => self
  | .other rank _ => rank
  | .calico _ => self
  | .engine _ => self

/-- The segment that an arrival counts, if any. -/
def segOf (src : ArrivalSrc) : Option Nat :=
  match src with
  | .own seg => some seg
  | .other _ seg => seg
  | .calico _ => none
  | .engine _ => none

/-- What the arrival changes of the core whose segment it counts. -/
def countIn (src : ArrivalSrc) (gen : Nat × BitVec 7 × BitVec 16) (c : Core) : Core :=
  match segOf src with
  | some seg => markSeg seg gen c
  | none => c

theorem modCore_self (cp : Copy) (n : Nat) : (cp.modCore n fun c => c) = cp := by
  simp [Copy.modCore]

theorem countSeg_eq (cp : Copy) (owner : Nat) (bar : BitVec 7) (gen : BitVec 16) (src : ArrivalSrc) (self : Nat) :
    cp.countSeg owner bar gen src self = cp.modCore (segRank src self) (countIn src (owner, bar, gen)) := by
  cases src with
  | own seg => simp only [Copy.countSeg, Copy.modCore, segRank, countIn, segOf, markSeg, beq_iff_eq]
  | calico i => exact (modCore_self cp _).symm
  | engine q => exact (modCore_self cp _).symm
  | other rank seg =>
      cases seg with
      | none => exact (modCore_self cp _).symm
      | some seg => simp only [Copy.countSeg, Copy.modCore, segRank, countIn, segOf, markSeg, beq_iff_eq]

/-- What a mark on a closed segment leaves of a core. -/
structure MarkOnly (c d : Core) : Prop where
  rank : d.rank = c.rank
  regs : d.regs = c.regs
  sync : d.sync = c.sync
  block : d.block = c.block
  seg : d.muslin.seg = c.muslin.seg
  fold : d.muslin.fold = c.muslin.fold
  lines : d.muslin.lines = c.muslin.lines
  closed : d.muslin.closed.length = c.muslin.closed.length

theorem MarkOnly.refl (c : Core) : MarkOnly c c := ⟨rfl, rfl, rfl, rfl, rfl, rfl, rfl, rfl⟩

theorem markOnly_countIn (src : ArrivalSrc) (gen : Nat × BitVec 7 × BitVec 16) (c : Core) : MarkOnly c (countIn src gen c) := by
  unfold countIn
  split
  · exact ⟨rfl, rfl, rfl, rfl, rfl, rfl, rfl, List.length_map ..⟩
  · exact .refl c

/-! ### One arrival -/

/-- The core after one arrival at barrier `bar`: the barrier has counted it; a core that is not blocked is otherwise as it was, apart
from the mark on a segment and a completion noted. -/
structure Arrived (bar : BitVec 7) (c d : Core) : Prop where
  rank : d.rank = c.rank
  barriers : d.sync.barriers = c.sync.barriers.set bar.toNat c.sync.barriers[bar.toNat].counted
  tokens : d.sync.tokens = c.sync.tokens
  arrivals : d.sync.arrivals = c.sync.arrivals
  regs : c.block = .none → d.regs = c.regs
  seg : d.muslin.seg = c.muslin.seg
  fold : d.muslin.fold = c.muslin.fold
  lines : d.muslin.lines = c.muslin.lines
  closed : d.muslin.closed.length = c.muslin.closed.length

/-- A core that a completed generation of the token barrier has been noted for. -/
def noteGen (bar : BitVec 7) (gen : BitVec 16) (c : Core) : Core :=
  { c with sync := { c.sync with noted := c.sync.noted ++ [(bar, gen)] } }

theorem wake_keeps (c : Core) : c.wake.rank = c.rank ∧ c.wake.sync = c.sync ∧ c.wake.muslin = c.muslin ∧ (c.block = .none → c.wake.regs = c.regs) := by
  unfold Core.wake
  split
  next h => simp only [h, reduceCtorEq, false_imp_iff, and_self]
  all_goals simp only [implies_true, and_self]

theorem arrived_modBar {bar : BitVec 7} (h : MarkOnly c d) : Arrived bar c (d.modBar bar Barrier.arrive) := by
  obtain ⟨rank, regs, sync, -, seg, fold, lines, closed⟩ := h
  refine ⟨rank, ?_, ?_, ?_, fun _ => regs, seg, fold, lines, closed⟩
  · simp only [Core.modBar, Core.bar, sync, arrive_eq]
  · simp only [Core.modBar, sync]
  · simp only [Core.modBar, sync]

theorem Arrived.wake {bar : BitVec 7} (h : Arrived bar c d) (hb : c.block = .none → d.block = .none) : Arrived bar c d.wake := by
  obtain ⟨rank, sync, muslin, regs⟩ := wake_keeps d
  refine ⟨rank.trans h.rank, sync ▸ h.barriers, sync ▸ h.tokens, sync ▸ h.arrivals, fun hc => (regs (hb hc)).trans (h.regs hc), ?_, ?_, ?_, ?_⟩
  all_goals rw [muslin]
  · exact h.seg
  · exact h.fold
  · exact h.lines
  · exact h.closed

theorem Arrived.noteGen {bar b : BitVec 7} {gen : BitVec 16} (h : Arrived bar c d) : Arrived bar c (noteGen b gen d) :=
  ⟨h.rank, h.barriers, h.tokens, h.arrivals, h.regs, h.seg, h.fold, h.lines, h.closed⟩

/-- An arrival that a barrier takes is counted there; of other cores, only the one whose segment it counts may change. -/
theorem applyArrival_run (hctx : ctxOf k s = .ok ((l, cp, c), s)) (hc : s.core? k = some c) (a : Arrival)
    (hx : c.sync.barriers[a.bar.toNat].exp ≠ 0#16) (he : c.exited = false) :
    ∃ t d, applyArrival k a s = .ok ((), t) ∧ Arrived a.bar c d ∧ t.core? k = some d ∧
      (∀ j, j ≠ k → j ≠ atRank k (segRank a.src k.rank) → t.core? j = s.core? j) ∧ outsideCores s t := by
  let gen : BitVec 16 := c.sync.barriers[a.bar.toNat].gen
  let f := countIn a.src (k.rank, a.bar, gen)
  let s1 := s.modCore (atRank k (segRank a.src k.rank)) f
  have marked : s.modCopy k (fun cp => cp.countSeg k.rank a.bar gen a.src k.rank) = s1 := by
    simp only [countSeg_eq]; rfl
  have keeps (x : Core) : (f x).rank = x.rank := (markOnly_countIn ..).rank
  obtain ⟨d1, mark, at1⟩ : ∃ d1, MarkOnly c d1 ∧ s1.core? k = some d1 := by
    by_cases h : k = atRank k (segRank a.src k.rank)
    · refine ⟨f c, markOnly_countIn .., ?_⟩
      have := coreAt_modCore (s := s) (k := atRank k (segRank a.src k.rank)) f keeps
      rw [← h, hc] at this
      simp only [s1, ← h]
      exact this
    · exact ⟨c, .refl c, (coreAt_modCore_ne h f keeps).trans hc⟩
  have counted : Arrived a.bar c (d1.modBar a.bar Barrier.arrive) := arrived_modBar mark
  have only2 := onlyCore_step (onlyCore_refl at1) (fun x => x.modBar a.bar Barrier.arrive) (fun _ => rfl) rfl
  have woken := counted.wake fun hb => mark.block.trans hb
  have only3 := onlyCore_step only2 Core.wake (fun x => (wake_keeps x).1) rfl
  have only4 := onlyCore_step only3 (noteGen a.bar gen) (fun _ => rfl) rfl
  have chain {t : State} {d : Core} (h : onlyCore s1 t k d) : t.core? k = some d ∧
      (∀ j, j ≠ k → j ≠ atRank k (segRank a.src k.rank) → t.core? j = s.core? j) ∧ outsideCores s t :=
    ⟨h.1, fun j hj hr => (h.2.1 j hj).trans (coreAt_modCore_ne hr f keeps), outsideCores_trans (outsideCores_modCore s _ f) h.2.2⟩
  have open' : ((c.bar a.bar).exp == 0#16 || c.exited) = false := by
    simpa only [Core.bar, he, Bool.or_false, beq_eq_false_iff_ne] using hx
  have run : applyArrival k a s = (if (c.bar a.bar).completes then (do
        onCore k Core.wake
        if s.isTokenBarrier k a.bar.toNat then onCore k (noteGen a.bar gen) : Act Unit)
      else pure ()) (s1.modCore k fun x => x.modBar a.bar Barrier.arrive) := by
    rw [← marked]
    unfold applyArrival
    rw [bind_ok get_run, bind_ok hctx]
    simp only [open', raiseIf_false, pure_bind_act]
    rfl
  rw [run]
  by_cases hd : (c.bar a.bar).completes = true
  · rw [if_pos hd]
    by_cases ht : s.isTokenBarrier k a.bar.toNat = true
    · exact ⟨_, _, by rw [if_pos ht]; rfl, woken.noteGen, chain only4⟩
    · exact ⟨_, _, by rw [if_neg ht]; rfl, woken, chain only3⟩
  · rw [if_neg hd]
    exact ⟨_, _, rfl, counted, chain only2⟩

end Sys2Proof.Proofs
end

section
/-! The barrier instructions (R141 to R143). -/

namespace Sys2Proof.Proofs

open Sys2Proof.Machine Sys2Proof.Laws

variable {s : State} {k : CoreRef} {l : Launch} {cp : Copy} {c d : Core} {x : Barrier} {g : BitVec 4} {bar : BitVec 7} {b : Src}

theorem binit_sets (ht : s.CoreTurn k l cp c) (he : s.executes c.regs g) (h1 : 1 ≤ (srB c.regs b).toNat) (h2 : (srB c.regs b).toNat ≤ 65535)
    (h0 : c.sync.barriers[bar.toNat].arr = 0#16) : ∃ t, exec (.binit bar b g) s = .next t ∧
      onlyCore s t k ((c.putBar bar { c.sync.barriers[bar.toNat] with exp := BitVec.ofNat 16 (srB c.regs b).toNat }).past (srLen b)) := by
  have set : c.modBar bar (fun x => { x with exp := BitVec.ofNat 16 (srB c.regs b).toNat, arr := 0#16 }) =
      c.putBar bar { c.sync.barriers[bar.toNat] with exp := BitVec.ofNat 16 (srB c.regs b).toNat } := by
    unfold Core.modBar Core.putBar Core.bar
    rw [← h0]
  refine scalar_core ht he ?_ (onlyCore_step (onlyCore_refl ht.core) (fun c' => c'.modBar bar _) (fun _ => rfl) set)
  have ok : ((srB c.regs b).toNat == 0 || decide (65535 < (srB c.regs b).toNat) || (c.bar bar).arr != 0#16) = false := by
    simp only [Core.bar, h0, bne_self_eq_false, Bool.or_false, Bool.or_eq_false_iff, beq_eq_false_iff_ne, decide_eq_false_iff_not]
    omega
  rw [bind_ok (theCore_turn ht)]
  simp only [ok, raiseIf_false, pure_bind_act]
  rfl

theorem binit_fault (ht : s.CoreTurn k l cp c) (he : s.executes c.regs g)
    (h : (srB c.regs b).toNat = 0 ∨ 65535 < (srB c.regs b).toNat ∨ c.sync.barriers[bar.toNat].arr ≠ 0#16) :
    traps (.binit bar b g) s s (Trap.mk' 0x0B) := by
  have bad : ((srB c.regs b).toNat == 0 || decide (65535 < (srB c.regs b).toNat) || (c.bar bar).arr != 0#16) = true := by
    simpa only [Core.bar, Bool.or_eq_true, beq_iff_eq, decide_eq_true_eq, bne_iff_ne, or_assoc] using h
  refine scalar_trap he ?_
  rw [bind_ok (theCore_turn ht)]
  simp only [bad, raiseIf_true, raise_bind]
  rfl

/-! ### BARV at the core's own barrier -/

theorem arriveOwn_uninit (ht : s.CoreTurn k l cp c) (h0 : c.sync.barriers[bar.toNat].exp = 0#16) :
    arriveOwn k bar s = .error (.trap (Trap.mk' 0x0B), s) := by
  have bad : ((c.bar bar).exp == 0#16) = true := by rw [Core.bar, h0]; rfl
  unfold arriveOwn
  rw [bind_ok get_run, bind_ok (ctxOf_run ht.launch ht.copy ht.core)]
  simp only [bad, raiseIf_true, raise_bind]
  rfl

theorem barv_uninit (ht : s.CoreTurn k l cp c) (he : s.executes c.regs g) (h0 : c.sync.barriers[bar.toNat].exp = 0#16) :
    traps (.barv bar g) s s (Trap.mk' 0x0B) :=
  scalar_trap he ((bind_ok (theCore_turn ht)).trans (bind_error (arriveOwn_uninit ht h0)))

/-- A core is replaced by one of its rank. -/
theorem onlyCore_put (hc : s.core? k = some c) (hd : d.rank = c.rank) : onlyCore s (s.modCore k fun _ => d) k d := by
  obtain ⟨cp, hp, -⟩ := Option.bind_eq_some_iff.1 hc
  have rank : d.rank = k.rank := hd.trans (rank_of_core hp hc).1
  have same : (s.modCore k fun _ => d) = s.modCore k fun x => if x.rank = k.rank then d else x := by
    simp only [State.modCore, Copy.modCore, beq_iff_eq]
    congr 1
    funext cp
    congr 1
    refine List.map_congr_left fun x _ => ?_
    split <;> rfl
  rw [same]
  refine onlyCore_step (onlyCore_refl hc) (fun x => if x.rank = k.rank then d else x) (fun x => ?_) (if_pos (rank_of_core hp hc).1)
  split
  next h => exact rank.trans h.symm
  next => rfl

/-- Writes of an agent that become performed change nothing of the cores or of memory. -/
theorem onlyCore_settleOwn (hc : s.core? k = some c) (xs : List Nat) : onlyCore s (s.settleOwn xs) k c := onlyCore_refl hc

theorem takeNoted_none (ht : s.CoreTurn k l cp c) (h : c.sync.noted = []) (upto : Option (BitVec 16)) : takeNoted k bar upto s = .ok ((), s) := by
  unfold takeNoted
  rw [bind_ok get_run, bind_ok (ctxOf_run ht.launch ht.copy ht.core)]
  simp only [h, List.find?_nil]
  rfl

/-- Whether the arrival of a BARV is left to be applied later. -/
def arrivesLater (cp : Copy) (c : Core) (bar : BitVec 7) : Bool :=
  !(cp.outstanding c).isEmpty || c.sync.arrivals.any fun a => a.bar == bar && a.src.key == 0

theorem arrivesLater_iff : arrivesLater cp c bar = true ↔ (cp.outstanding c ≠ [] ∨ ∃ y ∈ c.sync.arrivals, y.bar = bar ∧ y.src.key = 0) := by
  simp [arrivesLater]

/-- The arrival of a BARV, away from the token barrier and from a replay: the segment is closed, and the arrival applied or left. -/
theorem arriveOwn_run (ht : s.CoreTurn k l cp c) (hx : c.sync.barriers[bar.toNat].exp ≠ 0#16) (hn : c.sync.noted = [])
    (hlive : l.log.length ≤ cp.replay) (htok : s.isTokenBarrier k bar.toNat = false) : arriveOwn k bar s =
    (if arrivesLater cp c bar then
      onCore k fun d => d.queueArrival { bar := bar, src := .own c.muslin.seg, after := cp.outstanding c }
    else do
      applyArrival k { bar := bar, src := .own c.muslin.seg, after := [] }
      onCore k fun d => { d with sync := { d.sync with noted := c.sync.noted } } : Act Unit)
      ((s.settleOwn (s.agentsOf k)).modCore k fun _ => c.segClosed) := by
  have ok : ((c.bar bar).exp == 0#16) = false := by simpa only [Core.bar, beq_eq_false_iff_ne] using hx
  have live : nextIsBinding l cp c.rank bar = none := if_neg (by omega)
  have now : coreNow k (s.settleOwn (s.agentsOf k)) = .ok (c, s.settleOwn (s.agentsOf k)) := by
    rw [coreNow, bind_ok get_run, show (s.settleOwn (s.agentsOf k)).core? k = some c from ht.core]
    rfl
  unfold arriveOwn
  rw [bind_ok get_run, bind_ok (ctxOf_run ht.launch ht.copy ht.core)]
  simp only [ok, raiseIf_false, pure_bind_act]
  rw [bind_ok (takeNoted_none ht hn none)]
  simp only [live, htok, Option.getD_none, Bool.and_false, if_neg Bool.false_ne_true]
  rw [bind_ok (modify_run _), bind_ok now, bind_ok (onCore_run k _)]
  rfl

theorem onlyCore_segClosed (ht : s.CoreTurn k l cp c) : onlyCore s ((s.settleOwn (s.agentsOf k)).modCore k fun _ => c.segClosed) k c.segClosed :=
  onlyCore_trans (onlyCore_settleOwn ht.core _) (onlyCore_put (onlyCore_settleOwn ht.core _).1 rfl)

theorem barv_done {t : State} (ht : s.CoreTurn k l cp c) (he : s.executes c.regs g) (h : arriveOwn k bar s = .ok ((), t)) (ho : onlyCore s t k d) :
    ∃ u, exec (.barv bar g) s = .next u ∧ onlyCore s u k (d.past 4) := by
  refine scalar_core ht he ?_ ho
  rw [bind_ok (theCore_turn ht)]
  exact bind_ok h

section
variable (ht : s.CoreTurn k l cp c) (he : s.executes c.regs g) (hx : c.sync.barriers[bar.toNat].exp ≠ 0#16) (hn : c.sync.noted = [])
  (hlive : l.log.length ≤ cp.replay) (htok : s.isTokenBarrier k bar.toNat = false)
include ht he hx hn hlive htok

theorem barv_later (h : arrivesLater cp c bar = true) : ∃ t, exec (.barv bar g) s = .next t ∧
    onlyCore s t k { c.segClosed.past 4 with sync := { c.sync with
      arrivals := c.sync.arrivals ++ [{ bar := bar, src := .own c.muslin.seg, after := cp.outstanding c }] } } := by
  have queued := onlyCore_step (onlyCore_segClosed ht) (fun d => d.queueArrival { bar := bar, src := .own c.muslin.seg, after := cp.outstanding c })
    (fun _ => rfl) rfl
  refine barv_done ht he ?_ queued
  rw [arriveOwn_run ht hx hn hlive htok, if_pos h]
  rfl

theorem barv_now (h : ¬ arrivesLater cp c bar = true) (hex : c.exited = false) :
    ∃ t d, exec (.barv bar g) s = .next t ∧ onlyCore s t k (d.past 4) ∧ Arrived bar c.segClosed d := by
  have only := onlyCore_segClosed ht
  obtain ⟨l', cp', hctx, -⟩ := ctxOf_only ht.launch ht.copy only
  obtain ⟨t, d, hrun, hd, hcore, hother, hout⟩ := applyArrival_run hctx only.1 { bar := bar, src := .own c.muslin.seg, after := [] } hx hex
  have arrived : onlyCore s t k d := onlyCore_trans only ⟨hcore, fun j hj => hother j hj hj, hout⟩
  have noted := onlyCore_step arrived (fun d => { d with sync := { d.sync with noted := c.sync.noted } }) (fun _ => rfl) rfl
  obtain ⟨u, step, only⟩ := barv_done ht he (by rw [arriveOwn_run ht hx hn hlive htok, if_neg h, bind_ok hrun]; rfl) noted
  exact ⟨u, _, step, only, hd.rank, hd.barriers, hd.tokens, hd.arrivals, hd.regs, hd.seg, hd.fold, hd.lines, hd.closed⟩

end

/-! ### BARV at another core's barrier -/

section
variable {n : Nat} (ht : s.CoreTurn k l cp c) (he : s.executes c.regs g) (hn : n = (srB c.regs b).toNat)
include ht he hn

theorem barvRemote_noRank (h : isRank l.packet.h l.packet.w n = false) : traps (.barvRemote bar b g) s s (Trap.mk' 0x0B) := by
  refine scalar_trap he ?_
  rw [bind_ok (theCore_turn ht)]
  simp only [← hn, h, Bool.not_false, raiseIf_true, raise_bind]
  rfl

variable (hk : n ≠ k.rank) (hr : isRank l.packet.h l.packet.w n = true) (hd : cp.core? n = some d)
include hk hr hd

theorem barvRemote_exited (hex : d.exited = true) : traps (.barvRemote bar b g) s s (Trap.mk' 0x0B) := by
  refine scalar_trap he ?_
  rw [bind_ok (theCore_turn ht)]
  simp only [← hn, hr, Bool.not_true, raiseIf_false, pure_bind_act, if_neg hk, hd, Option.map_some, Option.getD_some, hex, raiseIf_true, raise_bind]
  rfl

theorem barvRemote_sends (hex : d.exited = false) : ∃ t, exec (.barvRemote bar b g) s = .next t ∧
    t.core? k = some (c.segClosed.past (srLen b)) ∧ t.core? (atRank k n) = some { d with sync := { d.sync with
      arrivals := d.sync.arrivals ++ [{ bar := bar, src := .other k.rank (some c.muslin.seg), after := cp.outstanding c }] } } ∧
    (∀ j, j ≠ k → j ≠ atRank k n → t.core? j = s.core? j) ∧ outsideCores s t := by
  let close (x : Core) : Core := x.closeSeg.2
  let queue (x : Core) : Core := x.queueArrival { bar := bar, src := .other k.rank (some c.muslin.seg), after := cp.outstanding c }
  have other : atRank k n ≠ k := fun e => hk (congrArg CoreRef.rank e)
  have there : s.core? (atRank k n) = some d := by
    rw [← hd, State.core?, show s.copy? (atRank k n) = s.copy? k from rfl, ht.copy]
    rfl
  have closed := onlyCore_step (onlyCore_settleOwn ht.core (s.agentsOf k)) close (fun _ => rfl) rfl
  have queued := onlyCore_modCore queue (fun _ => rfl) ((closed.2.1 _ other).trans there)
  have past := onlyCore_modCore (fun x => x.past (srLen b)) (fun _ => rfl) ((queued.2.1 k other.symm).trans closed.1)
  refine ⟨_, ?_, past.1, (past.2.1 _ other).trans queued.1, fun j h1 h2 => (past.2.1 j h1).trans ((queued.2.1 j h2).trans (closed.2.1 j h1)),
    outsideCores_trans closed.2.2 (outsideCores_trans queued.2.2 past.2.2)⟩
  show scalar _ _ _ _ = _
  rw [scalar_on he.1 he.2, ht.cur]
  congr 1
  refine runAct_adv ?_
  rw [bind_ok (theCore_turn ht)]
  simp only [← hn, hr, Bool.not_true, raiseIf_false, pure_bind_act, if_neg hk, hd, Option.map_some, Option.getD_some, hex]
  rfl

end

/-! ### BWAIT -/

theorem passed_iff {y n : Nat} (hn : n = (x.gen.toNat + 2 ^ 16 - y % 2 ^ 16) % 2 ^ 16) {v : BitVec 16} (hv : v.toNat = y % 2 ^ 16) :
    x.passed v = true ↔ 1 ≤ n ∧ n ≤ 32767 := by
  have diff : (x.gen - v).toNat = n := by
    rw [BitVec.toNat_sub, hv, hn]
    congr 1
    omega
  rw [Barrier.passed, diff, Bool.and_eq_true, decide_eq_true_eq, decide_eq_true_eq]

theorem mem_returnedOn (c : Core) (bar : BitVec 7) (v : BitVec 16) (y : BitVec 7 × BitVec 16) :
    y ∈ (c.returnedOn bar v).muslin.returned ↔ y ∈ c.muslin.returned ∨ y = (bar, v) := by
  unfold Core.returnedOn
  dsimp only
  split
  next h =>
    rw [List.contains_iff_mem] at h
    exact ⟨.inl, fun o => o.elim id fun e => e ▸ h⟩
  next => rw [List.mem_append, List.mem_singleton]

section
variable (ht : s.CoreTurn k l cp c) (he : s.executes c.regs g)
include ht he

theorem bwait_uninit (h0 : c.sync.barriers[bar.toNat].exp = 0#16) : traps (.bwait bar b g) s s (Trap.mk' 0x0B) := by
  have bad : ((c.bar bar).exp == 0#16) = true := by rw [Core.bar, h0]; rfl
  refine scalar_trap he ?_
  rw [bind_ok (theCore_turn ht)]
  simp only [bad, raiseIf_true, raise_bind]
  rfl

variable (hx : c.sync.barriers[bar.toNat].exp ≠ 0#16)
include hx

theorem bwait_waits (h : ¬ c.sync.barriers[bar.toNat].passed ((srB c.regs b).setWidth 16) = true) : exec (.bwait bar b g) s = .next s := by
  have ok : ((c.bar bar).exp == 0#16) = false := by simpa only [Core.bar, beq_eq_false_iff_ne] using hx
  have no : (c.bar bar).passed ((srB c.regs b).setWidth 16) = false := Bool.eq_false_iff.2 h
  refine scalar_hold he ?_
  rw [bind_ok (theCore_turn ht)]
  simp only [ok, no, raiseIf_false, pure_bind_act, Bool.not_false, holdIf_true, hold_bind]
  rfl

theorem bwait_returns (h : c.sync.barriers[bar.toNat].passed ((srB c.regs b).setWidth 16) = true) (hn : c.sync.noted = []) :
    ∃ t, exec (.bwait bar b g) s = .next t ∧ onlyCore s t k ((c.returnedOn bar ((srB c.regs b).setWidth 16)).past (srLen b)) := by
  have ok : ((c.bar bar).exp == 0#16) = false := by simpa only [Core.bar, beq_eq_false_iff_ne] using hx
  have yes : (c.bar bar).passed ((srB c.regs b).setWidth 16) = true := h
  refine scalar_core ht he ?_ (onlyCore_step (onlyCore_refl ht.core) (fun x => x.returnedOn bar ((srB c.regs b).setWidth 16)) (fun _ => rfl) rfl)
  rw [bind_ok (theCore_turn ht)]
  simp only [ok, yes, raiseIf_false, pure_bind_act, Bool.not_true, holdIf_false]
  rw [bind_ok (takeNoted_none ht hn _)]
  rfl

end

/-- Settles O25. -/
theorem barrierInstructions : Obligations.BarrierInstructions := by
  refine ⟨?_, ?_⟩
  · rintro s k l cp c g bar x ht he rfl
    refine ⟨?_, barv_uninit ht he, ?_, ?_, fun b => barvRemote_noRank ht he rfl⟩
    · rintro b n rfl
      exact ⟨binit_sets ht he, binit_fault ht he⟩
    · rintro later rfl hx hn hlive htok
      simp only [← arrivesLater_iff (cp := cp)]
      refine ⟨barv_later ht he hx hn hlive htok, fun h hex hb => ?_⟩
      obtain ⟨t, d, step, only, hd⟩ := barv_now ht he hx hn hlive htok h hex
      exact ⟨t, _, step, only, congrArg (fun r => r.skip 4) (hd.regs hb), hd.barriers, hd.tokens, hd.seg, hd.fold, hd.lines, hd.closed.trans (List.length_append ..)⟩
    · rintro b n d rfl hk hr hd
      exact ⟨barvRemote_exited ht he rfl hk hr hd, barvRemote_sends ht he rfl hk hr hd⟩
  · rintro s k l cp c g bar b x n ht he rfl hn
    have passed : c.sync.barriers[bar.toNat].passed ((srB c.regs b).setWidth 16) = true ↔ 1 ≤ n ∧ n ≤ 32767 :=
      passed_iff hn (BitVec.toNat_setWidth ..)
    refine ⟨bwait_uninit ht he, fun hx h => bwait_waits ht he hx (by rw [passed]; omega), fun hx h1 h2 h0 => ?_⟩
    obtain ⟨t, step, only⟩ := bwait_returns ht he hx (passed.2 ⟨h1, h2⟩) h0
    exact ⟨t, _, step, only, mem_returnedOn c bar _⟩

end Sys2Proof.Proofs
end

section
/-! The order of arrivals, and arrivals from outside (R34, R35, R144). -/

namespace Sys2Proof.Proofs

open Sys2Proof.Machine Sys2Proof.Laws

variable {s : State} {k : CoreRef} {l : Launch} {cp : Copy} {c d : Core}

/-! ### The arrival that is applied first (R34) -/

theorem mem_of_pickArrival {xs : List Arrival} {a : Arrival} (h : pickArrival xs = some a) : a ∈ xs := by
  induction xs generalizing a with
  | nil => cases h
  | cons x xs ih =>
      rw [pickArrival] at h
      split at h
      next => simp only [Option.some.injEq] at h; exact h ▸ List.mem_cons_self
      next b hb =>
        split at h
        · simp only [Option.some.injEq] at h; exact h ▸ List.mem_cons_self
        · simp only [Option.some.injEq] at h; exact h ▸ List.mem_cons_of_mem _ (ih hb)

theorem pickArrival_head {a : Arrival} {zs : List Arrival} (h : ∀ z ∈ zs, a.src.key ≤ z.src.key) : pickArrival (a :: zs) = some a := by
  rw [pickArrival]
  split
  next => rfl
  next b hb => rw [if_pos (h b (mem_of_pickArrival hb))]

theorem pickArrival_eq {a : Arrival} {ys zs : List Arrival} (hy : ∀ y ∈ ys, a.src.key < y.src.key) (hz : ∀ z ∈ zs, a.src.key ≤ z.src.key) :
    pickArrival (ys ++ a :: zs) = some a := by
  induction ys with
  | nil => exact pickArrival_head hz
  | cons y ys ih =>
      have rest := ih fun y' h => hy y' (List.mem_cons_of_mem _ h)
      have later := hy y List.mem_cons_self
      rw [List.cons_append, pickArrival, rest]
      exact if_neg (by omega)

theorem barrierArrival_applies {ys zs : List Arrival} {a : Arrival} (hl : s.launch? k.lid = some l) (hp : s.copy? k = some cp) (hc : s.core? k = some c)
    (ha : c.sync.arrivals = ys ++ a :: zs) (hnow : cp.performed a.after = true) (hy : ∀ y ∈ ys, cp.performed y.after = true → a.src.key < y.src.key)
    (hz : ∀ z ∈ zs, cp.performed z.after = true → a.src.key ≤ z.src.key) (hnew : a ∉ ys)
    (hx : c.sync.barriers[a.bar.toNat].exp ≠ 0#16) (hex : c.exited = false) :
    ∃ t d, exec (.barrierArrival k) s = .next t ∧ Arrived a.bar { c with sync := { c.sync with arrivals := ys ++ zs } } d ∧ t.core? k = some d ∧
      (∀ j, j ≠ k → j ≠ atRank k (segRank a.src k.rank) → t.core? j = s.core? j) ∧ outsideCores s t := by
  have picked : pickArrival (c.sync.arrivals.filter fun a => cp.performed a.after) = some a := by
    rw [ha, List.filter_append, List.filter_cons, if_pos hnow]
    refine pickArrival_eq (fun y m => ?_) (fun z m => ?_)
    · obtain ⟨hm, hq⟩ := List.mem_filter.1 m
      exact hy y hm hq
    · obtain ⟨hm, hq⟩ := List.mem_filter.1 m
      exact hz z hm hq
  have erased : c.sync.arrivals.erase a = ys ++ zs := by
    rw [ha, List.erase_append_right _ hnew, List.erase_cons_head]
  have only := onlyCore_step (onlyCore_refl hc) (fun c => { c with sync := { c.sync with arrivals := c.sync.arrivals.erase a } })
    (d := { c with sync := { c.sync with arrivals := ys ++ zs } }) (fun _ => rfl) (by rw [← erased])
  obtain ⟨l', cp', hctx, -⟩ := ctxOf_only hl hp only
  obtain ⟨t, d, hrun, hd, hcore, hother, hout⟩ := applyArrival_run hctx only.1 a hx hex
  refine ⟨t, d, ?_, hd, hcore, fun j hj hr => (hother j hj hr).trans (only.2.1 j hj), outsideCores_trans only.2.2 hout⟩
  show execBarrierArrival k s = _
  unfold execBarrierArrival
  rw [hp, hc]
  dsimp only
  rw [picked]
  dsimp only [runStep]
  rw [bind_ok (onCore_run k _), hrun]

theorem barrierArrival_none (hp : s.copy? k = some cp) (hc : s.core? k = some c) (h : ∀ a ∈ c.sync.arrivals, cp.performed a.after = false) :
    exec (.barrierArrival k) s = .next s := by
  have none : (c.sync.arrivals.filter fun a => cp.performed a.after) = [] :=
    List.filter_eq_nil_iff.2 fun a ha => by rw [h a ha]; exact Bool.false_ne_true
  show execBarrierArrival k s = _
  unfold execBarrierArrival
  rw [hp, hc]
  dsimp only
  rw [none]
  rfl

/-! ### Arrivals from outside (R35, R144) -/

/-- The core of this rank in every copy of a launch, changed. -/
def eachCopy (rank : Nat) (f : Core → Core) (m : Launch) : Launch := { m with copies := m.copies.map fun cp => cp.modCore rank f }

theorem copy_eachCopy (rank : Nat) (f : Core → Core) (m : Launch) (role : Role) :
    (eachCopy rank f m).copy? role = (m.copy? role).map fun cp => cp.modCore rank f :=
  find_map_eq (fun c : Copy => c.role == role) (fun cp => cp.modCore rank f) m.copies fun _ _ => rfl

/-- A copy after its core of this rank has been changed in every copy of launch `lid`. -/
theorem copy_modEachCopy (lid rank : Nat) (f : Core → Core) (j : CoreRef) :
    (s.modLaunch lid (eachCopy rank f)).copy? j = (s.copy? j).map fun cp => if j.lid = lid then cp.modCore rank f else cp := by
  by_cases h : j.lid = lid
  · subst h
    simp only [State.copy?, launch_modLaunch (eachCopy rank f) fun _ => rfl, if_true]
    cases s.launch? j.lid with
    | none => rfl
    | some m => exact copy_eachCopy rank f m j.role
  · simp only [State.copy?, launch_modLaunch_ne h (eachCopy rank f) fun _ => rfl, if_neg h, Option.map_id']

theorem core_modEachCopy {lid rank : Nat} {f : Core → Core} (hf : ∀ x, (f x).rank = x.rank) (role : Role) :
    (s.modLaunch lid (eachCopy rank f)).core? ⟨lid, role, rank⟩ = (s.core? ⟨lid, role, rank⟩).map f := by
  simp only [State.core?, copy_modEachCopy, if_true]
  cases s.copy? ⟨lid, role, rank⟩ with
  | none => rfl
  | some cp => exact core_modCore f hf

theorem core_modEachCopy_ne {lid rank : Nat} {f : Core → Core} (hf : ∀ x, (f x).rank = x.rank) {j : CoreRef} (hj : j.lid ≠ lid ∨ j.rank ≠ rank) :
    (s.modLaunch lid (eachCopy rank f)).core? j = s.core? j := by
  simp only [State.core?, copy_modEachCopy]
  cases s.copy? j with
  | none => rfl
  | some cp =>
      by_cases h : j.lid = lid
      · simp only [Option.map_some, Option.bind_some, if_pos h]
        exact core_modCore_ne (hj.resolve_left (not_not_intro h)) f hf
      · simp only [Option.map_some, Option.bind_some, if_neg h]

/-- An outside arrival more, up to the end of the 16-bit count. -/
def oneMore (b : BitVec 16) : BitVec 16 := if b = 0xFFFF#16 then b else b + 1#16

theorem oneMore_eq (b : BitVec 16) : oneMore b = BitVec.ofNat 16 (min 65535 (b.toNat + 1)) := by
  have := b.isLt
  apply BitVec.eq_of_toNat_eq
  rw [oneMore, BitVec.toNat_ofNat]
  split
  next h => subst h; rfl
  next h =>
    have : b.toNat ≠ 65535 := fun e => h (BitVec.eq_of_toNat_eq e)
    rw [BitVec.toNat_add, Nat.min_eq_right (by omega)]
    rfl

/-- A core that an outside arrival has come to. -/
def outsideArrived (bar : BitVec 7) (c : Core) : Core := (c.modBar bar fun b => { b with ext := oneMore b.ext }).wake

theorem outsideArrived_sync (bar : BitVec 7) (c : Core) : (outsideArrived bar c).sync = { c.sync with
    barriers := c.sync.barriers.set bar.toNat { c.sync.barriers[bar.toNat] with ext := oneMore c.sync.barriers[bar.toNat].ext } } := by
  rw [outsideArrived, wake_sync]
  rfl

theorem outsideArrived_barrier (bar b : BitVec 7) (c : Core) : (outsideArrived bar c).sync.barriers[b.toNat] = if b = bar then
    { c.sync.barriers[b.toNat] with ext := BitVec.ofNat 16 (min 65535 (c.sync.barriers[b.toNat].ext.toNat + 1)) } else c.sync.barriers[b.toNat] := by
  rw [outsideArrived_sync, ← oneMore_eq]
  split
  next h => subst h; simp
  next h =>
    have : bar.toNat ≠ b.toNat := fun e => h (BitVec.eq_of_toNat_eq e.symm)
    simp [this]

theorem outsideArrived_rank (bar : BitVec 7) (c : Core) : (outsideArrived bar c).rank = c.rank := (wake_keeps _).1

/-- Two changes of one rank in every copy are one. -/
theorem eachCopy_eachCopy (rank : Nat) {f h : Core → Core} (hf : ∀ x, (f x).rank = x.rank) (m : Launch) :
    eachCopy rank h (eachCopy rank f m) = eachCopy rank (fun x => h (f x)) m := by
  simp only [eachCopy, List.map_map]
  congr 1
  refine List.map_congr_left fun cp _ => ?_
  simp only [Function.comp, Copy.modCore, List.map_map]
  congr 1
  refine List.map_congr_left fun x _ => ?_
  by_cases hx : (x.rank == rank) = true
  · simp only [Function.comp, hx, if_true, hf]
  · simp [Function.comp, hx]

theorem modLaunch_modLaunch (lid : Nat) {f h : Launch → Launch} (hf : ∀ m, (f m).lid = m.lid) :
    (s.modLaunch lid f).modLaunch lid h = s.modLaunch lid fun m => h (f m) := by
  simp only [State.modLaunch, List.map_map]
  congr 1
  refine List.map_congr_left fun m _ => ?_
  by_cases hm : (m.lid == lid) = true
  · simp only [Function.comp, hm, if_true, hf]
  · simp [Function.comp, hm]

theorem outsideArrivalReceive_kept {id tg : Word} (hi : s.byIdent id = some l) (hr : isRank l.packet.h l.packet.w (fieldNat tg 7 9) = true) :
    exec (.outsideArrivalReceive id tg) s = .next (s.modLaunch l.lid (eachCopy (fieldNat tg 7 9) (outsideArrived (tg.extractLsb' 0 7)))) := by
  let raise : Core → Core := fun c => c.modBar (tg.extractLsb' 0 7) fun b => { b with ext := oneMore b.ext }
  have run : exec (.outsideArrivalReceive id tg) s = .next
      (((s.modLaunch l.lid (eachCopy (fieldNat tg 7 9) raise)).modLaunch l.lid (eachCopy (fieldNat tg 7 9) Core.wake)).modLaunch l.lid fun m => m) := by
    show execOutsideArrivalReceive id tg s = _
    simp only [execOutsideArrivalReceive, State.receiveArrival, hi, hr]
    rfl
  rw [run, modLaunch_modLaunch l.lid (f := eachCopy (fieldNat tg 7 9) Core.wake) fun _ => rfl,
    modLaunch_modLaunch l.lid (f := eachCopy (fieldNat tg 7 9) raise) fun _ => rfl]
  simp only [eachCopy_eachCopy (fieldNat tg 7 9) (f := raise) fun _ => rfl]
  rfl

theorem outsideArrivalReceive_lost {id tg : Word}
    (h : s.byIdent id = none ∨ ∃ l, s.byIdent id = some l ∧ isRank l.packet.h l.packet.w (fieldNat tg 7 9) = false) :
    exec (.outsideArrivalReceive id tg) s = .next s := by
  show execOutsideArrivalReceive id tg s = _
  rcases h with h | ⟨l, h, hr⟩
  · simp only [execOutsideArrivalReceive, State.receiveArrival, h]
  · simp only [execOutsideArrivalReceive, State.receiveArrival, h, hr, Bool.not_false, if_true]

/-- Settles O26. -/
theorem arrivalOrder : Obligations.ArrivalOrder := by
  refine ⟨?_, fun s k cp c hp hc h => barrierArrival_none hp hc h, ?_, fun s id tg h => outsideArrivalReceive_lost (by simpa only [fieldNat_eq] using h)⟩
  · rintro s k l cp c ys zs a x hl hp hc ha hnow hy hz hnew rfl hx hex
    obtain ⟨t, d, step, hd, hcore, hother, hout⟩ := barrierArrival_applies hl hp hc ha hnow hy hz hnew hx hex
    refine ⟨t, d, step, hcore, hd.arrivals, hd.barriers, hd.tokens, hout, fun j hj => hother j ?_ ?_⟩
    · rintro rfl; simp at hj
    · rintro rfl; simp [atRank] at hj
  · intro s id tg l hi _ hr
    rw [← fieldNat_eq] at hr ⊢
    have rank := outsideArrived_rank (tg.extractLsb' 0 7)
    refine ⟨_, outsideArrivalReceive_kept hi hr, rfl, rfl, fun j hj => core_modEachCopy_ne rank hj, fun role c hc => ⟨outsideArrived (tg.extractLsb' 0 7) c, ?_, ?_, ?_⟩⟩
    · rw [core_modEachCopy rank, hc]
      rfl
    · rw [outsideArrived_sync]
    · exact fun b => outsideArrived_barrier _ b c

end Sys2Proof.Proofs
end

section
/-! Accumulator banks (R39, R145). -/

namespace Sys2Proof.Proofs

open Sys2Proof.Machine Sys2Proof.Laws

variable {s : State} {k : CoreRef} {l : Launch} {cp : Copy} {c d : Core} {g : BitVec 4} {b : Src} {f n : Nat}

/-! ### Bytes after a range is cleared -/

theorem cellGet_filter (x : Byte) (a : Nat) (p : Nat → Bool) (xs : List Host.Cell) :
    cellGet x a (xs.filter fun c => p c.1) = if p a then cellGet x a xs else x := by
  induction xs with
  | nil => simp [cellGet]
  | cons c xs ih =>
      obtain ⟨b, v⟩ := c
      by_cases hb : b = a
      · subst hb
        by_cases hp : p b = true <;> simp [hp, cellGet, ih]
      · by_cases hp : p b = true <;> simp [hp, cellGet, hb, ih]

theorem get_clear (m : Store) (a n o : Nat) : (m.clear a n).get o = if a ≤ o ∧ o < a + n then m.dflt else m.get o := by
  have := cellGet_filter m.dflt o (fun i => !(decide (a ≤ i) && decide (i < a + n))) m.cells
  rw [Store.get, Store.clear, this]
  by_cases h : a ≤ o ∧ o < a + n <;> simp [h, Store.get]

/-! ### Runs of banks -/

theorem bankUsed_eq {i : Nat} (hi : i < 256) (v : Bool) : c.tens.banks[i]? = some v ↔ c.bankUsed i = v := by
  simp [Core.bankUsed, hi]

theorem banksAre_iff (v : Bool) : c.banksAre f n v ↔ f + n ≤ 256 ∧ ∀ i, i < n → c.bankUsed (f + i) = v := by
  refine and_congr_right fun hf => ⟨fun h i hi => (bankUsed_eq (by omega) v).1 (h _ (by omega) (by omega)), fun h i h1 h2 => ?_⟩
  rw [bankUsed_eq (by omega), ← h (i - f) (by omega), Nat.add_sub_cancel' h1]

theorem all_free_iff (c : Core) (f n : Nat) : ((List.range n).all fun i => !c.bankUsed (f + i)) = true ↔ ∀ i, i < n → c.bankUsed (f + i) = false := by
  simp

theorem freeRun_some (hn : n ≤ 256) (h : c.lowestFree f n) : c.freeRun n = some f := by
  obtain ⟨free, least⟩ := h
  rw [banksAre_iff] at free
  refine List.find?_range_eq_some.2 ⟨(all_free_iff c f n).2 free.2, List.mem_range.2 (by omega), fun x hx => ?_⟩
  rw [Bool.not_eq_true', ← Bool.not_eq_true, all_free_iff]
  exact fun h => least x hx ((banksAre_iff false).2 ⟨by omega, h⟩)

theorem freeRun_none (hn : n ≤ 256) (h : ∀ f, ¬ c.banksAre f n false) : c.freeRun n = none := by
  refine List.find?_eq_none.2 fun x hx free => h x ((banksAre_iff false).2 ⟨?_, (all_free_iff c x n).1 free⟩)
  have := List.mem_range.1 hx
  omega

theorem setBanks_banks (c : Core) (f n : Nat) (v : Bool) (i : Nat) : (c.setBanks f n v).tens.banks[i]? =
    if f ≤ i ∧ i < f + n ∧ i < 256 then some v else c.tens.banks[i]? := by
  simp only [Core.setBanks, Vector.getElem?_ofFn, Bool.and_eq_true, decide_eq_true_eq]
  by_cases hi : i < 256
  · simp only [hi, and_true, dif_pos, Vector.getElem?_eq_getElem hi, apply_ite some]
  · rw [dif_neg hi, if_neg (by omega), Vector.getElem?_eq_none (by omega)]

theorem setBanks_run (hf : f + n ≤ 256) (v : Bool) : (c.setBanks f n v).banksAre f n v :=
  ⟨hf, fun i h1 h2 => by rw [setBanks_banks, if_pos ⟨h1, h2, by omega⟩]⟩

theorem setBanks_others (v : Bool) {i : Nat} (h : i < f ∨ f + n ≤ i) : (c.setBanks f n v).tens.banks[i]? = c.tens.banks[i]? := by
  rw [setBanks_banks, if_neg (by omega)]

theorem setBanks_keeps (c : Core) (f n : Nat) (v : Bool) :
    (c.setBanks f n v).rank = c.rank ∧ (c.setBanks f n v).regs = c.regs ∧ (c.setBanks f n v).tens.acc = c.tens.acc := by
  simp only [Core.setBanks, and_self]

theorem past_tens (c : Core) (n : Nat) : (c.past n).tens = c.tens := rfl

theorem clearBanks_keeps (c : Core) (f n : Nat) : (c.clearBanks f n).rank = c.rank ∧ (c.clearBanks f n).regs = c.regs ∧
    (c.clearBanks f n).tens.banks = c.tens.banks ∧ (c.clearBanks f n).tens.acc = c.tens.acc.clear (2048 * f) (2048 * n) := by
  simp only [Core.clearBanks, and_self]

/-! ### The instructions -/

/-- Banks `f` to `f + n - 1` taken: allocated and cleared. -/
def banksTaken (f n : Nat) (c : Core) : Core := (c.setBanks f n true).clearBanks f n

theorem banksTaken_rank (f n : Nat) (c : Core) : (banksTaken f n c).rank = c.rank :=
  (clearBanks_keeps ..).1.trans (setBanks_keeps ..).1

theorem banksTaken_regs (f n : Nat) (c : Core) : (banksTaken f n c).regs = c.regs :=
  (clearBanks_keeps ..).2.1.trans (setBanks_keeps ..).2.1

theorem banksTaken_banks (f n : Nat) (c : Core) : (banksTaken f n c).tens.banks = (c.setBanks f n true).tens.banks :=
  (clearBanks_keeps ..).2.2.1

theorem banksTaken_get (f n : Nat) (c : Core) (o : Nat) : (banksTaken f n c).tens.acc.get o =
    if 2048 * f ≤ o ∧ o < 2048 * f + 2048 * n then c.tens.acc.dflt else c.tens.acc.get o := by
  rw [banksTaken, (clearBanks_keeps ..).2.2.2, get_clear, (setBanks_keeps ..).2.2]

/-- ABANK.ALLOC with the run that it finds, if any. -/
def takeRun (k : CoreRef) (d : BitVec 6) (n : Nat) : Option Nat → Act Next
  | none => do
      setX d (BitVec.allOnes 64)
      pure .adv
  | some f => do
      onCore k (banksTaken f n)
      setX d (BitVec.ofNat 64 f)
      pure .adv

section
variable (ht : s.CoreTurn k l cp c) (he : s.executes c.regs g) (hn : n = (srB c.regs b).toNat)
include ht he hn

theorem abankAlloc_fault (h : n = 0 ∨ 256 < n) (d : BitVec 6) : traps (.abankAlloc d b g) s s (Trap.mk' 0x0C) := by
  have bad : ((srB c.regs b).toNat == 0 || decide (256 < (srB c.regs b).toNat)) = true := by
    rw [← hn]
    simpa only [Bool.or_eq_true, beq_iff_eq, decide_eq_true_eq] using h
  refine scalar_trap he ?_
  rw [bind_ok (theCore_turn ht)]
  simp only [bad, raiseIf_true, raise_bind]
  rfl

/-- What ABANK.ALLOC of a legal count does with the run that it finds. -/
theorem abankAlloc_run (h1 : 1 ≤ n) (h2 : n ≤ 256) {o : Option Nat}
    (ho : (if c.bankCount + n ≤ l.lrec.banks then c.freeRun n else none) = o) (d : BitVec 6) :
    exec (.abankAlloc d b g) s = scalar g (srLen b) s fun _ => takeRun k d n o := by
  have ok : (n == 0 || decide (256 < n)) = false := by
    simp only [Bool.or_eq_false_iff, beq_eq_false_iff_ne, decide_eq_false_iff_not]
    omega
  show scalar _ _ _ _ = _
  rw [scalar_on he.1 he.2, scalar_on he.1 he.2]
  unfold runAct
  rw [bind_ok (theCore_turn ht)]
  simp only [← hn, ok, ho, raiseIf_false, pure_bind_act]
  cases o <;> rfl

theorem abankAlloc_none (h1 : 1 ≤ n) (h2 : n ≤ 256) (h : (∀ f, ¬ c.banksAre f n false) ∨ l.lrec.banks < c.bankCount + n) (d : BitVec 6) :
    ∃ t, exec (.abankAlloc d b g) s = .next t ∧ onlyCore s t k { c with regs := (c.regs.set d (BitVec.allOnes 64)).skip (srLen b) } := by
  have none : (if c.bankCount + n ≤ l.lrec.banks then c.freeRun n else none) = none := by
    rcases h with h | h
    · rw [freeRun_none h2 h, ite_self]
    · exact if_neg (by omega)
  obtain ⟨t, hx, ho⟩ := setX_core ht.cur (onlyCore_refl ht.core) d (BitVec.allOnes 64)
  rw [abankAlloc_run ht he hn h1 h2 none]
  exact scalar_core ht he (bind_ok hx) ho

theorem abankAlloc_takes (h1 : 1 ≤ n) (h2 : n ≤ 256) (h : c.lowestFree f n) (hq : c.bankCount + n ≤ l.lrec.banks) (d : BitVec 6) :
    ∃ t, exec (.abankAlloc d b g) s = .next t ∧
      onlyCore s t k { banksTaken f n c with regs := (c.regs.set d (BitVec.ofNat 64 f)).skip (srLen b) } := by
  have taken := onlyCore_step (onlyCore_refl ht.core) (banksTaken f n) (banksTaken_rank f n) rfl
  obtain ⟨t, hx, ho⟩ := setX_core ht.cur taken d (BitVec.ofNat 64 f)
  rw [banksTaken_regs] at ho
  rw [abankAlloc_run ht he hn h1 h2 ((if_pos hq).trans (freeRun_some h2 h))]
  have act : takeRun k d n (some f) s = .ok (.adv, t) := (bind_ok (onCore_run k _)).trans (bind_ok hx)
  generalize banksTaken f n c = e at ho ⊢
  exact scalar_core ht he act ho

variable {a : BitVec 6} (hf : f = (c.regs.get a).toNat) (h0 : c.eng.cmds = []) (h1 : 1 ≤ n)
include hf h0 h1

theorem abankFree_fault (h : ¬ c.banksAre f n true) : traps (.abankFree a b g) s s (Trap.mk' 0x0C) := by
  have bad : (n != 0 && (decide (256 < f + n) || (List.range n).any fun i => !c.bankUsed (f + i))) = true := by
    simp only [banksAre_iff, not_and_or, not_forall, Bool.not_eq_true] at h
    simpa [show n ≠ 0 by omega] using h
  refine scalar_trap he ?_
  rw [bind_ok (theCore_turn ht)]
  simp only [h0, List.any_nil, holdIf_false, pure_bind_act, ← hn, ← hf, bad, raiseIf_true, raise_bind]
  rfl

theorem abankFree_frees (h : c.banksAre f n true) : ∃ t, exec (.abankFree a b g) s = .next t ∧ onlyCore s t k ((c.setBanks f n false).past (srLen b)) := by
  have ok : (n != 0 && (decide (256 < f + n) || (List.range n).any fun i => !c.bankUsed (f + i))) = false := by
    rw [banksAre_iff] at h
    simpa [show n ≠ 0 by omega] using h
  refine scalar_core ht he ?_ (onlyCore_step (onlyCore_refl ht.core) (fun c => c.setBanks f n false) (fun c => (setBanks_keeps c f n false).1) rfl)
  rw [bind_ok (theCore_turn ht)]
  simp only [h0, List.any_nil, holdIf_false, pure_bind_act, ← hn, ← hf, ok, raiseIf_false]
  rfl

end

/-- Settles O27. -/
theorem bankAllocation : Obligations.BankAllocation := by
  intro s k l cp c g n ht he
  refine ⟨fun d b hn => ⟨fun h => abankAlloc_fault ht he hn h d, fun f h1 h2 hlow hq hz => ?_, fun h1 h2 h => abankAlloc_none ht he hn h1 h2 h d⟩,
    fun a b f hn hf h0 => ⟨fun h h1 => ?_, fun h h1 => abankFree_fault ht he hn hf h0 h1 h⟩⟩
  · obtain ⟨t, step, only⟩ := abankAlloc_takes ht he hn h1 h2 hlow hq d
    have banks := banksTaken_banks f n c
    refine ⟨t, _, step, only, rfl, ?_, fun i hi => ?_, fun o ho1 ho2 => ?_, fun o ho => ?_⟩
    · simp only [Core.banksAre, banks]
      exact setBanks_run (c := c) hlow.1.1 true
    · simp only [banks]
      exact setBanks_others true hi
    · rw [← hz]
      exact (banksTaken_get f n c o).trans (if_pos (by omega))
    · exact (banksTaken_get f n c o).trans (if_neg (by omega))
  · obtain ⟨t, step, only⟩ := abankFree_frees ht he hn hf h0 h1 h
    refine ⟨t, _, step, only, ?_, ?_, fun i hi => ?_⟩
    · rw [Core.past, (setBanks_keeps c f n false).2.1]
    · simp only [Core.banksAre, past_tens]
      exact setBanks_run h.1 false
    · simp only [past_tens]
      exact setBanks_others false hi

end Sys2Proof.Proofs
end

section
/-! A control core's store to its own scratchpad (R123, R308): the port accepts it, and the commands that the core pushed may still read what
stood there (R125). -/

namespace Sys2Proof.Proofs

open Sys2Proof.Machine Sys2Proof.Laws

variable {s t u : State} {k : CoreRef} {l : Launch} {cp : Copy} {c d : Core} {q : Pad} {off : Nat}

/-! ### Changes that a store may make besides -/

/-- A change of the core that does not look at its commands. -/
theorem storeAccepted_step (h : storeAccepted s t k c) (f : Core → Core) (hf : ∀ x, (f x).rank = x.rank) (hb : ∀ x, (f x).bare = f x.bare) :
    storeAccepted s (t.modCore k f) k (f c) := by
  obtain ⟨own, other, outside⟩ := h
  refine ⟨?_, fun j hj => ?_, outsideCores_trans outside (outsideCores_modCore t k f)⟩
  · rw [coreAt_modCore f hf, Option.map_map, hb, ← Option.map_some, ← own, Option.map_map]
    exact Option.map_congr fun x _ => hb x
  · rw [coreAt_modCore_ne hj f hf]
    exact other j hj

theorem onlyCore_storeAccepted (h : onlyCore s t k c) : storeAccepted s t k c :=
  ⟨by rw [h.1]; rfl, fun j hj => by rw [h.2.1 j hj], h.2.2⟩

/-- A change of what no core sees. -/
theorem storeAccepted_same (h : storeAccepted s t k c) (ho : onlyCore t u k d) (hd : t.core? k = some d) : storeAccepted s u k c :=
  ⟨by rw [ho.1, ← hd]; exact h.1, fun j hj => by rw [ho.2.1 j hj]; exact h.2.1 j hj, outsideCores_trans h.2.2 ho.2.2⟩

/-- Every core of a copy changed in what a store may change besides. -/
structure BareSame (r : Core → Core) : Prop where
  rank : ∀ x, (r x).rank = x.rank
  bare : ∀ x, (r x).bare = x.bare
  port : ∀ x, (r x).port = x.port

theorem core_mapCores {r : Core → Core} (hr : ∀ x, (r x).rank = x.rank) (cp : Copy) (n : Nat) :
    ({ cp with cores := cp.cores.map r } : Copy).core? n = (cp.core? n).map r :=
  find_map_eq (fun c : Core => c.rank == n) r cp.cores fun x _ => by rw [hr]

theorem core_modCopy_cores {r : Core → Core} (hr : ∀ x, (r x).rank = x.rank) (j : CoreRef) :
    (s.modCopy k fun cp => { cp with cores := cp.cores.map r }).core? j =
      (s.core? j).map fun x => if j.lid = k.lid ∧ j.role = k.role then r x else x := by
  unfold State.core?
  rw [copy_modCopy_any s k j (fun cp => { cp with cores := cp.cores.map r }) fun _ => rfl]
  cases s.copy? j with
  | none => rfl
  | some cp =>
      by_cases h : j.lid = k.lid ∧ j.role = k.role
      · simp only [Option.map_some, Option.bind_some, if_pos h]
        exact core_mapCores hr cp j.rank
      · simp only [Option.map_some, Option.bind_some, if_neg h, Option.map_id']

theorem outsideCores_modCopy_cores (r : Core → Core) : outsideCores s (s.modCopy k fun cp => { cp with cores := cp.cores.map r }) := by
  have copies (j : CoreRef) := copy_modCopy_any s k j (fun cp => { cp with cores := cp.cores.map r }) fun _ => rfl
  refine ⟨fun j p => ?_, fun j => ?_, fun n => ?_, rfl, rfl, rfl, rfl, rfl, rfl, rfl, rfl, rfl, rfl, rfl⟩
  · rw [copies]
    cases s.copy? j with
    | none => rfl
    | some x => simp only [Option.map_some, Option.bind_some]; split <;> rfl
  · rw [copies]
    cases s.copy? j with
    | none => rfl
    | some x => simp only [Option.map_some]; split <;> rfl
  · show ((s.modLaunch k.lid _).launch? n).map _ = _
    rw [launch_modLaunch_any s k.lid n (fun m => m.modCopy k.role _) fun _ => rfl]
    cases s.launch? n with
    | none => rfl
    | some m => simp only [Option.map_some]; split <;> rfl

theorem storeAccepted_mapCores {r : Core → Core} (hr : BareSame r) (hc : s.core? k = some c) :
    storeAccepted s (s.modCopy k fun cp => { cp with cores := cp.cores.map r }) k c := by
  have kept (j : CoreRef) : ((s.modCopy k fun cp => { cp with cores := cp.cores.map r }).core? j).map Core.bare = (s.core? j).map Core.bare := by
    rw [core_modCopy_cores hr.rank, Option.map_map]
    refine Option.map_congr fun x _ => ?_
    simp only [Function.comp]
    split
    · exact hr.bare x
    · rfl
  exact ⟨by rw [kept, hc]; rfl, fun j _ => kept j, outsideCores_modCopy_cores r⟩

/-! ### The race with the commands that the core pushed -/

/-- One core, with the commands that core `rank` pushed changed. -/
def pushedChange (rank : Nat) (f : Core → Cmd → Cmd) (d : Core) : Core :=
  { d with eng := { d.eng with cmds := d.eng.cmds.map fun m => if m.issuer d.rank = rank then f d m else m } }

theorem bareSame_pushedChange {rank : Nat} {f : Core → Cmd → Cmd} (hf : ∀ d m, (f d m).bare = m.bare) : BareSame (pushedChange rank f) := by
  refine ⟨fun _ => rfl, fun d => ?_, fun _ => rfl⟩
  unfold Core.bare pushedChange
  simp only [List.map_map]
  congr 2
  refine List.map_congr_left fun m _ => ?_
  simp only [Function.comp]
  split
  · exact hf d m
  · rfl

theorem BareSame.comp {r r' : Core → Core} (h : BareSame r) (h' : BareSame r') : BareSame fun x => r' (r x) :=
  ⟨fun x => (h'.rank _).trans (h.rank x), fun x => (h'.bare _).trans (h.bare x), fun x => (h'.port _).trans (h.port x)⟩

theorem bare_keepEarly (m : Cmd) (s : State) (l : Launch) (cp : Copy) (d c : Core) (x : Loc) (n : Nat) : (m.keepEarly s l cp d c x n).bare = m.bare := by
  unfold Cmd.keepEarly
  split <;> rfl

/-- What a store of `n` bytes at `x` leaves of a core whose commands race with it. -/
def raced (s : State) (l : Launch) (cp : Copy) (c : Core) (x : Loc) (n : Nat) (d : Core) : Core :=
  pushedChange c.rank (fun _ m => { m with old := m.old.filter fun p => !(p.1.meets 1 x n) })
    (pushedChange c.rank (fun d m => m.keepEarly s l cp d c x n) d)

theorem bareSame_raced (s : State) (l : Launch) (cp : Copy) (c : Core) (x : Loc) (n : Nat) : BareSame (raced s l cp c x n) :=
  (bareSame_pushedChange fun d m => bare_keepEarly m s l cp d c x n).comp (bareSame_pushedChange fun _ _ => rfl)

theorem storeRaces_run (hctx : ctxOf k s = .ok ((l, cp, c), s)) (x : Loc) (n : Nat) : storeRaces k x n s =
    .ok ((), if (cp.pushedBy c.rank).isEmpty then s else s.modCopy k fun cp' => { cp' with cores := cp'.cores.map (raced s l cp c x n) }) := by
  have races (cp' : Copy) : (cp'.modPushed c.rank fun d m => m.keepEarly s l cp d c x n).dropOld c.rank x n =
      { cp' with cores := cp'.cores.map (raced s l cp c x n) } := by
    simp only [Copy.dropOld, Copy.modPushed, List.map_map]
    rfl
  unfold storeRaces
  rw [bind_ok get_run, bind_ok hctx]
  simp only [races]
  split <;> rfl

theorem pushedBy_nothing (h : cp.nothingPushed c.rank) : (cp.pushedBy c.rank).isEmpty = true := by
  rw [List.isEmpty_iff, Copy.pushedBy, List.flatMap_eq_nil_iff]
  intro d hd
  rw [List.map_eq_nil_iff, List.filter_eq_nil_iff]
  intro m hm e
  exact h d hd m hm (beq_iff_eq.1 e)

/-! ### The store -/

theorem partBadRun_of_badIn {m : Store} {a n lo hi : Nat} (h : m.badIn a n = false) : m.partBadRun a n lo hi = false := by
  rw [Store.badIn, List.any_eq_false] at h
  rw [Store.partBadRun, List.any_eq_false]
  intro w hw
  have := h w hw
  simp at this ⊢
  omega

/-- A core whose port has taken store `id`. -/
def portTook (id : Nat) (p : PadId) (off : Nat) (bs : List Byte) (x : Core) : Core := { x with port := x.port ++ [⟨id, p, off, bs, none⟩] }

/-- Words that are correctable stay as they are. -/
theorem pad_mend {p : PadId} {n : Nat} (hq : cp.pad? p = some q) (hb : q.mem.badIn off n = false) (x : PadId) :
    (cp.modPad p fun q => { q with mem := q.mem.mend off n }).pad? x = cp.pad? x := by
  rw [pad_modPad cp p x (fun q => { q with mem := q.mem.mend off n }) fun _ => rfl]
  by_cases h : x = p
  · subst h
    rw [hq, Option.map_some, if_pos rfl, mend_same _ _ _ hb]
  · simp only [if_neg h, Option.map_id']

/-- The port takes a store to a place without an uncorrectable word: nothing else changes. -/
theorem acceptStore_run {p : PadId} {bs : List Byte} (hl : t.launch? k.lid = some l) (hp : t.copy? k = some cp) (hd : t.core? k = some d)
    (hq : cp.pad? p = some q) (hb : q.mem.badIn off bs.length = false) : ∃ v w, acceptStore k p off bs t = .ok ((), w) ∧ onlyCore t v k d ∧
      onlyCore (v.modCore k (portTook cp.stores p off bs)) w k (portTook cp.stores p off bs d) := by
  let v := t.modCopy k fun c => { c with stores := c.stores + 1 }
  let f := portTook cp.stores p off bs
  have counted : onlyCore t v k d := onlyCore_modCopy _ hd hp (fun _ => rfl) (fun _ => rfl) (fun _ => rfl) rfl rfl rfl
  have copy : (v.modCore k f).copy? k = some (({ cp with stores := cp.stores + 1 } : Copy).modCore k.rank f) := by
    rw [copy_modCore, copy_modCopy_any t k k (fun c => { c with stores := c.stores + 1 }) fun _ => rfl, hp]
    simp only [and_self, if_true, Option.map_some]
  refine ⟨v, (v.modCore k f).modCopy k fun c => c.modPad p fun q => { q with mem := q.mem.mend off bs.length }, ?_, counted, ?_⟩
  · unfold acceptStore
    rw [bind_ok (ctxOf_run hl hp hd)]
    rfl
  · exact onlyCore_modCopy _ (onlyCore_modCore f (fun _ => rfl) counted.1).1 copy (fun _ => rfl) (fun _ => rfl)
      (pad_mend (cp := ({ cp with stores := cp.stores + 1 } : Copy).modCore k.rank f) hq hb) rfl rfl rfl

/-- A store to a place of a scratchpad without an uncorrectable word. -/
theorem ctlStore_pad {p : PadId} {bs : List Byte} (hl : s.launch? k.lid = some l) (hp : s.copy? k = some cp) (hc : s.core? k = some c)
    (hq : cp.pad? p = some q) (hb : q.mem.badIn off bs.length = false) : ∃ t, ctlStore k (.pad p off) bs .write s = .ok ((), t) ∧
      storeAccepted s t k (portTook cp.stores p off bs c) ∧ (cp.nothingPushed c.rank → onlyCore s t k (portTook cp.stores p off bs c)) := by
  have hctx := ctxOf_run hl hp hc
  have sound : badTrap s (ctlAcc k) cp c (.pad p off) bs.length .write (some (0, 0)) = none := by
    simp [badTrap, hq, partBadRun_of_badIn hb]
  have run : ctlStore k (.pad p off) bs .write s = (do storeRaces k (.pad p off) bs.length; acceptStore k p off bs : Act Unit) s := by
    unfold ctlStore
    rw [bind_ok get_run, bind_ok hctx]
    simp only [sound]
    rfl
  have race := storeRaces_run hctx (.pad p off) bs.length
  by_cases hpush : (cp.pushedBy c.rank).isEmpty = true
  · rw [if_pos hpush] at race
    obtain ⟨v, w, hrun, hv, hw⟩ := acceptStore_run (off := off) hl hp hc hq hb
    have only := onlyCore_trans (onlyCore_step hv (portTook cp.stores p off bs) (fun _ => rfl) rfl) hw
    exact ⟨w, by rw [run, bind_ok race, hrun], onlyCore_storeAccepted only, fun _ => only⟩
  · rw [if_neg hpush] at race
    let r := raced s l cp c (.pad p off) bs.length
    have same : BareSame r := bareSame_raced ..
    have first := storeAccepted_mapCores (k := k) same hc
    have copy := copy_modCopy_any s k k (fun cp' => { cp' with cores := cp'.cores.map r }) fun _ => rfl
    have core := core_modCopy_cores (s := s) (k := k) same.rank k
    have launch := launch_modLaunch_any s k.lid k.lid (fun m => m.modCopy k.role fun cp' => { cp' with cores := cp'.cores.map r }) fun _ => rfl
    rw [hp, Option.map_some, if_pos ⟨rfl, rfl⟩] at copy
    rw [hc, Option.map_some, if_pos ⟨rfl, rfl⟩] at core
    rw [hl, Option.map_some, if_pos rfl] at launch
    obtain ⟨v, w, hrun, hv, hw⟩ := acceptStore_run (off := off) launch copy core hq hb
    refine ⟨w, by rw [run, bind_ok race]; exact hrun, ?_, fun h => absurd (pushedBy_nothing h) hpush⟩
    have took := storeAccepted_step (storeAccepted_same first hv core) (portTook cp.stores p off bs) (fun _ => rfl) fun _ => rfl
    exact storeAccepted_same took hw (onlyCore_modCore (portTook cp.stores p off bs) (fun _ => rfl) hv.1).1

/-- A store of the current core to its own scratchpad at rest. -/
theorem storeBytes_own {p : Word} {bs : List Byte} {al : Nat} {o : OpDesc} (ht : s.CoreTurn k l cp c) (h : OwnPlace cp c q p bs.length al off)
    (hb : q.mem.badIn off bs.length = false) : ∃ t, storeBytes p bs al o s = .ok ((), t) ∧
      storeAccepted s t k (portTook cp.stores (.usp c.rank) off bs c) ∧
      (cp.nothingPushed c.rank → onlyCore s t k (portTook cp.stores (.usp c.rank) off bs c)) := by
  obtain ⟨t, hrun, hacc, honly⟩ := ctlStore_pad (bs := bs) ht.launch ht.copy ht.core h.pad hb
  refine ⟨t, ?_, hacc, honly⟩
  have hctx : ctxOf (ctlAcc k).k s = .ok ((l, cp, c), s) := ctxOf_run ht.launch ht.copy ht.core
  have place : checkPtr (ctlAcc k) p bs.length al .write s = .ok (.pad (.usp c.rank) off, s) := by
    unfold checkPtr
    rw [bind_ok hctx]
    dsimp only
    rw [checkPlace_own h]
    rfl
  unfold storeBytes
  rw [bind_ok get_run, ht.cur]
  dsimp only
  rw [bind_ok (theCore_turn ht), bind_ok place]
  exact hrun

end Sys2Proof.Proofs
end

section
/-! Tensor entries and norm registers (R36, R38, R146, R147). -/

namespace Sys2Proof.Proofs

open Sys2Proof.Machine Sys2Proof.Laws

variable {s t : State} {k : CoreRef} {l : Launch} {cp : Copy} {c d : Core} {q : Pad} {off : Nat} {g : BitVec 4} {b : Src} {n : BitVec 6}

theorem loadBytes_own {p : Word} {n al : Nat} (ht : s.CoreTurn k l cp c) (h : OwnPlace cp c q p n al off) (hb : q.mem.badIn off n = false)
    (hr : cp.atRest) (hm : c.remote = []) : ∃ t, loadBytes p n al s = .ok (q.mem.bytes off n, t) ∧ onlyCore s t k c := by
  obtain ⟨t, hrun, only⟩ := ctlRead_own ht.launch ht.copy ht.core h hb hr hm
  refine ⟨t, ?_, only⟩
  unfold loadBytes
  rw [bind_ok get_run, ht.cur]
  dsimp only
  rw [bind_ok (theCore_turn ht)]
  exact hrun

/-- A store instruction of the control core. -/
theorem scalar_stored {len : Nat} {act : Regs → Act Next} (ht : s.CoreTurn k l cp c) (he : s.executes c.regs g)
    (h : act c.regs s = .ok (.adv, t)) (hacc : storeAccepted s t k d) (honly : cp.nothingPushed c.rank → onlyCore s t k d) :
    ∃ u, scalar g len s act = .next u ∧ storeAccepted s u k (d.past len) ∧ (cp.nothingPushed c.rank → onlyCore s u k (d.past len)) := by
  refine ⟨_, scalar_on he.1 he.2, ?_, fun hn => ?_⟩
  · rw [ht.cur, runAct_adv h]
    exact storeAccepted_step hacc (fun x => x.past len) (fun _ => rfl) fun _ => rfl
  · rw [ht.cur]
    exact runAct_core_adv h (honly hn)

section
variable (ht : s.CoreTurn k l cp c) (he : s.executes c.regs g) {i : BitVec 8} (h : OwnPlace cp c q (srB c.regs b) 64 64 off)
  (hb : q.mem.badIn off 64 = false) (hr : cp.atRest) (hm : c.remote = [])
include ht he h hb hr hm

theorem tidset_loads (hok : tidOk (BitVec.ofNat 512 (leNat (q.mem.bytes off 64))) = true) : ∃ t, exec (.tidset i b g) s = .next t ∧
    onlyCore s t k { c with regs := c.regs.skip (srLen b), tens := { c.tens with tids := c.tens.tids.set i.toNat (BitVec.ofNat 512 (leNat (q.mem.bytes off 64))) } } := by
  obtain ⟨u, hload, only⟩ := loadBytes_own ht h hb hr hm
  refine scalar_core ht he ?_ (onlyCore_step only (fun c => { c with tens := { c.tens with
    tids := c.tens.tids.set i.toNat (BitVec.ofNat 512 (leNat (q.mem.bytes off 64))) } }) (fun _ => rfl) rfl)
  rw [bind_ok (theCore_turn ht)]
  refine (bind_ok hload).trans ?_
  simp only [rowOf, hok, Bool.not_true, raiseIf_false, pure_bind_act]
  rfl

theorem tidset_illegal (hok : tidOk (BitVec.ofNat 512 (leNat (q.mem.bytes off 64))) = false) :
    ∃ u, traps (.tidset i b g) s u (Trap.mk' 0x01) ∧ onlyCore s u k c := by
  obtain ⟨u, hload, only⟩ := loadBytes_own ht h hb hr hm
  refine ⟨u, scalar_trap he ?_, only⟩
  rw [bind_ok (theCore_turn ht)]
  refine (bind_ok hload).trans ?_
  simp only [rowOf, hok, Bool.not_false, raiseIf_true, raise_bind]
  rfl

omit hr hm in
theorem tidget_stores : ∃ t, exec (.tidget i b g) s = .next t ∧
    storeAccepted s t k ((portTook cp.stores (.usp c.rank) off (natLe 64 c.tens.tids[i.toNat].toNat) c).past (srLen b)) ∧
    (cp.nothingPushed c.rank → onlyCore s t k ((portTook cp.stores (.usp c.rank) off (natLe 64 c.tens.tids[i.toNat].toNat) c).past (srLen b))) := by
  have len : (natLe 64 c.tens.tids[i.toNat].toNat).length = 64 := natLe_length ..
  obtain ⟨t, hstore, hacc, honly⟩ := storeBytes_own (o := { op := 5, w1 := 0#64, w2 := srB c.regs b, w3 := 0#64 }) ht (by rw [len]; exact h) (by rw [len]; exact hb)
  refine scalar_stored ht he ?_ hacc honly
  rw [bind_ok (theCore_turn ht)]
  exact bind_ok hstore

end

/-! ### Norm registers -/

section
variable (ht : s.CoreTurn k l cp c) (he : s.executes c.regs g)
include ht

theorem normOf_busy (h : ∃ m ∈ c.eng.cmds, engineSrc m.op = 4) : normOf n s = .error (.hold, s) := by
  have busy : (c.eng.cmds.any fun m => engineSrc m.op == 4) = true := by simpa using h
  unfold normOf
  rw [bind_ok (theCore_turn ht)]
  simp only [busy, holdIf_true, hold_bind]
  rfl

theorem normOf_idle (h : ∀ m ∈ c.eng.cmds, engineSrc m.op ≠ 4) : normOf n s = .ok (c.tens.norms[n.toNat], s) := by
  have idle : (c.eng.cmds.any fun m => engineSrc m.op == 4) = false := by simpa using h
  unfold normOf
  rw [bind_ok (theCore_turn ht)]
  simp only [idle, holdIf_false, pure_bind_act]
  rfl

include he

theorem norm_waits (h : ∃ m ∈ c.eng.cmds, engineSrc m.op = 4) :
    (∀ d, exec (.nrd d n g) s = .next s) ∧ (∀ d, exec (.nstat d n g) s = .next s) ∧ exec (.nclr n g) s = .next s := by
  refine ⟨fun d => scalar_hold he ?_, fun d => scalar_hold he ?_, scalar_hold he ?_⟩
  · exact bind_error (normOf_busy ht h)
  · exact bind_error (normOf_busy ht h)
  · exact (bind_ok (theCore_turn ht)).trans (bind_error (normOf_busy ht h))

variable (h : ∀ m ∈ c.eng.cmds, engineSrc m.op ≠ 4)
include h

theorem nrd_reads (d : BitVec 6) : ∃ t, exec (.nrd d n g) s = .next t ∧ onlyCore s t k { c with regs := (if d = 0#6 then c.regs else
    (c.regs.set d (ofU c.tens.norms[n.toNat].value.toNat)).set (d + 1#6) (ofU (c.tens.norms[n.toNat].value.toNat / 2 ^ 64))).skip 4 } := by
  have lo : c.tens.norms[n.toNat].value.extractLsb' 0 64 = ofU c.tens.norms[n.toNat].value.toNat := by
    rw [BitVec.extractLsb', Nat.shiftRight_zero]; rfl
  have hi : c.tens.norms[n.toNat].value.extractLsb' 64 64 = ofU (c.tens.norms[n.toNat].value.toNat / 2 ^ 64) := by
    rw [BitVec.extractLsb', Nat.shiftRight_eq_div_pow]; rfl
  have pair : (c.regs.set d (ofU c.tens.norms[n.toNat].value.toNat)).set (pairHi d) (ofU (c.tens.norms[n.toNat].value.toNat / 2 ^ 64)) =
      if d = 0#6 then c.regs else
        (c.regs.set d (ofU c.tens.norms[n.toNat].value.toNat)).set (d + 1#6) (ofU (c.tens.norms[n.toNat].value.toNat / 2 ^ 64)) := by
    unfold pairHi
    split
    next h0 => subst h0; rfl
    next => rfl
  obtain ⟨t, hx, ho⟩ := setX_core ht.cur (onlyCore_refl ht.core) d (ofU c.tens.norms[n.toNat].value.toNat)
  obtain ⟨u, hx', ho'⟩ := setX_core ht.cur ho (pairHi d) (ofU (c.tens.norms[n.toNat].value.toNat / 2 ^ 64))
  dsimp only at ho'
  rw [pair] at ho'
  refine scalar_core ht he ?_ ho'
  rw [bind_ok (normOf_idle ht h)]
  simp only [lo, hi]
  rw [bind_ok hx, bind_ok hx']
  rfl

theorem nstat_reads (d : BitVec 6) : ∃ t, exec (.nstat d n g) s = .next t ∧ onlyCore s t k { c with regs :=
    (c.regs.set d (ofU (c.tens.norms[n.toNat].unders.toNat * 2 ^ 16 + c.tens.norms[n.toNat].overs.toNat))).skip 4 } := by
  obtain ⟨t, hx, ho⟩ := setX_core ht.cur (onlyCore_refl ht.core) d (ofU (c.tens.norms[n.toNat].unders.toNat * 2 ^ 16 + c.tens.norms[n.toNat].overs.toNat))
  refine scalar_core ht he ?_ ho
  rw [bind_ok (normOf_idle ht h)]
  exact bind_ok hx

theorem nclr_clears : ∃ t, exec (.nclr n g) s = .next t ∧
    onlyCore s t k { c with regs := c.regs.skip 4, tens := { c.tens with norms := c.tens.norms.set n.toNat Norm.zero } } := by
  refine scalar_core ht he ?_ (onlyCore_step (onlyCore_refl ht.core) (fun c => c.modNorm n fun _ => Norm.zero) (fun _ => rfl) rfl)
  rw [bind_ok (theCore_turn ht)]
  exact bind_ok (normOf_idle ht h)

end

/-- Settles O28. -/
theorem tensorAndNormEntries : Obligations.TensorAndNormEntries := by
  refine ⟨?_, fun s k l cp c g n ht he => ⟨norm_waits ht he, fun h => ⟨nrd_reads ht he h, nstat_reads ht he h, nclr_clears ht he h⟩⟩⟩
  rintro s k l cp c g i b off q ht he h hb hr hm
  refine ⟨tidset_loads ht he h hb hr hm, tidset_illegal ht he h hb hr hm, ?_⟩
  rintro _ rfl
  have port : c.port = [] := (hr.2 c (rank_of_core ht.copy ht.core).2).1
  simpa only [portTook, Core.past, port, List.nil_append] using tidget_stores (i := i) ht he h hb

end Sys2Proof.Proofs
end

section
/-! Special registers (R23 to R25, R161). -/

namespace Sys2Proof.Proofs

open Sys2Proof.Machine Sys2Proof.Laws

variable {s : State} {k : CoreRef} {l : Launch} {cp : Copy} {c : Core} {g : BitVec 4} {d n a : BitVec 6} {p : Policy} {v : Word}

/-! ### MFS -/

theorem mfs_noRegister (he : s.executes c.regs g) (h : 13 ≤ n.toNat) : traps (.mfs d n g) s s (Trap.mk' 0x01) := by
  refine scalar_trap he ?_
  simp only [h, decide_true, raiseIf_true, raise_bind]
  rfl

theorem mfs_reads (ht : s.CoreTurn k l cp c) (he : s.executes c.regs g) (h : n.toNat < 13) (h6 : n ≠ 6#6) :
    ∃ t, exec (.mfs d n g) s = .next t ∧ onlyCore s t k { c with regs := (c.regs.set d (specialReg s l cp c n.toNat)).skip 4 } := by
  obtain ⟨t, hx, ho⟩ := setX_core ht.cur (onlyCore_refl ht.core) d (specialReg s l cp c n.toNat)
  refine scalar_core ht he ?_ ho
  simp only [show ¬ 13 ≤ n.toNat by omega, decide_false, raiseIf_false, pure_bind_act]
  rw [bind_ok get_run]
  simp only [ht.cur]
  rw [bind_ok (theCore_turn ht)]
  simp only [if_neg h6]
  exact bind_ok hx

theorem bindingWord_eq (o : Option (BitVec 32)) : bindingWord o = (o.map fun v => ofU (2 ^ 32 + v.toNat)).getD 0#64 := by
  cases o <;> rfl

/-! ### MTS -/

/-- What MTS makes of the policy: nothing for a register or a value that it may not write. -/
def newPolicy (p : Policy) (rep : Nat) (n : BitVec 6) (v : Word) : Option Policy :=
  match n.toNat with
  | 11 => p.setTokerr v
  | 12 => p.setPolicy rep v
  | _ => none

/-- MTS with the policy that it makes, in cycle `cc`. -/
def setPolicyOf (k : CoreRef) (cc : Nat) : Option Policy → Act Next
  | none => raiseC 0x01
  | some p => do
      onCore k fun c => { c with policy := p.raise (c.raisedNow cc) }
      pure .adv

theorem mts_run (ht : s.CoreTurn k l cp c) (he : s.executes c.regs g) :
    exec (.mts a n g) s = scalar g 4 s fun _ => setPolicyOf k s.cc (newPolicy c.policy l.packet.rep n (c.regs.get a)) := by
  show scalar _ _ _ _ = _
  rw [scalar_on he.1 he.2, scalar_on he.1 he.2]
  unfold runAct
  rw [bind_ok (theCore_turn ht)]
  rfl

theorem mts_illegal (ht : s.CoreTurn k l cp c) (he : s.executes c.regs g) (h : newPolicy c.policy l.packet.rep n (c.regs.get a) = none) :
    traps (.mts a n g) s s (Trap.mk' 0x01) := by
  rw [traps, mts_run ht he, h]
  exact scalar_trap he rfl

theorem mts_writes (ht : s.CoreTurn k l cp c) (he : s.executes c.regs g) (h : newPolicy c.policy l.packet.rep n (c.regs.get a) = some p) :
    ∃ t, exec (.mts a n g) s = .next t ∧ onlyCore s t k { c with regs := c.regs.skip 4, policy := p.raise (c.raisedNow s.cc) } := by
  rw [mts_run ht he, h]
  exact scalar_core ht he rfl (onlyCore_step (onlyCore_refl ht.core) (fun c => { c with policy := p.raise (c.raisedNow s.cc) }) (fun _ => rfl) rfl)

theorem bitAt_beq (v : Word) (i : Nat) : bitAt v i = (v.toNat / 2 ^ i % 2 == 1) := by
  rw [bitAt_eq]
  rfl

/-- The fields of `sr.tokerr` that a write may not change are as they stand. -/
theorem setTokerr_some (h1 : v.toNat / 2 ^ 10 = 0) (h2 : v.toNat / 2 ^ 6 % 4 = 0) (h3 : v.toNat % 2 ^ 6 = p.tok.toNat) :
    p.setTokerr v = some { p with trap := v.toNat / 2 ^ 9 % 2 == 1, sticky := v.toNat / 2 ^ 8 % 2 == 1 } := by
  have tok : v.setWidth 6 = p.tok := BitVec.eq_of_toNat_eq ((BitVec.toNat_setWidth ..).trans h3)
  simp only [Policy.setTokerr, fieldNat_eq, bitAt_beq, tok]
  exact if_neg (by simp; omega)

theorem setTokerr_none (h : v.toNat / 2 ^ 10 ≠ 0 ∨ v.toNat / 2 ^ 6 % 4 ≠ 0 ∨ v.toNat % 2 ^ 6 ≠ p.tok.toNat) : p.setTokerr v = none := by
  have top : v.toNat / 2 ^ 10 % 2 ^ 54 = v.toNat / 2 ^ 10 := Nat.mod_eq_of_lt (by have := v.isLt; omega)
  have tok : v.setWidth 6 ≠ p.tok ↔ v.toNat % 2 ^ 6 ≠ p.tok.toNat := by rw [Ne, ← BitVec.toNat_inj, BitVec.toNat_setWidth]
  refine if_pos ?_
  simp only [fieldNat_eq, top, Bool.or_eq_true, decide_eq_true_eq, tok, or_assoc]
  exact h

/-- The fields of `sr.policy` that a write may not change are as they stand. -/
theorem setPolicy_some {rep : Nat} (h1 : v.toNat / 2 ^ 23 = 0) (h2 : v.toNat / 2 ^ 14 % 4 = 0) (h3 : v.toNat / 2 ^ 2 % 2 ^ 6 = 0) (h4 : v.toNat % 4 = rep) :
    p.setPolicy rep v = some { p with flags := BitVec.ofNat 7 (v.toNat / 2 ^ 16), aen := BitVec.ofNat 5 (v.toNat / 2 ^ 9), dfen := v.toNat / 2 ^ 8 % 2 == 1 } := by
  have bits (lo n : Nat) : v.extractLsb' lo n = BitVec.ofNat n (v.toNat / 2 ^ lo) := by rw [BitVec.extractLsb', Nat.shiftRight_eq_div_pow]
  simp only [Policy.setPolicy, fieldNat_eq, bitAt_beq, bits]
  exact if_neg (by simp; omega)

theorem setPolicy_none {rep : Nat} (h : v.toNat / 2 ^ 23 ≠ 0 ∨ v.toNat / 2 ^ 14 % 4 ≠ 0 ∨ v.toNat / 2 ^ 2 % 2 ^ 6 ≠ 0 ∨ v.toNat % 4 ≠ rep) :
    p.setPolicy rep v = none := by
  have top : v.toNat / 2 ^ 23 % 2 ^ 41 = v.toNat / 2 ^ 23 := Nat.mod_eq_of_lt (by have := v.isLt; omega)
  refine if_pos ?_
  simp only [fieldNat_eq, top, pow_zero, Nat.div_one, Bool.or_eq_true, decide_eq_true_eq, or_assoc]
  exact h

theorem newPolicy_none (h11 : n ≠ 11#6) (h12 : n ≠ 12#6) (rep : Nat) : newPolicy p rep n v = none := by
  unfold newPolicy
  split
  next h => exact absurd (BitVec.eq_of_toNat_eq h) h11
  next h => exact absurd (BitVec.eq_of_toNat_eq h) h12
  next => rfl

/-- Settles O34. -/
theorem specialRegisters : Obligations.SpecialRegisters := by
  intro s k l cp c g ht he
  refine ⟨fun d => ⟨mfs_reads (n := 0#6) ht he (by decide) (by decide), mfs_reads (n := 1#6) ht he (by decide) (by decide),
    mfs_reads (n := 8#6) ht he (by decide) (by decide), mfs_reads (n := 2#6) ht he (by decide) (by decide), mfs_reads (n := 3#6) ht he (by decide) (by decide),
    mfs_reads (n := 4#6) ht he (by decide) (by decide), mfs_reads (n := 5#6) ht he (by decide) (by decide), ?_,
    mfs_reads (n := 9#6) ht he (by decide) (by decide), mfs_reads (n := 10#6) ht he (by decide) (by decide),
    mfs_reads (n := 11#6) ht he (by decide) (by decide), mfs_reads (n := 12#6) ht he (by decide) (by decide)⟩, ?_, fun d n h => mfs_noRegister he h⟩
  · rw [← bindingWord_eq]
    exact mfs_reads (n := 7#6) ht he (by decide) (by decide)
  · rintro a w now rfl rfl
    refine ⟨fun h1 h2 h3 => mts_writes (n := 11#6) ht he (setTokerr_some h1 h2 h3), fun h1 h2 h3 h4 => mts_writes (n := 12#6) ht he (setPolicy_some h1 h2 h3 h4),
      fun h => mts_illegal (n := 11#6) ht he (setTokerr_none h), fun h => mts_illegal (n := 12#6) ht he (setPolicy_none h), fun n h11 h12 => mts_illegal ht he (newPolicy_none h11 h12 _)⟩

end Sys2Proof.Proofs
end

section
/-! A commit point with nothing to wait for, and what its instruction does after it (R113). -/

namespace Sys2Proof.Proofs

open Sys2Proof.Machine Sys2Proof.Laws

variable {s s3 t : State} {k : CoreRef} {l : Launch} {cp : Copy} {c d : Core} {g : BitVec 4} {op : Nat} {res : Word} {o : OpDesc}
  {r : Word × Word × List (BitVec 32)} {perform : Act (Word × Word × List (BitVec 32))}

/-- The commit point of core `k` has been made, by an effect that left `s3`: the core is now `d`, no other core has changed. -/
structure CommitDone (s s3 t : State) (k : CoreRef) (l : Launch) (d : Core) (op : Nat) (res : Word) : Prop where
  logged : Logged s t k l d op res
  others : otherCores s t k
  sys : t.sys = s3.sys
  dram : t.dram = s3.dram

/-- A further change of the core keeps what has been logged. -/
theorem logged_step (h : Logged s t k l d op res) (f : Core → Core) (hf : ∀ x, (f x).rank = x.rank) : Logged s (t.modCore k f) k l (f d) op res := by
  obtain ⟨core, ⟨e, m, hm, hlog⟩, ⟨x, y, hx, hy, hcopy⟩, rest⟩ := h
  have launch : (t.modCore k f).launch? k.lid = some (m.modCopy k.role fun c => c.modCore k.rank f) := by rw [launch_modCore, hm]; rfl
  have copy : (t.modCore k f).copy? k = some (y.modCore k.rank f) := by rw [copy_modCore, hy]; rfl
  exact ⟨by rw [coreAt_modCore f hf, core]; rfl, ⟨e, _, launch, hlog⟩, ⟨x, _, hx, copy, hcopy⟩, rest⟩

theorem CommitDone.step (h : CommitDone s s3 t k l d op res) (f : Core → Core) (hf : ∀ x, (f x).rank = x.rank) :
    CommitDone s s3 (t.modCore k f) k l (f d) op res :=
  ⟨logged_step h.logged f hf, fun j hj => (coreAt_modCore_ne hj f hf).trans (h.others j hj), h.sys, h.dram⟩

theorem CommitDone.cur (h : CommitDone s s3 t k l d op res) : t.cur = s.cur := h.logged.rest.2.2.2.2.2.1

/-- A register written after the commit point. -/
theorem setX_commit (ht : s.cur = .core k) (h : CommitDone s s3 t k l d op res) (i : BitVec 6) (v : Word) :
    ∃ u, setX i v t = .ok ((), u) ∧ CommitDone s s3 u k l { d with regs := d.regs.set i v } op res := by
  refine ⟨_, setX_run i v, ?_⟩
  rw [State.modRegs, h.cur, ht]
  exact h.step (fun x => { x with regs := x.regs.set i v }) fun _ => rfl

/-- An instruction that goes on after its commit point. -/
theorem scalar_commit {len : Nat} {act : Regs → Act Next} (ht : s.CoreTurn k l cp c) (he : s.executes c.regs g) (ha : act c.regs s = .ok (.adv, t))
    (h : CommitDone s s3 t k l d op res) : ∃ u, scalar g len s act = .next u ∧ CommitDone s s3 u k l (d.past len) op res := by
  refine ⟨_, scalar_on he.1 he.2, ?_⟩
  rw [ht.cur, runAct_adv ha]
  exact h.step (fun x => x.past len) fun _ => rfl

/-- What the effect of a commit point must leave as it was. -/
structure EffectKeeps (s s3 : State) : Prop where
  cwnN : s3.cwnN = s.cwnN
  cwnS : s3.cwnS = s.cwnS
  anoles : s3.anoles = s.anoles
  link : s3.link = s.link
  cc : s3.cc = s.cc
  cur : s3.cur = s.cur
  sched : s3.sched = s.sched

/-- A commit point whose effect keeps the launches. -/
theorem commit_done (h : s.AtCommit k l cp c) (o : OpDesc) (hp : perform (prep s k c (cp.commitSig c o)) = .ok (r, s3))
    (hl : s3.launches = (prep s k c (cp.commitSig c o)).launches) (hk : EffectKeeps s s3) :
    ∃ t, commitPoint k o perform s = .ok (r, t) ∧ CommitDone s s3 t k l c.committed o.op r.1 := by
  obtain ⟨t, run, core, others, ⟨L, rfl⟩, log, copy⟩ := commit_quiet h o hp hl
  exact ⟨_, run, ⟨⟨core, log, copy, hk.cwnN, hk.cwnS, hk.anoles, hk.link, hk.cc, hk.cur, hk.sched⟩, others, rfl, rfl⟩⟩

/-- The same, of the current agent (R396). -/
theorem commitAny_core (h : s.cur = .core k) : commitAny o perform s = commitPoint k o perform s := by
  unfold commitAny
  rw [bind_ok get_run, h]

/-- What the effect of a commit point finds as it was. -/
theorem prep_keeps (s : State) (k : CoreRef) (c : Core) (sig : BitVec 64) :
    EffectKeeps s (prep s k c sig) ∧ (prep s k c sig).sys = s.sys ∧ (prep s k c sig).dram = s.dram ∧ (prep s k c sig).host = s.host := by
  obtain ⟨L, lags, e⟩ := prep_rest s k c sig
  rw [e]
  exact ⟨⟨rfl, rfl, rfl, rfl, rfl, rfl, rfl⟩, rfl, rfl, rfl⟩

/-- A commit point that only reads. -/
theorem commit_reads (h : s.AtCommit k l cp c) (o : OpDesc) (hp : perform (prep s k c (cp.commitSig c o)) = .ok (r, prep s k c (cp.commitSig c o))) :
    ∃ t, commitPoint k o perform s = .ok (r, t) ∧ CommitDone s s t k l c.committed o.op r.1 := by
  obtain ⟨keeps, sys, dram, -⟩ := prep_keeps s k c (cp.commitSig c o)
  obtain ⟨t, run, done⟩ := commit_done h o hp rfl keeps
  exact ⟨t, run, done.logged, done.others, done.sys.trans sys, done.dram.trans dram⟩

/-- An instruction that is a commit point, and no more. -/
theorem scalar_commitPoint {len : Nat} {act : Regs → Act Next} (h : s.AtCommit k l cp c) (he : s.executes c.regs g)
    (hact : act c.regs s = (commitPoint k o perform >>= fun _ => pure .adv) s) (hp : perform (prep s k c (cp.commitSig c o)) = .ok (r, s3))
    (hl : s3.launches = (prep s k c (cp.commitSig c o)).launches) (hk : EffectKeeps s s3) :
    ∃ u, scalar g len s act = .next u ∧ CommitDone s s3 u k l (c.committed.past len) o.op r.1 := by
  obtain ⟨t, run, done⟩ := commit_done h o hp hl hk
  exact scalar_commit h.toCoreTurn he (hact.trans (bind_ok run)) done

/-- An instruction that is a commit point whose result it writes. -/
theorem scalar_commitPoint_reg {len : Nat} {act : Regs → Act Next} {i : BitVec 6} (h : s.AtCommit k l cp c) (he : s.executes c.regs g)
    (hact : act c.regs s = (commitPoint k o perform >>= fun x => do setX i x.1; pure .adv) s)
    (hp : perform (prep s k c (cp.commitSig c o)) = .ok (r, s3))
    (hl : s3.launches = (prep s k c (cp.commitSig c o)).launches) (hk : EffectKeeps s s3) :
    ∃ u, scalar g len s act = .next u ∧ CommitDone s s3 u k l { c.committed with regs := (c.regs.set i r.1).skip len } o.op r.1 := by
  obtain ⟨t, run, done⟩ := commit_done h o hp hl hk
  obtain ⟨u, hx, done⟩ := setX_commit h.cur done i r.1
  exact scalar_commit h.toCoreTurn he (hact.trans ((bind_ok run).trans (bind_ok hx))) done

/-- The effect that an instruction of any agent has at its commit point. -/
theorem scalar_commitAny {len : Nat} {act : Regs → Act Next} (h : s.AtCommit k l cp c) (he : s.executes c.regs g)
    (hact : act c.regs = commitAny o perform >>= fun _ => pure .adv) (hp : perform (prep s k c (cp.commitSig c o)) = .ok (r, s3))
    (hl : s3.launches = (prep s k c (cp.commitSig c o)).launches) (hk : EffectKeeps s s3) :
    ∃ u, scalar g len s act = .next u ∧ CommitDone s s3 u k l (c.committed.past len) o.op r.1 := by
  refine scalar_commitPoint h he ?_ hp hl hk
  rw [hact, bind_run, bind_run, commitAny_core h.cur]

end Sys2Proof.Proofs
end

section
/-! The clock, HFLUSH and EXIT (R26, R157, R167). -/

namespace Sys2Proof.Proofs

open Sys2Proof.Machine Sys2Proof.Laws

variable {s t : State} {k : CoreRef} {l : Launch} {cp : Copy} {c : Core} {g : BitVec 4} {b : Src}

theorem mfs_clock (h : s.AtCommit k l cp c) (he : s.executes c.regs g) (d : BitVec 6) :
    ∃ t, exec (.mfs d 6#6 g) s = .next t ∧ CommitDone s s t k l { c.committed with regs := (c.regs.set d (ofU s.cc)).skip 4 } 7 (ofU s.cc) := by
  let o : OpDesc := ⟨7, 0#64, 0#64, 0#64⟩
  have counts : (do let s ← get; pure (BitVec.ofNat 64 s.cc, 0#64, []) : Act (Word × Word × List (BitVec 32))) (prep s k c (cp.commitSig c o)) =
      .ok ((ofU s.cc, 0#64, []), prep s k c (cp.commitSig c o)) := by
    rw [bind_ok get_run, (prep_keeps s k c _).1.cc]
    rfl
  obtain ⟨t, run, done⟩ := commit_reads h o counts
  obtain ⟨u, hx, done⟩ := setX_commit h.cur done d (ofU s.cc)
  refine scalar_commit h.toCoreTurn he ?_ done
  simp only [show (decide (13 ≤ (6#6 : BitVec 6).toNat)) = false from rfl, raiseIf_false, pure_bind_act]
  rw [bind_ok get_run]
  simp only [h.cur]
  rw [bind_ok (theCore_turn h.toCoreTurn)]
  simp only [if_true]
  rw [bind_ok run]
  exact bind_ok hx

theorem hflush_passes (h : s.AtCommit k l cp c) (he : s.executes c.regs g) (hw : s.host.writes = []) (a : BitVec 6) :
    ∃ t, exec (.hflush a b g) s = .next t ∧ CommitDone s s t k l { c.committed with regs := c.regs.skip (srLen b) } 6 0#64 := by
  let o : OpDesc := ⟨6, c.regs.get a, srB c.regs b, 0#64⟩
  have empty : (prep s k c (cp.commitSig c o)).host.writes.isEmpty = true := by rw [(prep_keeps s k c _).2.2.2, hw]; rfl
  obtain ⟨keeps, sys, dram, -⟩ := prep_keeps s k c (cp.commitSig c o)
  obtain ⟨u, step, done⟩ : ∃ u, exec (.hflush a b g) s = .next u ∧ CommitDone s (prep s k c (cp.commitSig c o)) u k l (c.committed.past (srLen b)) 6 0#64 := by
    refine scalar_commitAny (o := o) (r := (0#64, 0#64, [])) h he rfl ?_ rfl keeps
    rw [bind_ok get_run, empty, Bool.or_true, if_pos rfl]
    rfl
  exact ⟨u, step, done.logged, done.others, done.sys.trans sys, done.dram.trans dram⟩

theorem exit_ends (h : s.AtCommit k l cp c) (he : s.executes c.regs g) (hb : ∀ i : Fin 256, c.tens.banks[i.val] = false) :
    ∃ t, exec (.exit g) s = .next t ∧ CommitDone s s t k l { c.committed with regs := c.regs.skip 4, exited := true } 9 0#64 := by
  have free : (c.tens.banks.toList.any id) = false := by
    rw [List.any_eq_false]
    intro x hx
    obtain ⟨i, hi, rfl⟩ := List.getElem_of_mem hx
    simpa using hb ⟨i, by simpa using hi⟩
  obtain ⟨t, run, done⟩ := commit_reads (perform := pure (0#64, 0#64, [])) h ⟨9, 0#64, 0#64, 0#64⟩ rfl
  refine scalar_commit h.toCoreTurn he ?_ (done.step (fun c => { c with exited := true }) fun _ => rfl)
  rw [bind_ok (theCore_turn h.toCoreTurn)]
  simp only [h.pushed, free, holdIf_false, raiseIf_false, pure_bind_act]
  rw [bind_ok run]
  rfl

theorem exit_banks (h : s.AtCommit k l cp c) (he : s.executes c.regs g) (hb : ∃ i : Fin 256, c.tens.banks[i.val] = true) :
    traps (.exit g) s s (Trap.mk' 0x0C) := by
  have used : (c.tens.banks.toList.any id) = true := by
    obtain ⟨i, hi⟩ := hb
    exact List.any_eq_true.2 ⟨_, List.getElem_mem (n := i.val) (by simp), by simpa using hi⟩
  refine scalar_trap he ?_
  rw [bind_ok (theCore_turn h.toCoreTurn)]
  simp only [h.pushed, used, holdIf_false, raiseIf_true, pure_bind_act, raise_bind]
  rfl

/-- Settles O30. -/
theorem clockFlushExit : Obligations.ClockFlushExit := by
  intro s k l cp c g h he
  refine ⟨fun d => ?_, fun a b hw => ?_, fun hb => ?_, exit_banks h he⟩
  · obtain ⟨t, step, done⟩ := mfs_clock h he d
    exact ⟨t, step, done.logged, done.others, done.sys, done.dram⟩
  · obtain ⟨t, step, done⟩ := hflush_passes (b := b) h he hw a
    exact ⟨t, step, done.logged, done.others, done.sys, done.dram⟩
  · obtain ⟨t, step, done⟩ := exit_ends h he hb
    exact ⟨t, step, done.logged, done.others, done.sys, done.dram⟩

end Sys2Proof.Proofs
end

section
/-! The slots of versioned regions (R148 to R153, R344). -/

namespace Sys2Proof.Proofs

open Sys2Proof.Machine Sys2Proof.Laws

variable {s t : State} {k : CoreRef} {l : Launch} {cp : Copy} {c : Core} {g : BitVec 4} {a : BitVec 6} {b : Src} {rg : Region} {v : BitVec 32} {i : Nat}
  {ctx : BitVec 6}

/-! ### Finding a slot -/

theorem findSlot_eq {f : Nat → BitVec 32 → Nat → Bool} (hi : i < rg.slots) (h : f (s.slotState rg i) (s.slotTag rg i) (s.slotCount rg i) = true)
    (hfirst : ∀ j, j < i → f (s.slotState rg j) (s.slotTag rg j) (s.slotCount rg j) = false) : s.findSlot rg f = some i :=
  List.find?_range_eq_some.2 ⟨h, List.mem_range.2 hi, fun j hj => by rw [hfirst j hj]; rfl⟩

theorem findSlot_none {f : Nat → BitVec 32 → Nat → Bool} (h : ∀ j, j < rg.slots → f (s.slotState rg j) (s.slotTag rg j) (s.slotCount rg j) = false) :
    s.findSlot rg f = none :=
  List.find?_eq_none.2 fun j hj => by rw [h j (List.mem_range.1 hj)]; exact Bool.false_ne_true

/-! ### The effects -/

/-- What VOPEN leaves: the slot is open with its version, and its opening is the newest. -/
def slotOpened (s : State) (ctx : BitVec 6) (rg : Region) (i : Nat) (v : BitVec 32) : State :=
  { s.slotPut rg i 0 v 1 with
    openings := s.openings + 1
    opens := (s.opens.filter fun o => !(o.1 == ctx && o.2.1 == rg.id && o.2.2.1 == i)) ++ [(ctx, rg.id, i, s.openings + 1)] }

theorem openSlot_run (hold : ∀ j, j < rg.slots → s.slotState rg j ≠ 1 ∧ s.slotState rg j ≠ 2 ∧
      (s.slotState rg j = 3 ∨ s.slotState rg j = 4 → (s.slotTag rg j).toNat < v.toNat))
    (hi : i < rg.slots) (hfree : s.slotState rg i = 0) (hfirst : ∀ j, j < i → s.slotState rg j ≠ 0) :
    openSlot ctx rg v s = .ok (ofU i, slotOpened s ctx rg i v) := by
  have newer : ((List.range rg.slots).filter fun i =>
      (s.slotState rg i == 3 || s.slotState rg i == 4) && decide (v.toNat ≤ (s.slotTag rg i).toNat)) = [] := by
    refine List.filter_eq_nil_iff.2 fun j hj => ?_
    obtain ⟨-, -, htag⟩ := hold j (List.mem_range.1 hj)
    simp only [Bool.and_eq_true, Bool.or_eq_true, beq_iff_eq, decide_eq_true_eq, not_and, not_le]
    exact htag
  have closed : s.findSlot rg (fun st _ _ => st == 1 || st == 2) = none := findSlot_none fun j hj => by
    obtain ⟨h1, h2, -⟩ := hold j hj
    simp [h1, h2]
  have free : s.findSlot rg (fun st _ _ => st == 0) = some i := findSlot_eq hi (by simp [hfree]) fun j hj => by simp [hfirst j hj]
  unfold openSlot
  rw [bind_ok get_run]
  simp only [newer, closed, free]
  rfl

/-- A launch of the context that lags behind at the version (R348). -/
def lagsAt (ctx : BitVec 6) (v : BitVec 32) (l : Launch) : Bool := l.ctx == ctx && l.lag.contains v

theorem publishSlot_run (hi : i < rg.slots) (hopen : s.slotState rg i = 1) (htag : s.slotTag rg i = v) (hsent : s.slotInFlight ctx rg i = false)
    (hfirst : ∀ j, j < i → ¬ ((s.slotState rg j = 1 ∨ s.slotState rg j = 2) ∧ s.slotTag rg j = v)) :
    publishSlot ctx rg v s =
      .ok ((), s.slotPut rg i (s.slotCount rg i + (s.launches.filter (lagsAt ctx v)).length) v 3) := by
  have found : s.findSlot rg (fun st tag _ => (st == 1 || st == 2) && tag == v) = some i :=
    findSlot_eq hi (by simp [hopen, htag]) fun j hj => by simpa using hfirst j hj
  unfold publishSlot
  rw [bind_ok get_run]
  simp only [found, hsent, holdIf_false, pure_bind_act, hopen]
  rfl

/-- What VRETIRE leaves of a live slot. -/
def slotRetired (s : State) (rg : Region) (i : Nat) (v : BitVec 32) : State :=
  if s.slotCount rg i = 0 then s.slotPut rg i 0 0#32 0 else s.slotPut rg i (s.slotCount rg i) v 4

theorem retireSlot_run (hi : i < rg.slots) (hlive : s.slotState rg i = 3) (htag : s.slotTag rg i = v)
    (hfirst : ∀ j, j < i → ¬ (s.slotState rg j = 3 ∧ s.slotTag rg j = v)) : retireSlot rg v s = .ok ((), slotRetired s rg i v) := by
  have found : s.findSlot rg (fun st tag _ => st == 3 && tag == v) = some i :=
    findSlot_eq hi (by simp [hlive, htag]) fun j hj => by simpa using hfirst j hj
  unfold retireSlot slotRetired
  rw [bind_ok get_run]
  simp only [found]
  split <;> rfl

theorem querySlot_run {x : Word} (h : (∃ i, i < rg.slots ∧ s.slotState rg i ≠ 0 ∧ s.slotTag rg i = v ∧
      (∀ j, j < i → ¬ (s.slotState rg j ≠ 0 ∧ s.slotTag rg j = v)) ∧ x = ofU (s.slotCount rg i * 2 ^ 16 + s.slotState rg i * 2 ^ 4 + i)) ∨
    ((∀ i, i < rg.slots → s.slotState rg i ≠ 0 → s.slotTag rg i ≠ v) ∧ x = 0xF#64)) : querySlot rg v s = .ok (x, s) := by
  unfold querySlot
  rw [bind_ok get_run]
  rcases h with ⟨i, hi, hused, htag, hfirst, rfl⟩ | ⟨hnone, rfl⟩
  · have found : s.findSlot rg (fun st tag _ => st != 0 && tag == v) = some i :=
      findSlot_eq hi (by simp [hused, htag]) fun j hj => by simpa using hfirst j hj
    simp only [found]
    rfl
  · have none : s.findSlot rg (fun st tag _ => st != 0 && tag == v) = none := findSlot_none fun j hj => by simpa using hnone j hj
    simp only [none]
    rfl

/-! ### What the effect of a commit point finds -/

/-- A state whose launches and writes on their way are others. -/
def relaunched (s : State) (L : List Launch) (lags : List LagWrite) : State := { s with launches := L, lags := lags }

theorem prep_relaunched (s : State) (k : CoreRef) (c : Core) (sig : BitVec 64) : ∃ L lags, prep s k c sig = relaunched s L lags := prep_rest s k c sig

section
variable (L : List Launch) (lags : List LagWrite)

theorem relaunched_keeps : EffectKeeps s (relaunched s L lags) := ⟨rfl, rfl, rfl, rfl, rfl, rfl, rfl⟩
@[simp] theorem relaunched_dram : (relaunched s L lags).dram = s.dram := rfl
@[simp] theorem relaunched_sys : (relaunched s L lags).sys = s.sys := rfl
@[simp] theorem relaunched_slotState : (relaunched s L lags).slotState rg i = s.slotState rg i := rfl
@[simp] theorem relaunched_slotTag : (relaunched s L lags).slotTag rg i = s.slotTag rg i := rfl
@[simp] theorem relaunched_slotCount : (relaunched s L lags).slotCount rg i = s.slotCount rg i := rfl
@[simp] theorem relaunched_slotInFlight : (relaunched s L lags).slotInFlight ctx rg i = s.slotInFlight ctx rg i := rfl
@[simp] theorem relaunched_region (n : Nat) : (relaunched s L lags).region? ctx n = s.region? ctx n := rfl
@[simp] theorem relaunched_dpaReady (n : Nat) : (relaunched s L lags).dpaReady n = s.dpaReady n := rfl
@[simp] theorem relaunched_hasLive : (relaunched s L lags).hasLive ctx v = s.hasLive ctx v := rfl

end

theorem EffectKeeps.trans {u : State} (h : EffectKeeps s t) (h' : EffectKeeps t u) : EffectKeeps s u :=
  ⟨h'.cwnN.trans h.cwnN, h'.cwnS.trans h.cwnS, h'.anoles.trans h.anoles, h'.link.trans h.link, h'.cc.trans h.cc, h'.cur.trans h.cur, h'.sched.trans h.sched⟩

theorem dramPut_keeps (n : Nat) (bs : List Byte) : EffectKeeps s (s.dramPut n bs) := ⟨rfl, rfl, rfl, rfl, rfl, rfl, rfl⟩
theorem dramPut_launches (n : Nat) (bs : List Byte) : (s.dramPut n bs).launches = s.launches := rfl

theorem slotPut_keeps (n st : Nat) : EffectKeeps s (s.slotPut rg i n v st) := (dramPut_keeps _ _).trans (dramPut_keeps _ _)
theorem slotPut_launches (n st : Nat) : (s.slotPut rg i n v st).launches = s.launches := (dramPut_launches _ _).trans (dramPut_launches _ _)

theorem slotOpened_keeps : EffectKeeps s (slotOpened s ctx rg i v) := by
  have h : EffectKeeps s (s.slotPut rg i 0 v 1) := slotPut_keeps 0 1
  exact ⟨h.cwnN, h.cwnS, h.anoles, h.link, h.cc, h.cur, h.sched⟩

theorem slotOpened_launches : (slotOpened s ctx rg i v).launches = s.launches := by
  rw [slotOpened]
  exact slotPut_launches (s := s) (rg := rg) (i := i) (v := v) 0 1

theorem slotOpened_dram : (slotOpened s ctx rg i v).dram = (s.slotPut rg i 0 v 1).dram := by rw [slotOpened]
theorem slotOpened_sys : (slotOpened s ctx rg i v).sys = s.sys := by rw [slotOpened]; exact slotPut_sys s rg i 0 v 1

theorem slotRetired_keeps : EffectKeeps s (slotRetired s rg i v) := by
  unfold slotRetired
  split
  · exact slotPut_keeps 0 0
  · exact slotPut_keeps _ 4

theorem slotRetired_sys : (slotRetired s rg i v).sys = s.sys := by
  unfold slotRetired
  split <;> exact slotPut_sys ..

theorem slotRetired_dram (hd : t.dram = s.dram) : (slotRetired t rg i v).dram = (slotRetired s rg i v).dram := by
  rw [slotRetired, slotRetired, slotCount_congr hd rfl]
  split <;> exact slotPut_dram hd ..

theorem slotRetired_launches : (slotRetired s rg i v).launches = s.launches := by
  unfold slotRetired
  split
  · exact slotPut_launches 0 0
  · exact slotPut_launches _ 4

theorem lagging_modCopy (k : CoreRef) (f : Copy → Copy) :
    ((s.modCopy k f).launches.filter (lagsAt ctx v)).length = (s.launches.filter (lagsAt ctx v)).length := by
  have same : lagsAt ctx v ∘ (fun l : Launch => if l.lid == k.lid then l.modCopy k.role f else l) = lagsAt ctx v := by
    funext l
    simp only [Function.comp]
    split <;> rfl
  rw [State.modCopy, State.modLaunch, List.filter_map, List.length_map, same]

theorem lagging_prep (s : State) (k : CoreRef) (c : Core) (sig : BitVec 64) :
    ((prep s k c sig).launches.filter (lagsAt ctx v)).length = (s.launches.filter (lagsAt ctx v)).length :=
  (lagging_modCopy k _).trans ((lagging_modCopy k _).trans (lagging_modCopy k _))

/-! ### The instructions -/

theorem regionOf_run {w : Word} (hr : s.region? l.ctx (fieldNat w 0 12) = some rg) (hready : s.dpaReady rg.at' = true) (hgood : s.dram.badIn rg.at' 80 = false) :
    regionOf l w s = .ok (rg, s) := by
  unfold regionOf
  rw [bind_ok get_run]
  simp only [hr, hready, hgood, Bool.not_true, holdIf_false, raiseIf_false, pure_bind_act]
  rfl

/-- The effect of an instruction on the region that operand `w` names, with the value that it returns. -/
def regionEffect (l : Launch) (w : Word) (f : Region → Act Word) : Act (Word × Word × List (BitVec 32)) := do
  let rg ← regionOf l w
  let x ← f rg
  pure (x, 0#64, [])

/-- The same of an effect without a value. -/
def regionChange (l : Launch) (w : Word) (f : Region → Act Unit) : Act (Word × Word × List (BitVec 32)) := do
  let rg ← regionOf l w
  f rg
  pure (0#64, 0#64, [])

section
variable (h : s.AtCommit k l cp c) (he : s.executes c.regs g)

theorem checkVerBits_ok {x y : Word} (hx : x.toNat < 2 ^ 12) (hy : y.toNat < 2 ^ 33) : checkVerBits x y = pure () := by
  rw [checkVerBits, fieldNat_eq, fieldNat_eq, Nat.div_eq_of_lt hx, Nat.div_eq_of_lt hy]
  rfl

theorem checkVerBits_bad {x y : Word} (h : 2 ^ 12 ≤ x.toNat ∨ 2 ^ 33 ≤ y.toNat) : checkVerBits x y = raise (Trap.mk' 0x08) := by
  have bad : (fieldNat x 12 52 != 0 || fieldNat y 33 31 != 0) = true := by
    have := x.isLt
    have := y.isLt
    simp only [fieldNat_eq, Bool.or_eq_true, bne_iff_ne]
    omega
  rw [checkVerBits, bad, raiseIf_true]

include h he in
theorem version_fault (hbits : 2 ^ 12 ≤ (c.regs.get a).toNat ∨ 2 ^ 33 ≤ (srB c.regs b).toNat) :
    (∀ d, traps (.vopen d a b g) s s (Trap.mk' 0x08)) ∧ traps (.vpub a b g) s s (Trap.mk' 0x08) ∧
      traps (.vretire a b g) s s (Trap.mk' 0x08) ∧ ∀ d, traps (.vquery d a b g) s s (Trap.mk' 0x08) := by
  have bad := checkVerBits_bad hbits
  refine ⟨fun d => scalar_trap he ?_, scalar_trap he ?_, scalar_trap he ?_, fun d => scalar_trap he ?_⟩
  all_goals
    rw [bind_ok (theCore_turn h.toCoreTurn)]
    simp only [bad, raise_bind]
    rfl

variable (hx : (c.regs.get a).toNat < 2 ^ 12) (hy : (srB c.regs b).toNat < 2 ^ 33)
  (hr : s.region? l.ctx (fieldNat (c.regs.get a) 0 12) = some rg) (hready : s.dpaReady rg.at' = true) (hgood : s.dram.badIn rg.at' 80 = false)
  (hv : v = verOf (srB c.regs b))

/-- An instruction on a region whose effect leaves `t` and answers `x`. -/
theorem regionEffect_run {f : Region → Act Word} {u : State} {x w : Word} (hu : u.region? l.ctx (fieldNat w 0 12) = some rg) (hready : u.dpaReady rg.at' = true)
    (hgood : u.dram.badIn rg.at' 80 = false) (hf : f rg u = .ok (x, t)) : regionEffect l w f u = .ok ((x, 0#64, []), t) := by
  unfold regionEffect
  rw [bind_ok (regionOf_run hu hready hgood), bind_ok hf]
  rfl

theorem regionChange_run {f : Region → Act Unit} {u : State} {w : Word} (hu : u.region? l.ctx (fieldNat w 0 12) = some rg) (hready : u.dpaReady rg.at' = true)
    (hgood : u.dram.badIn rg.at' 80 = false) (hf : f rg u = .ok ((), t)) : regionChange l w f u = .ok ((0#64, 0#64, []), t) := by
  unfold regionChange
  rw [bind_ok (regionOf_run hu hready hgood), bind_ok hf]
  rfl

include h he hx hy hr hready hgood hv

theorem vopen_opens (d : BitVec 6) (hold : ∀ j, j < rg.slots → s.slotState rg j ≠ 1 ∧ s.slotState rg j ≠ 2 ∧
      (s.slotState rg j = 3 ∨ s.slotState rg j = 4 → (s.slotTag rg j).toNat < v.toNat))
    (hi : i < rg.slots) (hfree : s.slotState rg i = 0) (hfirst : ∀ j, j < i → s.slotState rg j ≠ 0) :
    ∃ t, exec (.vopen d a b g) s = .next t ∧ CommitDone s (s.slotPut rg i 0 v 1) t k l { c.committed with regs := (c.regs.set d (ofU i)).skip (srLen b) } 10 (ofU i) := by
  let o := opOf 10 (c.regs.get a) (srB c.regs b)
  let p := prep s k c (cp.commitSig c o)
  obtain ⟨L, lags, e⟩ : ∃ L lags, p = relaunched s L lags := prep_relaunched s k c (cp.commitSig c o)
  have run : regionEffect l (c.regs.get a) (fun rg => openSlot l.ctx rg v) p = .ok ((ofU i, 0#64, []), slotOpened p l.ctx rg i v) := by
    rw [e]
    exact regionEffect_run hr hready hgood (openSlot_run hold hi hfree hfirst)
  have keeps : EffectKeeps s (slotOpened p l.ctx rg i v) := by
    rw [e]
    exact (relaunched_keeps L lags).trans slotOpened_keeps
  obtain ⟨t, step, done⟩ : ∃ t, exec (.vopen d a b g) s = .next t ∧ CommitDone s (slotOpened p l.ctx rg i v) t k l
      { c.committed with regs := (c.regs.set d (ofU i)).skip (srLen b) } 10 (ofU i) := by
    refine scalar_commitPoint_reg (o := o) h he ?_ run slotOpened_launches keeps
    rw [bind_ok (theCore_turn h.toCoreTurn)]
    simp only [checkVerBits_ok hx hy, pure_bind_act, hv]
    rfl
  refine ⟨t, step, done.logged, done.others, done.sys.trans ?_, done.dram.trans ?_⟩
  · rw [slotOpened_sys, slotPut_sys, e, relaunched_sys]
  · rw [slotOpened_dram, e]
    exact slotPut_dram rfl ..

theorem vpub_publishes (hi : i < rg.slots) (hopen : s.slotState rg i = 1) (htag : s.slotTag rg i = v) (hsent : s.slotInFlight l.ctx rg i = false)
    (hfirst : ∀ j, j < i → ¬ ((s.slotState rg j = 1 ∨ s.slotState rg j = 2) ∧ s.slotTag rg j = v)) :
    ∃ t, exec (.vpub a b g) s = .next t ∧ CommitDone s (s.slotPut rg i (s.slotCount rg i + (s.launches.filter (lagsAt l.ctx v)).length) v 3) t k l
      { c.committed with regs := c.regs.skip (srLen b) } 11 0#64 := by
  let o := opOf 11 (c.regs.get a) (srB c.regs b)
  let p := prep s k c (cp.commitSig c o)
  let n := s.slotCount rg i + (s.launches.filter (lagsAt l.ctx v)).length
  have lagging : (p.launches.filter (lagsAt l.ctx v)).length = (s.launches.filter (lagsAt l.ctx v)).length := lagging_prep s k c (cp.commitSig c o)
  obtain ⟨L, lags, e⟩ : ∃ L lags, p = relaunched s L lags := prep_relaunched s k c (cp.commitSig c o)
  have published : publishSlot l.ctx rg v p = .ok ((), p.slotPut rg i n v 3) := by
    rw [show n = p.slotCount rg i + (p.launches.filter (lagsAt l.ctx v)).length by rw [lagging, e, relaunched_slotCount], e]
    exact publishSlot_run hi hopen htag hsent hfirst
  have run : regionChange l (c.regs.get a) (fun rg => publishSlot l.ctx rg v) p = .ok ((0#64, 0#64, []), p.slotPut rg i n v 3) := by
    rw [e] at published ⊢
    exact regionChange_run hr hready hgood published
  have keeps : EffectKeeps s (p.slotPut rg i n v 3) := by
    rw [e]
    exact (relaunched_keeps L lags).trans (slotPut_keeps n 3)
  obtain ⟨t, step, done⟩ : ∃ t, exec (.vpub a b g) s = .next t ∧ CommitDone s (p.slotPut rg i n v 3) t k l (c.committed.past (srLen b)) 11 0#64 := by
    refine scalar_commitPoint (o := o) h he ?_ run (slotPut_launches n 3) keeps
    rw [bind_ok (theCore_turn h.toCoreTurn)]
    simp only [checkVerBits_ok hx hy, pure_bind_act, hv]
    rfl
  refine ⟨t, step, done.logged, done.others, done.sys.trans ?_, done.dram.trans ?_⟩
  · rw [slotPut_sys, slotPut_sys, e, relaunched_sys]
  · rw [e]
    exact slotPut_dram rfl ..

theorem vretire_retires (hi : i < rg.slots) (hlive : s.slotState rg i = 3) (htag : s.slotTag rg i = v)
    (hfirst : ∀ j, j < i → ¬ (s.slotState rg j = 3 ∧ s.slotTag rg j = v)) :
    ∃ t, exec (.vretire a b g) s = .next t ∧ CommitDone s (slotRetired s rg i v) t k l { c.committed with regs := c.regs.skip (srLen b) } 13 0#64 := by
  let o := opOf 13 (c.regs.get a) (srB c.regs b)
  let p := prep s k c (cp.commitSig c o)
  obtain ⟨L, lags, e⟩ : ∃ L lags, p = relaunched s L lags := prep_relaunched s k c (cp.commitSig c o)
  have run : regionChange l (c.regs.get a) (fun rg => retireSlot rg v) p = .ok ((0#64, 0#64, []), slotRetired p rg i v) := by
    rw [e]
    exact regionChange_run hr hready hgood (retireSlot_run hi hlive htag hfirst)
  have keeps : EffectKeeps s (slotRetired p rg i v) := by
    rw [e]
    exact (relaunched_keeps L lags).trans slotRetired_keeps
  obtain ⟨t, step, done⟩ : ∃ t, exec (.vretire a b g) s = .next t ∧ CommitDone s (slotRetired p rg i v) t k l (c.committed.past (srLen b)) 13 0#64 := by
    refine scalar_commitPoint (o := o) h he ?_ run slotRetired_launches keeps
    rw [bind_ok (theCore_turn h.toCoreTurn)]
    simp only [checkVerBits_ok hx hy, pure_bind_act, hv]
    rfl
  refine ⟨t, step, done.logged, done.others, done.sys.trans ?_, done.dram.trans ?_⟩
  · rw [slotRetired_sys, slotRetired_sys, e, relaunched_sys]
  · rw [e]
    exact slotRetired_dram rfl

theorem vquery_reads (d : BitVec 6) {x : Word} (hq : (∃ i, i < rg.slots ∧ s.slotState rg i ≠ 0 ∧ s.slotTag rg i = v ∧
      (∀ j, j < i → ¬ (s.slotState rg j ≠ 0 ∧ s.slotTag rg j = v)) ∧ x = ofU (s.slotCount rg i * 2 ^ 16 + s.slotState rg i * 2 ^ 4 + i)) ∨
    ((∀ i, i < rg.slots → s.slotState rg i ≠ 0 → s.slotTag rg i ≠ v) ∧ x = 0xF#64)) :
    ∃ t, exec (.vquery d a b g) s = .next t ∧ CommitDone s s t k l { c.committed with regs := (c.regs.set d x).skip (srLen b) } 14 x := by
  let o := opOf 14 (c.regs.get a) (srB c.regs b)
  let p := prep s k c (cp.commitSig c o)
  obtain ⟨L, lags, e⟩ : ∃ L lags, p = relaunched s L lags := prep_relaunched s k c (cp.commitSig c o)
  have run : regionEffect l (c.regs.get a) (fun rg => querySlot rg v) p = .ok ((x, 0#64, []), p) := by
    rw [e]
    exact regionEffect_run hr hready hgood (querySlot_run hq)
  obtain ⟨t, step, done⟩ : ∃ t, exec (.vquery d a b g) s = .next t ∧ CommitDone s p t k l
      { c.committed with regs := (c.regs.set d x).skip (srLen b) } 14 x := by
    refine scalar_commitPoint_reg (o := o) h he ?_ run rfl (prep_keeps ..).1
    rw [bind_ok (theCore_turn h.toCoreTurn)]
    simp only [checkVerBits_ok hx hy, pure_bind_act, hv]
    rfl
  exact ⟨t, step, done.logged, done.others, done.sys.trans (prep_keeps ..).2.1, done.dram.trans (prep_keeps ..).2.2.1⟩

end

/-! ### VBIND (R151) -/

section
variable (h : s.AtCommit k l cp c) (he : s.executes c.regs g)
include h he

theorem vbind_fault (hb : 2 ^ 33 ≤ (srB c.regs b).toNat ∨ ((srB c.regs b).toNat < 2 ^ 32 ∧ (srB c.regs b).toNat ≠ 0)) :
    traps (.vbind b g) s s (Trap.mk' 0x08) := by
  have bad : (fieldNat (srB c.regs b) 33 31 != 0 || (!bitAt (srB c.regs b) 32 && fieldNat (srB c.regs b) 0 32 != 0)) = true := by
    have := (srB c.regs b).isLt
    simp only [fieldNat_eq, bitAt_eq, Bool.or_eq_true, Bool.and_eq_true, bne_iff_ne, Bool.not_eq_true', decide_eq_false_iff_not]
    omega
  refine scalar_trap he ?_
  rw [bind_ok (theCore_turn h.toCoreTurn)]
  simp only [bad, raiseIf_true, raise_bind]
  rfl

theorem vbind_requests (hb : (srB c.regs b).toNat = 0 ∨ (2 ^ 32 ≤ (srB c.regs b).toNat ∧ (srB c.regs b).toNat < 2 ^ 33 ∧
      s.hasLive l.ctx (BitVec.ofNat 32 (srB c.regs b).toNat) = true)) :
    ∃ t, exec (.vbind b g) s = .next t ∧ CommitDone s (s.sysPut (pbOff l.part.toNat) (ofU (2 ^ 33 + (srB c.regs b).toNat))) t k l
      { c.committed with regs := c.regs.skip (srLen b) } 12 0#64 := by
  let o := opOf 12 0#64 (srB c.regs b)
  let p := prep s k c (cp.commitSig c o)
  let put (x : State) : State := x.sysPut (pbOff l.part.toNat) (ofU (2 ^ 33 + (srB c.regs b).toNat))
  obtain ⟨L, lags, e⟩ : ∃ L lags, p = relaunched s L lags := prep_relaunched s k c (cp.commitSig c o)
  have ok : (fieldNat (srB c.regs b) 33 31 != 0 || (!bitAt (srB c.regs b) 32 && fieldNat (srB c.regs b) 0 32 != 0)) = false := by
    simp only [fieldNat_eq, bitAt_eq, Bool.or_eq_false_iff, Bool.and_eq_false_iff, bne_eq_false_iff_eq, Bool.not_eq_false', decide_eq_true_eq]
    omega
  have run : (do requestBinding l (srB c.regs b); pure (0#64, 0#64, []) : Act (Word × Word × List (BitVec 32))) p = .ok ((0#64, 0#64, []), put p) := by
    have whole : fieldNat (srB c.regs b) 0 33 = (srB c.regs b).toNat := by rw [fieldNat_eq]; omega
    have live : (bitAt (srB c.regs b) 32 && !p.hasLive l.ctx (verOf (srB c.regs b))) = false := by
      rw [e, relaunched_hasLive]
      rcases hb with hb | ⟨-, -, hb⟩
      · rw [bitAt_eq, hb]; rfl
      · rw [show verOf (srB c.regs b) = BitVec.ofNat 32 (srB c.regs b).toNat from (BitVec.ofNat_toNat ..).symm, hb]
        exact Bool.and_false _
    unfold requestBinding
    rw [bind_run, bind_ok get_run]
    simp only [live, whole, raiseIf_false, pure_bind_act]
    rfl
  have keeps : EffectKeeps s (put p) := by
    rw [e]
    exact (relaunched_keeps L lags).trans ⟨rfl, rfl, rfl, rfl, rfl, rfl, rfl⟩
  obtain ⟨t, step, done⟩ : ∃ t, exec (.vbind b g) s = .next t ∧ CommitDone s (put p) t k l (c.committed.past (srLen b)) 12 0#64 := by
    refine scalar_commitPoint (o := o) h he ?_ run rfl keeps
    rw [bind_ok (theCore_turn h.toCoreTurn)]
    simp only [ok, raiseIf_false, pure_bind_act]
    rfl
  refine ⟨t, step, done.logged, done.others, done.sys.trans ?_, done.dram.trans ?_⟩
  · rw [e]; rfl
  · rw [e]; rfl

end

/-- Settles O29. -/
theorem versionedSlots : Obligations.VersionedSlots := by
  refine ⟨?_, ?_⟩
  · rintro s k l cp c g a b _ _ h he rfl rfl
    refine ⟨version_fault h he, fun rg v hx hy hr hready hgood hv => ?_⟩
    have named : s.region? l.ctx (fieldNat (c.regs.get a) 0 12) = some rg := by
      rwa [fieldNat_eq, pow_zero, Nat.div_one, Nat.mod_eq_of_lt hx]
    replace hv : v = verOf (srB c.regs b) := hv.trans (BitVec.ofNat_toNat ..)
    refine ⟨fun d i hold hi hfree hfirst => ?_, fun i hi hopen htag hsent hfirst => ?_, fun i hi hlive htag hfirst => ?_, fun d x hq => ?_⟩
    · obtain ⟨t, step, done⟩ := vopen_opens h he hx hy named hready hgood hv d hold hi hfree hfirst
      exact ⟨t, step, done.logged, done.others, done.sys.trans (slotPut_sys ..), done.dram⟩
    · obtain ⟨t, step, done⟩ := vpub_publishes h he hx hy named hready hgood hv hi hopen htag hsent hfirst
      exact ⟨t, step, done.logged, done.others, done.sys.trans (slotPut_sys ..), done.dram⟩
    · obtain ⟨t, step, done⟩ := vretire_retires h he hx hy named hready hgood hv hi hlive htag hfirst
      exact ⟨t, step, done.logged, done.others, done.sys.trans slotRetired_sys, done.dram.trans (apply_ite State.dram ..)⟩
    · obtain ⟨t, step, done⟩ := vquery_reads h he hx hy named hready hgood hv d hq
      exact ⟨t, step, done.logged, done.others, done.sys, done.dram⟩
  · rintro s k l cp c g b _ h he rfl
    refine ⟨vbind_fault h he, fun hb => ?_⟩
    obtain ⟨t, step, done⟩ := vbind_requests h he hb
    exact ⟨t, step, done.logged, done.others, done.sys, done.dram⟩

end Sys2Proof.Proofs
end

section
/-! A commit point whose effect changes its launch (R113). -/

namespace Sys2Proof.Proofs

open Sys2Proof.Machine Sys2Proof.Laws

variable {s s3 t : State} {k : CoreRef} {l : Launch} {cp : Copy} {c d : Core} {sig : BitVec 64} {r : Word × Word × List (BitVec 32)}
  {perform : Act (Word × Word × List (BitVec 32))}

/-- A commit point with nothing to wait for comes to its effect at once. -/
theorem commitPoint_run (h : s.AtCommit k l cp c) (o : OpDesc) :
    commitPoint k o perform s = performCommit k o perform (prep s k c (cp.commitSig c o)) := by
  have replays : ¬ cp.replay < l.log.length := not_lt.2 h.live
  have voted : (l.packet.prot = 2 || k.role = .third) = false := by simp [h.prot, h.role]
  have segs : cp.passedSigs c = [] := by simp [Copy.passedSigs, passedTo_nil h.closed]
  have released : releaseSet k (prepOpen s k (cp.commitSig c o)) = .ok ((), prep s k c (cp.commitSig c o)) := releaseSet_quiet h _
  unfold commitPoint
  rw [bind_ok (ctxOf_run h.launch h.copy h.core)]
  simp only [h.idle, h.pushed, holdIf_false, pure_bind_act, if_neg replays, voted, Bool.false_eq_true, if_false]
  rw [bind_ok (closeRegion_quiet h o), bind_ok (modify_run _), segs]
  exact bind_ok released

/-- What an effect that stalls leaves. -/
theorem commitPoint_stops (h : s.AtCommit k l cp c) (o : OpDesc) {e : Stop × State} (hp : perform (prep s k c (cp.commitSig c o)) = .error e) :
    commitPoint k o perform s = .error e := by
  rw [commitPoint_run h]
  exact bind_error hp

/-- A launch whose record is as it was, as far as a commit point looks at it. -/
structure LaunchKept (l m : Launch) : Prop where
  state : m.state = l.state
  log : m.log = l.log
  snap : m.snap = l.snap
  packet : m.packet = l.packet
  part : m.part = l.part
  calm : m.deferred = l.deferred

theorem LaunchKept.trans {m n : Launch} (h : LaunchKept l m) (h' : LaunchKept m n) : LaunchKept l n :=
  ⟨h'.state.trans h.state, h'.log.trans h.log, h'.snap.trans h.snap, h'.packet.trans h.packet, h'.part.trans h.part, h'.calm.trans h.calm⟩

/-- What the effect of a commit point may have done by its end: its core is `d`, with the region closed; its copy's scratchpads and its
launch's record are as they were. -/
structure AfterEffect (s s3 : State) (k : CoreRef) (l : Launch) (cp : Copy) (sig : BitVec 64) (d : Core) : Prop where
  core : s3.core? k = some d
  commit : d.commit = .closed sig []
  launch : ∃ m, s3.launch? k.lid = some m ∧ LaunchKept l m
  copy : ∃ y, s3.copy? k = some y ∧ y.pads = cp.pads ∧ y.home = cp.home
  keeps : EffectKeeps s s3

theorem afterEffect_prep (h : s.AtCommit k l cp c) (sig : BitVec 64) :
    AfterEffect s (prep s k c sig) k l cp sig { c.opened with commit := .closed sig [] } := by
  refine ⟨by rw [prep_core h, if_pos rfl], rfl, ?_, ?_, (prep_keeps ..).1⟩
  · have := prep_launch s k c sig k.lid
    rw [h.launch] at this
    obtain ⟨m, hm, face⟩ := Option.map_eq_some_iff.1 this
    simp only [Prod.mk.injEq] at face
    obtain ⟨state, log, snap, packet, part, calm⟩ := face
    exact ⟨m, hm, state, log, snap, packet, part, calm⟩
  · have := prep_copy s k c sig k
    rw [h.copy] at this
    obtain ⟨y, hy, face⟩ := Option.map_eq_some_iff.1 this
    simp only [Prod.mk.injEq] at face
    obtain ⟨pads, home, -, -⟩ := face
    exact ⟨y, hy, pads, home⟩

theorem modLaunch_keeps (n : Nat) (f : Launch → Launch) : EffectKeeps s (s.modLaunch n f) := ⟨rfl, rfl, rfl, rfl, rfl, rfl, rfl⟩

/-- The core changes further. -/
theorem AfterEffect.modCore (h : AfterEffect s s3 k l cp sig d) (f : Core → Core) (hf : ∀ x, (f x).rank = x.rank) (hc : (f d).commit = d.commit) :
    AfterEffect s (s3.modCore k f) k l cp sig (f d) := by
  obtain ⟨core, commit, ⟨m, hm, kept⟩, ⟨y, hy, pads, home⟩, keeps⟩ := h
  have launch : (s3.modCore k f).launch? k.lid = some (m.modCopy k.role fun c => c.modCore k.rank f) := by rw [launch_modCore, hm]; rfl
  have copy : (s3.modCore k f).copy? k = some (y.modCore k.rank f) := by rw [copy_modCore, hy]; rfl
  exact ⟨by rw [coreAt_modCore f hf, core]; rfl, hc.trans commit, ⟨_, launch, kept.trans ⟨rfl, rfl, rfl, rfl, rfl, rfl⟩⟩, ⟨_, copy, pads, home⟩,
    keeps.trans (modLaunch_keeps ..)⟩

/-- The record of the launch changes further. -/
theorem AfterEffect.modLaunch (h : AfterEffect s s3 k l cp sig d) (f : Launch → Launch) (hl : ∀ x, (f x).lid = x.lid) (hc : ∀ x, (f x).copies = x.copies)
    (hk : ∀ x, LaunchKept x (f x)) : AfterEffect s (s3.modLaunch k.lid f) k l cp sig d := by
  obtain ⟨core, commit, ⟨m, hm, kept⟩, ⟨y, hy, pads, home⟩, keeps⟩ := h
  have launch : (s3.modLaunch k.lid f).launch? k.lid = some (f m) := by rw [launch_modLaunch f hl, hm]; rfl
  have copy : (s3.modLaunch k.lid f).copy? k = some y := by
    rw [← hy, State.copy?, State.copy?, launch, hm]
    simp only [Option.bind_some, Launch.copy?, hc]
  refine ⟨?_, commit, ⟨_, launch, kept.trans (hk m)⟩, ⟨y, copy, pads, home⟩, keeps.trans (modLaunch_keeps ..)⟩
  rw [← core, State.core?, State.core?, copy, hy]

/-- The core of this rank changes in every copy. -/
theorem AfterEffect.modEachCopy (h : AfterEffect s s3 k l cp sig d) (f : Core → Core) (hf : ∀ x, (f x).rank = x.rank) (hc : (f d).commit = d.commit) :
    AfterEffect s (s3.modLaunch k.lid (eachCopy k.rank f)) k l cp sig (f d) := by
  obtain ⟨core, commit, ⟨m, hm, kept⟩, ⟨y, hy, pads, home⟩, keeps⟩ := h
  have launch : (s3.modLaunch k.lid (eachCopy k.rank f)).launch? k.lid = some (eachCopy k.rank f m) := by
    rw [launch_modLaunch (eachCopy k.rank f) fun _ => rfl, hm]; rfl
  refine ⟨(core_modEachCopy hf k.role).trans (congrArg (Option.map f) core), hc.trans commit,
    ⟨_, launch, kept.trans ⟨rfl, rfl, rfl, rfl, rfl, rfl⟩⟩, ⟨y.modCore k.rank f, ?_, pads, home⟩, keeps.trans (modLaunch_keeps ..)⟩
  rw [copy_modEachCopy, hy, Option.map_some, if_pos rfl]

/-! ### The entry in the log -/

/-- A state with the entry of a commit point logged: `l` is its launch's record before. -/
def withEntry (s : State) (k : CoreRef) (l : Launch) (e : LogEntry) : State :=
  ((s.modLaunch k.lid fun m => { m with log := m.log ++ [e], redo := false }).modCopy k fun x =>
    { x with replay := l.log.length + 1, binding := s.pbBinding l.part.toNat }).modCore k fun x => { x with commit := .idle }

theorem withEntry_launch {m : Launch} (e : LogEntry) (hm : s.launch? k.lid = some m) : ∃ n, (withEntry s k l e).launch? k.lid = some n ∧
    n.log = m.log ++ [e] ∧ n.state = m.state ∧ n.packet = m.packet ∧ n.snap = m.snap ∧ n.ovs = m.ovs ∧ n.deferred = m.deferred := by
  have found : (withEntry s k l e).launch? k.lid = some ((({ m with log := m.log ++ [e], redo := false } : Launch).modCopy k.role fun x =>
      { x with replay := l.log.length + 1, binding := s.pbBinding l.part.toNat }).modCopy k.role fun x => x.modCore k.rank fun x => { x with commit := .idle }) := by
    rw [withEntry, launch_modCore, State.modCopy, launch_modLaunch (fun m => m.modCopy k.role _) fun _ => rfl,
      launch_modLaunch (fun m => { m with log := m.log ++ [e], redo := false }) fun _ => rfl, hm]
    rfl
  exact ⟨_, found, rfl, rfl, rfl, rfl, rfl, rfl⟩

theorem copy_modRecord (f : Launch → Launch) (hl : ∀ x, (f x).lid = x.lid) (hc : ∀ x, (f x).copies = x.copies) (n : Nat) (j : CoreRef) :
    (s.modLaunch n f).copy? j = s.copy? j := by
  rw [State.copy?, State.copy?, launch_modLaunch_any s n j.lid f hl]
  cases s.launch? j.lid with
  | none => rfl
  | some m =>
      simp only [Option.map_some, Option.bind_some, Launch.copy?]
      split
      · rw [hc]
      · rfl

theorem withEntry_copy {y : Copy} (e : LogEntry) (hy : s.copy? k = some y) : ∃ x, (withEntry s k l e).copy? k = some x ∧
    x.replay = l.log.length + 1 ∧ x.binding = s.pbBinding l.part.toNat ∧ x.pads = y.pads ∧ x.home = y.home := by
  have found : (withEntry s k l e).copy? k =
      some (({ y with replay := l.log.length + 1, binding := s.pbBinding l.part.toNat } : Copy).modCore k.rank fun x => { x with commit := .idle }) := by
    rw [withEntry, copy_modCore, copy_modCopy_any _ k k (fun x => { x with replay := l.log.length + 1, binding := s.pbBinding l.part.toNat }) fun _ => rfl,
      copy_modRecord (fun m => { m with log := m.log ++ [e], redo := false }) (fun _ => rfl) fun _ => rfl, hy]
    simp only [Option.map_some, and_self, if_true]
  exact ⟨_, found, rfl, rfl, rfl, rfl⟩

theorem withEntry_core (e : LogEntry) (j : CoreRef) :
    (withEntry s k l e).core? j = (s.core? j).map fun x => if j = k then { x with commit := .idle } else x := by
  have before : ∀ j, ((s.modLaunch k.lid fun m => { m with log := m.log ++ [e], redo := false }).modCopy k fun x =>
      { x with replay := l.log.length + 1, binding := s.pbBinding l.part.toNat }).core? j = s.core? j := by
    intro j
    rw [State.core?, State.core?, copy_modCopy_any _ k j (fun x => { x with replay := l.log.length + 1, binding := s.pbBinding l.part.toNat }) fun _ => rfl,
      copy_modRecord (fun m => { m with log := m.log ++ [e], redo := false }) (fun _ => rfl) fun _ => rfl]
    cases s.copy? j with
    | none => rfl
    | some x => simp only [Option.map_some, Option.bind_some]; split <;> rfl
  by_cases h : j = k
  · subst h
    rw [withEntry, coreAt_modCore (fun x => { x with commit := .idle }) fun _ => rfl, before]
    simp only [if_true]
  · rw [withEntry, coreAt_modCore_ne h (fun x => { x with commit := .idle }) fun _ => rfl, before]
    simp only [if_neg h, Option.map_id']

/-- The commit point of core `k` has been made, by an effect that left `s3`: the core is now `d`, and its launch's record keeps what the effect
made of it. -/
structure EffectDone (s s3 t : State) (k : CoreRef) (l : Launch) (d : Core) (op : Nat) (res : Word) : Prop where
  logged : Logged s t k l d op res
  others : ∀ j, j ≠ k → t.core? j = s3.core? j
  sys : t.sys = s3.sys
  dram : t.dram = s3.dram
  ovs : ∀ m, s3.launch? k.lid = some m → ∃ n, t.launch? k.lid = some n ∧ n.ovs = m.ovs

theorem EffectDone.step {op : Nat} {res : Word} (h : EffectDone s s3 t k l d op res) (f : Core → Core) (hf : ∀ x, (f x).rank = x.rank) :
    EffectDone s s3 (t.modCore k f) k l (f d) op res := by
  refine ⟨logged_step h.logged f hf, fun j hj => (coreAt_modCore_ne hj f hf).trans (h.others j hj), h.sys, h.dram, fun m hm => ?_⟩
  obtain ⟨n, hn, ovs⟩ := h.ovs m hm
  exact ⟨n.modCopy k.role fun x => x.modCore k.rank f, by rw [launch_modCore, hn]; rfl, ovs⟩

/-- A commit point whose effect keeps its launch's record, as far as a commit point looks at it. -/
theorem commit_effect (h : s.AtCommit k l cp c) (o : OpDesc) (hp : perform (prep s k c (cp.commitSig c o)) = .ok (r, s3))
    (ha : AfterEffect s s3 k l cp (cp.commitSig c o) d) :
    ∃ t, commitPoint k o perform s = .ok (r, t) ∧ EffectDone s s3 t k l { d with commit := .idle } o.op r.1 := by
  obtain ⟨core, commit, ⟨m, hm, kept⟩, ⟨y, hy, pads, home⟩, keeps⟩ := ha
  let e : LogEntry := { op := o.op, core := k.rank, seq := d.muslin.commits - 1, res := r.1, resh := r.2.1, sig := cp.commitSig c o,
                        binding := s3.pbBinding m.part.toNat, words := r.2.2 }
  obtain ⟨n, hn, nlog, nstate, npacket, nsnap, novs, ncalm⟩ := withEntry_launch (l := m) e hm
  obtain ⟨x, hx, xreplay, xbinding, xpads, xhome⟩ := withEntry_copy (l := m) e hy
  refine ⟨withEntry s3 k m e, ?_, ⟨?_, ⟨e, n, hn, nlog.trans (by rw [kept.log]), nstate.trans kept.state, npacket.trans kept.packet,
    nsnap.trans kept.snap, rfl, rfl, rfl, ?_⟩, ⟨cp, x, h.copy, hx, ?_, ?_, xpads.trans pads, xhome.trans home⟩, ?_⟩, fun j hj => ?_, rfl, rfl, ?_⟩
  · have after : (withEntry s3 k m e).runDeferredOf k.lid = withEntry s3 k m e := by
      simp only [State.runDeferredOf, hn, Launch.decisive, ncalm, kept.calm, h.calm, List.foldl_nil]
    have logged : logResult k o (d.muslin.commits - 1) (cp.commitSig c o) [] r s3 = .ok ((), withEntry s3 k m e) := by
      unfold logResult
      rw [bind_ok (modify_run _)]
      simp only [hm, List.map_nil, List.append_nil, List.length_nil, Nat.add_zero]
      exact congrArg (fun x => Except.ok ((), x)) after
    have now : coreNow k s3 = .ok (d, s3) := by rw [coreNow, bind_ok get_run, core]; rfl
    rw [commitPoint_run h, performCommit, bind_ok hp, bind_ok now]
    simp only [commit]
    exact bind_ok logged
  · rw [withEntry_core, core]
    simp only [Option.map_some, if_true]
  · rw [← kept.part]
    rfl
  · rw [xreplay, kept.log]
  · rw [xbinding, ← kept.part]
    rfl
  · exact ⟨keeps.cwnN, keeps.cwnS, keeps.anoles, keeps.link, keeps.cc, keeps.cur, keeps.sched⟩
  · rw [withEntry_core]
    simp only [if_neg hj, Option.map_id']
  · intro m' hm'
    obtain rfl : m = m' := Option.some.inj (hm.symm.trans hm')
    exact ⟨n, hn, novs⟩

/-- An instruction that goes on after such a commit point. -/
theorem scalar_effect {g : BitVec 4} {len op : Nat} {res : Word} {act : Regs → Act Next} (h : s.CoreTurn k l cp c) (he : s.executes c.regs g)
    (ha : act c.regs s = .ok (.adv, t)) (done : EffectDone s s3 t k l d op res) :
    ∃ u, scalar g len s act = .next u ∧ EffectDone s s3 u k l (d.past len) op res := by
  refine ⟨_, scalar_on he.1 he.2, ?_⟩
  rw [h.cur, runAct_adv ha]
  exact done.step (fun x => x.past len) fun _ => rfl

end Sys2Proof.Proofs
end

section
/-! Outside arrivals at barriers, and BARX (R35, R143, R144). -/

namespace Sys2Proof.Proofs

open Sys2Proof.Machine Sys2Proof.Laws

variable {s t : State} {k : CoreRef} {l : Launch} {cp : Copy} {c d : Core} {g : BitVec 4} {b : Src} {bar : BitVec 7} {x : Barrier} {n : Nat}
  {sig : BitVec 64} {a : BitVec 6} {id : Word}

/-! ### Launches by identity, and the owner of a token barrier, where the effect begins -/

/-- A launch with copy `k` changed, in the list of launches. -/
def inLaunch (k : CoreRef) (f : Copy → Copy) (l : Launch) : Launch := if l.lid == k.lid then l.modCopy k.role f else l

theorem inLaunch_keeps (k : CoreRef) (f : Copy → Copy) (l : Launch) : (inLaunch k f l).lid = l.lid ∧ (inLaunch k f l).queue = l.queue ∧
    (inLaunch k f l).state = l.state ∧ (inLaunch k f l).slot = l.slot ∧ (inLaunch k f l).ident = l.ident := by
  unfold inLaunch
  split <;> exact ⟨rfl, rfl, rfl, rfl, rfl⟩

theorem launches_modCopy (s : State) (k : CoreRef) (f : Copy → Copy) : (s.modCopy k f).launches = s.launches.map (inLaunch k f) := rfl

/-- A launch by its identity, placed and not Done. -/
def isIdent (id : Word) (l : Launch) : Bool := l.ident == id && l.state != .done

theorem isIdent_inLaunch (k : CoreRef) (f : Copy → Copy) : isIdent id ∘ inLaunch k f = isIdent id := by
  funext l
  obtain ⟨-, -, state, -, ident⟩ := inLaunch_keeps k f l
  rw [Function.comp, isIdent, isIdent, state, ident]

theorem byIdent_eq (s : State) (id : Word) : s.byIdent id = s.launches.find? (isIdent id) := rfl

theorem byIdent_modCopy (f : Copy → Copy) (h : s.byIdent id = none) : (s.modCopy k f).byIdent id = none := by
  rw [byIdent_eq] at h ⊢
  rw [launches_modCopy, List.find?_map, isIdent_inLaunch, h]
  rfl

theorem byIdent_prep (h : s.byIdent id = none) (k : CoreRef) (c : Core) (sig : BitVec 64) : (prep s k c sig).byIdent id = none :=
  byIdent_modCopy _ (s := (prepOpen s k sig).modCopy k fun x => x.dropReleased c [])
    (byIdent_modCopy _ (s := prepOpen s k sig) (byIdent_modCopy _ (s := s) h))

/-- The older of two launches, by slot. -/
def olderSlot (best : Option Launch) (l : Launch) : Option Launch :=
  match best with
  | none => some l
  | some b => if l.slot < b.slot then some l else some b

theorem olderSlot_map {F : Launch → Launch} (hF : ∀ l, (F l).slot = l.slot) (best : Option Launch) (l : Launch) :
    olderSlot (best.map F) (F l) = (olderSlot best l).map F := by
  cases best with
  | none => rfl
  | some b =>
      simp only [olderSlot, Option.map_some, hF]
      split <;> rfl

theorem foldl_olderSlot_map {F : Launch → Launch} (hF : ∀ l, (F l).slot = l.slot) (ls : List Launch) (best : Option Launch) :
    (ls.map F).foldl olderSlot (best.map F) = (ls.foldl olderSlot best).map F := by
  induction ls generalizing best with
  | nil => rfl
  | cons l ls ih => rw [List.map_cons, List.foldl_cons, List.foldl_cons, olderSlot_map hF, ih]

theorem tbOwner_modCopy (f : Copy → Copy) (p : Nat) : ((s.modCopy k f).tbOwner p).map (fun o => o.lid) = (s.tbOwner p).map fun o => o.lid := by
  let q := BitVec.ofNat 12 (s.sysF (pbOff p + 8) 16 12)
  have same : ((fun l : Launch => l.queue == q && l.state != .done) ∘ inLaunch k f) = fun l => l.queue == q && l.state != .done := by
    funext l
    obtain ⟨-, queue, state, -, -⟩ := inLaunch_keeps k f l
    simp only [Function.comp, queue, state]
  have owner : (s.modCopy k f).tbOwner p = (s.tbOwner p).map (inLaunch k f) := by
    show (((s.modCopy k f).launches.filter fun l => l.queue == q && l.state != .done).foldl olderSlot none) =
      ((s.launches.filter fun l => l.queue == q && l.state != .done).foldl olderSlot none).map (inLaunch k f)
    rw [launches_modCopy, List.filter_map, same]
    exact foldl_olderSlot_map (fun l => (inLaunch_keeps k f l).2.2.2.1) _ none
  rw [owner, Option.map_map]
  exact Option.map_congr fun l _ => (inLaunch_keeps k f l).1

theorem isTokenBarrier_prep (s : State) (k : CoreRef) (c : Core) (sig : BitVec 64) (n : Nat) : (prep s k c sig).isTokenBarrier k n = s.isTokenBarrier k n := by
  have owner (p : Nat) : ((prep s k c sig).tbOwner p).map (fun o => o.lid) = (s.tbOwner p).map fun o => o.lid :=
    (tbOwner_modCopy _ p (s := (prepOpen s k sig).modCopy k fun x => x.dropReleased c [])).trans
      ((tbOwner_modCopy _ p (s := prepOpen s k sig)).trans (tbOwner_modCopy _ p (s := s)))
  have sys : (prep s k c sig).sys = s.sys := (prep_keeps ..).2.1
  simp only [State.isTokenBarrier, State.tokenParts, owner, State.sysF, State.sysW, sys]

/-! ### BARX (R144) -/

theorem nodeField {w : Word} (hw : w.toNat < 2 ^ 32) (h : w.toNat / 2 ^ 20 = s.node.toNat) : w.extractLsb' 20 12 = s.node := by
  refine BitVec.eq_of_toNat_eq ?_
  rw [BitVec.extractLsb'_toNat, Nat.shiftRight_eq_div_pow, h, Nat.mod_eq_of_lt]
  exact h ▸ Nat.div_lt_of_lt_mul hw

theorem targetBits {w : Word} (hw : w.toNat < 2 ^ 32) (h : w.toNat / 2 ^ 16 % 2 ^ 4 = 0) : (fieldNat w 32 32 != 0 || fieldNat w 16 4 != 0) = false := by
  rw [fieldNat_eq, fieldNat_eq, Nat.div_eq_of_lt hw, h]
  rfl

/-- An instruction of the current core that is one commit point after a check that passes. -/
theorem scalar_checked {len : Nat} {act : Regs → Act Next} {q : Bool} {tr : Trap} {o : OpDesc} {perform : Act (Word × Word × List (BitVec 32))}
    {r : Word × Word × List (BitVec 32)} {s3 : State} (h : s.AtCommit k l cp c) (he : s.executes c.regs g)
    (hact : act c.regs = (do raiseIf q tr; let _ ← commitAny o perform; pure .adv)) (hq : q = false)
    (hp : perform (prep s k c (cp.commitSig c o)) = .ok (r, s3)) (ha : AfterEffect s s3 k l cp (cp.commitSig c o) d) :
    ∃ u, scalar g len s act = .next u ∧ EffectDone s s3 u k l (({ d with commit := .idle } : Core).past len) o.op r.1 := by
  obtain ⟨t, run, done⟩ := commit_effect h o hp ha
  refine scalar_effect h.toCoreTurn he ?_ done
  simp only [hact, hq, raiseIf_false, pure_bind_act]
  rw [bind_ok ((commitAny_core h.cur).trans run)]
  rfl

theorem overSignal_effect {s3 : State} (h : AfterEffect s s3 k l cp sig d) : AfterEffect s (s3.overSignal k.lid) k l cp sig d :=
  h.modLaunch (fun m => { m with ovs := true }) (fun _ => rfl) (fun _ => rfl) fun _ => ⟨rfl, rfl, rfl, rfl, rfl, rfl⟩

/-- R144: BARX to a launch that is not placed. -/
theorem barx_overSignals (h : s.AtCommit k l cp c) (he : s.executes c.regs g) (hw : (srB c.regs b).toNat < 2 ^ 32)
    (hz : (srB c.regs b).toNat / 2 ^ 16 % 2 ^ 4 = 0) (hn : (srB c.regs b).toNat / 2 ^ 20 = s.node.toNat) (hi : s.byIdent (c.regs.get a) = none) :
    ∃ sig u, exec (.barx a b g) s = .next u ∧ EffectDone s ((prep s k c sig).overSignal k.lid) u k l (c.committed.past (srLen b)) 3 0#64 := by
  let o : OpDesc := ⟨3, c.regs.get a, srB c.regs b, 0#64⟩
  obtain ⟨p, hp⟩ : ∃ p, p = prep s k c (cp.commitSig c o) := ⟨_, rfl⟩
  have ident : p.byIdent (c.regs.get a) = none := hp ▸ byIdent_prep hi k c _
  have node : (srB c.regs b).extractLsb' 20 12 = p.node := by
    rw [nodeField hw hn, State.node, State.node, State.sysF, State.sysF, State.sysW, State.sysW, hp, (prep_keeps ..).2.1]
  have lid : p.curLid = some k.lid := by rw [State.curLid, hp, (prep_keeps ..).1.cur, h.cur]
  have lost : p.receiveArrival (c.regs.get a) (srB c.regs b) p.curLid = (false, p) := by rw [State.receiveArrival, ident]
  refine ⟨cp.commitSig c o, ?_⟩
  refine scalar_checked (o := o) (r := (0#64, 0#64, [])) h he rfl (targetBits hw hz) ?_ (overSignal_effect (afterEffect_prep h _))
  rw [← hp, bind_ok get_run, if_pos node]
  dsimp only
  rw [ident, lost]
  dsimp only
  rw [bind_ok (set_run p), Bool.not_false, if_pos rfl, bind_ok (modify_run _), lid]
  rfl

/-! ### BARX of an Anole core (R144, R396) -/

/-- What an arrival that is received leaves outside the launches. -/
theorem receiveArrival_keeps (s : State) (id w : Word) (o : Option Nat) : EffectKeeps s (s.receiveArrival id w o).2 ∧
    (s.receiveArrival id w o).2.sys = s.sys ∧ (s.receiveArrival id w o).2.dram = s.dram := by
  unfold State.receiveArrival
  dsimp only
  split
  · exact ⟨⟨rfl, rfl, rfl, rfl, rfl, rfl, rfl⟩, rfl, rfl⟩
  · split
    · exact ⟨⟨rfl, rfl, rfl, rfl, rfl, rfl, rfl⟩, rfl, rfl⟩
    · exact ⟨⟨rfl, rfl, rfl, rfl, rfl, rfl, rfl⟩, rfl, rfl⟩

theorem barx_anole {i : BitVec 4} {r : Regs} (hc : s.cur = .anole i) (he : s.executes r g) (hw : (srB r b).toNat < 2 ^ 32)
    (hz : (srB r b).toNat / 2 ^ 16 % 2 ^ 4 = 0) (hn : (srB r b).toNat / 2 ^ 20 = s.node.toNat) (hi : s.byIdent (r.get a) = some l)
    (hr : s.right 0x01245000 l.part.toNat 44 .enqueue = true) :
    exec (.barx a b g) s = .next (((s.receiveArrival (r.get a) (srB r b) none).2.modAnole i fun c => { c with commit := .idle }).modRegsOf (.anole i)
      fun r => r.skip (srLen b)) := by
  have lid : s.curLid = none := by rw [State.curLid, hc]
  have keeps := receiveArrival_keeps s (r.get a) (srB r b) none
  have lid' : (s.receiveArrival (r.get a) (srB r b) none).2.curLid = none := by rw [State.curLid, keeps.1.cur, hc]
  show scalar _ _ _ _ = _
  rw [scalar_on he.1 he.2, hc]
  congr 1
  refine runAct_adv ?_
  simp only [targetBits hw hz, raiseIf_false, pure_bind_act]
  unfold commitAny
  rw [bind_run, bind_ok get_run, hc]
  dsimp only
  rw [bind_run, bind_ok get_run, if_pos (nodeField hw hn), lid]
  dsimp only
  rw [hi]
  dsimp only
  rw [hr]
  simp only [Bool.not_true, raiseIf_false, pure_bind_act]
  rw [bind_ok (set_run _)]
  by_cases hk : (s.receiveArrival (r.get a) (srB r b) none).1 = true
  · simp only [hk]
    rfl
  · rw [Bool.not_eq_true] at hk
    rw [hk, Bool.not_false, if_pos rfl, bind_ok (modify_run _), lid']
    rfl

end Sys2Proof.Proofs
end

section
/-! BWAIT.X: outside arrivals are taken in the effect of a commit point (R35, R143). -/

namespace Sys2Proof.Proofs

open Sys2Proof.Machine Sys2Proof.Laws

variable {s s3 t : State} {k : CoreRef} {l : Launch} {cp : Copy} {c d : Core} {g : BitVec 4} {b : Src} {bar : BitVec 7} {x : Barrier} {sig : BitVec 64}
  {v : BitVec 16}

/-- A barrier with the outside arrivals that it holds counted. -/
def takeExt (x : Barrier) : Barrier := ({ x with ext := 0#16 } : Barrier).arriveMany x.ext.toNat

/-- Nothing more is counted at a barrier whose arrivals are below its expected number. -/
theorem takeExt_arriveMany_zero (he : x.exp.toNat ≠ 0) : (takeExt x).arriveMany 0 = takeExt x := by
  let a := (x.arr.toNat + x.ext.toNat) % x.exp.toNat
  have below : a < x.exp.toNat := Nat.mod_lt _ (Nat.pos_of_ne_zero he)
  have same : (BitVec.ofNat 16 a).toNat = a := by rw [BitVec.toNat_ofNat, Nat.mod_eq_of_lt (below.trans x.exp.isLt)]
  show ({ takeExt x with arr := BitVec.ofNat 16 (((BitVec.ofNat 16 a).toNat + 0) % x.exp.toNat)
                         gen := (takeExt x).gen + BitVec.ofNat 16 (((BitVec.ofNat 16 a).toNat + 0) / x.exp.toNat) } : Barrier) = takeExt x
  rw [same, Nat.add_zero, Nat.mod_eq_of_lt below, Nat.div_eq_of_lt below, BitVec.add_zero]
  rfl

theorem coreNow_run (h : s.core? k = some c) : coreNow k s = .ok (c, s) := by
  rw [coreNow, bind_ok get_run, h]
  rfl

/-- Core `c` without outside arrivals that wait at a barrier. -/
def dropExt (bar : BitVec 7) (c : Core) : Core := c.modBar bar fun y => { y with ext := 0#16 }

/-- Core `c` with `n` outside arrivals counted at a barrier in an instruction that had counted none. -/
def countExt (bar : BitVec 7) (n : Nat) (c : Core) : Core :=
  let d := c.modBar bar fun y => y.arriveMany n
  { d with applied := some (bar, n), sync := { d.sync with noted := d.sync.noted ++ [] } }

theorem modBar_modBar (c : Core) (bar : BitVec 7) (f f' : Barrier → Barrier) : (c.modBar bar f).modBar bar f' = c.modBar bar fun y => f' (f y) := by
  simp [Core.modBar, Core.bar]

theorem countExt_sync (bar : BitVec 7) (c : Core) : (countExt bar (c.bar bar).ext.toNat (dropExt bar c)).sync =
    { c.sync with barriers := c.sync.barriers.set bar.toNat (takeExt (c.bar bar)) } := by
  rw [countExt, dropExt, modBar_modBar, List.append_nil]
  rfl

theorem countExt_bar (bar : BitVec 7) (c : Core) : (countExt bar (c.bar bar).ext.toNat (dropExt bar c)).bar bar = takeExt (c.bar bar) := by
  rw [Core.bar, countExt_sync]
  exact Vector.getElem_set_self _

/-- A launch's record without the arrivals at barrier `bar` of core `rank` that it remembers. -/
def dropBarx (rank : Nat) (bar : BitVec 7) (m : Launch) : Launch := { m with barx := m.barx.filter fun e => !(e.2.1 == rank && e.2.2 == bar) }

/-- The state with `n` outside arrivals at barrier `bar` of core `k` taken. -/
def extCounted (s : State) (k : CoreRef) (bar : BitVec 7) (n : Nat) : State :=
  ((s.modLaunch k.lid (eachCopy k.rank (dropExt bar))).modLaunch k.lid (dropBarx k.rank bar)).modCore k (countExt bar n)

theorem extCounted_effect (h : AfterEffect s s3 k l cp sig d) (n : Nat) :
    AfterEffect s (extCounted s3 k bar n) k l cp sig (countExt bar n (dropExt bar d)) :=
  ((h.modEachCopy (dropExt bar) (fun _ => rfl) rfl).modLaunch (dropBarx k.rank bar) (fun _ => rfl) (fun _ => rfl) fun _ => ⟨rfl, rfl, rfl, rfl, rfl, rfl⟩).modCore
    (countExt bar n) (fun _ => rfl) rfl

theorem extCounted_others (s : State) (k : CoreRef) (bar : BitVec 7) (n : Nat) {j : CoreRef} (hj : j.lid ≠ k.lid ∨ j.rank ≠ k.rank) :
    (extCounted s k bar n).core? j = s.core? j := by
  have other : j ≠ k := by
    rintro rfl
    exact hj.elim (· rfl) (· rfl)
  rw [extCounted, coreAt_modCore_ne other (countExt bar n) fun _ => rfl, State.core?,
    copy_modRecord (dropBarx k.rank bar) (fun _ => rfl) fun _ => rfl, ← core_modEachCopy_ne (f := dropExt bar) (fun _ => rfl) hj]
  rfl

/-- The effect of BWAIT.X where no arrival has been counted: they are all counted at once; it goes on when that lets the generation pass. -/
theorem waitExt_run (h : AfterEffect s s3 k l cp sig d) (ha : d.applied = none) (hn : d.sync.noted = []) (ht : s3.isTokenBarrier k bar.toNat = false) :
    waitExt k bar v s3 = if (takeExt (d.bar bar)).passed v then .ok ((BitVec.ofNat 64 (d.bar bar).ext.toNat, 0#64, []), extCounted s3 k bar (d.bar bar).ext.toNat)
      else .error (.hold, extCounted s3 k bar (d.bar bar).ext.toNat) := by
  have after := coreNow_run (extCounted_effect (bar := bar) h (d.bar bar).ext.toNat).core
  have noted : (countExt bar (d.bar bar).ext.toNat (dropExt bar d)).sync.noted = [] := by rw [countExt_sync]; exact hn
  unfold waitExt
  rw [bind_ok get_run, bind_ok (coreNow_run h.core)]
  dsimp only
  rw [ht]
  simp only [Bool.false_eq_true, if_false, ha, Option.map_none, Option.getD_none, Nat.zero_add]
  rw [bind_ok (modify_run _), bind_ok (modify_run _), bind_ok (onCore_run ..)]
  refine (bind_ok after).trans ?_
  rw [countExt_bar, noted]
  cases (takeExt (d.bar bar)).passed v
  · rfl
  · rfl

/-! ### The instruction -/

/-- Core `c` after the end of BWAIT.X, which counts the arrivals that its effect has not. -/
def waitDone (bar : BitVec 7) (v : BitVec 16) (more : Nat) (c : Core) : Core :=
  let d := (c.modBar bar fun y => y.arriveMany more).returnedOn bar v
  { d with applied := none, sync := { d.sync with noted := d.sync.noted.filter fun g => !(g.1 == bar && decide ((v - g.2).toNat < 32768)) } }

/-- BWAIT.X from its commit point on. -/
def bwaitXEnd (k : CoreRef) (bar : BitVec 7) (v : BitVec 16) (effect : Act (Word × Word × List (BitVec 32))) : Act Next := do
  let (n, _, _) ← effect
  let c ← coreNow k
  let done := (c.applied.map fun a => a.2).getD 0
  onCore k fun c =>
    let d := (c.modBar bar fun y => y.arriveMany (n.toNat - done)).returnedOn bar v
    { d with applied := none, sync := { d.sync with noted := d.sync.noted.filter fun g => !(g.1 == bar && decide ((v - g.2).toNat < 32768)) } }
  pure .adv

theorem bwaitXEnd_run {effect : Act (Word × Word × List (BitVec 32))} {r : Word × Word × List (BitVec 32)} {n : Nat} (run : effect s = .ok (r, t))
    (core : t.core? k = some d) (hd : d.applied = some (bar, n)) (hr : r.1.toNat - n = 0) :
    bwaitXEnd k bar v effect s = .ok (.adv, t.modCore k (waitDone bar v 0)) := by
  unfold bwaitXEnd
  rw [bind_ok run]
  refine (bind_ok (coreNow_run core)).trans ?_
  simp only [hd, Option.map_some, Option.getD_some, hr]
  rfl

/-- Core `c` with its outside arrivals at a barrier counted, in the effect of a commit point. -/
def counted (bar : BitVec 7) (c : Core) : Core := countExt bar (c.bar bar).ext.toNat (dropExt bar c)

/-- What BWAIT.X leaves of the tokens and the barriers. -/
theorem waitDone_counted (bar : BitVec 7) (v : BitVec 16) (len : Nat) (c : Core) (hx : (c.bar bar).exp.toNat ≠ 0) :
    ((waitDone bar v 0 { counted bar c with commit := .idle }).past len).sync.tokens = c.sync.tokens ∧
    ((waitDone bar v 0 { counted bar c with commit := .idle }).past len).sync.barriers = c.sync.barriers.set bar.toNat (takeExt (c.bar bar)) := by
  refine ⟨rfl, ?_⟩
  show (counted bar c).sync.barriers.set bar.toNat (((counted bar c).bar bar).arriveMany 0) = _
  rw [counted, countExt_bar, takeExt_arriveMany_zero hx, countExt_sync]
  exact Vector.set_set ..

section

variable (h : s.AtCommit k l cp c) (he : s.executes c.regs g) (hx : (c.bar bar).exp.toNat ≠ 0) (hn : c.sync.noted = []) (ha : c.applied = none)
  (ht : s.isTokenBarrier k bar.toNat = false)
include h he hx hn ha ht

theorem bwaitX_waits (hp : (takeExt (c.bar bar)).passed ((srB c.regs b).setWidth 16) = false) : ∃ sig,
    exec (.bwaitX bar b g) s = .next (extCounted (prep s k c sig) k bar (c.bar bar).ext.toNat) := by
  have ok : ((c.bar bar).exp == 0#16) = false := beq_eq_false_iff_ne.2 fun e => hx (by rw [e]; rfl)
  let o : OpDesc := { op := 4, w1 := 0#64, w2 := srB c.regs b, w3 := 0#64 }
  have run := waitExt_run (v := (srB c.regs b).setWidth 16) (afterEffect_prep h (cp.commitSig c o)) ha hn ((isTokenBarrier_prep ..).trans ht)
  have held := commitPoint_stops h o (run.trans (if_neg (by rw [Bool.not_eq_true]; exact hp)))
  refine ⟨cp.commitSig c o, scalar_hold he ?_⟩
  rw [bind_ok (theCore_turn h.toCoreTurn)]
  simp only [ok, raiseIf_false, pure_bind_act]
  split
  · rw [bind_ok (takeNoted_none h.toCoreTurn hn _)]
    exact bind_error held
  · exact bind_error held

theorem bwaitX_passes (hp : (takeExt (c.bar bar)).passed ((srB c.regs b).setWidth 16) = true) : ∃ sig t, exec (.bwaitX bar b g) s = .next t ∧
    EffectDone s (extCounted (prep s k c sig) k bar (c.bar bar).ext.toNat) t k l
      ((waitDone bar ((srB c.regs b).setWidth 16) 0 { counted bar { c.opened with commit := .closed sig [] } with commit := .idle }).past (srLen b))
      4 (ofU (c.bar bar).ext.toNat) := by
  have ok : ((c.bar bar).exp == 0#16) = false := beq_eq_false_iff_ne.2 fun e => hx (by rw [e]; rfl)
  let o : OpDesc := { op := 4, w1 := 0#64, w2 := srB c.regs b, w3 := 0#64 }
  have begins := afterEffect_prep h (cp.commitSig c o)
  have effect := waitExt_run (v := (srB c.regs b).setWidth 16) begins ha hn ((isTokenBarrier_prep ..).trans ht)
  obtain ⟨t, run, done⟩ := commit_effect h o (effect.trans (if_pos hp)) (extCounted_effect begins _)
  have all : (BitVec.ofNat 64 (c.bar bar).ext.toNat).toNat - (c.bar bar).ext.toNat = 0 := by
    rw [BitVec.toNat_ofNat, Nat.mod_eq_of_lt ((c.bar bar).ext.isLt.trans (by decide)), Nat.sub_self]
  refine ⟨cp.commitSig c o, scalar_effect h.toCoreTurn he ?_
    (done.step (waitDone bar ((srB c.regs b).setWidth 16) 0) fun _ => rfl)⟩
  have rest := bwaitXEnd_run (v := (srB c.regs b).setWidth 16) run done.logged.core rfl all
  rw [bind_ok (theCore_turn h.toCoreTurn)]
  simp only [ok, raiseIf_false, pure_bind_act]
  split
  · rw [bind_ok (takeNoted_none h.toCoreTurn hn _)]
    exact rest
  · exact rest

end

theorem extCounted_keeps (s : State) (k : CoreRef) (c : Core) (sig : BitVec 64) (bar : BitVec 7) (n : Nat) :
    (extCounted (prep s k c sig) k bar n).sys = s.sys ∧ (extCounted (prep s k c sig) k bar n).dram = s.dram :=
  ⟨(prep_keeps s k c sig).2.1, (prep_keeps s k c sig).2.2.1⟩

theorem extCounted_cores (h : s.AtCommit k l cp c) (sig : BitVec 64) (bar : BitVec 7) (n : Nat) (j : CoreRef) (hj : j.lid ≠ k.lid ∨ j.rank ≠ k.rank) :
    (extCounted (prep s k c sig) k bar n).core? j = s.core? j := by
  have other : j ≠ k := by
    rintro rfl
    exact hj.elim (· rfl) (· rfl)
  rw [extCounted_others _ k bar n hj, prep_core h, if_neg other]

/-- R35, R143: BWAIT.X. -/
theorem bwaitX_takes {bars : Vector Barrier 128} {e n p : Nat} (h : s.AtCommit k l cp c) (he : s.executes c.regs g) (hx : x = c.bar bar) (hexp : e = x.exp.toNat)
    (h0 : e ≠ 0) (hext : n = x.ext.toNat) (hn : c.sync.noted = []) (ha : c.applied = none) (ht : s.isTokenBarrier k bar.toNat = false)
    (hp : p = ((x.gen.toNat + (x.arr.toNat + n) / e) % 2 ^ 16 + 2 ^ 16 - (srB c.regs b).toNat % 2 ^ 16) % 2 ^ 16)
    (hb : bars = c.sync.barriers.set bar.toNat (takeExt x)) :
    (1 ≤ p → p ≤ 32767 → ∃ t c', exec (.bwaitX bar b g) s = .next t ∧ Logged s t k l c' 4 (ofU n) ∧ t.sys = s.sys ∧ t.dram = s.dram ∧
      (∀ j, j.lid ≠ k.lid ∨ j.rank ≠ k.rank → t.core? j = s.core? j) ∧
      c'.regs = c.regs.skip (srLen b) ∧ c'.sync.tokens = c.sync.tokens ∧ c'.sync.barriers = bars ∧ c'.applied = none) ∧
    (p = 0 ∨ 32767 < p → ∃ t c' sig, exec (.bwaitX bar b g) s = .next t ∧ t.core? k = some c' ∧ c'.commit = .closed sig [] ∧ c'.regs = c.regs ∧
      c'.applied = some (bar, n) ∧ c'.sync.tokens = c.sync.tokens ∧ c'.sync.barriers = bars ∧ c'.muslin.seg = c.muslin.seg + 1 ∧
      t.sys = s.sys ∧ t.dram = s.dram ∧ ∀ j, j.lid ≠ k.lid ∨ j.rank ≠ k.rank → t.core? j = s.core? j) := by
  subst hx hexp hext hb
  have gen : (takeExt (c.bar bar)).gen.toNat = ((c.bar bar).gen.toNat + ((c.bar bar).arr.toNat + (c.bar bar).ext.toNat) / (c.bar bar).exp.toNat) % 2 ^ 16 := by
    show ((c.bar bar).gen + BitVec.ofNat 16 (((c.bar bar).arr.toNat + (c.bar bar).ext.toNat) / (c.bar bar).exp.toNat)).toNat = _
    rw [BitVec.toNat_add, BitVec.toNat_ofNat, Nat.add_mod_mod]
  have passed : (takeExt (c.bar bar)).passed ((srB c.regs b).setWidth 16) = true ↔ 1 ≤ p ∧ p ≤ 32767 :=
    passed_iff (hp.trans (by rw [gen])) (BitVec.toNat_setWidth ..)
  refine ⟨fun h1 h2 => ?_, fun hlate => ?_⟩
  · obtain ⟨sig, t, step, done⟩ := bwaitX_passes h he h0 hn ha ht (passed.2 ⟨h1, h2⟩)
    have kept := extCounted_keeps s k c sig bar (c.bar bar).ext.toNat
    refine ⟨t, _, step, done.logged, done.sys.trans kept.1, done.dram.trans kept.2, fun j hj => ?_, rfl, ?_⟩
    · have other : j ≠ k := by
        rintro rfl
        exact hj.elim (· rfl) (· rfl)
      rw [done.others j other, extCounted_cores h sig bar _ j hj]
    · obtain ⟨tokens, barriers⟩ := waitDone_counted bar ((srB c.regs b).setWidth 16) (srLen b) { c.opened with commit := .closed sig [] } h0
      exact ⟨tokens, barriers, rfl⟩
  · obtain ⟨sig, step⟩ := bwaitX_waits h he h0 hn ha ht (by rw [← Bool.not_eq_true, passed]; omega)
    have effect := extCounted_effect (bar := bar) (afterEffect_prep h sig) (c.bar bar).ext.toNat
    have sync := congrArg Sync.barriers (countExt_sync bar { c.opened with commit := .closed sig [] })
    have kept := extCounted_keeps s k c sig bar (c.bar bar).ext.toNat
    exact ⟨_, _, sig, step, effect.core, effect.commit, rfl, rfl, rfl, sync, rfl, kept.1, kept.2, extCounted_cores h sig bar _⟩

theorem regsOf_modAnole {i : BitVec 4} (f : Anole → Anole) (hf : ∀ x, (f x).regs = x.regs) :
    (s.modAnole i f).regsOf? (.anole i) = s.regsOf? (.anole i) := by
  simp only [State.regsOf?, State.modAnole, Vector.getElem_set_self, hf]

/-- Settles O31. -/
theorem outsideBarriers : Obligations.OutsideBarriers := by
  refine ⟨?_, ?_, ?_⟩
  · rintro s k l cp c g bar b x e n p bars h he hx hexp h0 hext hn ha ht hp hb
    refine bwaitX_takes h he hx hexp h0 hext hn ha ht hp ?_
    subst hexp hext
    exact hb
  · intro s k l cp c g a b h he hw hz hnode hi
    obtain ⟨sig, t, step, done⟩ := barx_overSignals h he hw hz hnode hi
    obtain ⟨m, hm, -⟩ := (afterEffect_prep h sig).launch
    have flagged : ((prep s k c sig).overSignal k.lid).launch? k.lid = some { m with ovs := true } := by
      rw [State.overSignal, launch_modLaunch (fun m => { m with ovs := true }) fun _ => rfl, hm]
      rfl
    obtain ⟨n, hn, ovs⟩ := done.ovs _ flagged
    obtain ⟨-, sys, dram, -⟩ := prep_keeps s k c sig
    refine ⟨t, n, step, done.logged, fun j hj => ?_, hn, ovs, done.sys.trans sys, done.dram.trans dram⟩
    rw [done.others j hj, State.core?, State.overSignal, copy_modRecord (fun m => { m with ovs := true }) (fun _ => rfl) fun _ => rfl]
    exact (prep_core h sig j).trans (if_neg hj)
  · intro s i g a b r l hc he hw hz hnode hi hr
    obtain ⟨keeps, sys, dram⟩ := receiveArrival_keeps s (r.get a) (srB r b) none
    refine ⟨_, barx_anole hc he hw hz hnode hi hr, ?_, sys, dram, rfl⟩
    have regs : s.regsOf? (.anole i) = some r := by rw [← hc]; exact he.1
    have kept : (s.receiveArrival (r.get a) (srB r b) none).2.regsOf? (.anole i) = s.regsOf? (.anole i) := by rw [State.regsOf?, State.regsOf?, keeps.anoles]
    rw [State.regs?, modRegsOf_cur]
    refine (congrArg _ (keeps.cur.trans hc)).trans ?_
    rw [regsOf_modRegsOf, regsOf_modAnole (fun c => { c with commit := .idle }) fun _ => rfl, kept, regs]
    rfl

end Sys2Proof.Proofs
end

section
/-! Durable stores (R42, R125, R334, R359): a store of a control core also keeps, in each command that the core has pushed and that has yet to
read, the bytes as they were (R125). -/

namespace Sys2Proof.Proofs

open Sys2Proof.Machine Sys2Proof.Laws

/-- A copy that waits for token e5 before it starts. -/
def waitingCopy : Cmd := { fetchVrun with op := .cpy, waitsOn := [5#6], waits := [5#6], state := .queued }

def onlyRank : CoreRef := { lid := State.reset.nextLid, role := .primary, rank := 0 }

/-- A launch of one core, which has pushed that command; it is the turn of the core, and the first GiB of VIRT is plain writable memory. -/
def pushedTurn : State :=
  { State.reset.withLaunch.modCore onlyRank fun c => { c with eng := { c.eng with cmds := [waitingCopy], nextCmd := 1 } } with cur := .core onlyRank }

/-- The translation of the first GiB. -/
def firstGiB : TlbEntry := { ctx := 0#6, va := 0, size := 2 ^ 30, node := none, dpa := 0, w := true, x := true, rc := false }

/-- How many bytes each command of the core keeps as they were, after an instruction. -/
def earlyAfter (i : Instr) (s : State) : Option (List Nat) :=
  match exec i s with
  | .next t => (t.core? onlyRank).map fun c => c.eng.cmds.map fun m => m.early.length
  | .fault _ => none
  | .refused _ => none

theorem pushedTurn_store : earlyAfter (.st 0#6 0#6 0#4 0#2 64#8) pushedTurn = some [1] := by decide +kernel

theorem pushedTurn_walk : pushedTurn.walk 0#6 0#4 64 = (.leaf firstGiB, pushedTurn) := by rfl

/-- Its launch and its core, as far as a store looks at them. -/
theorem pushedTurn_turn : ∃ l cp c, pushedTurn.CoreTurn onlyRank l cp c ∧ (l.ctx = 0#6 ∧ l.part = 0#4) ∧
    (c.phys = 0 ∧ c.muslin = Muslin.zero ∧ c.eng.cmds = [waitingCopy]) :=
  ⟨_, _, _, ⟨rfl, rfl, rfl, rfl⟩, ⟨rfl, rfl⟩, rfl, rfl, rfl⟩

/-- Byte 64 of VIRT may be stored to. -/
theorem pushedTurn_place {l : Launch} {c : Core} (hl : l.ctx = 0#6 ∧ l.part = 0#4) (hc : c.phys = 0) :
    VirtPlace pushedTurn l c 64#64 1 1 .write 64 64 := by
  obtain ⟨ctx, part⟩ := hl
  constructor
  case leaf =>
    rw [ctx, part, hc]
    exact ⟨firstGiB, pushedTurn_walk, by decide +kernel, rfl, rfl, fun _ => ⟨rfl, rfl⟩, nofun⟩
  case plain =>
    rw [ctx]
    decide
  case right =>
    rw [part]
    decide
  all_goals decide

/-- Refutes O39: a store to VIRT by a core that has pushed a command which has yet to read changes that command too, which keeps the byte as it
was, for it may still read it (R125); the statement says that nothing but the registers and Muslin changes. -/
theorem not_durableAccess : ¬ Obligations.DurableAccess := by
  intro h
  obtain ⟨l, cp, c, turn, hl, phys, muslin, cmds⟩ := pushedTurn_turn
  have executes : pushedTurn.executes c.regs 0#4 := ⟨by rw [State.regs?, turn.cur, State.regsOf?, turn.core]; rfl, rfl⟩
  have address : memAddr c.regs 0#6 0#2 64#8 = 64#64 := by
    rw [memAddr, show c.regs.get 0#6 = 0#64 from rfl]
    decide
  have place : VirtPlace pushedTurn l c (memAddr c.regs 0#6 0#2 64#8) 1 1 .write 64 64 := address ▸ pushedTurn_place hl phys
  obtain ⟨m, put⟩ : ∃ m, c.muslin.put c.muslin.seg 0 64 none 64 none (natLe 1 (c.regs.get 0#6).toNat) = some m := by
    rw [muslin]
    exact ⟨_, rfl⟩
  obtain ⟨-, store, -⟩ := h pushedTurn onlyRank l cp c 0#4 turn executes
  obtain ⟨t, step, only⟩ := store 0#6 0#6 0#2 64#8 1 64 64 m rfl place (by rw [muslin]; rfl) put
  have kept : earlyAfter (.st 0#6 0#6 0#4 0#2 64#8) pushedTurn = some [0] := by
    rw [earlyAfter, step]
    simp only [only.1, Option.map_some, cmds]
    rfl
  rw [pushedTurn_store] at kept
  exact absurd kept (by decide)

end Sys2Proof.Proofs
end

section
/-! Decoding what the encoder writes gives the instruction back (R49 to R63), and words written out bit by bit decode to their instructions. -/

namespace Sys2Proof.Laws.RoundTrip

/-- The encoder and the decoder agree on every instruction: one case per constructor. -/
theorem statement (i : Instr) : Statement i :=
  Instr.casesOn (motive := Statement) i
    add sub mul mulh mulhn div divn rem remn min max minn maxn and or xor andn shl shr sra rotl mov clz ctz popc sextB sextH sextW zextB
    zextH zextW cmp pand por pxor pnot lit tptr tadd tget addSi subSi mulSi andSi orSi xorSi shlSi shrSi sraSi rotlSi minSi maxSi movi
    taddSi ld st br call jmpr ret amoAdd amoAnd amoOr amoXor amoMin amoMax amoMinn amoMaxn amoXchg amoCas amoFadd amoAdd128 fence tset tpost
    twait ttest trig binit barv barvRemote barx bwait bwaitX abankAlloc abankFree tidset tidget nrd nclr nstat vopen vpub vbind vretire
    vquery trec cwait drainUsp drainCls drainDsp drainVirt drainVim hflush isync enq sigf iter ckpt trap sysret wfe exit mfs mts nop cpy
    cpyT cpyMc cpyQ gath scat bin kvg kva kvdem kvrefInc kvrefDec cube cubeGa cubeGb cubeGk cubeSp aclr adrain stt stp stg updSgd updAdam
    vrun gang chain vadd vsub vmul vfma vfms vmin vmax vabs vneg vrcp vrsq vexp2 vlog2 vtanh viadd visub vimul vand vor vxor vshl vshr vsra
    vimin vimax vsat vcmp vcnt vcvt vqnt vdqnt vunpk vpack vld vst vldt vgth vsct vldb vrsum vrmax vrmin vscan vsegs vpart vrng vdrop vgmb
    vargmx vmovCK vmovV vmovAK vmovAdd vmovKV vsel vperm vshuf vbcst viota vsetk vlp unassignedEncoding unassignedVectorWord
    vectorResultLanding elasticWordCompletion engineCommandStart engineCommandCompletion engineAccessFault chunkWritesPerformed
    tokenWaitSatisfied calicoTermFire barrierArrival outsideArrivalReceive classDCompare thirdExecutionDecision bankSpareReplace
    checkpointCommit groupResume preemptionTakeEffect progressGuardExpiry quiescenceWatchdog wfeTimeout queueClaim queueWriteIndexUpdate
    queueCompletionAck queueErrorWrite queueCreate queueRestart queueDestroy queuePark dependenceCounterWrite packetValidation
    launchPlacement launchCompletion pageWalkReturn shootdownIssue shootdownComplete contextStateWrite contextResolveWrite vrCreate
    vrDestroy vrAbandon kvPromote kvFrameRelease kvHeaderWrite partitionDescriptorWrite remoteMasterWrite breakpointWrite
    faultQueueDescriptorWrite faultQueueReadWrite nodeIdWrite powerLimitWrite sysRegisterWrite hostApertureAccess hostWindowAccess linkRead
    linkReadResponse linkMaskedWrite linkWriteAcknowledgement linkAtomic linkAtomicResponse linkEnqueue linkEnqueueResponse
    linkBarrierArrival linkArrivalAcknowledgement linkNack linkUnknownOp linkPause linkResume linkPauseExpiry remoteResponseTimeout
    linkPortDown linkPortTrained fwVerify fwUpdate mbReadScore mbClearFence mbCopyFlashRecord mbWriteFirmwareSlot mbDeviceReset
    mbRaiseAntirollback mbCapacitySave mbCapacityRestore mbUnknownCommand pcieConventionalReset spdmGetVersion spdmGetCapabilities
    spdmNegotiateAlgorithms spdmGetDigests spdmGetCertificate spdmChallenge spdmGetMeasurements spdmUnsupportedRequest writePerformed
    softError functionReady hostPortTrained linkFlitError vend scoreHalving flashRecordWrite msixNotify fwTrialStart fwHeartbeat
    fwHeartbeatTimeout fwCommit fwAbandon capacitySaveComplete bringUp powerLoss

end Sys2Proof.Laws.RoundTrip

namespace Sys2Proof.Proofs

open Sys2Proof.Machine Sys2Proof.Laws

/-- Settles O2, in the stream that each form is fetched from. -/
theorem encodeDecodeAgree : Obligations.EncodeDecodeAgree := by
  intro i
  have h := RoundTrip.statement i
  unfold RoundTrip.Statement at h
  refine ⟨fun hf hw => ?_, fun hf hw => ?_, fun hf => ?_⟩
  · rcases hf with hf | hf <;> rw [hf] at h <;> exact h hw
  · rw [hf] at h; exact h hw
  · rw [hf] at h; exact h

/-- Settles O1. -/
theorem wordsDecode : Obligations.WordsDecode :=
  ⟨by decide, by decide, by decide, by decide, by decide, by decide, by decide, by decide, by decide, by decide, by decide, by decide, by decide⟩

end Sys2Proof.Proofs
end

section
/-! What the decoders accept is well formed (R53, R55, R58 to R60, R63, R64). -/

namespace Sys2Proof.Proofs

open Sys2Proof.Machine Sys2Proof.Laws

/-- A decoder's answer, when it is an instruction, is well formed. -/
def Sound (x : Except Reject Instr) : Prop := ∀ i, x = .ok i → i.wf = true

@[simp] theorem sound_checked (i : Instr) : Sound (checked i) := by
  intro j h
  unfold checked at h
  split at h
  next hw => cases h; exact hw
  next => cases h

@[simp] theorem sound_resv (z : Bool) (i : Instr) : Sound (resv z i) := by
  unfold resv
  split
  · exact sound_checked i
  · exact fun _ h => nomatch h

@[simp] theorem sound_error (e : Reject) : Sound (.error e) := fun _ h => nomatch h

theorem sound_ok {i : Instr} (h : i.wf = true) : Sound (.ok i) := fun _ e => by cases e; exact h

@[simp] theorem sound_unassigned (w : BitVec 32) : Sound (.ok (.unassignedEncoding w)) := sound_ok rfl
@[simp] theorem sound_unassignedVector (w : BitVec 48) : Sound (.ok (.unassignedVectorWord w)) := sound_ok rfl
@[simp] theorem sound_nop (n : BitVec 26) : Sound (.ok (.nop n)) := sound_ok rfl

/-- The guard of a well-formed instruction is not the one of never (R53). -/
theorem guardOf_wf {i : Instr} {g : BitVec 4} (hg : guardOf i = some g) (hw : i.wf = true) : guardOk g = true := by
  unfold guardOf at hg
  split at hg <;> cases hg <;> simp [Instr.wf, srOk, EOp.ok, eBase] at hw <;> simp [hw]

theorem sound_ite {p : Prop} [Decidable p] {x y : Except Reject Instr} (hx : Sound x) (hy : Sound y) : Sound (if p then x else y) := by
  split <;> assumption

theorem sound_decodeSR {mop d a r : BitVec 6} {g fn : BitVec 4} {b : Src} {w : BitVec 32} : Sound (decodeSR mop d a r g fn b w) := by
  unfold decodeSR
  dsimp only
  split <;> simp [sound_ite]

theorem sound_decodeSI {mop d a : BitVec 6} {g : BitVec 4} {i : BitVec 10} {w : BitVec 32} : Sound (decodeSI mop d a g i w) := by
  unfold decodeSI
  split <;> simp

theorem sound_decodeSM {mop d a : BitVec 6} {g : BitVec 4} {z : BitVec 2} {o : BitVec 8} {w : BitVec 32} : Sound (decodeSM mop d a g z o w) := by
  unfold decodeSM
  split <;> simp

theorem sound_decodeSB {mop : BitVec 6} {g : BitVec 4} {disp : BitVec 22} {w : BitVec 32} : Sound (decodeSB mop g disp w) := by
  unfold decodeSB
  split <;> simp

theorem sound_decodeSA {d a b : BitVec 6} {z o : BitVec 2} {aop : BitVec 4} {w : BitVec 32} : Sound (decodeSA d a b z o aop w) := by
  unfold decodeSA
  split <;> simp [sound_ite]

/-- A governed instruction is accepted as its prefixes ask. -/
theorem sound_governed (x : Option (EOp × EArgs)) (ok : EOp → Bool) (f : EOp → EArgs → Instr) :
    Sound (match x with
      | some (op, e) => if ok op then checked (f op e) else .error .prefixes
      | none => .error .prefixes) := by
  split
  · exact sound_ite (sound_checked _) (sound_error _)
  · exact sound_error _

theorem sound_decodeE (ws : List (BitVec 32)) : Sound (decodeE ws) := by
  unfold decodeE
  split
  · refine sound_ite (sound_ite (sound_unassigned _) (sound_ite ?_ (sound_ite ?_ (sound_error _)))) ?_
    · split
      · refine sound_ite ?_ (sound_governed _ EOp.gangable _)
        split
        · exact sound_governed _ EOp.gangable _
        · exact sound_error _
      · exact sound_error _
    · split
      · exact sound_governed _ EOp.chainable _
      · exact sound_error _
    · split <;> simp
  · exact sound_error _

theorem sound_decode (ws : List (BitVec 32)) : Sound (decode ws) := by
  unfold decode
  split
  · exact sound_error _
  · refine sound_ite (sound_ite (sound_error _) sound_decodeSR) (sound_ite sound_decodeSI (sound_ite sound_decodeSM
      (sound_ite sound_decodeSA (sound_ite sound_decodeSB (sound_ite (sound_nop _) (sound_ite (sound_decodeE _) (sound_unassigned _)))))))

theorem sound_decodeVmov (v : VArgs) : Sound (decodeVmov v) := by
  unfold decodeVmov
  split <;> simp

theorem sound_decodeVector (w : BitVec 48) : Sound (decodeVector w) := by
  unfold decodeVector decodeV
  split <;> simp [sound_decodeVmov]

/-- Settles O3. -/
theorem decodedIsWellFormed : Obligations.DecodedIsWellFormed :=
  ⟨fun ws i h => ⟨sound_decode ws i h, fun never => absurd (guardOf_wf never (sound_decode ws i h)) (by decide)⟩, sound_decodeVector⟩

end Sys2Proof.Proofs
end

section
/-! Branches (R51, R130, R131). -/

namespace Sys2Proof.Proofs

open Sys2Proof.Machine Sys2Proof.Laws

variable {s : State} {r : Regs} {g : BitVec 4} {a d : BitVec 6} {t ret : Word} {act : Regs → Act Next}

/-! ### Where they go -/

theorem scalar_goto (he : s.executes r g) (h : act r s = .ok (.goto t, s)) : scalar g 4 s act = .next (s.modRegs fun x => x.setPc t) := by
  rw [scalar_on he.1 he.2, runAct_goto h]
  rfl

/-- A jump that leaves the address after it in a register. -/
theorem scalar_link (he : s.executes r g) (h : act r s = .ok (.goto t, s.modRegs fun x => x.set d ret)) :
    scalar g 4 s act = .next (s.modRegs fun x => (x.set d ret).setPc t) := by
  rw [scalar_on he.1 he.2, runAct_goto h, State.modRegs, modRegsOf_modRegsOf]
  rfl

/-- R131: the target is an aligned VIRT address, or no VIRT address, or one that is not aligned. -/
theorem jumpTo_aligned (h : t.toNat < 2 ^ 52) (h4 : t.toNat % 4 = 0) (link : Word → Act Unit) : jumpTo t link ret = (do link ret; pure (.goto t)) := by
  have space : fieldNat t 52 12 = 0 := by rw [fieldNat_eq]; omega
  have low : fieldNat t 0 2 = 0 := by rw [fieldNat_eq]; omega
  rw [jumpTo, space, low]
  rfl

theorem jumpTo_space (h : 2 ^ 52 ≤ t.toNat) (link : Word → Act Unit) : jumpTo t link ret = raise (Trap.mk' 0x04) := by
  have space : (fieldNat t 52 12 != 0) = true := by rw [fieldNat_eq, bne_iff_ne]; omega
  rw [jumpTo, space]
  rfl

theorem jumpTo_misaligned (h : t.toNat < 2 ^ 52) (h4 : t.toNat % 4 ≠ 0) (link : Word → Act Unit) : jumpTo t link ret = raise (Trap.mk' 0x03) := by
  have space : fieldNat t 52 12 = 0 := by rw [fieldNat_eq]; omega
  have low : (fieldNat t 0 2 != 0) = true := by rw [fieldNat_eq, bne_iff_ne]; omega
  rw [jumpTo, space, low]
  rfl

theorem jump_run (he : s.executes r g) (ha : act r = jumpTo t (setX d) ret) (h : t.toNat < 2 ^ 52) (h4 : t.toNat % 4 = 0) :
    scalar g 4 s act = .next (s.modRegs fun x => (x.set d ret).setPc t) :=
  scalar_link he (by rw [ha, jumpTo_aligned h h4]; rfl)

theorem jump_traps (he : s.executes r g) (ha : act r = jumpTo t (setX d) ret) :
    (2 ^ 52 ≤ t.toNat → scalar g 4 s act = .next ((s.endCommit s.cur).takeFault s.cur (Trap.mk' 0x04))) ∧
    (t.toNat < 2 ^ 52 → t.toNat % 4 ≠ 0 → scalar g 4 s act = .next ((s.endCommit s.cur).takeFault s.cur (Trap.mk' 0x03))) :=
  ⟨fun h => scalar_trap he (by rw [ha, jumpTo_space h]; rfl), fun h h4 => scalar_trap he (by rw [ha, jumpTo_misaligned h h4]; rfl)⟩

/-! ### Their reserved fields (R55) -/

/-- A base word of form SR with a reserved field that is not zero decodes to nothing, whatever follows it. -/
theorem decode_mkSR_refused {mop b : BitVec 6} {fn : BitVec 4} (hm : isSR mop = true)
    (hd : ∀ x, decodeSR mop d a b g fn x (mkSR mop d a b g fn) = .error .reserved) (rest : List (BitVec 32)) (i : Instr) :
    decode (mkSR mop d a b g fn :: rest) ≠ .ok i := by
  simp only [decode, fMop_mkSR, fRd_mkSR, fRa_mkSR, fRb_mkSR, fGuard_mkSR, fFn_mkSR, hm, if_true, hd]
  split <;> exact fun h => nomatch h

theorem resv_refused {z : Bool} (h : z = false) (i : Instr) : resv z i = .error .reserved := by rw [h]; rfl

theorem guardOk_iff : guardOk g = true ↔ g ≠ 8#4 := bne_iff_ne

/-- Settles O9. -/
theorem branchTargets : Obligations.BranchTargets := by
  refine ⟨fun s r g he => ⟨fun disp => ?_, fun disp => ?_, fun d a => jump_run he rfl, jump_run (d := 0#6) he rfl⟩,
    fun s r g d a he => ⟨(jump_traps he rfl).1, (jump_traps he rfl).2, (jump_traps he rfl).1, (jump_traps he rfl).2⟩,
    fun d a b g hg => ⟨?_, ?_, fun hb => decode_mkSR_refused rfl fun x => ?_, fun h => decode_mkSR_refused rfl fun x => ?_⟩⟩
  · rw [← branch_value]
    exact scalar_goto he rfl
  · rw [← branch_value]
    exact scalar_link he rfl
  · exact RoundTrip.jmpr d a g (guardOk_iff.2 hg) []
  · exact RoundTrip.ret g (guardOk_iff.2 hg) []
  · exact resv_refused (beq_eq_false_iff_ne.2 hb) _
  · refine resv_refused (z := d == 0#6 && a == 0#6 && b == 0#6) ?_ _
    rcases h with h | h | h <;> simp [h]

end Sys2Proof.Proofs
end

section
/-! Waits, hints and traps (R55, R158, R160, R163 to R166). -/

namespace Sys2Proof.Proofs

open Sys2Proof.Machine Sys2Proof.Laws

variable {s : State} {k : CoreRef} {l : Launch} {cp : Copy} {c : Core} {i : BitVec 4} {r : Regs} {g : BitVec 4}

/-! ### CKPT and SIGF -/

/-- A core that no shoot-down waits for has nothing to acknowledge (R338). -/
theorem ackShoots_none (h : ∀ d ∈ s.shoots, k ∉ d.waiting) : s.ackShoots k = s := by
  have mine : s.shoots.filter (fun d => d.waiting.contains k) = [] := by
    rw [List.filter_eq_nil_iff]
    intro d hd
    simp [h d hd]
  have waiting (d : Shootdown) (hd : d ∈ s.shoots) : { d with waiting := d.waiting.filter fun x => x != k } = d := by
    rw [List.filter_eq_self.2]
    intro x hx
    rw [bne_iff_ne]
    rintro rfl
    exact h d hd hx
  rw [State.ackShoots, mine]
  show { s with shoots := s.shoots.map _ } = s
  rw [List.map_congr_left waiting, List.map_id']

theorem quiesce_run (h : ∀ d ∈ s.shoots, k ∉ d.waiting) : quiesce k s = .ok ((), s.modCore k fun c => { c with watch := s.cc }) := by
  unfold quiesce
  rw [bind_ok (modify_run _), ackShoots_none h]
  rfl

theorem ckpt_run (ht : s.CoreTurn k l cp c) (he : s.executes c.regs g) (h : ∀ d ∈ s.shoots, k ∉ d.waiting) : ∃ t, exec (.ckpt g) s = .next t ∧
    onlyCore s t k { c.past 4 with watch := s.cc, loop := { c.loop with ckptPending := c.loop.ckptPending || c.loop.phase != .epilogue } } := by
  have quiet : onlyCore s (s.modCore k fun c => { c with watch := s.cc }) k { c with watch := s.cc } :=
    onlyCore_step (onlyCore_refl ht.core) _ (fun _ => rfl) rfl
  cases hp : c.loop.phase != .epilogue with
  | false =>
      rw [Bool.or_false]
      refine scalar_core (len := 4) ht he ?_ quiet
      refine (bind_ok (theCore_turn ht)).trans ((bind_ok (quiesce_run h)).trans ?_)
      rw [hp]
      rfl
  | true =>
      rw [Bool.or_true]
      refine scalar_core (len := 4) (d := { c with watch := s.cc, loop := { c.loop with ckptPending := true } }) ht he ?_
        (onlyCore_step quiet (fun c => { c with loop := { c.loop with ckptPending := true } }) (fun _ => rfl) rfl)
      refine (bind_ok (theCore_turn ht)).trans ((bind_ok (quiesce_run h)).trans ?_)
      rw [hp]
      rfl

theorem sigf_run (ht : s.CoreTurn k l cp c) (he : s.executes c.regs g) (a : BitVec 6) : ∃ t, exec (.sigf a g) s = .next t ∧
    onlyCore s t k { c.past 4 with muslin := { c.muslin with fold := if l.packet.prot = 0 then c.muslin.fold else crc64 (natLe 8 c.muslin.fold.toNat ++ natLe 8 (c.regs.get a).toNat) } } := by
  by_cases hp : l.packet.prot = 0
  · rw [if_pos hp]
    refine scalar_core (len := 4) ht he ?_ (onlyCore_refl ht.core)
    rw [bind_ok (theCore_turn ht)]
    simp only [show l.cls = 0 from hp]
    rfl
  · rw [if_neg hp]
    refine scalar_core (len := 4) (d := { c with muslin := { c.muslin with fold := foldIn c.muslin.fold (c.regs.get a) } }) ht he ?_
      (onlyCore_step (onlyCore_refl ht.core) (fun c' => { c' with muslin := { c'.muslin with fold := foldIn c'.muslin.fold (c.regs.get a) } }) (fun _ => rfl) rfl)
    rw [bind_ok (theCore_turn ht)]
    dsimp only
    rw [if_pos (show l.cls ≠ 0 from hp)]
    rfl

/-! ### ISYNC and WFE -/

/-- What an agent had fetched of overwritten code that a fence has shown it since is discarded. -/
theorem syncCode_synced {n : Nat} {e : OldCode} (h : e ∈ (s.syncCode n false).oldCode) (he : e.all = true ∨ n ∈ e.covered) : n ∈ e.synced := by
  obtain ⟨x, -, rfl⟩ := List.mem_map.1 h
  revert he
  split
  next => exact fun _ => List.mem_append_right _ (List.mem_singleton_self n)
  next hx =>
    have unsynced : x.all = true ∨ n ∈ x.covered → n ∈ x.synced := by simpa using hx
    exact unsynced

theorem isync_run {a : Nat} (he : s.executes r g) (ha : s.actor = some a) : exec (.isync g) s = .next ((s.syncCode a false).modRegsOf s.cur fun r => r.skip 4) := by
  show scalar _ _ _ _ = _
  rw [scalar_on he.1 he.2, runAct_adv (s' := s.syncCode a false)]
  rw [bind_ok (modify_run _), ha]
  rfl

theorem isync_core (ht : s.CoreTurn k l cp c) (he : s.executes c.regs g) : ∃ t, exec (.isync g) s = .next t ∧ onlyCore s t k (c.past 4) ∧
    ∀ e ∈ t.oldCode, e.all = true ∨ c.phys ∈ e.covered → c.phys ∈ e.synced := by
  have actor : s.actor = some c.phys := by rw [State.actor, ht.cur]; exact congrArg (Option.map _) ht.core
  have synced : onlyCore s (s.syncCode c.phys false) k c := onlyCore_refl ht.core
  refine ⟨_, isync_run he actor, ?_, fun e h => syncCode_synced (by simpa using h)⟩
  rw [ht.cur]
  exact onlyCore_step synced (fun x => { x with regs := x.regs.skip 4 }) (fun _ => rfl) rfl

/-- A change of an Anole core leaves everything else. -/
theorem anoleFrame_modAnole (s : State) (i : BitVec 4) (oc : List OldCode) (f : Anole → Anole) : anoleFrame s (State.modAnole { s with oldCode := oc } i f) i := by
  refine ⟨fun b hb => ?_, rfl, rfl, rfl, rfl, rfl, rfl, rfl, rfl, rfl, rfl, rfl⟩
  cases b with
  | none => rfl
  | vec k => rfl
  | core k => rfl
  | anole j =>
      have other : i.toNat ≠ j.toNat := fun e => hb (by rw [BitVec.eq_of_toNat_eq e])
      simp [State.modAnole, State.regsOf?, Vector.getElem_set_ne _ _ other]

theorem anole_modAnole (s : State) (i : BitVec 4) (f : Anole → Anole) : (s.modAnole i f).anoles[i.toNat] = f s.anoles[i.toNat] :=
  Vector.getElem_set_self _

theorem anole_regs (hc : s.cur = .anole i) (he : s.executes r g) : s.anoles[i.toNat].regs = r := by
  have h := he.1
  rw [State.regs?, hc] at h
  exact Option.some.inj h

theorem isync_anole (hc : s.cur = .anole i) (he : s.executes r g) : ∃ t, exec (.isync g) s = .next t ∧ anoleFrame s t i ∧ t.dram = s.dram ∧
    t.anoles[i.toNat] = { s.anoles[i.toNat] with regs := r.skip 4 } ∧
    ∀ e ∈ t.oldCode, e.all = true ∨ anoleAgent i.toNat ∈ e.covered → anoleAgent i.toNat ∈ e.synced := by
  have actor : s.actor = some (anoleAgent i.toNat) := by rw [State.actor, hc]
  refine ⟨_, isync_run he actor, ?_⟩
  rw [hc]
  refine ⟨anoleFrame_modAnole s i _ _, rfl, (anole_modAnole _ i _).trans ?_, fun e h => syncCode_synced h⟩
  rw [← anole_regs hc he]
  rfl

theorem wfe_core (ht : s.CoreTurn k l cp c) (he : s.executes c.regs g) : ∃ t, exec (.wfe g) s = .next t ∧
    onlyCore s t k { c with block := .wfe s.cc (c.regs.pc + 4#64) } := by
  refine scalar_stay (len := 4) ht he ?_ (onlyCore_step (onlyCore_refl ht.core) (fun x => { x with block := .wfe s.cc (c.regs.pc + 4#64) }) (fun _ => rfl) rfl) rfl
  rw [bind_ok get_run]
  simp only [ht.cur]
  rw [bind_run, theCore_turn ht]
  rfl

theorem wfe_anole (hc : s.cur = .anole i) (he : s.executes r g) : ∃ t, exec (.wfe g) s = .next t ∧ anoleFrame s t i ∧ t.dram = s.dram ∧
    t.anoles[i.toNat] = { s.anoles[i.toNat] with block := .wfe s.cc (r.pc + 4#64) } := by
  have run : exec (.wfe g) s = .next (s.modAnole i fun c => { c with block := .wfe s.cc (r.pc + 4#64), regs := c.regs.setPc r.pc }) := by
    show scalar _ _ _ _ = _
    rw [scalar_on he.1 he.2, runAct_goto (pc := r.pc) (s' := s.modAnole i fun c => { c with block := .wfe s.cc (r.pc + 4#64) })]
    · rw [hc]
      simp [State.modRegsOf, State.modAnole]
    · rw [bind_ok get_run]
      simp only [hc]
      rfl
  refine ⟨_, run, anoleFrame_modAnole s i _ _, rfl, (anole_modAnole s i _).trans ?_⟩
  rw [← anole_regs hc he]
  rfl

/-! ### TRAP, SYSRET and unassigned encodings -/

theorem trap_raises (he : s.executes r g) (b : Src) : traps (.trap b g) s s { Trap.mk' 0x19 with trapCode := BitVec.ofNat 32 (srB r b).toNat } := by
  rw [BitVec.ofNat_toNat]
  exact scalar_trap he rfl

theorem sysret_privileged (ht : s.CoreTurn k l cp c) (he : s.executes c.regs g) : traps (.sysret g) s s (Trap.mk' 0x02) := by
  refine scalar_trap he ?_
  rw [bind_ok get_run]
  simp only [ht.cur]
  rfl

theorem exec_unassigned (h : (∃ k, s.cur = .core k) ∨ ∃ a, s.cur = .anole a) (w : BitVec 32) :
    exec (.unassignedEncoding w) s = .next (s.takeFault s.cur (Trap.mk' 0x01)) := by
  show execUnassignedEncoding w s = _
  rcases h with ⟨k, h⟩ | ⟨a, h⟩ <;> simp only [execUnassignedEncoding, h]

/-- R63: the stream stops at the word, and the fault names it. -/
theorem unassignedVectorWord_stops {st : Stream} (ht : s.StreamTurn k l cp c st) (w : BitVec 48) : ∃ t, exec (.unassignedVectorWord w) s = .next t ∧
    onlyCore s t k { c with eng := { c.eng with stream := some { st with err := some { Trap.mk' 0x01 with src := 3, spc := some st.spc.toNat } } } } := by
  have run : exec (.unassignedVectorWord w) s = .next (s.streamErr k (vecTrap 0x01)) := by
    show execUnassignedVectorWord w s = _
    simp only [execUnassignedVectorWord, vecWord, ht.cur]
    rfl
  refine ⟨_, run, onlyCore_step (onlyCore_refl ht.core) _ (fun _ => rfl) ?_⟩
  rw [ht.stream]
  rfl

/-- Settles O36. -/
theorem waitsHintsAndTraps : Obligations.WaitsHintsAndTraps := by
  refine ⟨⟨fun s k l cp c g ht he => ⟨ckpt_run ht he, sigf_run ht he, isync_core ht he, wfe_core ht he⟩,
    fun s i g r hc he => ⟨isync_anole hc he, wfe_anole hc he⟩⟩, fun s g => ⟨fun r b he => trap_raises he b, fun k l cp c ht he => sysret_privileged ht he,
    fun w k hc => ?_, fun w i hc => ?_, fun w k l cp c st ht => unassignedVectorWord_stops ht w⟩⟩
  · rw [exec_unassigned (.inl ⟨k, hc⟩), hc]
  · rw [exec_unassigned (.inr ⟨i, hc⟩), hc]

end Sys2Proof.Proofs
end

section
/-! Guards (R53): the shape of an instruction that has one, and what it does when it is predicated off. -/

namespace Sys2Proof.Proofs

open Sys2Proof.Machine Sys2Proof.Laws

/-- An instruction with a source operand takes the operand's literal words besides its own (R52). -/
theorem byteLen_src {i : Instr} {mop d a : BitVec 6} {b : Src} {g fn : BitVec 4} (h : encode i = encSR mop d a b g fn) : byteLen i = srLen b := by
  rw [byteLen, h]
  cases b <;> rfl

/-- The three shapes of an instruction with a guard: an action, a result in a register, a result in a predicate. -/
inductive GuardedBy (i : Instr) (g : BitVec 4) (s : State) : Prop where
  | act (n : Nat) (f : Regs → Act Next) (len : byteLen i = n) (run : exec i s = scalar g n s f)
  | reg (n : Nat) (d : BitVec 6) (f : Regs → Word) (len : byteLen i = n) (run : exec i s = scalarX d g n s f)
  | pred (n : Nat) (d : BitVec 3) (f : Regs → Bool) (len : byteLen i = n) (run : exec i s = scalarP d g n s f)

theorem guardedBy_guardOf {i : Instr} {g : BitVec 4} (hg : guardOf i = some g) (s : State) : GuardedBy i g s := by
  cases i
  case add | sub | mul | mulh | mulhn | div | divn | rem | remn | min | max | minn | maxn | and | or | xor | andn | shl | shr | sra | rotl |
    tptr | tadd | lit =>
    cases hg; exact .reg _ _ _ (byteLen_src rfl) rfl
  case mov | clz | ctz | popc | sextB | sextH | sextW | zextB | zextH | zextW | tget | addSi | subSi | mulSi | andSi | orSi | xorSi | shlSi
    | shrSi | sraSi | rotlSi | minSi | maxSi | taddSi | movi =>
    cases hg; exact .reg 4 _ _ rfl rfl
  case cmp =>
    cases hg; exact .pred _ _ _ (byteLen_src rfl) rfl
  case pand | por | pxor | pnot =>
    cases hg; exact .pred 4 _ _ rfl rfl
  case tset | tpost | twait | trig | binit | barvRemote | barx | bwait | bwaitX | abankAlloc | abankFree | tidset | tidget | vopen | vpub |
    vbind | vretire | vquery | trec | cwait | hflush | enq | trap =>
    cases hg; exact .act _ _ (byteLen_src rfl) rfl
  case ld | st | br | call | jmpr | ret | fence | ttest | barv | nrd | nclr | nstat | isync | sigf | iter | ckpt | sysret | wfe | exit | mfs
    | mts | drainUsp | drainCls | drainDsp | drainVirt | drainVim =>
    cases hg; exact .act 4 _ rfl rfl
  case cpy | cpyT | cpyMc | cpyQ | gath | scat | bin | kvg | kva | kvdem | kvrefInc | kvrefDec | cube | cubeGa | cubeGb | cubeGk | cubeSp |
    aclr | adrain | stt | stp | stg | updSgd | updAdam | vrun | chain =>
    cases hg; exact .act _ _ rfl rfl
  case gang _ chained _ _ =>
    cases hg; exact .act _ _ (by cases chained <;> rfl) rfl
  all_goals cases hg

/-- An instruction whose guard is 0 moves the pc past itself and does nothing else (R53). -/
theorem exec_predicatedOff {i : Instr} {g : BitVec 4} {r : Regs} {s : State} (hg : guardOf i = some g) (hr : s.regs? = some r) (off : r.guard g = false) :
    exec i s = .next (s.modRegs fun r => r.skip (byteLen i)) := by
  cases guardedBy_guardOf hg s with
  | act n f len run => rw [run, len, scalar_off hr off]
  | reg n d f len run => rw [run, len, scalarX_off hr off]
  | pred n d f len run => rw [run, len, scalarP_off hr off]

/-- Settles O7. -/
theorem predicatedOff : Obligations.PredicatedOff :=
  ⟨fun _ _ _ _ => exec_predicatedOff, fun r _ => ⟨rfl, guard_zero r⟩, fun ws i h => (decodedIsWellFormed.1 ws i h).2, fun _ w h => exec_unassigned h w⟩

end Sys2Proof.Proofs
end

section
/-! Turns: the instruction that a step executes is the one that its agent fetches (R49, R50). -/

namespace Sys2Proof.Proofs

open Sys2Proof.Machine Sys2Proof.Laws

/-- The fetched words give the instruction that the step is said to execute. -/
theorem instrOf_eq {ws : List (BitVec 32)} {i : Instr}
    (h : decode ws = .ok i ∨ ((∃ e, decode ws = .error e) ∧ i = .unassignedEncoding (ws.headD 0#32))) : instrOf ws = i := by
  rcases h with h | ⟨⟨e, h⟩, rfl⟩ <;> rw [instrOf, h]

/-- A turn of an agent that can run (R49). -/
theorem step_run {s : State} {a : Agent} {ts : List Turn} (hs : s.sched = .run a :: ts) (hr : runnable { s with sched := ts } a = true) :
    step s = State.turn { s with sched := ts, cur := a } := by
  rw [step, hs]
  exact if_pos hr

theorem turn_next {s t u : State} {i : Instr} (hf : s.fetch = .instr i t) (hx : exec i t = .next u) : s.turn = .next (t.struck i (t.executed i u)) := by
  simp only [State.turn, hf, hx]

/-- Settles O10. -/
theorem stepRunsCoreInstr : Obligations.StepRunsCoreInstr := by
  intro s t u k ts ws i hs hr hf hi hx
  have fetched : State.fetch { s with sched := ts, cur := .core k } = .instr i t := by
    show fetchBy _ _ _ = _
    rw [fetchBy, hf, ← instrOf_eq hi]
  rw [step_run hs hr, turn_next fetched hx]

end Sys2Proof.Proofs
end

section
/-! Fixed-latency vector words (R62, R225, R226, R230): what one of them writes, and how it issues and lands. -/
namespace Sys2Proof.Proofs

open Sys2Proof.Machine Sys2Proof.Laws

/-! ### What they write -/

/-- The instruction is a fixed-latency word whose results write its own destination. -/
def FixedWord (i : Instr) (v : VArgs) (lat : Nat) : Prop :=
  ∃ (f : VRegs → VArgs → Nat → List LandKind × Flags) (u : Residue),
    (∀ r w j, ∀ x ∈ (f r w j).1, writesTo i w x) ∧ ∀ s, exec i s = fixedWordOf u v lat s f

section
variable {i : Instr} {v : VArgs} {lat : Nat} {f : VRegs → VArgs → Nat → List LandKind × Flags} {u : Residue}

/-- A word of one result. -/
theorem fixedWord_single (run : ∀ s, exec i s = fixedWordOf u v lat s f) (y : VRegs → VArgs → Nat → LandKind) (one : ∀ r w j, (f r w j).1 = [y r w j])
    (own : ∀ r w j, writesTo i w (y r w j)) : FixedWord i v lat := by
  refine ⟨f, u, fun r w j x hx => ?_, run⟩
  rw [one, List.mem_singleton] at hx
  rw [hx]
  exact own r w j

theorem fixedWord_move (run : ∀ s, exec i s = fixedWord v lat s f) (y : VRegs → VArgs → Nat → LandKind) (one : ∀ r w j, (f r w j).1 = [y r w j])
    (own : ∀ r w j, writesTo i w (y r w j)) : FixedWord i v lat :=
  fixedWord_single run y one own

/-- The word writes elements of its register vd. -/
def writesRow (i : Instr) : Prop := ∀ w x, writesTo i w x = ∃ b d, x = .v w.vd b d

theorem fixedWord_row (run : ∀ s, exec i s = fixedWordOf u v lat s f) (m : VRegs → VArgs → Nat → BitVec 256) (d : VRegs → VArgs → Nat → BitVec 2048)
    (one : ∀ r w j, (f r w j).1 = [.v w.vd (m r w j) (d r w j)]) (own : writesRow i) : FixedWord i v lat :=
  fixedWord_single run _ one fun r w j => by rw [own]; exact ⟨_, _, rfl⟩

theorem fixedWord_plain (run : ∀ s, exec i s = fixedWord v lat s f) (m : VRegs → VArgs → Nat → BitVec 256) (d : VRegs → VArgs → Nat → BitVec 2048)
    (one : ∀ r w j, (f r w j).1 = [.v w.vd (m r w j) (d r w j)]) (own : writesRow i) : FixedWord i v lat :=
  fixedWord_row run m d one own

theorem fixedWord_float {op : FFmt → Nat → Nat → Nat → Nat × Flags} (run : ∀ s, exec i s = floatWord v lat s op u) (own : writesRow i) : FixedWord i v lat :=
  fixedWord_row run _ _ (fun _ _ _ => rfl) own

theorem fixedWord_trans {op : Val → Val × Flags} (run : ∀ s, exec i s = transWord v s op) (own : writesRow i) : FixedWord i v 8 :=
  fixedWord_float run own

theorem fixedWord_int {op : Nat → Nat → Nat → Nat} (run : ∀ s, exec i s = intWord v s op) (own : writesRow i) : FixedWord i v 2 :=
  fixedWord_row run _ _ (fun _ _ _ => rfl) own

end

/-- Table 06-1: each word of the table is one. -/
theorem fixedWord_of_fixedOf {i : Instr} {v : VArgs} {lat : Nat} (h : fixedOf i = some (v, lat)) : FixedWord i v lat := by
  cases i
  case vadd | vsub | vmul | vfma | vfms | vmin | vmax | vabs | vneg | vrcp | vrsq =>
    cases h
    apply fixedWord_float (own := fun _ _ => rfl)
    intro s; dsimp only [exec]; exact rfl
  case vexp2 | vlog2 | vtanh =>
    cases h
    apply fixedWord_trans (own := fun _ _ => rfl)
    intro s; dsimp only [exec]; exact rfl
  case viadd | visub | vimul | vand | vor | vxor | vshl | vshr | vsra | vimin | vimax =>
    cases h
    apply fixedWord_int (own := fun _ _ => rfl)
    intro s; dsimp only [exec]; exact rfl
  case vsat | viota =>
    cases h
    apply fixedWord_row (own := fun _ _ => rfl)
    · intro s; dsimp only [exec]; exact rfl
    · exact fun _ _ _ => rfl
  case vcnt | vcvt | vqnt | vdqnt | vunpk | vpack | vrsum | vrmax | vrmin | vscan | vsegs | vrng | vdrop | vgmb | vargmx | vmovV | vsel | vperm | vshuf |
      vbcst =>
    cases h
    apply fixedWord_plain (own := fun _ _ => rfl)
    · intro s; dsimp only [exec]; exact rfl
    · exact fun _ _ _ => rfl
  case vcmp =>
    cases h
    apply fixedWord_move
    · intro s; dsimp only [exec]; exact rfl
    · exact fun _ _ _ => rfl
    · exact fun _ _ _ => ⟨_, _, rfl⟩
  case vmovCK | vmovAK | vmovAdd | vmovKV =>
    cases h
    apply fixedWord_move
    · intro s; dsimp only [exec]; exact rfl
    · exact fun _ _ _ => rfl
    · exact fun _ _ _ => ⟨_, rfl⟩
  all_goals cases h

/-! ### How they issue and land -/

section
variable {s t : State} {k : CoreRef} {l : Launch} {cp : Copy} {c : Core} {st st' : Stream} {x : Issue}

/-- No flag raises a fault that is not enabled (R90). -/
theorem faultOf_none {p : Policy} (ha : p.aen = 0#5) (hd : p.dfen = false) (f : Flags) : p.faultOf f = 0 := by
  simp [Policy.faultOf, ha, hd]

/-- A stream before its word has issued. -/
theorem issuedOnly_start (hc : s.core? k = some c) (hs : c.eng.stream = some st) : issuedOnly s s k c (c.issue st) st := by
  have same : c.issued (c.issue st) c.raisedAt st = c := by
    simp only [Core.issued, Core.issue, Policy.raise, BitVec.or_zero, ← hs]
  refine ⟨c.raisedAt, ?_, ?_⟩
  · rw [same]; exact onlyCore_refl hc
  · rw [same]; exact (BitVec.or_zero).symm

theorem onlyCore_cc (h : onlyCore s t k c) : t.cc = s.cc := by
  obtain ⟨-, -, -, -, -, -, -, -, -, -, -, -, -, cc, -⟩ := h
  exact cc

/-- A change of the stream alone. -/
theorem issuedOnly_stream (h : issuedOnly s t k c x st) (f : Stream → Stream) : ∃ u, onStream k f t = .ok ((), u) ∧ issuedOnly s u k c x (f st) := by
  obtain ⟨r, only, raised⟩ := h
  exact ⟨_, rfl, r, onlyCore_step only (fun c => { c with eng := { c.eng with stream := c.eng.stream.map f } }) (fun _ => rfl) rfl, raised⟩

/-- The word finds its stream. -/
theorem issuedOnly_vecNow (hl : s.launch? k.lid = some l) (hp : s.copy? k = some cp) (h : issuedOnly s t k c x st) :
    ∃ l' cp' d, vecNow k t = .ok ((l', cp', d, st), t) := by
  obtain ⟨r, only, -⟩ := h
  obtain ⟨l', cp', run, -⟩ := ctxOf_only hl hp only
  refine ⟨l', cp', c.issued x r st, ?_⟩
  rw [vecNow, bind_ok run]
  rfl

/-- The word finds the registers as they have landed. -/
theorem issuedOnly_coreNow (h : issuedOnly s t k c x st) : ∃ r, coreNow k t = .ok (c.issued x r st, t) := by
  obtain ⟨r, only, -⟩ := h
  exact ⟨r, coreNow_run only.1⟩

theorem issuedOnly_land (h : issuedOnly s t k c x st) (y : LandKind) :
    issuedOnly s (t.modCore k fun c => { c with vregs := c.vregs.land y }) k c { x with regs := x.regs.land y } st := by
  obtain ⟨r, only, raised⟩ := h
  exact ⟨r, onlyCore_step only _ (fun _ => rfl) rfl, raised⟩

/-- The flags of a word land (R29, R90). -/
theorem issuedOnly_flags (h : issuedOnly s t k c x st) (f : Flags) :
    issuedOnly s (t.modCore k fun c => c.raiseFlags t.cc f) k c { x with raised := x.raised ||| f } st := by
  obtain ⟨r, only, raised⟩ := h
  have cc : t.cc = s.cc := onlyCore_cc only
  have core : (c.issued x r st).raiseFlags s.cc f =
      c.issued { x with raised := x.raised ||| f } (s.cc, (c.issued x r st).raisedNow s.cc ||| f) st := by
    simp only [Core.raiseFlags, Core.issued, Core.raisedNow, Policy.raise, BitVec.or_assoc, fNone]
  rw [cc]
  refine ⟨_, onlyCore_step only _ (fun _ => rfl) core, ?_⟩
  rw [raised]
  exact (if_pos rfl).trans (BitVec.or_assoc ..)

/-- The flags raised once a result has landed. -/
def raisedBy (p : Flags) (y : Landing) : Flags :=
  match y.what with
  | .flags f _ => p ||| f
  | _ => p

/-- Results land in a core in their order (R225), and no fault on their flags is enabled (R230). -/
theorem applyLandings_run (ha : c.policy.aen = 0#5) (hd : c.policy.dfen = false) (ys : List Landing) (h : issuedOnly s t k c x st) :
    ∃ u, applyLandings k ys t = .ok ((), u) ∧
      issuedOnly s u k c { x with regs := ys.foldl (fun r y => r.land y.what) x.regs, raised := ys.foldl raisedBy x.raised } st := by
  induction ys generalizing t x with
  | nil => exact ⟨t, rfl, h⟩
  | cons y ys ih =>
      rw [applyLandings, bind_ok get_run, List.foldl_cons, List.foldl_cons]
      by_cases hf : ∃ f w, y.what = .flags f w
      · obtain ⟨f, w, hw⟩ := hf
        obtain ⟨r, now⟩ := issuedOnly_coreNow h
        obtain ⟨u, run, done⟩ := ih (issuedOnly_flags h f)
        rw [raisedBy, hw]
        refine ⟨u, ?_, done⟩
        refine (bind_ok now).trans ((bind_ok (onCore_run _ _)).trans ?_)
        rw [faultOf_none (p := (c.issued x r st).policy) ha hd]
        exact run
      · obtain ⟨u, run, done⟩ := ih (issuedOnly_land h y.what)
        cases hw : y.what <;> rw [hw] at run done <;> simp only [raisedBy, hw]
        case flags f w => exact absurd ⟨f, w, hw⟩ hf
        all_goals exact ⟨u, run, done⟩

theorem vecWord_run {act : CoreRef → Act Unit} (hc : s.cur = .vec k) (h : act k s = .ok ((), t)) : vecWord s act = .next t := by
  simp only [vecWord, hc, h]

/-- The stream of a word whose results so far have landed or wait. -/
def waitingOf (st : Stream) (x : Issue) : Stream := { st with landings := x.wait }

section
variable (hl : s.launch? k.lid = some l) (hp : s.copy? k = some cp) (ha : c.policy.aen = 0#5) (hd : c.policy.dfen = false)
include hl hp ha hd

/-- What is due lands before a repetition issues. -/
theorem landTo_run (n : Nat) (h : issuedOnly s t k c x (waitingOf st x)) :
    ∃ u, landTo k n t = .ok ((), u) ∧ issuedOnly s u k c (x.land n) (waitingOf st (x.land n)) := by
  obtain ⟨l', cp', d, now⟩ := issuedOnly_vecNow hl hp h
  obtain ⟨u, put, kept⟩ := issuedOnly_stream h fun st => { st with landings := st.landings.filter fun x => decide (n < x.cycle) }
  obtain ⟨u', run, done⟩ := applyLandings_run ha hd (inLandOrder (x.wait.filter fun y => decide (y.cycle ≤ n))) kept
  exact ⟨u', (bind_ok now).trans ((bind_ok put).trans run), done⟩

variable (f : VRegs → VArgs → Nat → List LandKind × Flags) (u : Residue) (v : VArgs) (lat : Nat)

/-- A repetition of a fixed-latency word of stream `st`. -/
def repBody (k : CoreRef) (f : VRegs → VArgs → Nat → List LandKind × Flags) (u : Residue) (v : VArgs) (lat : Nat) (st : Stream) (j : Nat) : Act Flags := do
  landTo k (st.cycle + j)
  let c ← coreNow k
  let (ls, g) := f c.vregs (atRepV v j) j
  pushLandings k (ls.map fun w => { cycle := st.cycle + j + lat, what := w, unit := u, spc := st.spc })
  pure g

theorem repBody_run (j : Nat) (h : issuedOnly s t k c x (waitingOf st x)) : ∃ t' g, repBody k f u v lat st j t = .ok (g, t') ∧
    (x.rep f u st.spc lat st.cycle v j).flags = x.flags ||| g ∧
    issuedOnly s t' k c (x.rep f u st.spc lat st.cycle v j) (waitingOf st (x.rep f u st.spc lat st.cycle v j)) := by
  obtain ⟨t1, run1, landed⟩ := landTo_run hl hp ha hd (st.cycle + j) h
  obtain ⟨r, now⟩ := issuedOnly_coreNow landed
  obtain ⟨t2, put, pushed⟩ := issuedOnly_stream landed fun y => { y with landings := y.landings ++
    ((f (x.land (st.cycle + j)).regs (atRepV v j) j).1.map fun w => { cycle := st.cycle + j + lat, what := w, unit := u, spc := st.spc }) }
  exact ⟨t2, _, (bind_ok run1).trans ((bind_ok now).trans ((bind_ok put).trans rfl)), rfl, pushed⟩

theorem repeatWord_run (js : List Nat) (h : issuedOnly s t k c x (waitingOf st x)) : ∃ t' g, repeatWord (repBody k f u v lat st) js t = .ok (g, t') ∧
    (js.foldl (Issue.rep f u st.spc lat st.cycle v) x).flags = x.flags ||| g ∧
    issuedOnly s t' k c (js.foldl (Issue.rep f u st.spc lat st.cycle v) x) (waitingOf st (js.foldl (Issue.rep f u st.spc lat st.cycle v) x)) := by
  induction js generalizing t x with
  | nil => exact ⟨t, fNone, rfl, BitVec.or_zero.symm, h⟩
  | cons j js ih =>
      obtain ⟨t1, g1, run1, flags1, h1⟩ := repBody_run hl hp ha hd f u v lat j h
      obtain ⟨t2, g2, run2, flags2, h2⟩ := ih h1
      refine ⟨t2, g1 ||| g2, (bind_ok run1).trans ((bind_ok run2).trans rfl), ?_, h2⟩
      rw [List.foldl_cons, flags2, flags1, BitVec.or_assoc]

end

/-- R62, R225, R226, R230: a fixed-latency word from its first repetition to the next word. -/
theorem fixedWordOf_run {f : VRegs → VArgs → Nat → List LandKind × Flags} {u : Residue} {v : VArgs} {lat : Nat} (ht : s.StreamTurn k l cp c st)
    (ha : c.policy.aen = 0#5) (hd : c.policy.dfen = false)
    (hx : x = (List.range (v.rep.toNat + 1)).foldl (Issue.rep f u st.spc lat st.cycle v) (c.issue st)) :
    ∃ t, fixedWordOf u v lat s f = .next t ∧ issuedOnly s t k c x { st with
      spc := st.spc + 1#14
      cycle := st.cycle + v.rep.toNat + 1 + v.idle.toNat
      landings := x.wait ++ (if x.flags = 0#7 then [] else [{ cycle := st.cycle + v.rep.toNat + lat, what := .flags x.flags st.spc }]) } := by
  have start := issuedOnly_start ht.core ht.stream
  obtain ⟨l', cp', d, now⟩ := issuedOnly_vecNow ht.launch ht.copy start
  obtain ⟨t1, g, run1, flags, issued⟩ := repeatWord_run ht.launch ht.copy ha hd f u v lat (List.range (v.rep.toNat + 1)) (x := c.issue st) (st := st) start
  rw [← hx] at flags issued
  have all : x.flags = g := flags.trans BitVec.zero_or
  obtain ⟨t2, put, done⟩ := issuedOnly_stream issued fun st' => { st' with
    spc := st'.spc + 1#14
    cycle := st.cycle + repsV v + v.idle.toNat
    landings := st'.landings ++ (if g = fNone then [] else [{ cycle := st.cycle + repsV v - 1 + lat, what := .flags g st'.spc }]) }
  refine ⟨t2, vecWord_run ht.cur ((bind_ok now).trans ((bind_ok run1).trans put)), ?_⟩
  have last : st.cycle + repsV v - 1 + lat = st.cycle + v.rep.toNat + lat := by rw [repsV]; omega
  rw [last] at done
  rw [all]
  exact done

/-- Settles O43. -/
theorem fixedWords : Obligations.FixedWords := by
  intro i v lat h
  obtain ⟨f, u, own, run⟩ := fixedWord_of_fixedOf h
  refine ⟨f, u, own, fun s k l cp c st x ht ha hd hx => ?_⟩
  rw [run]
  exact fixedWordOf_run ht ha hd hx

end

end Sys2Proof.Proofs
end

section
/-! The steps of the agents other than control cores: an Anole core executes the words at its pc in device memory (R49, R396), a stream the
vector word at its word number (R61, R63, R224). -/

namespace Sys2Proof.Proofs

open Sys2Proof.Machine Sys2Proof.Laws

/-! ### The words that a fetch reads -/

/-- Reading words from the first on, a fetch reads all of these and none after them (R49, R59). -/
structure ReadsAll (ws : List (BitVec 32)) : Prop where
  more : ∀ n < ws.length, n < wordsNeeded (ws.take n)
  done : wordsNeeded ws ≤ ws.length
  six : ws.length ≤ 6

/-- A word that is no prefix says alone how many words there are. -/
theorem wordsNeeded_base {w : BitVec 32} (h : fMop w ≠ 0x3E#6) (rest : List (BitVec 32)) : wordsNeeded (w :: rest) = baseWords w := by
  have gang : ∀ v, isGang w v = false := fun v => by simp [isGang, h]
  have chain : ∀ v, isChain w v = false := fun v => by simp [isChain, h]
  match rest with
  | [] => rfl
  | [v] => simp [wordsNeeded, gang, chain]
  | [v, g] => simp [wordsNeeded, gang, chain]
  | [v, g, k] => simp [wordsNeeded, gang, chain]
  | v :: g :: k :: l :: rest => simp [wordsNeeded, gang]

theorem readsAll_base {w : BitVec 32} {rest : List (BitVec 32)} (h : fMop w ≠ 0x3E#6) (len : baseWords w = rest.length + 1) (six : rest.length < 6) :
    ReadsAll (w :: rest) := by
  refine ⟨fun n hn => ?_, ?_, six⟩
  · cases n with
    | zero => exact Nat.one_pos
    | succ n =>
      rw [List.take_succ_cons, wordsNeeded_base h, len]
      exact hn
  · rw [wordsNeeded_base h, len]; exact Nat.le_refl _

theorem readsAll_encSR {mop : BitVec 6} {b : Src} (hm : isSR mop = true) (hb : b.wf = true) (d a : BitVec 6) (g fn : BitVec 4) :
    ReadsAll (encSR mop d a b g fn) := by
  refine readsAll_base ?_ ?_ (by cases b <;> simp [Src.words])
  · rw [fMop_mkSR]; rintro rfl; cases hm
  · rw [baseWords, fMop_mkSR, fRb_mkSR, wordCount_code mop b hm hb]

/-- A word of a form without literals. -/
theorem readsAll_one {w : BitVec 32} (hm : isSR (fMop w) = false) (low : (fMop w).toNat < 0x38) : ReadsAll [w] := by
  refine readsAll_base ?_ ?_ (by decide)
  · intro h; rw [h] at low; exact absurd low (by decide)
  · simp [baseWords, wordCount, hm, Nat.not_le.2 low]

/-! ### Form E -/

theorem baseWords_mkE {mop : BitVec 6} (hm : isSR mop = false) (lo : 0x38 ≤ mop.toNat) (hi : mop.toNat ≤ 0x3E) (d a r : BitVec 6) (g fn : BitVec 4) :
    baseWords (mkSR mop d a r g fn) = 2 := by
  simp [baseWords, wordCount, fMop_mkSR, hm, lo, hi]

theorem baseWords_prefix (sub xa : BitVec 6) : baseWords (mkSR 0x3E#6 sub xa 0#6 0#4 0#4) = 2 :=
  baseWords_mkE rfl (by decide) (by decide) ..

theorem baseWords_eop (op : EOp) (e : EArgs) : baseWords (mkSR op.code.1 op.code.2 e.xa e.xb e.guard e.flags) = 2 :=
  have ⟨sr, lo, hi, _⟩ := eop_mop op
  baseWords_mkE sr lo hi ..

theorem readsAll_words (op : EOp) (e : EArgs) : ReadsAll (op.words e) :=
  readsAll_base (by rw [fMop_mkSR]; exact (eop_mop op).2.2.2) (baseWords_eop op e) (by simp)

theorem readsAll_chain (op : EOp) (e : EArgs) : ReadsAll (prefixWords 1#6 0#6 ++ op.words e) := by
  refine ⟨fun n hn => ?_, ?_, by simp [prefixWords, EOp.words, encE]⟩
  · have : n < 4 := hn
    interval_cases n <;>
      simp [prefixWords, EOp.words, encE, wordsNeeded, baseWords_prefix, baseWords_eop, isChain_prefix, fMop_mkSR, (eop_mop op).2.1]
  · simp [prefixWords, EOp.words, encE, wordsNeeded, notGang_prefix, isChain_prefix]

theorem readsAll_gang (xa : BitVec 6) (op : EOp) (e : EArgs) : ReadsAll (prefixWords 0#6 xa ++ op.words e) := by
  refine ⟨fun n hn => ?_, ?_, by simp [prefixWords, EOp.words, encE]⟩
  · have : n < 4 := hn
    interval_cases n <;>
      simp [prefixWords, EOp.words, encE, wordsNeeded, baseWords_prefix, baseWords_eop, isGang_prefix, fMop_mkSR, (eop_mop op).2.1]
  · simp [prefixWords, EOp.words, encE, wordsNeeded, isGang_prefix, notChain_word]

theorem readsAll_gangChain (xa : BitVec 6) (op : EOp) (e : EArgs) : ReadsAll (prefixWords 0#6 xa ++ prefixWords 1#6 0#6 ++ op.words e) := by
  refine ⟨fun n hn => ?_, ?_, by simp [prefixWords, EOp.words, encE]⟩
  · have : n < 6 := hn
    interval_cases n <;>
      simp [prefixWords, EOp.words, encE, wordsNeeded, baseWords_prefix, baseWords_eop, isGang_prefix, isChain_prefix, fMop_mkSR, (eop_mop op).2.1]
  · simp [prefixWords, EOp.words, encE, wordsNeeded, isGang_prefix, isChain_prefix, baseWords_eop, fMop_mkSR, (eop_mop op).2.1]

/-- What the encoder writes for a well-formed instruction is what a fetch reads. -/
theorem readsAll_encode {i : Instr} (hf : i.form = .scalar ∨ i.form = .engine) (hw : i.wf = true) : ReadsAll (encode i) := by
  cases i
  case add | sub | mul | mulh | mulhn | div | divn | rem | remn | min | max | minn | maxn | and | or | xor | andn | shl | shr | sra | rotl |
    tptr | tadd | tset | tpost | twait | trig | binit | barvRemote | barx | bwait | bwaitX | abankAlloc | abankFree | tidset | tidget | vopen |
    vpub | vbind | vretire | vquery | trec | cwait | hflush | enq | trap =>
    exact readsAll_encSR rfl (srOk_wf hw) ..
  case cmp b g c =>
    simp only [Instr.wf, Bool.and_eq_true] at hw
    obtain ⟨⟨hsr, -⟩, -⟩ := hw
    exact readsAll_encSR rfl (srOk_wf hsr) ..
  case lit b g =>
    exact readsAll_encSR rfl (by cases b <;> simp_all [Instr.wf, Src.isLit, Src.wf]) ..
  case mov | clz | ctz | popc | sextB | sextH | sextW | zextB | zextH | zextW | pnot | jmpr | ret | fence | ttest | barv | nrd | nclr | nstat |
    isync | sigf | iter | ckpt | sysret | wfe | exit | drainUsp | drainCls | drainDsp | drainVirt | drainVim =>
    exact readsAll_encSR (b := .reg 0#6) rfl (by decide) ..
  case pand b _ | por b _ | pxor b _ =>
    exact readsAll_encSR (b := .reg (pField b)) rfl (decide_eq_true (pField_lt b)) ..
  case tget r _ | mfs r _ =>
    exact readsAll_encSR (b := .reg r) rfl (by simp [Instr.wf, Src.wf] at hw ⊢; omega) ..
  case mts r _ =>
    exact readsAll_encSR (b := .reg r) rfl (by simp [Instr.wf] at hw; rcases hw.2 with h | h <;> simp [Src.wf, h]) ..
  case addSi | subSi | mulSi | andSi | orSi | xorSi | shlSi | shrSi | sraSi | rotlSi | minSi | maxSi | taddSi | movi =>
    exact readsAll_one (by rw [fMop_mkSI]; rfl) (by rw [fMop_mkSI]; decide)
  case ld | st =>
    exact readsAll_one (by rw [fMop_mkSM]; rfl) (by rw [fMop_mkSM]; decide)
  case br | call =>
    exact readsAll_one (by rw [fMop_mkSB]; rfl) (by rw [fMop_mkSB]; decide)
  case amoAdd | amoAnd | amoOr | amoXor | amoMin | amoMax | amoMinn | amoMaxn | amoXchg | amoCas | amoFadd | amoAdd128 =>
    exact readsAll_one (by rw [fMop_mkSA]; rfl) (by rw [fMop_mkSA]; decide)
  case nop n =>
    have mop : fMop (0x37#6 ++ n) = 0x37#6 := BitVec.extractLsb'_append_eq_left
    exact readsAll_one (by rw [mop]; rfl) (by rw [mop]; decide)
  case cpy | cpyT | cpyMc | cpyQ | gath | scat | bin | kvg | kva | kvdem | kvrefInc | kvrefDec | cube | cubeGa | cubeGb | cubeGk | cubeSp |
    aclr | adrain | stt | stp | stg | updSgd | updAdam | vrun =>
    exact readsAll_words ..
  case chain => exact readsAll_chain ..
  case gang xa chained op e =>
    cases chained with
    | false => exact readsAll_gang xa op e
    | true => exact readsAll_gangChain xa op e
  all_goals rcases hf with hf | hf <;> cases hf

/-! ### Numbers in memory (R6) -/

theorem leNat_natLe (n v : Nat) : leNat (natLe n v) = v % 2 ^ (8 * n) := by
  induction n generalizing v with
  | zero => simp [natLe, leNat, Nat.mod_one]
  | succ n ih =>
    have split : 2 ^ (8 * (n + 1)) = 2 ^ 8 * 2 ^ (8 * n) := by rw [Nat.mul_succ, Nat.pow_add, Nat.mul_comm]
    rw [natLe, leNat, ih, BitVec.toNat_ofNat, split]
    exact (Nat.mod_mul ..).symm

/-- A word is read back from its bytes. -/
theorem ofNat_natLe (n : Nat) (w : BitVec (8 * n)) : BitVec.ofNat (8 * n) (leNat (natLe n w.toNat)) = w := by
  rw [leNat_natLe, Nat.mod_eq_of_lt w.isLt, BitVec.ofNat_toNat, BitVec.setWidth_eq]

theorem leNat_append (a b : List Byte) : leNat (a ++ b) = leNat a + 2 ^ (8 * a.length) * leNat b := by
  induction a with
  | nil => simp [leNat]
  | cons x a ih =>
    rw [List.cons_append, leNat, ih, leNat, List.length_cons, Nat.mul_succ, Nat.pow_add]
    ring

theorem bytes_add (m : Store) (a n k : Nat) : m.bytes a (n + k) = m.bytes a n ++ m.bytes (a + n) k := by
  simp [Store.bytes, List.range_add, Nat.add_assoc]

/-- Either half of an aligned double is the number of its 4 bytes. -/
theorem word_half (m : Store) {d : Nat} (h : d % 4 = 0) : (m.word (d / 8 * 8)).extractLsb' (d % 8 * 8) 32 = BitVec.ofNat 32 (leNat (m.bytes d 4)) := by
  have lo : leNat (m.bytes (d / 8 * 8) 4) < 2 ^ 32 := leNat_lt _
  have hi : leNat (m.bytes (d / 8 * 8 + 4) 4) < 2 ^ 32 := leNat_lt _
  apply BitVec.eq_of_toNat_eq
  rw [BitVec.extractLsb'_toNat, Store.word, BitVec.toNat_ofNat, BitVec.toNat_ofNat, Store.num, bytes_add m _ 4 4, leNat_append, bytes_length,
    Nat.shiftRight_eq_div_pow]
  rcases (by omega : d % 8 = 0 ∨ d % 8 = 4) with half | half
  · rw [half, show d = d / 8 * 8 by omega, show d / 8 * 8 / 8 * 8 = d / 8 * 8 by omega]
    omega
  · rw [half, show d = d / 8 * 8 + 4 by omega, show (d / 8 * 8 + 4) / 8 * 8 = d / 8 * 8 by omega]
    omega

/-! ### The fetch of an Anole core (R49, R396) -/

/-- A word of code that an Anole core can fetch. -/
structure CodeAt (s : State) (va : Nat) (w : BitVec 32) : Prop where
  virt : va < 2 ^ 48
  aligned : va % 4 = 0
  mapped : dpaOk va = true
  ready : s.dpaReady va = true
  correct : s.dram.badIn va 4 = false
  bytes : s.dram.bytes va 4 = natLe 4 w.toNat

/-- The 8 bytes fetched last are what memory holds. -/
def Cached (s : State) (last : Option (Nat × Word)) : Prop := ∀ x w, last = some (x, w) → w = s.dramWord (x * 8)

section
variable {s : State} {va : Nat} {w : BitVec 32} {last : Option (Nat × Word)}

theorem codeDouble_run (fresh : s.oldCode = []) {d : Nat} (ready : s.dpaReady d = true) (agent : Nat) :
    codeDouble agent d s = .ok (s.dramWord (d / 8 * 8), s) := by
  rw [codeDouble, bind_ok get_run, ready, fresh]
  rfl

theorem codeWord_run (fresh : s.oldCode = []) (h : CodeAt s va w) (seen : Cached s last) (agent : Nat) :
    codeWord agent va last s = .ok ((w, some (va / 8, s.dramWord (va / 8 * 8))), s) := by
  have half : (s.dramWord (va / 8 * 8)).extractLsb' (va % 8 * 8) 32 = w := by
    rw [State.dramWord, word_half _ h.aligned, h.bytes]
    exact ofNat_natLe 4 w
  have double := codeDouble_run fresh h.ready agent
  unfold codeWord
  cases last with
  | none => rw [bind_ok double, half]; rfl
  | some p =>
    obtain ⟨x, u⟩ := p
    by_cases same : x = va / 8
    · have : u = s.dramWord (va / 8 * 8) := same ▸ seen x u rfl
      simp only [same, if_true, pure_bind_act, this, half]; rfl
    · simp only [same, if_false]; rw [bind_ok double, half]; rfl

theorem anoleWord_run (fresh : s.oldCode = []) (h : CodeAt s va w) (seen : Cached s last) (a : BitVec 4) :
    anoleWord a va last s = .ok ((w, some (va / 8, s.dramWord (va / 8 * 8))), s) := by
  have virt : (decide (2 ^ 48 ≤ va) || !dpaOk va) = false := by rw [h.mapped, decide_eq_false (Nat.not_le.2 h.virt)]; rfl
  rw [anoleWord, virt, raiseIf_false, pure_bind_act, bind_ok get_run, h.correct, raiseIf_false, pure_bind_act]
  exact codeWord_run fresh h seen _

/-- With `n` words read, the fetch reads the rest. -/
theorem fetchWords_run {ws : List (BitVec 32)} {pc fuel n : Nat} (fresh : s.oldCode = []) (all : ReadsAll ws)
    (code : ∀ n < ws.length, CodeAt s (pc + 4 * n) (ws.getD n 0#32)) (a : BitVec 4) (seen : Cached s last) (le : n ≤ ws.length)
    (enough : ws.length ≤ n + fuel) : fetchWords (anoleWord a) pc fuel last (ws.take n) s = .ok (ws, s) := by
  induction fuel generalizing n last with
  | zero =>
    rw [List.take_of_length_le (by omega)]; rfl
  | succ fuel ih =>
    rw [fetchWords]
    rcases Nat.eq_or_lt_of_le le with rfl | lt
    · rw [List.take_length, if_pos all.done]; rfl
    · have more := all.more n lt
      have next : ws.take n ++ [ws.getD n 0#32] = ws.take (n + 1) := by
        rw [List.getD_eq_getElem _ _ lt, List.take_append_getElem]
      rw [List.length_take_of_le le, if_neg (Nat.not_le.2 more), bind_ok (anoleWord_run fresh (code n lt) seen a)]
      show fetchWords (anoleWord a) pc fuel _ (ws.take n ++ [ws.getD n 0#32]) s = _
      rw [next]
      refine ih (fun x u h => ?_) lt (by omega)
      cases h; rfl

/-- An Anole core fetches the instruction whose words lie at its pc, and its fetch changes nothing. -/
theorem fetch_anole {a : BitVec 4} {i : Instr} (cur : s.cur = .anole a) (fresh : s.oldCode = []) (hf : i.form = .scalar ∨ i.form = .engine)
    (hw : i.wf = true) (code : ∀ n < (encode i).length, CodeAt s (s.anoles[a.toNat].regs.pc.toNat + 4 * n) ((encode i).getD n 0#32)) :
    s.fetch = .instr i s := by
  have all := readsAll_encode hf hw
  have read : anoleFetch a s = .ok (encode i, s) := by
    rw [anoleFetch, bind_ok get_run]
    exact fetchWords_run (n := 0) fresh all code a (fun _ _ h => nomatch h) (Nat.zero_le _) (by have := all.six; omega)
  have decoded : decode (encode i) = .ok i := by
    rw [← List.append_nil (encode i)]
    exact (encodeDecodeAgree i).1 hf hw []
  rw [State.fetch, cur]
  show fetchBy _ _ _ = _
  rw [fetchBy, read]
  exact congrArg (Fetched.instr · s) (instrOf_eq (.inl decoded))

end

/-! ### Streams -/

/-- A stream fetches the word at its word number (R61, R63, R224). -/
theorem fetch_stream {s : State} {k : CoreRef} {l : Launch} {cp : Copy} {c : Core} {st : Stream} {w : BitVec 48} {i : Instr}
    (h : s.StreamTurn k l cp c st) (inside : st.spc.toNat < l.packet.vim) (correct : c.vim.badIn (6 * st.spc.toNat) 6 = false)
    (bytes : c.vim.bytes (6 * st.spc.toNat) 6 = natLe 6 w.toNat)
    (hi : decodeVector w = .ok i ∨ ((∃ e, decodeVector w = .error e) ∧ i = .unassignedVectorWord w)) : s.fetch = .instr i s := by
  have word : BitVec.ofNat 48 (leNat (c.vim.bytes (6 * st.spc.toNat) 6)) = w := by
    rw [bytes]
    exact ofNat_natLe 6 w
  rw [State.fetch, h.cur]
  show vecFetch k s = _
  simp only [vecFetch, h.launch, h.core, h.stream, if_neg (Nat.not_le.2 inside), correct, word]
  rcases hi with hi | ⟨⟨e, hi⟩, rfl⟩ <;> rw [hi] <;> rfl

/-- The turn of an Anole core or of a stream is the instruction it fetches: no error strikes its result, and no breakpoint counts it. -/
theorem turn_uncounted {s : State} {i : Instr} (hc : ∀ k, s.cur ≠ .core k) (hf : s.fetch = .instr i s) : s.turn = exec i s := by
  have plain : ∀ u, s.struck i (s.executed i u) = u := fun u => by
    unfold State.struck State.executed
    cases hcur : s.cur with
    | core k => exact absurd hcur (hc k)
    | anole a => rfl
    | vec k => rfl
    | none => rfl
  rw [State.turn, hf]
  cases hx : exec i s with
  | next u => simp only [hx, plain]
  | fault e => simp only [hx]
  | refused e => simp only [hx]

/-- Settles O11. -/
theorem stepRunsOtherWords : Obligations.StepRunsOtherWords := by
  refine ⟨fun s a ts i r hs hr regs hf hw aligned code fresh => ?_, fun s k ts l cp c st w i hs h hr inside correct bytes hi => ?_⟩
  · subst regs
    rw [step_run hs hr]
    refine turn_uncounted (fun _ h => nomatch h) (fetch_anole (a := a) rfl fresh hf hw fun n hn => ?_)
    obtain ⟨virt, mapped, ready, correct, bytes⟩ := code n hn
    have four : (s.anoles[a.toNat].regs.pc.toNat + 4 * n) % 4 = 0 := by omega
    exact ⟨virt, four, mapped, ready, correct, bytes⟩
  · rw [step_run hs hr]
    exact turn_uncounted (fun _ h' => nomatch h.cur.symm.trans h') (fetch_stream h inside correct bytes hi)

end Sys2Proof.Proofs
end

section
/-! CMP and the predicate operations (R118, R119): what they write, and which of their words name no instruction (R55). -/

namespace Sys2Proof.Proofs

open Sys2Proof.Machine Sys2Proof.Laws

variable {d a b : BitVec 6} {g : BitVec 4} {w : BitVec 32} {x : Src}

/-! ### Words that are refused -/

/-- A base word of form SR whose fields are refused decodes to nothing, whatever follows it. -/
theorem decode_mkSR_ne_ok {mop : BitVec 6} {fn : BitVec 4} {i : Instr} (hm : isSR mop = true)
    (hd : ∀ x, decodeSR mop d a b g fn x (mkSR mop d a b g fn) ≠ .ok i) (rest : List (BitVec 32)) :
    decode (mkSR mop d a b g fn :: rest) ≠ .ok i := by
  simp only [decode, fMop_mkSR, fRd_mkSR, fRa_mkSR, fRb_mkSR, fGuard_mkSR, fFn_mkSR, hm, if_true]
  split
  · exact fun h => nomatch h
  · exact hd _

theorem resv_ne_ok {z : Bool} {i j : Instr} (h : z = true → i.wf = false) : resv z i ≠ .ok j := by
  cases z with
  | false => exact fun e => nomatch e
  | true => simp [resv, checked, h rfl]

/-- A six-bit field whose three reserved bits are zero and that does not hold p0 names one of p1 to p7. -/
theorem predField_zero (h : d.toNat / 8 ≠ 0 ∨ d.toNat % 8 = 0) (h0 : (d.extractLsb' 3 3 == 0#3) = true) : d.extractLsb' 0 3 = 0#3 := by
  revert h h0
  revert d
  decide

theorem decodeSR_cmp (fn : BitVec 4) : decodeSR 0x03#6 d a b g fn x w = if fn.toNat < 10 then
    resv (d.extractLsb' 3 3 == 0#3) (.cmp (d.extractLsb' 0 3) a x g fn) else .ok (.unassignedEncoding w) := rfl

theorem decodeSR_cmp_refused {fn : BitVec 4} (h : d.toNat / 8 ≠ 0 ∨ d.toNat % 8 = 0) (hf : fn.toNat < 10) (i : Instr) :
    decodeSR 0x03#6 d a b g fn x w ≠ .ok i := by
  rw [decodeSR_cmp, if_pos hf]
  exact resv_ne_ok fun h0 => by simp [Instr.wf, predField_zero h h0]

/-- The four predicate operations have their destination's reserved bits checked first (R119). -/
theorem decodeSR_predOp {fn : BitVec 4} (hf : fn.toNat < 4) : ∃ z j, decodeSR 0x04#6 d a b g fn x w = resv ((d.extractLsb' 3 3 == 0#3) && z) j ∧
    predOf j = some (d.extractLsb' 0 3) := by
  have h : fn = 0#4 ∨ fn = 1#4 ∨ fn = 2#4 ∨ fn = 3#4 := by revert fn; decide
  rcases h with rfl | rfl | rfl | rfl
  · exact ⟨_, .pand _ _ _ g, congrArg (resv · _) (Bool.and_assoc ..), rfl⟩
  · exact ⟨_, .por _ _ _ g, congrArg (resv · _) (Bool.and_assoc ..), rfl⟩
  · exact ⟨_, .pxor _ _ _ g, congrArg (resv · _) (Bool.and_assoc ..), rfl⟩
  · exact ⟨_, .pnot _ _ g, congrArg (resv · _) (Bool.and_assoc ..), rfl⟩

/-- No legal instruction writes p0. -/
theorem predOf_zero_illegal {i : Instr} (h : predOf i = some 0#3) : i.wf = false := by
  cases i with
  | cmp p a b g cc => cases h; simp [Instr.wf]
  | pand d a b g => cases h; simp [Instr.wf]
  | por d a b g => cases h; simp [Instr.wf]
  | pxor d a b g => cases h; simp [Instr.wf]
  | pnot d a g => cases h; simp [Instr.wf]
  | _ => cases h

theorem decodeSR_predOp_refused {fn : BitVec 4} (h : d.toNat / 8 ≠ 0 ∨ d.toNat % 8 = 0) (hf : fn.toNat < 4) (i : Instr) :
    decodeSR 0x04#6 d a b g fn x w ≠ .ok i := by
  obtain ⟨z, j, e, hj⟩ := decodeSR_predOp (d := d) (a := a) (b := b) (g := g) (w := w) (x := x) hf
  rw [e]
  refine resv_ne_ok fun h0 => predOf_zero_illegal (hj.trans ?_)
  rw [predField_zero h (Bool.and_eq_true_iff.1 h0).1]

/-! ### The obligation -/

/-- Settles O5. -/
theorem predicateResults : Obligations.PredicateResults := by
  refine ⟨fun p a b g cc r s t he hc ht => ?_, fun d a b g r s he => ⟨scalarP_on he.1 he.2, scalarP_on he.1 he.2, scalarP_on he.1 he.2, scalarP_on he.1 he.2⟩,
    fun r => rfl, fun p a b g f hp hg hb hf => ?_, fun d a b g f rest i h => ⟨fun hf => ?_, fun hf => ?_⟩, fun a b d g f w hw hb hf => ?_,
    fun d a b g hd hg => ?_, fun d a b g rest i hb => ?_⟩
  · have value : cmpCond cc (r.get a) (srB r b) = t := Bool.eq_iff_iff.2 ((cmp_value cc hc _ _).trans ht.symm)
    rw [← value]
    exact scalarP_on he.1 he.2
  · exact RoundTrip.cmp p a (.reg b) g f (by simp [Instr.wf, srOk, Src.wf, guardOk_iff.2 hg, hp, hb, hf]) []
  · exact decode_mkSR_ne_ok rfl (fun _ => decodeSR_cmp_refused h hf i) rest
  · exact decode_mkSR_ne_ok rfl (fun _ => decodeSR_predOp_refused h hf i) rest
  · subst hw
    exact (decode_mkSR [] rfl hb).trans ((decodeSR_cmp f).trans (if_neg (by omega)))
  · have hw : (guardOk g && d != 0#3) = true := by simp [guardOk_iff.2 hg, hd]
    exact ⟨RoundTrip.pand d a b g hw [], RoundTrip.por d a b g hw [], RoundTrip.pxor d a b g hw [], RoundTrip.pnot d a g hw []⟩
  · refine decode_mkSR_refused (mop := 0x04#6) (d := d) (a := a) (b := b) (g := g) (fn := 3#4) rfl 
      (fun _ => resv_refused (z := d.extractLsb' 3 3 == 0#3 && a.extractLsb' 3 3 == 0#3 && b == 0#6) ?_ _) rest i
    simp [hb]

end Sys2Proof.Proofs
end

section
/-! Loads and stores: of an Anole core in device memory (R122, R124, R396), of a control core in its own scratchpad (R123, R125, R308), and
the checks that an Anole core's access meets (R124). -/

namespace Sys2Proof.Proofs

open Sys2Proof.Machine Sys2Proof.Laws

variable {s : State} {a : BitVec 4} {r : Regs} {g : BitVec 4} {d b : BitVec 6} {z : BitVec 2} {o : BitVec 8} {n off : Nat}

/-! ### An Anole core in device memory -/

/-- An instruction of an Anole core that completes. -/
theorem scalar_anole {len : Nat} {act : Regs → Act Next} {t : State} (hc : s.cur = .anole a) (he : s.executes r g) (h : act r s = .ok (.adv, t)) :
    scalar g len s act = .next (t.modRegsOf (.anole a) fun x => x.skip len) := by
  rw [scalar_on he.1 he.2, runAct_adv h, hc]

/-- An instruction of an Anole core that faults before it has done anything. -/
theorem scalar_anole_trap {len : Nat} {act : Regs → Act Next} {x : Trap} (hc : s.cur = .anole a) (he : s.executes r g)
    (h : act r s = .error (.trap x, s)) : scalar g len s act = .next (s.takeFault (.anole a) x) := by
  rw [scalar_trap he h, hc]
  rfl

theorem anAgent_anole (hc : s.cur = .anole a) : s.anAgent = anoleAgent a.toNat := by rw [State.anAgent, hc]

theorem ld_anole (hc : s.cur = .anole a) (he : s.executes r g) (hn : n = 2 ^ z.toNat) (hp : AnolePlace s (memAddr r b z o) n n off)
    (hb : s.dram.badIn off n = false) (hseen : ∀ w ∈ s.lags, w.touches off n = true → w.seen.contains (anoleAgent a.toNat) = true) :
    ∃ ls, exec (.ld d b g z o) s = .next (State.modRegs { s with lags := ls } fun x => (x.set d (ofU (leNat (s.dpaBytes off n)))).skip 4) := by
  subst hn
  obtain ⟨ls, hread⟩ := anRead_ok (k := .read) hp hb (by rwa [anAgent_anole hc])
  refine ⟨ls, ?_⟩
  refine (scalar_anole (t := State.modRegsOf { s with lags := ls } (.anole a) fun x => x.set d (ofU (leNat (s.dpaBytes off (2 ^ z.toNat))))) hc he ?_).trans ?_
  · rw [smAddr_eq, bind_ok ((loadBytes_anole hc _ _ _).trans hread)]
    exact bind_ok (setX_anole { s with lags := ls } a hc _ _)
  · rw [modRegsOf_modRegsOf, State.modRegs, hc]

theorem st_anole (hc : s.cur = .anole a) (he : s.executes r g) (hn : n = 2 ^ z.toNat) (hp : AnolePlace s (memAddr r b z o) n n off)
    (hb : s.dram.partBad off n = false) (hw : s.host.writes = []) (hs : s.firm.save = none) :
    ∃ t, exec (.st d b g z o) s = .next t ∧ storedAt s t off (natLe n (r.get d).toNat) ∧ t.regs? = some (r.skip 4) ∧ anoleFrame s t a := by
  subst hn
  have len := natLe_length (2 ^ z.toNat) (r.get d).toNat
  obtain ⟨ls, oc, hwrite⟩ := anWrite_ok (bs := natLe (2 ^ z.toNat) (r.get d).toNat) (by rwa [len]) (by rwa [len]) hw hs
  refine ⟨_, scalar_anole hc he ?_, ⟨modRegsOf_dram .., fun y hy => ?_⟩, regs_mod s a hc r he.1 off _ ls oc _, anoleFrame_mod s a off _ ls oc _⟩
  · rw [smAddr_eq]
    exact bind_ok ((storeBytes_anole hc _ _ _ _).trans hwrite)
  · rw [modRegsOf_dram]
    exact get_put_outside _ _ _ _ hy

/-- Settles O16. -/
theorem anoleLoadsAndStores : Obligations.AnoleLoadsAndStores :=
  ⟨fun _ _ _ _ _ _ _ _ _ _ hc he hn hp hb hseen => ld_anole hc he hn hp hb hseen,
   fun _ _ _ _ _ _ _ _ _ _ hc he hn hp hb hw hs => st_anole hc he hn hp hb hw hs⟩

/-! ### The checks of an Anole core's access (R124) -/

/-- A load or store of an Anole core whose address does not pass the checks takes their fault. -/
theorem access_refused {x : Kind → Trap} (hc : s.cur = .anole a) (he : s.executes r g)
    (h : ∀ k, k = .read ∨ k = .write → anCheck (memAddr r b z o) (2 ^ z.toNat) (2 ^ z.toNat) k = .error (x k)) :
    exec (.ld d b g z o) s = .next (s.takeFault (.anole a) (x .read)) ∧ exec (.st d b g z o) s = .next (s.takeFault (.anole a) (x .write)) := by
  have load : loadBytes (memAddr r b z o) (2 ^ z.toNat) (2 ^ z.toNat) s = .error (.trap (x .read), s) := by
    rw [loadBytes_anole hc, anRead, h .read (.inl rfl)]
    rfl
  have store (v : Word) (w : OpDesc) : storeBytes (memAddr r b z o) (natLe (2 ^ z.toNat) v.toNat) (2 ^ z.toNat) w s = .error (.trap (x .write), s) := by
    rw [storeBytes_anole hc, anWrite]
    simp only [natLe_length, h .write (.inr rfl)]
    rfl
  refine ⟨scalar_anole_trap hc he ?_, scalar_anole_trap hc he ?_⟩
  · rw [smAddr_eq]
    exact bind_error load
  · rw [smAddr_eq]
    exact bind_error (store _ _)

section
variable {p : Word} {al : Nat} {k : Kind}

theorem ptrSpace_eq (p : Word) : ptrSpace p = p.toNat / 2 ^ 60 := by rw [ptrSpace, fieldNat_eq]; omega

theorem ptrOff_eq (p : Word) : ptrOff p = p.toNat % 2 ^ 48 := by rw [ptrOff, fieldNat_eq]; omega

/-- A space in which an Anole core has no grant, or no address of the memories. -/
theorem anCheck_space (h : p.toNat / 2 ^ 60 ∈ [1, 2, 3, 4, 5, 7, 9, 10, 11, 12, 13, 14, 15] ∨
    (p.toNat / 2 ^ 60 = 0 ∧ (p.toNat / 2 ^ 48 ≠ 0 ∨ rangeOk (p.toNat % 2 ^ 48) n = false))) :
    anCheck p n al k = .error { Trap.mk' 0x04 p with acc := k.code } := by
  unfold anCheck
  simp only [ptrSpace_eq, ptrOff_eq]
  rcases h with h | ⟨h0, h⟩
  · generalize p.toNat / 2 ^ 60 = sp at h ⊢
    simp only [List.mem_cons, List.not_mem_nil, or_false] at h
    rcases h with rfl | rfl | rfl | rfl | rfl | rfl | rfl | rfl | rfl | rfl | rfl | rfl | rfl <;> rfl
  · have outside : (decide (fieldNat p 48 12 = 0) && rangeOk (p.toNat % 2 ^ 48) n) = false := by
      rw [fieldNat_eq]
      rcases h with h | h
      · rw [decide_eq_false (by omega), Bool.false_and]
      · rw [h, Bool.and_false]
    simp only [h0, outside, Bool.false_eq_true, if_false]

theorem anCheck_misaligned (hv : p.toNat / 2 ^ 48 = 0) (hr : rangeOk (p.toNat % 2 ^ 48) n = true) (ha : p.toNat % 2 ^ 48 % al ≠ 0) :
    anCheck p n al k = .error { Trap.mk' 0x03 p with acc := k.code } := by
  have h0 : p.toNat / 2 ^ 60 = 0 := by omega
  have inside : (decide (fieldNat p 48 12 = 0) && rangeOk (p.toNat % 2 ^ 48) n) = true := by
    rw [fieldNat_eq, hr, decide_eq_true (by omega)]
    rfl
  unfold anCheck
  simp only [ptrSpace_eq, ptrOff_eq, h0, inside, if_true, if_pos ha]

end

theorem ld_uncorrectable (hc : s.cur = .anole a) (he : s.executes r g) (hn : n = 2 ^ z.toNat) (hp : AnolePlace s (memAddr r b z o) n n off)
    (hb : s.dram.badIn off n = true) : exec (.ld d b g z o) s = .next (s.takeFault (.anole a) (Trap.mk' 0x10 (memAddr r b z o))) := by
  subst hn
  refine scalar_anole_trap hc he ?_
  rw [smAddr_eq]
  refine bind_error ((loadBytes_anole hc _ _ _).trans ?_)
  unfold anRead
  rw [anCheck_ok hp, orRaise_ok, pure_bind_act, bind_ok get_run]
  simp only [hp.ready, hb, Bool.not_true, holdIf_false, raiseIf_true, pure_bind_act]
  rfl

/-- Settles O18. -/
theorem anoleAccessFaults : Obligations.AnoleAccessFaults := by
  intro s a r g d b z o n off p hc he hn hp hoff
  subst hn hp hoff
  exact ⟨fun h => access_refused (x := fun k => { Trap.mk' 0x04 (memAddr r b z o) with acc := k.code }) hc he fun k _ => anCheck_space h,
    fun hv hr ha => access_refused (x := fun k => { Trap.mk' 0x03 (memAddr r b z o) with acc := k.code }) hc he fun k _ => anCheck_misaligned hv hr ha,
    fun h hb => ld_uncorrectable hc he rfl h hb⟩

/-! ### A control core in its own scratchpad -/

section
variable {k : CoreRef} {l : Launch} {cp : Copy} {c : Core} {q : Pad} (ht : s.CoreTurn k l cp c) (he : s.executes c.regs g) (hn : n = 2 ^ z.toNat)
  (hp : OwnPlace cp c q (memAddr c.regs b z o) n n off) (hb : q.mem.badIn off n = false) (hr : cp.atRest)
include ht he hn hp hb hr

theorem ld_own (hm : c.remote = []) (d : BitVec 6) : ∃ t, exec (.ld d b g z o) s = .next t ∧
    onlyCore s t k { c with regs := (c.regs.set d (ofU (leNat (q.mem.bytes off n)))).skip 4 } := by
  subst hn
  obtain ⟨t, hload, only⟩ := loadBytes_own ht hp hb hr hm
  obtain ⟨u, hset, only'⟩ := setX_core ht.cur only d (ofU (leNat (q.mem.bytes off (2 ^ z.toNat))))
  refine scalar_core ht he ?_ only'
  rw [smAddr_eq, bind_ok hload]
  exact bind_ok hset

theorem st_own (d : BitVec 6) {c' : Core}
    (hc' : c' = { c with regs := c.regs.skip 4, port := [⟨cp.stores, .usp c.rank, off, natLe n (c.regs.get d).toNat, none⟩] }) :
    ∃ t, exec (.st d b g z o) s = .next t ∧ storeAccepted s t k c' ∧ (cp.nothingPushed c.rank → onlyCore s t k c') := by
  have port : c.port = [] := (hr.2 c (rank_of_core ht.copy ht.core).2).1
  have taken : (portTook cp.stores (.usp c.rank) off (natLe n (c.regs.get d).toNat) c).past 4 = c' := by
    rw [hc', portTook, port]
    rfl
  subst hn
  have len := natLe_length (2 ^ z.toNat) (c.regs.get d).toNat
  obtain ⟨t, hstore, hacc, honly⟩ := storeBytes_own (bs := natLe (2 ^ z.toNat) (c.regs.get d).toNat)
    (o := { op := 5, w1 := c.regs.get b, w2 := c.regs.get d, w3 := 0#64 }) ht (by rwa [len]) (by rwa [len])
  rw [← taken]
  refine scalar_stored ht he ?_ hacc honly
  rw [smAddr_eq]
  exact bind_ok hstore

end

/-- Settles O17. -/
theorem ownScratchpad : Obligations.OwnScratchpad := fun _ _ _ _ _ _ _ _ _ _ _ _ ht he hn hp hb hr hm =>
  ⟨ld_own ht he hn hp hb hr hm, fun d _ hc' => st_own ht he hn hp hb hr d hc'⟩

end Sys2Proof.Proofs
end

section
/-! FENCE (R129, R320), and a token wait that is satisfied (R133, R136). -/

namespace Sys2Proof.Proofs

open Sys2Proof.Machine Sys2Proof.Laws

variable {s : State} {k : CoreRef} {l : Launch} {cp : Copy} {c d : Core} {g sc : BitVec 4}

/-! ### What a fence performs -/

/-- Writes that are performed are no longer on their way, whatever bytes they hide. -/
theorem dropLags_dropped {p : LagWrite → Bool} (hp : ∀ w bs, p { w with old := bs } = p w) (ws : List LagWrite) :
    ∀ older : List LagWrite, (∀ w ∈ older, p w = false) → ∀ w ∈ s.dropLags p older ws, p w = false := by
  induction ws with
  | nil => exact fun _ h => h
  | cons x t ih =>
      intro older h
      rw [State.dropLags]
      split
      next =>
        refine ih _ fun w hw => ?_
        obtain ⟨v, hv, rfl⟩ := List.mem_map.1 hw
        exact (hp v _).trans (h v hv)
      next hx =>
        refine ih _ fun w hw => ?_
        rcases List.mem_append.1 hw with hw | hw
        · exact h w hw
        · rw [List.mem_singleton.1 hw]
          exact Bool.eq_false_iff.2 hx

theorem settleOwn_performs (agents : List Nat) : ∀ w ∈ (s.settleOwn agents).lags, w.writer ∉ agents := by
  intro w hw
  have := dropLags_dropped (p := fun g => agents.contains g.writer || g.bound.any fun a => agents.contains a) (fun _ _ => rfl) s.lags [] (by simp) w hw
  simp only [Bool.or_eq_false_iff, List.contains_eq_mem, decide_eq_false_iff_not] at this
  exact this.1

/-- A fence changes only what is on its way and what code an agent may still find. -/
theorem fenceLags_only (hc : s.core? k = some c) (n agent : Nat) (all : Bool) (cov : List Nat) : onlyCore s ((s.fenceLags k n).fenceCode agent all cov) k c := by
  rw [State.fenceLags]
  split <;> exact onlyCore_refl hc

/-! ### FENCE -/

/-- R129, R320: what FENCE waits for. -/
theorem settledAt_iff (n : Nat) : s.settledAt k cp c n = true ↔ c.port = [] ∧
    (∀ h ∈ cp.home, h.writer = c.rank → h.cmd = none → min n 3 ≤ scopeNum h.scope) ∧
    (4 ≤ n → ∀ r ∈ s.link.reqs, ¬ (r.op = 2#6 ∧ r.lid = k.lid ∧ r.rank = k.rank)) := by
  simp only [State.settledAt, Bool.and_eq_true, List.isEmpty_iff, List.all_eq_true, Bool.or_eq_true, bne_iff_ne, decide_eq_true_eq, Bool.not_eq_true',
    List.any_eq_false, beq_iff_eq, and_assoc, Option.isSome_iff_ne_none]
  refine and_congr_right fun _ => and_congr (forall₂_congr fun h _ => ?_) ?_
  · tauto
  · rw [← Nat.not_le, ← imp_iff_not_or]

theorem fence_settled (ht : s.CoreTurn k l cp c) (he : s.executes c.regs g) (hs : s.settledAt k cp c sc.toNat = true) :
    ∃ t, exec (.fence g sc) s = .next t ∧ onlyCore s t k (c.past 4) ∧ (3 ≤ sc.toNat → ∀ w ∈ t.lags, w.writer ∉ s.agentsOf k) := by
  let u := (s.fenceLags k sc.toNat).fenceCode (cp.agent c.rank) (decide (3 ≤ sc.toNat)) (s.scopeAgents k sc.toNat)
  refine ⟨u.modCore k fun x => { x with regs := x.regs.skip 4 }, (scalar_on he.1 he.2).trans ?_, onlyCore_step (fenceLags_only ht.core ..) _ (fun _ => rfl) rfl, fun h => ?_⟩
  · rw [runAct_adv (s' := u), ht.cur]
    · rfl
    · rw [bind_ok get_run]
      simp only [ht.cur]
      refine (bind_ok (theCore_turn ht)).trans ?_
      simp only [hs, Bool.not_true, holdIf_false, pure_bind_act]
      rfl
  · show ∀ w ∈ (s.fenceLags k sc.toNat).lags, _
    rw [State.fenceLags, if_pos h]
    exact settleOwn_performs _

theorem fence_waits (ht : s.CoreTurn k l cp c) (he : s.executes c.regs g) (hs : ¬ s.settledAt k cp c sc.toNat = true) :
    exec (.fence g sc) s = .next s := by
  refine scalar_hold he ?_
  rw [bind_ok get_run]
  simp only [ht.cur]
  refine (bind_ok (theCore_turn ht)).trans ?_
  simp only [hs, Bool.not_false, holdIf_true, hold_bind]
  rfl

theorem fence_anole {a : BitVec 4} {r : Regs} (hc : s.cur = .anole a) (he : s.executes r g) :
    ∃ t, exec (.fence g sc) s = .next t ∧ t.regs? = some (r.skip 4) ∧ anoleFrame s t a ∧ t.dram = s.dram := by
  let u := s.fenceCode (anoleAgent a.toNat) (decide (3 ≤ sc.toNat)) [anoleAgent a.toNat]
  refine ⟨_, scalar_anole (t := u) hc he ?_, ?_, anoleFrame_modAnole s a _ _, rfl⟩
  · rw [bind_ok get_run]
    simp only [hc]
    rfl
  · show (u.modRegsOf _ _).regsOf? (u.modRegsOf _ _).cur = _
    rw [modRegsOf_cur, show u.cur = .anole a from hc, regsOf_modRegsOf, ← anole_regs hc he]
    rfl

/-- Settles O20. -/
theorem fenceWaits : Obligations.FenceWaits := by
  refine fun s g sc _ => ⟨fun k l cp c settled ht he hs => ?_, fun a r hc he => fence_anole hc he⟩
  have iff : settled ↔ s.settledAt k cp c sc.toNat = true := by rw [hs, settledAt_iff]
  rw [iff]
  exact ⟨fence_settled ht he, fence_waits ht he⟩

/-! ### A token wait (R133, R136) -/

/-- A token changes alone where the core is not in WFE. -/
theorem modTok_busy (h : ∀ a b, c.block ≠ .wfe a b) (e : BitVec 6) (f : Token → Token) : c.modTok e f = c.putTok e (f c.sync.tokens[e.toNat]) := by
  have awake : ∀ d : Core, d.block = c.block → d.wake = d := by
    intro d hd
    unfold Core.wake
    split
    next hb => exact absurd (hd.symm.trans hb) (h _ _)
    all_goals rfl
  unfold Core.modTok
  dsimp only
  split
  · rfl
  · exact awake _ rfl

theorem satisfyWait_none (hctx : ctxOf k s = .ok ((l, cp, c), s)) {e : BitVec 6} (h : c.fireDue.satisfyOldest e = none) :
    exec (.tokenWaitSatisfied k e) s = .next s := by
  show Host.Outcome.next (runStep _ _ _) = _
  rw [runStep, satisfyWait, bind_ok hctx]
  simp only [h]
  rfl

theorem satisfyWait_some (hctx : ctxOf k s = .ok ((l, cp, c), s)) (hc : s.core? k = some c) {e : BitVec 6} (h : c.fireDue.satisfyOldest e = some d) :
    ∃ t, exec (.tokenWaitSatisfied k e) s = .next t ∧ onlyCore s t k d := by
  refine ⟨s.modCore k fun _ => d, ?_, onlyCore_put hc ?_⟩
  · show Host.Outcome.next (runStep _ _ _) = _
    rw [runStep, satisfyWait, bind_ok hctx]
    simp only [h]
    rfl
  · exact (tokensOnly_satisfyOldest h).rank.trans (tokensOnly_foldl tokensOnly_fire c.sync.due c).rank

section
variable {e : BitVec 6} {w : TokWait} {q : List TokWait} (hq : d.sync.tokens[e.toNat].queue = w :: q)
include hq

theorem satisfyOldest_short (h : d.sync.tokens[e.toNat].left < w.amount) : d.satisfyOldest e = none := by
  unfold Core.satisfyOldest Core.tok
  simp only [hq, if_pos h]

/-- The count gives up the wait's amount, and the wait leaves the queue. -/
theorem satisfyOldest_covered (h : w.amount ≤ d.sync.tokens[e.toNat].left) (hb : ∀ a b, d.block ≠ .wfe a b) {y : Token}
    (hy : y = { d.sync.tokens[e.toNat] with count := d.sync.tokens[e.toNat].count - w.amount, left := d.sync.tokens[e.toNat].left - w.amount, queue := q }) :
    d.satisfyOldest e = some ((d.putTok e y).satisfied e w) := by
  unfold Core.satisfyOldest Core.tok
  simp only [hq, if_neg (Nat.not_lt.2 h), modTok_busy hb, hy]

end

/-- Settles O23. -/
theorem tokenWaitSatisfied : Obligations.TokenWaitSatisfied := by
  rintro s k l cp c e d x w q hl hp hc rfl rfl hq
  have hctx := ctxOf_run hl hp hc
  refine ⟨fun h => satisfyWait_none hctx (satisfyOldest_short hq h), fun h y hy => ⟨fun nx under hw hb => ?_, fun n hw hb => ?_⟩⟩
  · obtain ⟨t, run, only⟩ := satisfyWait_some hctx hc (satisfyOldest_covered hq h (by simp [hb]) hy)
    refine ⟨t, run, ?_⟩
    rw [Core.satisfied] at only
    simp only [hw, Core.putTok, hb] at only
    exact only
  · obtain ⟨t, run, only⟩ := satisfyWait_some hctx hc (satisfyOldest_covered hq h hb hy)
    refine ⟨t, run, ?_⟩
    rw [Core.satisfied] at only
    simp only [hw, Core.modCmd, beq_iff_eq] at only
    exact only

end Sys2Proof.Proofs
end

section
/-! ITER (R162, R290), and exception entry and return of an Anole core (R165, R396). -/

namespace Sys2Proof.Proofs

open Sys2Proof.Machine Sys2Proof.Laws

variable {s t : State} {k : CoreRef} {l : Launch} {cp : Copy} {c : Core} {g : BitVec 4} {i : BitVec 4} {r : Regs}

/-! ### What the steps of an ITER leave -/

/-- A change of a launch's record that its copies and its log do not see. -/
theorem onlyCore_modLaunch (hc : s.core? k = some c) (n : Nat) (f : Launch → Launch) (hf : ∀ x, (f x).lid = x.lid ∧ (f x).copies = x.copies ∧
    (f x).state = x.state ∧ (f x).log = x.log ∧ (f x).snap = x.snap) : onlyCore s (s.modLaunch n f) k c := by
  have copies := copy_modRecord (s := s) f (fun x => (hf x).1) (fun x => (hf x).2.1) n
  have cores (j : CoreRef) : (s.modLaunch n f).core? j = s.core? j := by rw [State.core?, State.core?, copies]
  refine ⟨(cores k).trans hc, fun j _ => cores j, fun j p => by rw [copies], fun j => by rw [copies], fun m => ?_, rfl, rfl, rfl, rfl, rfl, rfl, rfl, rfl, rfl, rfl, rfl⟩
  rw [launch_modLaunch_any s n m f fun x => (hf x).1, Option.map_map]
  refine Option.map_congr fun x _ => ?_
  obtain ⟨-, -, state, log, snap⟩ := hf x
  simp only [Function.comp]
  split
  · rw [state, log, snap]
  · rfl

theorem decide_keeps (n : Nat) (x : Launch) : (x.decide n).lid = x.lid ∧ (x.decide n).copies = x.copies ∧ (x.decide n).state = x.state ∧
    (x.decide n).log = x.log ∧ (x.decide n).snap = x.snap := by
  unfold Launch.decide
  split <;> exact ⟨rfl, rfl, rfl, rfl, rfl⟩

/-- The core in iteration `n` of laps of `ring` iterations. -/
def nextIter (n ring : Nat) (c : Core) : Core := { c with loop := { c.loop with iter := n, lap := n / ring } }

/-- The state after the quiescent point of an ITER: in a kernel the next iteration begins, and the watchdog restarts. -/
def iterStart (s : State) (k : CoreRef) (l : Launch) (c : Core) : State :=
  (if c.loop.phase == .kernel then s.modCore k (nextIter (c.loop.iter + 1) l.lrec.ring) else s).modCore k fun x => { x with watch := s.cc }

theorem enterPhase_eq (c : Core) (lr : LoopRec) : c.enterPhase lr = { c with
    loop := { c.loop with phase := if c.loop.iter = lr.trip then .epilogue else .kernel },
    regs := c.regs.setPc (if c.loop.iter = lr.trip then lr.epi else lr.ker) } := by
  simp only [Core.enterPhase, beq_iff_eq]

/-- The part of ITER after its quiescent point, where the core goes on. -/
def goOn (k : CoreRef) (l : Launch) (lapEnd : Bool) (n : Nat) : Act Next := do
  if lapEnd then modify fun s => s.modLaunch k.lid fun l => l.decide n
  onCore k fun c => c.enterPhase l.lrec
  let c ← coreNow k
  pure (.goto c.regs.pc)

theorem goOn_run (h : onlyCore s t k c) (lapEnd : Bool) (n : Nat) : ∃ u, goOn k l lapEnd n t = .ok (.goto (if c.loop.iter = l.lrec.trip then l.lrec.epi else l.lrec.ker), u) ∧
    onlyCore s u k (c.enterPhase l.lrec) := by
  have enter {v : State} (hv : onlyCore s v k c) : ∃ u, (do onCore k fun c => c.enterPhase l.lrec
                                                            let c ← coreNow k
                                                            pure (.goto c.regs.pc) : Act Next) v =
      .ok (.goto (if c.loop.iter = l.lrec.trip then l.lrec.epi else l.lrec.ker), u) ∧ onlyCore s u k (c.enterPhase l.lrec) := by
    have only := onlyCore_step hv (fun x => x.enterPhase l.lrec) (fun _ => rfl) rfl
    refine ⟨_, ?_, only⟩
    rw [bind_ok (onCore_run k _), bind_ok (coreNow_run only.1), enterPhase_eq]
    rfl
  unfold goOn
  cases lapEnd with
  | false => exact enter h
  | true =>
      simp only [if_true]
      rw [bind_ok (modify_run _)]
      exact enter (onlyCore_trans h (onlyCore_modLaunch h.1 _ _ (decide_keeps n)))

/-- The part of ITER after its quiescent point, where the core waits for a checkpoint. -/
def stall (k : CoreRef) (n : Nat) (pc : Word) : Act Next := do
  modify fun s => s.modLaunch k.lid fun l => l.decide n
  onCore k fun c => { c with block := .ckpt }
  modify fun s => s.modLaunch k.lid fun l => if l.allStalled then { l with state := .checkpointing } else l
  pure (.goto pc)

theorem stall_run (h : onlyCore s t k c) (n : Nat) (pc : Word) : ∃ u, stall k n pc t = .ok (.goto pc, u) ∧
    u.core? k = some { c with block := .ckpt } ∧ otherCores s u k ∧ u.dram = s.dram ∧ u.sys = s.sys := by
  have decided := onlyCore_trans h (onlyCore_modLaunch h.1 k.lid _ (decide_keeps n))
  have blocked := onlyCore_step decided (fun x => { x with block := .ckpt }) (fun _ => rfl) rfl
  obtain ⟨core, others, outside⟩ := blocked
  obtain ⟨-, -, -, dram, -, -, sys, -⟩ := outside
  have cores (v : State) (j : CoreRef) : (v.modLaunch k.lid fun l => if l.allStalled then { l with state := .checkpointing } else l).core? j = v.core? j := by
    rw [State.core?, State.core?, copy_modRecord (fun l : Launch => if l.allStalled then { l with state := .checkpointing } else l)
      (fun x => by split <;> rfl) (fun x => by split <;> rfl)]
  exact ⟨_, rfl, (cores _ k).trans core, fun j hj => (cores _ j).trans (others j hj), dram, sys⟩

/-! ### ITER -/

section
variable (ht : s.CoreTurn k l cp c) (he : s.executes c.regs g)
include ht he

theorem iter_epilogue (h : c.loop.phase = .epilogue) : traps (.iter g) s s (Trap.mk' 0x01) := by
  refine scalar_trap he ((bind_ok (theCore_turn ht)).trans ?_)
  simp only [h, beq_self_eq_true, raiseIf_true, raise_bind]
  rfl

variable (hs : ∀ d ∈ s.shoots, k ∉ d.waiting)
include hs

/-- ITER outside an epilogue: after its quiescent point the core stalls or goes on. -/
theorem iter_run (hphase : c.loop.phase ≠ .epilogue) {lapEnd : Bool} (hlap : lapEnd = (c.loop.phase == .kernel && (c.loop.iter + 1) % l.lrec.ring == 0))
    {pc : Word} {u : State} (h : (if lapEnd && l.due (c.loop.iter + 1) then stall k (c.loop.iter + 1) c.regs.pc else goOn k l lapEnd (c.loop.iter + 1))
      (iterStart s k l c) = .ok (.goto pc, u)) : exec (.iter g) s = .next (u.modCore k fun x => { x with regs := x.regs.setPc pc }) := by
  subst hlap
  refine (scalar_on he.1 he.2).trans ?_
  rw [runAct_goto (s' := u) (pc := pc), ht.cur]
  · rfl
  · refine (bind_ok (theCore_turn ht)).trans ?_
    simp only [beq_eq_false_iff_ne.2 hphase, raiseIf_false, pure_bind_act]
    unfold iterStart at h
    cases hk : c.loop.phase == .kernel with
    | false =>
        rw [hk] at h
        refine (bind_ok (quiesce_run hs)).trans (Eq.trans ?_ h)
        rfl
    | true =>
        rw [hk] at h
        refine (bind_ok (onCore_run k _)).trans ((bind_ok (quiesce_run (s := s.modCore k (nextIter (c.loop.iter + 1) l.lrec.ring)) hs)).trans (Eq.trans ?_ h))
        cases (c.loop.iter + 1) % l.lrec.ring == 0 <;> rfl

theorem iter_goesOn (hphase : c.loop.phase ≠ .epilogue) {d : Core} (hd : onlyCore s (iterStart s k l c) k d)
    (hdue : c.loop.phase = .prologue ∨ (c.loop.iter + 1) % l.lrec.ring ≠ 0 ∨ l.due (c.loop.iter + 1) = false) :
    ∃ t, exec (.iter g) s = .next t ∧ onlyCore s t k (d.enterPhase l.lrec) := by
  have on : ((c.loop.phase == .kernel && (c.loop.iter + 1) % l.lrec.ring == 0) && l.due (c.loop.iter + 1)) = false := by
    rcases hdue with h | h | h
    · rw [h]; rfl
    · rw [beq_eq_false_iff_ne.2 h, Bool.and_false, Bool.false_and]
    · rw [h, Bool.and_false]
  obtain ⟨u, run, only⟩ := goOn_run (l := l) hd (c.loop.phase == .kernel && (c.loop.iter + 1) % l.lrec.ring == 0) (c.loop.iter + 1)
  refine ⟨_, iter_run ht he hs hphase rfl (by rw [on]; exact run), onlyCore_step only _ (fun _ => rfl) ?_⟩
  rw [enterPhase_eq]
  rfl

end

/-- Settles O35. -/
theorem iterations : Obligations.Iterations := by
  intro s k l cp c g ht he hs
  have start := onlyCore_refl ht.core
  refine ⟨iter_epilogue ht he, fun h => ?_, fun h hdue => ?_, fun h hring hdue => ?_⟩
  · have begun : onlyCore s (iterStart s k l c) k { c with watch := s.cc } := by
      rw [iterStart, if_neg (by simp [h])]
      exact onlyCore_step start _ (fun _ => rfl) rfl
    have := iter_goesOn ht he hs (by simp [h]) begun (.inl h)
    rwa [enterPhase_eq] at this
  all_goals
    have begun : onlyCore s (iterStart s k l c) k { c with watch := s.cc, loop := { c.loop with
        iter := c.loop.iter + 1, lap := (c.loop.iter + 1) / l.lrec.ring } } := by
      rw [iterStart, if_pos (by simp [h])]
      exact onlyCore_step (onlyCore_step start (nextIter (c.loop.iter + 1) l.lrec.ring) (fun _ => rfl) rfl) _ (fun _ => rfl) rfl
  · have := iter_goesOn ht he hs (by simp [h]) begun (.inr hdue)
    rwa [enterPhase_eq] at this
  · obtain ⟨u, run, core, others, dram, sys⟩ := stall_run begun (c.loop.iter + 1) c.regs.pc
    have lapEnd : (c.loop.phase == .kernel && (c.loop.iter + 1) % l.lrec.ring == 0) = true := by simp [h, hring]
    refine ⟨_, iter_run ht he hs (by simp [h]) rfl (by rw [lapEnd, hdue]; exact run), ?_, fun j hj => ?_, dram, sys⟩
    · exact (coreAt_modCore (fun x => { x with regs := x.regs.setPc c.regs.pc }) fun _ => rfl).trans (by rw [core]; rfl)
    · exact (coreAt_modCore_ne hj (fun x => { x with regs := x.regs.setPc c.regs.pc }) fun _ => rfl).trans (others j hj)

/-! ### A fault of an Anole core, and SYSRET -/

theorem modAnole_other (f : Anole → Anole) {j : BitVec 4} (hj : j ≠ i) : (s.modAnole i f).anoles[j.toNat] = s.anoles[j.toNat] :=
  Vector.getElem_set_ne i.isLt j.isLt fun e => hj (BitVec.eq_of_toNat_eq e).symm

/-- The number whose bits below `n` are given. -/
def bitSum (b : Nat → Bool) (n : Nat) : Nat := (List.range n).foldl (fun m x => m + if b x then 2 ^ x else 0) 0

theorem bitSum_succ (b : Nat → Bool) (n : Nat) : bitSum b (n + 1) = bitSum b n + if b n then 2 ^ n else 0 := by
  simp only [bitSum, List.range_succ, List.foldl_append, List.foldl_cons, List.foldl_nil]

theorem bitSum_lt (b : Nat → Bool) (n : Nat) : bitSum b n < 2 ^ n := by
  induction n with
  | zero => exact Nat.one_pos
  | succ n ih =>
      rw [bitSum_succ, Nat.pow_succ]
      split <;> omega

theorem testBit_bitSum (b : Nat → Bool) (n j : Nat) : (bitSum b n).testBit j = (decide (j < n) && b j) := by
  induction n with
  | zero => simp [bitSum]
  | succ n ih =>
      rw [bitSum_succ, Nat.add_comm]
      have low := bitSum_lt b n
      rcases Nat.lt_trichotomy j n with h | rfl | h
      · split
        · rw [Nat.testBit_two_pow_add_gt h, ih, decide_eq_true h, decide_eq_true (by omega)]
        · rw [Nat.zero_add, ih, decide_eq_true h, decide_eq_true (by omega)]
      · have none : (bitSum b j).testBit j = false := Nat.testBit_lt_two_pow low
        split
        next hb => simp [Nat.testBit_two_pow_add_eq, none, hb]
        next hb => simp [none, hb]
      · rw [decide_eq_false (by omega), Bool.false_and]
        refine Nat.testBit_lt_two_pow (Nat.lt_of_lt_of_le ?_ (Nat.pow_le_pow_right (by decide) h))
        rw [Nat.pow_succ]
        split <;> omega

theorem predWord_eq (r : Regs) : predWord r = BitVec.ofNat 64 (bitSum (fun i => r.pred (BitVec.ofNat 3 i) && i != 0) 8) := rfl

/-- AN.spr holds p1 to p7 (R165). -/
theorem predWord_bit (r : Regs) {j : BitVec 3} (hj : j ≠ 0#3) : (predWord r).getLsbD j.toNat = r.pred j := by
  have h0 : j.toNat ≠ 0 := fun h => hj (BitVec.eq_of_toNat_eq h)
  rw [predWord_eq, BitVec.getLsbD_ofNat, testBit_bitSum, decide_eq_true (show j.toNat < 64 by omega), decide_eq_true (show j.toNat < 8 by omega),
    BitVec.ofNat_toNat, BitVec.setWidth_eq]
  simp [h0]

/-- A fault outside the handler (R165): the words that it saves, and where the core goes on. -/
theorem anoleFault_outside (h0 : s.anIn i = false) (x : Trap) : s.anoleFault i x = State.modAnole ((((s.sysPut (anOff i + 8) s.anoles[i.toNat].regs.pc).sysPut (anOff i + 16)
    (predWord s.anoles[i.toNat].regs)).sysPut (anOff i + 24) (BitVec.ofNat 64 (256 + x.code))).sysPut (anOff i + 32) x.addr) i
      fun c => { c with regs := s.anoles[i.toNat].regs.setPc (s.sysW (anOff i)), block := .none, commit := .idle, remote := [] } := by
  rw [State.anoleFault, h0]
  rfl

theorem anoleFault_inside (h1 : s.anIn i = true) (x : Trap) : s.anoleFault i x =
    (s.sysSetF 8 (40 + i.toNat) 1 0).modAnole i fun c => { c with halted := true } := by
  rw [State.anoleFault, h1]
  rfl

theorem anIn_iff : s.anIn i = true ↔ s.sysF (anOff i + 24) 8 1 = 1 := beq_iff_eq

theorem sysret_run (hc : s.cur = .anole i) (he : s.executes r g) : exec (.sysret g) s =
    .next ((s.anoleReturn i).modAnole i fun c => { c with regs := c.regs.setPc (s.sysW (anOff i + 8)) }) := by
  refine (scalar_on he.1 he.2).trans ?_
  rw [runAct_goto (s' := s.anoleReturn i) (pc := s.sysW (anOff i + 8)), hc]
  · rfl
  · rw [bind_ok get_run, hc]
    rfl

/-- A word of SYS space after a write. -/
theorem sysW_sysPut (h : s.sysOk) (o : Nat) (v : Word) (p : Nat) : (s.sysPut o v).sysW p = if p / 8 = o / 8 then v else s.sysW p := by
  split
  next hp => exact sysW_sysPut_same h hp v
  next hp => exact sysW_sysPut_ne h hp v

/-- The four words that a fault outside the handler saves. -/
theorem sysW_saved (ok : s.sysOk) (n p : Nat) (a b c d : Word) :
    ((((s.sysPut (n + 8) a).sysPut (n + 16) b).sysPut (n + 24) c).sysPut (n + 32) d).sysW p =
      if p / 8 = (n + 32) / 8 then d else if p / 8 = (n + 24) / 8 then c else if p / 8 = (n + 16) / 8 then b else
        if p / 8 = (n + 8) / 8 then a else s.sysW p := by
  have ok1 := sysOk_sysPut ok (n + 8) a
  have ok2 := sysOk_sysPut ok1 (n + 16) b
  rw [sysW_sysPut (sysOk_sysPut ok2 (n + 24) c), sysW_sysPut ok2, sysW_sysPut ok1, sysW_sysPut ok]

/-- What a fault outside the handler leaves (R165). -/
theorem anoleFault_saves (ok : s.sysOk) (out : s.sysF (anOff i + 24) 8 1 = 0) (x : Trap) {t : State} (ht : t = s.takeFault (.anole i) x) :
    t.sysW (anOff i + 8) = s.anoles[i.toNat].regs.pc ∧ (∀ j : BitVec 3, j ≠ 0#3 → (t.sysW (anOff i + 16)).getLsbD j.toNat = s.anoles[i.toNat].regs.pred j) ∧
    t.sysW (anOff i + 24) = ofU (256 + x.code) ∧ t.sysW (anOff i + 32) = x.addr ∧ t.anoles[i.toNat].regs = s.anoles[i.toNat].regs.setPc (s.sysW (anOff i)) ∧
    (∀ j, j ≠ i → t.anoles[j.toNat] = s.anoles[j.toNat]) ∧ t.dram = s.dram ∧ t.launches = s.launches := by
  have outside : s.anIn i = false := Bool.eq_false_iff.2 fun h => by rw [anIn_iff, out] at h; cases h
  have words (p : Nat) := sysW_saved ok (anOff i) p s.anoles[i.toNat].regs.pc (predWord s.anoles[i.toNat].regs) (BitVec.ofNat 64 (256 + x.code)) x.addr
  rw [State.takeFault, anoleFault_outside outside] at ht
  subst ht
  refine ⟨(words _).trans ?_, fun j hj => (congrArg (BitVec.getLsbD · j.toNat) (words _)).trans ?_, (words _).trans ?_, (words _).trans ?_,
    congrArg Anole.regs (anole_modAnole _ i _), fun j hj => modAnole_other _ hj, rfl, rfl⟩
  · rw [if_neg (by omega), if_neg (by omega), if_neg (by omega), if_pos rfl]
  · rw [if_neg (by omega), if_neg (by omega), if_pos rfl]
    exact predWord_bit _ hj
  · rw [if_neg (by omega), if_pos rfl]
    rfl
  · rw [if_pos rfl]

/-- A fault inside the handler halts the core. -/
theorem anoleFault_halts (ok : s.sysOk) (inside : s.sysF (anOff i + 24) 8 1 = 1) (x : Trap) {t : State} (ht : t = s.takeFault (.anole i) x) :
    t.anoles[i.toNat] = { s.anoles[i.toNat] with halted := true } ∧ t.readyBit (40 + i.toNat) = false ∧ t.dram = s.dram ∧ t.launches = s.launches := by
  rw [State.takeFault, anoleFault_inside (anIn_iff.2 inside)] at ht
  subst ht
  refine ⟨anole_modAnole _ i _, ?_, rfl, rfl⟩
  have cleared : (s.sysSetF 8 (40 + i.toNat) 1 0).sysF 8 (40 + i.toNat) 1 = 0 := sysF_sysSetF_same ok (by have := i.isLt; omega) 0
  exact beq_eq_false_iff_ne.2 fun h => absurd (cleared.symm.trans h) (by decide)

/-- What SYSRET leaves (R165). -/
theorem sysret_returns (hc : s.cur = .anole i) (he : s.executes r g) (ok : s.sysOk) : ∃ t, exec (.sysret g) s = .next t ∧
    t.anoles[i.toNat].regs = (predsOf r (s.sysW (anOff i + 16))).setPc (s.sysW (anOff i + 8)) ∧ t.sysF (anOff i + 24) 8 1 = 0 ∧
    (∀ j, j ≠ i → t.anoles[j.toNat] = s.anoles[j.toNat]) ∧ t.dram = s.dram ∧ t.launches = s.launches := by
  refine ⟨_, sysret_run hc he, ?_, sysF_sysSetF_same ok (by decide) 0, fun j hj => (modAnole_other _ hj).trans (modAnole_other _ hj), rfl, rfl⟩
  have returned : (s.anoleReturn i).anoles[i.toNat].regs = (predsOf s.anoles[i.toNat].regs (s.sysW (anOff i + 16))).setPc (s.sysW (anOff i + 8)) :=
    congrArg Anole.regs (anole_modAnole (s.sysSetF (anOff i + 24) 8 1 0) i _)
  refine (congrArg Anole.regs (anole_modAnole _ i _)).trans ?_
  show (s.anoleReturn i).anoles[i.toNat].regs.setPc _ = _
  rw [returned, anole_regs hc he]
  rfl

/-- Settles O37. -/
theorem anoleExceptions : Obligations.AnoleExceptions := by
  refine ⟨fun s i x t ht out ok => ?_, fun s i x t ht inside ok => anoleFault_halts ok inside x ht, fun s i g r hc he ok => ?_⟩
  · obtain ⟨pc, preds, cause, addr, regs, others, dram, launches⟩ := anoleFault_saves ok out x ht
    exact ⟨pc, preds, cause, addr, by rw [regs]; rfl, by rw [regs]; rfl, by rw [regs]; rfl, others, dram, launches⟩
  · obtain ⟨t, run, regs, cleared, others, dram, launches⟩ := sysret_returns hc he ok
    refine ⟨t, run, by rw [regs]; rfl, fun j hj => ?_, by rw [regs]; rfl, cleared, others, dram, launches⟩
    rw [regs, Regs.pred, if_neg hj]
    exact Vector.getElem_ofFn _

end Sys2Proof.Proofs
end

section
/-! The atomics of Table 02-4 (R126, R127): what each is as an operation on bytes, on an Anole core in device memory (R396) and on a control core
at its own scratchpad (R308). -/

namespace Sys2Proof.Proofs

open Sys2Proof.Machine Sys2Proof.Laws

variable {s t u : State} {k : CoreRef} {l : Launch} {cp : Copy} {c d : Core} {q : Pad} {off : Nat} {r : Regs} {i : Instr} {m : AmoForm} {a : BitVec 4}

/-! ### Each atomic as its table gives it -/

/-- Atomic `x`, which hands the low word of its old value to x[rd] through `w`, is what form `m` says on operands from registers `r`. -/
structure AmoIs (m : AmoForm) (r : Regs) (x : Amo) (w : Word → Word) : Prop where
  width : x.n = m.n
  leaves : ∀ bs : List Byte, bs.length = m.n →
    x.apply bs = natLe m.n (m.new (leNat bs) ((r.get m.ra).toNat % 2 ^ (8 * m.n)) ((r.get m.rd).toNat % 2 ^ (8 * m.n)))
  returns : ∀ bs : List Byte, bs.length = m.n → w (oldWords bs).1 = m.ret (leNat bs)

theorem oldWords_low {bs : List Byte} (h : bs.length ≤ 8) : (oldWords bs).1 = ofU (leNat bs) := by
  rw [oldWords, List.take_of_length_le h]; rfl

/-- The integer atomics of one register (R126). -/
theorem amoInt_is {op : AmoOp} {rd ra rb : BitVec 6} {z o : BitVec 2} {f : Nat → Nat → Nat → Nat → Nat} (hm : amoForm rd ra rb z o f = some m)
    (hf : ∀ n old x c, amoNew op n old x c = f (8 * n) old x c) (hr : s.regs? = some r) :
    ∃ x w, amoInt op rd ra rb z o s = amo x m.rd m.ra m.rb m.ord s (fun lo _ => setX m.rd (w lo)) ∧ AmoIs m r x w := by
  unfold amoInt
  rw [hr]
  refine ⟨{ op := op, n := amoBytes z, opnd := (r.get ra).toNat % 2 ^ (8 * amoBytes z), cmp := (r.get rd).toNat % 2 ^ (8 * amoBytes z) },
    fun lo => if z = 1#2 then (lo.setWidth 32).signExtend 64 else lo, ?_⟩
  unfold amoForm at hm
  by_cases hz : z = 1#2
  · rw [if_pos hz] at hm
    cases hm
    have width : amoBytes z = 4 := if_pos hz
    refine ⟨rfl, width, fun bs _ => ?_, fun bs hbs => ?_⟩
    · rw [Amo.apply, hf, width]
      rfl
    · dsimp only
      rw [if_pos hz, oldWords_low (hbs.trans_le (Nat.le_of_ble_eq_true rfl))]
      exact sext_value 32 (by decide) (by decide) _
  · rw [if_neg hz] at hm
    cases hm
    have width : amoBytes z = 8 := if_neg hz
    refine ⟨rfl, width, fun bs _ => ?_, fun bs hbs => ?_⟩
    · rw [Amo.apply, hf, width]
      rfl
    · dsimp only
      rw [if_neg hz, oldWords_low (hbs.trans_le (Nat.le_of_ble_eq_true rfl))]

/-- AMO.FADD. -/
theorem amoFadd_is {rd ra rb : BitVec 6} {z o : BitVec 2} (hm : amoOf (.amoFadd rd ra rb z o) = some m) (hr : s.regs? = some r) :
    ∃ x w, exec (.amoFadd rd ra rb z o) s = amo x m.rd m.ra m.rb m.ord s (fun lo _ => setX m.rd (w lo)) ∧ AmoIs m r x w := by
  show ∃ x w, execAmoFadd rd ra rb z o s = _ ∧ _
  unfold execAmoFadd
  rw [hr]
  cases hm
  refine ⟨{ op := if z = 1#2 then .faddF32 else .faddBf16, n := 4, opnd := (r.get ra).toNat % 2 ^ 32, cmp := 0 }, fun lo => lo.setWidth 32 |>.setWidth 64,
    rfl, rfl, fun bs _ => ?_, fun bs hbs => ?_⟩
  · by_cases hz : z = 1#2
    · simp only [Amo.apply, if_pos hz]; rfl
    · simp only [Amo.apply, if_neg hz]; rfl
  · have small := leNat_lt bs
    rw [show bs.length = 4 from hbs] at small
    rw [oldWords_low (hbs.trans_le (Nat.le_of_ble_eq_true rfl))]
    apply BitVec.eq_of_toNat_eq
    simp only [ofU, BitVec.toNat_setWidth, BitVec.toNat_ofNat]
    omega

/-- R126: every atomic of one destination register. -/
theorem exec_amoOf (hm : amoOf i = some m) (hr : s.regs? = some r) :
    ∃ x w, exec i s = amo x m.rd m.ra m.rb m.ord s (fun lo _ => setX m.rd (w lo)) ∧ AmoIs m r x w := by
  cases i with
  | amoAdd d a b z o => exact amoInt_is (op := .add) (f := fun n old x _ => (old + x) % 2 ^ n) hm (fun _ _ _ _ => rfl) hr
  | amoAnd d a b z o => exact amoInt_is (op := .and) (f := fun _ old x _ => old &&& x) hm (fun _ _ _ _ => rfl) hr
  | amoOr d a b z o => exact amoInt_is (op := .or) (f := fun _ old x _ => old ||| x) hm (fun _ _ _ _ => rfl) hr
  | amoXor d a b z o => exact amoInt_is (op := .xor) (f := fun _ old x _ => old ^^^ x) hm (fun _ _ _ _ => rfl) hr
  | amoMin d a b z o =>
      refine amoInt_is (op := .min) (f := fun n old x _ => if signedOf n x < signedOf n old then x else old) hm (fun n old x _ => ?_) hr
      simp only [amoNew, toSigned_eq, ← Int.not_lt, ite_not]
  | amoMax d a b z o =>
      refine amoInt_is (op := .max) (f := fun n old x _ => if signedOf n old < signedOf n x then x else old) hm (fun n old x _ => ?_) hr
      simp only [amoNew, toSigned_eq, ← Int.not_lt, ite_not]
  | amoMinn d a b z o => exact amoInt_is (op := .minn) (f := fun _ old x _ => min old x) hm (fun _ _ _ _ => rfl) hr
  | amoMaxn d a b z o => exact amoInt_is (op := .maxn) (f := fun _ old x _ => max old x) hm (fun _ old x _ => by rw [Nat.max_comm, Nat.max_def]; rfl) hr
  | amoXchg d a b z o => exact amoInt_is (op := .xchg) (f := fun _ _ x _ => x) hm (fun _ _ _ _ => rfl) hr
  | amoCas d a b z o => exact amoInt_is (op := .cas) (f := fun _ old x c => if old = c then x else old) hm (fun _ _ _ _ => rfl) hr
  | amoFadd d a b z o => exact amoFadd_is hm hr
  | _ => cases hm

/-! ### On an Anole core -/

/-- What an atomic of an Anole core leaves, given what it writes into its registers. -/
theorem amo_anole_run {x : Amo} {rd ra rb : BitVec 6} {o : BitVec 2} {w : Word → Word → Act Unit} {f : Regs → Regs} (hc : s.cur = .anole a)
    (hr : s.regs? = some r) (h : AnolePlace s (r.get rb) x.n x.n off) (hk : off / 2 ^ 44 < 2) (hb : s.dram.badIn off x.n = false)
    (hw : s.host.writes = []) (hs : s.firm.save = none)
    (hf : ∀ v : State, v.cur = .anole a → w (oldWords (s.dram.bytes off x.n)).1 (oldWords (s.dram.bytes off x.n)).2 v = .ok ((), v.modRegsOf (.anole a) f)) :
    ∃ t, amo x rd ra rb o s w = .next t ∧ storedAt s t off (x.apply (s.dram.bytes off x.n)) ∧ t.regs? = some ((f r).skip 4) ∧ anoleFrame s t a := by
  obtain ⟨ls, oc, done⟩ := amoAnole_ok h hk hb hw hs
  have run := amo_anole (d := rd) (ra := ra) (o := o) hc hr done (hf _ hc)
  rw [modRegsOf_modRegsOf] at run
  exact ⟨_, run, ⟨modRegsOf_dram .., fun y hy => by rw [modRegsOf_dram]; exact get_put_outside _ _ _ _ hy⟩, regs_mod s a hc r hr off _ ls oc _,
    anoleFrame_mod s a off _ ls oc _⟩

theorem amoOf_anole (hm : amoOf i = some m) (hc : s.cur = .anole a) (hr : s.regs? = some r) (h : AnolePlace s (r.get m.rb) m.n m.n off)
    (hk : off / 2 ^ 44 < 2) (hb : s.dram.badIn off m.n = false) (hw : s.host.writes = []) (hs : s.firm.save = none) :
    ∃ t, exec i s = .next t ∧
      storedAt s t off (natLe m.n (m.new (leNat (s.dram.bytes off m.n)) ((r.get m.ra).toNat % 2 ^ (8 * m.n)) ((r.get m.rd).toNat % 2 ^ (8 * m.n)))) ∧
      t.regs? = some ((r.set m.rd (m.ret (leNat (s.dram.bytes off m.n)))).skip 4) ∧ anoleFrame s t a := by
  obtain ⟨x, w, run, width, leaves, returns⟩ := exec_amoOf hm hr
  have len := bytes_length s.dram off m.n
  rw [run, ← leaves _ len, ← returns _ len]
  rw [← width] at h hb ⊢
  exact amo_anole_run (f := fun r => r.set m.rd (w (oldWords (s.dram.bytes off x.n)).1)) hc hr h hk hb hw hs fun v hv => setX_anole v a hv _ _

/-- The two words of an old value of 16 bytes (R126). -/
theorem oldWords_pair {bs : List Byte} (h : bs.length = 16) : oldWords bs = (ofU (leNat bs), ofU (leNat bs / 2 ^ 64)) := by
  have halves := leNat_append (bs.take 8) (bs.drop 8)
  have low := leNat_lt (bs.take 8)
  rw [List.take_append_drop, List.length_take_of_le (by omega)] at halves
  rw [List.length_take_of_le (by omega)] at low
  have hi : leNat bs / 2 ^ 64 = leNat (bs.drop 8) := by omega
  have lo : leNat bs % 2 ^ 64 = leNat (bs.take 8) := by omega
  rw [oldWords, hi, ← lo]
  refine Prod.ext (BitVec.eq_of_toNat_eq ?_) rfl
  simp only [ofU, BitVec.toNat_ofNat, Nat.mod_mod]

theorem amoAdd128_anole {rd ra rb : BitVec 6} {o : BitVec 2} {old x : Nat} (hc : s.cur = .anole a) (hr : s.regs? = some r)
    (h : AnolePlace s (r.get rb) 16 16 off) (hk : off / 2 ^ 44 < 2) (hb : s.dram.badIn off 16 = false) (hw : s.host.writes = []) (hs : s.firm.save = none)
    (hold : old = leNat (s.dram.bytes off 16)) (hx : x = if ra = 0#6 then 0 else (r.get ra).toNat + 2 ^ 64 * (r.get (ra + 1#6)).toNat) :
    ∃ t, exec (.amoAdd128 rd ra rb o) s = .next t ∧ storedAt s t off (natLe 16 ((old + x) % 2 ^ 128)) ∧
      t.regs? = some ((if rd = 0#6 then r else (r.set rd (ofU old)).set (rd + 1#6) (ofU (old / 2 ^ 64))).skip 4) ∧ anoleFrame s t a := by
  have operand : (r.get ra).toNat + 2 ^ 64 * (r.get (pairHi ra)).toNat = x := by
    rw [hx, pairHi]
    split
    next h0 => rw [h0]; rfl
    next => rfl
  have pair : (r.set rd (ofU old)).set (pairHi rd) (ofU (old / 2 ^ 64)) =
      if rd = 0#6 then r else (r.set rd (ofU old)).set (rd + 1#6) (ofU (old / 2 ^ 64)) := by
    unfold pairHi
    split
    next h0 => rw [h0]; rfl
    next => rfl
  show ∃ t, execAmoAdd128 rd ra rb o s = _ ∧ _
  unfold execAmoAdd128
  rw [hr, ← pair, hold]
  simp only [operand]
  refine amo_anole_run (x := { op := .add, n := 16, opnd := x, cmp := 0 })
    (f := fun r => (r.set rd (ofU (leNat (s.dram.bytes off 16)))).set (pairHi rd) (ofU (leNat (s.dram.bytes off 16) / 2 ^ 64))) hc hr h hk hb hw hs fun v hv => ?_
  rw [oldWords_pair (bytes_length _ _ _), bind_ok (setX_anole v a hv _ _), setX_anole _ a ((modRegsOf_cur ..).trans hv), modRegsOf_modRegsOf]

/-! ### On a control core at its own scratchpad -/

/-- A store `h` stands last at a scratchpad of core `k`'s copy, whose homes were empty; the core is `c`, apart from what its commands may
still read as it was, and nothing else that a core sees has changed. -/
structure BankWritten (s t : State) (k : CoreRef) (cp : Copy) (c : Core) (h : HomeStore) : Prop where
  core : (t.core? k).map Core.bare = some c.bare
  others : ∀ j, j ≠ k → (t.core? j).map Core.bare = (s.core? j).map Core.bare
  home : (t.copy? k).map (fun x => x.home) = some [h]
  pads : ∀ p, (t.copy? k).bind (fun x => x.pad? p) = cp.pad? p
  rest : t.dram = s.dram ∧ t.cwnN = s.cwnN ∧ t.cwnS = s.cwnS ∧ t.sys = s.sys ∧ t.anoles = s.anoles ∧ t.cur = s.cur

/-- A change of the core that does not look at its commands. -/
theorem BankWritten.step {h : HomeStore} (b : BankWritten s t k cp c h) (f : Core → Core) (hf : ∀ x, (f x).rank = x.rank) (hb : ∀ x, (f x).bare = f x.bare) :
    BankWritten s (t.modCore k f) k cp (f c) h := by
  obtain ⟨core, others, home, pads, rest⟩ := b
  refine ⟨?_, fun j hj => ?_, ?_, fun p => ?_, rest⟩
  · rw [coreAt_modCore f hf, Option.map_map, hb, ← Option.map_some, ← core, Option.map_map]
    exact Option.map_congr fun x _ => hb x
  · rw [coreAt_modCore_ne hj f hf]
    exact others j hj
  · rw [copy_modCore, Option.map_map]
    exact home
  · rw [copy_modCore, Option.bind_map]
    exact pads p

theorem lastBytes_rest (hh : cp.home = []) {p : PadId} (hq : cp.pad? p = some q) (n : Nat) : cp.lastBytes p off n = q.mem.bytes off n := by
  unfold Copy.lastBytes Copy.lastByte Store.bytes
  simp only [hh, List.filter_nil, List.getLast?_nil, hq, Option.map_some, Option.getD_some]

/-- The store that an atomic of core `k` is at its bank (R308): it is seen by its own core, and counts as read when it acquires (R128). -/
def amoStore (k : CoreRef) (cp : Copy) (p : PadId) (off : Nat) (bs : List Byte) (acq : Bool) : HomeStore :=
  { id := cp.stores, writer := k.rank, pad := p, off := off, data := bs, scope := .unit, readBy := if acq then [(k.rank, cp.stores + 1)] else [] }

theorem core_modCopy_same (g : Copy → Copy) (hr : ∀ x, (g x).role = x.role) (hg : ∀ x, (g x).cores = x.cores) (j : CoreRef) :
    (s.modCopy k g).core? j = s.core? j := by
  rw [State.core?, State.core?, copy_modCopy_any s k j g hr]
  cases s.copy? j with
  | none => rfl
  | some x =>
      simp only [Option.map_some, Option.bind_some, Copy.core?]
      split
      · rw [hg]
      · rfl

/-- The race of a write with the commands that its core pushed (R125) changes those commands only. -/
theorem storeRaces_accepted (hl : s.launch? k.lid = some l) (hp : s.copy? k = some cp) (hc : s.core? k = some c) (x : Loc) (n : Nat) :
    ∃ u cp', storeRaces k x n s = .ok ((), u) ∧ storeAccepted s u k c ∧ u.copy? k = some cp' ∧ cp'.home = cp.home ∧ cp'.pads = cp.pads := by
  have run := storeRaces_run (ctxOf_run hl hp hc) x n
  split at run
  · exact ⟨s, cp, run, onlyCore_storeAccepted (onlyCore_refl hc), hp, rfl, rfl⟩
  · refine ⟨_, { cp with cores := cp.cores.map (raced s l cp c x n) }, run, storeAccepted_mapCores (bareSame_raced ..) hc, ?_, rfl, rfl⟩
    rw [copy_modCopy_any s k k (fun cp' => { cp' with cores := cp'.cores.map (raced s l cp c x n) }) fun _ => rfl, hp]
    simp only [and_self, if_true, Option.map_some]

/-- What a copy becomes by a store at its home. -/
def stored (h : HomeStore) (x : Copy) : Copy :=
  ({ x with stores := x.stores + 1, home := x.home ++ [h] } : Copy).modPad h.pad fun q => { q with mem := q.mem.mend h.off h.data.length }

/-- Two changes of one copy are one. -/
theorem modCopy_modCopy (g g' : Copy → Copy) (hg : ∀ x, (g x).role = x.role) : (s.modCopy k g).modCopy k g' = s.modCopy k fun x => g' (g x) := by
  refine (modLaunch_modLaunch (f := fun l => l.modCopy k.role g) (h := fun l => l.modCopy k.role g') k.lid fun _ => rfl).trans ?_
  refine congrArg (s.modLaunch k.lid) (funext fun l => ?_)
  simp only [Launch.modCopy, List.map_map]
  congr 1
  refine List.map_congr_left fun x _ => ?_
  by_cases h : (x.role == k.role) = true
  · simp only [Function.comp, h, if_true, hg]
  · simp only [Function.comp, h, Bool.false_eq_true, if_false]

theorem performPad_counted (h : HomeStore) : (do modify fun s => s.modCopy k fun c => { c with stores := c.stores + 1 }
                                                 performPad k h (0, 0) : Act Unit) s = .ok ((), s.modCopy k (stored h)) := by
  refine Eq.trans ?_ (congrArg (fun t => Except.ok ((), t)) ((modCopy_modCopy (s := s) (k := k) (fun c => { c with stores := c.stores + 1 })
    (fun c => ({ c with home := c.home ++ [h] } : Copy).modPad h.pad fun q => { q with mem := q.mem.mend h.off h.data.length }) fun _ => rfl)))
  rw [← modCopy_modCopy (fun c : Copy => { c with home := c.home ++ [h] }) (fun c => c.modPad h.pad fun q => { q with mem := q.mem.mend h.off h.data.length }) fun _ => rfl]
  rfl

/-- The bank takes the write of an atomic: last in location order. -/
theorem amoBank_run {p : PadId} {old bs : List Byte} {acq : Bool} (hl : s.launch? k.lid = some l) (hp : s.copy? k = some cp) (hc : s.core? k = some c)
    (hh : cp.home = []) (hq : cp.pad? p = some q) (hb : q.mem.badIn off bs.length = false) :
    ∃ t, amoBank k p off old bs acq s = .ok ((), t) ∧ BankWritten s t k cp c (amoStore k cp p off bs acq) := by
  obtain ⟨u, cp', races, accepted, copy, home, pads⟩ := storeRaces_accepted hl hp hc (.pad p off) bs.length
  let h := amoStore k cp p off bs acq
  have cores (j : CoreRef) : (u.modCopy k (stored h)).core? j = u.core? j := core_modCopy_same (stored h) (fun _ => rfl) (fun _ => rfl) j
  have written : (u.modCopy k (stored h)).copy? k = some (stored h cp') := by
    rw [copy_modCopy_any u k k (stored h) fun _ => rfl, copy]
    simp only [and_self, if_true, Option.map_some]
  have unseen : ((List.range old.length).filterMap fun i => (cp.lastByte p (off + i)).1) = [] := by
    rw [List.filterMap_eq_nil_iff]
    intro i _
    simp only [Copy.lastByte, hh, List.filter_nil, List.getLast?_nil]
  obtain ⟨core, others, -, -, -, dram, cwnN, cwnS, sys, anoles, -, -, -, -, cur, -⟩ := accepted
  refine ⟨u.modCopy k (stored h), ?_, (congrArg _ (cores k)).trans core, fun j hj => (congrArg _ (cores j)).trans (others j hj), ?_, fun x => ?_,
    dram, cwnN, cwnS, sys, anoles, cur⟩
  · unfold amoBank
    rw [bind_ok (ctxOf_run hl hp hc)]
    simp only [unseen]
    rw [bind_ok (show observeAll k ([] : List Nat).eraseDups s = .ok ((), s) from rfl), bind_ok races]
    exact performPad_counted h
  · rw [written, Option.map_some]
    show some (cp'.home ++ [h]) = _
    rw [home, hh]
    rfl
  · rw [written, Option.bind_some]
    refine (pad_mend (cp := { cp' with stores := cp'.stores + 1, home := cp'.home ++ [h] }) (q := q) ?_ hb x).trans ?_
    · show cp'.pad? p = _
      rw [← hq, Copy.pad?, Copy.pad?, pads]
    · simp only [Copy.pad?, pads]

theorem fenceLags_eq (k : CoreRef) (n : Nat) : ∃ gs, s.fenceLags k n = { s with lags := gs } := by
  unfold State.fenceLags
  split <;> exact ⟨_, rfl⟩

/-- An atomic at the core's own scratchpad at rest. -/
theorem amoPadAct_own {x : Amo} {acq : Bool} {o : OpDesc} (hl : s.launch? k.lid = some l) (hp : s.copy? k = some cp) (hc : s.core? k = some c)
    (hq : cp.pad? (.usp c.rank) = some q) (hb : q.mem.badIn off x.n = false) (hr : cp.atRest) :
    ∃ t, amoPadAct k x acq o (.usp c.rank) off s = .ok (oldWords (q.mem.bytes off x.n), t) ∧
      BankWritten s t k cp c (amoStore k cp (.usp c.rank) off (x.apply (q.mem.bytes off x.n)) acq) := by
  have port := (hr.2 c (rank_of_core hp hc).2).1
  have sound : badTrap s (ctlAcc k) cp c (.pad (.usp c.rank) off) x.n .atomic none = none := badTrap_own hq hb
  have free : c.portTouches (.usp c.rank) off x.n = false := by rw [Core.portTouches, port]; rfl
  have here : (decide (l.packet.prot = 2) && PadId.usp c.rank != PadId.usp c.rank) = false := by rw [bne_self_eq_false, Bool.and_false]
  have len : (x.apply (q.mem.bytes off x.n)).length = x.n := natLe_length _ _
  obtain ⟨t, bank, written⟩ := amoBank_run (old := q.mem.bytes off x.n) (bs := x.apply (q.mem.bytes off x.n)) (acq := acq) hl hp hc hr.1 hq (by rwa [len])
  refine ⟨t, ?_, written⟩
  unfold amoPadAct
  rw [bind_ok get_run, bind_ok (ctxOf_run hl hp hc)]
  simp only [sound, free, here, Option.isSome_none, raiseIf_false, holdIf_false, pure_bind_act, Bool.false_eq_true, if_false, lastBytes_rest hr.1 hq]
  rw [bind_ok bank]
  rfl

/-- R127: the checks of an atomic of a control core, the order it makes (R128), and its effect at the core's own scratchpad. -/
theorem amoCore_own {x : Amo} {p : Word} {ord : BitVec 2} {o : OpDesc} (ht : s.CoreTurn k l cp c) (h : OwnPlace cp c q p x.n x.n off)
    (hb : q.mem.badIn off x.n = false) (hr : cp.atRest) : ∃ t, amoCore x p ord o s = .ok (oldWords (q.mem.bytes off x.n), t) ∧
      BankWritten s t k cp c (amoStore k cp (.usp c.rank) off (x.apply (q.mem.bytes off x.n)) (ord == 1#2)) := by
  have hctx := ctxOf_run ht.launch ht.copy ht.core
  have port := (hr.2 c (rank_of_core ht.copy ht.core).2).1
  have place : checkPtr (ctlAcc k) p x.n x.n .atomic s = .ok (.pad (.usp c.rank) off, s) := by
    unfold checkPtr
    rw [bind_ok (show ctxOf (ctlAcc k).k s = _ from hctx)]
    dsimp only
    rw [checkPlace_own h]
    rfl
  have near : resolve (ctlAcc k) (.pad (.usp c.rank) off) x.n .atomic [] s = .ok ([(.pad (.usp c.rank) off, x.n)], s) := rfl
  have settled : s.settledAt k cp c 0 = true := (settledAt_iff 0).2 ⟨port, fun _ hm => absurd hm (by rw [hr.1]; exact List.not_mem_nil), fun h => absurd h (by decide)⟩
  have scope : amoScope c none (.pad (.usp c.rank) off) = 0 := if_pos rfl
  have act (gs : List LagWrite) : ∃ t, amoPadAct k x (ord == 1#2) o (.usp c.rank) off { s with lags := gs } = .ok (oldWords (q.mem.bytes off x.n), t) ∧
      BankWritten s t k cp c (amoStore k cp (.usp c.rank) off (x.apply (q.mem.bytes off x.n)) (ord == 1#2)) := by
    obtain ⟨t, run, written⟩ := amoPadAct_own (s := { s with lags := gs }) (x := x) (acq := ord == 1#2) (o := o) ht.launch ht.copy ht.core h.pad hb hr
    exact ⟨t, run, written.core, written.others, written.home, written.pads, written.rest⟩
  unfold amoCore
  rw [bind_ok (theCore_turn ht)]
  dsimp only
  rw [bind_ok place, bind_ok near, bind_ok hctx, bind_ok get_run]
  simp only [List.head?_cons, Option.map_some, Option.getD_some, scope, settled, Bool.not_true, Bool.and_false, holdIf_false, pure_bind_act]
  split
  · obtain ⟨gs, e⟩ := fenceLags_eq (s := s) k 0
    rw [bind_ok (modify_run _), e]
    exact act gs
  · exact act s.lags

theorem amoOf_own (hm : amoOf i = some m) (ht : s.CoreTurn k l cp c) (h : OwnPlace cp c q (c.regs.get m.rb) m.n m.n off) (hb : q.mem.badIn off m.n = false)
    (hr : cp.atRest) {new : Nat}
    (hnew : new = m.new (leNat (q.mem.bytes off m.n)) ((c.regs.get m.ra).toNat % 2 ^ (8 * m.n)) ((c.regs.get m.rd).toNat % 2 ^ (8 * m.n))) :
    ∃ t, exec i s = .next t ∧ BankWritten s t k cp { c with regs := (c.regs.set m.rd (m.ret (leNat (q.mem.bytes off m.n)))).skip 4 }
      (amoStore k cp (.usp c.rank) off (natLe m.n new) (m.ord == 1#2)) := by
  have regs : s.regs? = some c.regs := by
    rw [State.regs?, ht.cur]
    exact congrArg (Option.map _) ht.core
  obtain ⟨x, w, run, width, leaves, returns⟩ := exec_amoOf hm regs
  have len := bytes_length q.mem off m.n
  rw [run, hnew, ← leaves _ len, ← returns _ len]
  rw [← width] at h hb ⊢
  obtain ⟨t, done, written⟩ := amoCore_own (ord := m.ord) (o := { op := 1, w1 := c.regs.get m.rb, w2 := c.regs.get m.ra, w3 := c.regs.get m.rd }) ht h hb hr
  let old := w (oldWords (q.mem.bytes off x.n)).1
  have set := written.step (fun x => { x with regs := x.regs.set m.rd old }) (fun _ => rfl) fun _ => rfl
  refine ⟨(t.modCore k fun x => { x with regs := x.regs.set m.rd old }).modCore k fun x => { x with regs := x.regs.skip 4 }, ?_,
    set.step (fun x => { x with regs := x.regs.skip 4 }) (fun _ => rfl) fun _ => rfl⟩
  obtain ⟨-, -, -, -, -, -, -, -, -, cur⟩ := written
  unfold amo
  rw [scalar_on regs (guard_zero _), runAct_adv (s' := t.modCore k fun x => { x with regs := x.regs.set m.rd old }), ht.cur]
  · rfl
  · rw [bind_ok get_run]
    simp only [ht.cur]
    rw [bind_ok done]
    refine (bind_ok (setX_run _ _)).trans ?_
    rw [State.modRegs, cur, ht.cur]
    rfl

/-- Settles O19. -/
theorem atomicResults : Obligations.AtomicResults := by
  refine ⟨fun i m s a r off hm hc hr h hk hb hw hs => amoOf_anole hm hc hr h hk hb hw hs,
    fun d ra rb o s a r off old x hc hr h hk hb hw hs hold hx => amoAdd128_anole hc hr h hk hb hw hs hold hx,
    fun i m s k l cp c q off new hm ht h hb hr hnew => ?_⟩
  obtain ⟨t, run, core, others, home, pads, dram, cwnN, cwnS, sys, anoles, -⟩ := amoOf_own hm ht h hb hr hnew
  refine ⟨t, run, core, others, home.trans ?_, pads, dram, cwnN, cwnS, sys, anoles⟩
  simp only [amoStore, beq_iff_eq]

end Sys2Proof.Proofs
end

section
/-! A queue at its home takes a packet: what the three steps of R272 leave, and what they keep. -/

namespace Sys2Proof.Proofs

open Sys2Proof.Machine Sys2Proof.Laws

variable {s t u : State} {q : BitVec 12} {h : Word} {bs : List Byte}

/-! ### What is kept -/

/-- What a queue's update keeps: the launches, the coherent window, the link, and every Anole core that waits for nothing. -/
structure QueueKeeps (s t : State) : Prop where
  launches : t.launches = s.launches
  cwnN : t.cwnN = s.cwnN
  cwnS : t.cwnS = s.cwnS
  link : t.link = s.link
  cc : t.cc = s.cc
  cur : t.cur = s.cur
  sched : t.sched = s.sched
  anole : ∀ i : Fin 16, s.anoles[i.val].waits = false → t.anoles[i.val] = s.anoles[i.val]

theorem QueueKeeps.refl (s : State) : QueueKeeps s s := ⟨rfl, rfl, rfl, rfl, rfl, rfl, rfl, fun _ _ => rfl⟩

theorem QueueKeeps.trans (a : QueueKeeps s t) (b : QueueKeeps t u) : QueueKeeps s u :=
  ⟨b.launches.trans a.launches, b.cwnN.trans a.cwnN, b.cwnS.trans a.cwnS, b.link.trans a.link, b.cc.trans a.cc, b.cur.trans a.cur, b.sched.trans a.sched,
    fun i hi => (b.anole i (by rw [a.anole i hi]; exact hi)).trans (a.anole i hi)⟩

/-- Without an Anole core that waits, no Anole core has changed. -/
theorem QueueKeeps.anoles (a : QueueKeeps s t) (hw : ∀ i : Fin 16, s.anoles[i.val].waits = false) : t.anoles = s.anoles :=
  Vector.ext fun i hi => a.anole ⟨i, hi⟩ (hw ⟨i, hi⟩)

/-- The same, and SYS space and device memory too. -/
structure QueueQuiet (s t : State) : Prop extends QueueKeeps s t where
  sys : t.sys = s.sys
  dram : t.dram = s.dram

theorem QueueQuiet.trans (a : QueueQuiet s t) (b : QueueQuiet t u) : QueueQuiet s u := ⟨a.toQueueKeeps.trans b.toQueueKeeps, b.sys.trans a.sys, b.dram.trans a.dram⟩

/-- One Anole core's turn when a packet is published (R166). -/
def wakeOne (t : State) (i : Nat) : State :=
  if t.anoles[(BitVec.ofNat 4 i).toNat].waits then
    if Config.freeBool t.freeCtr then State.modAnole { t with freeCtr := t.freeCtr + 1 } (BitVec.ofNat 4 i) Anole.wake else { t with freeCtr := t.freeCtr + 1 }
  else t

theorem wakeAnoles_eq (s : State) : s.wakeAnoles = (List.range 16).foldl wakeOne s := rfl

theorem wakeOne_quiet (t : State) (i : Nat) : QueueQuiet t (wakeOne t i) := by
  unfold wakeOne
  split
  next hw =>
    split
    · refine ⟨⟨rfl, rfl, rfl, rfl, rfl, rfl, rfl, fun j hj => Vector.getElem_set_ne (BitVec.ofNat 4 i).isLt j.isLt fun e => ?_⟩, rfl, rfl⟩
      simp only [e, hj, Bool.false_eq_true] at hw
    · exact ⟨⟨rfl, rfl, rfl, rfl, rfl, rfl, rfl, fun _ _ => rfl⟩, rfl, rfl⟩
  · exact ⟨.refl t, rfl, rfl⟩

theorem wakeAnoles_quiet (s : State) : QueueQuiet s s.wakeAnoles := by
  rw [wakeAnoles_eq]
  refine List.foldlRecOn _ wakeOne (motive := QueueQuiet s) ⟨.refl s, rfl, rfl⟩ fun t ht i _ => ht.trans (wakeOne_quiet t i)

theorem sysPut_keeps (s : State) (o : Nat) (v : Word) : QueueKeeps s (s.sysPut o v) := ⟨rfl, rfl, rfl, rfl, rfl, rfl, rfl, fun _ _ => rfl⟩

theorem modAux_quiet (s : State) (q : BitVec 12) (f : QueueAux → QueueAux) : QueueQuiet s (s.modAux q f) :=
  ⟨⟨rfl, rfl, rfl, rfl, rfl, rfl, rfl, fun _ _ => rfl⟩, rfl, rfl⟩

/-! ### The indices move on -/

/-- The words of a queue's descriptor after the indices moved. -/
theorem indexUpdate_moves (ok : s.sysOk) {n cack : Nat} (fits : n ≤ min (s.qRead q) cack + s.qSlots q) (ack : cack ≤ s.qRead q) (claim : s.qClaim q ≤ n)
    (write : s.qWrite q ≤ n) (cacks : s.qCack q ≤ cack) : QueueKeeps s (s.indexUpdate q n n cack) ∧ (s.indexUpdate q n n cack).dram = s.dram ∧ (s.indexUpdate q n n cack).sysOk ∧
      ∀ p, (s.indexUpdate q n n cack).sysW p = if p / 8 = (qdOff q + 56) / 8 then BitVec.ofNat 64 cack else if p / 8 = (qdOff q + 24) / 8 then BitVec.ofNat 64 n else
        if p / 8 = (qdOff q + 16) / 8 then BitVec.ofNat 64 n else s.sysW p := by
  obtain ⟨u, hu⟩ : ∃ u, u = (((s.sysPut (qdOff q + 16) (BitVec.ofNat 64 n)).sysPut (qdOff q + 24) (BitVec.ofNat 64 n)).sysPut (qdOff q + 56) (BitVec.ofNat 64 cack)) := ⟨_, rfl⟩
  have ok1 := sysOk_sysPut ok (qdOff q + 16) (BitVec.ofNat 64 n)
  have ok2 := sysOk_sysPut ok1 (qdOff q + 24) (BitVec.ofNat 64 n)
  have keeps : QueueKeeps s u := hu ▸ ((sysPut_keeps s _ _).trans (sysPut_keeps _ _ _)).trans (sysPut_keeps _ _ _)
  have run : QueueQuiet u (s.indexUpdate q n n cack) := by
    unfold State.indexUpdate
    dsimp only
    rw [if_pos (by rw [min_eq_right ack] at *; simp [fits, ack, claim, write, cacks]), ← hu]
    split
    · exact (modAux_quiet u q _).trans (wakeAnoles_quiet _)
    · exact modAux_quiet u q _
  refine ⟨keeps.trans run.toQueueKeeps, run.dram.trans (hu ▸ rfl), ?_, fun p => (sysW_congr run.sys p).trans ?_⟩
  · rw [State.sysOk, run.sys, hu]
    exact sysOk_sysPut ok2 _ _
  · rw [hu, sysW_sysPut ok2, sysW_sysPut ok1, sysW_sysPut ok]

/-! ### The packet is published -/

theorem moveRing_keeps (s : State) (q : BitVec 12) (d : Nat) : QueueKeeps s (s.moveRing q d) := ⟨rfl, rfl, rfl, rfl, rfl, rfl, rfl, fun _ _ => rfl⟩

theorem published_active (h : s.qState q = 1) : s.published q = s := if_neg (by rw [h]; decide)

/-- The ring of a parked queue moves back, and the queue is active; of SYS space only the first two words of its descriptor change. -/
theorem published_parked (ok : s.sysOk) (h : s.qState q = 2) : QueueKeeps s (s.published q) ∧ (s.published q).qState q = 1 ∧
    ∀ p, p / 8 ≠ qdOff q / 8 → p / 8 ≠ (qdOff q + 8) / 8 → (s.published q).sysW p = s.sysW p := by
  obtain ⟨u, hu, keeps, oku, words⟩ : ∃ u, s.published q = u.qSetState q 1 ∧ QueueKeeps s u ∧ u.sysOk ∧ ∀ p, p / 8 ≠ qdOff q / 8 → u.sysW p = s.sysW p := by
    unfold State.published
    rw [if_pos h]
    split
    next r _ =>
      refine ⟨_, rfl, (moveRing_keeps s q _).trans (modAux_quiet _ q _).toQueueKeeps, ?_, fun p hp => (sysW_congr (modAux_quiet _ q _).sys p).trans ?_⟩
      · exact sysOk_sysPut (s := s.moveBytes (s.qRing q) (r.toNat / 4096 * 4096) (64 * s.qSlots q)) ok (qdOff q) (BitVec.ofNat 64 (r.toNat / 4096 * 4096))
      · exact sysW_sysPut_ne (s := s.moveBytes (s.qRing q) (r.toNat / 4096 * 4096) (64 * s.qSlots q)) ok hp _
    · exact ⟨s, rfl, .refl s, ok, fun _ _ => rfl⟩
  rw [hu]
  exact ⟨keeps.trans (sysPut_keeps u _ _), sysF_sysSetF_same oku (by decide) 1, fun p h0 h8 => (sysW_sysPut_ne oku h8 _).trans (words p h0)⟩

/-! ### The three steps (R272) -/

/-- The status of an ENQ, by the queue that its handle names. -/
theorem enqStatus_eq (hq : q = BitVec.ofNat 12 (h.toNat % 2 ^ 16)) : s.enqStatus h =
    if h.toNat / 2 ^ 60 ≠ 0 ∨ h.toNat / 2 ^ 32 % 2 ^ 16 ≠ 0 ∨ 4096 ≤ h.toNat % 2 ^ 16 then 0x0F
    else if s.qState q = 0 ∨ s.qState q = 3 ∨ (s.qGen q).toNat ≠ h.toNat / 2 ^ 16 % 2 ^ 16 then 0x0F
    else if s.qClaim q ≠ s.qWrite q ∨ min (s.qRead q) (s.qCack q) + 2 ^ s.qLsize q ≤ s.qClaim q then 0x80 else 0 := by
  unfold State.enqStatus
  dsimp only
  rw [← hq, ← ite_or]
  simp only [or_assoc]

/-- ENQ at the home: the status, and the packet in the slot where it is 0. -/
theorem enqueueAt_eq (hq : q = BitVec.ofNat 12 (h.toNat % 2 ^ 16)) : s.enqueueAt h bs = (s.enqStatus h, if s.enqStatus h = 0 then
    ((s.dramPut (s.slotAt q (s.qClaim q)) bs).indexUpdate q (s.qClaim q + 1) (s.qClaim q + 1) (s.qCack q)).published q else s) := by
  have top : h.toNat / 2 ^ 60 % 2 ^ 4 = h.toNat / 2 ^ 60 := Nat.mod_eq_of_lt (by have := h.isLt; omega)
  unfold State.enqueueAt
  simp only [fieldNat_eq, pow_zero, Nat.div_one, ← hq, Bool.or_eq_true, decide_eq_true_eq, State.qSlots, top, or_assoc]
  generalize State.published _ q = t
  rw [enqStatus_eq hq]
  split
  · rw [if_neg (by decide)]
  split
  · rw [if_neg (by decide)]
  split
  · rw [if_neg (by decide)]
  · rw [if_pos rfl]

/-- What a status of 0 says of the queue. -/
theorem enqStatus_zero (hq : q = BitVec.ofNat 12 (h.toNat % 2 ^ 16)) (h0 : s.enqStatus h = 0) :
    (s.qState q = 1 ∨ s.qState q = 2) ∧ s.qClaim q = s.qWrite q ∧ s.qClaim q < min (s.qRead q) (s.qCack q) + 2 ^ s.qLsize q := by
  have state : s.qState q < 2 ^ 2 := by rw [State.qState, State.sysF, fieldNat_eq]; exact Nat.mod_lt _ (by decide)
  rw [enqStatus_eq hq] at h0
  split at h0
  · cases h0
  split at h0
  · cases h0
  split at h0
  · cases h0
  · omega

/-- A queue takes the packet: its slot and its indices, and what it keeps. -/
theorem enqueueAt_accepts (hq : q = BitVec.ofNat 12 (h.toNat % 2 ^ 16)) (h0 : s.enqStatus h = 0) (ok : s.sysOk) (ack : s.qCack q ≤ s.qRead q)
    (fits : s.qClaim q + 1 < 2 ^ 64) : QueueKeeps s (s.enqueueAt h bs).2 ∧ Accepted s (s.enqueueAt h bs).2 q bs := by
  obtain ⟨state, claim, space⟩ := enqStatus_zero hq h0
  obtain ⟨p, hp⟩ : ∃ p, p = s.dramPut (s.slotAt q (s.qClaim q)) bs := ⟨_, rfl⟩
  have keeps : QueueKeeps s p := hp ▸ ⟨rfl, rfl, rfl, rfl, rfl, rfl, rfl, fun _ _ => rfl⟩
  have sys : p.sys = s.sys := hp ▸ rfl
  have word (o : Nat) : p.sysW o = s.sysW o := sysW_congr sys o
  have okp : p.sysOk := by rw [State.sysOk, sys]; exact ok
  obtain ⟨moved, dram, okt, words⟩ := indexUpdate_moves (s := p) (q := q) okp (n := s.qClaim q + 1) (cack := s.qCack q)
    (by simpa only [State.qRead, State.qSlots, State.qLsize, State.sysF, word] using Nat.succ_le_of_lt space) (by simpa only [State.qRead, word] using ack)
    (by simp only [State.qClaim, word, Nat.le_add_right]) (by simp only [State.qWrite, word]; exact claim.ge.trans (Nat.le_succ _)) (by simp only [State.qCack, word, le_refl])
  rw [enqueueAt_eq hq, if_pos h0, ← hp]
  obtain ⟨t, ht⟩ : ∃ t, t = p.indexUpdate q (s.qClaim q + 1) (s.qClaim q + 1) (s.qCack q) := ⟨_, rfl⟩
  rw [← ht] at moved dram okt words ⊢
  have wt (o : Nat) := (words o).trans (by rw [word o])
  have small (n : Nat) (hn : n < 2 ^ 64) : (BitVec.ofNat 64 n).toNat = n := by rw [BitVec.toNat_ofNat, Nat.mod_eq_of_lt hn]
  have tstate : t.qState q = s.qState q := by
    rw [State.qState, State.qState, State.sysF, State.sysF, wt, if_neg (by omega), if_neg (by omega), if_neg (by omega)]
  obtain ⟨u, hu, more, ustate, same, slot⟩ : ∃ u, u = t.published q ∧ QueueKeeps t u ∧ u.qState q = 1 ∧
      (∀ p, p / 8 ≠ qdOff q / 8 → p / 8 ≠ (qdOff q + 8) / 8 → u.sysW p = t.sysW p) ∧ (s.qState q = 1 → u.dram = t.dram) := by
    rcases state with h1 | h2
    · exact ⟨t, (published_active (tstate.trans h1)).symm, .refl t, tstate.trans h1, fun _ _ _ => rfl, fun _ => rfl⟩
    · obtain ⟨k, st, w⟩ := published_parked okt (tstate.trans h2)
      exact ⟨_, rfl, k, st, w, fun h1 => by omega⟩
  rw [← hu]
  have word' (o : Nat) (h0 : o / 8 ≠ qdOff q / 8) (h8 : o / 8 ≠ (qdOff q + 8) / 8) := (same o h0 h8).trans (wt o)
  have base : qdOff q % 64 = 0 := by unfold qdOff; omega
  refine ⟨(keeps.trans moved).trans more, ⟨?_, ?_, ?_, ?_, ustate⟩, fun h1 => (slot h1).trans (dram.trans (hp ▸ rfl)), fun off hoff => ?_⟩
  · rw [State.qClaim, word' _ (by omega) (by omega), if_neg (by omega), if_neg (by omega), if_pos rfl, small _ fits]
  · rw [State.qWrite, word' _ (by omega) (by omega), if_neg (by omega), if_pos rfl, small _ fits, claim]
  · rw [State.qRead, word' _ (by omega) (by omega), if_neg (by omega), if_neg (by omega), if_neg (by omega)]; rfl
  · rw [State.qCack, word' _ (by omega) (by omega), if_pos rfl]; exact small _ (s.sysW _).isLt
  · rw [word' _ (by omega) (by omega), if_neg (by omega), if_neg (by omega), if_neg (by omega)]

/-- Without the status 0 nothing changes. -/
theorem enqueueAt_refuses (h0 : s.enqStatus h ≠ 0) : s.enqueueAt h bs = (s.enqStatus h, s) := by rw [enqueueAt_eq rfl, if_neg h0]

theorem enqueueAt_status (s : State) (h : Word) (bs : List Byte) : (s.enqueueAt h bs).1 = s.enqStatus h := by rw [enqueueAt_eq rfl]

end Sys2Proof.Proofs
end

section
/-! Requests from other nodes at their home (R397 to R400): the checks, what is done, and the answer. -/

namespace Sys2Proof.Proofs

open Sys2Proof.Machine Sys2Proof.Laws

variable {s t : State} {m : LinkMsg} {mm d n : Nat} {r : Right} {act : Nat → State → State}

/-! ### Answers -/

theorem livePorts_lt (s : State) (n : BitVec 12) : s.livePorts n < 2 ^ 18 := by
  refine Nat.and_lt_two_pow _ ?_
  rw [State.sysF, fieldNat_eq]
  exact Nat.mod_lt _ (by decide)

/-- The port that a message takes is up (R398). -/
theorem portFor_live {n : BitVec 12} (h : s.reachable n = true) (key : Nat) : (s.livePorts n).testBit (s.portFor n key) = true := by
  obtain ⟨L, hL⟩ : ∃ L, L = (List.range 18).filter fun i => (s.livePorts n).testBit i := ⟨_, rfl⟩
  obtain ⟨i, hi⟩ := Nat.exists_testBit_of_ne_zero (bne_iff_ne.1 h)
  have below : i < 18 := (Nat.pow_lt_pow_iff_right (by decide)).1 ((Nat.ge_two_pow_of_testBit hi).trans_lt (livePorts_lt s n))
  have mem : i ∈ L := hL ▸ List.mem_filter.2 ⟨List.mem_range.2 below, hi⟩
  have pos : 0 < L.length := List.length_pos_of_mem mem
  have inside : Config.portHash s.node.toNat n.toNat key % max 1 L.length < L.length := by
    rw [max_eq_right pos]
    exact Nat.mod_lt _ pos
  have chosen (y : Nat) (hy : y ∈ L) : (s.livePorts n).testBit y = true := (List.mem_filter.1 (hL ▸ hy)).2
  unfold State.portFor
  rw [← hL, List.getD_eq_getElem _ _ inside]
  exact chosen _ (List.getElem_mem inside)

/-- A message is kept in the link alone. -/
theorem transmit_link (s : State) (m : LinkMsg) : ∃ L, s.transmit m = { s with link := L } := by
  unfold State.transmit
  split
  · exact ⟨s.link, rfl⟩
  · dsimp only
    split
    · exact ⟨_, rfl⟩
    · exact ⟨_, rfl⟩

theorem respond_link (t : State) (m : LinkMsg) (op : Nat) (st : Byte) (bs : List Byte) : ∃ L, t.respond m op st bs = { t with link := L } := transmit_link ..

/-- The answer to a request, with its tag. -/
def answerTo (m : LinkMsg) (op : Nat) (st : Byte) (bs : List Byte) : LinkMsg :=
  { dst := m.src, src := m.dst, part := m.part, vc := 1#2, op := BitVec.ofNat 6 op, tag := m.tag, stat := st, len := BitVec.ofNat 8 (bs.length / 4), addr := m.addr, payload := bs }

/-- The home answers from a state whose link and routes are those of the request's. -/
theorem respond_answered (h : s.answers m) (link : t.link = s.link) (live : t.livePorts m.src = s.livePorts m.src) {op : Nat} (hop : op < 2 ^ 6) (st : Byte)
    (bs : List Byte) : linkAnswered s (t.respond m op st bs) m op st bs := by
  obtain ⟨reach, pauses, held⟩ := h
  have reach' : t.reachable m.src = true := by rw [State.reachable, live]; exact reach
  have run : t.respond m op st bs = { t with link := { t.link with out := t.link.out ++ [(t.portFor m.src (linkKey (answerTo m op st bs)), answerTo m op st bs)] } } := by
    unfold State.respond State.transmit
    rw [if_neg (by rw [reach']; decide)]
    exact if_neg (by simp [State.linkBlocked, link, pauses, held])
  rw [run]
  exact ⟨_, answerTo m op st bs, congrArg (fun L => L.out ++ _) link, portFor_live reach' _, rfl, rfl, rfl, rfl, (BitVec.toNat_ofNat ..).trans (Nat.mod_eq_of_lt hop), rfl, rfl⟩

/-- An answer to what has changed nothing that the answer needs. -/
theorem answered_keeps (h : s.answers m) (link : t.link = s.link) (live : t.livePorts m.src = s.livePorts m.src) {op : Nat} (hop : op < 2 ^ 6) (st : Byte) (bs : List Byte) :
    ∃ L, t.respond m op st bs = { t with link := L } ∧ linkAnswered s { t with link := L } m op st bs := by
  obtain ⟨L, e⟩ := respond_link t m op st bs
  exact ⟨L, e, e ▸ respond_answered h link live hop st bs⟩

theorem nack_answered (h : s.answers m) : ∃ L, s.nack m = { s with link := L } ∧ linkAnswered s { s with link := L } m 10 0x05#8 [] :=
  answered_keeps h rfl rfl (by decide) _ _

/-! ### The checks -/

theorem serveMem_nack (h : s.link.nodeSet = false ∨ (m.dst = s.node ∧ s.remoteMaster m = none)) : s.serveMem m n r act = s.nack m := by
  unfold State.serveMem
  rcases h with h | ⟨hd, hm⟩
  · rw [if_pos (by rw [h]; rfl)]
  · split
    · rfl
    · rw [if_neg (by simp [hd]), hm]

theorem serveMem_other (h : s.link.nodeSet = true) (hd : m.dst ≠ s.node) : s.serveMem m n r act = s := by
  unfold State.serveMem
  rw [if_neg (by rw [h]; decide), if_pos hd]

/-- A place that is none of the device's memory, or no right to it. -/
theorem serveMem_denied (h : s.link.nodeSet = true) (hd : m.dst = s.node) (hm : s.remoteMaster m = some mm) (e : d = m.addr.toNat % 2 ^ 48)
    (bad : dpaOk d = false ∨ d % n ≠ 0 ∨ s.dpaRight mm d r = false) : s.serveMem m n r act = s.nack m := by
  have place : linkDpa m = d := by rw [linkDpa, fieldNat_eq, pow_zero, Nat.div_one, e]
  unfold State.serveMem
  rw [if_neg (by rw [h]; decide), if_neg (by simp [hd]), hm]
  dsimp only
  rw [place, if_pos]
  rcases bad with h | h | h <;> simp [h]

theorem serveMem_serves (h : s.LinkServes m mm d n r) : s.serveMem m n r act = act d s := by
  obtain ⟨⟨set, dst⟩, master, ⟨e, first, last, aligned⟩, right, ready, -, -⟩ := h
  have place : linkDpa m = d := by rw [linkDpa, fieldNat_eq, pow_zero, Nat.div_one, e]
  unfold State.serveMem
  rw [if_neg (by rw [set]; decide), if_neg (by simp [dst]), master]
  dsimp only
  rw [place, if_neg (by simp [first, last, aligned, right]), if_neg (by simp [ready])]

/-! ### Masked writes -/

/-- The runs of a list are written one after the other. -/
def putRuns (M : Store) (d : Nat) (rs : List (Nat × List Byte)) : Store := rs.foldl (fun M r => M.put (d + r.1) r.2) M

/-- Runs that agree with one line of bytes leave its bytes where they reach. -/
theorem putRuns_get {M : Store} (wf : M.wf = true) (F : Nat → Byte) (rs : List (Nat × List Byte)) (agree : ∀ r ∈ rs, ∀ j (h : j < r.2.length), r.2[j] = F (r.1 + j)) (x : Nat) :
    ((∃ r ∈ rs, d + r.1 ≤ x ∧ x < d + r.1 + r.2.length) → (putRuns M d rs).get x = F (x - d)) ∧
      ((∀ r ∈ rs, ¬ (d + r.1 ≤ x ∧ x < d + r.1 + r.2.length)) → (putRuns M d rs).get x = M.get x) := by
  induction rs generalizing M with
  | nil => exact ⟨fun ⟨r, h, _⟩ => absurd h (List.not_mem_nil), fun _ => rfl⟩
  | cons r rs ih =>
    obtain ⟨inside, outside⟩ := ih (wf_put wf (d + r.1) r.2) fun y hy => agree y (List.mem_cons_of_mem r hy)
    have step : putRuns M d (r :: rs) = putRuns (M.put (d + r.1) r.2) d rs := rfl
    rw [step]
    refine ⟨fun reach => ?_, fun none => ?_⟩
    · by_cases later : ∃ y ∈ rs, d + y.1 ≤ x ∧ x < d + y.1 + y.2.length
      · exact inside later
      · have here : d + r.1 ≤ x ∧ x < d + r.1 + r.2.length := by
          obtain ⟨y, hy, hx⟩ := reach
          rcases List.mem_cons.1 hy with rfl | hy
          · exact hx
          · exact absurd ⟨y, hy, hx⟩ later
        rw [outside fun y hy hx => later ⟨y, hy, hx⟩]
        obtain ⟨j, rfl⟩ := Nat.exists_eq_add_of_le here.1
        rw [get_put_in wf _ j _ (by omega), agree r (List.mem_cons_self ..) j (by omega)]
        congr 1
        omega
    · rw [outside fun y hy => none y (List.mem_cons_of_mem r hy), get_put_out wf _ _ _ (by have := none r (List.mem_cons_self ..); omega)]

theorem getElem_natLe (n v j : Nat) (h : j < (natLe n v).length) : (natLe n v)[j] = BitVec.ofNat 8 (v / 2 ^ (8 * j)) := by
  induction n generalizing v j with
  | zero => cases h
  | succ n ih =>
    cases j with
    | zero => simp [natLe]
    | succ j =>
      simp only [natLe, List.getElem_cons_succ, ih]
      rw [Nat.div_div_eq_div_mul, show 8 * (j + 1) = 8 + 8 * j by omega, pow_add]
      rfl

/-- A byte of a line. -/
def lineByte (data : BitVec 512) (y : Nat) : Byte := data.extractLsb' (8 * y) 8

theorem lineByte_ofNat (N : Nat) {y : Nat} (hy : y < 64) : lineByte (BitVec.ofNat 512 N) y = BitVec.ofNat 8 (N / 2 ^ (8 * y)) := by
  refine BitVec.eq_of_getLsbD_eq fun b hb => ?_
  rw [lineByte, BitVec.getLsbD_extractLsb', BitVec.getLsbD_ofNat, BitVec.getLsbD_ofNat, Nat.testBit_div_two_pow, decide_eq_true hb,
    decide_eq_true (show 8 * y + b < 512 by omega), Bool.true_and, Bool.true_and, Bool.true_and, Nat.add_comm]

theorem maskedRuns_agree (mask : BitVec 64) (data : BitVec 512) : ∀ r ∈ maskedRuns mask data, ∀ j (h : j < r.2.length), r.2[j] = lineByte data (r.1 + j) := by
  intro r hr
  obtain ⟨i, -, hr⟩ := List.mem_flatMap.1 hr
  split at hr
  · obtain rfl := List.mem_singleton.1 hr
    intro j h
    rw [natLe_length] at h
    simp only [getElem_natLe, lineByte]
    refine BitVec.eq_of_getLsbD_eq fun b hb => ?_
    rw [BitVec.getLsbD_ofNat, BitVec.getLsbD_extractLsb', Nat.testBit_div_two_pow, fieldNat_eq, Nat.testBit_mod_two_pow, Nat.testBit_div_two_pow, BitVec.getLsbD,
      decide_eq_true hb, decide_eq_true (show b + 8 * j < 64 by omega), Bool.true_and, Bool.true_and, Bool.true_and]
    congr 1
    omega
  · obtain ⟨j, -, rfl⟩ := List.mem_map.1 hr
    intro j h
    obtain rfl : j = 0 := by simpa using h
    rfl

/-- The bits of eight bytes of the mask that are all set. -/
theorem maskByte_full {mask : BitVec 64} {i : Nat} (h : mask.extractLsb' (8 * i) 8 = 0xFF#8) {j : Nat} (hj : j < 8) : mask.getLsbD (8 * i + j) = true := by
  have bit := congrArg (BitVec.getLsbD · j) h
  simp only [BitVec.getLsbD_extractLsb', decide_eq_true hj, Bool.true_and] at bit
  rw [bit]
  interval_cases j <;> rfl

theorem maskedRuns_reach (mask : BitVec 64) (data : BitVec 512) (y : Nat) : (∃ r ∈ maskedRuns mask data, r.1 ≤ y ∧ y < r.1 + r.2.length) ↔ mask.getLsbD y = true := by
  constructor
  · rintro ⟨r, hr, lo, hi⟩
    obtain ⟨i, -, hr⟩ := List.mem_flatMap.1 hr
    split at hr
    next full =>
      obtain rfl := List.mem_singleton.1 hr
      rw [natLe_length] at hi
      obtain ⟨j, rfl⟩ := Nat.exists_eq_add_of_le lo
      exact maskByte_full full (by omega)
    next =>
      obtain ⟨j, hj, rfl⟩ := List.mem_map.1 hr
      obtain rfl : y = 8 * i + j := Nat.le_antisymm (Nat.le_of_lt_succ hi) lo
      exact (List.mem_filter.1 hj).2
  · intro h
    have below : y < 64 := BitVec.lt_of_getLsbD h
    have split : 8 * (y / 8) + y % 8 = y := Nat.div_add_mod y 8
    by_cases full : mask.extractLsb' (8 * (y / 8)) 8 = 0xFF#8
    · refine ⟨_, List.mem_flatMap.2 ⟨y / 8, List.mem_range.2 (by omega), by rw [if_pos full]; exact List.mem_singleton_self _⟩, by dsimp only; omega, ?_⟩
      rw [natLe_length]
      dsimp only
      omega
    · refine ⟨(8 * (y / 8) + y % 8, [data.extractLsb' (8 * (8 * (y / 8) + y % 8)) 8]), List.mem_flatMap.2 ⟨y / 8, List.mem_range.2 (by omega), ?_⟩, ?_⟩
      · rw [if_neg full]
        exact List.mem_map.2 ⟨y % 8, List.mem_filter.2 ⟨List.mem_range.2 (Nat.mod_lt _ (by decide)), by rw [split]; exact h⟩, rfl⟩
      · simp [split]

theorem lagMasked_eq (s : State) (ws : List Nat) (d : Nat) (mask : BitVec 64) (data : BitVec 512) :
    ∃ ls oc, s.lagMasked ws d mask data = { s with dram := putRuns s.dram d (maskedRuns mask data), lags := ls, oldCode := oc } := by
  unfold State.lagMasked
  generalize maskedRuns mask data = rs
  induction rs generalizing s with
  | nil => exact ⟨s.lags, s.oldCode, rfl⟩
  | cons r rs ih =>
    obtain ⟨ls, oc, e⟩ := lagPut_eq s ws false (d + r.1) r.2
    rw [List.foldl_cons, e]
    exact ih _

/-- The bytes under the mask are written, the others stay. -/
theorem putRuns_masked {M : Store} (wf : M.wf = true) (mask : BitVec 64) (data : BitVec 512) (x : Nat) : (putRuns M d (maskedRuns mask data)).get x =
    if d ≤ x ∧ x < d + 64 ∧ mask.getLsbD (x - d) = true then lineByte data (x - d) else M.get x := by
  obtain ⟨inside, outside⟩ := putRuns_get (d := d) wf (lineByte data) _ (maskedRuns_agree mask data) x
  split
  next h =>
    obtain ⟨lo, -, bit⟩ := h
    obtain ⟨r, hr, below, above⟩ := (maskedRuns_reach mask data (x - d)).2 bit
    exact inside ⟨r, hr, by omega, by omega⟩
  next h =>
    refine outside fun r hr reach => h ?_
    have bit := (maskedRuns_reach mask data (x - d)).1 ⟨r, hr, by omega, by omega⟩
    have below : x - d < 64 := BitVec.lt_of_getLsbD bit
    exact ⟨by omega, by omega, bit⟩

/-! ### The requests -/

theorem linkRead_serves (h : s.LinkServes m mm d 64 .read) : ∃ t, exec (.linkRead m) s = .next t ∧ t.dram = s.dram ∧ t.launches = s.launches ∧
    (if s.dram.badIn d 64 = true then linkAnswered s t m 1 0x10#8 [] else linkAnswered s t m 1 0#8 (s.dram.bytes d 64)) := by
  show ∃ t, execLinkRead m s = .next t ∧ _
  unfold execLinkRead
  rw [serveMem_serves h]
  split
  · obtain ⟨L, e, a⟩ := answered_keeps (op := 1) h.answers rfl rfl (by decide) 0x10#8 []
    exact ⟨_, congrArg _ e, rfl, rfl, a⟩
  · have bytes : s.dpaBytes d 64 = s.dram.bytes d 64 := by rw [State.dpaBytes, if_pos (by rw [h.calm.1]; rfl)]
    rw [bytes]
    obtain ⟨L, e, a⟩ := answered_keeps (t := { s with lags := s.lags.map fun g => if g.touches d 64 then g.show linkAgent false else g }) (op := 1) h.answers rfl rfl
      (by decide) 0#8 (s.dram.bytes d 64)
    exact ⟨_, congrArg _ e, rfl, rfl, a⟩

theorem linkMaskedWrite_serves (h : s.LinkServes m mm d 64 .write) (wf : s.dram.wf = true) (good : s.dram.bad = []) : ∃ t, exec (.linkMaskedWrite m) s = .next t ∧
    linkAnswered s t m 3 0#8 [] ∧ t.launches = s.launches ∧ t.sys = s.sys ∧ ∀ x, t.dram.get x =
      if d ≤ x ∧ x < d + 64 ∧ (leNat (m.payload.take 8)).testBit (x - d) = true then BitVec.ofNat 8 (leNat ((m.payload.drop 8).take 64) / 2 ^ (8 * (x - d)))
      else s.dram.get x := by
  obtain ⟨mask, hmask⟩ : ∃ v : BitVec 64, v = BitVec.ofNat 64 (leNat (m.payload.take 8)) := ⟨_, rfl⟩
  obtain ⟨data, hdata⟩ : ∃ v : BitVec 512, v = BitVec.ofNat 512 (leNat ((m.payload.drop 8).take 64)) := ⟨_, rfl⟩
  show ∃ t, execLinkMaskedWrite m s = .next t ∧ _
  unfold execLinkMaskedWrite
  rw [serveMem_serves h]
  dsimp only
  rw [← hmask, ← hdata, if_neg (by simp [State.refuses, good]), overtake_none h.calm.1]
  obtain ⟨ls, oc, w⟩ := lagMasked_eq s [linkAgent] d mask data
  obtain ⟨L, e, a⟩ := answered_keeps (t := { s with dram := putRuns s.dram d (maskedRuns mask data), lags := ls, oldCode := oc }) (op := 3) h.answers rfl rfl (by decide) 0#8 []
  refine ⟨_, congrArg _ ?_, a, rfl, rfl, fun x => ?_⟩
  · rw [← e, w]
    congr 1
    unfold State.saveTouch
    rw [h.calm.2]
  · refine (putRuns_masked wf mask data x).trans ?_
    by_cases reach : d ≤ x ∧ x < d + 64
    · have below : x - d < 64 := by omega
      rw [hmask, BitVec.getLsbD_ofNat, decide_eq_true below, Bool.true_and, hdata, lineByte_ofNat _ below]
    · rw [if_neg fun h => reach ⟨h.1, h.2.1⟩, if_neg fun h => reach ⟨h.1, h.2.1⟩]

theorem linkAtomic_serves {x : Amo} (hx : amoOfPayload m.payload = some x) (hn : x.n = 4 ∨ x.n = 8 ∨ x.n = 16) (h : s.LinkServes m mm d x.n .atomic) (inDevice : d / 2 ^ 44 < 2) :
    (s.dram.badIn d x.n = true → ∃ t, exec (.linkAtomic m) s = .next t ∧ linkAnswered s t m 5 0x10#8 [] ∧ t.dram = s.dram) ∧
    (s.dram.badIn d x.n = false → ∃ t, exec (.linkAtomic m) s = .next t ∧ linkAnswered s t m 5 0#8 (natLe 16 (leNat (s.dram.bytes d x.n))) ∧
      t.dram = s.dram.put d (x.apply (s.dram.bytes d x.n)) ∧ t.launches = s.launches ∧ t.sys = s.sys) := by
  have run : exec (.linkAtomic m) s = .next (if s.dram.badIn d x.n then s.respond m 5 0x10#8 [] else
      (s.amoAt x d [linkAgent] false).2.respond m 5 0#8 (natLe 16 (leNat (s.amoAt x d [linkAgent] false).1))) := by
    show execLinkAtomic m s = _
    unfold execLinkAtomic
    rw [hx]
    dsimp only
    rw [if_neg (by simp; omega), serveMem_serves h, if_neg (by simp; omega)]
  rw [run]
  refine ⟨fun bad => ?_, fun good => ?_⟩
  · rw [if_pos bad]
    obtain ⟨L, e, a⟩ := answered_keeps (op := 5) h.answers rfl rfl (by decide) 0x10#8 []
    exact ⟨_, congrArg _ e, a, rfl⟩
  · have bytes : s.dpaBytes d x.n = s.dram.bytes d x.n := by rw [State.dpaBytes, if_pos (by rw [h.calm.1]; rfl)]
    obtain ⟨ls, oc, w⟩ := outsideLag_eq h.calm.2 [linkAgent] false d (x.apply (s.dram.bytes d x.n))
    rw [if_neg (by rw [good]; decide), State.amoAt]
    dsimp only
    rw [bytes, overtake_none h.calm.1, w]
    obtain ⟨L, e, a⟩ := answered_keeps (t := { s with dram := s.dram.put d (x.apply (s.dram.bytes d x.n)), lags := ls, oldCode := oc }) (op := 5) h.answers rfl rfl (by decide) 0#8
      (natLe 16 (leNat (s.dram.bytes d x.n)))
    exact ⟨_, congrArg _ e, a, rfl, rfl, rfl⟩

/-! ### Enqueues -/

/-- An enqueue request of a master with its right, whose queue's memory is ready. -/
theorem linkEnqueue_run {q : BitVec 12} (set : s.link.nodeSet = true) (dst : m.dst = s.node) (master : s.remoteMaster m = some mm) (small : m.addr.toNat % 2 ^ 16 < 4096)
    (hq : q = BitVec.ofNat 12 (m.addr.toNat % 2 ^ 16)) :
    (s.right 0x01280000 q.toNat mm .enqueue = false → exec (.linkEnqueue m) s = .next (s.nack m)) ∧
    (s.right 0x01280000 q.toNat mm .enqueue = true → s.dpaReady (s.slotAt q (s.qClaim q)) = true → exec (.linkEnqueue m) s =
      .next ((s.enqueueAt m.addr (m.payload.take 64)).2.respond m 7 (BitVec.ofNat 8 (s.enqStatus m.addr)) [])) := by
  have index : q.toNat = m.addr.toNat % 2 ^ 16 := by rw [hq, BitVec.toNat_ofNat]; exact Nat.mod_eq_of_lt small
  show (_ → execLinkEnqueue m s = _) ∧ (_ → _ → execLinkEnqueue m s = _)
  unfold execLinkEnqueue
  rw [if_neg (by rw [set]; decide), if_neg (by simp [dst]), master]
  dsimp only
  rw [fieldNat_eq, pow_zero, Nat.div_one, ← hq, ← index]
  refine ⟨fun no => ?_, fun yes ready => ?_⟩
  · rw [if_pos (by simp [no]; omega)]
  · rw [if_neg (by simp [yes]), if_neg (by simp [ready]), enqueueAt_status]

theorem livePorts_accepted {q : BitVec 12} {bs : List Byte} (h : Accepted s t q bs) (n : BitVec 12) : t.livePorts n = s.livePorts n := by
  have route : t.sysW (rtOff n) = s.sysW (rtOff n) := h.sys _ (by unfold qdOff rtOff; omega)
  have up : t.sysW 16 = s.sysW 16 := h.sys _ (by unfold qdOff; omega)
  simp only [State.livePorts, State.sysF, route, up]

/-- The queue refuses the packet: the answer holds the status. -/
theorem enqueue_refused (h : s.answers m) {st : Nat} (refused : s.enqStatus m.addr = st) (hst : st ≠ 0) : ∃ t,
    (s.enqueueAt m.addr (m.payload.take 64)).2.respond m 7 (BitVec.ofNat 8 (s.enqStatus m.addr)) [] = t ∧ linkAnswered s t m 7 (BitVec.ofNat 8 st) [] ∧
      t.dram = s.dram ∧ t.sys = s.sys := by
  subst refused
  rw [enqueueAt_refuses hst]
  obtain ⟨L, e, a⟩ := answered_keeps (op := 7) h rfl rfl (by decide) (BitVec.ofNat 8 (s.enqStatus m.addr)) []
  exact ⟨_, e, a, rfl, rfl⟩

theorem enqueue_taken {q : BitVec 12} (h : s.answers m) (hq : q = BitVec.ofNat 12 (m.addr.toNat % 2 ^ 16)) (h0 : s.enqStatus m.addr = 0) (ok : s.sysOk)
    (ack : s.qCack q ≤ s.qRead q) (fits : s.qClaim q + 1 < 2 ^ 64) : ∃ t,
    (s.enqueueAt m.addr (m.payload.take 64)).2.respond m 7 (BitVec.ofNat 8 (s.enqStatus m.addr)) [] = t ∧ linkAnswered s t m 7 0#8 [] ∧
      (s.qState q = 1 → t.dram = s.dram.put (s.slotAt q (s.qClaim q)) (m.payload.take 64)) ∧
      t.qClaim q = s.qClaim q + 1 ∧ t.qWrite q = s.qWrite q + 1 ∧ t.qState q = 1 ∧ t.launches = s.launches := by
  obtain ⟨keeps, took⟩ := enqueueAt_accepts (bs := m.payload.take 64) hq h0 ok ack fits
  obtain ⟨claim, write, -, -, state⟩ := took.indices
  obtain ⟨L, e, a⟩ := answered_keeps (op := 7) h keeps.link (livePorts_accepted took _) (by decide) 0#8 []
  rw [h0]
  exact ⟨_, e, a, took.slot, claim, write, state, keeps.launches⟩

/-! ### Arrivals -/

/-- An arrival of a master: refused without the right to the launch's partition, else received. -/
theorem linkBarrierArrival_run {a : Word} (set : s.link.nodeSet = true) (dst : m.dst = s.node) (master : s.remoteMaster m = some mm)
    (ha : a = BitVec.ofNat 64 (leNat (m.payload.take 8))) :
    exec (.linkBarrierArrival m) s = .next (if ∃ l, s.byIdent a = some l ∧ s.right 0x01245000 l.part.toNat mm .enqueue = false then s.nack m else
      (s.receiveArrival a m.addr none).2.respond m 9 (if (s.receiveArrival a m.addr none).1 then 0#8 else 0x0F#8) []) := by
  show execLinkBarrierArrival m s = _
  unfold execLinkBarrierArrival
  dsimp only
  rw [if_neg (by rw [set]; decide), if_neg (by simp [dst]), master]
  dsimp only
  rw [← ha]
  cases hi : s.byIdent a with
  | none => simp
  | some l => simp

/-! ### Any request -/

/-- Without a node identifier, or from no named master, a request is refused. -/
theorem request_nack {i : Instr} (hi : i = .linkRead m ∨ i = .linkMaskedWrite m ∨ i = .linkEnqueue m ∨ i = .linkBarrierArrival m)
    (none : s.link.nodeSet = false ∨ (m.dst = s.node ∧ s.remoteMaster m = none)) : exec i s = .next (s.nack m) := by
  have bare : s.link.nodeSet = false ∨ s.link.nodeSet = true ∧ m.dst = s.node ∧ s.remoteMaster m = .none := by
    cases set : s.link.nodeSet
    · exact .inl rfl
    · exact .inr ⟨rfl, none.resolve_left (by rw [set]; decide)⟩
  rcases hi with rfl | rfl | rfl | rfl
  · exact congrArg _ (serveMem_nack none)
  · exact congrArg _ (serveMem_nack none)
  · refine congrArg Host.Outcome.next ?_
    rcases bare with set | ⟨set, dst, master⟩
    · rw [if_pos (by rw [set]; rfl)]
    · rw [if_neg (by rw [set]; decide), if_neg (by simp [dst]), master]
  · refine congrArg Host.Outcome.next ?_
    rcases bare with set | ⟨set, dst, master⟩
    · rw [if_pos (by rw [set]; rfl)]
    · rw [if_neg (by rw [set]; decide), if_neg (by simp [dst]), master]

/-- Settles O55. -/
theorem linkRequests : Obligations.LinkRequests := by
  refine ⟨fun s m i hi h => ⟨fun none => ?_, fun set other => ?_⟩, ?_, fun s m mm d h => linkRead_serves h, fun s m mm d h wf good => linkMaskedWrite_serves h wf good, ?_, ?_, ?_⟩
  · have run := request_nack hi none
    obtain ⟨L, e, a⟩ := nack_answered h
    exact ⟨_, run.trans (congrArg _ e), a, rfl, rfl, rfl⟩
  · rcases hi with rfl | rfl | rfl | rfl
    · exact congrArg _ (serveMem_other set other)
    · exact congrArg _ (serveMem_other set other)
    · exact congrArg _ ((if_neg (by rw [set]; decide)).trans (if_pos other))
    · exact congrArg _ ((if_neg (by rw [set]; decide)).trans (if_pos other))
  · rintro s m mm d ⟨h, set, dst, master, rfl⟩
    obtain ⟨L, e, a⟩ := nack_answered h
    exact ⟨fun bad => ⟨_, congrArg Host.Outcome.next ((serveMem_denied set dst master rfl bad).trans e), a, rfl⟩,
      fun bad => ⟨_, congrArg Host.Outcome.next ((serveMem_denied set dst master rfl bad).trans e), a, rfl⟩⟩
  · rintro s m mm d x n hx rfl hn h inDevice
    exact linkAtomic_serves hx hn h inDevice
  · rintro s m mm q a h set dst master rfl top mid small hq ok
    obtain ⟨denied, served⟩ := linkEnqueue_run set dst master small hq
    have status := enqStatus_eq (s := s) hq
    rw [if_neg (by omega)] at status
    refine ⟨fun no => ?_, fun yes ready => ?_⟩
    · obtain ⟨L, e, a⟩ := nack_answered h
      exact ⟨_, (denied no).trans (congrArg _ e), a, rfl⟩
    rw [served yes ready]
    refine ⟨fun stale => ?_, fun live gen => ⟨fun full => ?_, fun free space ack fits => ?_⟩⟩
    · rw [if_pos stale] at status
      obtain ⟨t, e, rest⟩ := enqueue_refused h status (by decide)
      exact ⟨t, congrArg _ e, rest⟩
    · rw [if_neg (by omega), if_pos full] at status
      obtain ⟨t, e, rest⟩ := enqueue_refused h status (by decide)
      exact ⟨t, congrArg _ e, rest⟩
    · rw [if_neg (by omega), if_neg (by omega)] at status
      obtain ⟨t, e, rest⟩ := enqueue_taken h hq status ok ack fits
      exact ⟨t, congrArg _ e, rest⟩
  · intro s m mm a h set dst master ha
    have run := linkBarrierArrival_run set dst master ha
    refine ⟨fun lost => ?_, fun l hl no => ?_, fun l hl yes rank => ?_⟩
    · rw [run, if_neg (by simp [lost]), show s.receiveArrival a m.addr none = (false, s) from by rw [State.receiveArrival, lost]]
      obtain ⟨L, e, a⟩ := answered_keeps (op := 9) h rfl rfl (by decide) 0x0F#8 []
      exact ⟨_, congrArg _ e, a, rfl⟩
    · rw [run, if_pos ⟨l, hl, no⟩]
      obtain ⟨L, e, a⟩ := nack_answered h
      exact ⟨_, congrArg _ e, a, rfl⟩
    · rw [run, if_neg (by simp [hl, yes])]
      obtain ⟨keeps, sys, -⟩ := receiveArrival_keeps s a m.addr none
      have kept : (s.receiveArrival a m.addr none).1 = true := by
        rw [State.receiveArrival, hl]
        dsimp only
        rw [if_neg (by rw [fieldNat_eq, rank]; decide)]
      have ports : (s.receiveArrival a m.addr none).2.livePorts m.src = s.livePorts m.src := by simp only [State.livePorts, sysF_congr sys]
      obtain ⟨L, e, answered⟩ := answered_keeps (op := 9) h keeps.link ports (by decide) 0#8 []
      rw [kept]
      refine ⟨_, congrArg _ e, answered, ?_⟩
      show Host.Outcome.next (s.receiveArrival a m.addr none).2 = _
      rw [← keeps.link]

end Sys2Proof.Proofs
end

section
/-! ENQ of an Anole core (R159, R396): a packet from device memory. -/

namespace Sys2Proof.Proofs

open Sys2Proof.Machine Sys2Proof.Laws

variable {s t u : State} {q : BitVec 12} {h : Word} {bs : List Byte}

/-! ### The effect at the home -/

/-- What is accepted depends on SYS space and device memory alone. -/
theorem accepted_congr {s' t' : State} (a : Accepted s t q bs) (sys : s'.sys = s.sys) (dram : s'.dram = s.dram) (sys' : t'.sys = t.sys) (dram' : t'.dram = t.dram) :
    Accepted s' t' q bs := by
  obtain ⟨indices, slot, others⟩ := a
  have w := sysW_congr sys
  have w' := sysW_congr sys'
  refine ⟨?_, ?_, fun off hoff => by rw [w', w, others off hoff]⟩
  · simpa only [State.qClaim, State.qWrite, State.qRead, State.qCack, State.qState, State.sysF, w, w'] using indices
  · simpa only [State.slotAt, State.qRing, State.qSlots, State.qLsize, State.qClaim, State.qState, State.sysF, w, dram, dram'] using slot

/-- ENQ at a queue that can answer: the status, what is kept, and what is done. -/
theorem enqueueAt_ready (ready : s.EnqReady h q) : ∃ t, s.enqueueAt h bs = (s.enqStatus h, t) ∧ QueueKeeps s t ∧ (s.enqStatus h = 0 → Accepted s t q bs) ∧
    (s.enqStatus h ≠ 0 → t.sys = s.sys ∧ t.dram = s.dram) := by
  by_cases h0 : s.enqStatus h = 0
  · obtain ⟨ok, ack, fits⟩ := ready.room h0
    obtain ⟨keeps, took⟩ := enqueueAt_accepts (bs := bs) ready.queue h0 ok ack fits
    exact ⟨_, Prod.ext (enqueueAt_status s h bs) rfl, keeps, fun _ => took, fun no => absurd h0 no⟩
  · exact ⟨s, enqueueAt_refuses h0, .refl s, fun yes => absurd yes h0, fun _ => ⟨rfl, rfl⟩⟩

/-- The master of an ENQ's agent (R388). -/
def enqMaster (s : State) : Nat := match s.curLid with
  | some _ => 32 + s.srcPart.toNat
  | none => 44

/-- ENQ at its home, with the right to the queue. -/
theorem enqHome_run (ready : s.EnqReady h q) (right : h.toNat % 2 ^ 16 < 4096 → s.right 0x01280000 (h.toNat % 4096) (enqMaster s) .enqueue = true)
    (run : s.enqueueAt h bs = (s.enqStatus h, t)) : enqHome h bs s = .ok ((ofU (s.enqStatus h), 0#64, []), t) := by
  have node : handleNode h = s.node := by
    refine BitVec.eq_of_toNat_eq ?_
    rw [handleNode, BitVec.extractLsb'_toNat, Nat.shiftRight_eq_div_pow, ready.node]
  have index : BitVec.ofNat 12 (h.toNat % 2 ^ 12) = q := by
    refine BitVec.eq_of_toNat_eq ?_
    rw [ready.queue, BitVec.toNat_ofNat, BitVec.toNat_ofNat]
    omega
  have may : (decide (fieldNat h 0 16 < 4096) && !s.right 0x01280000 (fieldNat h 0 12) (enqMaster s) .enqueue) = false := by
    rw [fieldNat_eq, fieldNat_eq, pow_zero, Nat.div_one]
    by_cases small : h.toNat % 2 ^ 16 < 4096
    · have may : s.right 0x01280000 (h.toNat % 2 ^ 12) (enqMaster s) .enqueue = true := right small
      rw [may, Bool.not_true, Bool.and_false]
    · rw [decide_eq_false small, Bool.false_and]
  have answers : (s.qState q != 0 && !s.dpaReady (s.qRing q)) = false := by
    by_cases none : s.qState q = 0
    · rw [none]; rfl
    · rw [ready.ready none, Bool.not_true, Bool.and_false]
  unfold enqHome
  rw [bind_ok get_run, if_pos node]
  show (raiseIf (_ && !s.right 0x01280000 (fieldNat h 0 12) (enqMaster s) .enqueue) _ >>= _) s = _
  rw [may, raiseIf_false, pure_bind_act, fieldNat_eq h 0 12, pow_zero, Nat.div_one, index, answers, holdIf_false, pure_bind_act, run]
  dsimp only
  rw [bind_ok (set_run t)]
  rfl

theorem enqHome_denied (node : h.toNat / 2 ^ 48 % 2 ^ 12 = s.node.toNat) (small : h.toNat % 2 ^ 16 < 4096)
    (right : s.right 0x01280000 (h.toNat % 4096) (enqMaster s) .enqueue = false) : enqHome h bs s = .error (.trap (Trap.mk' 0x05), s) := by
  have node : handleNode h = s.node := by
    refine BitVec.eq_of_toNat_eq ?_
    rw [handleNode, BitVec.extractLsb'_toNat, Nat.shiftRight_eq_div_pow, node]
  have may : (decide (fieldNat h 0 16 < 4096) && !s.right 0x01280000 (fieldNat h 0 12) (enqMaster s) .enqueue) = true := by
    have no : s.right 0x01280000 (h.toNat % 2 ^ 12) (enqMaster s) .enqueue = false := right
    rw [fieldNat_eq, fieldNat_eq, pow_zero, Nat.div_one, no, decide_eq_true small]
    rfl
  unfold enqHome
  rw [bind_ok get_run, if_pos node]
  show (raiseIf (_ && !s.right 0x01280000 (fieldNat h 0 12) (enqMaster s) .enqueue) _ >>= _) s = _
  rw [may]
  rfl

/-! ### On an Anole core -/

section

variable {i : BitVec 4} {g : BitVec 4} {d a : BitVec 6} {b : Src} {r : Regs} {p : Word} {off : Nat}

/-- An Anole core's commit point is its effect (R396). -/
theorem commitAny_anole {o : OpDesc} {perform : Act (Word × Word × List (BitVec 32))} {x : Word × Word × List (BitVec 32)} (hc : s.cur = .anole i)
    (run : perform s = .ok (x, t)) : commitAny o perform s = .ok (x, t.modAnole i fun c => { c with commit := .idle }) := by
  unfold commitAny
  rw [bind_ok get_run, hc]
  dsimp only
  rw [bind_ok run, bind_ok (modify_run _)]
  rfl

theorem commitAny_anole_error {o : OpDesc} {perform : Act (Word × Word × List (BitVec 32))} {e : Stop × State} (hc : s.cur = .anole i)
    (run : perform s = .error e) : commitAny o perform s = .error e := by
  unfold commitAny
  rw [bind_ok get_run, hc]
  exact bind_error run

theorem enqPacket_anole (hc : s.cur = .anole i) (place : AnolePlace s p 64 64 off) (good : s.dram.badIn off 64 = false)
    (seen : ∀ w ∈ s.lags, w.touches off 64 = true → w.seen.contains (anoleAgent i.toNat) = true) :
    ∃ ls, enqPacket p s = .ok ((s.dpaBytes off 64, none), { s with lags := ls }) := by
  obtain ⟨ls, read⟩ := anRead_ok (k := .read) place good (by rwa [anAgent_anole hc])
  have virt : (ptrSpace p != 0) = false := by rw [ptrSpace_eq, Nat.div_eq_of_lt (by have := place.virt; omega)]; rfl
  refine ⟨ls, ?_⟩
  generalize State.mk .. = v at read ⊢
  unfold enqPacket
  rw [bind_ok get_run, hc]
  dsimp only
  rw [anCheck_ok place, orRaise_ok, pure_bind_act, virt, raiseIf_false, pure_bind_act, bind_ok read]
  rfl

/-- ENQ of an Anole core with the right: performed directly. -/
theorem enq_anole (hc : s.cur = .anole i) (he : s.executes r g) (ready : s.EnqReady (r.get a) q) (place : AnolePlace s (srB r b) 64 64 off)
    (good : s.dram.badIn off 64 = false) (seen : ∀ w ∈ s.lags, w.touches off 64 = true → w.seen.contains (anoleAgent i.toNat) = true)
    (awake : s.anoles[i.toNat].waits = false) (right : (r.get a).toNat % 2 ^ 16 < 4096 → s.right 0x01280000 ((r.get a).toNat % 4096) 44 .enqueue = true) :
    ∃ t, exec (.enq d a b g) s = .next t ∧ t.regs? = some ((r.set d (ofU (s.enqStatus (r.get a)))).skip (srLen b)) ∧ t.launches = s.launches ∧
      (s.enqStatus (r.get a) = 0 → Accepted s t q (s.dpaBytes off 64)) ∧ (s.enqStatus (r.get a) ≠ 0 → t.sys = s.sys ∧ t.dram = s.dram) := by
  obtain ⟨ls, packet⟩ := enqPacket_anole hc place good seen
  have ready' : State.EnqReady { s with lags := ls } (r.get a) q := ⟨ready.node, ready.queue, ready.ready, ready.room⟩
  obtain ⟨v, run, keeps, took, left⟩ := enqueueAt_ready (bs := s.dpaBytes off 64) ready'
  have master : enqMaster { s with lags := ls } = 44 := by
    unfold enqMaster State.curLid
    rw [show State.cur { s with lags := ls } = .anole i from hc]
  have home := enqHome_run ready' (by rw [master]; exact right) run
  have cur : v.cur = .anole i := keeps.cur.trans hc
  have regs : v.anoles[i.toNat].regs = r := by rw [keeps.anole ⟨i.toNat, i.isLt⟩ awake]; exact anole_regs hc he
  have act : execEnq d a b g s = .next (((v.modAnole i fun c => { c with commit := .idle }).modRegsOf (.anole i) fun x => x.set d (ofU (s.enqStatus (r.get a)))).modRegsOf (.anole i)
      fun x => x.skip (srLen b)) := by
    refine scalar_anole hc he ?_
    rw [bind_ok packet]
    dsimp only
    rw [bind_ok (commitAny_anole (show State.cur { s with lags := ls } = .anole i from hc) home), bind_ok get_run,
      show (v.modAnole i fun c => { c with commit := .idle }).cur = .anole i from cur]
    dsimp only
    rw [bind_ok (setX_anole _ i (by exact cur) d _)]
    rfl
  refine ⟨_, act, ?_, keeps.launches, fun h0 => accepted_congr (took h0) rfl rfl rfl rfl, left⟩
  show State.regsOf? _ v.cur = _
  rw [cur, regsOf_modRegsOf, regsOf_modRegsOf]
  show some (((v.modAnole i fun c => { c with commit := .idle }).anoles[i.toNat].regs.set d _).skip (srLen b)) = _
  rw [anole_modAnole]
  show some ((v.anoles[i.toNat].regs.set d _).skip (srLen b)) = _
  rw [regs]

/-- Without the right it is Access Denied. -/
theorem enq_anole_denied (hc : s.cur = .anole i) (he : s.executes r g) (ready : s.EnqReady (r.get a) q) (place : AnolePlace s (srB r b) 64 64 off)
    (good : s.dram.badIn off 64 = false) (seen : ∀ w ∈ s.lags, w.touches off 64 = true → w.seen.contains (anoleAgent i.toNat) = true)
    (small : (r.get a).toNat % 2 ^ 16 < 4096) (right : s.right 0x01280000 ((r.get a).toNat % 4096) 44 .enqueue = false) :
    ∃ u, traps (.enq d a b g) s u (Trap.mk' 0x05) ∧ u.sys = s.sys ∧ u.dram = s.dram ∧ u.launches = s.launches := by
  obtain ⟨ls, packet⟩ := enqPacket_anole hc place good seen
  have master : enqMaster { s with lags := ls } = 44 := by
    unfold enqMaster State.curLid
    rw [show State.cur { s with lags := ls } = .anole i from hc]
  have home : enqHome (r.get a) (s.dpaBytes off 64) { s with lags := ls } = .error (.trap (Trap.mk' 0x05), { s with lags := ls }) :=
    enqHome_denied ready.node small (by rw [master]; exact right)
  refine ⟨{ s with lags := ls }, scalar_trap he ?_, rfl, rfl, rfl⟩
  rw [bind_ok packet]
  dsimp only
  exact bind_error (commitAny_anole_error hc home)

end

end Sys2Proof.Proofs
end

section
/-! A control core that reads its own scratchpad at rest: all that a later commit point needs is as it was. -/

namespace Sys2Proof.Proofs

open Sys2Proof.Machine Sys2Proof.Laws

variable {s t : State} {k : CoreRef} {l : Launch} {cp : Copy} {c : Core} {q : Pad} {p : Word} {n al off : Nat}

/-- A state that differs from another only in what reads mark: no core is seen to have changed, nor is anything outside the launches. -/
structure Reread (s t : State) (k : CoreRef) (l : Launch) (cp : Copy) (c : Core) : Prop where
  rest : ∃ L, t = { s with launches := L }
  launch : ∃ C, t.launch? k.lid = some { l with copies := C }
  copy : ∃ D, t.copy? k = some { cp with cores := D } ∧
    ∀ d ∈ D, ∃ e ∈ cp.cores, d.rank = e.rank ∧ (e.port = [] → d.port = []) ∧ d.muslin = e.muslin ∧ d.eng = e.eng
  core : onlyCore s t k c

theorem reread_refl (h1 : s.launch? k.lid = some l) (h2 : s.copy? k = some cp) (h3 : s.core? k = some c) : Reread s s k l cp c :=
  ⟨⟨s.launches, rfl⟩, ⟨l.copies, h1⟩, ⟨cp.cores, h2, fun d hd => ⟨d, hd, rfl, id, rfl, rfl⟩⟩, onlyCore_refl h3⟩

/-- A mark at a copy without stores on their way. -/
theorem reread_modCopy (h : Reread s t k l cp c) (f : Copy → Copy) (role : ∀ x, (f x).role = x.role) (cores : ∀ x, (f x).cores = x.cores)
    (same : ∀ D, f { cp with cores := D } = { cp with cores := D }) : Reread s (t.modCopy k f) k l cp c := by
  obtain ⟨⟨L, rest⟩, ⟨C, launch⟩, ⟨D, copy, marks⟩, core⟩ := h
  refine ⟨⟨_, by rw [rest]; rfl⟩, ⟨_, (launch_modLaunch_any t k.lid k.lid (fun x => x.modCopy k.role f) fun _ => rfl).trans
      (by rw [launch, Option.map_some, if_pos rfl]; rfl)⟩,
    ⟨D, by rw [copy_modCopy_any t k k f role, copy, Option.map_some, if_pos ⟨rfl, rfl⟩, same], marks⟩, onlyCore_trans core ?_⟩
  exact onlyCore_modCopy f core.1 copy role cores (fun _ => by rw [same]) (by rw [same]) (by rw [same]) (by rw [same])

/-- A mark at a core that has none of what is marked. -/
theorem reread_modCore (h : Reread s t k l cp c) (f : Core → Core) (rank : ∀ x, (f x).rank = x.rank) (port : ∀ x, x.port = [] → (f x).port = [])
    (muslin : ∀ x, (f x).muslin = x.muslin) (eng : ∀ x, (f x).eng = x.eng) (same : f c = c) : Reread s (t.modCore k f) k l cp c := by
  obtain ⟨⟨L, rest⟩, ⟨C, launch⟩, ⟨D, copy, marks⟩, core⟩ := h
  refine ⟨⟨_, by rw [rest]; rfl⟩, ⟨_, by rw [launch_modCore, launch]; rfl⟩, ⟨_, by rw [copy_modCore, copy]; rfl, fun d hd => ?_⟩, onlyCore_step core f rank same⟩
  obtain ⟨x, hx, rfl⟩ := List.mem_map.1 hd
  obtain ⟨e, he, hr, hp, hm, hg⟩ := marks x hx
  refine ⟨e, he, ?_⟩
  split
  · exact ⟨(rank x).trans hr, fun no => port x (hp no), (muslin x).trans hm, (eng x).trans hg⟩
  · exact ⟨hr, hp, hm, hg⟩

/-- The context of a core after reads. -/
theorem reread_ctx (h : Reread s t k l cp c) : ∃ C D, ctxOf k t = .ok (({ l with copies := C }, { cp with cores := D }, c), t) ∧
    ∀ d ∈ D, ∃ e ∈ cp.cores, d.rank = e.rank ∧ (e.port = [] → d.port = []) ∧ d.muslin = e.muslin ∧ d.eng = e.eng := by
  obtain ⟨-, ⟨C, launch⟩, ⟨D, copy, marks⟩, core⟩ := h
  exact ⟨C, D, ctxOf_run launch copy core.1, marks⟩

theorem readPiece_rereads (h1 : s.launch? k.lid = some l) (h2 : s.copy? k = some cp) (h3 : s.core? k = some c) (hq : cp.pad? (.usp c.rank) = some q)
    (hb : q.mem.badIn off n = false) (hr : cp.atRest) :
    ∃ t, readPiece (ctlAcc k) (.pad (.usp c.rank) off) n .read s = .ok (q.mem.bytes off n, t) ∧ Reread s t k l cp c := by
  have port := (hr.2 c (rank_of_core h2 h3).2).1
  have writes : ∀ d ∈ cp.cores, ∀ m ∈ d.eng.cmds, m.writes = [] := fun d hd m hm => ((hr.2 d hd).2 m hm).1
  have marked := reread_modCopy (reread_refl h1 h2 h3) (fun x => x.markRead l.packet.w c.rank (.usp c.rank) off n) (fun _ => rfl) (fun _ => rfl)
    fun D => markRead_rest (cp := { cp with cores := D }) hr.1 _ _ _ _ _
  have both := reread_modCore marked (fun x => x.markPort cp.stores (.usp c.rank) off n) (fun _ => rfl) (fun x hx => by rw [markPort_rest hx, hx]) (fun _ => rfl) (fun _ => rfl)
    (markPort_rest port _ _ _ _)
  obtain ⟨C, D, ctx, -⟩ := reread_ctx both
  refine ⟨_, ?_, both⟩
  unfold readPiece
  rw [bind_ok (raceReads_rest (a := ctlAcc k) h1 h2 h3 writes), bind_ok get_run, bind_ok (ctxOf_run (k := (ctlAcc k).k) h1 h2 h3)]
  simp only [badTrap_own hq hb, Option.isSome_none, raiseIf_false, pure_bind_act, hr.1, List.filter_nil, List.map_nil]
  rw [bind_ok (show chooseStores (ctlAcc k).k [] s = .ok ((), s) from rfl), bind_ok (modify_run _)]
  rw [if_pos (show (ctlAcc k).unit = AccUnit.control from rfl), bind_ok (onCore_run _ _)]
  refine (bind_ok ctx).trans ?_
  have bytes : (ctlAcc k).padBytes l { cp with cores := D } c (.usp c.rank) off n = q.mem.bytes off n := by
    unfold Acc.padBytes Store.bytes
    rw [if_pos (show (ctlAcc k).unit = AccUnit.control from rfl), port]
    exact List.map_congr_left fun i _ => padByte_rest hr.1 hq
  simp only [bytes]
  rfl

theorem ctlRead_rereads (ht : s.CoreTurn k l cp c) (h : OwnPlace cp c q p n al off) (hb : q.mem.badIn off n = false) (hr : cp.atRest) (hm : c.remote = []) :
    ∃ t, ctlRead k p n al s = .ok (q.mem.bytes off n, t) ∧ Reread s t k l cp c := by
  obtain ⟨-, h1, h2, h3⟩ := ht
  have port := (hr.2 c (rank_of_core h2 h3).2).1
  have writes : ∀ d ∈ cp.cores, ∀ m ∈ d.eng.cmds, m.writes = [] := fun d hd m hm => ((hr.2 d hd).2 m hm).1
  obtain ⟨t, piece, read⟩ := readPiece_rereads h1 h2 h3 h.pad hb hr
  obtain ⟨C, D, ctx, marks⟩ := reread_ctx read
  have check : checkPtr (ctlAcc k) p n al .read s = .ok (.pad (.usp c.rank) off, s) := by
    unfold checkPtr
    rw [bind_ok (ctxOf_run (k := (ctlAcc k).k) h1 h2 h3)]
    dsimp only
    rw [checkPlace_own h]; rfl
  have bytes : (ctlAcc k).padBytes l cp c (.usp c.rank) off n = q.mem.bytes off n := by
    unfold Acc.padBytes Store.bytes
    rw [if_pos (show (ctlAcc k).unit = AccUnit.control from rfl), port]
    exact List.map_congr_left fun i _ => padByte_rest hr.1 h.pad
  have runs : readRuns (ctlAcc k) false (.pad (.usp c.rank) off) n s = .ok (q.mem.bytes off n, t) := by
    unfold readRuns
    rw [bind_ok (ctxOf_run (k := (ctlAcc k).k) h1 h2 h3)]
    simp only [racers_rest writes, List.filter_nil, List.flatMap_nil]
    rw [bind_ok piece]
    simp only [bytes, mixReads, beq_self_eq_true, if_true]
    rfl
  have settled : ((({ cp with cores := D } : Copy).pushedBy c.rank).any fun x => x.2.old.any fun e => e.1.meets 1 (.pad (.usp c.rank) off) n) = false := by
    rw [List.any_eq_false]
    intro y hy
    simp only [Copy.pushedBy, List.mem_flatMap, List.mem_map, List.mem_filter] at hy
    obtain ⟨d, hd, m, ⟨hm', -⟩, rfl⟩ := hy
    obtain ⟨e, he, -, -, -, eng⟩ := marks d hd
    simp [((hr.2 e he).2 m (eng ▸ hm')).2]
  have pieces : loadPieces k [(.pad (.usp c.rank) off, n)] s = .ok (q.mem.bytes off n, t) := by
    unfold loadPieces
    rw [bind_ok runs]
    refine (bind_ok ctx).trans ?_
    simp only [settled, Bool.false_eq_true, if_false, pure_bind_act, loadPieces]
    show Except.ok _ = _
    simp
  have spent := reread_modCore read (fun x => { x with remote := x.remote.filter fun r => r.owner != (ctlAcc k).owner }) (fun _ => rfl) (fun _ h => h) (fun _ => rfl) (fun _ => rfl)
    (by rw [hm]; cases c; simp_all)
  refine ⟨_, ?_, spent⟩
  unfold ctlRead
  rw [bind_ok check, bind_ok (show resolve (ctlAcc k) (.pad (.usp c.rank) off) n .read [] s = .ok ([(.pad (.usp c.rank) off, n)], s) from rfl), bind_ok pieces]
  exact (bind_ok (onCore_run _ _)).trans rfl

/-- A commit point after such a read has as little to wait for. -/
theorem atCommit_reread (h : s.AtCommit k l cp c) (r : Reread s t k l cp c) : ∃ C D, t.AtCommit k { l with copies := C } { cp with cores := D } c := by
  obtain ⟨⟨L, rest⟩, ⟨C, launch⟩, ⟨D, copy, marks⟩, core⟩ := r
  refine ⟨C, D, ⟨⟨by rw [rest]; exact h.cur, launch, copy, core.1⟩, h.role, h.prot, h.idle, h.pushed, h.live, h.room, h.home,
    fun d hd same => ?_, h.lines, fun d hd => ?_, h.calm⟩⟩
  · obtain ⟨e, he, rank, port, -⟩ := marks d hd
    exact port (h.port e he (rank ▸ same))
  · obtain ⟨e, he, -, -, muslin, -⟩ := marks d hd
    rw [muslin]
    exact h.closed e he

end Sys2Proof.Proofs
end

section
/-! ENQ of a control core (R159, R272): a commit point, whose status goes to its packet's chunk too. -/

namespace Sys2Proof.Proofs

open Sys2Proof.Machine Sys2Proof.Laws

variable {s s3 t u : State} {k : CoreRef} {l : Launch} {cp : Copy} {c x : Core} {y : Pad} {q : BitVec 12} {p : Word} {off op : Nat} {res : Word}
  {g : BitVec 4} {d a : BitVec 6} {b : Src}
  {F : List Pad → List Pad}

/-- The copy's scratchpads change as its core's commit point asks. -/
theorem logged_modPad (h : Logged s t k l x op res) (id : PadId) (f : Pad → Pad) :
    Logged s (t.modCopy k fun z => z.modPad id f) k l x op res (List.map fun y => if y.id = id then f y else y) := by
  obtain ⟨core, ⟨e, m, hm, hlog⟩, ⟨v, w, hv, hw, replay, binding, pads, home⟩, rest⟩ := h
  have launch := (launch_modLaunch_any t k.lid k.lid (fun z => z.modCopy k.role fun z => z.modPad id f) fun _ => rfl).trans (by rw [hm, Option.map_some, if_pos rfl])
  have copy := (copy_modCopy_any t k k (fun z => z.modPad id f) fun _ => rfl).trans (by rw [hw, Option.map_some, if_pos ⟨rfl, rfl⟩])
  refine ⟨(core_modCopy_same (s := t) (k := k) (fun z => z.modPad id f) (fun _ => rfl) (fun _ => rfl) k).trans core, ⟨e, _, launch, hlog⟩,
    ⟨v, _, hv, copy, replay, binding, ?_, home⟩, rest⟩
  show w.pads.map _ = _
  rw [show w.pads = v.pads from pads]
  simp only [beq_iff_eq]

/-- A change of a core and one of its copy's scratchpads change place. -/
theorem modPad_modCore (t : State) (k : CoreRef) (id : PadId) (f : Pad → Pad) (h : Core → Core) :
    (t.modCopy k fun z => z.modPad id f).modCore k h = (t.modCore k h).modCopy k fun z => z.modPad id f :=
  (modCopy_modCopy (s := t) (k := k) (fun z => z.modPad id f) (fun z => z.modCore k.rank h) fun _ => rfl).trans
    (modCopy_modCopy (s := t) (k := k) (fun z => z.modCore k.rank h) (fun z => z.modPad id f) fun _ => rfl).symm

/-- What has been logged after reads of the core has been logged since before them. -/
theorem logged_reread (r : Reread s t k l cp c) (hs : s.copy? k = some cp) {C : List Copy} (h : Logged t u k { l with copies := C } x op res F) : Logged s u k l x op res F := by
  obtain ⟨⟨L, e⟩, -, ⟨D, copy, -⟩, -⟩ := r
  obtain ⟨core, log, ⟨v, w, hv, hw, replay, binding, pads, home⟩, rest⟩ := h
  rw [copy, Option.some_inj] at hv
  subst hv
  exact ⟨core, log, ⟨cp, w, hs, hw, replay, binding, pads, home⟩, by rw [e] at rest; exact rest⟩

theorem enqPacket_core (ht : s.CoreTurn k l cp c) (place : OwnPlace cp c y p 64 64 off) (good : y.mem.badIn off 64 = false) (rest : cp.atRest) (remote : c.remote = []) :
    ∃ t, enqPacket p s = .ok ((y.mem.bytes off 64, some (.usp c.rank, off)), t) ∧ Reread s t k l cp c := by
  obtain ⟨t, read, same⟩ := ctlRead_rereads ht place good rest remote
  have check : checkPtr (padAcc k) p 64 64 .read s = .ok (.pad (.usp c.rank) off, s) := by
    unfold checkPtr
    rw [bind_ok (ctxOf_run (k := (padAcc k).k) ht.launch ht.copy ht.core)]
    dsimp only
    rw [checkPlace_own place]; rfl
  refine ⟨t, ?_, same⟩
  unfold enqPacket
  rw [bind_ok get_run, ht.cur]
  dsimp only
  rw [bind_ok (theCore_turn ht)]
  dsimp only
  rw [bind_ok check]
  dsimp only
  rw [bind_ok read]
  rfl

/-- What the effect of a commit point finds: the master of its launch, and the queue as it stands. -/
theorem enqMaster_prep (ht : s.CoreTurn k l cp c) (sig : BitVec 64) : enqMaster (prep s k c sig) = 32 + l.part.toNat := by
  have cur : (prep s k c sig).cur = .core k := (prep_keeps ..).1.cur.trans ht.cur
  have part := prep_launch s k c sig k.lid
  rw [ht.launch, Option.map_some, Option.map_eq_some_iff] at part
  obtain ⟨m, hm, e⟩ := part
  simp only [Prod.mk.injEq] at e
  simp only [enqMaster, State.curLid, State.srcPart, cur, hm, Option.map_some, Option.getD_some, e]

theorem enq_core (h : s.AtCommit k l cp c) (he : s.executes c.regs g) (ready : s.EnqReady (c.regs.get a) q) (place : OwnPlace cp c y (srB c.regs b) 64 64 off)
    (good : y.mem.badIn off 64 = false) (rest : cp.atRest) (remote : c.remote = []) (awake : ∀ j : Fin 16, s.anoles[j.val].waits = false)
    (right : (c.regs.get a).toNat % 2 ^ 16 < 4096 → s.right 0x01280000 ((c.regs.get a).toNat % 4096) (32 + l.part.toNat) .enqueue = true) :
    ∃ t, exec (.enq d a b g) s = .next t ∧
      Logged s t k l { c.committed with regs := (c.regs.set d (ofU (s.enqStatus (c.regs.get a)))).skip (srLen b) } 2 (ofU (s.enqStatus (c.regs.get a)))
        (List.map fun y => if y.id = .usp c.rank then y.setChunk (off / 512) { y.chunk (off / 512) with status := BitVec.ofNat 8 (s.enqStatus (c.regs.get a)) } else y) ∧
      otherCores s t k ∧ (s.enqStatus (c.regs.get a) = 0 → Accepted s t q (y.mem.bytes off 64)) ∧
      (s.enqStatus (c.regs.get a) ≠ 0 → t.sys = s.sys ∧ t.dram = s.dram) := by
  obtain ⟨t, packet, same⟩ := enqPacket_core h.toCoreTurn place good rest remote
  obtain ⟨C, D, ht⟩ := atCommit_reread h same
  obtain ⟨o, ho⟩ : ∃ o : OpDesc, o = { op := 2, w1 := c.regs.get a, w2 := srB c.regs b, w3 := crc64 (y.mem.bytes off 64) } := ⟨_, rfl⟩
  obtain ⟨sig, hsig⟩ : ∃ sig, sig = ({ cp with cores := D } : Copy).commitSig c o := ⟨_, rfl⟩
  obtain ⟨v, hv⟩ : ∃ v, v = prep t k c sig := ⟨_, rfl⟩
  have master : enqMaster v = 32 + l.part.toNat := hv ▸ enqMaster_prep ht.toCoreTurn sig
  obtain ⟨L, gs, e⟩ : ∃ L gs, v = { s with launches := L, lags := gs } := by
    obtain ⟨⟨L, rfl⟩, -⟩ := same
    obtain ⟨L', gs, e⟩ := prep_rest { s with launches := L } k c sig
    exact ⟨L', gs, hv.trans e⟩
  have status : v.enqStatus (c.regs.get a) = s.enqStatus (c.regs.get a) := by rw [e]; rfl
  have sys : v.sys = s.sys := by rw [e]
  have dram : v.dram = s.dram := by rw [e]
  have anoles : v.anoles = s.anoles := by rw [e]
  have ready' : v.EnqReady (c.regs.get a) q := by rw [e]; exact ⟨ready.node, ready.queue, ready.ready, ready.room⟩
  have right' : (c.regs.get a).toNat % 2 ^ 16 < 4096 → v.right 0x01280000 ((c.regs.get a).toNat % 4096) (enqMaster v) .enqueue = true := by
    rw [master, e]
    exact right
  obtain ⟨s3, run, keeps, took, left⟩ := enqueueAt_ready (bs := y.mem.bytes off 64) ready'
  have home := enqHome_run ready' right' run
  have kept := keeps.anoles (by rw [anoles]; exact awake)
  have held := prep_keeps t k c sig
  rw [← hv] at held
  have effect : EffectKeeps t s3 := ⟨keeps.cwnN.trans held.1.cwnN, keeps.cwnS.trans held.1.cwnS, kept.trans held.1.anoles, keeps.link.trans held.1.link, keeps.cc.trans held.1.cc,
    keeps.cur.trans held.1.cur, keeps.sched.trans held.1.sched⟩
  obtain ⟨u, commit, done⟩ := commit_done ht o (perform := enqHome (c.regs.get a) (y.mem.bytes off 64)) (by rw [← hsig, ← hv]; exact home)
    (by rw [← hsig, ← hv]; exact keeps.launches) effect
  rw [status, ho] at done
  rw [status, ho] at commit
  obtain ⟨st, hst⟩ : ∃ st, st = s.enqStatus (c.regs.get a) := ⟨_, rfl⟩
  rw [← hst] at done commit status ⊢
  obtain ⟨mark, hmark⟩ : ∃ f : Pad → Pad, f = fun y => y.setChunk (off / 512) { y.chunk (off / 512) with status := BitVec.ofNat 8 st } := ⟨_, rfl⟩
  have byte : (ofU st).setWidth 8 = BitVec.ofNat 8 st := BitVec.setWidth_ofNat_of_le (by decide) st
  have cur : (u.modCopy k fun z => z.modPad (.usp c.rank) mark).cur = .core k := done.cur.trans ht.cur
  have ends := (done.step (fun x => { x with regs := x.regs.set d (ofU st) }) fun _ => rfl).step (fun x => x.past (srLen b)) fun _ => rfl
  have act : exec (.enq d a b g) s = .next (((u.modCore k fun x => { x with regs := x.regs.set d (ofU st) }).modCore k fun x => x.past (srLen b)).modCopy k
      fun z => z.modPad (.usp c.rank) mark) := by
    show scalar _ _ _ _ = _
    rw [scalar_on he.1 he.2, h.cur, runAct_adv (s' := State.modRegs (u.modCopy k fun z => z.modPad (.usp c.rank) mark) fun x => x.set d (ofU st)), State.modRegs, cur,
      ← modPad_modCore, ← modPad_modCore]
    · rfl
    rw [bind_ok packet]
    dsimp only
    rw [bind_ok ((commitAny_core ht.cur).trans commit), bind_ok get_run, done.cur, ht.cur]
    dsimp only
    rw [byte, ← hmark, bind_ok (modify_run _), bind_ok (setX_run _ _)]
    rfl
  refine ⟨_, act, ?_, fun j hj => ?_, fun h0 => ?_, fun no => ?_⟩
  · subst hmark
    exact logged_reread same h.copy (logged_modPad ends.logged (.usp c.rank) _)
  · exact ((core_modCopy_same (fun z => z.modPad (.usp c.rank) mark) (fun _ => rfl) (fun _ => rfl) j).trans (ends.others j hj)).trans (same.core.2.1 j hj)
  · exact accepted_congr (took (status.trans h0)) sys.symm dram.symm ends.sys ends.dram
  · obtain ⟨sys', dram'⟩ := left fun h0 => no (status.symm.trans h0)
    exact ⟨(ends.sys.trans sys').trans sys, (ends.dram.trans dram').trans dram⟩

/-- Settles O33. -/
theorem enqueue : Obligations.Enqueue := by
  refine ⟨?_, ?_⟩
  · rintro s i g d a b r h q off hc he rfl ready place good seen awake
    exact ⟨enq_anole hc he ready place good seen awake, enq_anole_denied hc he ready place good seen⟩
  · rintro s k l cp c g d a b h q y off hat he rfl ready place good rest remote awake right
    exact enq_core hat he ready place good rest remote awake right

end Sys2Proof.Proofs
end

section
/-! What events and aborts leave of the launches (R291, R378, R395). -/

namespace Sys2Proof.Proofs

open Sys2Proof.Machine Sys2Proof.Laws

variable {s t : State} {lid : Nat} {l m : Launch}

/-! ### Aborts (R291) -/

/-- The TLBs of a core take the number of a shoot-down. -/
def takeNumber (d : Shootdown) (u : State) (k : CoreRef) : State :=
  match u.core? k with
  | some c => u.setTlbs c.phys ((u.tlbsOf c.phys).map fun x => x.drop d)
  | none => u

/-- Those of the cores that owe it an acknowledgement. -/
def takeNumbers (mine : CoreRef → Bool) (t : State) (d : Shootdown) : State := (d.waiting.filter mine).foldl (takeNumber d) t

theorem takeNumbers_eq (mine : CoreRef → Bool) (s : State) : ∃ tl, s.shoots.foldl (takeNumbers mine) s = { s with tlbs := tl } := by
  refine List.foldlRecOn _ (takeNumbers mine) (motive := fun u : State => ∃ tl, u = { s with tlbs := tl }) ⟨s.tlbs, rfl⟩ fun u hu d _ => ?_
  refine List.foldlRecOn _ (takeNumber d) (motive := fun u : State => ∃ tl, u = { s with tlbs := tl }) hu fun u hu k _ => ?_
  obtain ⟨tl, rfl⟩ := hu
  unfold takeNumber
  split
  · exact ⟨_, rfl⟩
  · exact ⟨tl, rfl⟩

/-- What stops in the other parts of the device when cores stop: TLBs, shoot-downs and the link's requests. -/
theorem forget_eq (s : State) (lid : Nat) (role : Role → Bool) : ∃ tl sh L, s.forget lid role = { s with tlbs := tl, shoots := sh, link := L } := by
  obtain ⟨tl, e⟩ := takeNumbers_eq (fun k => k.lid == lid && role k.role) s
  obtain ⟨u, hu⟩ : ∃ u, u = s.shoots.foldl (takeNumbers fun k => k.lid == lid && role k.role) s := ⟨_, rfl⟩
  have run : ∃ sh L, s.forget lid role = { u with shoots := sh, link := L } := hu ▸ ⟨_, _, rfl⟩
  obtain ⟨sh, L, run⟩ := run
  exact ⟨tl, sh, L, run.trans (by rw [hu, e])⟩

theorem giveBack_eq (l : Launch) : ∃ C, l.giveBack = { l with copies := C } := by
  unfold Launch.giveBack
  refine List.foldlRecOn _ _ (motive := fun m : Launch => ∃ C, m = { l with copies := C }) ⟨l.copies, rfl⟩ fun m hm x _ => ?_
  obtain ⟨C, rfl⟩ := hm
  exact ⟨_, rfl⟩

/-- A copy whose cores have stopped. -/
def stoppedCopy (c : Copy) : Copy := { c with cores := c.cores.map Core.stop, home := [] }

theorem stopAll_eq (l : Launch) : ∃ C : List Copy, l.stopAll =
    { l with copies := (C.filter fun c => c.role != .third).map stoppedCopy, third := none, deferred := [], dues := [] } := by
  obtain ⟨C, e⟩ := giveBack_eq l
  unfold Launch.stopAll
  rw [e]
  exact ⟨C, rfl⟩

/-- A launch whose group has aborted. -/
def abortedLaunch (code src : Nat) (after : After) (l : Launch) : Launch :=
  match after with
  | .resume => { l.stopAll with state := .resuming, cause := some (code, src), aborts := min 65535 (l.aborts + 1), preempt := false, forced := false }
  | .park w => { l.stopAll with state := .parked, cause := some (code, src), aborts := min 65535 (l.aborts + 1), park := w, preempt := false, forced := false }
  | .stop e => { l.stopAll with state := .done, ending := some e }

theorem abort_eq (s : State) (lid code src : Nat) (after : After) :
    s.abort lid code src after = (s.forget lid fun _ => true).modLaunch lid (abortedLaunch code src after) := rfl

theorem abortedLaunch_lid (code src : Nat) (after : After) (l : Launch) : (abortedLaunch code src after l).lid = l.lid := by
  have kept : l.stopAll.lid = l.lid := by
    obtain ⟨C, e⟩ := stopAll_eq l
    rw [e]
  cases after <;> exact kept

theorem abort_launch (s : State) (lid code src : Nat) (after : After) (n : Nat) :
    (s.abort lid code src after).launch? n = (s.launch? n).map fun l => if n = lid then abortedLaunch code src after l else l := by
  obtain ⟨tl, sh, L, e⟩ := forget_eq s lid fun _ => true
  rw [abort_eq, launch_modLaunch_any _ lid n _ (abortedLaunch_lid code src after), e]
  rfl

theorem abort_keeps (s : State) (lid code src : Nat) (after : After) : (s.abort lid code src after).dram = s.dram ∧ (s.abort lid code src after).sys = s.sys := by
  obtain ⟨tl, sh, L, e⟩ := forget_eq s lid fun _ => true
  rw [abort_eq, e]
  exact ⟨rfl, rfl⟩

/-! ### Events (R378, R395) -/

theorem fqWrite_launches (s : State) (h : BitVec 1) (ws : List Word) : (s.fqWrite h ws).launches = s.launches := by
  unfold State.fqWrite State.sendMsix
  dsimp only
  split <;> rfl

theorem flushGo_launches (blocked : List (BitVec 1)) (es : List DelayedEvent) (s : State) : (flushGo s blocked es).launches = s.launches := by
  induction es generalizing s blocked with
  | nil => rfl
  | cons e es ih =>
    unfold flushGo
    split
    · exact ih _ _
    · exact (ih _ _).trans (fqWrite_launches s e.host e.words)

theorem postEvent_launches (s : State) (hosts : List (BitVec 1)) (mk : Nat → List Word) : (s.postEvent hosts mk).launches = s.launches :=
  flushGo_launches [] _ _

theorem postEvents_launches {α : Type} (hosts : α → List (BitVec 1)) (mk : α → Nat → List Word) (xs : List α) (s : State) :
    (xs.foldl (fun t x => t.postEvent (hosts x) (mk x)) s).launches = s.launches := by
  induction xs generalizing s with
  | nil => rfl
  | cons x xs ih => exact (ih _).trans (postEvent_launches s (hosts x) (mk x))

theorem detect_launches (s : State) (host : BitVec 1) (ident : Word) (kind code : Nat) (unit unit2 : BitVec 16) (hits : Nat) (incs : List (BitVec 16 × Nat))
    (holds : List (BitVec 16)) : (s.detect host ident kind code unit unit2 hits incs holds).launches = s.launches := by
  have words (xs : List UnitState) (t : State) : (xs.foldl (fun t x => t.sysSetF 8 (unitIdx x.id) 1 0) t).launches = t.launches :=
    List.foldlRecOn _ _ (motive := fun u : State => u.launches = t.launches) rfl fun _ h _ _ => h
  unfold State.detect
  dsimp only
  rw [words, postEvents_launches (fun _ => [0#1, 1#1]), postEvents_launches (fun _ => [host]), postEvent_launches]

/-! ### A launch with a property -/

/-- A launch is found, and it has a property. -/
def Finds (P : Launch → Prop) (s : State) (lid : Nat) : Prop := ∃ m, s.launch? lid = some m ∧ P m

variable {P : Launch → Prop}

theorem finds_congr (h : Finds P s lid) (e : t.launches = s.launches) : Finds P t lid := by
  obtain ⟨m, hm, p⟩ := h
  exact ⟨m, by rw [State.launch?, e]; exact hm, p⟩

theorem finds_modLaunch (h : Finds P s lid) (n : Nat) (f : Launch → Launch) (hf : ∀ x, (f x).lid = x.lid) (hp : n = lid → ∀ m, P m → P (f m)) :
    Finds P (s.modLaunch n f) lid := by
  obtain ⟨m, hm, p⟩ := h
  refine ⟨_, (launch_modLaunch_any s n lid f hf).trans (by rw [hm]; rfl), ?_⟩
  split
  next e => exact hp e.symm m p
  · exact p

theorem finds_map (h : Finds P s lid) (F : Launch → Launch) (hF : ∀ x, (F x).lid = x.lid) (hp : ∀ m, P m → P (F m)) :
    Finds P { s with launches := s.launches.map F } lid := by
  obtain ⟨m, hm, p⟩ := h
  refine ⟨F m, ?_, hp m p⟩
  show (s.launches.map F).find? _ = _
  rw [find_map_eq _ F _ fun x _ => by rw [hF]]
  exact congrArg (Option.map F) hm

theorem finds_abort (h : Finds P s lid) (n code src : Nat) (after : After) (hp : n = lid → ∀ m, P m → P (abortedLaunch code src after m)) :
    Finds P (s.abort n code src after) lid := by
  obtain ⟨m, hm, p⟩ := h
  refine ⟨_, (abort_launch s n code src after lid).trans (by rw [hm]; rfl), ?_⟩
  split
  next e => exact hp e.symm m p
  · exact p

/-! ### Chiplets that retire (R381) -/

/-- A property that outlives the end of the launch from outside. -/
structure Outlives (P : Launch → Prop) : Prop where
  deferred : ∀ m d, P m → P { m with deferred := d }
  ended : ∀ m code src e, P m → P (abortedLaunch code src (.stop e) m)

theorem abortSoon_finds (h : Finds P s lid) (l : Launch) (code src : Nat) (e : Ending) (safe : l.lid = lid → Outlives P) :
    Finds P (s.abortSoon l code src (.stop e)) lid := by
  unfold State.abortSoon
  split
  · exact finds_modLaunch h l.lid _ (fun _ => rfl) fun hl m p => (safe hl).deferred m _ p
  · exact finds_abort h l.lid code src _ fun hl m p => (safe hl).ended m _ _ e p

theorem score_kill_launches (s : State) (l : Launch) (c : Core) (x : Trap) (h : x.code = 0x10) : (s.score l c x .kill).launches = s.launches := by
  unfold State.score
  simp only [h]
  exact detect_launches ..

theorem loseSnapshots_finds (h : Finds P s lid) (safe : (∀ x ∈ s.launches, x.lid = lid → x.state = .done) ∨ Outlives P) : Finds P s.loseSnapshots lid := by
  unfold State.loseSnapshots
  dsimp only
  split
  · refine List.foldlRecOn _ _ (motive := fun t => Finds P t lid) (finds_congr h rfl) fun u hu x hx => ?_
    have mine : x.lid = lid → Outlives P := fun hlid => by
      obtain ⟨mem, on⟩ := List.mem_filter.1 hx
      refine safe.resolve_left fun dead => ?_
      simp [dead x mem hlid] at on
    split
    · refine abortSoon_finds ?_ x _ _ _ mine
      split
      · exact finds_congr hu (score_kill_launches u x _ _ rfl)
      · exact hu
    · exact hu
  · exact h

theorem sweepRetired_finds (h : Finds P s lid) (safe : (∀ x ∈ s.launches, x.lid = lid → x.state = .done) ∨ Outlives P)
    (asked : ∀ m p f d, P m → P { m with preempt := p, forced := f, snapDie := d }) : Finds P s.sweepRetired lid := by
  unfold State.sweepRetired
  refine finds_map (loseSnapshots_finds h safe) _ (fun x => ?_) fun m p => ?_
  · dsimp only
    split <;> split <;> rfl
  · have moved (r : Reliab) (x : Launch) (px : P x) : P (if r.dieRetired x.snapDie then { x with snapDie := r.liveDie } else x) := by
      split
      · exact asked x x.preempt x.forced _ px
      · exact px
    have asks (b : Bool) : P (if b then m.askPreempt true else m) := by
      split
      · exact asked m _ _ m.snapDie p
      · exact p
    exact moved _ _ (asks _)

end Sys2Proof.Proofs
end

section
/-! The steps of a group: its guard, pre-emption, watchdogs and time limits, checkpoints and resumes (R166, R287, R289, R292 to R295, R302). -/

namespace Sys2Proof.Proofs

open Sys2Proof.Machine Sys2Proof.Laws

variable {s t : State} {lid : Nat} {l m : Launch} {k : CoreRef} {c : Core} {cp : Copy} {x : List Place}

/-! ### Guard and pre-emption -/

theorem progressGuard_expires (hl : s.launch? lid = some l) (h : l.guarded = false ∧ (l.state = .running ∨ l.state = .checkpointing) ∧ l.guardFrom + Config.guardCc ≤ s.cc) :
    exec (.progressGuardExpiry lid) s = .next (s.modLaunch lid fun m => { m with expired := true }) := by
  obtain ⟨guard, state, time⟩ := h
  refine congrArg Host.Outcome.next ?_
  rw [hl]
  exact if_pos (by simp [guard, state, time])

theorem progressGuard_stands (hl : s.launch? lid = some l) (h : l.guarded = true ∨ s.cc < l.guardFrom + Config.guardCc) :
    exec (.progressGuardExpiry lid) s = .next s := by
  refine congrArg Host.Outcome.next ?_
  rw [hl]
  refine if_neg ?_
  rcases h with h | h
  · simp [h]
  · simp [Nat.not_le.2 h]

theorem preemption_unasked (hl : s.launch? lid = some l) (h : l.preempt = false) : exec (.preemptionTakeEffect lid) s = .next s := by
  refine congrArg Host.Outcome.next ?_
  rw [hl]
  exact if_neg (by simp [h])

theorem preemption_deferred (hl : s.launch? lid = some l) (asked : l.preempt = true) (state : l.state = .running) (met : l.guardMet s.cc = true ∨ l.forced = true)
    (third : l.third = none) (serves : s.fwServes = true) (free : l.busy = false) (fresh : .preempt ∉ l.deferred) :
    exec (.preemptionTakeEffect lid) s = .next (s.modLaunch lid fun m => { m with deferred := m.deferred ++ [.preempt] }) := by
  refine congrArg Host.Outcome.next ?_
  rw [hl]
  exact if_pos (by simp [asked, state, met, third, serves, free, fresh])

theorem launch_lid (hl : s.launch? lid = some l) : l.lid = lid := beq_iff_eq.1 (List.find?_some (p := fun x : Launch => x.lid == lid) hl)

/-- A pre-emption alone, of a launch whose guard is met. -/
theorem preemption_parks (hl : s.launch? lid = some l) (only : l.deferred = [.preempt]) (guard : l.guarded = true) (serves : s.fwServes = true) (free : l.busy = false) :
    ∃ t m, s.runDeferredOf lid = t ∧ t.launch? lid = some m ∧ m.state = .parked ∧ m.park = .place ∧ m.preempt = false ∧ m.deferred = [] ∧
      m.aborts = min 65535 (l.aborts + 1) ∧ m.snap = l.snap ∧ t.dram = s.dram ∧ t.sys = s.sys ∧
      ∀ y ∈ m.copies, y.home = [] ∧ ∀ d ∈ y.cores, d.muslin.lines = [] ∧ d.eng.cmds = [] ∧ d.port = [] ∧ d.faulted = false := by
  obtain ⟨C, stopped⟩ := stopAll_eq l
  obtain ⟨dram, sys⟩ := abort_keeps s lid 0 6 (.park .place)
  have run : s.runDeferredOf lid = (s.abort lid 0 6 (.park .place)).modLaunch lid fun m => { m with noprogress := l.noprogress, noprog := m.noprog || false } := by
    have decisive : l.decisive = some .preempt := by rw [Launch.decisive, only]; rfl
    rw [State.runDeferredOf, hl]
    dsimp only
    rw [decisive]
    dsimp only
    rw [if_neg (by simp [free, serves]), State.preemptNow, launch_lid hl]
    simp only [guard, Bool.not_true, Bool.false_and, Bool.false_eq_true, if_false]
  have found := (launch_modLaunch_any (s.abort lid 0 6 (.park .place)) lid lid (fun m => { m with noprogress := l.noprogress, noprog := m.noprog || false }) fun _ => rfl).trans
    (by rw [abort_launch, hl, Option.map_some, if_pos rfl, Option.map_some, if_pos rfl])
  refine ⟨_, _, run, found, rfl, rfl, rfl, (congrArg Launch.deferred stopped :), rfl, (congrArg Launch.snap stopped :), dram, sys, fun y hy => ?_⟩
  have hy : y ∈ l.stopAll.copies := hy
  rw [stopped] at hy
  obtain ⟨z, -, rfl⟩ := List.mem_map.1 hy
  refine ⟨rfl, fun d hd => ?_⟩
  obtain ⟨e, -, rfl⟩ := List.mem_map.1 hd
  exact ⟨rfl, rfl, rfl, rfl⟩

/-! ### Watchdogs and WFE -/

theorem quiescence_strikes (hl : s.launch? k.lid = some l) (hc : s.core? k = some c) (state : l.state = .running) (live : c.faulted = false) (block : c.block ≠ .ckpt)
    (stays : c.exited = false) (third : l.third = none) : exec (.quiescenceWatchdog k) s =
      .next (if c.watch + Config.watchdogCc ≤ s.cc then s.takeFault (.core k) (Trap.mk' 0x14 0#64 5) else s) := by
  refine congrArg Host.Outcome.next ?_
  rw [hl, hc]
  by_cases late : c.watch + Config.watchdogCc ≤ s.cc
  · rw [if_pos late]
    exact if_pos (by simp [state, live, block, stays, third, late])
  · rw [if_neg late]
    exact if_neg (by simp [late])

theorem wfeTimeout_core (hc : s.core? k = some c) {since : Nat} {nx : Word} (hb : c.block = .wfe since nx) :
    (s.cc < since + Config.wfeCc → exec (.wfeTimeout (.core k)) s = .next s) ∧
    (since + Config.wfeCc ≤ s.cc → ∃ t, exec (.wfeTimeout (.core k)) s = .next t ∧ onlyCore s t k { c with block := .none, regs := c.regs.setPc nx }) := by
  have run : exec (.wfeTimeout (.core k)) s = .next (if since + Config.wfeCc ≤ s.cc then s.modCore k Core.wake else s) := by
    refine congrArg Host.Outcome.next ?_
    dsimp only
    rw [hc]
    dsimp only
    rw [hb]
    simp only [decide_eq_true_eq]
  rw [run]
  refine ⟨fun early => by rw [if_neg (Nat.not_le.2 early)], fun late => ⟨_, congrArg _ (if_pos late), ?_⟩⟩
  refine onlyCore_step (onlyCore_refl hc) Core.wake wake_rank ?_
  rw [Core.wake, hb]

theorem wfeTimeout_awake (hc : s.core? k = some c) (hb : c.block = .none) : exec (.wfeTimeout (.core k)) s = .next s := by
  refine congrArg Host.Outcome.next ?_
  dsimp only
  rw [hc]
  dsimp only
  rw [hb]
  rfl

theorem wfeTimeout_anole {a : BitVec 4} {since : Nat} {nx : Word} (hb : s.anoles[a.toNat].block = .wfe since nx) :
    (s.cc < since + Config.wfeCc → exec (.wfeTimeout (.anole a)) s = .next s) ∧
    (since + Config.wfeCc ≤ s.cc → ∃ t, exec (.wfeTimeout (.anole a)) s = .next t ∧ t.anoles[a.toNat].block = .none ∧
      t.anoles[a.toNat].regs = s.anoles[a.toNat].regs.setPc nx ∧ t.launches = s.launches ∧ t.dram = s.dram) := by
  have run : exec (.wfeTimeout (.anole a)) s = .next (if since + Config.wfeCc ≤ s.cc then s.modAnole a Anole.wake else s) := by
    refine congrArg Host.Outcome.next ?_
    dsimp only
    rw [hb]
    simp only [decide_eq_true_eq]
  rw [run]
  refine ⟨fun early => by rw [if_neg (Nat.not_le.2 early)], fun late => ⟨_, congrArg _ (if_pos late), ?_, ?_, rfl, rfl⟩⟩
  · rw [anole_modAnole, Anole.wake, hb]
  · rw [anole_modAnole, Anole.wake, hb]

/-! ### Resumes -/

theorem syncCores_eq (s : State) (cs : List Nat) : ∃ oc, s.syncCores cs = { s with oldCode := oc } := by
  unfold State.syncCores
  refine List.foldlRecOn _ _ (motive := fun u : State => ∃ oc, u = { s with oldCode := oc }) ⟨s.oldCode, rfl⟩ fun u hu n _ => ?_
  obtain ⟨oc, rfl⟩ := hu
  exact ⟨_, rfl⟩

/-- A core at its resume. -/
theorem resumeCore_starts (l : Launch) (sn : Option CoreSnap) (c : Core) (phys : Nat) (subs : List Nat) (cc : Nat) :
    (resumeCore l sn c phys subs cc).regs.pc = l.lrec.pro ∧ (resumeCore l sn c phys subs cc).loop.phase = .prologue ∧ (resumeCore l sn c phys subs cc).eng.cmds = [] ∧
      (resumeCore l sn c phys subs cc).muslin.lines = [] ∧ (resumeCore l sn c phys subs cc).block = .none := by
  cases sn <;> exact ⟨rfl, rfl, rfl, rfl, rfl⟩

theorem groupResume_resumes {place : List Nat} (hl : s.launch? lid = some l) (serves : s.fwServes = true) (state : l.state = .resuming) (save : s.firm.save = none)
    (ctx : s.cxState l.ctx = 1) (waited : s.parkOver l = true) (good : ∀ n, l.snap = some n → n.bad = false) (hx : s.resumePlace l place = some x) :
    ∃ t m, exec (.groupResume lid place) s = .next t ∧ t.launch? lid = some m ∧ m.state = .running ∧ m.fault = faultWord l.cause ∧ m.guarded = false ∧
      m.guardFrom = s.cc ∧ t.dram = s.dram ∧ t.sys = s.sys ∧ ∀ y ∈ m.copies, y.home = [] ∧ y.replay = 0 ∧ ∀ d ∈ y.cores, d.regs.pc = l.lrec.pro ∧
        d.loop.phase = .prologue ∧ d.eng.cmds = [] ∧ d.muslin.lines = [] ∧ d.block = .none ∧ (l.snap = none → d.regs = startRegs l.packet l.lrec.pro) := by
  have correct : (l.snap.map fun n => n.bad).getD false = false := by
    cases hs : l.snap with
    | none => rfl
    | some n => exact good n hs
  have run : exec (.groupResume lid place) s = .next (s.resumeOn l x) := by
    refine congrArg Host.Outcome.next ?_
    rw [hl]
    dsimp only
    rw [if_neg (by simp [serves]), if_neg (by simp [state]), if_neg (by simp [state]), if_neg (by simp [save, ctx, waited]), if_neg (by simp [state]), if_neg (by simp [correct]), hx]
  let resumed : Launch → Launch := fun m =>
    { m with state := .running, copies := (m.copies.zip x).map fun c => resumeCopy s l c.1 c.1.role c.2,
             fault := faultWord l.cause, guarded := false, expired := false, guardFrom := s.cc, dues := [], preempt := false, forced := false }
  obtain ⟨oc, e⟩ := syncCores_eq (s.modLaunch l.lid resumed) (x.flatMap fun x => x.cores)
  have found : (s.modLaunch l.lid resumed).launch? lid = some (resumed l) :=
    (launch_modLaunch_any s l.lid lid resumed fun _ => rfl).trans (by rw [hl, Option.map_some, if_pos (launch_lid hl).symm])
  refine ⟨_, resumed l, run.trans (congrArg Host.Outcome.next e), found, rfl, rfl, rfl, rfl, rfl, rfl, fun y hy => ?_⟩
  obtain ⟨z, -, rfl⟩ := List.mem_map.1 hy
  refine ⟨rfl, rfl, fun d hd => ?_⟩
  obtain ⟨w, -, rfl⟩ := List.mem_map.1 hd
  obtain ⟨pc, phase, cmds, lines, block⟩ := resumeCore_starts l (l.snap.bind fun n => n.cores.find? fun k => k.rank == w.1.rank) w.1 w.2 (s.rel.subsOut w.2) s.cc
  refine ⟨pc, phase, cmds, lines, block, fun fresh => ?_⟩
  rw [fresh]
  rfl

end Sys2Proof.Proofs
end

section
/-! The commit of a checkpoint with nothing left to drain (R46, R289). -/

namespace Sys2Proof.Proofs

open Sys2Proof.Machine Sys2Proof.Laws

variable {s : State} {lid : Nat} {l : Launch} {cp : Copy}

theorem checkpoint_waits (hl : s.launch? lid = some l) (copies : l.copies = [cp]) (h : cp.drained = false) : exec (.checkpointCommit lid) s = .next s := by
  refine congrArg Host.Outcome.next ?_
  rw [hl]
  exact if_pos (by simp [copies, h])

theorem settle_rest (h : cp.home = []) : cp.settle = cp := by
  obtain ⟨role, cores, pads, home, stores, binding, replay⟩ := cp
  obtain rfl : home = [] := h
  rfl

/-- No completion is noted at a token barrier. -/
theorem takeNotedAll_none {r : Role} (h : ∀ c, s.core? ⟨l.lid, r, 0⟩ = some c → c.sync.noted = []) : s.takeNotedAll l [r] = (true, s) := by
  have none : (((s.core? ⟨l.lid, r, 0⟩).map fun c => (c.sync.noted.map fun g => g.1).eraseDups).getD []) = [] := by
    cases hc : s.core? ⟨l.lid, r, 0⟩ with
    | none => rfl
    | some c => simp [h c hc]
  unfold State.takeNotedAll
  dsimp only
  rw [none]
  rfl

/-- What a checkpoint keeps of a copy's cores. -/
def ckptSnap (s : State) (l : Launch) (cp : Copy) : Snapshot :=
  { cores := cp.cores.map fun c => Core.snapOf { c with loop := { c.loop with ckpt := c.loop.ckpt + 1, ckptPending := false, pushes := 0 } },
    ranges := (cp.carried l).map fun r => (r.1, r.2.1, ((cp.pad? r.1).map fun p => p.mem.bytes r.2.1 r.2.2).getD []),
    binding := s.pbBinding l.part.toNat, bad := false }

/-- A launch after the commit of a checkpoint. -/
def checkpointed (s : State) (l : Launch) (cp : Copy) (m : Launch) : Launch :=
  { m with state := .running, snap := some (ckptSnap s l cp), log := [], dues := [], redo := false, laps := ((cp.cores.head?).map fun c => c.loop.lap).getD 0, watchdogs := 0,
           torns := 0, noprogress := 0, guarded := true,
           copies := m.copies.map fun c => { c with binding := s.pbBinding l.part.toNat, replay := 0, cores := c.cores.map fun k => k.afterCheckpoint l.lrec s.cc } }

/-- Without held lines the commit changes the launch and the writes on their way alone. -/
theorem commitCheckpoint_run (lines : ∀ c ∈ cp.cores, c.muslin.lines = []) :
    ∃ gs, s.commitCheckpoint l cp = (State.modLaunch { s with lags := gs } l.lid (checkpointed s l cp)).endLag l.lid false := by
  have none : (cp.cores.flatMap fun c => c.muslin.lines.map fun h => (c.rank, h)) = [] := by
    rw [List.flatMap_eq_nil_iff]
    intro c hc
    rw [lines c hc]
    rfl
  unfold State.commitCheckpoint
  dsimp only
  rw [none]
  exact ⟨_, rfl⟩

/-- Without extra counts none ends. -/
theorem endLag_none (hl : s.launch? lid = some l) (h : l.lag = []) (all : Bool) : s.endLag lid all = s.modLaunch lid fun m => { m with lag := m.lag.filter fun _ => true } := by
  unfold State.endLag
  rw [hl]
  dsimp only
  rw [h]
  rfl

theorem afterCheckpoint_starts (c : Core) (lr : LoopRec) (cc : Nat) : (c.afterCheckpoint lr cc).block = .none ∧ (c.afterCheckpoint lr cc).watch = cc ∧
    (c.afterCheckpoint lr cc).loop.ckptPending = false ∧
    (c.afterCheckpoint lr cc).regs.pc = if (c.afterCheckpoint lr cc).loop.iter = lr.trip then lr.epi else lr.ker := by
  refine ⟨rfl, rfl, rfl, ?_⟩
  show (if (c.loop.iter == lr.trip) = true then lr.epi else lr.ker) = if c.loop.iter = lr.trip then lr.epi else lr.ker
  simp only [beq_iff_eq]

theorem checkpoint_commits (hl : s.launch? lid = some l) (state : l.state = .checkpointing) (third : l.third = none) (calm : l.deferred = []) (copies : l.copies = [cp])
    (role : cp.role = .primary) (drained : cp.drained = true) (home : cp.home = []) (ranges : l.lrec.ranges = []) (lag : l.lag = [])
    (quiet : ∀ c ∈ cp.cores, c.muslin.lines = [] ∧ c.port = [] ∧ c.sync.noted = []) :
    ∃ t m n, exec (.checkpointCommit lid) s = .next t ∧ t.launch? lid = some m ∧ m.state = .running ∧ m.log = [] ∧
      m.guarded = true ∧ m.snap = some n ∧ (n.cores.map fun x => (x.rank, x.regs, x.vregs, x.barriers, x.banks)) =
        (cp.cores.map fun c => (c.rank, c.regs, c.vregs, c.sync.barriers, c.tens.banks)) ∧
      (n.cores.map fun x => x.counts) = (cp.cores.map fun c => c.sync.tokens.toList.map fun y => y.count) ∧ t.dram = s.dram ∧ t.sys = s.sys ∧
      ∀ y ∈ m.copies, y.replay = 0 ∧ ∀ d ∈ y.cores, d.block = .none ∧ d.watch = s.cc ∧ d.loop.ckptPending = false ∧
        d.regs.pc = if d.loop.iter = l.lrec.trip then l.lrec.epi else l.lrec.ker := by
  have primary : l.copy? .primary = some cp := by rw [Launch.copy?, copies]; simp [role]
  have shadow : l.copy? .shadow = none := by rw [Launch.copy?, copies]; simp [role]
  have noted : ∀ c, s.core? ⟨l.lid, .primary, 0⟩ = some c → c.sync.noted = [] := by
    intro c hc
    rw [State.core?, State.copy?, launch_lid hl, hl, Option.bind_some, primary, Option.bind_some] at hc
    exact (quiet c (List.mem_of_find?_eq_some hc)).2.2
  obtain ⟨u, hu⟩ : ∃ u, u = s.modLaunch lid fun m => { m with copies := m.copies.map Copy.settle } := ⟨_, rfl⟩
  have found : u.launch? lid = some l := by
    rw [hu, launch_modLaunch_any s lid lid (fun m => { m with copies := m.copies.map Copy.settle }) fun _ => rfl, hl, Option.map_some, if_pos rfl, copies, List.map_singleton,
      settle_rest home, ← copies]
  have ready : u.linesReady (cp.cores.flatMap fun c => c.muslin.lines.map fun h => (c.rank, h)) = true := by
    rw [List.flatMap_eq_nil_iff.2 fun c hc => by rw [(quiet c hc).1]; rfl]
    rfl
  have whole : cp.badCarried l = none := by
    have empty : cp.carried l = [] := by
      unfold Copy.carried
      rw [ranges, List.flatMap_eq_nil_iff.2 fun c _ => List.map_nil]
      rfl
    rw [Copy.badCarried, empty]
    rfl
  have run : exec (.checkpointCommit lid) s = .next (u.commitCheckpoint l cp) := by
    refine congrArg Host.Outcome.next ?_
    rw [hl]
    dsimp only
    rw [if_neg (by simp [state, third, calm, copies, drained]), copies, List.map_singleton, role, takeNotedAll_none noted]
    dsimp only
    rw [← hu, found]
    dsimp only
    rw [primary]
    dsimp only
    rw [if_neg (by rw [ready]; decide), whole, shadow]
  obtain ⟨gs, commit⟩ := commitCheckpoint_run (s := u) (l := l) fun c hc => (quiet c hc).1
  have after := (launch_modLaunch_any { u with lags := gs } l.lid lid (checkpointed u l cp) fun _ => rfl).trans
    (by rw [show State.launch? { u with lags := gs } lid = some l from found, Option.map_some, if_pos (launch_lid hl).symm])
  rw [launch_lid hl] at commit after
  rw [endLag_none after lag] at commit
  have last := (launch_modLaunch_any (State.modLaunch { u with lags := gs } lid (checkpointed u l cp)) lid lid (fun m => { m with lag := m.lag.filter fun _ => true }) fun _ => rfl).trans
    (by rw [after, Option.map_some, if_pos rfl])
  refine ⟨_, _, ckptSnap u l cp, run.trans (congrArg _ commit), last, rfl, rfl, rfl, rfl, ?_, ?_, by rw [hu]; rfl, by rw [hu]; rfl, fun y hy => ?_⟩
  · exact List.map_map ..
  · exact List.map_map ..
  · obtain ⟨z, -, rfl⟩ := List.mem_map.1 hy
    refine ⟨rfl, fun d hd => ?_⟩
    obtain ⟨e, -, rfl⟩ := List.mem_map.1 hd
    rw [show s.cc = u.cc by rw [hu]; rfl]
    exact afterCheckpoint_starts e l.lrec u.cc

end Sys2Proof.Proofs
end

section
/-! Class D: the comparison of a pair's signatures, and the third execution that decides (R365, R368, R369). -/

namespace Sys2Proof.Proofs

open Sys2Proof.Machine Sys2Proof.Laws

variable {s : State} {lid rank : Nat} {l m : Launch} {k : CoreRef} {c : Core} {cp a b : Copy} {o : OpDesc} {sp ss sg : BitVec 64} {d : Third}

/-! ### The pair's signatures -/

theorem waitSig_some {n : Nat} {x : OpDesc × BitVec 64} (h : cp.waitSig n rank = some x) (hc : cp.core? rank = some c) : x.2 = cp.commitSig c x.1 := by
  unfold Copy.waitSig at h
  rw [hc] at h
  dsimp only at h
  split at h
  · cases h
  · obtain ⟨o, -, rfl⟩ := Option.map_eq_some_iff.1 h
    rfl

theorem pairSigs_some (h : l.pairSigs rank = some (o, sp, ss)) : ∃ cp, l.copy? .primary = some cp ∧ cp.waitSig l.log.length rank = some (o, sp) := by
  unfold Launch.pairSigs at h
  split at h
  next x y hx hy =>
    obtain ⟨cp, hcp, hw⟩ := Option.bind_eq_some_iff.1 hx
    cases h
    exact ⟨cp, hcp, hw⟩
  · cases h

/-- The commit point of a core that has nothing to wait for closes (R113). -/
theorem closeRegion_closes (hl : s.launch? k.lid = some l) (hp : s.copy? k = some cp) (hc : s.core? k = some c) (home : cp.home = []) (port : ∀ d ∈ cp.cores, d.port = [])
    (closed : ∀ d ∈ cp.cores, d.muslin.closed = []) (room : l.log.length < 4096) (o : OpDesc) :
    closeRegion k o s = .ok ((), s.modCore k fun d => { d with commit := .releasing (cp.commitSig c o) [] false }) := by
  have none : cp.passedTo c = [] := passedTo_nil closed
  have waits : cp.releaseWaits c = false := by simp [Copy.releaseWaits, none]
  have causal : cp.causal c.rank = true := by
    simp only [Copy.causal, home, List.all_nil, Bool.true_and, List.all_eq_true, Bool.or_eq_true]
    exact fun d hd => .inr (by simp [port d hd])
  have segs : cp.passedSigs c = [] := by simp [Copy.passedSigs, none]
  have fits : ¬ Config.logEntries < l.log.length + 0 + 1 := by unfold Config.logEntries; omega
  unfold closeRegion
  rw [bind_ok (ctxOf_run hl hp hc)]
  simp only [waits, causal, segs, holdIf_false, pure_bind_act, List.any_nil, Bool.not_true, Bool.or_false, List.length_nil, fits, decide_false, raiseIf_false]
  rfl

/-- Signatures that agree: the primary's commit point closes. -/
theorem classDCompare_agrees (hl : s.launch? lid = some l) (prot : l.packet.prot = 2) (third : l.third = none) (calm : l.deferred = []) (state : l.state = .running)
    (hs : l.pairSigs rank = some (o, sp, sp)) (hp : s.copy? ⟨lid, .primary, rank⟩ = some cp) (hc : cp.core? rank = some c) (home : cp.home = [])
    (port : ∀ d ∈ cp.cores, d.port = []) (room : l.log.length < 4096) (closed : ∀ d ∈ cp.cores, d.muslin.closed = []) :
    ∃ t c', exec (.classDCompare lid rank) s = .next t ∧ t.core? ⟨lid, .primary, rank⟩ = some c' ∧ c'.commit = .releasing sp [] false ∧ c'.regs = c.regs ∧
      c'.muslin = c.muslin ∧ t.dram = s.dram := by
  obtain ⟨k, hk⟩ : ∃ k : CoreRef, k = ⟨lid, .primary, rank⟩ := ⟨_, rfl⟩
  rw [← hk] at hp ⊢
  have hlk : s.launch? k.lid = some l := by rw [hk]; exact hl
  have core : s.core? k = some c := by rw [State.core?, hp, hk]; exact hc
  have sig : sp = cp.commitSig c o := by
    obtain ⟨x, hx, wait⟩ := pairSigs_some hs
    have same : s.copy? k = some x := by rw [State.copy?, hlk, hk]; exact hx
    obtain rfl : cp = x := Option.some.inj (hp.symm.trans same)
    exact waitSig_some wait hc
  obtain ⟨u, hu⟩ : ∃ u, u = s.modCore k fun d => { d with commit := .releasing (cp.commitSig c o) [] false } := ⟨_, rfl⟩
  have run : exec (.classDCompare lid rank) s = .next (u.settleLag (u.agentsOf k ++ u.ownersOf k (cp.passedSigs c))) := by
    refine congrArg Host.Outcome.next ?_
    rw [hl]
    dsimp only
    rw [if_neg (by simp [prot, third, calm, state]), hs]
    dsimp only
    rw [if_pos rfl, ← hk, runStep, closePair, bind_ok (ctxOf_run hlk hp core)]
    dsimp only
    rw [bind_ok (closeRegion_closes hlk hp core home port closed room o), modify_run, hu]
  have after : u.core? k = some { c with commit := .releasing sp [] false } := by
    rw [hu, coreAt_modCore (fun d => { d with commit := .releasing (cp.commitSig c o) [] false }) fun _ => rfl, core, sig]
    rfl
  exact ⟨_, _, run, after, rfl, rfl, rfl, by rw [hu]; rfl⟩

/-! ### Placing a third execution -/

/-- A launch that Signature Mismatch has ended. -/
def Mismatched (m : Launch) : Prop := m.state = .done ∧ m.ending.map (fun e => e.code) = some 0x13

/-- What a comparison that fails comes to: a third execution decides, or there is none. -/
def Disputed (d : Third) (m : Launch) : Prop := m.third = some d ∨ Mismatched m

theorem kill_disputed {P : Launch → Prop} (h : Finds P s lid) (row col : Nat) : Finds (Disputed d) (s.kill lid (Trap.mk' 0x13) row col) lid := by
  obtain ⟨m, hm, -⟩ := h
  exact ⟨_, (abort_launch s lid _ _ _ lid).trans (by rw [hm, Option.map_some, if_pos rfl]), .inr ⟨rfl, rfl⟩⟩

/-- A pre-emption of another launch. -/
theorem preemptNow_finds {P : Launch → Prop} (h : Finds P s lid) (x : Launch) (other : x.lid ≠ lid) : Finds P (s.preemptNow x) lid := by
  have noted (n : Nat) (r : Bool) : Finds P ((s.abort x.lid 0 6 (.park .place)).modLaunch x.lid fun m => { m with noprogress := n, noprog := m.noprog || r }) lid :=
    finds_modLaunch (finds_abort h x.lid 0 6 (.park .place) fun e => absurd e other) x.lid (fun m => { m with noprogress := n, noprog := m.noprog || r }) (fun _ => rfl)
      fun e => absurd e other
  have reported (n : Nat) (r : Bool) : Finds P (if r then State.postFr (State.qErr ((s.abort x.lid 0 6 (.park .place)).modLaunch x.lid fun m =>
      { m with noprogress := n, noprog := m.noprog || r }) x.queue 1) 3 x 0 0#64 0 else (s.abort x.lid 0 6 (.park .place)).modLaunch x.lid fun m =>
      { m with noprogress := n, noprog := m.noprog || r }) lid := by
    split
    · exact finds_congr (noted n r) (postEvent_launches ..)
    · exact noted n r
  exact reported _ _

theorem placeThird_disputed (h : Finds (Disputed d) s lid) (hm : m.lid = lid) (hp : m.copy? .primary = some cp) (good : ∀ n, m.snap = some n → n.bad = false) :
    Finds (Disputed d) (s.placeThird m) lid := by
  subst hm
  have correct : (m.snap.map fun n => n.bad).getD false = false := by
    cases hs : m.snap with
    | none => rfl
    | some n => exact good n hs
  unfold State.placeThird
  dsimp only
  rw [hp]
  dsimp only
  rw [if_neg (by rw [correct]; decide)]
  split
  · exact kill_disputed h 0 0
  next cs _ =>
    split
    · refine List.foldlRecOn _ _ (motive := fun u : State => Finds (Disputed d) u m.lid) h fun u hu x hx => ?_
      exact finds_modLaunch hu x.lid _ (fun _ => rfl) fun _ y p => p
    · have yielded : Finds (Disputed d) ((s.launches.filter fun x => x.lid != m.lid && x.state.occupies && x.copies.any fun c => c.cores.any fun k =>
          cs.contains k.phys).foldl (fun t x => t.preemptNow x) s) m.lid := by
        refine List.foldlRecOn _ _ (motive := fun u : State => Finds (Disputed d) u m.lid) h fun u hu x hx => preemptNow_finds hu x ?_
        have on := (List.mem_filter.1 hx).2
        simp only [Bool.and_eq_true, bne_iff_ne] at on
        exact on.1.1
      split
      · exact kill_disputed yielded 0 0
      · obtain ⟨oc, e⟩ := syncCores_eq _ _
        rw [e]
        exact finds_congr (finds_modLaunch yielded m.lid (fun x => { x with copies := x.copies ++ _ }) (fun _ => rfl) fun _ y p => p) rfl

/-- Signatures that differ: a third execution is to decide. -/
theorem classDCompare_differs (hl : s.launch? lid = some l) (prot : l.packet.prot = 2) (third : l.third = none) (calm : l.deferred = []) (state : l.state = .running)
    (hs : l.pairSigs rank = some (o, sp, ss)) (differ : sp ≠ ss) (good : ∀ n, l.snap = some n → n.bad = false) :
    ∃ t, exec (.classDCompare lid rank) s = .next t ∧
      Finds (Disputed { rank := rank, ckpt := false, sp := sp, ss := ss, aborts := 0, since := s.cc }) t lid := by
  obtain ⟨d, hd⟩ : ∃ d : Third, d = { rank := rank, ckpt := false, sp := sp, ss := ss, aborts := 0, since := s.cc } := ⟨_, rfl⟩
  obtain ⟨cp, primary, -⟩ := pairSigs_some hs
  have found := (launch_modLaunch_any s lid lid (fun m => { m with third := some d }) fun _ => rfl).trans (by rw [hl, Option.map_some, if_pos rfl])
  have run : exec (.classDCompare lid rank) s = .next (State.placeThird (s.modLaunch lid fun m => { m with third := some d }) { l with third := some d }) := by
    refine congrArg Host.Outcome.next ?_
    rw [hl]
    dsimp only
    rw [if_neg (by simp [prot, third, calm, state]), hs]
    dsimp only
    rw [if_neg differ, ← hd, found]
  rw [← hd]
  exact ⟨_, run, placeThird_disputed ⟨_, found, .inl rfl⟩ (launch_lid hl :) primary good⟩

/-! ### The decision -/

/-- No third execution. -/
def NoThird (m : Launch) : Prop := m.third = none ∧ m.copy? .third = none

theorem noThird_aborted (code src : Nat) (after : After) (l : Launch) : NoThird (abortedLaunch code src after l) := by
  have stopped : NoThird l.stopAll := by
    obtain ⟨C, eq⟩ := stopAll_eq l
    rw [eq]
    refine ⟨rfl, List.find?_eq_none.2 fun x hx => ?_⟩
    obtain ⟨y, hy, rfl⟩ := List.mem_map.1 hx
    have kept := (List.mem_filter.1 hy).2
    simpa [stoppedCopy] using kept
  cases after <;> exact stopped

theorem noThird_outlives : Outlives NoThird := ⟨fun _ _ p => p, fun m code src _ _ => noThird_aborted code src _ m⟩

theorem replaceBy_lid (l : Launch) (loser : Role) (d : Third) (cc : Nat) : (l.replaceBy loser d cc).lid = l.lid := by
  unfold Launch.replaceBy
  dsimp only
  split <;> rfl

theorem replaceBy_noThird (h : l.copy? .third ≠ none) {loser : Role} (hr : loser ≠ .third) (d : Third) (cc : Nat) : NoThird (l.replaceBy loser d cc) := by
  obtain ⟨c, hc⟩ := Option.ne_none_iff_exists'.1 h
  unfold Launch.replaceBy
  rw [hc]
  refine ⟨rfl, List.find?_eq_none.2 fun x hx => ?_⟩
  obtain ⟨y, hy, rfl⟩ := List.mem_map.1 hx
  have kept := (List.mem_filter.1 hy).2
  split
  · simpa using hr
  · simpa using kept

theorem forget_launches (s : State) (lid : Nat) (role : Role → Bool) : (s.forget lid role).launches = s.launches := by
  obtain ⟨tl, sh, L, e⟩ := forget_eq s lid role
  rw [e]

theorem decideThird_noThird (hl : s.launch? lid = some l) (h : l.copy? .third ≠ none) {loser : Role} (hr : loser ≠ .third) : Finds NoThird (s.decideThird l d loser) lid := by
  have replaced (u : State) (hu : u.launches = s.launches) (n : Nat) :
      Finds NoThird ((u.modLaunch l.lid fun m => { m.replaceBy loser d s.cc with unit := n }).renameThird l.lid loser) lid := by
    have found := (launch_modLaunch_any u l.lid lid (fun m => { m.replaceBy loser d s.cc with unit := n }) fun m => replaceBy_lid m loser d s.cc).trans
      (by rw [State.launch?, hu, ← State.launch?, hl, Option.map_some, if_pos (launch_lid hl).symm])
    exact ⟨_, found, replaceBy_noThird h hr d s.cc⟩
  exact sweepRetired_finds (replaced _ ((forget_launches ..).trans (detect_launches ..)) _) (.inr noThird_outlives) fun _ _ _ _ p => p

/-- A decision for one of the two. -/
theorem thirdDecision_decides (hl : s.launch? lid = some l) (hd : l.third = some d) (hs : l.thirdSig d = some sg) (one : sg = d.sp ∨ sg = d.ss) :
    ∃ t m, exec (.thirdExecutionDecision lid) s = .next t ∧ t.launch? lid = some m ∧ m.third = none ∧ m.copy? .third = none := by
  have third : l.copy? .third ≠ none := fun none => by
    rw [Launch.thirdSig, none] at hs
    cases hs
  have run : exec (.thirdExecutionDecision lid) s = .next (s.decideThird l d (if sg = d.sp then .shadow else .primary)) := by
    refine congrArg Host.Outcome.next ?_
    rw [hl]
    dsimp only
    rw [hd]
    dsimp only
    rw [hs]
    dsimp only
    by_cases first : sg = d.sp
    · rw [if_pos first, if_pos first]
    · rw [if_neg first, if_neg first, if_pos (one.resolve_left first)]
  obtain ⟨m, hm, none, gone⟩ := decideThird_noThird (d := d) hl third (loser := if sg = d.sp then .shadow else .primary) (by split <;> decide)
  exact ⟨_, m, run, hm, none, gone⟩

/-- Three signatures that differ end the launch. -/
theorem thirdDecision_kills (hl : s.launch? lid = some l) (hd : l.third = some d) (hs : l.thirdSig d = some sg) (notP : sg ≠ d.sp) (notS : sg ≠ d.ss) :
    ∃ t m, exec (.thirdExecutionDecision lid) s = .next t ∧ t.launch? lid = some m ∧ m.state = .done ∧ m.ending.map (fun e => e.code) = some 0x13 := by
  have killed (u : State) (hu : u.launches = s.launches) (n row col : Nat) :
      Finds Mismatched ((u.modLaunch lid fun m => { m with unit := n }).kill lid (Trap.mk' 0x13) row col).sweepRetired lid := by
    have found := (launch_modLaunch_any u lid lid (fun m => { m with unit := n }) fun _ => rfl).trans
      (by rw [State.launch?, hu, ← State.launch?, hl, Option.map_some, if_pos rfl])
    refine sweepRetired_finds ⟨_, (abort_launch _ lid _ _ _ lid).trans (by rw [found, Option.map_some, if_pos rfl]), rfl, rfl⟩ (.inl fun x hx mine => ?_) fun _ _ _ _ p => p
    obtain ⟨y, -, rfl⟩ := List.mem_map.1 hx
    by_cases hy : (y.lid == lid) = true
    · rw [if_pos hy]
    · rw [if_neg hy] at mine
      exact absurd (beq_iff_eq.2 mine) hy
  obtain ⟨m, hm, done, code⟩ := killed _ (detect_launches ..) _ _ _
  refine ⟨_, m, congrArg Host.Outcome.next ?_, hm, done, code⟩
  rw [hl]
  dsimp only
  rw [hd]
  dsimp only
  rw [hs]
  dsimp only
  rw [if_neg notP, if_neg notS]

/-- Settles O51. -/
theorem groupSteps : Obligations.GroupSteps := by
  refine ⟨fun s lid l hl => ⟨⟨progressGuard_expires hl, progressGuard_stands hl⟩, preemption_unasked hl, preemption_deferred hl, preemption_parks hl⟩,
    fun s k l c hl hc => ⟨quiescence_strikes hl hc, fun since nx hb => wfeTimeout_core hc hb, wfeTimeout_awake hc⟩, fun s a since nx hb => wfeTimeout_anole hb, ?_, ?_, ?_, ?_⟩
  · intro s lid l cp hl state third calm copies role
    exact ⟨checkpoint_waits hl copies, fun drained home ranges lag quiet _ => checkpoint_commits hl state third calm copies role drained home ranges lag quiet⟩
  · intro s lid l x place hl serves state save ctx waited good _ hx
    exact groupResume_resumes hl serves state save ctx waited good hx
  · intro s lid rank l o sp ss hl prot third calm state hs
    refine ⟨?_, fun differ good => ?_⟩
    · rintro cp c rfl hp hc home port room closed
      exact classDCompare_agrees hl prot third calm state hs hp hc home port room closed
    · obtain ⟨t, run, m, hm, disputed⟩ := classDCompare_differs hl prot third calm state hs differ good
      refine ⟨t, run, fun x hx => ?_⟩
      obtain rfl : m = x := Option.some.inj (hm.symm.trans hx)
      exact disputed.imp_left fun h => ⟨_, h, rfl, rfl, rfl, rfl⟩
  · intro s lid l d sg a b hl hd hs _ _
    exact ⟨thirdDecision_decides hl hd hs, thirdDecision_kills hl hd hs⟩

end Sys2Proof.Proofs
end

section
/-! What a push enters in its queue (R170 to R173, R182, R222). -/

namespace Sys2Proof.Proofs

open Sys2Proof.Machine Sys2Proof.Laws

variable {s t : State} {k : CoreRef} {l : Launch} {cp : Copy} {c : Core} {i : Instr} {op : EOp} {e : EArgs} {o : Operands} {p : Plan}
  {ts : Vector Token 64} {chunks : List (PadId × Nat)} {chained : Bool} {len : Nat}

/-! ### What the parts of a push leave -/

theorem reserve_keeps (cp : Copy) (xs : List (PadId × Nat)) : (cp.reserve xs).role = cp.role ∧ (cp.reserve xs).cores = cp.cores :=
  List.foldlRecOn xs _ (motive := fun x : Copy => x.role = cp.role ∧ x.cores = cp.cores) ⟨rfl, rfl⟩ fun _ h _ _ => h

/-- Only the tiles that a command names change before it enters its queue. -/
theorem markTiles_eq (c : Core) (q : Packet) (o : Operands) (tids : List (BitVec 512)) :
    ∃ ls, c.markTiles q o tids = { c with tens := { c.tens with lanes := ls } } := by
  unfold Core.markTiles
  dsimp only
  split <;> exact ⟨_, rfl⟩

theorem enter_eq (c : Core) (q : Packet) (o : Operands) (m : Cmd) : ∃ ls, c.enter q o m =
    { c with tens := { c.tens with lanes := ls }, eng := { c.eng with cmds := c.eng.cmds ++ [m], nextCmd := c.eng.nextCmd + 1 } } := by
  obtain ⟨ls, h⟩ := markTiles_eq c q o m.tids
  exact ⟨ls, by rw [Core.enter, h]⟩

theorem enter_rank (c : Core) (q : Packet) (o : Operands) (m : Cmd) : (c.enter q o m).rank = c.rank := by
  obtain ⟨ls, h⟩ := enter_eq c q o m
  rw [h]

/-- The chunks that a push reserves, after what its core has observed of durable memory is bound to it. -/
def reserved (s : State) (k : CoreRef) (chunks : List (PadId × Nat)) : State :=
  (s.bindLags (s.agentsOf k) (s.agentsOf k)).modCopy k fun cp => cp.reserve chunks

theorem reserved_core (s : State) (k : CoreRef) (chunks : List (PadId × Nat)) (j : CoreRef) : (reserved s k chunks).core? j = s.core? j :=
  core_modCopy_same (s := s.bindLags _ _) (k := k) (fun cp => cp.reserve chunks) (fun x => (reserve_keeps x chunks).1) (fun x => (reserve_keeps x chunks).2) j

/-- A core with one command more in its queue and its tokens `ts`. -/
def queuedCore (q : Packet) (o : Operands) (ts : Vector Token 64) (m : Cmd) (c : Core) : Core :=
  ({ c with sync := { c.sync with tokens := ts } } : Core).enter q o m |>.countPush

theorem queuedCore_rank (q : Packet) (o : Operands) (ts : Vector Token 64) (m : Cmd) (c : Core) : (queuedCore q o ts m c).rank = c.rank :=
  enter_rank _ q o m

/-- What a push leaves that enters command `m`. -/
def queued (s : State) (k : CoreRef) (q : Packet) (o : Operands) (chunks : List (PadId × Nat)) (ts : Vector Token 64) (m : Cmd) : State :=
  (reserved s k chunks).modCore k (queuedCore q o ts m)

/-- After the pc has moved past the push, its command is in the queue, and no other core has changed. -/
theorem queued_pushed (hc : s.core? k = some c) (q : Packet) (o : Operands) (chunks : List (PadId × Nat)) (ts : Vector Token 64) (m : Cmd) (len : Nat) :
    Pushed s ((queued s k q o chunks ts m).modRegsOf (.core k) fun r => r.skip len) k c m ts (c.regs.skip len) := by
  obtain ⟨ls, entered⟩ := enter_eq { c with sync := { c.sync with tokens := ts } } q o m
  have rank := queuedCore_rank q o ts m
  refine ⟨?_, fun j hj => ?_, rfl, rfl, rfl, rfl, rfl, rfl, rfl, rfl, rfl, rfl, rfl⟩
  · refine ⟨{ queuedCore q o ts m c with regs := (queuedCore q o ts m c).regs.skip len }, ?_, ?_⟩
    · rw [modRegsOf_core, coreAt_modCore (fun x => { x with regs := x.regs.skip len }) fun _ => rfl, queued, coreAt_modCore _ rank, reserved_core, hc]
      rfl
    · rw [queuedCore, entered]
      exact ⟨rfl, rfl, rfl, rfl, rfl, rfl, rfl, rfl⟩
  · rw [modRegsOf_core, coreAt_modCore_ne hj (fun x => { x with regs := x.regs.skip len }) fun _ => rfl, queued, coreAt_modCore_ne hj _ rank, reserved_core]

/-! ### The checks, and the entry -/

theorem exec_pushOf (h : pushOf i = some (op, e, chained, len)) (s : State) : exec i s = push op e none chained len s := by
  unfold pushOf at h
  split at h <;> cases h <;> rfl

theorem waitsForStream_false (h : o.readsK = true → ∀ m ∈ c.eng.cmds, m.op ≠ .vrun) : (o.readsK && c.eng.cmds.any fun m => m.op == .vrun) = false := by
  cases reads : o.readsK with
  | false => rfl
  | true =>
    rw [Bool.true_and, List.any_eq_false]
    exact fun m hm => by simpa using h reads m hm

/-- A push whose checks pass enters its command. -/
theorem pushOwn_enters (hctx : ctxOf k s = .ok ((l, cp, c), s)) (ok : s.PushOk k l cp c o e p ts chunks) (chained : Bool) (pc : Word) :
    ∃ m, m.asPushed cp c o e chained p chunks ∧ m.lane = false ∧ pushOwn k o e chained none pc s = .ok ((), queued s k l.packet o chunks ts m) := by
  obtain ⟨operands, -, ⟨desc, targets, ws, rs, hdesc, multi, single, checked, hchunks⟩, tokens, room, counts⟩ := ok
  have named : (if o.op = .cpyMc then mcTargets l c o.xc none else some []) = some targets := by
    split
    next h => exact multi h
    next h => rw [single h]
  have free : (decide (32 ≤ c.depth (engineSrc o.op) false) || cp.lanesFull (engineSrc o.op) []) = false := by
    rw [decide_eq_false (Nat.not_le.2 room)]
    rfl
  have below : (chunks.any fun x => decide (63 ≤ (cp.chunk x).pend)) = false := by
    rw [List.any_eq_false]
    exact fun x hx => by simpa using counts x hx
  refine ⟨{ mkCmd o c p desc chained false none 0#7 (some e) (ws, rs) c.muslin.seg c.loop.pushes (cp.outstanding c) pc chunks with prior := cp.pushedNow o },
    ⟨⟨rfl, rfl, rfl, rfl, rfl⟩, ⟨rfl, rfl⟩, ⟨rfl, rfl⟩, ⟨rfl, rfl, rfl, rfl⟩, ⟨rfl, rfl, rfl⟩, rfl, rfl, rfl, rfl, rfl⟩, rfl, ?_⟩
  unfold pushOwn
  rw [bind_ok hctx]
  simp only [Option.map_none, operands, bne_self_eq_false, raiseIf_false, pure_bind_act]
  rw [bind_ok hdesc]
  simp only [named, pure_bind_act]
  rw [bind_ok checked]
  simp only [orRaise_ok, pure_bind_act, tokens]
  rw [bind_ok hctx]
  simp only [Option.getD_none, free, holdIf_false, pure_bind_act, ← hchunks, below]
  rw [bind_ok (modify_run _), bind_ok (onCore_run ..), bind_ok (onCore_run ..)]
  exact congrArg (fun u => Except.ok ((), u)) (modCore_modCore (s := reserved s k chunks) (k := k) (fun x => { x with sync := { x.sync with tokens := ts } }) _ fun _ => rfl)

theorem push_enters (ht : s.CoreTurn k l cp c) (he : s.executes c.regs e.guard)
    (ho : o = { op := op, flags := e.flags, xa := c.regs.get e.xa, xb := c.regs.get e.xb, xc := c.regs.get e.xc }) (ok : s.PushOk k l cp c o e p ts chunks)
    (chained : Bool) (len : Nat) : ∃ t m, push op e none chained len s = .next t ∧ m.asPushed cp c o e chained p chunks ∧ m.lane = false ∧
      Pushed s t k c m ts (c.regs.skip len) := by
  obtain ⟨m, pushed, lane, run⟩ := pushOwn_enters (ctxOf_run ht.launch ht.copy ht.core) ok chained c.regs.pc
  refine ⟨_, m, scalar_on he.1 he.2, pushed, lane, ?_⟩
  rw [ht.cur, runAct_adv (s' := queued s k l.packet o chunks ts m)]
  · exact queued_pushed ht.core ..
  · rw [bind_ok (theCore_turn ht)]
    have values : operandsOf op e c.regs = o := ho.symm
    simp only [values, waitsForStream_false ok.kregs, holdIf_false, pure_bind_act]
    rw [bind_ok run]
    rfl

/-- A value that step 2 of R171 refuses. -/
theorem push_refuses (ht : s.CoreTurn k l cp c) (he : s.executes c.regs e.guard)
    (ho : o = { op := op, flags := e.flags, xa := c.regs.get e.xa, xb := c.regs.get e.xb, xc := c.regs.get e.xc }) (bad : operandFault o none l.packet.vim ≠ 0)
    (idle : o.readsK = true → ∀ m ∈ c.eng.cmds, m.op ≠ .vrun) (chained : Bool) (len : Nat) :
    push op e none chained len s = .next ((s.endCommit s.cur).takeFault s.cur (Trap.mk' (operandFault o none l.packet.vim))) := by
  refine scalar_trap he ?_
  have values : operandsOf op e c.regs = o := ho.symm
  rw [bind_ok (theCore_turn ht)]
  simp only [values, waitsForStream_false idle, holdIf_false, pure_bind_act]
  refine bind_error ?_
  unfold pushOwn
  rw [bind_ok (ctxOf_run ht.launch ht.copy ht.core)]
  simp only [Option.map_none, bne_iff_ne.2 bad, raiseIf_true, raise_bind, raise_run]

/-- Settles O40. -/
theorem enginePush : Obligations.EnginePush := by
  intro i op e chained len s k l cp c o hi ht he ho
  rw [exec_pushOf hi]
  refine ⟨fun p ts chunks ok => push_enters ht he ho ok chained len, fun bad idle => ?_⟩
  rw [traps, exec_pushOf hi]
  exact push_refuses ht he ho bad idle chained len

end Sys2Proof.Proofs
end

section
/-! Gang pushes (R219, R220): a replica in the lane of every partner. -/

namespace Sys2Proof.Proofs

open Sys2Proof.Machine Sys2Proof.Laws

variable {s t : State} {k : CoreRef} {l : Launch} {cp : Copy} {c : Core} {o : Operands} {e : EArgs} {chained : Bool} {gid : Nat} {bar : BitVec 7}
  {seg number : Nat} {after : List Nat} {pc : Word} {ps : List Nat} {ts : Vector Token 64} {reps : List Replica}

/-! ### The checks of the replicas -/

theorem of_bind_ok {α β : Type} {x : Act α} {f : α → Act β} {r : β × State} (h : (x >>= f) s = .ok r) : ∃ a u, x s = .ok (a, u) ∧ f a u = .ok r := by
  rw [bind_run] at h
  cases hx : x s with
  | error e => rw [hx] at h; cases h
  | ok p => rw [hx] at h; exact ⟨p.1, p.2, rfl, h⟩

/-- The replicas that are checked are those of the partners, in order. -/
theorem checkReplicas_ranks (h : checkReplicas k o ps s = .ok (reps, t)) : reps.map (fun x => x.rank) = ps := by
  induction ps generalizing s reps t with
  | nil => cases h; rfl
  | cons r ps ih =>
    unfold checkReplicas at h
    obtain ⟨ctx, s1, -, h⟩ := of_bind_ok h
    obtain ⟨res, s2, -, h⟩ := of_bind_ok h
    obtain ⟨rest, s3, tail, h⟩ := of_bind_ok h
    cases h
    rw [List.map_cons, ih tail]

theorem failedReplica_none (h : ∀ x ∈ reps, ∃ p, x.res = .ok p) : failedReplica reps = none := by
  induction reps with
  | nil => rfl
  | cons x reps ih =>
    obtain ⟨p, hp⟩ := h x (List.mem_cons_self ..)
    rw [failedReplica, hp]
    exact ih fun y hy => h y (List.mem_cons_of_mem x hy)

theorem lanesFull_false {src : Nat} (h : ∀ r ∈ ps, ∃ d : Core, cp.core? r = some d ∧ d.depth src true < 32) : cp.lanesFull src ps = false := by
  rw [Copy.lanesFull, List.any_eq_false]
  intro r hr
  obtain ⟨d, hd, room⟩ := h r hr
  simpa [hd] using room

/-! ### The entry of the replicas -/

theorem core_some {j : CoreRef} (h : s.core? j = some c) : ∃ l cp, ctxOf j s = .ok ((l, cp, c), s) := by
  obtain ⟨cp, hp, -⟩ := Option.bind_eq_some_iff.1 (h : (s.copy? j).bind _ = _)
  obtain ⟨l, hl, -⟩ := Option.bind_eq_some_iff.1 (hp : (s.launch? j.lid).bind _ = _)
  exact ⟨l, cp, ctxOf_run hl hp h⟩

/-- Command `m` is the replica of a gang command in the lane of core `r`: the issuer's alone waits and posts. -/
structure LaneCmd (k : CoreRef) (o : Operands) (e : EArgs) (chained : Bool) (after : List Nat) (r : Nat) (m : Cmd) : Prop where
  lane : m.lane = true
  values : m.op = o.op ∧ m.xa = o.xa ∧ m.xb = o.xb ∧ m.xc = o.xc
  start : m.state = .queued ∧ m.chained = chained ∧ m.after = after
  post : m.post = if r = k.rank then e.post else 63#6
  waits : m.waits = if r = k.rank then waitsOf e else []

theorem mkCmd_laneCmd (x : Replica) (p : Plan) (ws : List RecordOf × List (Nat × Nat)) :
    LaneCmd k o e chained after x.rank (mkCmd o c p 0#256 chained true (some gid) bar (if x.rank = k.rank then some e else none) ws seg number after pc x.chunks) := by
  refine ⟨rfl, ⟨rfl, rfl, rfl, rfl⟩, ⟨rfl, rfl, rfl⟩, ?_, ?_⟩
  all_goals
    unfold mkCmd
    dsimp only
    split <;> rfl

/-- Core `d` with one replica more in its lane, as `d'`. -/
structure LaneEntered (k : CoreRef) (o : Operands) (e : EArgs) (chained : Bool) (after : List Nat) (r : Nat) (d d' : Core) : Prop where
  entered : ∃ m, d'.eng.cmds = d.eng.cmds ++ [m] ∧ LaneCmd k o e chained after r m
  regs : d'.regs = d.regs
  sync : d'.sync = d.sync
  gangs : d'.eng.gangs = d.eng.gangs

theorem laneEntered_enter {r : Nat} {m : Cmd} (h : LaneCmd k o e chained after r m) (d : Core) (q : Packet) : LaneEntered k o e chained after r d (d.enter q o m) := by
  obtain ⟨ls, eq⟩ := enter_eq d q o m
  rw [eq]
  exact ⟨⟨m, rfl, h⟩, rfl, rfl, rfl⟩

/-- Replicas that have passed their checks enter the lanes of different cores; nothing else changes but the chunks they reserve. -/
theorem enterReplicas_enters (distinct : (reps.map fun x => x.rank).Nodup) (passed : ∀ x ∈ reps, ∃ p, x.res = .ok p)
    (found : ∀ x ∈ reps, ∃ d, s.core? (atRank k x.rank) = some d) :
    ∃ t, enterReplicas k o e chained gid bar seg number after pc reps s = .ok ((), t) ∧ (∃ L, t = { s with launches := L }) ∧
      (∀ j, (∀ x ∈ reps, j ≠ atRank k x.rank) → t.core? j = s.core? j) ∧
      ∀ x ∈ reps, ∀ d, s.core? (atRank k x.rank) = some d → ∃ d', t.core? (atRank k x.rank) = some d' ∧ LaneEntered k o e chained after x.rank d d' := by
  induction reps generalizing s with
  | nil => exact ⟨s, rfl, ⟨s.launches, rfl⟩, fun _ _ => rfl, fun x hx => absurd hx List.not_mem_nil⟩
  | cons x reps ih =>
    obtain ⟨apart, distinct⟩ := List.nodup_cons.1 distinct
    obtain ⟨⟨p, ws, rs⟩, hp⟩ := passed x (List.mem_cons_self ..)
    obtain ⟨d, hd⟩ := found x (List.mem_cons_self ..)
    obtain ⟨l, cp, ctx⟩ := core_some hd
    let m := mkCmd o d p 0#256 chained true (some gid) bar (if x.rank = k.rank then some e else none) (ws, rs) seg number after pc x.chunks
    let u := (s.modCopy k fun cp => cp.reserve x.chunks).modCore (atRank k x.rank) fun c => c.enter l.packet o m
    have same (j : CoreRef) : (s.modCopy k fun cp => cp.reserve x.chunks).core? j = s.core? j :=
      core_modCopy_same (fun cp => cp.reserve x.chunks) (fun y => (reserve_keeps y x.chunks).1) (fun y => (reserve_keeps y x.chunks).2) j
    have rank : ∀ y : Core, (y.enter l.packet o m).rank = y.rank := fun y => enter_rank y l.packet o m
    have own : u.core? (atRank k x.rank) = some (d.enter l.packet o m) := by rw [coreAt_modCore _ rank, same, hd]; rfl
    have other {j : CoreRef} (hj : j ≠ atRank k x.rank) : u.core? j = s.core? j := by rw [coreAt_modCore_ne hj _ rank, same]
    have differ {y : Replica} (hy : y ∈ reps) : atRank k y.rank ≠ atRank k x.rank := fun h =>
      apart (List.mem_map.2 ⟨y, hy, (CoreRef.mk.inj h).2.2⟩)
    obtain ⟨t, run, ⟨L, frame⟩, others, entered⟩ := ih (s := u) distinct (fun y hy => passed y (List.mem_cons_of_mem x hy))
      fun y hy => by rw [other (differ hy)]; exact found y (List.mem_cons_of_mem x hy)
    refine ⟨t, ?_, ⟨L, frame⟩, fun j hj => ?_, fun y hy b hb => ?_⟩
    · unfold enterReplicas
      rw [bind_ok ctx]
      simp only [hp]
      rw [bind_ok (modify_run _), bind_ok (onCore_run ..)]
      exact run
    · rw [others j fun y hy => hj y (List.mem_cons_of_mem x hy), other (hj x (List.mem_cons_self ..))]
    · rcases List.mem_cons.1 hy with rfl | hy
      · obtain rfl : d = b := Option.some.inj (hd.symm.trans hb)
        exact ⟨_, (others _ fun z hz => (differ hz).symm).trans own, laneEntered_enter (mkCmd_laneCmd y p (ws, rs)) d l.packet⟩
      · exact entered y hy b ((other (differ hy)).trans hb)

/-! ### The push -/

/-- The issuer when the replicas enter: its tokens are those the push leaves, and the partners see what it has observed. -/
def gangIssued (s : State) (k : CoreRef) (ts : Vector Token 64) (ps : List Nat) : State :=
  let u := s.modCore k fun c => { c with sync := { c.sync with tokens := ts } }
  u.bindLags (u.agentsOf k) (ps.flatMap fun r => u.agentsOf (atRank k r))

/-- The issuer notes the partners that have to complete. -/
def gangNoted (w : GangWait) (c : Core) : Core := { c.countPush with eng := { c.eng with gangs := c.eng.gangs ++ [w] } }

/-- The issuer's core when the push has ended: it has noted the gang, and its pc has moved. -/
def gangEnded (w : GangWait) (len : Nat) (c : Core) : Core := { gangNoted w c with regs := c.regs.skip len }

theorem gangEnded_modCore (w : GangWait) (len : Nat) : ((s.modCore k (gangNoted w)).modRegsOf (.core k) fun x => x.skip len) = s.modCore k (gangEnded w len) := by
  rw [modRegsOf_core]
  exact modCore_modCore (gangNoted w) (fun x => { x with regs := x.regs.skip len }) fun _ => rfl

/-- A gang push whose checks pass runs to the entry of its replicas. -/
theorem pushGang_enters (hctx : ctxOf k s = .ok ((l, cp, c), s)) (operands : operandFault o (some ps.length) l.packet.vim = 0)
    (pointers : gangPointers k o s = .ok ((), s)) (tokens : pushTokens c.eng.nextCmd c.sync.tokens e.post (waitsOf e) = some ts)
    (room : c.depth (engineSrc o.op) false < 32) (lanes : ∀ r ∈ ps, ∃ d : Core, cp.core? r = some d ∧ d.depth (engineSrc o.op) true < 32)
    (checked : checkReplicas k o ps s = .ok (reps, s)) (passed : ∀ x ∈ reps, ∃ p, x.res = .ok p)
    (counts : ∀ y, (cp.chunk y).pend + (reps.flatMap fun x => x.chunks).count y ≤ 63) {w : GangWait}
    (hw : w = { id := c.eng.nextCmd * 4096 + k.rank, bar := bar, partners := ps, left := ps })
    (entered : enterReplicas k o e chained w.id bar c.muslin.seg c.loop.pushes (cp.outstanding c) pc reps (gangIssued s k ts ps) = .ok ((), t)) :
    pushGang k o e chained bar ps pc s = .ok ((), t.modCore k (gangNoted w)) := by
  have free : (decide (32 ≤ c.depth (engineSrc o.op) false) || cp.lanesFull (engineSrc o.op) ps) = false := by
    rw [decide_eq_false (Nat.not_le.2 room), lanesFull_false lanes]
    rfl
  have below : ((reps.flatMap fun x => x.chunks).any fun y => decide (63 < (cp.chunk y).pend + (reps.flatMap fun x => x.chunks).count y)) = false := by
    rw [List.any_eq_false]
    exact fun y _ => by simpa using counts y
  subst hw
  unfold pushGang
  rw [bind_ok hctx]
  simp only [operands, bne_self_eq_false, raiseIf_false, pure_bind_act]
  rw [bind_ok pointers]
  simp only [tokens, pure_bind_act, free, holdIf_false]
  rw [bind_ok checked]
  simp only [failedReplica_none passed, pure_bind_act, below, holdIf_false]
  rw [bind_ok (onCore_run ..), bind_ok (modify_run _)]
  exact (bind_ok entered).trans rfl

/-- The core that a gang push leaves at a partner: its replica, and at the issuer its note, tokens and pc. -/
structure GangLeft (k : CoreRef) (o : Operands) (e : EArgs) (chained : Bool) (after : List Nat) (ts : Vector Token 64) (w : GangWait) (len r : Nat) (d d' : Core) : Prop where
  entered : ∃ m, d'.eng.cmds = d.eng.cmds ++ [m] ∧ LaneCmd k o e chained after r m
  regs : d'.regs = if r = k.rank then d.regs.skip len else d.regs
  issuer : r = k.rank → d'.sync.tokens = ts ∧ d'.eng.gangs = d.eng.gangs ++ [w]

theorem gangLeft_issuer {w : GangWait} {len : Nat} {d d' : Core} (h : LaneEntered k o e chained after k.rank { d with sync := { d.sync with tokens := ts } } d') :
    GangLeft k o e chained after ts w len k.rank d (gangEnded w len d') := by
  obtain ⟨entered, regs, sync, gangs⟩ := h
  refine ⟨entered, ?_, fun _ => ⟨?_, ?_⟩⟩
  · rw [if_pos rfl]
    exact congrArg (fun x => x.skip len) regs
  · show d'.sync.tokens = ts
    rw [sync]
  · show d'.eng.gangs ++ [w] = _
    rw [gangs]

theorem gangLeft_partner {w : GangWait} {len r : Nat} {d d' : Core} (hr : r ≠ k.rank) (h : LaneEntered k o e chained after r d d') :
    GangLeft k o e chained after ts w len r d d' :=
  ⟨h.entered, h.regs.trans (if_neg hr).symm, fun e => absurd e hr⟩

/-- Every partner's core after the replicas have entered, the issuer has noted them and its pc has moved. -/
theorem gang_leaves (hc : s.core? k = some c) (ranks : reps.map (fun x => x.rank) = ps) (distinct : ps.Nodup) (passed : ∀ x ∈ reps, ∃ p, x.res = .ok p)
    (found : ∀ r ∈ ps, ∃ d, s.core? (atRank k r) = some d) (w : GangWait) (len : Nat) :
    ∃ t, enterReplicas k o e chained gid bar seg number after pc reps (gangIssued s k ts ps) = .ok ((), t) ∧ (t.dram = s.dram ∧ t.sys = s.sys) ∧
      ∀ r ∈ ps, ∀ d, s.core? (atRank k r) = some d → ∃ d', ((t.modCore k (gangNoted w)).modRegsOf (.core k) fun x => x.skip len).core? (atRank k r) = some d' ∧
        GangLeft k o e chained after ts w len r d d' := by
  have replica {r : Nat} (hr : r ∈ ps) : ∃ x ∈ reps, x.rank = r := by
    rw [← ranks] at hr
    exact List.mem_map.1 hr
  have issuer : (gangIssued s k ts ps).core? k = some { c with sync := { c.sync with tokens := ts } } := by
    refine (coreAt_modCore (s := s) (fun c => { c with sync := { c.sync with tokens := ts } }) fun _ => rfl).trans ?_
    rw [hc]
    rfl
  have partner {r : Nat} (hr : r ≠ k.rank) : (gangIssued s k ts ps).core? (atRank k r) = s.core? (atRank k r) :=
    coreAt_modCore_ne (s := s) (fun h => hr (congrArg CoreRef.rank h)) (fun c => { c with sync := { c.sync with tokens := ts } }) fun _ => rfl
  obtain ⟨t, run, ⟨L, frame⟩, -, entered⟩ := enterReplicas_enters (k := k) (o := o) (e := e) (chained := chained) (gid := gid) (bar := bar) (seg := seg) (number := number)
      (after := after) (pc := pc) (s := gangIssued s k ts ps) (ranks ▸ distinct) passed fun x hx => by
    by_cases hr : x.rank = k.rank
    · rw [hr]
      exact ⟨_, issuer⟩
    · rw [partner hr]
      exact found _ (ranks ▸ List.mem_map.2 ⟨x, hx, rfl⟩)
  refine ⟨t, run, by rw [frame]; exact ⟨rfl, rfl⟩, fun r hr d hd => ?_⟩
  obtain ⟨x, hx, rfl⟩ := replica hr
  rw [gangEnded_modCore]
  by_cases own : x.rank = k.rank
  · rw [own] at hd ⊢
    obtain rfl : c = d := Option.some.inj (hc.symm.trans hd)
    obtain ⟨d', hd', left⟩ := entered x hx _ (by rw [own]; exact issuer)
    rw [own] at hd' left
    have ended : (t.modCore k (gangEnded w len)).core? k = some (gangEnded w len d') := by
      rw [coreAt_modCore (gangEnded w len) fun _ => rfl, show t.core? k = some d' from hd']
      rfl
    exact ⟨gangEnded w len d', ended, gangLeft_issuer left⟩
  · obtain ⟨d', hd', left⟩ := entered x hx d ((partner own).trans hd)
    exact ⟨d', (coreAt_modCore_ne (fun h => own (congrArg CoreRef.rank h)) (gangEnded w len) fun _ => rfl).trans hd', gangLeft_partner own left⟩

/-- Settles O41. -/
theorem gangPush : Obligations.GangPush := by
  intro xa chained op e s k l cp c o ps reps ts single ht he ho small hps distinct mine operands idle pointers tokens room lanes checked passed counts
  have hctx := ctxOf_run ht.launch ht.copy ht.core
  have values : operandsOf op e c.regs = o := ho.symm
  have same : o.op = op := by rw [ho]
  have core {r : Nat} {d : Core} (h : cp.core? r = some d) : s.core? (atRank k r) = some d := by
    rw [State.core?, show s.copy? (atRank k r) = some cp from ht.copy]
    exact h
  obtain ⟨w, hw⟩ : ∃ w : GangWait, w = { id := c.eng.nextCmd * 4096 + k.rank, bar := (c.regs.get xa).setWidth 7, partners := ps, left := ps } := ⟨_, rfl⟩
  obtain ⟨t, entered, ⟨dram, sys⟩, left⟩ := gang_leaves (s := s) (k := k) (o := o) (e := e) (chained := chained) (gid := w.id) (bar := (c.regs.get xa).setWidth 7)
    (seg := c.muslin.seg) (number := c.loop.pushes) (after := cp.outstanding c) (pc := c.regs.pc) (ts := ts) ht.core (checkReplicas_ranks checked) distinct passed
    (fun r hr => let ⟨d, hd, _⟩ := lanes r hr; ⟨d, core hd⟩) w (if chained then 24 else 16)
  have pushed := pushGang_enters hctx operands pointers tokens (by rwa [same]) (by rwa [same]) checked passed counts hw entered
  refine ⟨(t.modCore k (gangNoted w)).modRegsOf (.core k) fun r => r.skip (if chained then 24 else 16), ?_, dram, sys, fun r hr d hd => ?_, fun d' hd' => ?_⟩
  · refine (scalar_on he.1 he.2).trans ?_
    rw [ht.cur, runAct_adv (s' := t.modCore k (gangNoted w))]
    have fits : (fieldNat (c.regs.get xa) 7 57 != 0) = false := by
      rw [bne_eq_false_iff_eq, fieldNat_eq, Nat.div_eq_of_lt small, Nat.zero_mod]
    rw [bind_ok (theCore_turn ht)]
    simp only [values, waitsForStream_false idle, holdIf_false, pure_bind_act, fits, raiseIf_false, if_neg single, ← hps]
    rw [bind_ok pushed]
    rfl
  · obtain ⟨d', found, ⟨m, cmds, lane⟩, regs, -⟩ := left r hr d (core hd)
    obtain ⟨isLane, ⟨hop, hxa, hxb, hxc⟩, ⟨state, chain, after⟩, post, waits⟩ := lane
    refine ⟨d', m, found, cmds, isLane, hop.trans same, hxa, hxb, hxc, state, chain, after, post, waits, regs.trans ?_⟩
    by_cases own : r = k.rank
    · subst own
      rw [if_pos rfl, if_pos rfl, Option.some.inj ((core hd).symm.trans ht.core)]
    · rw [if_neg own, if_neg own]
  · obtain ⟨d, found, -, -, issuer⟩ := left k.rank mine c ht.core
    obtain ⟨toks, gangs⟩ := issuer rfl
    obtain rfl : d = d' := Option.some.inj (found.symm.trans hd')
    exact ⟨toks, w, gangs, by rw [hw], by rw [hw], by rw [hw, BitVec.ofNat_toNat]⟩

end Sys2Proof.Proofs
end

section
/-! Stores on their way to a wider scope: at their homes, at the hosts, and those that commands have to write (R176, R305, R308, R323). -/

namespace Sys2Proof.Proofs

open Sys2Proof.Machine Sys2Proof.Laws

variable {s t : State} {k : CoreRef} {l : Launch} {cp : Copy} {c : Core} {m : Cmd} {w : PendWrite} {p : PadId} {q : Pad} {o : Nat} {h : HomeStore} {sc : Scope}

/-! ### Runs -/

theorem runStep_ok {a : Agent} {act : Act Unit} (h : act s = .ok ((), t)) : runStep a act s = t := by rw [runStep, h]

theorem blamed_ok {act : Act Unit} (h : act s = .ok ((), t)) : blamed m act s = .ok ((), t) := by
  rw [blamed, bind_ok (show attempt act s = .ok (.ok (), t) by rw [attempt, h])]
  rfl

/-- Where a core is found after a change of it. -/
theorem ctx_modCore (hl : s.launch? k.lid = some l) (hp : s.copy? k = some cp) (hc : s.core? k = some c) (f : Core → Core) (hf : ∀ x, (f x).rank = x.rank) :
    (s.modCore k f).launch? k.lid = some (l.modCopy k.role fun x => x.modCore k.rank f) ∧ (s.modCore k f).copy? k = some (cp.modCore k.rank f) ∧
      (s.modCore k f).core? k = some (f c) := by
  refine ⟨?_, ?_, ?_⟩
  · rw [launch_modCore, hl]
    rfl
  · rw [copy_modCore, hp]
    rfl
  · rw [coreAt_modCore f hf, hc]
    rfl

/-! ### A store at its home -/

/-- What a copy becomes by a store that reaches its home, where an access of `run` more bytes below and above may mend a word. -/
def arrived (h : HomeStore) (run : Nat × Nat) (x : Copy) : Copy :=
  ({ x with home := x.home ++ [h] } : Copy).modPad h.pad fun q => { q with mem := q.mem.mendRun h.off h.data.length run.1 run.2 }

theorem performPad_run (h : HomeStore) (run : Nat × Nat) : performPad k h run s = .ok ((), s.modCopy k (arrived h run)) := by
  refine Eq.trans ?_ (congrArg (fun t => Except.ok ((), t)) (modCopy_modCopy (s := s) (k := k) (fun c => { c with home := c.home ++ [h] })
    (fun c => c.modPad h.pad fun q => { q with mem := q.mem.mendRun h.off h.data.length run.1 run.2 }) fun _ => rfl))
  rfl

theorem arrived_cells (h : HomeStore) (run : Nat × Nat) (x : Copy) (p : PadId) :
    ((arrived h run x).pad? p).map (fun y => y.mem.cells) = (x.pad? p).map fun y => y.mem.cells := by
  have pads := pad_modPad ({ x with home := x.home ++ [h] } : Copy) h.pad p (fun q => { q with mem := q.mem.mendRun h.off h.data.length run.1 run.2 }) fun _ => rfl
  unfold arrived
  rw [pads, Option.map_map]
  refine congrArg (fun f => Option.map f (x.pad? p)) (funext fun y => ?_)
  show (if p = h.pad then _ else y : Pad).mem.cells = _
  split <;> rfl

theorem mendRun_calm {M : Store} (calm : M.bad = []) (a n lo hi : Nat) : M.mendRun a n lo hi = M := by
  obtain ⟨cells, base, bad⟩ := M
  obtain rfl : bad = [] := calm
  rfl

/-- Where no word is uncorrectable, a store at its home leaves the pads. -/
theorem arrived_pads {x : Copy} (calm : x.pad? h.pad = some q) (hb : q.mem.bad = []) (run : Nat × Nat) (r : PadId) : (arrived h run x).pad? r = x.pad? r := by
  unfold arrived
  rw [pad_modPad _ _ _ (fun q => { q with mem := q.mem.mendRun h.off h.data.length run.1 run.2 }) fun _ => rfl]
  by_cases same : r = h.pad
  · subst same
    rw [show ({ x with home := x.home ++ [h] } : Copy).pad? h.pad = some q from calm, Option.map_some, if_pos rfl, mendRun_calm hb, calm]
  · simp only [if_neg same, Option.map_id']
    rfl

/-- A store that the port holds reaches its home. -/
theorem portStore_performed {g : PortStore} {rest : List PortStore} (hp : s.copy? k = some cp) (hc : s.core? k = some c) (port : c.port = g :: rest) :
    ∃ t x, exec (.writePerformed (.port k 0)) s = .next t ∧ t.copy? k = some x ∧
      x.home = cp.home ++ [{ id := g.id, writer := k.rank, pad := g.pad, off := g.off, data := g.data, scope := .unit, readBy := g.read.toList.map fun n => (k.rank, n) }] ∧
      t.core? k = some { c with port := rest } ∧ otherCores s t k ∧ t.dram = s.dram ∧ t.sys = s.sys ∧
      ∀ p, (x.pad? p).map (fun y => y.mem.cells) = (cp.pad? p).map fun y => y.mem.cells := by
  let h : HomeStore := { id := g.id, writer := k.rank, pad := g.pad, off := g.off, data := g.data, scope := .unit, readBy := g.read.toList.map fun n => (k.rank, n) }
  let left (c : Core) : Core := { c with port := c.port.eraseIdx 0 }
  have cores (j : CoreRef) : ((s.modCore k left).modCopy k (arrived h (0, 0))).core? j = (s.modCore k left).core? j :=
    core_modCopy_same (arrived h (0, 0)) (fun _ => rfl) (fun _ => rfl) j
  refine ⟨(s.modCore k left).modCopy k (arrived h (0, 0)), arrived h (0, 0) (cp.modCore k.rank left), ?_, ?_, rfl, ?_, fun j hj => ?_, rfl, rfl, fun p => ?_⟩
  · show Host.Outcome.next (s.portHome k 0) = _
    unfold State.portHome
    rw [hc]
    dsimp only
    rw [port, List.getElem?_cons_zero]
    simp only [List.take_zero, List.any_nil, Bool.false_eq_true, if_false]
    rw [runStep, performStore, performPad_run]
  · rw [copy_modCopy_any _ k k (arrived h (0, 0)) fun _ => rfl, copy_modCore, hp]
    simp only [and_self, if_true, Option.map_some]
  · rw [cores, coreAt_modCore left fun _ => rfl, hc, Option.map_some]
    simp only [left, port, List.eraseIdx_cons_zero]
  · rw [cores, coreAt_modCore_ne hj left fun _ => rfl]
  · exact arrived_cells h (0, 0) (cp.modCore k.rank left) p

/-! ### A store at a wider scope -/

theorem carryLags_eq (w : Nat) (h : HomeStore) : ∃ L, s.carryLags cp w sc h = { s with lags := L } := by
  unfold State.carryLags
  split <;> exact ⟨_, rfl⟩

theorem carryAll_eq (w : Nat) (hs : List Placed) (u : State) : ∃ L, hs.foldl (fun t h => t.carryLags cp w sc h.2) u = { u with lags := L } := by
  induction hs generalizing u with
  | nil => exact ⟨u.lags, rfl⟩
  | cons h hs ih =>
    obtain ⟨L, e⟩ := carryLags_eq (s := u) (cp := cp) (sc := sc) w h.2
    rw [List.foldl_cons, e]
    exact ih _

/-- The stores of a copy are performed with what they drag along; of the rest of the machine only what durable memory shows to whom. -/
theorem promote_eq (hl : s.launch? k.lid = some l) (hp : s.copy? k = some cp) (sc : Scope) (f : HomeStore → Bool) :
    ∃ L, s.promote k sc f = { s.modCopy k (fun c => c.promote sc (cp.closure sc (cp.places f))) with lags := L } := by
  unfold State.promote
  rw [hl, hp]
  exact carryAll_eq ..

theorem launch_of_copy (hp : s.copy? k = some cp) : ∃ l, s.launch? k.lid = some l := by
  obtain ⟨l, hl, -⟩ := Option.bind_eq_some_iff.1 hp
  exact ⟨l, hl⟩

/-- The only store of a copy is chosen, with nothing else. -/
theorem closure_single (home : cp.home = [h]) (sc : Scope) : cp.closure sc (cp.places fun g => g == h) = [0] := by
  have place : cp.places (fun g => g == h) = [0] := by
    simp [Copy.places, home]
  rw [place, Copy.closure, Copy.placed, home]
  simp [dragAll, dragRound]

theorem promote_core_role (sc : Scope) (go : List Nat) (x : Copy) : (x.promote sc go).role = x.role ∧ (x.promote sc go).cores = x.cores := by
  have commits (hs : List Placed) (y : Copy) : (hs.foldl (fun c h => c.commitStore h.2) y).role = y.role ∧ (hs.foldl (fun c h => c.commitStore h.2) y).cores = y.cores := by
    induction hs generalizing y with
    | nil => exact ⟨rfl, rfl⟩
    | cons h hs ih => exact ih (y.commitStore h.2)
  unfold Copy.promote
  split
  · exact commits ..
  · exact ⟨rfl, rfl⟩

theorem widest_of_lt {a b : Scope} (h : scopeNum a < scopeNum b) : Scope.widest a b = b := by
  rw [Scope.widest, if_pos (Nat.le_of_lt h)]

theorem promote_single_wider (home : cp.home = [h]) (lower : scopeNum h.scope < scopeNum sc) (below : scopeNum sc < 3) :
    cp.promote sc [0] = { cp with home := [{ h with scope := sc }] } := by
  rw [Copy.promote, if_neg (Nat.not_le.2 below), Copy.placed, home]
  simp [widest_of_lt lower]

theorem promote_single_device (home : cp.home = [h]) (device : 3 ≤ scopeNum sc) : cp.promote sc [0] = ({ cp with home := [] } : Copy).commitStore h := by
  rw [Copy.promote, if_pos device, Copy.placed, home]
  simp

/-- The only store of a copy is performed at a scope. -/
theorem homeStore_performed {lid : Nat} {role : Role} (hp : s.copy? ⟨lid, role, 0⟩ = some cp) (home : cp.home = [h]) (lower : scopeNum h.scope < scopeNum sc) :
    ∃ t, exec (.writePerformed (.home lid role 0 sc)) s = .next t ∧ t.copy? ⟨lid, role, 0⟩ = some (cp.promote sc [0]) ∧ t.dram = s.dram ∧ t.sys = s.sys := by
  obtain ⟨l, hl⟩ := launch_of_copy hp
  obtain ⟨L, e⟩ := promote_eq hl hp sc fun g => g == h
  rw [closure_single home] at e
  refine ⟨{ s.modCopy ⟨lid, role, 0⟩ (fun x => x.promote sc [0]) with lags := L }, ?_, ?_, rfl, rfl⟩
  · show Host.Outcome.next _ = _
    dsimp only
    rw [hp, Option.bind_some, home, List.getElem?_cons_zero]
    dsimp only
    rw [if_neg (Nat.not_le.2 lower), e]
  · exact (copy_modCopy_any s ⟨lid, role, 0⟩ ⟨lid, role, 0⟩ (fun x => x.promote sc [0]) fun x => (promote_core_role sc [0] x).1).trans
      (by rw [hp, Option.map_some, if_pos ⟨rfl, rfl⟩])

theorem homeStore_stays {lid : Nat} {role : Role} (hp : s.copy? ⟨lid, role, 0⟩ = some cp) (home : cp.home = [h]) (reached : scopeNum sc ≤ scopeNum h.scope) :
    exec (.writePerformed (.home lid role 0 sc)) s = .next s := by
  show Host.Outcome.next _ = _
  dsimp only
  rw [hp, Option.bind_some, home, List.getElem?_cons_zero]
  dsimp only
  rw [if_pos reached]

theorem commitStore_pads (h : HomeStore) (x : Copy) (r : PadId) :
    (x.commitStore h).pad? r = (x.pad? r).map fun q => if r = h.pad then { q with mem := q.mem.put h.off h.data } else q :=
  pad_modPad x h.pad r (fun q => { q with mem := q.mem.put h.off h.data }) fun _ => rfl

/-- At device scope the scratchpad itself holds the store. -/
theorem homeStore_device {lid : Nat} {role : Role} (hp : s.copy? ⟨lid, role, 0⟩ = some cp) (home : cp.home = [h]) (lower : scopeNum h.scope < scopeNum sc) (device : 3 ≤ scopeNum sc)
    (hq : cp.pad? h.pad = some q) :
    ∃ t x, exec (.writePerformed (.home lid role 0 sc)) s = .next t ∧ t.copy? ⟨lid, role, 0⟩ = some x ∧ x.home = [] ∧
      x.pad? h.pad = some { q with mem := q.mem.put h.off h.data } ∧
      (∀ r, r ≠ h.pad → x.pad? r = cp.pad? r) ∧ x.cores = cp.cores ∧ t.dram = s.dram ∧ t.sys = s.sys := by
  obtain ⟨t, run, hx, frame⟩ := homeStore_performed hp home lower
  rw [promote_single_device home device] at hx
  refine ⟨t, _, run, hx, rfl, ?_, fun r hr => ?_, rfl, frame⟩
  · rw [commitStore_pads, show ({ cp with home := [] } : Copy).pad? h.pad = some q from hq, Option.map_some, if_pos rfl]
  · rw [commitStore_pads]
    simp only [if_neg hr, Option.map_id']
    rfl

/-! ### A released write at its host -/

theorem hostStore_performed {g : HostWrite} {rest : List HostWrite} (hw : s.host.writes = g :: rest) : exec (.writePerformed (.hostOut 0)) s =
    .next (if g.asked then State.putMasked { s with host := { s.host with writes := rest } } g.dpa g.mask g.data else s) := by
  show Host.Outcome.next (s.hostHome 0) = _
  unfold State.hostHome
  rw [hw, List.getElem?_cons_zero]
  cases asked : g.asked with
  | true => simp [asked]
  | false => simp [asked]

/-! ### What a command has to write -/

/-- A piece of `n` bytes at `a` of a command's write as a store at its home. -/
def pieceStore (writer : Nat) (m : Cmd) (w : PendWrite) (p : PadId) (bs : List Byte) (o id a n : Nat) : HomeStore :=
  { id := id, cmd := some m.id, chain := w.seq, writer := writer, pad := p, off := a, data := (bs.drop (a - o)).take n, scope := .unit, readBy := [] }

/-- What a copy becomes by such a piece. -/
def piecePut (writer : Nat) (m : Cmd) (w : PendWrite) (p : PadId) (bs : List Byte) (o id a n : Nat) (x : Copy) : Copy :=
  arrived (pieceStore writer m w p bs o id a n) (w.below + (a - o), w.above + (o + bs.length - (a + n))) { x with stores := x.stores + 1 }

/-- What a copy becomes by the pieces of a command's write, which have successive numbers. -/
def enginePut (writer : Nat) (m : Cmd) (w : PendWrite) (p : PadId) (bs : List Byte) (o id : Nat) : List (Nat × Nat) → Copy → Copy
  | [], x => x
  | (a, n) :: rs, x => enginePut writer m w p bs o (id + 1) rs (piecePut writer m w p bs o id a n x)

theorem enginePut_keeps {writer : Nat} {bs : List Byte} (id : Nat) (rs : List (Nat × Nat)) (x : Copy) :
    (enginePut writer m w p bs o id rs x).role = x.role ∧ (enginePut writer m w p bs o id rs x).cores = x.cores := by
  induction rs generalizing id x with
  | nil => exact ⟨rfl, rfl⟩
  | cons r rs ih => exact ih ..

/-- The stores that the pieces of a command's write are, with successive numbers. -/
def pieceStores (writer : Nat) (m : Cmd) (w : PendWrite) (p : PadId) (bs : List Byte) (o id : Nat) : List (Nat × Nat) → List HomeStore
  | [] => []
  | (a, n) :: rs => pieceStore writer m w p bs o id a n :: pieceStores writer m w p bs o (id + 1) rs

theorem enginePut_home {writer : Nat} {bs : List Byte} (id : Nat) (rs : List (Nat × Nat)) (x : Copy) :
    (enginePut writer m w p bs o id rs x).home = x.home ++ pieceStores writer m w p bs o id rs := by
  induction rs generalizing id x with
  | nil => exact (List.append_nil _).symm
  | cons r rs ih =>
    refine (ih (id + 1) (piecePut writer m w p bs o id r.1 r.2 x)).trans ?_
    rw [show (piecePut writer m w p bs o id r.1 r.2 x).home = x.home ++ [pieceStore writer m w p bs o id r.1 r.2] from rfl, List.append_assoc]
    rfl

theorem enginePut_pads {writer : Nat} {bs : List Byte} (id : Nat) (rs : List (Nat × Nat)) {x : Copy} (hq : x.pad? p = some q) (calm : q.mem.bad = []) (r : PadId) :
    (enginePut writer m w p bs o id rs x).pad? r = x.pad? r := by
  induction rs generalizing id x with
  | nil => rfl
  | cons y rs ih =>
    have pads (r : PadId) : (piecePut writer m w p bs o id y.1 y.2 x).pad? r = x.pad? r :=
      arrived_pads (h := pieceStore writer m w p bs o id y.1 y.2) (x := { x with stores := x.stores + 1 }) hq calm _ r
    exact (ih (id + 1) ((pads p).trans hq)).trans (pads r)

theorem performEngine_run {writer : Nat} {bs : List Byte} (hl : s.launch? k.lid = some l) (hp : s.copy? k = some cp) (hc : s.core? k = some c) (rs : List (Nat × Nat)) :
    performEngine k writer m w p bs o rs s = .ok ((), s.modCopy k (enginePut writer m w p bs o cp.stores rs)) := by
  induction rs generalizing s l cp c with
  | nil =>
    have same : (s.modCopy k fun x => x) = s := by
      simp [State.modCopy, State.modLaunch, Launch.modCopy]
    exact congrArg (fun t => Except.ok ((), t)) same.symm
  | cons r rs ih =>
    obtain ⟨a, n⟩ := r
    let h := pieceStore writer m w p bs o cp.stores a n
    let g := piecePut writer m w p bs o cp.stores a n
    have count : ((s.modCopy k fun x => { x with stores := x.stores + 1 }).modCopy k (arrived h (w.below + (a - o), w.above + (o + bs.length - (a + n))))) = s.modCopy k g :=
      modCopy_modCopy _ _ fun _ => rfl
    have launch : (s.modCopy k g).launch? k.lid = some (l.modCopy k.role g) := by
      rw [State.modCopy, launch_modLaunch (fun l => l.modCopy k.role g) fun _ => rfl, hl]
      rfl
    have copy : (s.modCopy k g).copy? k = some (g cp) := by
      rw [copy_modCopy_any s k k g fun _ => rfl, hp, Option.map_some, if_pos ⟨rfl, rfl⟩]
    have core : (s.modCopy k g).core? k = some c := (core_modCopy_same g (fun _ => rfl) (fun _ => rfl) k).trans hc
    unfold performEngine
    rw [bind_ok (ctxOf_run hl hp hc)]
    dsimp only
    rw [bind_ok (modify_run _)]
    refine (bind_ok (performPad_run h (w.below + (a - o), w.above + (o + bs.length - (a + n))))).trans ?_
    rw [count, ih launch copy core]
    exact congrArg (fun t => Except.ok ((), t)) (modCopy_modCopy g (enginePut writer m w p bs o (cp.stores + 1) rs) fun _ => rfl)

/-- The pieces in which a command's write in a scratchpad reaches its home (R176). -/
def writePieces (w : PendWrite) (o : Nat) : List (Nat × Nat) :=
  if w.bytewise then cutAt 8 (w.data.length / 8 + 2) o w.data.length else [(o, w.data.length)]

/-- A command's write in a scratchpad without an uncorrectable word is performed at its home. -/
theorem performWrite_pad (hl : s.launch? k.lid = some l) (hp : s.copy? k = some cp) (hc : s.core? k = some c) (place : w.loc = .pad p o) (whole : w.half = none)
    (hq : cp.pad? p = some q) (calm : q.mem.bad = []) (hk : CoreRef) :
    performWrite (m.acc k 2) hk m w s = .ok ((), s.modCopy k (enginePut c.rank m w p w.data o cp.stores (writePieces w o))) := by
  have sound : badTrap s (m.acc k 2) cp c w.loc w.data.length .write (some (w.below, w.above)) = none := by
    unfold badTrap
    simp [place, hq, Store.partBadRun, calm]
  unfold performWrite
  rw [bind_ok get_run]
  refine (bind_ok (ctxOf_run hl hp hc)).trans ?_
  dsimp only
  rw [sound]
  simp only [Option.isSome_none, raiseIf_false, pure_bind_act, place, PendWrite.bytes, whole]
  exact performEngine_run hl hp hc _

/-- What the pushing core may still read at the places of a write (R125). -/
def keptOld (s : State) (l : Launch) (cp : Copy) (c : Core) (id : Nat) (w : PendWrite) (d : Core) : Core :=
  d.modCmd id fun e => e.keepOld (oldBytes s l cp c w.loc w.data.length)

/-- A command of a core after a change of it. -/
theorem cmd_modCmd (f : Cmd → Cmd) (hf : ∀ x, (f x).id = x.id) (id : Nat) : (c.modCmd id f).cmd? id = (c.cmd? id).map f :=
  find_map_id (fun x : Cmd => x.id == id) f (fun x => by rw [hf]) c.eng.cmds

theorem cmd_keptOld (id : Nat) (d : Core) : (keptOld s l cp c id w d).cmd? id = (d.cmd? id).map fun e => e.keepOld (oldBytes s l cp c w.loc w.data.length) :=
  cmd_modCmd (fun e => e.keepOld (oldBytes s l cp c w.loc w.data.length)) (fun _ => rfl) id

/-- One write of a command in a scratchpad is performed; its core may still read what stood there. -/
theorem performSome_pad (hl : s.launch? k.lid = some l) (hp : s.copy? k = some cp) (hc : s.core? k = some c) (single : m.gang = none) (place : w.loc = .pad p o) (whole : w.half = none)
    (hq : cp.pad? p = some q) (calm : q.mem.bad = []) :
    performSome k m [w] s = .ok ((), (s.modCore k (keptOld s l cp c m.id w)).modCopy k (enginePut c.rank m w p w.data o cp.stores (writePieces w o))) := by
  let f := keptOld s l cp c m.id w
  have own : atRank k (m.issuer k.rank) = k := by rw [Cmd.issuer, single]; rfl
  obtain ⟨launch, copy, core⟩ := ctx_modCore hl hp hc f fun _ => rfl
  unfold performSome
  dsimp only
  rw [own, bind_ok get_run, bind_ok (ctxOf_run hl hp hc)]
  dsimp only
  rw [bind_ok (onCore_run ..)]
  refine (bind_ok (performWrite_pad launch copy core place whole hq calm k)).trans ?_
  rfl

/-- What the performance of a command's write in a scratchpad leaves: its pieces as stores at their home. -/
structure WriteAtHome (s u : State) (k : CoreRef) (l : Launch) (cp : Copy) (c : Core) (m : Cmd) (w : PendWrite) (p : PadId) (o : Nat) (x : Copy) : Prop where
  run : performSome k m [w] s = .ok ((), u)
  copy : u.copy? k = some x
  core : u.core? k = some (keptOld s l cp c m.id w c)
  home : x.home = cp.home ++ pieceStores k.rank m w p w.data o cp.stores (writePieces w o)
  pads : ∀ r, x.pad? r = cp.pad? r
  rest : u.dram = s.dram ∧ u.sys = s.sys

theorem write_atHome (hl : s.launch? k.lid = some l) (hp : s.copy? k = some cp) (hc : s.core? k = some c) (single : m.gang = none) (place : w.loc = .pad p o) (whole : w.half = none)
    (hq : cp.pad? p = some q) (calm : q.mem.bad = []) : ∃ u x, WriteAtHome s u k l cp c m w p o x := by
  let f := keptOld s l cp c m.id w
  let put := enginePut k.rank m w p w.data o cp.stores (writePieces w o)
  have keeps := enginePut_keeps (writer := k.rank) (m := m) (w := w) (p := p) (o := o) (bs := w.data) cp.stores (writePieces w o)
  have run := performSome_pad hl hp hc single place whole hq calm
  rw [(rank_of_core hp hc).1] at run
  refine ⟨(s.modCore k f).modCopy k put, put (cp.modCore k.rank f), run, ?_, ?_, enginePut_home ..,
    enginePut_pads (x := cp.modCore k.rank f) cp.stores (writePieces w o) hq calm, rfl, rfl⟩
  · rw [copy_modCopy_any _ k k put fun x => (keeps x).1, copy_modCore, hp]
    simp only [and_self, if_true, Option.map_some]
  · rw [core_modCopy_same put (fun x => (keeps x).1) (fun x => (keeps x).2), coreAt_modCore f fun _ => rfl, hc]
    rfl

theorem pickWrite_single (whole : w.bytewise = false) : withEarlier (pickWrite [w] 0 0) = [(true, w)] := by
  have cut : w.cut w.loc w.data.length = [(false, w)] ∨ w.cut w.loc w.data.length = [(true, w)] := by
    unfold PendWrite.cut
    split
    · exact .inl rfl
    · exact .inr (if_pos (by rw [whole]; rfl))
  have picked : pickWrite [w] 0 0 = [(true, w)] := by
    rcases cut with cut | cut <;> simp [pickWrite, cut, whole]
  rw [picked]
  simp [withEarlier]

/-- The only write of a running command, where it goes as a whole, is performed before the command completes (R176). -/
theorem element_performed {id : Nat} (hl : s.launch? k.lid = some l) (hp : s.copy? k = some cp) (hc : s.core? k = some c) (live : l.state.live = true) (sound : c.faulted = false)
    (hm : c.cmd? id = some m) (running : m.state = .running) (err : m.err = none) (single : m.gang = none) (writes : m.writes = [w]) (place : w.loc = .pad p o) (whole : w.half = none)
    (word : w.bytewise = false) (hq : cp.pad? p = some q) (calm : q.mem.bad = []) :
    ∃ t x, exec (.writePerformed (.element k id 0 0)) s = .next t ∧ t.copy? k = some x ∧
      x.home = cp.home ++ [{ id := cp.stores, cmd := some id, chain := w.seq, writer := k.rank, pad := p, off := o, data := w.data, scope := .unit, readBy := [] }] ∧
      ((t.core? k).bind fun d => d.cmd? id).map (fun e => e.writes) = some [] ∧ t.dram = s.dram ∧ t.sys = s.sys := by
  obtain rfl : m.id = id := by simpa using List.find?_some hm
  let done (m : Cmd) : Cmd := { m with writes := [] }
  let f (c : Core) : Core := c.modCmd m.id done
  obtain ⟨launch, copy, core⟩ := ctx_modCore hl hp hc f fun _ => rfl
  obtain ⟨t, x, run, copy, core, home, -, frame⟩ := write_atHome (m := m) launch copy core single place whole hq calm
  refine ⟨t, x, ?_, copy, ?_, ?_, frame⟩
  · refine congrArg Host.Outcome.next (runStep_ok ?_)
    rw [performElement, bind_ok (ctxOf_run hl hp hc)]
    simp only [hm, need_some, pure_bind_act, live, sound, running, err, Bool.not_true, Bool.false_or, bne_self_eq_false, Option.isSome_none, holdIf_false, writes,
      pickWrite_single word, List.filter_cons, List.filter_nil, Bool.false_eq_true, if_false, if_true, List.map_nil, List.map_cons]
    exact (bind_ok (onCore_run ..)).trans (blamed_ok run)
  · have pieces : writePieces w o = [(o, w.data.length)] := by rw [writePieces, word]; rfl
    rw [home, pieces]
    simp only [pieceStores, pieceStore, Copy.modCore, Nat.sub_self, List.drop_zero, List.take_length]
  · rw [core, Option.bind_some, cmd_keptOld, cmd_modCmd done fun _ => rfl, hm]
    rfl

end Sys2Proof.Proofs
end

section
/-! A line that a commit point releases (R362). -/

namespace Sys2Proof.Proofs

open Sys2Proof.Machine Sys2Proof.Laws

variable {s : State} {k : CoreRef} {l : Launch} {cp : Copy} {c : Core} {h : HeldLine} {sg : BitVec 64} {rf : Bool}

theorem releaseLine_plain {rank own : Nat} (plain : h.slotOf = none) (here : h.node = none) (device : h.dpa / 2 ^ 44 < 2) (calm : s.dram.bad = []) :
    ∃ ls oc, s.releaseLine l rank own h false = (false, { s with dram := putRuns s.dram h.dpa (maskedRuns h.mask h.data), lags := ls, oldCode := oc }) := by
  have taken : s.refuses h = false := by simp [State.refuses, here, calm]
  obtain ⟨ls, oc, e⟩ := lagMasked_eq s ([rank, own].eraseDups.flatMap fun r => s.agentsOf { lid := l.lid, role := .primary, rank := r }) h.dpa h.mask h.data
  have kind : (decide (h.dpa / 2 ^ 44 = 2) || decide (h.dpa / 2 ^ 44 = 3)) = false := by
    rw [decide_eq_false (by omega), decide_eq_false (by omega)]
    rfl
  refine ⟨ls, oc, ?_⟩
  rw [State.releaseLine, plain]
  dsimp only
  rw [taken, Bool.or_self, if_neg (by decide), State.performLine, here]
  dsimp only
  rw [kind, if_neg (by decide), e]

/-- The line leaves Muslin. -/
def lineGone (h : HeldLine) (c : Core) : Core := { c with muslin := { c.muslin with lines := c.muslin.lines.erase h } }

/-- The commit point notes whether a line was refused. -/
def lineNoted (bad : Bool) (c : Core) : Core :=
  { c with commit := match c.commit with
      | .releasing sig segs refused => .releasing sig segs (refused || bad)
      | x => x }

theorem releaseOne_plain (hl : s.launch? k.lid = some l) (hp : s.copy? k = some cp) (hc : s.core? k = some c) (plain : h.slotOf = none) (here : h.node = none)
    (device : h.dpa / 2 ^ 44 < 2) (ready : s.dpaReady h.dpa = true) (calm : s.dram.bad = []) (sound : c.muslin.bad = []) (die : s.rel.dieRetired (dieOf c.phys) = false) :
    ∃ t, releaseOne k (c.rank, h) s = .ok ((), t) ∧ t.dram = putRuns s.dram h.dpa (maskedRuns h.mask h.data) ∧ t.core? k = some (lineNoted false (lineGone h c)) := by
  obtain ⟨ls, oc, e⟩ := releaseLine_plain (l := l) (rank := k.rank) (own := c.rank) plain here device calm
  have rank := (rank_of_core hp hc).1
  have own : cp.core? c.rank = some c := by
    rw [rank]
    rwa [State.core?, hp] at hc
  have whole : c.lineBad h = false := by simp [Core.lineBad, sound]
  have linesReady : s.linesReady [(c.rank, h)] = true := by simp [State.linesReady, ready]
  let u : State := { s with dram := putRuns s.dram h.dpa (maskedRuns h.mask h.data), lags := ls, oldCode := oc }
  refine ⟨(u.modCore k (lineGone h)).modCore k (lineNoted false), ?_, rfl, ?_⟩
  rotate_left
  · rw [coreAt_modCore (lineNoted false) fun _ => rfl, coreAt_modCore (lineGone h) fun _ => rfl]
    exact congrArg (fun o => Option.map (lineNoted false) (Option.map (lineGone h) o)) hc
  unfold releaseOne
  rw [bind_ok get_run, bind_ok (ctxOf_run hl hp hc)]
  simp only [linesReady, Bool.not_true, holdIf_false, pure_bind_act, own, need_some, die, Bool.false_eq_true, if_false, whole, e]
  rw [bind_ok (set_run _), bind_ok (modify_run _), rank]
  rfl

/-- The only line that a commit point has to release is performed: its bytes under the mask are at home, and Muslin holds it no more. -/
theorem release_performed (hl : s.launch? k.lid = some l) (hp : s.copy? k = some cp) (hc : s.core? k = some c) (live : l.state.live = true) (commit : c.commit = .releasing sg [] rf)
    (lines : c.muslin.lines = [h]) (plain : h.slotOf = none) (here : h.node = none) (device : h.dpa / 2 ^ 44 < 2) (ready : s.dpaReady h.dpa = true) (calm : s.dram.bad = [])
    (wf : s.dram.wf = true) (sound : c.muslin.bad = []) (die : s.rel.dieRetired (dieOf c.phys) = false) :
    ∃ t d, exec (.writePerformed (.release k 0)) s = .next t ∧ t.core? k = some d ∧ d.muslin.lines = [] ∧ d.commit = .releasing sg [] rf ∧ d.regs = c.regs ∧
      ∀ x, t.dram.get x = if h.dpa ≤ x ∧ x < h.dpa + 64 ∧ h.mask.getLsbD (x - h.dpa) = true then h.data.extractLsb' (8 * (x - h.dpa)) 8 else s.dram.get x := by
  obtain ⟨t, run, dram, core⟩ := releaseOne_plain hl hp hc plain here device ready calm sound die
  have set : cp.releaseSet c [] = [(c.rank, h)] := by rw [Copy.releaseSet, lines]; rfl
  refine ⟨t, lineNoted false (lineGone h c), ?_, core, ?_, ?_, rfl, fun x => ?_⟩
  rotate_left
  · show c.muslin.lines.erase h = []
    rw [lines, List.erase_cons_head]
  · show (match c.commit with | .releasing sig segs refused => _ | x => x) = _
    rw [commit]
    exact congrArg (CommitState.releasing sg []) (Bool.or_false rf)
  · rw [dram]
    exact putRuns_masked wf h.mask h.data x
  · show Host.Outcome.next (runStep _ _ _) = _
    rw [runStep, releaseNth, bind_ok (ctxOf_run hl hp hc)]
    simp only [live, Bool.not_true, holdIf_false, pure_bind_act, commit, set, List.getElem?_cons_zero, need_some, run]

end Sys2Proof.Proofs
end

section
/-! Page walks that return and shoot-downs that complete (R335, R336, R338, R339). -/

namespace Sys2Proof.Proofs

open Sys2Proof.Machine Sys2Proof.Laws

variable {s : State} {k : CoreRef} {c : Core} {x : Walk} {b : Nat} {va : BitVec 64} {num : Nat}

/-! ### Walks -/

theorem pageWalkReturn_none (hc : s.core? k = some c) (none : ∀ x ∈ s.walks, x.owner = c.phys → x.tlb = b → x.va = va.toNat → x.num ≠ num) :
    exec (.pageWalkReturn k b va num) s = .next s := by
  have absent : s.walks.find? (fun y => y.owner == c.phys && y.tlb == b && y.va == va.toNat && y.num == num) = .none := by
    rw [List.find?_eq_none]
    intro x hx all
    simp only [Bool.and_eq_true, beq_iff_eq] at all
    obtain ⟨⟨⟨owner, tlb⟩, page⟩, number⟩ := all
    exact none x hx owner tlb page number
  show execPageWalkReturn k b va num s = _
  rw [execPageWalkReturn, hc]
  dsimp only
  rw [absent]

/-- The walk that `PAGE_WALK_RETURN` names. -/
structure WalkOf (s : State) (c : Core) (b : Nat) (va : BitVec 64) (num : Nat) (x : Walk) : Prop where
  found : s.walks.find? (fun y => y.owner == c.phys && y.tlb == b && y.va == va.toNat && y.num == num) = some x
  owner : x.owner = c.phys
  tlb : x.tlb = b
  number : x.num = num

theorem walkOf_found (found : s.walks.find? (fun y => y.owner == c.phys && y.tlb == b && y.va == va.toNat && y.num == num) = some x) : WalkOf s c b va num x := by
  have all := List.find?_some found
  simp only [Bool.and_eq_true, beq_iff_eq] at all
  obtain ⟨⟨⟨owner, tlb⟩, -⟩, number⟩ := all
  exact ⟨found, owner, tlb, number⟩

theorem pageWalkReturn_runs {t : State} (hc : s.core? k = some c) (hx : WalkOf s c b va num x) (run : walkReturn x s = .ok ((), t)) :
    exec (.pageWalkReturn k b va num) s = .next t := by
  show execPageWalkReturn k b va num s = _
  rw [execPageWalkReturn, hc]
  dsimp only
  rw [hx.found]
  dsimp only
  rw [runStep, run]

/-- A walk that began before its TLB's last shoot-down is repeated (R339). -/
theorem walk_repeated (hc : s.core? k = some c) (hx : WalkOf s c b va num x) (later : num < (s.tlb c.phys b).taken x.ctx) :
    ∃ t y, exec (.pageWalkReturn k b va num) s = .next t ∧ t.walks = (s.walks.map fun z => if z = x then y else z) ∧ y.owner = x.owner ∧ y.tlb = x.tlb ∧ y.va = x.va ∧
      y.num = (s.tlb c.phys b).taken x.ctx ∧ t.tlbs = s.tlbs ∧ t.dram = s.dram ∧ t.launches = s.launches := by
  have ⟨_, owner, tlb, number⟩ := hx
  have older : x.num < (s.tlb x.owner x.tlb).taken x.ctx := by rw [owner, tlb, number]; exact later
  let now := match (s.walk x.ctx x.part x.va).1 with
    | .leaf e => some e
    | .invalid => none
    | .poisoned _ _ => none
  let y : Walk := { x with num := (s.tlb x.owner x.tlb).taken x.ctx, leaf := now, tables := s.tablesFrom x.ctx x.va 5 (s.cxRoot x.ctx) }
  refine ⟨{ s with walks := s.walks.map fun z => if z = x then y else z }, y, pageWalkReturn_runs hc hx ?_, rfl, rfl, rfl, rfl, by rw [← owner, ← tlb], rfl, rfl, rfl⟩
  unfold walkReturn
  rw [bind_ok get_run]
  dsimp only
  rw [if_pos older]
  refine congrArg (fun ws => Except.ok ((), { s with walks := ws })) (List.map_congr_left fun z _ => ?_)
  by_cases same : z = x
  · rw [if_pos same, if_pos same, same] <;> rfl
  · rw [if_neg same, if_neg same]

/-- A walk whose TLB has taken no later shoot-down, and which found what the tables hold now, fills the TLB with it. -/
theorem walkReturn_leaf {e : TlbEntry} (current : (s.tlb x.owner x.tlb).taken x.ctx ≤ x.num) (now : (s.walk x.ctx x.part x.va).1 = .leaf e) (leaf : x.leaf = some e) :
    walkReturn x s = .ok ((), ({ s with walks := s.walks.erase x } : State).modTlb x.owner x.tlb fun t => t.fill e (s.tablesFrom x.ctx x.va 5 (s.cxRoot x.ctx))) := by
  unfold walkReturn
  rw [bind_ok get_run]
  dsimp only
  rw [if_neg (Nat.not_lt.2 current)]
  simp only [now, leaf, if_true, pure_bind_act, Bool.false_eq_true, if_false]
  rw [bind_ok (modify_run _)]
  rfl

/-- One that found nothing, where the tables hold nothing now, fills nothing. -/
theorem walkReturn_invalid (current : (s.tlb x.owner x.tlb).taken x.ctx ≤ x.num) (now : (s.walk x.ctx x.part x.va).1 = .invalid) (leaf : x.leaf = none) :
    walkReturn x s = .ok ((), { s with walks := s.walks.erase x }) := by
  unfold walkReturn
  rw [bind_ok get_run]
  dsimp only
  rw [if_neg (Nat.not_lt.2 current)]
  simp only [now, leaf, if_true, pure_bind_act, Bool.false_eq_true, if_false]
  rw [bind_ok (modify_run _)]
  rfl

/-! ### The TLBs of an agent -/

/-- What `setTlbs` makes of the entry of one agent. -/
def tlbsPut (o : Nat) (ts : List Tlb) (p : Nat × List Tlb) : Nat × List Tlb := if p.1 = o then (o, ts) else p

theorem tlbsPut_agent (o : Nat) (ts : List Tlb) (p : Nat × List Tlb) : (tlbsPut o ts p).1 = p.1 := by
  unfold tlbsPut
  split
  next h => exact h.symm
  next => rfl

theorem find_tlbsPut (o j : Nat) (ts : List Tlb) (xs : List (Nat × List Tlb)) :
    (xs.map (tlbsPut o ts)).find? (fun p => p.1 == j) = (xs.find? fun p => p.1 == j).map (tlbsPut o ts) :=
  find_map_eq (fun p : Nat × List Tlb => p.1 == j) (tlbsPut o ts) xs fun p _ => by rw [tlbsPut_agent]

theorem tlbsOf_setTlbs_same (o : Nat) (ts : List Tlb) : (s.setTlbs o ts).tlbsOf o = ts := by
  unfold State.setTlbs State.tlbsOf
  dsimp only
  cases hp : s.tlbs.find? fun p => p.1 == o with
  | none =>
    have absent : (s.tlbs.any fun p => p.1 == o) = false := by
      rw [List.any_eq_false]
      exact List.find?_eq_none.1 hp
    simp [absent, List.find?_append, hp]
  | some p =>
    have own : p.1 = o := by simpa using List.find?_some hp
    have held : (s.tlbs.any fun p => p.1 == o) = true := List.any_eq_true.2 ⟨p, List.mem_of_find?_eq_some hp, by simpa using own⟩
    have found := find_tlbsPut o o ts s.tlbs
    rw [hp, Option.map_some, tlbsPut, if_pos own] at found
    rw [held, if_pos rfl]
    exact congrArg (fun y => (y.map fun p : Nat × List Tlb => p.2).getD (List.replicate 10 Tlb.zero)) found

theorem tlbsOf_setTlbs_ne {o j : Nat} (hj : j ≠ o) (ts : List Tlb) : (s.setTlbs o ts).tlbsOf j = s.tlbsOf j := by
  unfold State.setTlbs State.tlbsOf
  dsimp only
  split
  next =>
    have found := find_tlbsPut o j ts s.tlbs
    refine (congrArg (fun y => (y.map fun p : Nat × List Tlb => p.2).getD (List.replicate 10 Tlb.zero)) found).trans ?_
    cases hp : s.tlbs.find? fun p => p.1 == j with
    | none => rfl
    | some p =>
      have own : p.1 = j := by simpa using List.find?_some hp
      rw [Option.map_some, tlbsPut, if_neg fun e => hj (own.symm.trans e)]
  next => simp [List.find?_append, Ne.symm hj]

theorem tlb_modTlb {o i : Nat} (f : Tlb → Tlb) (hi : i < (s.tlbsOf o).length) : (s.modTlb o i f).tlb o i = f (s.tlb o i) := by
  rw [State.modTlb, State.tlb, tlbsOf_setTlbs_same, State.tlb]
  simp [List.getD_eq_getElem?_getD, List.getElem?_eq_getElem hi]

/-- A walk that returns fills its TLB with what the tables hold. -/
theorem walk_fills {e : TlbEntry} (hc : s.core? k = some c) (hx : WalkOf s c b va num x) (current : (s.tlb c.phys b).taken x.ctx ≤ num)
    (count : (s.tlbsOf c.phys).length = 10) (hb : b < 10)
    (now : (s.walk x.ctx x.part x.va).1 = .leaf e) (leaf : x.leaf = some e) :
    ∃ t, exec (.pageWalkReturn k b va num) s = .next t ∧ t.walks = s.walks.erase x ∧
      t.tlb c.phys b = (s.tlb c.phys b).fill e (s.tablesFrom x.ctx x.va 5 (s.cxRoot x.ctx)) ∧ (∀ o, o ≠ c.phys → t.tlbsOf o = s.tlbsOf o) ∧
      t.dram = s.dram ∧ t.launches = s.launches := by
  have ⟨_, owner, tlb, number⟩ := hx
  have run := walkReturn_leaf (by rw [owner, tlb, number]; exact current) now leaf
  rw [owner, tlb] at run
  exact ⟨_, pageWalkReturn_runs hc hx run, rfl, tlb_modTlb _ (by rw [← count] at hb; exact hb), fun o ho => tlbsOf_setTlbs_ne ho _, rfl, rfl⟩

theorem walk_ends (hc : s.core? k = some c) (hx : WalkOf s c b va num x) (current : (s.tlb c.phys b).taken x.ctx ≤ num) (now : (s.walk x.ctx x.part x.va).1 = .invalid)
    (leaf : x.leaf = none) :
    ∃ t, exec (.pageWalkReturn k b va num) s = .next t ∧ t.walks = s.walks.erase x ∧ t.tlbs = s.tlbs ∧ t.dram = s.dram ∧ t.launches = s.launches := by
  have ⟨_, owner, tlb, number⟩ := hx
  exact ⟨_, pageWalkReturn_runs hc hx (walkReturn_invalid (by rw [owner, tlb, number]; exact current) now leaf), rfl, rfl, rfl, rfl⟩

/-! ### Shoot-downs -/

theorem shootdown_none {x : BitVec 6} (none : ∀ d ∈ s.shoots, d.ctx ≠ x) : exec (.shootdownComplete x) s = .next s := by
  have absent : s.shoots.find? (fun d => d.ctx == x) = .none := by
    rw [List.find?_eq_none]
    exact fun d hd => by simpa using none d hd
  show execShootdownComplete x s = _
  rw [execShootdownComplete, absent]

theorem shootdown_waits {x : BitVec 6} {d : Shootdown} (found : s.shoots.find? (fun y => y.ctx == x) = some d) (waits : d.waiting ≠ [] ∨ s.staleCmd x d.q = true) :
    exec (.shootdownComplete x) s = .next s := by
  have blocked : (d.waiting.isEmpty && !s.staleCmd x d.q) = false := by
    rcases waits with waits | stale
    · simp [waits]
    · simp [stale]
  show execShootdownComplete x s = _
  rw [execShootdownComplete, found]
  simp only [blocked, Bool.false_eq_true, if_false]

/-- The oldest shoot-down of a context completes: `CX.sddone` shows its number. -/
theorem shootdown_completes {x : BitVec 6} {d : Shootdown} (found : s.shoots.find? (fun y => y.ctx == x) = some d) (taken : d.waiting = []) (fresh : s.staleCmd x d.q = false)
    (words : s.sysOk) (fits : d.q < 2 ^ 32) :
    ∃ t, exec (.shootdownComplete x) s = .next t ∧ t.shoots = s.shoots.erase d ∧ t.sysF (cxOff x + 16) 32 32 = d.q ∧
      t.sysF (cxOff x + 16) 0 32 = s.sysF (cxOff x + 16) 0 32 ∧ t.dram = s.dram ∧ t.launches = s.launches := by
  let u : State := { s with shoots := s.shoots.erase d }
  refine ⟨u.sysSetF (cxOff x + 16) 32 32 d.q, ?_, rfl, ?_, ?_, rfl, rfl⟩
  · show execShootdownComplete x s = _
    rw [execShootdownComplete, found]
    simp [taken, fresh, u]
  · rw [sysF_sysSetF_same (s := u) words (by decide), Nat.mod_eq_of_lt fits]
  · rw [sysF_sysSetF_apart (s := u) words (by decide) (by decide)]
    exact sysF_congr rfl ..

end Sys2Proof.Proofs
end

section
/-! Promotions of blocks, and frames that go back on their stacks (R351, R353). -/

namespace Sys2Proof.Proofs

open Sys2Proof.Machine Sys2Proof.Laws

variable {s : State} {p : BitVec 4} {b : BitVec 20} {i f n : Nat} {hbm : Bool}

/-! ### Promotions -/

/-- The promotion of a block is asked for no more. -/
def promoteTaken (s : State) (p : BitVec 4) (b : BitVec 20) : State := { s with kv := { s.kv with promote := s.kv.promote.erase (p, b.toNat) } }

theorem kvPromote_unasked (h : (p, b.toNat) ∉ s.kv.promote) : exec (.kvPromote p b) s = .next s := by
  show execKvPromote p b s = _
  rw [execKvPromote, if_neg]
  simpa using h

theorem kvPromote_asked (h : (p, b.toNat) ∈ s.kv.promote) : exec (.kvPromote p b) s =
    .next (if s.khEn p.toNat && !s.kvBad p.toNat b.toNat && !s.dram.badIn (s.kvGet p.toNat b.toNat).frame (s.khF p.toNat) then (promoteTaken s p b).kvPromote p b.toNat
      else promoteTaken s p b) := by
  show execKvPromote p b s = _
  rw [execKvPromote, if_pos]
  · rfl
  · simpa using h

theorem kvPromote_not_demoted {id : Nat} (h : (s.kvGet p.toNat id).state ≠ 3) : s.kvPromote p id = s := by
  unfold State.kvPromote
  dsimp only
  rw [if_pos h]

/-- A promotion that the table does not allow is not made. -/
theorem kvPromote_not_made (h : (p, b.toNat) ∈ s.kv.promote)
    (bar : s.khEn p.toNat = false ∨ (s.kvGet p.toNat b.toNat).state ≠ 3 ∨ s.dram.badIn (s.kvGet p.toNat b.toNat).frame (s.khF p.toNat) = true) :
    exec (.kvPromote p b) s = .next (promoteTaken s p b) := by
  rw [kvPromote_asked h]
  refine congrArg Host.Outcome.next ?_
  rcases bar with off | state | bad
  · simp [off]
  · rw [kvPromote_not_demoted (s := promoteTaken s p b) state, ite_self]
  · simp [bad]

theorem kvPop_empty (h : s.kvCnt p.toNat hbm = 0) : s.kvPop p.toNat hbm = (none, s) := by
  rw [State.kvPop, h, kvPopGo]

theorem kvPop_usable (h : s.kvCnt p.toNat hbm = n + 1) (usable : s.kvFrameOk p.toNat hbm (s.dramWord (s.kvPool p.toNat hbm + 8 * n)) = true) :
    s.kvPop p.toNat hbm = (some (s.dramWord (s.kvPool p.toNat hbm + 8 * n)).toNat, s.kvSetCnt p.toNat hbm n) := by
  rw [State.kvPop, h, kvPopGo]
  exact if_pos usable

/-- A demoted block stays where it is when its pool gives no frame. -/
theorem kvPromote_empty {id : Nat} {u : State} (h : (s.kvGet p.toNat id).state = 3) (pop : s.kvPop p.toNat true = (none, u)) : s.kvPromote p id = u := by
  unfold State.kvPromote
  dsimp only
  rw [if_neg (by rw [h]; decide), pop]

/-- A demoted block takes the frame that its pool gives. -/
theorem kvPromote_moves {id g : Nat} {u : State} (h : (s.kvGet p.toNat id).state = 3) (pop : s.kvPop p.toNat true = (some g, u)) :
    s.kvPromote p id =
      ((u.kvCopy p.toNat (s.kvGet p.toNat id).frame g).kvPut p.toNat id { s.kvGet p.toNat id with frame := g, state := 2 }).kvRelease p (s.kvGet p.toNat id).frame false := by
  unfold State.kvPromote
  dsimp only
  rw [if_neg (by rw [h]; decide), pop]

/-- A promotion that the table allows is made when its pool has a frame. -/
theorem kvPromote_made (h : (p, b.toNat) ∈ s.kv.promote) (enabled : s.khEn p.toNat = true) (entry : s.kvBad p.toNat b.toNat = false) (demoted : (s.kvGet p.toNat b.toNat).state = 3)
    (sound : s.dram.badIn (s.kvGet p.toNat b.toNat).frame (s.khF p.toNat) = false) :
    (s.kvCnt p.toNat true = 0 → exec (.kvPromote p b) s = .next (promoteTaken s p b)) ∧
      ∀ n f, s.kvCnt p.toNat true = n + 1 → f = s.dramWord (s.kvPool p.toNat true + 8 * n) → s.kvFrameOk p.toNat true f = true →
        exec (.kvPromote p b) s = .next (((((promoteTaken s p b).kvSetCnt p.toNat true n).kvCopy p.toNat (s.kvGet p.toNat b.toNat).frame f.toNat).kvPut p.toNat b.toNat
          { s.kvGet p.toNat b.toNat with frame := f.toNat, state := 2 }).kvRelease p (s.kvGet p.toNat b.toNat).frame false) := by
  have runs : exec (.kvPromote p b) s = .next ((promoteTaken s p b).kvPromote p b.toNat) := by
    rw [kvPromote_asked h, if_pos (by rw [enabled, entry, sound]; rfl)]
  refine ⟨fun empty => ?_, fun n f count hf usable => ?_⟩
  · rw [runs, kvPromote_empty (s := promoteTaken s p b) demoted (kvPop_empty empty)]
  · subst hf
    rw [runs, kvPromote_moves (s := promoteTaken s p b) demoted (kvPop_usable count usable)]
    rfl

/-! ### Frames -/

theorem kvFrameRelease_none (h : s.kv.release[i]? = none) : exec (.kvFrameRelease i) s = .next s := by
  show execKvFrameRelease i s = _
  rw [execKvFrameRelease, h]

theorem kvFrameRelease_used (h : s.kv.release[i]? = some (p, f, hbm)) (used : s.kvFrameUsed f = true) : exec (.kvFrameRelease i) s = .next s := by
  show execKvFrameRelease i s = _
  rw [execKvFrameRelease, h]
  simp only [used, if_true]

/-- A frame that no command uses goes back on its stack. -/
theorem kvFrameRelease_pushed (h : s.kv.release[i]? = some (p, f, hbm)) (unused : s.kvFrameUsed f = false) (words : s.sysOk) (room : s.kvCnt p.toNat hbm < s.kvCap p.toNat hbm) :
    ∃ t, exec (.kvFrameRelease i) s = .next t ∧ t.kvCnt p.toNat hbm = s.kvCnt p.toNat hbm + 1 ∧ t.kv.release = s.kv.release.eraseIdx i ∧
      t.dram = (s.dramPutWord (s.kvPool p.toNat hbm + 8 * s.kvCnt p.toNat hbm) (ofU f)).dram ∧ t.launches = s.launches := by
  let u : State := { s with kv := { s.kv with release := s.kv.release.eraseIdx i } }
  let v : State := u.dramPutWord (s.kvPool p.toNat hbm + 8 * s.kvCnt p.toNat hbm) (BitVec.ofNat 64 f)
  have fits : s.kvCnt p.toNat hbm + 1 < 2 ^ 32 := by
    have cap : s.kvCap p.toNat hbm < 2 ^ 32 := by
      rw [State.kvCap, State.sysF, fieldNat_eq]
      exact Nat.mod_lt _ (by decide)
    omega
  refine ⟨v.kvSetCnt p.toNat hbm (s.kvCnt p.toNat hbm + 1), ?_, ?_, rfl, rfl, rfl⟩
  · show execKvFrameRelease i s = _
    rw [execKvFrameRelease, h]
    simp only [unused, Bool.false_eq_true, if_false]
    refine congrArg Host.Outcome.next ?_
    unfold State.kvPush
    exact if_pos room
  · rw [State.kvCnt, State.kvSetCnt, sysF_sysSetF_same (s := v) words (by decide), Nat.mod_eq_of_lt fits]

/-- Settles O53. -/
theorem memorySteps : Obligations.MemorySteps := by
  refine ⟨⟨fun s k cp c h rest hp hc port => portStore_performed hp hc port, fun s lid role cp h sc hp home => ?_, fun s h rest hw => ?_,
      fun s k l cp c id m w p o q hl hp hc live sound hm running err single writes place whole word hq calm =>
        element_performed hl hp hc live sound hm running err single writes place whole word hq calm,
      fun s k l cp c sg rf h hl hp hc live commit lines plain here device ready calm wf sound die =>
        release_performed hl hp hc live commit lines plain here device ready calm wf sound die⟩,
    ⟨fun s k c b va num hc => ?_, fun s x => ?_⟩, ⟨fun s p b u y hu hy => ?_, fun s i => ?_⟩⟩
  · refine ⟨homeStore_stays hp home, fun lower below => ?_, fun q lower device hq => homeStore_device hp home lower device hq⟩
    obtain ⟨t, run, copy, frame⟩ := homeStore_performed hp home lower
    exact ⟨t, run, by rw [copy, promote_single_wider home lower below], frame⟩
  · rw [hostStore_performed hw]
    exact ⟨fun asked => by rw [asked]; rfl, fun asked => by rw [asked]; rfl⟩
  · refine ⟨pageWalkReturn_none hc, fun x found => ?_⟩
    have hx := walkOf_found found
    exact ⟨walk_repeated hc hx, fun current count hb => ⟨fun e now leaf => walk_fills hc hx current count hb now leaf, fun now leaf => walk_ends hc hx current now leaf⟩⟩
  · exact ⟨shootdown_none, fun d found => ⟨shootdown_waits found, shootdown_completes found⟩⟩
  · subst hu hy
    exact ⟨kvPromote_unasked, kvPromote_not_made, fun asked enabled entry demoted sound _ => kvPromote_made asked enabled entry demoted sound⟩
  · exact ⟨kvFrameRelease_none, fun p f hbm h => ⟨kvFrameRelease_used h, kvFrameRelease_pushed h⟩⟩

end Sys2Proof.Proofs
end

section
/-! The start of an engine command: its conditions, what starting notes, ACLR and VRUN (R173, R209, R218, R299). -/

namespace Sys2Proof.Proofs

open Sys2Proof.Machine Sys2Proof.Laws

variable {s t : State} {k : CoreRef} {l : Launch} {cp : Copy} {c d : Core} {m : Cmd} {id : Nat} {part : Bool} {w : Work}

/-! ### Starting -/

theorem start_waits (hl : s.launch? k.lid = some l) (hp : s.copy? k = some cp) (hc : s.core? k = some c) (hm : c.cmd? id = some m) (waits : startOk s l cp c m = false) :
    exec (.engineCommandStart k { cmd := id, partly := part }) s = .next s := by
  show Host.Outcome.next (runStep _ _ _) = _
  rw [runStep, startCommand, bind_ok get_run, bind_ok (ctxOf_run hl hp hc)]
  simp only [hm, need_some, pure_bind_act, waits, Bool.not_false, holdIf_true, hold_bind]
  rfl

/-- A command that has begun to read: the norm it may use is that of its start. -/
def readingCmd (c : Core) (part : Bool) (m : Cmd) : Cmd :=
  { m with state := .reading, partly := part, short := false, normAt := if m.state = .queued then c.tens.norms.toList.getD m.normReg Norm.zero else m.normAt }

/-- A command that has run. -/
def ranCmd (w : Work) (m : Cmd) : Cmd := { m with state := .running, writes := m.writes ++ w.writes, raised := w.raised, norm := w.norm, normAdds := w.normAdds }

/-- The remote lines of an owner are spent. -/
def spentLines (owner : Nat) (c : Core) : Core := { c with remote := c.remote.filter fun r => r.owner != owner }

/-- A command that runs without a fault leaves its writes. -/
theorem start_runs (hl : s.launch? k.lid = some l) (hp : s.copy? k = some cp) (hc : s.core? k = some c) (hm : c.cmd? id = some m) (ok : startOk s l cp c m = true)
    (run : runCommand k (readingCmd c part m) (s.modCore k fun x => x.modCmd id fun _ => readingCmd c part m) = .ok (w, t)) :
    exec (.engineCommandStart k { cmd := id, partly := part }) s = .next ((t.modCore k (spentLines (m.id + 1))).modCore k fun x => x.modCmd id (ranCmd w)) := by
  have quiet : attempt (runCommand k (readingCmd c part m)) (s.modCore k fun x => x.modCmd id fun _ => readingCmd c part m) = .ok (.ok w, t) := by rw [attempt, run]
  refine congrArg Host.Outcome.next (runStep_ok ?_)
  rw [startCommand, bind_ok get_run, bind_ok (ctxOf_run hl hp hc)]
  simp only [hm, need_some, pure_bind_act, ok, Bool.not_true, holdIf_false]
  rw [bind_ok (onCore_run ..)]
  exact (bind_ok quiet).trans (bind_ok (onCore_run ..))

/-! ### The command in its core -/

/-- A command of a core that takes another's place under the same number. -/
theorem cmd_modCmd_const {e : Cmd} (he : e.id = id) : (c.modCmd id fun _ => e).cmd? id = (c.cmd? id).map fun _ => e := by
  have same := find_map_eq (fun x : Cmd => x.id == id) (fun x => if x.id == id then e else x) c.eng.cmds fun x _ => by
    split
    next h => rw [he, beq_self_eq_true, h]
    next => rfl
  refine same.trans ?_
  show (c.cmd? id).map _ = _
  cases hx : c.cmd? id with
  | none => rfl
  | some x => rw [Option.map_some, Option.map_some, if_pos (List.find?_some (p := fun x : Cmd => x.id == id) hx)]

theorem cmd_congr (h : d.eng.cmds = c.eng.cmds) (id : Nat) : d.cmd? id = c.cmd? id := by rw [Core.cmd?, Core.cmd?, h]

theorem id_of_cmd (hm : c.cmd? id = some m) : m.id = id := by simpa using List.find?_some hm

/-- A command that has begun to read, in its core. -/
def readingCore (part : Bool) (m : Cmd) (c : Core) : Core := c.modCmd m.id fun _ => readingCmd c part m

theorem cmd_readingCore (hm : c.cmd? id = some m) : (readingCore part m c).cmd? id = some (readingCmd c part m) := by
  obtain rfl := id_of_cmd hm
  have number : (readingCmd c part m).id = m.id := rfl
  rw [readingCore, cmd_modCmd_const number, hm]
  rfl

/-- The core when a command has run, from the one its run leaves. -/
def ranCore (w : Work) (m : Cmd) (d : Core) : Core := (spentLines (m.id + 1) d).modCmd m.id (ranCmd w)

theorem cmd_ranCore (d : Core) (m : Cmd) : (ranCore w m d).cmd? m.id = (d.cmd? m.id).map (ranCmd w) := cmd_modCmd (c := spentLines (m.id + 1) d) (ranCmd w) (fun _ => rfl) m.id

/-- A command that runs without a fault changes its own core as its run does; its writes are noted there. -/
theorem start_leaves (hl : s.launch? k.lid = some l) (hp : s.copy? k = some cp) (hc : s.core? k = some c) (hm : c.cmd? id = some m) (ok : startOk s l cp c m = true)
    (run : runCommand k (readingCmd c part m) (s.modCore k fun x => x.modCmd m.id fun _ => readingCmd c part m) = .ok (w, t))
    (only : onlyCore (s.modCore k fun x => x.modCmd m.id fun _ => readingCmd c part m) t k d) :
    ∃ u, exec (.engineCommandStart k { cmd := id, partly := part }) s = .next u ∧ onlyCore s u k (ranCore w m d) := by
  obtain rfl := id_of_cmd hm
  have began := onlyCore_trans (onlyCore_modCore (fun x => x.modCmd m.id fun _ => readingCmd c part m) (fun _ => rfl) hc) only
  exact ⟨_, start_runs hl hp hc hm ok run, onlyCore_step (onlyCore_step began (spentLines (m.id + 1)) (fun _ => rfl) rfl) (fun x => x.modCmd m.id (ranCmd w)) (fun _ => rfl) rfl⟩

/-- Where the run is one change of its core. -/
theorem start_changes (hl : s.launch? k.lid = some l) (hp : s.copy? k = some cp) (hc : s.core? k = some c) (hm : c.cmd? id = some m) (ok : startOk s l cp c m = true) (f : Core → Core)
    (rank : ∀ x, (f x).rank = x.rank) (run : ∀ u, runCommand k (readingCmd c part m) u = .ok (w, u.modCore k f)) :
    ∃ u, exec (.engineCommandStart k { cmd := id, partly := part }) s = .next u ∧ onlyCore s u k (ranCore w m (f (readingCore part m c))) := by
  have began := onlyCore_modCore (fun x => x.modCmd m.id fun _ => readingCmd c part m) (fun _ => rfl) hc
  exact start_leaves hl hp hc hm ok (run _) (onlyCore_modCore f rank began.1)

/-! ### VRUN -/

/-- The stream that VRUN starts. -/
def startedStream (m : Cmd) : Stream := { cmd := m.id, spc := m.xa.setWidth 14, cycle := 0, landings := [], elastic := none, ended := false, err := none }

theorem vrun_starts (hl : s.launch? k.lid = some l) (hp : s.copy? k = some cp) (hc : s.core? k = some c) (hm : c.cmd? id = some m) (ok : startOk s l cp c m = true) (op : m.op = .vrun) :
    ∃ t d st, exec (.engineCommandStart k { cmd := id, partly := part }) s = .next t ∧ onlyCore s t k d ∧ d.eng.stream = some st ∧
      st.cmd = m.id ∧ st.spc.toNat = m.xa.toNat % 2 ^ 14 ∧ st.cycle = 0 ∧ st.landings = [] ∧ st.ended = false ∧ d.regs = c.regs ∧ d.vregs = c.vregs ∧
      (d.cmd? id).map (fun e => e.state) = some .running := by
  let f (x : Core) : Core := { x with eng := { x.eng with stream := some (startedStream m) } }
  obtain ⟨t, run, only⟩ := start_changes (part := part) hl hp hc hm ok f (fun _ => rfl) (w := Work.of [] fNone) fun u => by
    unfold runCommand
    rw [show (readingCmd c part m).op = .vrun from op]
    rfl
  refine ⟨t, _, startedStream m, run, only, rfl, rfl, BitVec.toNat_setWidth .., rfl, rfl, rfl, rfl, rfl, ?_⟩
  obtain rfl := id_of_cmd hm
  rw [cmd_ranCore, show (f (readingCore part m c)).cmd? m.id = (readingCore part m c).cmd? m.id from rfl, cmd_readingCore hm]
  rfl

/-! ### ACLR -/

/-- `n` lanes from `b` on at zero, in their modes. -/
def clearedLanes (b n : Nat) (c : Core) : Core :=
  { c with tens := { c.tens with lanes := Vector.ofFn fun i =>
      if b ≤ i.val && i.val < b + n then { Lane.zero with integer := c.tens.lanes[i.val].integer, valid := c.tens.lanes[i.val].valid } else c.tens.lanes[i.val] } }

/-- What a command keeps of the accumulator bytes before it writes them (R125). -/
def accKept (c : Core) (off : Nat) (bs : List Byte) (m : Cmd) : Cmd :=
  { m with old := (m.old.filter fun p => !(p.1.meets 1 (.acc off) bs.length)) ++ bs.zipIdx.map fun p => (Loc.acc (off + p.2), c.tens.acc.get (off + p.2)) }

theorem cmd_putAcc (c : Core) (i off : Nat) (bs : List Byte) : (c.putAcc i off bs).cmd? i = (c.cmd? i).map (accKept c off bs) :=
  cmd_modCmd (c := { c with tens := { c.tens with acc := c.tens.acc.put off bs } }) (accKept c off bs) (fun _ => rfl) i

/-- `n` banks from `b` on cleared for command `id`. -/
def cleared (id b n : Nat) (c : Core) : Core := clearedLanes b n (c.putAcc id (b * 4096) (List.replicate (4096 * n) 0#8))

theorem clearedLanes_eng (b n : Nat) (c : Core) : (clearedLanes b n c).eng = c.eng := by simp only [clearedLanes]

theorem cmd_cleared (id b n : Nat) (c : Core) : (cleared id b n c).cmd? id = (c.cmd? id).map (accKept c (b * 4096) (List.replicate (4096 * n) 0#8)) :=
  (cmd_congr (congrArg Engines.cmds (clearedLanes_eng b n _)) id).trans (cmd_putAcc ..)

theorem cleared_lane (id b n : Nat) (c : Core) (i : Fin 128) : (cleared id b n c).tens.lanes[i.val] = if b ≤ i.val ∧ i.val < b + n then
    { Lane.zero with integer := c.tens.lanes[i.val].integer, valid := c.tens.lanes[i.val].valid } else c.tens.lanes[i.val] := by
  unfold cleared clearedLanes
  rw [Vector.getElem_ofFn]
  simp only [Bool.and_eq_true, decide_eq_true_eq]
  rfl

theorem cleared_keeps (id b n : Nat) (c : Core) : (cleared id b n c).tens.acc = c.tens.acc.put (b * 4096) (List.replicate (4096 * n) 0#8) ∧ (cleared id b n c).regs = c.regs ∧
    (cleared id b n c).sync = c.sync ∧ (cleared id b n c).vregs = c.vregs ∧ (cleared id b n c).rank = c.rank := ⟨rfl, rfl, rfl, rfl, rfl⟩

theorem aclr_runs (n1 : 1 ≤ m.xb.toNat) : runAclr k m s = .ok (Work.of [] fNone, s.modCore k (cleared m.id (m.xa.toNat / 2) m.xb.toNat)) := by
  unfold runAclr
  simp only [if_neg (show ¬ m.xb.toNat = 0 by omega)]
  rfl

theorem aclr_starts {b n : Nat} (hl : s.launch? k.lid = some l) (hp : s.copy? k = some cp) (hc : s.core? k = some c) (hm : c.cmd? id = some m) (ok : startOk s l cp c m = true)
    (op : m.op = .aclr) (none : m.writes = []) (hb : b = m.xa.toNat / 2) (hn : n = m.xb.toNat) (n1 : 1 ≤ n) :
    ∃ t d, exec (.engineCommandStart k { cmd := id, partly := part }) s = .next t ∧ onlyCore s t k d ∧
      d.tens.acc = c.tens.acc.put (b * 4096) (List.replicate (4096 * n) 0#8) ∧ d.regs = c.regs ∧ d.sync = c.sync ∧ d.vregs = c.vregs ∧
      (∀ i : Fin 128, d.tens.lanes[i.val] = if b ≤ i.val ∧ i.val < b + n then
        { Lane.zero with integer := c.tens.lanes[i.val].integer, valid := c.tens.lanes[i.val].valid } else c.tens.lanes[i.val]) ∧
      (d.cmd? id).map (fun e => (e.state, e.writes, e.raised)) = some (.running, [], 0#7) := by
  subst hb hn
  obtain ⟨acc, regs, sync, vregs, -⟩ := cleared_keeps m.id (m.xa.toNat / 2) m.xb.toNat (readingCore part m c)
  have lanes := cleared_lane m.id (m.xa.toNat / 2) m.xb.toNat (readingCore part m c)
  have cmd := cmd_cleared m.id (m.xa.toNat / 2) m.xb.toNat (readingCore part m c)
  obtain ⟨t, run, only⟩ := start_changes (part := part) hl hp hc hm ok (cleared m.id (m.xa.toNat / 2) m.xb.toNat) (fun x => (cleared_keeps _ _ _ x).2.2.2.2) (w := Work.of [] fNone)
    fun u => by
      unfold runCommand
      rw [show (readingCmd c part m).op = .aclr from op]
      exact aclr_runs (m := readingCmd c part m) n1
  generalize cleared m.id (m.xa.toNat / 2) m.xb.toNat (readingCore part m c) = d at *
  refine ⟨t, _, run, only, acc, regs, sync, vregs, lanes, ?_⟩
  obtain rfl := id_of_cmd hm
  rw [cmd_ranCore, cmd, cmd_readingCore hm]
  show some (CmdState.running, m.writes ++ [], fNone) = _
  rw [none]
  rfl

end Sys2Proof.Proofs
end

section
/-! The completion of an engine command, and the fault of its run (R174, R175, R133). -/

namespace Sys2Proof.Proofs

open Sys2Proof.Machine Sys2Proof.Laws

variable {s t : State} {k : CoreRef} {l : Launch} {cp : Copy} {c d : Core} {m : Cmd} {id : Nat} {sc : Scope} {e : BitVec 6}

/-! ### Tokens do not put a core in WFE -/

/-- A core that is blocked no otherwise than before. -/
def BlockLess (c d : Core) : Prop := d.block = c.block ∨ d.block = .none

theorem BlockLess.trans {x : Core} (h : BlockLess c d) (h' : BlockLess d x) : BlockLess c x := by
  rcases h' with h' | h'
  · rcases h with h | h
    · exact .inl (h'.trans h)
    · exact .inr (h'.trans h)
  · exact .inr h'

theorem BlockLess.awake (h : BlockLess c d) (hb : ∀ a b, c.block ≠ .wfe a b) (a : Nat) (b : Word) : d.block ≠ .wfe a b := by
  rcases h with h | h
  · rw [h]
    exact hb a b
  · rw [h]
    exact nofun

theorem blockLess_foldl {α : Type} {f : Core → α → Core} (hf : ∀ d x, BlockLess d (f d x)) (xs : List α) (c : Core) : BlockLess c (xs.foldl f c) := by
  induction xs generalizing c with
  | nil => exact .inl rfl
  | cons x xs ih => exact (hf c x).trans (ih _)

theorem blockLess_wake (c : Core) : BlockLess c c.wake := by
  unfold Core.wake
  split
  next => exact .inr rfl
  all_goals exact .inl rfl

theorem blockLess_modTok (c : Core) (e : BitVec 6) (f : Token → Token) : BlockLess c (c.modTok e f) := by
  have written : BlockLess c { c with sync := { c.sync with tokens := c.sync.tokens.set e.toNat (f (c.tok e)) } } := .inl rfl
  unfold Core.modTok
  dsimp only
  split
  · exact written
  · exact written.trans (blockLess_wake _)

theorem blockLess_fire (c : Core) (i : Nat) : BlockLess c (c.fire i) := by
  rw [fire_eq]
  have taken : BlockLess c (takeThresholds (c.sync.calico.toList.getD i 0#64) c) := blockLess_foldl (fun d e => blockLess_modTok d e _) _ _
  exact taken.trans (.inl (termFired_keeps _ i _).2.2.1)

theorem blockLess_satisfied (c : Core) (e : BitVec 6) (w : TokWait) : BlockLess c (c.satisfied e w) := by
  unfold Core.satisfied
  split
  · exact .inl rfl
  · split
    · exact .inr rfl
    all_goals exact .inl rfl

theorem blockLess_satisfyOldest (h : c.satisfyOldest e = some d) : BlockLess c d := by
  unfold Core.satisfyOldest at h
  dsimp only at h
  split at h
  · cases h
  · split at h
    · cases h
    · cases h
      exact (blockLess_modTok c e _).trans (blockLess_satisfied ..)

theorem blockLess_satisfyToken (e : BitVec 6) (n : Nat) (c : Core) : BlockLess c (Core.satisfyToken e n c) := by
  induction n generalizing c with
  | zero => exact .inl rfl
  | succ n ih =>
    rw [Core.satisfyToken]
    split
    next d hd => exact (blockLess_satisfyOldest hd).trans (ih d)
    next => exact .inl rfl

theorem blockLess_tokenCycle (c : Core) : BlockLess c c.tokenCycle :=
  (blockLess_foldl blockLess_fire c.sync.due c).trans (blockLess_foldl (fun d e => blockLess_satisfyToken e _ d) _ _)

/-- An engine's post at a core that is not in WFE: a count of 65,535 takes no more (log entry 75). -/
theorem post_busy (hb : ∀ a b, c.block ≠ .wfe a b) (e : BitVec 6) : c.post e =
    if 65535 ≤ c.sync.tokens[e.toNat].count then c else c.putTok e { c.sync.tokens[e.toNat] with count := c.sync.tokens[e.toNat].count + 1 } := by
  by_cases full : 65535 ≤ c.sync.tokens[e.toNat].count
  · rw [if_pos full]
    exact if_neg (Nat.not_lt.2 full)
  · rw [if_neg full, ← modTok_busy hb e fun t => { t with count := t.count + 1 }]
    exact if_pos (Nat.not_le.1 full)

/-! ### Nothing to perform -/

theorem dragAll_nil (all : Bool) (hs : List Placed) (n : Nat) : dragAll all hs n [] = [] := by
  induction n with
  | zero => rfl
  | succ n ih =>
    have round : dragRound all hs [] = [] := by simp [dragRound]
    rw [dragAll, round, ih]

theorem placed_stores (x : Copy) : x.placed.map (fun h => h.2) = x.home := by
  rw [Copy.placed, List.map_map]
  exact List.zipIdx_map_fst 0 x.home

theorem promote_nil (sc : Scope) (x : Copy) : x.promote sc [] = x := by
  have home := placed_stores x
  have kept : (x.placed.filter fun h => !([] : List Nat).contains h.1) = x.placed := List.filter_eq_self.2 fun _ _ => rfl
  have gone : (x.placed.filter fun h => ([] : List Nat).contains h.1) = [] := List.filter_eq_nil_iff.2 fun _ _ => by simp
  unfold Copy.promote
  split
  · rw [kept, gone, home]
    rfl
  · simp only [List.contains_nil, Bool.false_eq_true, if_false, home]

theorem modCopy_self (s : State) (k : CoreRef) : (s.modCopy k fun x => x) = s := by
  simp [State.modCopy, State.modLaunch, Launch.modCopy]

/-- Where no store of a copy is meant, its promotion changes nothing of the machine but, it may be, what durable memory shows. -/
theorem promote_none (hl : s.launch? k.lid = some l) (hp : s.copy? k = some cp) {f : HomeStore → Bool} (none : ∀ h ∈ cp.home, f h = false) (sc : Scope) :
    ∃ L, s.promote k sc f = { s with lags := L } := by
  obtain ⟨L, e⟩ := promote_eq hl hp sc f
  have places : cp.places f = [] := by
    have empty : (cp.home.zipIdx.filter fun p => f p.1) = [] :=
      List.filter_eq_nil_iff.2 fun p hp => by rw [none p.1 (List.fst_mem_of_mem_zipIdx hp)]; decide
    rw [Copy.places, empty]
    rfl
  have still : (fun c : Copy => c.promote sc (cp.closure sc (cp.places f))) = fun c => c := by
    rw [places, Copy.closure, dragAll_nil]
    exact funext (promote_nil sc)
  rw [still, modCopy_self] at e
  exact ⟨L, e⟩

/-! ### Completion -/

theorem filter_modCmd {f : Cmd → Cmd} (hf : ∀ x, (f x).id = x.id) (id : Nat) :
    ((c.modCmd id f).eng.cmds.filter fun e => e.id != id) = c.eng.cmds.filter fun e => e.id != id := by
  show (c.eng.cmds.map fun m => if m.id == id then f m else m).filter _ = _
  induction c.eng.cmds with
  | nil => rfl
  | cons x xs ih =>
    rw [List.map_cons, List.filter_cons, List.filter_cons, ih]
    by_cases h : x.id = id
    · simp [h, hf]
    · simp [h]

/-- A core whose command `id` has completed: its flags are set and it has left its queue. -/
def completed (cc id : Nat) (f : Flags) (c : Core) : Core :=
  { c.raiseFlags cc f with eng := { c.eng with cmds := c.eng.cmds.filter fun e => e.id != id } }

/-- The same with the norm registers written. -/
def flagged (cc id : Nat) (f : Flags) (ns : Vector Norm 64) (c : Core) : Core :=
  { c.raiseFlags cc f with
    tens := { c.tens with norms := ns }
    eng := { c.eng with cmds := c.eng.cmds.filter fun e => e.id != id } }

theorem flagged_modCmd {g : Cmd → Cmd} (hg : ∀ x, (g x).id = x.id) (cc id : Nat) (f : Flags) : flagged cc id f c.tens.norms (c.modCmd id g) = completed cc id f c :=
  congrArg (fun q => { c.raiseFlags cc f with eng := { c.eng with cmds := q } }) (filter_modCmd hg id)

/-- A command without writes left, and not of a gang, completes. -/
theorem complete_runs (hl : s.launch? k.lid = some l) (hp : s.copy? k = some cp) (hc : s.core? k = some c) (hm : c.cmd? id = some m) (live : engineLive l = true) (sound : c.faulted = false)
    (running : m.state = .running) (err : m.err = none) (op : m.op ≠ .vrun) (writes : m.writes = []) (chunks : m.chunks = []) (adds : m.normAdds = []) (single : m.gang = none)
    (others : ∀ h ∈ cp.home, h.cmd = some id → h.writer ≠ k.rank) :
    ∃ t, onlyCore s t k (completed s.cc id m.raised c) ∧
      (c.policy.faultOf m.raised = 0 → completeCommand k id s = .ok ((), if m.post = 63#6 then t else t.modCore k fun c => c.tokenCycle.post m.post)) ∧
      (c.policy.faultOf m.raised ≠ 0 → completeCommand k id s = .error (.trap (m.blame (Trap.mk' (c.policy.faultOf m.raised))), t)) := by
  let g (m : Cmd) : Cmd := { m with writes := [] }
  let f (x : Core) : Core := x.modCmd id g
  obtain ⟨launch, copy, core⟩ := ctx_modCore hl hp hc f fun _ => rfl
  have alone : gangDone k m = pure () := by rw [gangDone, single]
  have ended : c.runOver m = true := by simp [Core.runOver, running, err, op]
  obtain ⟨L, shown⟩ := promote_none launch copy (f := fun h => h.writer == k.rank && h.cmd == some id && true) (fun h hh => by
    by_cases mine : h.cmd = some id
    · simp [others h hh mine]
    · simp [mine]) .device
  let u : State := { s.modCore k f with lags := L }
  have shows : showWrites k id none (s.modCore k f) = .ok ((), u) := congrArg (fun t => Except.ok ((), t)) shown
  have ctx : ctxOf k u = .ok ((l.modCopy k.role fun x => x.modCore k.rank f, cp.modCore k.rank f, f c), u) := ctxOf_run launch copy core
  unfold completeCommand
  rw [bind_ok get_run, bind_ok (ctxOf_run hl hp hc)]
  simp only [hm, need_some, pure_bind_act, live, sound, ended, Bool.not_true, Bool.or_self, holdIf_false, writes, chunks, adds]
  rw [bind_ok (onCore_run ..), bind_ok (show blamed m (performSome k m []) (s.modCore k f) = .ok ((), s.modCore k f) from rfl),
    bind_ok (show releaseAll k id [] (s.modCore k f) = .ok ((), s.modCore k f) from rfl), bind_ok shows, bind_ok ctx]
  simp only [Norm.addAll, List.isEmpty_nil, if_true, if_neg op]
  rw [bind_ok (onCore_run ..), show m.raised ||| fNone = m.raised from BitVec.or_zero]
  have only : onlyCore s (u.modCore k (flagged s.cc id m.raised c.tens.norms)) k (completed s.cc id m.raised c) :=
    onlyCore_step (t := u) (onlyCore_modCore f (fun _ => rfl) hc) (flagged s.cc id m.raised c.tens.norms) (fun _ => rfl) (flagged_modCmd (g := g) (fun _ => rfl) ..)
  refine ⟨u.modCore k (flagged s.cc id m.raised c.tens.norms), only, fun calm => ?_, fun fault => ?_⟩
  · rw [show (f c).policy = c.policy from rfl, calm, bne_self_eq_false, raiseIf_false, pure_bind_act, alone]
    by_cases post : m.post = 63#6
    · rw [if_neg (not_not.2 post), if_pos post]
      rfl
    · rw [if_pos post, if_neg post]
      rfl
  · rw [show (f c).policy = c.policy from rfl, bne_iff_ne.2 fault, raiseIf_true]
    rfl

/-- The core when a command's completion has posted. -/
def enginePosted (e : BitVec 6) (u : Core) : Core :=
  if e = 63#6 then u
  else if 65535 ≤ u.tokenCycle.sync.tokens[e.toNat].count then u.tokenCycle
  else u.tokenCycle.putTok e { u.tokenCycle.sync.tokens[e.toNat] with count := u.tokenCycle.sync.tokens[e.toNat].count + 1 }

theorem post_rank (c : Core) (e : BitVec 6) : (c.tokenCycle.post e).rank = c.rank := by
  refine Eq.trans ?_ (tokensOnly_tokenCycle c).rank
  unfold Core.post
  split
  · exact (tokensOnly_modTok ..).rank
  · rfl

theorem completion_posts {u : Core} (hb : ∀ a b, u.block ≠ .wfe a b) (only : onlyCore s t k u) :
    onlyCore s (if m.post = 63#6 then t else t.modCore k fun c => c.tokenCycle.post m.post) k (enginePosted m.post u) := by
  unfold enginePosted
  by_cases post : m.post = 63#6
  · rw [if_pos post, if_pos post]
    exact only
  · rw [if_neg post, if_neg post]
    exact onlyCore_step only (fun c => c.tokenCycle.post m.post) (fun x => post_rank x m.post) (post_busy ((blockLess_tokenCycle u).awake hb) m.post)

theorem completion_waits (hl : s.launch? k.lid = some l) (hp : s.copy? k = some cp) (hc : s.core? k = some c) (hm : c.cmd? id = some m)
    (unfinished : m.state ≠ .running ∨ m.err.isSome = true ∨ c.faulted = true) : exec (.engineCommandCompletion k id) s = .next s := by
  have held : (!engineLive l || c.faulted || !c.runOver m) = true := by
    rcases unfinished with state | err | fault
    · simp [Core.runOver, state]
    · simp [Core.runOver, err]
    · simp [fault]
  show Host.Outcome.next (runStep _ _ _) = _
  rw [runStep, completeCommand, bind_ok get_run, bind_ok (ctxOf_run hl hp hc)]
  simp only [hm, need_some, pure_bind_act, held, holdIf_true, hold_bind]
  rfl

/-! ### Faults -/

theorem accessFault_taken (hl : s.launch? k.lid = some l) (hc : s.core? k = some c) (hm : c.cmd? id = some m) (live : engineLive l = true) {x : Trap} (err : m.err = some x) :
    exec (.engineAccessFault k id) s = .next (if c.faulted then s else s.takeFault (.core k) x) := by
  have fault : (c.cmd? id).bind c.runFault = some x := by rw [hm, Option.bind_some, Core.runFault, err]
  show execEngineAccessFault k id s = _
  rw [execEngineAccessFault, hl, hc]
  simp only [fault, live, Bool.true_and]
  cases c.faulted <;> rfl

theorem accessFault_none (hl : s.launch? k.lid = some l) (hc : s.core? k = some c) (hm : c.cmd? id = some m) (err : m.err = none) (op : m.op ≠ .vrun) :
    exec (.engineAccessFault k id) s = .next s := by
  have fault : (c.cmd? id).bind c.runFault = none := by
    rw [hm, Option.bind_some, Core.runFault, err]
    exact if_neg op
  show execEngineAccessFault k id s = _
  rw [execEngineAccessFault, hl, hc]
  simp only [fault]

end Sys2Proof.Proofs
end

section
/-! The writes of a command in one chunk are performed, and its count there falls (R174, R182, R183). -/

namespace Sys2Proof.Proofs

open Sys2Proof.Machine Sys2Proof.Laws

variable {s t : State} {k : CoreRef} {l : Launch} {cp : Copy} {c d : Core} {m : Cmd} {id : Nat} {w : PendWrite} {p : PadId} {q : Pad} {o i : Nat}

/-! ### A run of bytes in pieces -/

/-- The pieces are not empty, and lie in the write. -/
theorem mem_cutAt {g a n : Nat} (hg : 0 < g) (fuel : Nat) {r : Nat × Nat} (h : r ∈ cutAt g fuel a n) : a ≤ r.1 ∧ 1 ≤ r.2 ∧ r.1 + r.2 ≤ a + n := by
  induction fuel generalizing a n with
  | zero => cases h
  | succ fuel ih =>
    unfold cutAt at h
    split at h
    · cases h
    · have below := Nat.mod_lt a hg
      rcases List.mem_cons.1 h with rfl | h
      · exact ⟨Nat.le_refl a, by dsimp only; omega, by dsimp only; omega⟩
      · have := ih h
        omega

theorem mem_pieceStores {writer : Nat} {bs : List Byte} {id : Nat} {rs : List (Nat × Nat)} {h : HomeStore} (mem : h ∈ pieceStores writer m w p bs o id rs) :
    h.writer = writer ∧ h.cmd = some m.id ∧ h.pad = p ∧ ∃ r ∈ rs, h.off = r.1 ∧ h.data = (bs.drop (r.1 - o)).take r.2 := by
  induction rs generalizing id with
  | nil => cases mem
  | cons r rs ih =>
    rcases List.mem_cons.1 mem with rfl | mem
    · exact ⟨rfl, rfl, rfl, r, List.mem_cons_self .., rfl, rfl⟩
    · obtain ⟨writer, cmd, pad, r', hr, off⟩ := ih mem
      exact ⟨writer, cmd, pad, r', List.mem_cons_of_mem r hr, off⟩

/-! ### Written one after the other -/

/-- The bytes of stores written in order. -/
def putStores (M : Store) (hs : List HomeStore) : Store := hs.foldl (fun M h => M.put h.off h.data) M

theorem fill_append (M : Store) (a : Nat) (xs ys : List Byte) : (M.fill a xs).fill (a + xs.length) ys = M.fill a (xs ++ ys) := by
  induction xs generalizing M a with
  | nil => rfl
  | cons x xs ih =>
    rw [List.cons_append, Store.fill, Store.fill, ← ih, List.length_cons]
    congr 1
    omega

theorem fill_bad (M : Store) (a : Nat) (bs : List Byte) : (M.fill a bs).bad = M.bad := by
  induction bs generalizing M a with
  | nil => rfl
  | cons b bs ih => exact ih (M.set a b) (a + 1)

/-- Where no word is uncorrectable, a write is its bytes alone. -/
theorem put_calm {M : Store} (calm : M.bad = []) (a : Nat) (bs : List Byte) : M.put a bs = M.fill a bs := by
  have same := fill_bad M a bs
  rw [calm] at same
  rw [Store.put, calm, List.filter_nil, ← same]

/-- The pieces from byte `j` on, written one after the other, are the bytes from there on. -/
theorem putStores_pieces {writer : Nat} {bs : List Byte} (id fuel j : Nat) {M : Store} (calm : M.bad = []) (hj : j ≤ bs.length)
    (enough : bs.length - j = 0 ∨ bs.length - j + (o + j) % 8 ≤ 8 * fuel) :
    putStores M (pieceStores writer m w p bs o id (cutAt 8 fuel (o + j) (bs.length - j))) = M.fill (o + j) (bs.drop j) := by
  induction fuel generalizing id j M with
  | zero =>
    have done : bs.drop j = [] := List.drop_eq_nil_of_le (by omega)
    rw [done]
    rfl
  | succ fuel ih =>
    unfold cutAt
    split
    next done =>
      have done : bs.drop j = [] := List.drop_eq_nil_of_le (by omega)
      rw [done]
      rfl
    next more =>
      obtain ⟨n, hn⟩ : ∃ n, n = min (bs.length - j) (8 - (o + j) % 8) := ⟨_, rfl⟩
      have first : (bs.drop j).take n ++ bs.drop (j + n) = bs.drop j := by rw [← List.drop_drop, List.take_append_drop]
      have length : ((bs.drop j).take n).length = n := by rw [List.length_take, List.length_drop]; omega
      have data : (bs.drop (o + j - o)).take n = (bs.drop j).take n := by rw [Nat.add_sub_cancel_left]
      have rest := ih (id + 1) (j + n) (M := M.fill (o + j) ((bs.drop j).take n)) ((fill_bad ..).trans calm) (by omega) (by omega)
      dsimp only
      rw [← hn, show bs.length - j - n = bs.length - (j + n) by omega, Nat.add_assoc]
      show putStores (M.put (o + j) ((bs.drop (o + j - o)).take n)) (pieceStores writer m w p bs o (id + 1) _) = _
      rw [data, put_calm calm, rest, ← first, ← fill_append, length, first, Nat.add_assoc]

/-- A command's write in a scratchpad, at its home in pieces, is its bytes when it is written there. -/
theorem putStores_write {writer : Nat} {M : Store} (calm : M.bad = []) (id : Nat) :
    putStores M (pieceStores writer m w p w.data o id (writePieces w o)) = M.put o w.data := by
  rw [put_calm calm]
  unfold writePieces
  split
  · exact putStores_pieces id (w.data.length / 8 + 2) 0 calm (Nat.zero_le _) (by omega)
  · show M.put o ((w.data.drop (o - o)).take w.data.length) = _
    rw [put_calm calm, Nat.sub_self, List.drop_zero, List.take_length]

/-! ### All the stores of a copy are performed -/

/-- All stores chosen: nothing else comes with them. -/
theorem dragAll_all (all : Bool) (hs : List Placed) (n : Nat) : dragAll all hs n (hs.map fun h => h.1) = hs.map fun h => h.1 := by
  induction n with
  | zero => rfl
  | succ n ih =>
    have round : dragRound all hs (hs.map fun h => h.1) = hs.map fun h => h.1 := by
      unfold dragRound
      rw [List.filter_eq_self.2]
      intro f hf
      rw [List.contains_iff_mem.2 (List.mem_map.2 ⟨f, hf, rfl⟩), Bool.true_or]
    rw [dragAll, round, ih]

theorem closure_all {x : Copy} {f : HomeStore → Bool} (all : ∀ h ∈ x.home, f h = true) (sc : Scope) : x.closure sc (x.places f) = x.placed.map fun h => h.1 := by
  have chosen : x.places f = x.placed.map fun h => h.1 := by
    rw [Copy.places, List.filter_eq_self.2 fun y hy => all y.1 (List.fst_mem_of_mem_zipIdx hy), Copy.placed, List.map_map]
    rfl
  rw [chosen, Copy.closure, dragAll_all]

/-- Every store of a copy in the scratchpads. -/
def allCommitted (x : Copy) : Copy := x.home.foldl Copy.commitStore { x with home := [] }

theorem promote_all (x : Copy) : x.promote .device (x.placed.map fun h => h.1) = allCommitted x := by
  have chosen : ∀ h ∈ x.placed, (x.placed.map fun h => h.1).contains h.1 = true := fun h hh => List.contains_iff_mem.2 (List.mem_map.2 ⟨h, hh, rfl⟩)
  have taken : (x.placed.filter fun h => (x.placed.map fun h => h.1).contains h.1) = x.placed := List.filter_eq_self.2 chosen
  have left : (x.placed.filter fun h => !(x.placed.map fun h => h.1).contains h.1) = [] := List.filter_eq_nil_iff.2 fun h hh => by rw [chosen h hh]; decide
  rw [Copy.promote, if_pos (by decide), taken, left, allCommitted, ← List.foldl_map (f := fun h : Placed => h.2) (g := Copy.commitStore), placed_stores]
  rfl

theorem allCommitted_keeps (x : Copy) : (allCommitted x).home = [] ∧ (allCommitted x).cores = x.cores := by
  have each (hs : List HomeStore) (y : Copy) : (hs.foldl Copy.commitStore y).home = y.home ∧ (hs.foldl Copy.commitStore y).cores = y.cores := by
    induction hs generalizing y with
    | nil => exact ⟨rfl, rfl⟩
    | cons h hs ih => exact ih (y.commitStore h)
  exact each x.home _

/-- Stores of one scratchpad change that one only. -/
theorem allCommitted_pads {x : Copy} (one : ∀ h ∈ x.home, h.pad = p) (r : PadId) :
    (allCommitted x).pad? r = (x.pad? r).map fun q => if r = p then { q with mem := putStores q.mem x.home } else q := by
  have each (hs : List HomeStore) (all : ∀ h ∈ hs, h.pad = p) (y : Copy) :
      (hs.foldl Copy.commitStore y).pad? r = (y.pad? r).map fun q => if r = p then { q with mem := putStores q.mem hs } else q := by
    induction hs generalizing y with
    | nil =>
      have same : (fun q : Pad => if r = p then { q with mem := putStores q.mem [] } else q) = fun q => q := funext fun q => ite_self q
      rw [same, Option.map_id']
      rfl
    | cons h hs ih =>
      rw [List.foldl_cons, ih (fun g hg => all g (List.mem_cons_of_mem h hg)), commitStore_pads, Option.map_map, all h (List.mem_cons_self ..)]
      refine congrArg (fun f => Option.map f (y.pad? r)) (funext fun q => ?_)
      by_cases here : r = p
      · simp only [Function.comp, if_pos here]
        rfl
      · simp only [Function.comp, if_neg here]
  exact each x.home one { x with home := [] }

/-! ### The count of a chunk -/

/-- A chunk of a pad's list of those that are not zero. -/
def chunkIn (cs : List (Nat × Chunk)) (j : Nat) : Chunk := ((cs.find? fun x => x.1 == j).map fun x => x.2).getD { pend := 0, status := 0#8 }

theorem chunkIn_cons (b j : Nat) (u : Chunk) (cs : List (Nat × Chunk)) : chunkIn ((b, u) :: cs) j = if b = j then u else chunkIn cs j := by
  unfold chunkIn
  rw [List.find?_cons]
  by_cases h : b = j
  · simp [h]
  · rw [beq_eq_false_iff_ne.2 h, if_neg h]

theorem chunkIn_absent {cs : List (Nat × Chunk)} {j : Nat} (h : ∀ x ∈ cs, x.1 ≠ j) : chunkIn cs j = { pend := 0, status := 0#8 } := by
  rw [chunkIn, List.find?_eq_none.2 fun x hx => by simpa using h x hx]
  rfl

theorem chunk_zero {v : Chunk} (h : (decide (v.pend = 0) && decide (v.status = 0#8)) = true) : v = { pend := 0, status := 0#8 } := by
  obtain ⟨pend, status⟩ := v
  simp only [Bool.and_eq_true, decide_eq_true_eq] at h
  obtain ⟨rfl, rfl⟩ := h
  rfl

theorem chunkIn_chunkPut (i j : Nat) (v : Chunk) {cs : List (Nat × Chunk)} (sorted : cs.Pairwise fun a b => a.1 < b.1) :
    chunkIn (chunkPut i v cs) j = if j = i then v else chunkIn cs j := by
  induction cs with
  | nil =>
    unfold chunkPut
    split
    next zero => rw [chunk_zero zero]; exact (ite_self _).symm
    next => rw [chunkIn_cons]; simp only [eq_comm]
  | cons x cs ih =>
    obtain ⟨b, u⟩ := x
    obtain ⟨above, sorted⟩ := List.pairwise_cons.1 sorted
    have later {y : Nat} (hy : y ≤ b) : chunkIn cs y = { pend := 0, status := 0#8 } := chunkIn_absent fun x hx => Nat.ne_of_gt (Nat.lt_of_le_of_lt hy (above x hx))
    unfold chunkPut
    split
    next lower =>
      split
      next zero =>
        by_cases h : j = i
        · rw [if_pos h, chunkIn_cons, if_neg (by omega), later (by omega), chunk_zero zero]
        · rw [if_neg h]
      next => rw [chunkIn_cons i]; simp only [eq_comm]
    next higher =>
      split
      next same =>
        split
        next zero =>
          by_cases h : j = i
          · rw [if_pos h, later (by omega), chunk_zero zero]
          · rw [if_neg h, chunkIn_cons, if_neg (by omega)]
        next =>
          rw [chunkIn_cons, chunkIn_cons]
          by_cases h : j = i
          · rw [if_pos h, if_pos h.symm]
          · rw [if_neg h, if_neg fun e => h e.symm, if_neg (by omega)]
      next =>
        rw [chunkIn_cons, chunkIn_cons, ih sorted]
        by_cases h : b = j
        · rw [if_pos h, if_neg (by omega)]
          exact (if_pos h).symm
        · rw [if_neg h, if_neg h]

theorem chunk_setChunk (sorted : q.chunks.Pairwise fun a b => a.1 < b.1) (i j : Nat) (v : Chunk) : (q.setChunk i v).chunk j = if j = i then v else q.chunk j :=
  chunkIn_chunkPut i j v sorted

/-- One chunk of a command is complete in its scratchpad. -/
def chunkDone (i : Nat) (q : Pad) : Pad := q.setChunk i { pend := (q.chunk i).pend - 1, status := (q.chunk i).status }

theorem releaseChunk_keeps (x : Copy) (y : PadId × Nat) : (x.releaseChunk y).role = x.role ∧ (x.releaseChunk y).home = x.home ∧
    ∀ r, (x.releaseChunk y).pad? r = (x.pad? r).map fun q => if r = y.1 then chunkDone y.2 q else q := by
  have pads (r : PadId) : (x.modPad y.1 (chunkDone y.2)).pad? r = (x.pad? r).map fun q => if r = y.1 then chunkDone y.2 q else q :=
    pad_modPad x y.1 r (chunkDone y.2) fun _ => rfl
  unfold Copy.releaseChunk
  dsimp only
  split
  · exact ⟨rfl, rfl, pads⟩
  · exact ⟨rfl, rfl, pads⟩

theorem wake_eng (c : Core) : c.wake.eng = c.eng := by
  unfold Core.wake
  split <;> rfl

/-- A chunk whose count falls to 0 ends a WFE; the commands of the cores stay. -/
theorem releaseChunk_core (x : Copy) (y : PadId × Nat) {n : Nat} (h : x.core? n = some c) : ∃ d, (x.releaseChunk y).core? n = some d ∧ d.eng = c.eng := by
  unfold Copy.releaseChunk
  dsimp only
  split
  · refine ⟨c.wake, ?_, wake_eng c⟩
    exact (core_mapCores (r := Core.wake) (fun c => (tokensOnly_wake c).rank) (x.modPad y.1 (chunkDone y.2)) n).trans (congrArg (Option.map Core.wake) h)
  · exact ⟨c, h, rfl⟩

theorem chunk_waits (hl : s.launch? k.lid = some l) (hp : s.copy? k = some cp) (hc : s.core? k = some c) (hm : c.cmd? id = some m) (absent : (p, i) ∉ m.chunks) :
    exec (.chunkWritesPerformed k id p i) s = .next s := by
  have held : (!engineLive l || c.faulted || m.state != .running || m.err.isSome || !m.chunks.contains (p, i) || m.op == .vrun) = true := by
    simp [absent]
  show Host.Outcome.next (runStep _ _ _) = _
  rw [runStep, chunkPerformed, bind_ok (ctxOf_run hl hp hc)]
  simp only [hm, need_some, pure_bind_act, held, holdIf_true, hold_bind]
  rfl

/-- A write that lies in a chunk goes there as a whole. -/
theorem inChunk_whole (place : w.loc = .pad p o) (bytewise : w.bytewise = true) (filled : 1 ≤ w.data.length) (low : 512 * i ≤ o) (high : o + w.data.length ≤ 512 * i + 512) :
    w.inChunk (p, i) = ([w], []) := by
  have lo : max o (512 * i) = o := Nat.max_eq_left low
  have hi : min (o + w.data.length) (512 * i + 512) = o + w.data.length := Nat.min_eq_left high
  have some' : ¬ o + w.data.length ≤ o := by omega
  unfold PendWrite.inChunk
  simp only [place, lo, hi, bytewise, some', ne_eq, not_true_eq_false, Bool.not_true, Bool.false_eq_true, if_false, Nat.le_refl, if_true, Nat.sub_self, List.drop_zero,
    Nat.add_sub_cancel_left, List.take_length, Nat.add_zero, List.append_nil]
  rw [← place, ← bytewise]

/-- The test by which a chunk's release shows a command's writes (R183). -/
def shownIn (k : CoreRef) (id : Nat) (p : PadId) (i : Nat) (h : HomeStore) : Bool :=
  h.writer == k.rank && h.cmd == some id && (h.pad == p && decide (h.off < 512 * i + 512) && decide (512 * i < h.off + h.data.length))

theorem pieces_shown {n : Nat} (bytewise : w.bytewise = true) (low : 512 * i ≤ o) (high : o + w.data.length ≤ 512 * i + 512) {h : HomeStore}
    (mem : h ∈ pieceStores k.rank m w p w.data o n (writePieces w o)) : shownIn k m.id p i h = true := by
  obtain ⟨writer, cmd, pad, r, hr, off, data⟩ := mem_pieceStores mem
  rw [writePieces, if_pos bytewise] at hr
  have inside := mem_cutAt (by decide) _ hr
  have length : h.data.length = r.2 := by rw [data, List.length_take, List.length_drop]; omega
  unfold shownIn
  simp only [writer, cmd, pad, off, length, beq_self_eq_true, Bool.true_and, Bool.and_eq_true, decide_eq_true_eq]
  omega

/-- Of the bytes that the pushing core may still read, those in the chunk go when its writes are performed. -/
theorem oldKept_inChunk (place : w.loc = .pad p o) (low : 512 * i ≤ o) (high : o + w.data.length ≤ 512 * i + 512) (e : Cmd) :
    ((e.keepOld (oldBytes s l cp c w.loc w.data.length)).old.filter fun z => !z.1.inChunks [(p, i)]) = e.old.filter fun z => !z.1.inChunks [(p, i)] := by
  have inside : ∀ z ∈ oldBytes s l cp c w.loc w.data.length, z.1.inChunks [(p, i)] = true := by
    intro z hz
    obtain ⟨j, hj, hz⟩ := List.mem_filterMap.1 hz
    obtain ⟨b, -, rfl⟩ := Option.map_eq_some_iff.1 hz
    have : (o + j) / 512 = i := by have := List.mem_range.1 hj; omega
    rw [place]
    simp [Loc.plus, Loc.inChunks, this]
  have gone : ((oldBytes s l cp c w.loc w.data.length).filter fun z => !z.1.inChunks [(p, i)]) = [] :=
    List.filter_eq_nil_iff.2 fun z hz => by rw [inside z hz]; decide
  unfold Cmd.keepOld
  rw [List.filter_append, gone, List.append_nil, List.filter_filter]
  refine List.filter_congr fun z _ => ?_
  by_cases out : z.1.inChunks [(p, i)] = true
  · rw [out]
    rfl
  · have apart : ((oldBytes s l cp c w.loc w.data.length).any fun y => y.1 == z.1) = false := by
      rw [List.any_eq_false]
      intro y hy same
      rw [← beq_iff_eq.1 same] at out
      exact out (inside y hy)
    rw [apart]
    simp

/-- All the stores that a copy has at their homes are performed at device scope. -/
theorem showAll_run (hl : s.launch? k.lid = some l) (hp : s.copy? k = some cp) (all : ∀ h ∈ cp.home, shownIn k id p i h = true) :
    ∃ t, showWrites k id (some (p, i)) s = .ok ((), t) ∧ t.copy? k = some (allCommitted cp) ∧ (∀ j, t.core? j = s.core? j) ∧ t.dram = s.dram ∧ t.sys = s.sys := by
  obtain ⟨L, e⟩ := promote_eq hl hp .device (shownIn k id p i)
  rw [closure_all all] at e
  let f (x : Copy) : Copy := x.promote .device (cp.placed.map fun h => h.1)
  have keeps := promote_core_role .device (cp.placed.map fun h => h.1)
  refine ⟨{ s.modCopy k f with lags := L }, congrArg (fun t => Except.ok ((), t)) e, ?_, core_modCopy_same f (fun x => (keeps x).1) fun x => (keeps x).2, rfl, rfl⟩
  refine (copy_modCopy_any s k k f fun x => (keeps x).1).trans ?_
  rw [hp, Option.map_some, if_pos ⟨rfl, rfl⟩, ← promote_all]

/-- A command whose pushing core can no longer read what stood in a chunk. -/
def chunkSeen (p : PadId) (i : Nat) (m : Cmd) : Cmd := { m with old := m.old.filter fun e => !e.1.inChunks [(p, i)] }

/-- A chunk of a command is released: the stores at their homes, which are all its own and in the chunk, are performed, and the chunk's count falls. -/
theorem releaseAll_shown (hl : s.launch? k.lid = some l) (hp : s.copy? k = some cp) (hc : s.core? k = some c) (all : ∀ h ∈ cp.home, shownIn k id p i h = true) :
    ∃ t x d, releaseAll k id [(p, i)] s = .ok ((), t) ∧ t.copy? k = some x ∧ x.home = [] ∧
      (∀ r, x.pad? r = ((allCommitted cp).pad? r).map fun q => if r = p then chunkDone i q else q) ∧
      t.core? k = some d ∧ d.cmd? id = (c.cmd? id).map (chunkSeen p i) ∧ t.dram = s.dram ∧ t.sys = s.sys := by
  obtain ⟨v, shows, shown, same, dram, sys⟩ := showAll_run hl hp all
  let f (x : Core) : Core := x.modCmd id (chunkSeen p i)
  let g (x : Copy) : Copy := x.releaseChunk (p, i)
  obtain ⟨-, home, pads⟩ := releaseChunk_keeps (allCommitted cp) (p, i)
  have own : (allCommitted cp).core? k.rank = some c := by
    have here := (same k).trans hc
    rwa [State.core?, shown] at here
  obtain ⟨d, core, eng⟩ := releaseChunk_core (allCommitted cp) (p, i) own
  have copy : (v.modCopy k g).copy? k = some (g (allCommitted cp)) := by
    rw [copy_modCopy_any v k k g fun x => (releaseChunk_keeps x (p, i)).1, shown, Option.map_some, if_pos ⟨rfl, rfl⟩]
  have here : (v.modCopy k g).core? k = some d := by rw [State.core?, copy]; exact core
  refine ⟨(v.modCopy k g).modCore k f, (g (allCommitted cp)).modCore k.rank f, f d, ?_, ?_, home.trans (allCommitted_keeps cp).1, pads, ?_, ?_, dram, sys⟩
  · unfold releaseAll
    rw [bind_ok shows, bind_ok (modify_run _), bind_ok (onCore_run ..)]
    rfl
  · rw [copy_modCore, copy]
    rfl
  · rw [coreAt_modCore f fun _ => rfl, here]
    rfl
  · rw [cmd_modCmd (chunkSeen p i) fun _ => rfl, cmd_congr (c := c) (by rw [eng])]

/-- The only writes of a running command lie in a chunk: they are performed there, for every core, and the chunk's count falls. -/
theorem chunk_performed (hl : s.launch? k.lid = some l) (hp : s.copy? k = some cp) (hc : s.core? k = some c) (hm : c.cmd? id = some m) (live : engineLive l = true)
    (mem : (p, i) ∈ m.chunks) (sound : c.faulted = false) (op : m.op ≠ .vrun) (running : m.state = .running) (err : m.err = none) (single : m.gang = none) (writes : m.writes = [w])
    (place : w.loc = .pad p o) (whole : w.half = none) (bytewise : w.bytewise = true) (filled : 1 ≤ w.data.length) (low : 512 * i ≤ o)
    (high : o + w.data.length ≤ 512 * i + 512) (hq : cp.pad? p = some q) (calm : q.mem.bad = []) (home : cp.home = []) (sorted : q.chunks.Pairwise fun a b => a.1 < b.1) :
    ∃ t x y d, exec (.chunkWritesPerformed k id p i) s = .next t ∧ t.copy? k = some x ∧ x.home = [] ∧ x.pad? p = some y ∧ y.mem = q.mem.put o w.data ∧
      (y.chunk i).pend = (q.chunk i).pend - 1 ∧ (y.chunk i).status = (q.chunk i).status ∧ (∀ j, j ≠ i → y.chunk j = q.chunk j) ∧
      (∀ r, r ≠ p → x.pad? r = cp.pad? r) ∧ t.core? k = some d ∧
      d.cmd? id = some { m with writes := [], chunks := m.chunks.erase (p, i), old := m.old.filter fun z => !z.1.inChunks [(p, i)] } ∧
      t.dram = s.dram ∧ t.sys = s.sys := by
  obtain rfl := id_of_cmd hm
  let g (m : Cmd) : Cmd := { m with writes := [], chunks := m.chunks.erase (p, i) }
  let f (c : Core) : Core := c.modCmd m.id g
  obtain ⟨launch, copy, core⟩ := ctx_modCore hl hp hc f fun _ => rfl
  obtain ⟨u, x, perform, copy, core, home', pads, dram, sys⟩ := write_atHome (m := m) launch copy core single place whole hq calm
  rw [show (cp.modCore k.rank f).home = [] from home, List.nil_append] at home'
  obtain ⟨l', launch⟩ := launch_of_copy copy
  have pads' := allCommitted_pads (x := x) (p := p) fun h hh => (mem_pieceStores (home' ▸ hh)).2.2.1
  obtain ⟨t, z, d, release, copy, home'', pads'', core, cmd, dram', sys'⟩ := releaseAll_shown (id := m.id) (p := p) (i := i) launch copy core fun h hh =>
    pieces_shown bytewise low high (home' ▸ hh)
  have written : z.pad? p = some (chunkDone i { q with mem := putStores q.mem x.home }) := by
    rw [pads'', pads', pads, show (cp.modCore k.rank f).pad? p = some q from hq]
    simp only [Option.map_some, if_true]
  have count (j : Nat) : (chunkDone i { q with mem := putStores q.mem x.home }).chunk j = if j = i then { pend := (q.chunk i).pend - 1, status := (q.chunk i).status } else q.chunk j :=
    chunk_setChunk (q := { q with mem := putStores q.mem x.home }) sorted i j _
  refine ⟨t, z, _, d, ?_, copy, home'', written, ?_, ?_, ?_, fun j hj => ?_, fun r hr => ?_, core, ?_, ?_, ?_⟩
  · have free : (!engineLive l || c.faulted || m.state != .running || m.err.isSome || !m.chunks.contains (p, i) || m.op == .vrun) = false := by
      simp [live, sound, running, err, mem, op]
    refine congrArg Host.Outcome.next (runStep_ok ?_)
    rw [chunkPerformed, bind_ok (ctxOf_run hl hp hc)]
    simp only [hm, need_some, pure_bind_act, free, holdIf_false, writes, List.map_cons, List.map_nil, inChunk_whole place bytewise filled low high, List.flatMap_cons, List.flatMap_nil,
      List.append_nil]
    rw [bind_ok (onCore_run ..)]
    exact (bind_ok (blamed_ok perform)).trans release
  · show putStores q.mem x.home = _
    rw [home', putStores_write calm]
  · rw [count, if_pos rfl]
  · rw [count, if_pos rfl]
  · rw [count, if_neg hj]
  · rw [pads'', pads', pads]
    simp only [if_neg hr, Option.map_id']
    rfl
  · rw [cmd, cmd_keptOld, cmd_modCmd g fun _ => rfl, hm]
    exact congrArg some (congrArg (fun b => { g m with old := b }) (oldKept_inChunk place low high (g m)))
  · rw [dram', dram]
    rfl
  · rw [sys', sys]
    rfl

end Sys2Proof.Proofs
end

section
/-! CPY between parts of a core's own unit scratchpad (R176, R185). -/

namespace Sys2Proof.Proofs

open Sys2Proof.Machine Sys2Proof.Laws

variable {s t : State} {k : CoreRef} {l : Launch} {cp : Copy} {c : Core} {m : Cmd} {id : Nat} {q : Pad} {ptr : Word} {n al off off' : Nat} {a : Acc}

/-! ### What an engine reads of its own scratchpad at rest -/

theorem checkAll_own {kd : Kind} (hl : s.launch? a.k.lid = some l) (hp : s.copy? a.k = some cp) (hc : s.core? a.k = some c) (h : OwnPlace cp c q ptr n al off) :
    checkAll a ptr n al kd [] s = .ok ([(.pad (.usp c.rank) off, n)], s) := by
  have check : checkPtr a ptr n al kd s = .ok (.pad (.usp c.rank) off, s) := by
    unfold checkPtr
    rw [bind_ok (ctxOf_run hl hp hc)]
    dsimp only
    rw [checkPlace_own h]
    rfl
  unfold checkAll
  rw [bind_ok check]
  rfl

theorem padBytes_own (unit : a.unit ≠ .control) (home : cp.home = []) (hq : cp.pad? (.usp c.rank) = some q) : a.padBytes l cp c (.usp c.rank) off n = q.mem.bytes off n := by
  unfold Acc.padBytes Store.bytes
  rw [if_neg unit]
  exact List.map_congr_left fun i _ => padByte_rest home hq

theorem readPiece_engine (unit : a.unit ≠ .control) (hl : s.launch? a.k.lid = some l) (hp : s.copy? a.k = some cp) (hc : s.core? a.k = some c) (hq : cp.pad? (.usp c.rank) = some q)
    (sound : q.mem.badIn off n = false) (rest : cp.atRest) :
    ∃ t, readPiece a (.pad (.usp c.rank) off) n .read s = .ok (q.mem.bytes off n, t) ∧ Reread s t a.k l cp c := by
  have writes : ∀ d ∈ cp.cores, ∀ m ∈ d.eng.cmds, m.writes = [] := fun d hd m hm => ((rest.2 d hd).2 m hm).1
  have marked := reread_modCopy (reread_refl hl hp hc) (fun x => x.markRead l.packet.w c.rank (.usp c.rank) off n) (fun _ => rfl) (fun _ => rfl)
    fun D => markRead_rest (cp := { cp with cores := D }) rest.1 _ _ _ _ _
  obtain ⟨C, D, ctx, -⟩ := reread_ctx marked
  refine ⟨_, ?_, marked⟩
  unfold readPiece
  rw [bind_ok (raceReads_rest hl hp hc writes), bind_ok get_run, bind_ok (ctxOf_run hl hp hc)]
  simp only [badTrap_own hq sound, Option.isSome_none, raiseIf_false, pure_bind_act, rest.1, List.filter_nil, List.map_nil]
  rw [bind_ok (show chooseStores a.k [] s = .ok ((), s) from rfl), bind_ok (modify_run _), if_neg unit]
  refine (bind_ok ctx).trans ?_
  exact congrArg (fun b => Except.ok (b, _)) (padBytes_own (cp := { cp with cores := D }) unit rest.1 hq)

theorem readEngine_own (unit : a.unit ≠ .control) (hl : s.launch? a.k.lid = some l) (hp : s.copy? a.k = some cp) (hc : s.core? a.k = some c) (hq : cp.pad? (.usp c.rank) = some q)
    (sound : q.mem.badIn off n = false) (rest : cp.atRest) (writes : m.writes = []) (early : m.early = []) (e : Nat) :
    ∃ t, readEngine a m e (.pad (.usp c.rank) off) n s = .ok (q.mem.bytes off n, t) ∧ Reread s t a.k l cp c := by
  obtain ⟨t, piece, read⟩ := readPiece_engine unit hl hp hc hq sound rest
  refine ⟨t, ?_, read⟩
  have first : ownFirst a m (.pad (.usp c.rank) off) n s = .ok ((), s) := by
    unfold ownFirst
    rw [writes]
    rfl
  unfold readEngine
  rw [bind_ok first, bind_ok (ctxOf_run hl hp hc)]
  dsimp only
  rw [bind_ok piece]
  simp only [padBytes_own unit rest.1 hq, mixReads, beq_self_eq_true, if_true, pure_bind_act, early, List.isEmpty_nil]
  rfl

/-- A command that reads at once all of a place in its own scratchpad. -/
theorem readSources_own (unit : a.unit ≠ .control) (hl : s.launch? a.k.lid = some l) (hp : s.copy? a.k = some cp) (hc : s.core? a.k = some c) (hq : cp.pad? (.usp c.rank) = some q)
    (sound : q.mem.badIn off n = false) (rest : cp.atRest) (hm : a.cmd? c = some m) (chained : m.chained = false) (partly : m.partly = false) (got : m.got = []) (writes : m.writes = [])
    (early : m.early = []) (e : Nat) :
    ∃ t, readSources a e [(.pad (.usp c.rank) off, n)] s = .ok (q.mem.bytes off n, t) ∧ Reread s t a.k l cp c := by
  obtain ⟨t, piece, read⟩ := readEngine_own unit hl hp hc hq sound rest writes early e
  refine ⟨t, ?_, read⟩
  have seen : chainSeen a.k m (.pad (.usp c.rank) off) n s = .ok (true, s) := by
    unfold chainSeen
    simp only [chained]
    rfl
  unfold readSources
  rw [bind_ok (ctxOf_run hl hp hc)]
  simp only [hm, need_some, pure_bind_act, partly, got, List.isEmpty_nil, Bool.not_true, Bool.or_self, Bool.false_eq_true, if_false]
  have one : (do
      let ok ← chainSeen a.k m (.pad (.usp c.rank) off) n
      holdIf (!ok)
      readEngine a m e (.pad (.usp c.rank) off) n) s = .ok (q.mem.bytes off n, t) := by
    rw [bind_ok seen]
    exact piece
  rw [bind_ok one]
  show Except.ok (q.mem.bytes off n ++ [], t) = _
  rw [List.append_nil]

/-- A command's checked read of plain bytes of its own scratchpad. -/
theorem readSpan_own (unit : a.unit ≠ .control) (hl : s.launch? a.k.lid = some l) (hp : s.copy? a.k = some cp) (hc : s.core? a.k = some c) (h : OwnPlace cp c q ptr n 1 off) (n1 : 1 ≤ n)
    (sound : q.mem.badIn off n = false) (rest : cp.atRest) (hm : a.cmd? c = some m) (chained : m.chained = false) (partly : m.partly = false) (got : m.got = []) (writes : m.writes = [])
    (early : m.early = []) :
    ∃ t, readSpan a [] 1 (bytesAt ptr n 1) s = .ok ({ row := 0, off := 0, bytes := q.mem.bytes off n }, t) ∧ Reread s t a.k l cp c := by
  obtain ⟨t, bytes, read⟩ := readSources_own unit hl hp hc h.pad sound rest hm chained partly got writes early 1
  have check : checkAll a ptr (atLeast1 n) 1 .read [] s = .ok ([(.pad (.usp c.rank) off, n)], s) := by
    rw [atLeast1, Nat.max_eq_left n1]
    exact checkAll_own hl hp hc h
  refine ⟨t, ?_, read⟩
  unfold readSpan
  refine (bind_ok check).trans ?_
  rw [if_neg (show ¬ (bytesAt ptr n 1).n = 0 from Nat.ne_of_gt n1)]
  exact (bind_ok bytes).trans rfl

theorem byteWrites_own {bs : List Byte} (hl : s.launch? a.k.lid = some l) (hp : s.copy? a.k = some cp) (hc : s.core? a.k = some c) (h : OwnPlace cp c q ptr bs.length 1 off)
    (n1 : 1 ≤ bs.length) : byteWrites a ptr bs 0 s =
      .ok ([{ loc := .pad (.usp c.rank) off, data := bs, half := none, bytewise := true, slotOf := none }], s) := by
  have check : checkAll a ptr (atLeast1 bs.length) 1 .write [] s = .ok ([(.pad (.usp c.rank) off, bs.length)], s) := by
    rw [atLeast1, Nat.max_eq_left n1]
    exact checkAll_own hl hp hc h
  have filled : bs.isEmpty = false := by
    rw [List.isEmpty_eq_false_iff]
    exact List.ne_nil_of_length_pos n1
  have pieces : spanPieces a [] (bytesAt ptr bs.length 1) s = .ok ([(0, bs.length, .pad (.usp c.rank) off)], s) := by
    unfold spanPieces
    simp only [bytesAt]
    rw [bind_ok check]
    rfl
  unfold byteWrites
  simp only [filled, Bool.false_eq_true, if_false]
  rw [bind_ok pieces]
  simp

/-! ### The copy -/

theorem overlapped_apart {r : PadId} (pick : Nat → Bool) (bs : List Byte) (apart : off + bs.length ≤ off' ∨ off' + bs.length ≤ off) :
    overlapped (.pad r off') (.pad r off) pick bs = bs := by
  have meets : (Loc.pad r off').meets bs.length (.pad r off) bs.length = false := by
    simp only [Loc.meets, beq_self_eq_true, Bool.true_and, Bool.and_eq_false_iff, decide_eq_false_iff_not]
    omega
  unfold overlapped
  simp only [meets, Bool.not_false, Bool.or_true, Bool.true_or, if_true]

theorem runCpy_own (op : m.op = .cpy) (hl : s.launch? k.lid = some l) (hp : s.copy? k = some cp) (hc : s.core? k = some c) (hm : c.cmd? m.id = some m) (chained : m.chained = false)
    (partly : m.partly = false) (short : m.short = false) (got : m.got = []) (writes : m.writes = []) (early : m.early = []) (rest : cp.atRest) (hn : n = m.xc.toNat % 2 ^ 32) (n1 : 1 ≤ n)
    (source : OwnPlace cp c q m.xb n 1 off) (target : OwnPlace cp c q m.xa n 1 off') (sound : q.mem.badIn off n = false) (apart : off + n ≤ off' ∨ off' + n ≤ off) :
    ∃ t, runCpy k m s =
      .ok (Work.of [{ loc := .pad (.usp c.rank) off', data := q.mem.bytes off n, half := none, bytewise := true, slotOf := none }] fNone, t) ∧ Reread s t k l cp c := by
  have unit : (m.acc k 1).unit ≠ .control := by simp [Cmd.acc, op]
  have mine : (m.acc k 1).cmd? c = some m := hm
  have count : fieldNat m.xc 0 32 = n := by rw [fieldNat_eq, pow_zero, Nat.div_one, hn]
  obtain ⟨t, read, reread⟩ := readSpan_own unit hl hp hc source n1 sound rest mine chained partly got writes early
  have ⟨_, ⟨C, launch⟩, ⟨D, copy, _⟩, core, _⟩ := reread
  have ctx := ctxOf_run (k := k) launch copy core
  have length : (q.mem.bytes off n).length = n := bytes_length ..
  refine ⟨t, ?_, reread⟩
  have done : sourcesRead k m t = .ok ((), t) := by
    unfold sourcesRead readsDone
    refine (bind_ok ctx).trans ?_
    simp only [mine, Option.map_some, Option.getD_some, short, holdIf_false]
    rfl
  have source' : OwnPlace { cp with cores := D } c q m.xb n 1 off := ⟨source.self, source.offset, source.pad, source.grant, source.aligned⟩
  have target' : OwnPlace { cp with cores := D } c q m.xa n 1 off' := ⟨target.self, target.offset, target.pad, target.grant, target.aligned⟩
  unfold runCpy
  simp only [count]
  rw [if_neg (by omega), bind_ok read, bind_ok done, bind_ok ctx]
  simp only [locOf_own source', locOf_own target']
  rw [overlapped_apart _ _ (by rw [length]; exact apart)]
  rw [bind_ok (byteWrites_own (a := m.acc k 2) launch copy core (by rw [length]; exact target') (by rw [length]; exact n1))]
  rfl

theorem spentLines_none (n : Nat) (h : c.remote = []) : spentLines n c = c := by
  rw [spentLines, h, List.filter_nil, ← h]

theorem readingCore_atRest (hp : s.copy? k = some cp) (hc : s.core? k = some c) (hm : c.cmd? m.id = some m) (rest : cp.atRest) {e : Cmd}
    (he : e.writes = m.writes ∧ e.old = m.old) : (cp.modCore k.rank fun x => x.modCmd m.id fun _ => e).atRest := by
  obtain ⟨home, cores⟩ := rest
  obtain ⟨writes, old⟩ := (cores c (rank_of_core hp hc).2).2 m (List.mem_of_find?_eq_some hm)
  have still (d : Core) (hd : d ∈ cp.cores) : ∀ x ∈ (d.modCmd m.id fun _ => e).eng.cmds, x.writes = [] ∧ x.old = [] := by
    intro x hx
    obtain ⟨y, hy, rfl⟩ := List.mem_map.1 hx
    split
    · exact ⟨he.1.trans writes, he.2.trans old⟩
    · exact (cores d hd).2 y hy
  refine ⟨home, fun d hd => ?_⟩
  obtain ⟨x, hx, rfl⟩ := List.mem_map.1 hd
  split
  · exact ⟨(cores x hx).1, still x hx⟩
  · exact cores x hx

theorem modCmd_const_modCmd {e : Cmd} (he : e.id = id) (f : Cmd → Cmd) : (c.modCmd id fun _ => e).modCmd id f = c.modCmd id fun _ => f e := by
  refine congrArg (fun q => { c with eng := { c.eng with cmds := q } }) ((List.map_map ..).trans (List.map_congr_left fun x _ => ?_))
  by_cases h : (x.id == id) = true
  · simp only [Function.comp, h, if_true, he, beq_self_eq_true]
  · simp only [Function.comp, h, Bool.false_eq_true, if_false]

theorem runCommand_cpy (op : m.op = .cpy) (s : State) : runCommand k m s = runCpy k m s := by
  unfold runCommand
  rw [op]

/-- A command that had nothing to write before it has run. -/
theorem ranCmd_first (none : m.writes = []) (ws : List PendWrite) :
    ranCmd (Work.of ws fNone) m = { m with state := .running, writes := ws, raised := 0#7, norm := 0, normAdds := [] } := by
  rw [ranCmd, none]
  rfl

/-- A copy between parts of a core's own scratchpad that starts, reads all of its source at once and leaves the bytes to be performed. -/
theorem cpy_starts (hl : s.launch? k.lid = some l) (hp : s.copy? k = some cp) (hc : s.core? k = some c) (hm : c.cmd? id = some m) (ok : startOk s l cp c m = true) (op : m.op = .cpy)
    (chained : m.chained = false) (got : m.got = []) (early : m.early = []) (rest : cp.atRest) (remote : c.remote = []) (hn : n = m.xc.toNat % 2 ^ 32) (n1 : 1 ≤ n)
    (source : OwnPlace cp c q m.xb n 1 off) (target : OwnPlace cp c q m.xa n 1 off') (sound : q.mem.badIn off n = false) (apart : off + n ≤ off' ∨ off' + n ≤ off) :
    ∃ t w, exec (.engineCommandStart k { cmd := id, partly := false }) s = .next t ∧ onlyCore s t k (c.modCmd id fun _ => { m with
      state := .running, partly := false, short := false, normAt := w,
      writes := [{ loc := .pad (.usp c.rank) off', data := q.mem.bytes off n, half := none, bytewise := true, slotOf := none }], raised := 0#7, norm := 0, normAdds := [] }) := by
  obtain rfl := id_of_cmd hm
  let e := readingCmd c false m
  let f (x : Core) : Core := x.modCmd m.id fun _ => e
  obtain ⟨launch, copy, core⟩ := ctx_modCore hl hp hc f fun _ => rfl
  have still := readingCore_atRest hp hc hm rest (e := e) ⟨rfl, rfl⟩
  have writes : m.writes = [] := ((rest.2 c (rank_of_core hp hc).2).2 m (List.mem_of_find?_eq_some hm)).1
  have source' : OwnPlace (cp.modCore k.rank f) (f c) q e.xb n 1 off := ⟨source.self, source.offset, source.pad, source.grant, source.aligned⟩
  have target' : OwnPlace (cp.modCore k.rank f) (f c) q e.xa n 1 off' := ⟨target.self, target.offset, target.pad, target.grant, target.aligned⟩
  obtain ⟨t, run, reread⟩ := runCpy_own (m := e) op launch copy core (cmd_readingCore hm) chained rfl rfl got writes early still hn n1 source' target' sound apart
  have command := (runCommand_cpy (k := k) (m := e) op (s.modCore k f)).trans run
  obtain ⟨u, start, only⟩ := start_leaves hl hp hc hm ok command reread.core
  have number : e.id = m.id := rfl
  rw [ranCore, spentLines_none (c := f c) _ remote, modCmd_const_modCmd number, ranCmd_first (m := e) writes] at only
  exact ⟨u, e.normAt, start, only⟩

/-- Settles O52. -/
theorem engineSteps : Obligations.EngineSteps := by
  intro s k l cp c id m hl hp hc hm live
  refine ⟨fun part waits => start_waits hl hp hc hm waits,
    fun q off off' n ok op chained got early rest remote hn n1 source target sound apart =>
      cpy_starts hl hp hc hm ok op chained got early rest remote hn n1 source target sound apart,
    fun b n part ok op writes hb hn n1 => aclr_starts hl hp hc hm ok op writes hb hn n1, fun part ok op => vrun_starts hl hp hc hm ok op,
    fun u y hu hy sound running err op writes chunks adds single awake others => ?_,
    completion_waits hl hp hc hm, fun x err => accessFault_taken hl hc hm live err,
    fun err op => accessFault_none hl hc hm err op,
    fun p i absent => chunk_waits hl hp hc hm absent,
    fun p i w q o mem sound op running err single writes place whole bytewise filled low high hq calm home sorted =>
      chunk_performed hl hp hc hm live mem sound op running err single writes place whole bytewise filled low high hq calm home sorted⟩
  subst hu hy
  obtain ⟨t, only, calm, fault⟩ := complete_runs hl hp hc hm live sound running err op writes chunks adds single others
  refine ⟨fun none => ⟨_, congrArg Host.Outcome.next (runStep_ok (calm none)), completion_posts awake only⟩, fun some => ⟨t, ?_, only⟩⟩
  show Host.Outcome.next (runStep _ _ _) = _
  rw [runStep, fault some]

end Sys2Proof.Proofs
end

section
/-! The elements of a row (R228, R229): what a write of elements, of the first lanes, or of mask bits leaves in its register. -/

namespace Sys2Proof.Proofs

open Sys2Proof.Machine Sys2Proof.Laws

variable {w e : Nat}

/-! ### Bits of rows and masks -/

theorem elt_eq_lane (w : Nat) (x : BitVec 2048) (e : Nat) : elt w x e = lane w x e := fieldNat_eq ..

theorem lane_lt (w : Nat) (x : BitVec 2048) (e : Nat) : lane w x e < 2 ^ (8 * w) := Nat.mod_lt _ (Nat.two_pow_pos _)

theorem testBit_lane (w : Nat) (x : BitVec 2048) (e j : Nat) : (lane w x e).testBit j = (decide (j < 8 * w) && x.getLsbD (8 * w * e + j)) := by
  rw [← elt_eq_lane, elt, fieldNat, BitVec.testBit_toNat, BitVec.getLsbD_extractLsb']

theorem testBit_digits {n : Nat} (hn : 0 < n) (cs : List Nat) (i : Nat) : (digits n cs).testBit i = (cs.getD (i / n) 0).testBit (i % n) := by
  induction cs generalizing i with
  | nil => simp [digits]
  | cons c cs ih =>
    rw [digits, Nat.add_comm, Nat.testBit_two_pow_mul_add _ (Nat.mod_lt _ (Nat.two_pow_pos n))]
    by_cases h : i < n
    · rw [if_pos h, Nat.testBit_mod_two_pow, Nat.div_eq_of_lt h, Nat.mod_eq_of_lt h]
      simp [h]
    · obtain ⟨i, rfl⟩ : ∃ k, i = k + n := ⟨i - n, by omega⟩
      rw [if_neg h, Nat.add_sub_cancel, ih, Nat.add_div_right _ hn, Nat.add_mod_right]
      rfl

theorem getLsbD_rowOfElts (hw : 0 < w) (cs : List Nat) {i : Nat} (hi : i < 2048) : (rowOfElts w cs).getLsbD i = (cs.getD (i / (8 * w)) 0).testBit (i % (8 * w)) := by
  rw [rowOfElts, BitVec.getLsbD_ofNat, decide_eq_true hi, Bool.true_and, testBit_digits (by omega)]

theorem getLsbD_maskOf (hw : w ∣ 256) (f : Nat → Bool) {b : Nat} (hb : b < 256) : (maskOf w f).getLsbD b = f (b / w) := by
  have pos : 0 < w := Nat.pos_of_dvd_of_pos hw (by decide)
  have inside : b / w < nElts w := Nat.div_lt_div_of_lt_of_dvd hw hb
  rw [maskOf, BitVec.getLsbD_ofNat, decide_eq_true hb, Bool.true_and, testBit_digits pos, List.getD_eq_getElem _ _ (by simpa using inside)]
  rw [List.getElem_map, List.getElem_range]
  split
  next on => rw [on, Nat.testBit_two_pow_sub_one, decide_eq_true (Nat.mod_lt _ pos)]
  next off => rw [Nat.zero_testBit, Bool.eq_false_iff.2 off]

theorem getLsbD_mergeRow (old new : BitVec 2048) (m : BitVec 256) {i : Nat} (hi : i < 2048) :
    (mergeRow old new m).getLsbD i = if m.getLsbD (i / 8) then new.getLsbD i else old.getLsbD i := by
  have byte : i / 8 < 256 := by omega
  unfold mergeRow
  split
  next all => rw [all, BitVec.getLsbD_allOnes, decide_eq_true byte, if_pos rfl]
  next =>
    have bit (x : BitVec 2048) : (elt 1 x (i / 8)).testBit (i % 8) = x.getLsbD i := by
      rw [elt_eq_lane, testBit_lane, decide_eq_true (Nat.mod_lt _ (by decide)), Bool.true_and, Nat.mul_one, Nat.div_add_mod]
    rw [getLsbD_rowOfElts (by decide) _ hi, Nat.mul_one, List.getD_eq_getElem _ _ (by simpa using byte), List.getElem_map, List.getElem_range]
    split
    · exact bit new
    · exact bit old

/-! ### Writes of elements -/

theorem lane_mergeRow (hw : w ∣ 256) (old : BitVec 2048) (f : Nat → Bool) (cs : List Nat) (he : e < 256 / w) :
    lane w (mergeRow old (rowOfElts w cs) (maskOf w f)) e = if f e then cs.getD e 0 % 2 ^ (8 * w) else lane w old e := by
  have pos : 0 < w := Nat.pos_of_dvd_of_pos hw (by decide)
  have last : w * (e + 1) ≤ 256 := (Nat.mul_le_mul_left w he).trans (Nat.mul_div_le 256 w)
  refine Nat.eq_of_testBit_eq fun j => ?_
  rw [testBit_lane]
  by_cases hj : j < 8 * w
  · have inside : 8 * w * e + j < 2048 := by
      have : 8 * w * e + 8 * w = 8 * (w * (e + 1)) := by ring
      omega
    have elem : (8 * w * e + j) / (8 * w) = e := by rw [Nat.mul_add_div (by omega), Nat.div_eq_of_lt hj, Nat.add_zero]
    have byte : (8 * w * e + j) / 8 / w = e := by rw [Nat.div_div_eq_div_mul, elem]
    have rest : (8 * w * e + j) % (8 * w) = j := by rw [Nat.mul_add_mod, Nat.mod_eq_of_lt hj]
    rw [getLsbD_mergeRow _ _ _ inside, getLsbD_maskOf hw f (by omega), byte, getLsbD_rowOfElts pos _ inside, elem, rest]
    split
    · rw [Nat.testBit_mod_two_pow]
    · rw [testBit_lane]
  · have above {n : Nat} (hn : n < 2 ^ (8 * w)) : n.testBit j = false := Nat.testBit_lt_two_pow (hn.trans_le (Nat.pow_le_pow_right (by decide) (by omega)))
    rw [decide_eq_false hj, Bool.false_and]
    split
    · exact (above (Nat.mod_lt _ (Nat.two_pow_pos _))).symm
    · exact (above (lane_lt ..)).symm

/-- A write of whole elements: those that its test picks. -/
theorem land_vWrite (hw : w ∣ 256) (r : VRegs) (d : BitVec 5) (f : Nat → Bool) (cs : List Nat) {g : Nat → Option Nat}
    (hg : ∀ e, e < 256 / w → g e = if f e then some (cs.getD e 0 % 2 ^ (8 * w)) else none) : WritesLanes r (r.land (vWrite d w f cs)) d w g := by
  refine ⟨fun e he => ?_, fun i hi => ?_, rfl, rfl, rfl, rfl⟩
  · have row : (r.land (vWrite d w f cs)).row d = mergeRow (r.row d) (rowOfElts w cs) (maskOf w f) := Vector.getElem_set_self _
    rw [row, lane_mergeRow hw _ _ _ he, hg e he]
    split <;> rfl
  · exact Vector.getElem_set_ne d.isLt _ fun h => hi (BitVec.eq_of_toNat_eq h.symm)

/-- A write of the first lanes. -/
theorem land_laneWrite (r : VRegs) (d : BitVec 5) (cs : List Nat) : WritesLanes r (r.land (laneWrite d cs)) d 4 fun e => cs[e]?.map fun c => c % 2 ^ 32 := by
  refine land_vWrite (by decide) r d _ cs fun e _ => ?_
  by_cases h : e < cs.length
  · rw [decide_eq_true h, if_pos rfl, List.getElem?_eq_getElem h, List.getD_eq_getElem _ _ h]
    rfl
  · rw [decide_eq_false h, List.getElem?_eq_none (by omega)]
    rfl

/-- A write of the first lane. -/
theorem land_firstLane (r : VRegs) (d : BitVec 5) (n : Nat) : WritesLanes r (r.land (laneWrite d [n])) d 4 fun e => if e = 0 then some (n % 2 ^ 32) else none := by
  obtain ⟨lanes, rows, rest⟩ := land_laneWrite r d [n]
  refine ⟨fun e he => ?_, rows, rest⟩
  rw [lanes e he]
  cases e <;> rfl

/-- A write of the mask bits of the elements that a test picks. -/
theorem land_mask {i : BitVec 3} (hi : i ≠ 0#3) (hw : w ∣ 256) (r : VRegs) (on hit : Nat → Bool) :
    (r.land (.m i (maskOf w on) (maskOf w hit))).v = r.v ∧ (∀ j, j ≠ i → (r.land (.m i (maskOf w on) (maskOf w hit))).mask j = r.mask j) ∧
      ∀ b, b < 256 → ((r.land (.m i (maskOf w on) (maskOf w hit))).mask i).getLsbD b = if on (b / w) then hit (b / w) else (r.mask i).getLsbD b := by
  have landed : r.land (.m i (maskOf w on) (maskOf w hit)) = { r with m := r.m.set i.toNat ((r.mask i &&& ~~~maskOf w on) ||| (maskOf w hit &&& maskOf w on)) } := if_neg hi
  rw [landed]
  refine ⟨rfl, fun j hj => ?_, fun b hb => ?_⟩
  · unfold VRegs.mask
    split
    · rfl
    · exact Vector.getElem_set_ne i.isLt _ fun h => hj (BitVec.eq_of_toNat_eq h.symm)
  · have same : ({ r with m := r.m.set i.toNat ((r.mask i &&& ~~~maskOf w on) ||| (maskOf w hit &&& maskOf w on)) } : VRegs).mask i =
        (r.mask i &&& ~~~maskOf w on) ||| (maskOf w hit &&& maskOf w on) := (if_neg hi).trans (Vector.getElem_set_self _)
    rw [same, BitVec.getLsbD_or, BitVec.getLsbD_and, BitVec.getLsbD_and, BitVec.getLsbD_not, decide_eq_true hb, getLsbD_maskOf hw _ hb, getLsbD_maskOf hw _ hb]
    cases on (b / w) <;> simp

/-! ### Words that work element by element -/

theorem typeBytes_dvd (t : BitVec 4) : typeBytes t ∣ 256 := by
  unfold typeBytes
  split <;> decide

theorem getLsbD_joinFlags (fs : List Flags) (b : Nat) : (joinFlags fs).getLsbD b = fs.any fun f => f.getLsbD b := by
  have from' (z : Flags) : (fs.foldl (· ||| ·) z).getLsbD b = (z.getLsbD b || fs.any fun f => f.getLsbD b) := by
    induction fs generalizing z with
    | nil => exact (Bool.or_false _).symm
    | cons f fs ih => rw [List.foldl_cons, ih, BitVec.getLsbD_or, List.any_cons, Bool.or_assoc]
  rw [joinFlags, from', fNone, BitVec.getLsbD_zero, Bool.false_or]

/-- What an operation makes of element `e` of the sources. -/
def elementOut (w : Nat) (op : Nat → Nat → Nat → Nat → Nat × Flags) (r : VRegs) (v : VArgs) (e : Nat) : Nat × Flags :=
  op (lane w (r.row v.va) e) (lane w (r.row v.vb) e) (lane w (r.row v.vd) e) e

/-- An operation makes of each element what `g` gives, as far as the element holds it, with the same flags. -/
def GivesElements (w : Nat) (op : Nat → Nat → Nat → Nat → Nat × Flags) (r : VRegs) (v : VArgs) (g : Nat → Nat × Flags) : Prop :=
  ∀ e, (elementOut w op r v e).1 % 2 ^ (8 * w) = (g e).1 % 2 ^ (8 * w) ∧ (elementOut w op r v e).2 = (g e).2

/-- The one result of an element-wise word, and its flags (R229). -/
theorem land_eltWise (hw : w ∣ 256) (op : Nat → Nat → Nat → Nat → Nat × Flags) (r : VRegs) (v : VArgs) (g : Nat → Nat × Flags)
    (hg : GivesElements w op r v g) :
    ∃ x, (eltWise w op r v).1 = [x] ∧ WritesLanes r (r.land x) v.vd w (fun e => if (r.mask v.mask).getLsbD (w * e) then some ((g e).1 % 2 ^ (8 * w)) else none) ∧
      ∀ b, b < 7 → ((eltWise w op r v).2.getLsbD b = true ↔ ∃ e, e < 256 / w ∧ (r.mask v.mask).getLsbD (w * e) = true ∧ (g e).2.getLsbD b = true) := by
  simp only [GivesElements, elementOut] at hg
  refine ⟨_, rfl, land_vWrite hw _ _ _ _ fun e he => ?_, fun b _ => ?_⟩
  · rw [List.getD_eq_getElem _ _ (by simpa [nElts] using he)]
    simp only [List.getElem_map, List.getElem_range, elt_eq_lane, enabled]
    by_cases on : (r.mask v.mask).getLsbD (w * e) = true
    · simp only [on, if_true, (hg e).1]
    · simp only [on, Bool.false_eq_true, if_false]
  · dsimp only [eltWise]
    rw [getLsbD_joinFlags, List.any_eq_true]
    simp only [List.mem_map, List.mem_range, nElts, elt_eq_lane, enabled, exists_exists_and_eq_and]
    refine exists_congr fun e => and_congr_right fun _ => ?_
    by_cases on : (r.mask v.mask).getLsbD (w * e) = true
    · simp only [on, if_true, true_and, (hg e).2]
    · simp [on, fNone]

end Sys2Proof.Proofs
end

section
/-! Words of one repetition that issue with no result pending (R225, R226, R229): the element words, the moves and the counts. -/

namespace Sys2Proof.Proofs

open Sys2Proof.Machine Sys2Proof.Laws

/-! ### A stream with no result pending -/

section
variable {s t : State} {k : CoreRef} {l : Launch} {cp : Copy} {c : Core} {st : Stream}

/-- A core with its stream as given. -/
def streamed (c : Core) (st : Stream) : Core := { c with eng := { c.eng with stream := some st } }

theorem streamed_self (h : c.eng.stream = some st) : streamed c st = c := by rw [streamed, ← h]

theorem onlyCore_turn (ht : s.StreamTurn k l cp c st) : onlyCore s s k (streamed c st) := by
  rw [streamed_self ht.stream]
  exact onlyCore_refl ht.core

/-- A step of the stream alone. -/
theorem onStream_streamed (h : onlyCore s t k (streamed c st)) (f : Stream → Stream) : ∃ u, onStream k f t = .ok ((), u) ∧ onlyCore s u k (streamed c (f st)) :=
  ⟨_, rfl, onlyCore_step h (fun c => { c with eng := { c.eng with stream := c.eng.stream.map f } }) (fun _ => rfl) rfl⟩

theorem vecNow_streamed (hl : s.launch? k.lid = some l) (hp : s.copy? k = some cp) (h : onlyCore s t k (streamed c st)) :
    ∃ l' cp', vecNow k t = .ok ((l', cp', streamed c st, st), t) := by
  obtain ⟨l', cp', run, -⟩ := ctxOf_only hl hp h
  refine ⟨l', cp', ?_⟩
  rw [vecNow, bind_ok run]
  rfl

/-- With no result pending nothing lands. -/
theorem landTo_streamed (hl : s.launch? k.lid = some l) (hp : s.copy? k = some cp) (h : onlyCore s t k (streamed c st)) (idle : st.landings = []) (n : Nat) :
    ∃ u, landTo k n t = .ok ((), u) ∧ onlyCore s u k (streamed c st) := by
  obtain ⟨l', cp', now⟩ := vecNow_streamed hl hp h
  obtain ⟨u, put, only⟩ := onStream_streamed h fun st => { st with landings := st.landings.filter fun x => decide (n < x.cycle) }
  refine ⟨u, ?_, ?_⟩
  · rw [landTo, bind_ok now]
    dsimp only
    rw [bind_ok put, idle]
    rfl
  · rw [idle, List.filter_nil, ← idle] at only
    exact only

theorem atRepV_zero (v : VArgs) : atRepV v 0 = v := by simp [atRepV]

/-- A fixed-latency word of one repetition reads the registers as they are; its results and its flags land its latency later. -/
theorem fixedWordOf_issued (ht : s.StreamTurn k l cp c st) {v : VArgs} (one : v.rep = 0#8) (idle : st.landings = []) (u : Residue) (lat : Nat)
    (f : VRegs → VArgs → Nat → List LandKind × Flags) :
    ∃ t, fixedWordOf u v lat s f = .next t ∧ wordIssued s t k c st v.idle.toNat lat (f c.vregs v 0).1 (f c.vregs v 0).2 := by
  have start := onlyCore_turn ht
  obtain ⟨l', cp', now⟩ := vecNow_streamed ht.launch ht.copy start
  obtain ⟨t1, land, only1⟩ := landTo_streamed ht.launch ht.copy start idle (st.cycle + 0)
  obtain ⟨t2, push, only2⟩ := onStream_streamed only1 fun y => { y with
    landings := y.landings ++ (f c.vregs v 0).1.map fun w => { cycle := st.cycle + 0 + lat, what := w, unit := u, spc := st.spc } }
  obtain ⟨t3, finish, only3⟩ := onStream_streamed only2 fun y => { y with
    spc := y.spc + 1#14
    cycle := st.cycle + 1 + v.idle.toNat
    landings := y.landings ++ (if (f c.vregs v 0).2 ||| fNone = fNone then [] else
      [{ cycle := st.cycle + 1 - 1 + lat, what := .flags ((f c.vregs v 0).2 ||| fNone) y.spc }]) }
  have reps : repsV v = 1 := by rw [repsV, one]; rfl
  refine ⟨t3, vecWord_run ht.cur (t := t3) ((bind_ok now).trans ?_), ?_⟩
  · have rep : repBody k f u v lat st 0 s = .ok ((f c.vregs v 0).2, t2) := by
      rw [repBody, bind_ok land, bind_ok (coreNow_run only1.1)]
      rw [atRepV_zero]
      exact (bind_ok push).trans rfl
    rw [reps]
    refine (bind_ok (show repeatWord (repBody k f u v lat st) (List.range 1) s = .ok ((f c.vregs v 0).2 ||| fNone, t2) from ?_)).trans finish
    exact (bind_ok rep).trans rfl
  · refine ⟨_, ?_, only3⟩
    simp only [idle, List.nil_append, Nat.add_zero, Nat.add_sub_cancel, List.map_append, List.map_map, apply_ite (List.map _), fNone, BitVec.or_zero]
    rfl

end

/-! ### The element words -/

/-- The instruction is a fixed-latency word that works element by element, on elements of `w` bytes: `f` gives what an enabled element becomes, and
its flags. -/
def ElementWord (i : Instr) (v : VArgs) (lat w : Nat) (f : VRegs → VArgs → Nat → Nat × Flags) : Prop :=
  w ∣ 256 ∧ ∃ (h : VRegs → VArgs → Nat → List LandKind × Flags) (u : Residue), (∀ s, exec i s = fixedWordOf u v lat s h) ∧
    ∀ r, ∃ op : Nat → Nat → Nat → Nat → Nat × Flags, h r v 0 = eltWise w op r v ∧ GivesElements w op r v (f r v)

section
variable {i : Instr} {v : VArgs} {lat : Nat} {u : Residue} {f : VRegs → VArgs → Nat → Nat × Flags}

theorem elementWord_float {op : FFmt → Nat → Nat → Nat → Nat × Flags} (run : ∀ s, exec i s = floatWord v lat s op u)
    (table : f = laneOp (typeBytes v.asel) (op (typeFmt v.asel))) : ElementWord i v lat (typeBytes v.asel) f :=
  ⟨typeBytes_dvd _, _, _, run, fun _ => ⟨_, rfl, fun _ => table ▸ ⟨rfl, rfl⟩⟩⟩

theorem elementWord_int {op : Nat → Nat → Nat → Nat} (run : ∀ s, exec i s = intWord v s op)
    (table : ∀ r e, f r v e = (op (8 * typeBytes v.asel) (lane (typeBytes v.asel) (r.row v.va) e) (lane (typeBytes v.asel) (r.row v.vb) e), 0#7)) :
    ElementWord i v 2 (typeBytes v.asel) f :=
  ⟨typeBytes_dvd _, _, _, run, fun r => ⟨_, rfl, fun e => table r e ▸ ⟨rfl, rfl⟩⟩⟩

variable {w : Nat} {h : VRegs → VArgs → Nat → List LandKind × Flags} {op : VRegs → Nat → Nat → Nat → Nat → Nat × Flags}

theorem elementWord_row (run : ∀ s, exec i s = fixedWordOf u v lat s h) (shape : ∀ r, h r v 0 = eltWise w (op r) r v) (hw : w ∣ 256)
    (table : ∀ r, GivesElements w (op r) r v (f r v)) : ElementWord i v lat w f :=
  ⟨hw, h, u, run, fun r => ⟨op r, shape r, table r⟩⟩

theorem elementWord_plain (run : ∀ s, exec i s = fixedWord v lat s h) (shape : ∀ r, h r v 0 = eltWise w (op r) r v) (hw : w ∣ 256)
    (table : ∀ r, GivesElements w (op r) r v (f r v)) : ElementWord i v lat w f :=
  elementWord_row run shape hw table

end

theorem shiftRight_arith (n a b : Nat) : shiftRight true n a b = codeOf n (signedOf n a / 2 ^ (b % n)) := by
  rw [shiftRight, if_pos rfl, intCode, codeOf, toSigned_eq]
  push_cast
  rfl

/-- The order of the element type (R243). -/
theorem ltType_eq (t : BitVec 4) (a b : Nat) : ltType t a b =
    if 4 ≤ t.toNat ∧ t.toNat ≤ 6 then decide (signedOf (8 * typeBytes t) a < signedOf (8 * typeBytes t) b) else decide (a < b) := by
  rw [ltType, toSigned_eq, toSigned_eq]
  refine if_congr ?_ rfl rfl
  rw [typeSigned, Bool.and_eq_true, decide_eq_true_eq, decide_eq_true_eq]

/-- R236, R237, R243, R244, R263 to R267: each word of the table is one. -/
theorem elementWord_of_elementOf {i : Instr} {v : VArgs} {lat w : Nat} {f : VRegs → VArgs → Nat → Nat × Flags} (h : elementOf i = some (v, lat, w, f)) :
    ElementWord i v lat w f := by
  cases i
  case vadd | vsub | vmul | vfma | vfms | vrcp =>
    cases h
    apply elementWord_float
    · intro s; dsimp only [exec]; exact rfl
    · rfl
  case viadd | vimul | vand | vor | vxor | vshl | vshr =>
    cases h
    apply elementWord_int
    · intro s; dsimp only [exec]; exact rfl
    · exact fun _ _ => rfl
  case visub =>
    cases h
    apply elementWord_int
    · intro s; dsimp only [exec]; exact rfl
    · exact fun _ _ => congrArg (fun n => (n % _, _)) (Nat.add_sub_assoc (lane_lt ..).le _).symm
  case vsra =>
    cases h
    apply elementWord_int
    · intro s; dsimp only [exec]; exact rfl
    · exact fun _ _ => congrArg (fun n => (n, _)) (shiftRight_arith ..).symm
  case vimin | vimax =>
    cases h
    apply elementWord_int
    · intro s; dsimp only [exec]; exact rfl
    · intro r e
      rw [ltType_eq]
      rfl
  case vmovV =>
    cases h
    apply elementWord_plain (hw := typeBytes_dvd _)
    · intro s; dsimp only [exec]; exact rfl
    · exact fun _ => rfl
    · exact fun _ _ => ⟨rfl, rfl⟩
  case vperm =>
    cases h
    apply elementWord_plain (hw := typeBytes_dvd _)
    · intro s; dsimp only [exec]; exact rfl
    · exact fun _ => rfl
    · exact fun _ _ => ⟨congrArg (· % _) (elt_eq_lane ..), rfl⟩
  case vbcst =>
    cases h
    apply elementWord_plain (hw := by decide)
    · intro s; dsimp only [exec]; exact rfl
    · exact fun _ => rfl
    · exact fun _ _ => ⟨rfl, rfl⟩
  case viota =>
    cases h
    apply elementWord_row (hw := by decide)
    · intro s; dsimp only [exec]; exact rfl
    · exact fun _ => rfl
    · exact fun _ _ => ⟨Nat.mod_mod _ _, rfl⟩
  all_goals cases h

/-- Settles O44. -/
theorem elementWords : Obligations.ElementWords := by
  intro i v lat w f h _ s k l cp c st ht one idle
  obtain ⟨hw, run, u, runs, shape⟩ := elementWord_of_elementOf h
  obtain ⟨op, elements, agree⟩ := shape c.vregs
  obtain ⟨x, single, writes, flags⟩ := land_eltWise hw op c.vregs v _ agree
  obtain ⟨t, issue, issued⟩ := fixedWordOf_issued ht one idle u lat run
  rw [elements, single] at issued
  exact ⟨t, x, _, (runs s).trans issue, issued, writes, flags⟩

end Sys2Proof.Proofs
end

section
/-! VCMP, VCNT, VRSUM, VSEL and the VMOV forms (R245, R246, R256, R263, R264). -/

namespace Sys2Proof.Proofs

open Sys2Proof.Machine Sys2Proof.Laws

section
variable {s : State} {k : CoreRef} {l : Launch} {cp : Copy} {c : Core} {st : Stream} {v : VArgs} {M : BitVec 256} {w : Nat}
variable (ht : s.StreamTurn k l cp c st) (one : v.rep = 0#8) (idle : st.landings = [])

section
include ht one idle

/-- A word that gives its results and flags from the registers. -/
theorem fixedWord_issued {i : Instr} {lat : Nat} {f : VRegs → VArgs → Nat → List LandKind × Flags} {ls : List LandKind} {g : Flags} (run : exec i s = fixedWord v lat s f)
    (out : f c.vregs v 0 = (ls, g)) : ∃ t, exec i s = .next t ∧ wordIssued s t k c st v.idle.toNat lat ls g := by
  obtain ⟨t, issue, issued⟩ := fixedWordOf_issued ht one idle .none lat f
  rw [out] at issued
  exact ⟨t, run.trans issue, issued⟩

/-! ### The VMOV forms (R263) -/

theorem vmovCK_issued : ∃ t, exec (.vmovCK v) s = .next t ∧ wordIssued s t k c st v.idle.toNat 2 [.c (v.asel.extractLsb' 0 2) (c.vregs.const (v.va.extractLsb' 0 4))] 0#7 := by
  apply fixedWord_issued ht one idle
  · dsimp only [exec]; exact rfl
  · rfl

theorem vmovAK_issued : ∃ t, exec (.vmovAK v) s = .next t ∧ wordIssued s t k c st v.idle.toNat 2
    [.a (v.vd.extractLsb' 0 4) (ofU ((c.vregs.const (v.va.extractLsb' 0 4)).toNat + 2 ^ 32 * (c.vregs.const (v.vb.extractLsb' 0 4)).toNat))] 0#7 := by
  have pair (x y : BitVec 32) : (y ++ x : Word) = ofU (x.toNat + 2 ^ 32 * y.toNat) := by
    apply BitVec.eq_of_toNat_eq
    rw [BitVec.toNat_append, ← Nat.shiftLeft_add_eq_or_of_lt x.isLt, Nat.shiftLeft_eq, ofU, BitVec.toNat_ofNat]
    omega
  rw [← pair]
  apply fixedWord_issued ht one idle
  · dsimp only [exec]; exact rfl
  · rfl

theorem vmovAdd_issued : ∃ t, exec (.vmovAdd v) s = .next t ∧ wordIssued s t k c st v.idle.toNat 2
    [.a (v.vd.extractLsb' 0 4) (tagSum (c.vregs.addr (v.vd.extractLsb' 0 4)) (ofS (c.vregs.const (v.va.extractLsb' 0 4)).toInt))] 0#7 := by
  rw [← tadd_value]
  apply fixedWord_issued ht one idle
  · dsimp only [exec]; exact rfl
  · rfl

theorem vmovKV_issued : ∃ t, exec (.vmovKV v) s = .next t ∧ wordIssued s t k c st v.idle.toNat 2
    [.k (v.vd.extractLsb' 0 4) (BitVec.ofNat 32 (lane 4 (c.vregs.row v.va) 0))] 0#7 := by
  rw [← elt_eq_lane]
  apply fixedWord_issued ht one idle
  · dsimp only [exec]; exact rfl
  · rfl

end

/-! ### VCMP (R245) -/

/-- The conditions of VCMP on integers. -/
def intCond (t : BitVec 4) (cond p q : Nat) : Bool :=
  let lt : Bool := if t.toNat ≤ 6 then decide (signedOf (8 * typeBytes t) p < signedOf (8 * typeBytes t) q) else decide (p < q)
  match cond with
  | 0 => p == q
  | 1 => p != q
  | 2 => lt
  | _ => lt || p == q

theorem vCond_int {t : BitVec 4} (int : 4 ≤ t.toNat) (cond p q : Nat) : vCond cond t p q = intCond t cond p q := by
  have order : ltType t p q = if t.toNat ≤ 6 then decide (signedOf (8 * typeBytes t) p < signedOf (8 * typeBytes t) q) else decide (p < q) := by
    rw [ltType_eq]
    simp only [int, true_and]
  have float : typeFloat t = false := decide_eq_false (by omega)
  unfold vCond intCond
  simp only [float, Bool.false_eq_true, if_false, order]
  rfl

theorem condition_eq (d : BitVec 5) : (d.extractLsb' 3 2).toNat = d.toNat / 8 := by
  have := d.isLt
  rw [BitVec.extractLsb'_toNat, Nat.shiftRight_eq_div_pow]
  omega

include ht one idle in
theorem vcmp_issued (hd : v.vd.extractLsb' 0 3 ≠ 0#3) (int : 4 ≤ v.asel.toNat) (hM : M = c.vregs.mask v.mask) (hw : w = typeBytes v.asel) :
    ∃ t x, exec (.vcmp v) s = .next t ∧ wordIssued s t k c st v.idle.toNat 2 [x] 0#7 ∧
      (c.vregs.land x).v = c.vregs.v ∧ (∀ i, i ≠ v.vd.extractLsb' 0 3 → (c.vregs.land x).mask i = c.vregs.mask i) ∧
      ∀ b, b < 256 → ((c.vregs.land x).mask (v.vd.extractLsb' 0 3)).getLsbD b = if M.getLsbD (b / w * w) then
          intCond v.asel (v.vd.toNat / 8) (lane w (c.vregs.row v.va) (b / w)) (lane w (c.vregs.row v.vb) (b / w))
        else (c.vregs.mask (v.vd.extractLsb' 0 3)).getLsbD b := by
  subst hM hw
  obtain ⟨t, run, issued⟩ : ∃ t, exec (.vcmp v) s = .next t ∧ wordIssued s t k c st v.idle.toNat 2 _ 0#7 := by
    apply fixedWord_issued ht one idle
    · dsimp only [exec]; exact rfl
    · rfl
  obtain ⟨rows, others, bits⟩ := land_mask hd (typeBytes_dvd v.asel) c.vregs (enabled (typeBytes v.asel) (c.vregs.mask v.mask)) fun e =>
    enabled (typeBytes v.asel) (c.vregs.mask v.mask) e &&
      vCond (v.vd.extractLsb' 3 2).toNat v.asel (elt (typeBytes v.asel) (c.vregs.row v.va) e) (elt (typeBytes v.asel) (c.vregs.row v.vb) e)
  refine ⟨t, _, run, issued, rows, others, fun b hb => (bits b hb).trans ?_⟩
  rw [enabled, Nat.mul_comm, vCond_int int, condition_eq, elt_eq_lane, elt_eq_lane]
  split
  next on => rw [on, Bool.true_and]
  next => rfl

/-! ### VCNT, VRSUM and VSEL (R246, R256, R264) -/

/-- How many elements of `w` bytes two masks both enable. -/
def bothEnabled (w : Nat) (m n : BitVec 256) : Nat := ((List.range (256 / w)).filter fun e => m.getLsbD (w * e) && n.getLsbD (w * e)).length

theorem bothEnabled_lt (w : Nat) (m n : BitVec 256) : bothEnabled w m n < 2 ^ 32 := by
  refine (List.length_filter_le ..).trans_lt ?_
  rw [List.length_range]
  exact (Nat.div_le_self ..).trans_lt (by decide)

section
include ht one idle

theorem vcnt_issued (hM : M = c.vregs.mask v.mask) (hw : w = typeBytes v.asel) : ∃ t x, exec (.vcnt v) s = .next t ∧ wordIssued s t k c st v.idle.toNat 6 [x] 0#7 ∧
    WritesLanes c.vregs (c.vregs.land x) v.vd 4 (fun e => if e = 0 then some (bothEnabled w M (c.vregs.mask (v.va.extractLsb' 0 3))) else none) := by
  subst hM hw
  obtain ⟨t, run, issued⟩ : ∃ t, exec (.vcnt v) s = .next t ∧
      wordIssued s t k c st v.idle.toNat 6 [laneWrite v.vd [bothEnabled (typeBytes v.asel) (c.vregs.mask v.mask) (c.vregs.mask (v.va.extractLsb' 0 3))]] 0#7 := by
    apply fixedWord_issued ht one idle
    · dsimp only [exec]; exact rfl
    · simp only [enabled, BitVec.getLsbD_and]
      rfl
  have first := land_firstLane c.vregs v.vd (bothEnabled (typeBytes v.asel) (c.vregs.mask v.mask) (c.vregs.mask (v.va.extractLsb' 0 3)))
  rw [Nat.mod_eq_of_lt (bothEnabled_lt ..)] at first
  exact ⟨t, _, run, issued, first⟩

theorem vrsum_issued (int : v.asel = 4#4 ∨ v.asel = 8#4) (hM : M = c.vregs.mask v.mask) : ∃ t x, exec (.vrsum v) s = .next t ∧ wordIssued s t k c st v.idle.toNat 6 [x] 0#7 ∧
    WritesLanes c.vregs (c.vregs.land x) v.vd 4 (fun e => if e = 0 then
      some ((((List.range 64).filter fun e => M.getLsbD (4 * e)).map fun e => lane 4 (c.vregs.row v.va) e).sum % 2 ^ 32) else none) := by
  subst hM
  have words : typeBytes v.asel = 4 ∧ typeFloat v.asel = false := by rcases int with h | h <;> rw [h] <;> exact ⟨rfl, rfl⟩
  have terms : sources c.vregs v = ((List.range 64).filter fun e => (c.vregs.mask v.mask).getLsbD (4 * e)).map fun e => lane 4 (c.vregs.row v.va) e := by
    unfold sources
    simp only [words.1, elt_eq_lane]
    rfl
  obtain ⟨t, run, issued⟩ : ∃ t, exec (.vrsum v) s = .next t ∧ wordIssued s t k c st v.idle.toNat 6 [laneWrite v.vd [(sources c.vregs v).sum % 2 ^ 32]] 0#7 := by
    apply fixedWord_issued ht one idle
    · dsimp only [exec]; exact rfl
    · dsimp only
      rw [words.2, List.sum_eq_foldl]
      rfl
  have first := land_firstLane c.vregs v.vd ((sources c.vregs v).sum % 2 ^ 32)
  rw [Nat.mod_mod, terms] at first
  exact ⟨t, _, run, terms ▸ issued, first⟩

theorem vsel_issued (hM : M = c.vregs.mask v.mask) (hw : w = typeBytes v.asel) : ∃ t x, exec (.vsel v) s = .next t ∧ wordIssued s t k c st v.idle.toNat 2 [x] 0#7 ∧
    WritesLanes c.vregs (c.vregs.land x) v.vd w (fun e => some (lane w (c.vregs.row (if M.getLsbD (w * e) then v.va else v.vb)) e)) := by
  subst hM hw
  obtain ⟨t, run, issued⟩ : ∃ t, exec (.vsel v) s = .next t ∧ wordIssued s t k c st v.idle.toNat 2 _ 0#7 := by
    apply fixedWord_issued ht one idle
    · dsimp only [exec]; exact rfl
    · rfl
  refine ⟨t, _, run, issued, land_vWrite (typeBytes_dvd _) _ _ _ _ fun e he => ?_⟩
  rw [if_pos rfl, List.getD_eq_getElem _ _ (by simpa [nElts] using he)]
  simp only [List.getElem_map, List.getElem_range, enabled, elt_eq_lane]
  split
  · rw [Nat.mod_eq_of_lt (lane_lt ..)]
  · rw [Nat.mod_eq_of_lt (lane_lt ..)]

end

end

/-- VCMP's destination is a mask register other than m0 (R58, R245). -/
theorem vcmp_dest {v : VArgs} (h : (Instr.vcmp v).wf = true) : v.vd.extractLsb' 0 3 ≠ 0#3 := by
  simp only [Instr.wf, Bool.and_eq_true, decide_eq_true_eq] at h
  intro zero
  have low := congrArg BitVec.toNat zero
  rw [BitVec.extractLsb'_toNat] at low
  exact h.2 low

/-- Settles O45. -/
theorem moveAndCountWords : Obligations.MoveAndCountWords := by
  intro s k l cp c st v M w ht one idle hM hw
  refine ⟨fun wf int => ?_, fun _ => vcnt_issued ht one idle hM hw, fun int => vrsum_issued ht one idle int hM, fun _ => vsel_issued ht one idle hM hw,
    vmovCK_issued ht one idle, vmovAK_issued ht one idle, vmovAdd_issued ht one idle, vmovKV_issued ht one idle⟩
  subst hw
  exact vcmp_issued ht one idle (vcmp_dest wf) int hM rfl

end Sys2Proof.Proofs
end

section
/-! Control of a stream (R268 to R270), the landing of results (R225) and the elastic words (R227, R258). -/

namespace Sys2Proof.Proofs

open Sys2Proof.Machine Sys2Proof.Laws

variable {s t : State} {k : CoreRef} {l : Launch} {cp : Copy} {c : Core} {st : Stream}

/-! ### The earliest landing -/

/-- The earliest of the pending cycles. -/
theorem firstLanding_eq {ls : List Landing} {n : Nat} (reached : ∃ z ∈ ls, z.cycle = n) (least : ∀ z ∈ ls, n ≤ z.cycle) : firstLanding ls = some n := by
  have fold (ls : List Landing) (a : Nat) (reached : a = n ∨ ∃ z ∈ ls, z.cycle = n) (below : n ≤ a) (least : ∀ z ∈ ls, n ≤ z.cycle) :
      ls.foldl (fun n y => min n y.cycle) a = n := by
    induction ls generalizing a with
    | nil => exact reached.resolve_right fun ⟨_, h, _⟩ => nomatch h
    | cons y ls ih =>
      obtain ⟨first, least⟩ := List.forall_mem_cons.1 least
      refine ih (min a y.cycle) ?_ (le_min below first) least
      rw [List.exists_mem_cons_iff] at reached
      rcases reached with rfl | rfl | later
      · exact .inl (min_eq_left first)
      · exact .inl (min_eq_right below)
      · exact .inr later
  cases ls with
  | nil =>
    obtain ⟨z, hz, -⟩ := reached
    cases hz
  | cons y ls =>
    obtain ⟨first, least⟩ := List.forall_mem_cons.1 least
    exact congrArg some (fold ls y.cycle ((List.exists_mem_cons_iff ..).1 reached) first least)

/-! ### VSETK, VLP and VEND -/

/-- A word without flags is over. -/
theorem endWord_plain (k : CoreRef) (n m : Nat) : endWord k n m fNone = onStream k fun st => { st with spc := st.spc + 1#14, cycle := n } := by
  unfold endWord
  simp only [if_true, List.append_nil]

section
variable (hl : s.launch? k.lid = some l) (hp : s.copy? k = some cp) (hc : s.core? k = some c) (hs : c.eng.stream = some st)
variable (ha : c.policy.aen = 0#5) (hd : c.policy.dfen = false)
include hl hp hc hs

theorem vecNow_start : ∃ l' cp' d, vecNow k s = .ok ((l', cp', d, st), s) := issuedOnly_vecNow hl hp (issuedOnly_start hc hs)

include ha hd in
theorem landTo_start (n : Nat) : ∃ t, landTo k n s = .ok ((), t) ∧ issuedOnly s t k c ((c.issue st).land n) (waitingOf st ((c.issue st).land n)) :=
  landTo_run hl hp ha hd n (issuedOnly_start hc hs)

section
variable (cur : s.cur = .vec k)
include cur

include ha hd in
/-- R268. -/
theorem vsetk_issues (d : BitVec 4) (n : BitVec 32) (idle : BitVec 4) {x : Issue} (hx : x = (c.issue st).land st.cycle) :
    ∃ t, exec (.vsetk d n idle) s = .next t ∧ issuedOnly s t k c x { st with
      spc := st.spc + 1#14, cycle := st.cycle + 1 + idle.toNat, landings := x.wait ++ [{ cycle := st.cycle + 2, what := .k d n }] } := by
  subst hx
  obtain ⟨_, _, _, now⟩ := vecNow_start hl hp hc hs
  obtain ⟨t1, land, landed⟩ := landTo_start hl hp hc hs ha hd st.cycle
  obtain ⟨t2, push, pushed⟩ := issuedOnly_stream landed fun y => { y with landings := y.landings ++ [{ cycle := st.cycle + 2, what := .k d n }] }
  obtain ⟨t3, finish, done⟩ := issuedOnly_stream pushed fun y => { y with spc := y.spc + 1#14, cycle := st.cycle + 1 + idle.toNat }
  refine ⟨t3, vecWord_run cur ((bind_ok now).trans ((bind_ok land).trans ((bind_ok push).trans ?_))), done⟩
  rw [endWord_plain]
  exact finish

include ha hd in
/-- R269. -/
theorem vlp_issues (d : BitVec 2) (g : BitVec 14) (idle : BitVec 5) {n : BitVec 32} {x : Issue} (hx : x = (c.issue st).land st.cycle) (hn : n = x.regs.ctr d) :
    ∃ t, exec (.vlp d g idle) s = .next t ∧ issuedOnly s t k c x { st with
      spc := if n = 0#32 then st.spc + 1#14 else g, cycle := st.cycle + 1 + idle.toNat,
      landings := x.wait ++ (if n = 0#32 then [] else [{ cycle := st.cycle + 1, what := .c d (n - 1#32) }]) } := by
  subst hn
  obtain ⟨_, _, _, now⟩ := vecNow_start hl hp hc hs
  obtain ⟨t1, land, landed⟩ := landTo_start hl hp hc hs ha hd st.cycle
  rw [← hx] at landed
  obtain ⟨r, regs⟩ := issuedOnly_coreNow landed
  obtain ⟨t2, finish, done⟩ := issuedOnly_stream landed fun y => { y with spc := y.spc + 1#14, cycle := st.cycle + 1 + idle.toNat }
  have counter : (c.issued x r (waitingOf st x)).vregs.ctr d = x.regs.ctr d := rfl
  by_cases zero : x.regs.ctr d = 0#32
  · refine ⟨t2, vecWord_run cur ((bind_ok now).trans ((bind_ok land).trans ((bind_ok regs).trans ?_))), ?_⟩
    · rw [endWord_plain, bind_ok finish, counter, if_neg (not_not.2 zero)]
      rfl
    · simp only [zero, if_true, List.append_nil]
      exact done
  · obtain ⟨t3, push, pushed⟩ := issuedOnly_stream done fun y => { y with landings := y.landings ++ [{ cycle := st.cycle + 1, what := .c d (x.regs.ctr d - 1#32) }] }
    obtain ⟨t4, jump, jumped⟩ := issuedOnly_stream pushed fun y => { y with spc := g }
    refine ⟨t4, vecWord_run cur ((bind_ok now).trans ((bind_ok land).trans ((bind_ok regs).trans ?_))), ?_⟩
    · rw [endWord_plain, bind_ok finish, counter, if_pos zero]
      exact (bind_ok push).trans jump
    · simp only [zero, if_false]
      exact jumped

/-- R270. -/
theorem vend_ends : ∃ t, exec .vend s = .next t ∧ onlyCore s t k { c with eng := { c.eng with stream := some { st with ended := true } } } := by
  obtain ⟨t, run, only⟩ := onStream_streamed (onlyCore_turn ⟨cur, hl, hp, hc, hs⟩) fun y => { y with ended := true }
  exact ⟨t, vecWord_run (act := fun k => onStream k fun y => { y with ended := true }) cur run, only⟩

end

/-! ### Landing and completion -/

section
variable (live : engineLive l = true) (err : st.err = none)
include live err

omit hp in
theorem streamStep_run {act : Stream → Act Unit} (run : act st s = .ok ((), t)) : streamStep k act s = t := by
  unfold streamStep
  simp only [hl, hc, Option.bind_some, hs, live, err, Option.isSome_none, Bool.not_true, Bool.or_self, Bool.false_eq_true, if_false, run]

include ha hd in
/-- R225: the earliest results land once their cycle is reached. -/
theorem landing_lands {n : Nat} (elastic : st.elastic = none) (reached : ∃ z ∈ st.landings, z.cycle = n)
    (least : ∀ z ∈ st.landings, n ≤ z.cycle) (due : st.ended = true ∨ n ≤ st.cycle) :
    ∃ t, exec (.vectorResultLanding k) s = .next t ∧ issuedOnly s t k c ((c.issue st).land n) { st with landings := ((c.issue st).land n).wait } := by
  obtain ⟨t, land, landed⟩ := landTo_start hl hp hc hs ha hd n
  refine ⟨t, congrArg Host.Outcome.next (streamStep_run hl hc hs live err ?_), landed⟩
  have may : (st.elastic.isNone && (st.ended || decide (n ≤ st.cycle))) = true := by
    rw [elastic]
    rcases due with due | due <;> simp [due]
  simp only [firstLanding_eq reached least, may, if_true]
  exact land

omit hp in
theorem landing_waits {n : Nat} (reached : ∃ z ∈ st.landings, z.cycle = n) (least : ∀ z ∈ st.landings, n ≤ z.cycle) (more : st.ended = false) (before : st.cycle < n) :
    exec (.vectorResultLanding k) s = .next s := by
  refine congrArg Host.Outcome.next (streamStep_run hl hc hs live err ?_)
  have wait : (st.elastic.isNone && (st.ended || decide (n ≤ st.cycle))) = false := by
    rw [more, decide_eq_false (by omega), Bool.or_false, Bool.and_false]
  simp only [firstLanding_eq reached least, wait, Bool.false_eq_true, if_false]
  rfl

include ha hd in
/-- R227: an elastic word completes. -/
theorem elastic_completes {n least idle : Nat} (elastic : st.elastic = some (least, idle)) (reached : least ≤ n) :
    ∃ t, exec (.elasticWordCompletion k n) s = .next t ∧
      issuedOnly s t k c ((c.issue st).land n) { st with elastic := none, cycle := n + 1 + idle, landings := ((c.issue st).land n).wait } := by
  obtain ⟨t1, put, kept⟩ := issuedOnly_stream (issuedOnly_start hc hs) fun y => { y with elastic := none, cycle := n + 1 + idle }
  obtain ⟨t, land, landed⟩ := landTo_run (st := { st with elastic := none, cycle := n + 1 + idle }) hl hp ha hd n kept
  refine ⟨t, congrArg Host.Outcome.next (streamStep_run hl hc hs live err ?_), landed⟩
  simp only [elastic]
  rw [if_neg (by omega)]
  exact (bind_ok put).trans land

omit hp in
theorem elastic_waits {n least idle : Nat} (elastic : st.elastic = some (least, idle)) (early : n < least) : exec (.elasticWordCompletion k n) s = .next s := by
  refine congrArg Host.Outcome.next (streamStep_run hl hc hs live err ?_)
  simp only [elastic]
  rw [if_pos early]
  rfl

end

end

/-! ### VPART (R258) -/

/-- An elastic word of one repetition with no result pending, which changes the vector registers: it is to complete from its own cycle on. -/
theorem elasticWord_issued (ht : s.StreamTurn k l cp c st) {v : VArgs} (one : v.rep = 0#8) (idle : st.landings = []) {i : Instr} {body : CoreRef → VArgs → Nat → Act Flags} {R : VRegs}
    {g : Flags} (word : exec i s = elasticWord v s body)
    (run : ∀ t, onlyCore s t k (streamed c st) → ∃ u, body k v 0 t = .ok (g, u) ∧ onlyCore s u k (streamed { c with vregs := R } st)) :
    ∃ t y, exec i s = .next t ∧ onlyCore s t k (streamed { c with vregs := R } y) ∧ y.elastic = some (st.cycle, v.idle.toNat) ∧ y.spc = st.spc + 1#14 ∧
      (y.landings = [] ↔ g = fNone) := by
  have start := onlyCore_turn ht
  obtain ⟨_, _, now⟩ := vecNow_streamed ht.launch ht.copy start
  obtain ⟨t1, land, landed⟩ := landTo_streamed ht.launch ht.copy start idle (lastLanding st.landings)
  obtain ⟨t2, work, worked⟩ := run t1 landed
  obtain ⟨t3, finish, done⟩ := onStream_streamed worked fun y => { y with
    spc := y.spc + 1#14
    cycle := st.cycle
    landings := y.landings ++ (if g ||| fNone = fNone then [] else [{ cycle := st.cycle, what := .flags (g ||| fNone) y.spc }]) }
  obtain ⟨t4, mark, marked⟩ := onStream_streamed done fun y => { y with elastic := some (st.cycle, v.idle.toNat) }
  have reps : repsV v = 1 := by rw [repsV, one]; rfl
  have last : max (st.cycle + repsV v - 1) (lastLanding st.landings) = st.cycle := by
    rw [idle, reps]
    exact Nat.max_eq_left (Nat.zero_le _)
  refine ⟨t4, _, word.trans <| vecWord_run ht.cur ((bind_ok now).trans ((bind_ok ((bind_ok now).trans land)).trans ?_)), marked, rfl, rfl, ?_⟩
  · have rep : repeatWord (fun j => body k (atRepV v j) j) (List.range (repsV v)) t1 = .ok (g ||| fNone, t2) := by
      rw [reps]
      refine (bind_ok (a := g) (s' := t2) ?_).trans rfl
      show body k (atRepV v 0) 0 t1 = _
      rw [atRepV_zero]
      exact work
    refine (bind_ok rep).trans ?_
    unfold endElastic
    simp only [last]
    exact (bind_ok finish).trans mark
  · simp only [idle, List.nil_append, ite_eq_left_iff, List.cons_ne_nil, imp_false, not_not, fNone, BitVec.or_zero]

/-- The lanes of outcome `o` among the enabled ones. -/
def lanesOf (r : VRegs) (v : VArgs) (o : Nat) : List Nat := (List.range 64).filter fun e => (r.mask v.mask).getLsbD (4 * e) && lane 4 (r.row v.va) e == o

theorem partLanes_eq (r : VRegs) (v : VArgs) : partLanes r v = lanesOf r v := by
  funext o
  simp only [partLanes, lanesOf, enabled, elt_eq_lane]

theorem lanesOf_length_lt (r : VRegs) (v : VArgs) (o : Nat) : (lanesOf r v o).length < 2 ^ 32 := by
  refine (List.length_filter_le ..).trans_lt ?_
  rw [List.length_range]
  decide

/-- The registers after VPART: the lists, then the counts. -/
def parted (r : VRegs) (v : VArgs) : VRegs :=
  (r.land (laneWrite v.vd ((List.range 4).map (partLanes r v)).flatten)).land (laneWrite v.vb (((List.range 4).map (partLanes r v)).map List.length))

theorem parted_lists (r : VRegs) {v : VArgs} (apart : v.vd ≠ v.vb) {e : Nat} (he : e < 64) :
    lane 4 ((parted r v).row v.vd) e = (((List.range 4).flatMap (lanesOf r v))[e]?).getD (lane 4 (r.row v.vd) e) := by
  have lists : ((List.range 4).map (partLanes r v)).flatten = (List.range 4).flatMap (lanesOf r v) := by rw [partLanes_eq, List.flatMap_def]
  rw [parted, (land_laneWrite _ v.vb _).rows _ apart, (land_laneWrite r v.vd _).lanes e he, lists]
  cases entry : ((List.range 4).flatMap (lanesOf r v))[e]? with
  | none => rfl
  | some i =>
    obtain ⟨o, -, mem⟩ := List.mem_flatMap.1 (List.mem_of_getElem? entry)
    have small : i < 64 := List.mem_range.1 (List.mem_filter.1 mem).1
    exact Nat.mod_eq_of_lt (by omega)

theorem parted_counts (r : VRegs) {v : VArgs} (apart : v.vd ≠ v.vb) {o : Nat} (ho : o < 64) :
    lane 4 ((parted r v).row v.vb) o = if o < 4 then (lanesOf r v o).length else lane 4 (r.row v.vb) o := by
  rw [parted, (land_laneWrite _ v.vb _).lanes o ho, (land_laneWrite r v.vd _).rows _ apart.symm, partLanes_eq, List.map_map, List.getElem?_map]
  by_cases h : o < 4
  · rw [if_pos h, List.getElem?_range h]
    exact Nat.mod_eq_of_lt (lanesOf_length_lt r v o)
  · rw [if_neg h, List.getElem?_eq_none (by simpa using h)]
    rfl

/-- The flags of VPART: an outcome beyond 3 is none. -/
def partFlags (r : VRegs) (v : VArgs) : Flags :=
  if (List.range 64).any fun e => enabled 4 (r.mask v.mask) e && decide (4 ≤ elt 4 (r.row v.va) e) then fFormat else fNone

theorem partFlags_eq_none (r : VRegs) (v : VArgs) : partFlags r v = fNone ↔ ∀ e, e < 64 → (r.mask v.mask).getLsbD (4 * e) = true → lane 4 (r.row v.va) e < 4 := by
  have format : fFormat ≠ fNone := by decide
  simp only [partFlags, ite_eq_right_iff, format, imp_false, List.any_eq_true, not_exists, not_and, List.mem_range, Bool.and_eq_true, decide_eq_true_eq, enabled, elt_eq_lane, not_le]

theorem vpart_issued (ht : s.StreamTurn k l cp c st) {v : VArgs} (one : v.rep = 0#8) (idle : st.landings = []) :
    ∃ t y, exec (.vpart v) s = .next t ∧ onlyCore s t k (streamed { c with vregs := parted c.vregs v } y) ∧ y.elastic = some (st.cycle, v.idle.toNat) ∧ y.spc = st.spc + 1#14 ∧
      (y.landings = [] ↔ partFlags c.vregs v = fNone) := by
  apply elasticWord_issued ht one idle
  · dsimp only [exec]; exact rfl
  · exact fun t only => ⟨_, (bind_ok (coreNow_run only.1)).trans ((bind_ok (onCore_run ..)).trans rfl), onlyCore_step only _ (fun _ => rfl) rfl⟩

/-- Settles O46. -/
theorem streamControl : Obligations.StreamControl := by
  intro s k l cp c st x hl hp hc hs ha hd hx
  refine ⟨fun cur => ⟨fun d n idle => vsetk_issues hl hp hc hs ha hd cur d n idle hx, fun d g idle n hn => vlp_issues hl hp hc hs ha hd cur d g idle hx hn,
    vend_ends hl hp hc hs cur, fun v one idle apart => ?_⟩, fun live err => ⟨fun n y elastic reached least hy => ?_, fun n least idle m y elastic _ _ hy => ?_⟩⟩
  · obtain ⟨t, y, run, only, elastic, spc, flags⟩ := vpart_issued ⟨cur, hl, hp, hc, hs⟩ one idle
    exact ⟨t, _, y, run, only, rfl, elastic, spc, rfl, rfl, rfl, fun e he => parted_lists c.vregs apart he, fun o ho => parted_counts c.vregs apart ho,
      flags.trans (partFlags_eq_none ..)⟩
  · subst hy
    exact ⟨landing_lands hl hp hc hs ha hd live err elastic reached least, landing_waits hl hc hs live err reached least⟩
  · subst hy
    exact ⟨elastic_waits hl hc hs live err elastic, elastic_completes hl hp hc hs ha hd live err elastic⟩

end Sys2Proof.Proofs
end

section
/-! A vector store to a scratchpad whose bytes are not in canonical form (R252): a byte that it writes does not read as written. -/

namespace Sys2Proof.Proofs

open Sys2Proof.Machine Sys2Proof.Laws

/-- A scratchpad that lists its first byte twice. -/
def doubledPad : Pad := { id := .usp 0, limit := 256, phys := 0, mem := { cells := [(0, 1#8), (0, 2#8)], dflt := 0#8, bad := [] }, chunks := [] }

/-- The stream of a core with that scratchpad; all its registers v are zero, its registers a point at the first byte. -/
def doubledTurn : State :=
  { (State.reset.withFetchWord 48 0).modCopy onlyRank fun cp => { cp with pads := [doubledPad] } with cur := .vec onlyRank }

/-- A store of v1 through a4. -/
def storeRow : VArgs := { vd := 1#5, va := 0#5, vb := 0#5, mask := 0#3, walk := 0#2, rep := 0#8, asel := 4#4, step := 0#3, idle := 0#5 }

/-- What the first byte of that scratchpad reads as once the writes of the stream's command are performed. -/
def firstStored (s : State) : Option Byte :=
  (s.core? onlyRank).bind fun c => c.eng.cmds.head?.map fun m => (padWritten 0 doubledPad.mem m.writes).get 0

/-- The same after an instruction. -/
def firstStoredBy (i : Instr) (s : State) : Option Byte :=
  match exec i s with
  | .next t => firstStored t
  | .fault _ => none
  | .refused _ => none

/-- The store of zeros takes away the first entry of the byte, and the second is read. -/
theorem doubledTurn_store : firstStoredBy (.vst storeRow) doubledTurn = some 2#8 := by decide +kernel

theorem doubledTurn_atRest : ∃ l cp c, doubledTurn.StreamAtRest onlyRank l cp c fetchStream fetchVrun ∧ cp.pad? (.usp c.rank) = some doubledPad ∧ c.rank = 0 ∧
    c.vregs = VRegs.start ∧ c.eng.cmds = [fetchVrun] := by
  refine ⟨_, _, _, ⟨⟨rfl, rfl, rfl, rfl, rfl⟩, rfl, rfl, rfl, rfl, rfl, fun d hd => ?_⟩, rfl, rfl, rfl, rfl⟩
  cases List.mem_singleton.1 hd
  exact ⟨rfl, fun m hm => by cases List.mem_singleton.1 hm; exact ⟨rfl, rfl⟩⟩

/-- Refutes O47: the statement does not ask that the scratchpad's bytes be in canonical form (`Store.wf`). Where an offset is listed twice, a store of
the value that unlisted offsets have takes away the first entry only, and the second is read. -/
theorem not_vectorMemory : ¬ Obligations.VectorMemory := by
  intro h
  obtain ⟨l, cp, c, rest, pad, rank, regs, running⟩ := doubledTurn_atRest
  have place : OwnPlace cp c doubledPad (c.vregs.addr storeRow.asel) 256 16 0 := by
    rw [regs]
    exact ⟨by decide, by decide, pad, by decide, by decide⟩
  obtain ⟨rows, -⟩ := h doubledTurn onlyRank l cp c fetchStream fetchVrun storeRow doubledPad _ _ _ rest rfl rfl rfl rfl rfl
  obtain ⟨-, t, d, ws, step, only, -, -, -, cmds, bytes⟩ := rows 0 place rfl
  have zero : (padWritten c.rank doubledPad.mem ws).get 0 = 0#8 := by
    have row : VRegs.start.row storeRow.vd = 0#2048 := Vector.getElem_replicate _
    have zeros : lane 1 0#2048 0 = 0 := by rw [lane, BitVec.toNat_zero, Nat.zero_div, Nat.zero_mod]
    have enabled : (VRegs.start.mask storeRow.mask).getLsbD 0 = true := BitVec.getLsbD_allOnes.trans rfl
    rw [bytes 0, regs, if_pos ⟨Nat.le_refl 0, by decide, enabled⟩, row, Nat.sub_self, zeros]
  have stored : firstStoredBy (.vst storeRow) doubledTurn = some ((padWritten 0 doubledPad.mem ws).get 0) := by
    rw [firstStoredBy, step]
    simp only [firstStored, only.1, Option.bind_some, cmds, running]
    rfl
  rw [rank] at zero
  rw [zero, doubledTurn_store] at stored
  exact absurd stored (by decide)

end Sys2Proof.Proofs
end
